-- ==== Sys2Proof/Word.lean ====
section
/-! DEFINITION. Word.lean: the words the convoy link carries and the fixed-size tables the part holds.
The link counts in bytes (7.1); the TAG of a frame has four bits (7.5.1); fields of two and four bytes
are sent high byte first (7.5). Quantities the manual counts with are `Nat` and `Int`. -/

namespace Sys2Proof

/-- One byte of a frame (R147). -/
abbrev Byte := BitVec 8

/-- A field of two bytes (7.5). -/
abbrev Half := BitVec 16

/-- A field of four bytes (7.5). -/
abbrev Quad := BitVec 32

/-- The four-bit TAG, and the four-bit CLASS (7.5.1). -/
abbrev Nibble := BitVec 4

/-- A table of a fixed number of entries. -/
abbrev Table (α : Type) (n : Nat) := Vector α n

end Sys2Proof
end

