-- ==== Sys2Proof/Config.lean ====
section
/-! DEFINITION. Config.lean: what the manual leaves open. Each constant here has no body, so nothing can be
proved of the value it gives: a statement about the model holds whatever that value is. The step applies
them to the counter `State.free`, which it then advances, so each use is a fresh value. -/

namespace Sys2Proof

/-- The value of a 48-bit book figure when a booking carries it outside the range it is held in.
Chapter 5 (NOTE of 5.2) gives the ranges and no rule for a sum beyond them. See log entry 3. -/
opaque Config.freeFigure : Nat → BitVec 48

/-- The bytes that stand for the table id and the index in the reply to a TABLE_WRITE too short to carry
them: R187 has the reply carry them whatever its status. See log entry 4. -/
opaque Config.freeByte : Nat → Byte

end Sys2Proof
end

