-- ==== Sys2Proof/Syntax.lean ====
section
/-! DEFINITION. Syntax.lean: the commands of the part, one constructor of `Instr` for each row of
spec/opcode_table.json. A command is one whole step of the part: a good frame taken at its frame end, an
event of a line, the running out of a timer, or an internal event that the state has made ready. -/

namespace Sys2Proof

/-- The three ports of the convoy link (chapter 7). -/
inductive Port where
  | W | M | T
deriving DecidableEq, Repr

/-- The two pushboats. -/
inductive Boat where
  | b1 | b2
deriving DecidableEq, Repr

/-- DEST, SRC and TAG of a frame as received (7.5.1). -/
structure Header where
  dest : Byte
  src : Byte
  tag : Nibble
deriving DecidableEq, Repr

/-- SRC and TAG of a frame addressed to the part, which its answer or reply copies (R156). -/
structure Origin where
  src : Byte
  tag : Nibble
deriving DecidableEq, Repr

/-- A frame less LEN and CHECK, which the other fields determine (R149, 7.5.1). -/
structure Frame where
  dest : Byte
  src : Byte
  cls : Nibble
  tag : Nibble
  payload : List Byte
deriving DecidableEq, Repr

/-- Run state of a governor (7.5.3). -/
inductive RunState where
  | stopped | running
deriving DecidableEq, Repr

/-- Alarm level of a governor (7.5.3): NONE, ALERT, ALARM, TRIP. -/
inductive AlarmLevel where
  | noAlarm | alert | alarm | trip
deriving DecidableEq, Repr

/-- Fault flag of an ACTUATOR_STATUS (7.5.4): NONE, FAULT. -/
inductive FaultFlag where
  | noFault | fault
deriving DecidableEq, Repr

/-- Winch condition of a WINCH_STATUS (7.5.4). -/
inductive WinchCondition where
  | holding | heaving | released | parted
deriving DecidableEq, Repr

/-- What a well-formed STATUS or SAMPLE frame tells a job (R159). `other` is every frame that no job reads. -/
inductive Content where
  | engineStatus (run : RunState) (load : Half) (alarmLevel : AlarmLevel)
  | actuatorStatus (position : Half) (flag : FaultFlag)
  | winchStatus (condition : WinchCondition)
  | tension (readings : List (Byte × Half))
  | flow (readings : List (Byte × Quad))
  | level (readings : List (Byte × Quad))
  | other
deriving DecidableEq, Repr

/-- What a well-formed ACK from a plant node holds (R158). -/
inductive Ack where
  | echo (position : Half)
  | full (run : RunState) (load : Half) (alarmLevel : AlarmLevel)
deriving DecidableEq, Repr

/-- A byte as the receiver of a port finds it: its eight data bits, and whether its stop bit was at the idle
level (R147). -/
structure LineByte where
  data : Byte
  valid : Bool
deriving DecidableEq, Repr

/-- The receive assembly of a port: the bytes gathered since the last frame end, whether one of them was in
error, and whether one came after the thirtieth (R147, R148). -/
structure Assembly where
  bytes : List Byte
  inError : Bool
  overlong : Bool
deriving DecidableEq, Repr

/-- An empty receive assembly. -/
def Assembly.empty : Assembly where
  bytes := []
  inError := false
  overlong := false

/-! ### Table entries as a TABLE_WRITE carries them (10.2) -/

/-- ROSTER entry, 6 bytes. -/
structure RosterRaw where
  port : Byte
  address : Byte
  kind : Byte
  ackTimeout : Byte
  silence : Byte
  refresh : Byte
deriving DecidableEq, Repr

/-- PASSAGE entry, 7 bytes. -/
structure PassageRaw where
  used : Byte
  ingress : Byte
  source : Byte
  cls : Byte
  kindSelector : Byte
  kind : Byte
  disposition : Byte
deriving DecidableEq, Repr

/-- DEFAULT entry, 3 bytes. -/
structure DefaultRaw where
  action : Byte
  job : Byte
  ports : Byte
deriving DecidableEq, Repr

/-- MODE entry, 20 bytes. -/
structure ModeRaw where
  ahead : Half
  astern : Half
  stepSize : Byte
  stepInterval : Byte
  dwell : Byte
  guardPeriod : Byte
  towAlert : Half
  towOverload : Half
  towHold : Byte
  scale : Byte
  economy : Half
  gain : Byte
  waitLimit : Byte
  fallback : Half
deriving DecidableEq, Repr

/-- ENGINE entry, 14 bytes. -/
structure EngineRaw where
  governor : Byte
  boat : Byte
  side : Byte
  rating : Half
  weight : Byte
  serviceTank : Byte
  supplyMeter : Byte
  returnMeter : Byte
  idleBand : Byte
  alertCeiling : Half
  alarmCeiling : Half
deriving DecidableEq, Repr

/-- ACTUATOR entry, 10 bytes. -/
structure ActuatorRaw where
  node : Byte
  kind : Byte
  boat : Byte
  gainAhead : Byte
  gainAstern : Byte
  limit : Half
  band : Half
  time : Byte
deriving DecidableEq, Repr

/-- COUPLING entry, 17 bytes; the fill byte is not read on a write (10.2). -/
structure CouplingRaw where
  kind : Byte
  bearsOn : Byte
  sensor : Byte
  channel : Byte
  winch : Byte
  slack : Half
  alert : Half
  overload : Half
  hysteresis : Half
  debounce : Byte
  heave : Half
  fill : Byte
deriving DecidableEq, Repr

/-- TANK entry, 17 bytes. -/
structure TankRaw where
  capacity : Quad
  role : Byte
  gauge : Byte
  channel : Byte
  lowMark : Quad
  lowCeiling : Half
  tolerance : Quad
deriving DecidableEq, Repr

/-- METER entry, 9 bytes. -/
structure MeterRaw where
  node : Byte
  channel : Byte
  role : Byte
  firstObject : Byte
  toTank : Byte
  maxRate : Half
  margin : Half
deriving DecidableEq, Repr

/-- The commands of the part: one constructor for each row of the table of operations and events. -/
inductive Instr where
  -- reset and line events
  /-- POWER_ON_RESET (R189) -/
  | powerOnReset
  /-- FRAME_DISCARD (R149) -/
  | frameDiscard (port : Port)
  /-- LINE_BREAK (R150) -/
  | lineBreak (port : Port)
  /-- LINE_UP (R151), with the first valid byte -/
  | lineUp (port : Port) (first : Byte)
  /-- TRANSMIT_START (R153) -/
  | transmitStart (port : Port)
  /-- TRANSMIT_COMPLETION (R154) -/
  | transmitCompletion (port : Port)
  /-- STATEMENT_RESUME (R121) -/
  | statementResume
  -- wheelhouse orders, taken on port W (7.5.2)
  /-- PROPEL (R27) -/
  | propel (o : Origin) (power : Half) (mode : Byte) (differential : Half) (flags : Byte)
  /-- STEER (R51) -/
  | steer (o : Origin) (rudder : Half) (bowMode : Byte) (bow : Half)
  /-- CONVOY MODE (R8) -/
  | convoyMode (o : Origin) (code : Byte)
  /-- CONVOY TAKE_COMMAND (R9); the selector is not read -/
  | takeCommand (o : Origin) (selector : Byte)
  /-- CONVOY HELM_RESUME (R13); the selector is not read -/
  | helmResume (o : Origin) (selector : Byte)
  /-- ORDER_UNKNOWN (R6, R83): an order of no known kind, sub-command or length, with its payload -/
  | orderUnknown (o : Origin) (payload : List Byte)
  /-- COUPLE RELEASE (R84) -/
  | coupleRelease (o : Origin) (index : Byte)
  /-- COUPLE CANCEL (R91) -/
  | coupleCancel (o : Origin) (index : Byte)
  /-- COUPLE MAKE_UP (R93) -/
  | coupleMakeUp (o : Origin) (index : Byte)
  /-- COUPLE ACCEPT_PARTED (R95) -/
  | acceptParted (o : Origin) (index : Byte)
  -- enrolment and acknowledgements (7.5.3, 7.5.4)
  /-- ENROL (R129) -/
  | enrol (port : Port) (h : Header) (payload : List Byte)
  /-- ECHO addressed to the part (R140) -/
  | echo (port : Port) (o : Origin) (position : Half)
  /-- FULL addressed to the part (R140) -/
  | full (port : Port) (o : Origin) (run : RunState) (load : Half) (alarmLevel : AlarmLevel)
  -- statuses and samples (7.5.4)
  /-- ENGINE_STATUS (R20) -/
  | engineStatus (port : Port) (h : Header) (run : RunState) (load : Half) (alarmLevel : AlarmLevel)
  /-- SLOT_RELEASE (R85) -/
  | slotRelease (coupling : Fin 48)
  /-- ACTUATOR_STATUS (R61) -/
  | actuatorStatus (port : Port) (h : Header) (position : Half) (flag : FaultFlag)
  /-- WINCH_STATUS (R77) -/
  | winchStatus (port : Port) (h : Header) (condition : WinchCondition)
  /-- TENSION (R71) -/
  | tension (port : Port) (h : Header) (readings : List (Byte × Half))
  /-- FLOW (R100) -/
  | flow (port : Port) (h : Header) (readings : List (Byte × Quad))
  /-- LEVEL (R113) -/
  | level (port : Port) (h : Header) (readings : List (Byte × Quad))
  /-- PASSAGE_FRAME (R165): a good frame that no block of the part reads -/
  | passageFrame (port : Port) (frame : Frame)
  -- management requests, taken on port W (chapter 10)
  /-- IDENTIFY (R186) -/
  | identify (o : Origin)
  /-- TABLE_READ (R184) -/
  | tableRead (o : Origin) (table : Byte) (index : Byte)
  /-- TABLE_WRITE of a station entry (R5) -/
  | tableWriteStation (o : Origin) (index : Byte) (address : Byte)
  /-- TABLE_WRITE of a roster entry (R127) -/
  | tableWriteRoster (o : Origin) (index : Byte) (entry : RosterRaw)
  /-- TABLE_WRITE of a passage entry (R167) -/
  | tableWritePassage (o : Origin) (index : Byte) (entry : PassageRaw)
  /-- TABLE_WRITE of a port's default action (R167) -/
  | tableWriteDefault (o : Origin) (index : Byte) (entry : DefaultRaw)
  /-- TABLE_WRITE of a mode profile (R1) -/
  | tableWriteMode (o : Origin) (index : Byte) (entry : ModeRaw)
  /-- TABLE_WRITE of an engine entry (R17) -/
  | tableWriteEngine (o : Origin) (index : Byte) (entry : EngineRaw)
  /-- TABLE_WRITE of an actuator entry (R49) -/
  | tableWriteActuator (o : Origin) (index : Byte) (entry : ActuatorRaw)
  /-- TABLE_WRITE of a coupling entry (R69) -/
  | tableWriteCoupling (o : Origin) (index : Byte) (entry : CouplingRaw)
  /-- TABLE_WRITE of a tank entry (R109) -/
  | tableWriteTank (o : Origin) (index : Byte) (entry : TankRaw)
  /-- TABLE_WRITE of a meter entry (R98) -/
  | tableWriteMeter (o : Origin) (index : Byte) (entry : MeterRaw)
  /-- TABLE_WRITE of a notice map entry (R177) -/
  | tableWriteNoticeMap (o : Origin) (kind : Byte) (channel : Byte)
  /-- STATE_READ (R185) -/
  | stateRead (o : Origin) (record : Byte) (index : Byte) (page : Byte)
  /-- ALLOCATE (R172) -/
  | allocate (o : Origin) (w : Byte) (m : Byte) (t : Byte)
  /-- SET_ADDRESS (R186) -/
  | setAddress (o : Origin) (address : Byte)
  /-- NOTICE_SETUP (R178) -/
  | noticeSetup (o : Origin) (master : Byte) (channel : Byte) (arm : Byte) (autoDisarm : Byte)
  /-- NOTICE_READ (R180) -/
  | noticeRead (o : Origin) (channel : Byte) (clear : Byte)
  /-- NOTICE_CLEAR (R181) -/
  | noticeClear (o : Origin) (kind : Byte) (selector : Byte) (subject : Byte)
  /-- FUEL_PRESET (R114) -/
  | fuelPreset (o : Origin) (tank : Byte) (quantity : Quad)
  /-- LEG_START (R115) -/
  | legStart (o : Origin) (budget : Quad) (reserve : Quad)
  /-- STATEMENT_START (R117) -/
  | statementStart (o : Origin)
  /-- STATEMENT_ABORT (R124) -/
  | statementAbort (o : Origin)
  /-- RESTART (R188) -/
  | restart (o : Origin)
  /-- MGMT_UNKNOWN (R183 steps 1 to 3), with the payload of the request -/
  | mgmtUnknown (o : Origin) (payload : List Byte)
  -- timers
  /-- GUARD_EXPIRY (R11) -/
  | guardExpiry
  /-- STEP_EXPIRY (R37) -/
  | stepExpiry (engine : Fin 6)
  /-- DWELL_EXPIRY (R41) -/
  | dwellExpiry (engine : Fin 6)
  /-- DIVERGENCE_EXPIRY (R62) -/
  | divergenceExpiry (actuator : Fin 5)
  /-- SAMPLE_SILENCE_EXPIRY (R76) -/
  | sampleSilenceExpiry (coupling : Fin 48)
  /-- HOLD_EXPIRY (R80) -/
  | holdExpiry (boat : Boat)
  /-- RELEASE_WAIT_EXPIRY (R88) -/
  | releaseWaitExpiry (coupling : Fin 48)
  /-- MAKEUP_WAIT_EXPIRY (R94) -/
  | makeupWaitExpiry (coupling : Fin 48)
  /-- METER_SILENCE_EXPIRY (R104) -/
  | meterSilenceExpiry (meter : Fin 16)
  /-- ESTIMATE_TICK (R104) -/
  | estimateTick (meter : Fin 16)
  /-- STALL_EXPIRY (R122) -/
  | stallExpiry
  /-- SILENCE_EXPIRY (R131) -/
  | silenceExpiry (node : Fin 32)
  /-- REFRESH_EXPIRY (R133) -/
  | refreshExpiry (node : Fin 32)
  /-- ACK_TIMEOUT (R142) -/
  | ackTimeout (slot : Fin 16)
  /-- ACK_OF_NO_KIND (R158): an ACK addressed to the part that is not well formed, with its payload -/
  | ackOfNoKind (port : Port) (o : Origin) (payload : List Byte)
deriving DecidableEq, Repr

end Sys2Proof
end

