-- ==== Sys2Proof/WellFormed.lean ====
section
/-! DEFINITION. WellFormed.lean: which commands a good frame can give. A command that carries coded fields
carries them in types that hold the listed codes only; what is left to check are lengths, the load's range
and, for the commands that stand for every frame of no other kind, that the frame is of no other kind. -/

namespace Sys2Proof

/-- A load of a FULL or an ENGINE_STATUS lies within −1000..+1000 (R158, R159). -/
def loadInRange (load : Half) : Bool :=
  decide (-1000 ≤ load.toInt) && decide (load.toInt ≤ 1000)

/-- A payload is at most 24 bytes (R149). -/
def payloadFits (payload : List Byte) : Bool :=
  decide (payload.length ≤ 24)

/-- The length of the payload of each kind of wheelhouse order (R157). -/
def orderLength (kind : Byte) : Option Nat :=
  if kind = 0x01 then some 7
  else if kind = 0x02 then some 6
  else if kind = 0x03 then some 3
  else if kind = 0x04 then some 3
  else none

/-- An order of a known kind, sub-command and length: one that a command other than ORDER_UNKNOWN stands for
(R6 check 1, R83). -/
def orderKnown (payload : List Byte) : Bool :=
  match payload with
  | [] => false
  | kind :: rest =>
    if orderLength kind = some (rest.length + 1) then
      if kind = 0x03 then decide (rest.headD 0 = 1 ∨ rest.headD 0 = 2 ∨ rest.headD 0 = 3)
      else if kind = 0x04 then
        decide (rest.headD 0 = 1 ∨ rest.headD 0 = 2 ∨ rest.headD 0 = 3 ∨ rest.headD 0 = 4)
      else true
    else false

/-- Bytes of one entry of each table (10.2). -/
def entryBytes (table : Byte) : Option Nat :=
  if table = 1 then some 1
  else if table = 2 then some 6
  else if table = 3 then some 7
  else if table = 4 then some 3
  else if table = 5 then some 20
  else if table = 6 then some 14
  else if table = 7 then some 10
  else if table = 8 then some 17
  else if table = 9 then some 17
  else if table = 10 then some 9
  else if table = 11 then some 1
  else none

/-- LEN of the requests other than TABLE_READ and TABLE_WRITE (R187). -/
def requestLength (code : Byte) : Option Nat :=
  if code = 0x01 then some 1
  else if code = 0x04 then some 4
  else if code = 0x05 then some 4
  else if code = 0x06 then some 2
  else if code = 0x07 then some 5
  else if code = 0x08 then some 3
  else if code = 0x09 then some 4
  else if code = 0x0A then some 6
  else if code = 0x0B then some 9
  else if code = 0x0C then some 1
  else if code = 0x0D then some 1
  else if code = 0x0E then some 1
  else none

/-- A request that passes steps 1 to 3 of R183. -/
def requestKnown (payload : List Byte) : Bool :=
  match payload with
  | [] => false
  | code :: rest =>
    if code = 0x02 then
      match rest with
      | table :: _ => (entryBytes table).isSome && decide (rest.length = 2)
      | [] => false
    else if code = 0x03 then
      match rest with
      | table :: _ => decide ((entryBytes table).map (· + 2) = some rest.length)
      | [] => false
    else decide (requestLength code = some (rest.length + 1))

/-- The run state of a byte (7.5.3). -/
def runStateOf (b : Byte) : Option RunState :=
  if b = 0 then some .stopped else if b = 1 then some .running else none

/-- The alarm level of a byte (7.5.3). -/
def alarmLevelOf (b : Byte) : Option AlarmLevel :=
  if b = 0 then some .noAlarm
  else if b = 1 then some .alert
  else if b = 2 then some .alarm
  else if b = 3 then some .trip
  else none

/-- The fault flag of a byte (7.5.4). -/
def faultFlagOf (b : Byte) : Option FaultFlag :=
  if b = 0 then some .noFault else if b = 1 then some .fault else none

/-- The winch condition of a byte (7.5.4). -/
def winchConditionOf (b : Byte) : Option WinchCondition :=
  if b = 0 then some .holding
  else if b = 1 then some .heaving
  else if b = 2 then some .released
  else if b = 3 then some .parted
  else none

/-- Readings of three bytes each: a channel and two bytes (7.5.4). -/
def readings3 : List Byte → Option (List (Byte × Half))
  | [] => some []
  | c :: a :: b :: rest => (readings3 rest).map ((c, a ++ b) :: ·)
  | _ => none

/-- Readings of five bytes each: a channel and four bytes (7.5.4). -/
def readings5 : List Byte → Option (List (Byte × Quad))
  | [] => some []
  | c :: a :: b :: d :: e :: rest => (readings5 rest).map ((c, a ++ b ++ (d ++ e)) :: ·)
  | _ => none

/-- What a well-formed STATUS frame says, and `other` for one that is not well formed (R159). -/
def statusContent (payload : List Byte) : Content :=
  match payload with
  | [k, a, b, c, d] =>
    if k = 0x01 then
      match runStateOf a, alarmLevelOf d with
      | some run, some level =>
        if loadInRange (b ++ c) then .engineStatus run (b ++ c) level else .other
      | _, _ => .other
    else .other
  | [k, a, b, c] =>
    if k = 0x02 then
      match faultFlagOf c with
      | some flag => .actuatorStatus (a ++ b) flag
      | none => .other
    else .other
  | [k, a] =>
    if k = 0x03 then
      match winchConditionOf a with
      | some condition => .winchStatus condition
      | none => .other
    else .other
  | _ => .other

/-- What a well-formed SAMPLE frame says: r readings, r ≥ 1, within LEN 24 (R159). -/
def sampleContent (payload : List Byte) : Content :=
  match payload with
  | k :: x :: rest =>
    if k = 0x01 then
      match readings3 (x :: rest) with
      | some rs => if rs.length ≤ 7 then .tension rs else .other
      | none => .other
    else if k = 0x02 then
      match readings5 (x :: rest) with
      | some rs => if rs.length ≤ 4 then .flow rs else .other
      | none => .other
    else if k = 0x03 then
      match readings5 (x :: rest) with
      | some rs => if rs.length ≤ 4 then .level rs else .other
      | none => .other
    else .other
  | _ => .other

/-- What a frame tells a job (R159): STATUS is CLASS 2 and SAMPLE is CLASS 3. -/
def contentOf (f : Frame) : Content :=
  if f.cls = 2 then statusContent f.payload
  else if f.cls = 3 then sampleContent f.payload
  else .other

/-- A well-formed ECHO or FULL, or `none` for an ACK of no kind (R158). -/
def ackOf (payload : List Byte) : Option Ack :=
  match payload with
  | [k, a, b] => if k = 0x21 then some (.echo (a ++ b)) else none
  | [k, a, b, c, d] =>
    if k = 0x22 then
      match runStateOf a, alarmLevelOf d with
      | some run, some level =>
        if loadInRange (b ++ c) then some (.full run (b ++ c) level) else none
      | _, _ => none
    else none
  | _ => none

/-- The commands a frame or an event can give. -/
def Instr.wellFormed : Instr → Bool
  | .orderUnknown _ payload => payloadFits payload && !orderKnown payload
  | .enrol _ _ payload => payloadFits payload
  | .full _ _ _ load _ => loadInRange load
  | .engineStatus _ _ _ load _ => loadInRange load
  | .tension _ _ rs => decide (1 ≤ rs.length) && decide (rs.length ≤ 7)
  | .flow _ _ rs => decide (1 ≤ rs.length) && decide (rs.length ≤ 4)
  | .level _ _ rs => decide (1 ≤ rs.length) && decide (rs.length ≤ 4)
  | .passageFrame _ f =>
    payloadFits f.payload && decide (f.cls ≠ 4) && decide (contentOf f = .other)
  | .tableRead _ table _ => (entryBytes table).isSome
  | .mgmtUnknown _ payload => payloadFits payload && !requestKnown payload
  | .ackOfNoKind _ _ payload => payloadFits payload && decide (ackOf payload = none)
  | _ => true

end Sys2Proof
end

