-- ==== Sys2Proof/Decode.lean ====
section
/-! DEFINITION. Decode.lean: from the bytes of a port to a command, and back. `gather` is the receive assembly
of R148, `judge` the judgement of R149, `classify` the division of good frames among the commands by CLASS,
DEST, KIND and LEN (R157 to R162, R183). `Instr.frame` gives the frame a command stands for.
`decodeTableWord` is the host's question about spec/opcode_table.json, whose rows give no bits. -/

namespace Sys2Proof

/-! ### Bytes of multi-byte fields, high byte first (7.5) -/

/-- The two bytes of a field. -/
def halfBytes (x : Half) : List Byte :=
  [x.extractLsb' 8 8, x.extractLsb' 0 8]

/-- The four bytes of a field. -/
def quadBytes (x : Quad) : List Byte :=
  [x.extractLsb' 24 8, x.extractLsb' 16 8, x.extractLsb' 8 8, x.extractLsb' 0 8]

/-- A field of four bytes. -/
def quadOf (a b c d : Byte) : Quad :=
  a ++ b ++ (c ++ d)

/-! ### The CHECK (R149) -/

/-- One bit of the CHECK register: x^16 + x^12 + x^5 + 1. -/
def checkBit (r : Half) : Half :=
  if r.msb then (r <<< 1) ^^^ 0x1021 else r <<< 1

/-- One byte entered most significant bit first. -/
def checkByte (r : Half) (b : Byte) : Half :=
  checkBit (checkBit (checkBit (checkBit (checkBit (checkBit (checkBit (checkBit
    (r ^^^ (b.zeroExtend 16 <<< 8)))))))))

/-- The CHECK of a list of bytes; the register starts at FFFFh and is not inverted. -/
def check (bytes : List Byte) : Half :=
  bytes.foldl checkByte 0xFFFF

/-- DEST, SRC, CLASS and TAG, LEN and PAYLOAD of a frame: frame bytes 0 to LEN + 3. -/
def Frame.body (f : Frame) : List Byte :=
  [f.dest, f.src, f.cls ++ f.tag, BitVec.ofNat 8 f.payload.length] ++ f.payload

/-- The bytes of a frame on the line, its CHECK included (7.5.1). -/
def Frame.bytes (f : Frame) : List Byte :=
  f.body ++ halfBytes (check f.body)

/-! ### The receive assembly and the judgement of a frame (R147 to R149) -/

/-- A byte taken into the assembly: at most 30 are stored, a later one marks it overlong (R148), and a byte
in error marks it in error (R147). -/
def Assembly.take (g : Assembly) (b : LineByte) : Assembly :=
  if g.bytes.length < 30 then
    { bytes := g.bytes ++ [b.data], inError := g.inError || !b.valid, overlong := g.overlong }
  else { bytes := g.bytes, inError := g.inError || !b.valid, overlong := true }

/-- The assembly of all bytes of one frame. -/
def gather (rx : List LineByte) : Assembly :=
  rx.foldl Assembly.take Assembly.empty

/-- The judgement of R149: the good frame the assembly holds, or `none`. -/
def judge (g : Assembly) : Option Frame :=
  if g.inError || g.overlong then none
  else
    match g.bytes with
    | dest :: src :: ct :: len :: rest =>
      if len.toNat ≤ 24 ∧ rest.length = len.toNat + 2 then
        if rest.drop len.toNat =
            halfBytes (check (dest :: src :: ct :: len :: rest.take len.toNat)) then
          some {
            dest := dest, src := src, cls := ct.extractLsb' 4 4, tag := ct.extractLsb' 0 4,
            payload := rest.take len.toNat }
        else none
      else none
    | _ => none

/-! ### Which command a good frame gives -/

/-- A wheelhouse order (R157): PROPEL, STEER, CONVOY, COUPLE, or ORDER_UNKNOWN. -/
def classifyOrder (o : Origin) (payload : List Byte) : Instr :=
  match payload with
  | [k, a, b, c, d, e, f] =>
    if k = 0x01 then .propel o (a ++ b) c (d ++ e) f else .orderUnknown o payload
  | [k, a, b, c, d, e] =>
    if k = 0x02 then .steer o (a ++ b) c (d ++ e) else .orderUnknown o payload
  | [k, sub, x] =>
    if k = 0x03 then
      if sub = 1 then .convoyMode o x
      else if sub = 2 then .takeCommand o x
      else if sub = 3 then .helmResume o x
      else .orderUnknown o payload
    else if k = 0x04 then
      if sub = 1 then .coupleRelease o x
      else if sub = 2 then .coupleCancel o x
      else if sub = 3 then .coupleMakeUp o x
      else if sub = 4 then .acceptParted o x
      else .orderUnknown o payload
    else .orderUnknown o payload
  | _ => .orderUnknown o payload

/-- A TABLE_WRITE whose body has the length of its table's entry (10.2), and `none` for any other. -/
def classifyWrite (o : Origin) (table index : Byte) (entry : List Byte) : Option Instr :=
  match entry with
  | [a] =>
    if table = 1 then some (.tableWriteStation o index a)
    else if table = 11 then some (.tableWriteNoticeMap o index a)
    else none
  | [a, b, c] =>
    if table = 4 then some (.tableWriteDefault o index { action := a, job := b, ports := c }) else none
  | [a, b, c, d, e, f] =>
    if table = 2 then
      some (.tableWriteRoster o index
        { port := a, address := b, kind := c, ackTimeout := d, silence := e, refresh := f })
    else none
  | [a, b, c, d, e, f, g] =>
    if table = 3 then
      some (.tableWritePassage o index
        { used := a, ingress := b, source := c, cls := d, kindSelector := e, kind := f,
          disposition := g })
    else none
  | [a, b, c, d, e, f, g, h, i] =>
    if table = 10 then
      some (.tableWriteMeter o index
        { node := a, channel := b, role := c, firstObject := d, toTank := e, maxRate := f ++ g,
          margin := h ++ i })
    else none
  | [a, b, c, d, e, f, g, h, i, j] =>
    if table = 7 then
      some (.tableWriteActuator o index
        { node := a, kind := b, boat := c, gainAhead := d, gainAstern := e, limit := f ++ g,
          band := h ++ i, time := j })
    else none
  | [a, b, c, d, e, f, g, h, i, j, k, l, m, n] =>
    if table = 6 then
      some (.tableWriteEngine o index
        { governor := a, boat := b, side := c, rating := d ++ e, weight := f, serviceTank := g,
          supplyMeter := h, returnMeter := i, idleBand := j, alertCeiling := k ++ l,
          alarmCeiling := m ++ n })
    else none
  | [a, b, c, d, e, f, g, h, i, j, k, l, m, n, p, q, r] =>
    if table = 8 then
      some (.tableWriteCoupling o index
        { kind := a, bearsOn := b, sensor := c, channel := d, winch := e, slack := f ++ g,
          alert := h ++ i, overload := j ++ k, hysteresis := l ++ m, debounce := n,
          heave := p ++ q, fill := r })
    else if table = 9 then
      some (.tableWriteTank o index
        { capacity := quadOf a b c d, role := e, gauge := f, channel := g,
          lowMark := quadOf h i j k, lowCeiling := l ++ m, tolerance := quadOf n p q r })
    else none
  | [a, b, c, d, e, f, g, h, i, j, k, l, m, n, p, q, r, s, t, u] =>
    if table = 5 then
      some (.tableWriteMode o index
        { ahead := a ++ b, astern := c ++ d, stepSize := e, stepInterval := f, dwell := g,
          guardPeriod := h, towAlert := i ++ j, towOverload := k ++ l, towHold := m, scale := n,
          economy := p ++ q, gain := r, waitLimit := s, fallback := t ++ u })
    else none
  | _ => none

/-- A request other than a TABLE_WRITE, by its code and LEN (R187), or MGMT_UNKNOWN. -/
def classifyPlain (o : Origin) (payload : List Byte) : Instr :=
  match payload with
  | [k] =>
    if k = 0x01 then .identify o
    else if k = 0x0C then .statementStart o
    else if k = 0x0D then .statementAbort o
    else if k = 0x0E then .restart o
    else .mgmtUnknown o payload
  | [k, a] => if k = 0x06 then .setAddress o a else .mgmtUnknown o payload
  | [k, a, b] =>
    if k = 0x02 then
      if (entryBytes a).isSome then .tableRead o a b else .mgmtUnknown o payload
    else if k = 0x08 then .noticeRead o a b
    else .mgmtUnknown o payload
  | [k, a, b, c] =>
    if k = 0x04 then .stateRead o a b c
    else if k = 0x05 then .allocate o a b c
    else if k = 0x09 then .noticeClear o a b c
    else .mgmtUnknown o payload
  | [k, a, b, c, d] =>
    if k = 0x07 then .noticeSetup o a b c d else .mgmtUnknown o payload
  | [k, a, b, c, d, e] =>
    if k = 0x0A then .fuelPreset o a (quadOf b c d e) else .mgmtUnknown o payload
  | [k, a, b, c, d, e, f, g, h] =>
    if k = 0x0B then .legStart o (quadOf a b c d) (quadOf e f g h) else .mgmtUnknown o payload
  | _ => .mgmtUnknown o payload

/-- A management request that passes R183's steps 1 to 3, or MGMT_UNKNOWN. -/
def classifyRequest (o : Origin) (payload : List Byte) : Instr :=
  match payload with
  | k :: rest =>
    if k = 0x03 then
      match rest with
      | table :: index :: entry => (classifyWrite o table index entry).getD (.mgmtUnknown o payload)
      | _ => .mgmtUnknown o payload
    else classifyPlain o payload
  | [] => .mgmtUnknown o payload

/-- The command a good frame gives on a port, where the own address is `own`: fixed intake first (R162),
then the statuses and samples a job may read, then every other frame (R165). -/
def classify (own : Byte) (p : Port) (f : Frame) : Instr :=
  if f.cls = 0 ∧ p = .W ∧ f.dest = own then classifyOrder { src := f.src, tag := f.tag } f.payload
  else if f.cls = 5 ∧ p = .W ∧ f.dest = own then
    classifyRequest { src := f.src, tag := f.tag } f.payload
  else if f.cls = 1 ∧ f.dest = own then
    match ackOf f.payload with
    | some (.echo position) => .echo p { src := f.src, tag := f.tag } position
    | some (.full run load lvl) => .full p { src := f.src, tag := f.tag } run load lvl
    | none => .ackOfNoKind p { src := f.src, tag := f.tag } f.payload
  else if f.cls = 4 then .enrol p { dest := f.dest, src := f.src, tag := f.tag } f.payload
  else
    match contentOf f with
    | .engineStatus run load lvl =>
      .engineStatus p { dest := f.dest, src := f.src, tag := f.tag } run load lvl
    | .actuatorStatus position flag =>
      .actuatorStatus p { dest := f.dest, src := f.src, tag := f.tag } position flag
    | .winchStatus condition => .winchStatus p { dest := f.dest, src := f.src, tag := f.tag } condition
    | .tension rs => .tension p { dest := f.dest, src := f.src, tag := f.tag } rs
    | .flow rs => .flow p { dest := f.dest, src := f.src, tag := f.tag } rs
    | .level rs => .level p { dest := f.dest, src := f.src, tag := f.tag } rs
    | .other => .passageFrame p f

/-- The command of a frame end: the bytes gathered since the last one, judged and classified. -/
def frameEnd (own : Byte) (p : Port) (rx : List LineByte) : Instr :=
  match judge (gather rx) with
  | some f => classify own p f
  | none => .frameDiscard p

/-! ### The frame a command stands for -/

/-- The byte of a run state. -/
def RunState.byte : RunState → Byte
  | .stopped => 0
  | .running => 1

/-- The byte of an alarm level. -/
def AlarmLevel.byte : AlarmLevel → Byte
  | .noAlarm => 0
  | .alert => 1
  | .alarm => 2
  | .trip => 3

/-- The byte of a fault flag. -/
def FaultFlag.byte : FaultFlag → Byte
  | .noFault => 0
  | .fault => 1

/-- The byte of a winch condition. -/
def WinchCondition.byte : WinchCondition → Byte
  | .holding => 0
  | .heaving => 1
  | .released => 2
  | .parted => 3

/-- Payload of an ENGINE_STATUS after its KIND, and of a FULL after its KIND (7.5.3, 7.5.4). -/
def engineBytes (run : RunState) (load : Half) (lvl : AlarmLevel) : List Byte :=
  [run.byte] ++ halfBytes load ++ [lvl.byte]

/-- Bytes of the readings of a TENSION sample. -/
def bytes3 (rs : List (Byte × Half)) : List Byte :=
  rs.flatMap fun r => r.1 :: halfBytes r.2

/-- Bytes of the readings of a FLOW or LEVEL sample. -/
def bytes5 (rs : List (Byte × Quad)) : List Byte :=
  rs.flatMap fun r => r.1 :: quadBytes r.2

/-- CLASS of the frame that holds a content (7.5.4). -/
def Content.cls : Content → Nibble
  | .engineStatus .. => 2
  | .actuatorStatus .. => 2
  | .winchStatus .. => 2
  | .tension .. => 3
  | .flow .. => 3
  | .level .. => 3
  | .other => 8

/-- Payload of the frame that holds a content (7.5.4). -/
def Content.payload : Content → List Byte
  | .engineStatus run load lvl => 0x01 :: engineBytes run load lvl
  | .actuatorStatus position flag => 0x02 :: (halfBytes position ++ [flag.byte])
  | .winchStatus condition => [0x03, condition.byte]
  | .tension rs => 0x01 :: bytes3 rs
  | .flow rs => 0x02 :: bytes5 rs
  | .level rs => 0x03 :: bytes5 rs
  | .other => []

/-- The STATUS or SAMPLE frame of a header and a content. -/
def Content.frame (h : Header) (c : Content) : Frame :=
  { dest := h.dest, src := h.src, cls := c.cls, tag := h.tag, payload := c.payload }

/-- Entry bytes of a MODE write (10.2). -/
def ModeRaw.bytes (r : ModeRaw) : List Byte :=
  halfBytes r.ahead ++ halfBytes r.astern ++ [r.stepSize, r.stepInterval, r.dwell, r.guardPeriod] ++
    halfBytes r.towAlert ++ halfBytes r.towOverload ++ [r.towHold, r.scale] ++ halfBytes r.economy ++
    [r.gain, r.waitLimit] ++ halfBytes r.fallback

/-- Entry bytes of an ENGINE write (10.2). -/
def EngineRaw.bytes (r : EngineRaw) : List Byte :=
  [r.governor, r.boat, r.side] ++ halfBytes r.rating ++
    [r.weight, r.serviceTank, r.supplyMeter, r.returnMeter, r.idleBand] ++
    halfBytes r.alertCeiling ++ halfBytes r.alarmCeiling

/-- Entry bytes of an ACTUATOR write (10.2). -/
def ActuatorRaw.bytes (r : ActuatorRaw) : List Byte :=
  [r.node, r.kind, r.boat, r.gainAhead, r.gainAstern] ++ halfBytes r.limit ++ halfBytes r.band ++ [r.time]

/-- Entry bytes of a COUPLING write (10.2). -/
def CouplingRaw.bytes (r : CouplingRaw) : List Byte :=
  [r.kind, r.bearsOn, r.sensor, r.channel, r.winch] ++ halfBytes r.slack ++ halfBytes r.alert ++
    halfBytes r.overload ++ halfBytes r.hysteresis ++ [r.debounce] ++ halfBytes r.heave ++ [r.fill]

/-- Entry bytes of a TANK write (10.2). -/
def TankRaw.bytes (r : TankRaw) : List Byte :=
  quadBytes r.capacity ++ [r.role, r.gauge, r.channel] ++ quadBytes r.lowMark ++ halfBytes r.lowCeiling ++
    quadBytes r.tolerance

/-- Entry bytes of a METER write (10.2). -/
def MeterRaw.bytes (r : MeterRaw) : List Byte :=
  [r.node, r.channel, r.role, r.firstObject, r.toTank] ++ halfBytes r.maxRate ++ halfBytes r.margin

/-- Entry bytes of a ROSTER write (10.2). -/
def RosterRaw.bytes (r : RosterRaw) : List Byte :=
  [r.port, r.address, r.kind, r.ackTimeout, r.silence, r.refresh]

/-- Entry bytes of a PASSAGE write (10.2). -/
def PassageRaw.bytes (r : PassageRaw) : List Byte :=
  [r.used, r.ingress, r.source, r.cls, r.kindSelector, r.kind, r.disposition]

/-- Entry bytes of a DEFAULT write (10.2). -/
def DefaultRaw.bytes (r : DefaultRaw) : List Byte :=
  [r.action, r.job, r.ports]

/-- A wheelhouse order on port W, addressed to the part. -/
def orderFrame (own : Byte) (o : Origin) (payload : List Byte) : Option (Port × Frame) :=
  some (.W, { dest := own, src := o.src, cls := 0, tag := o.tag, payload := payload })

/-- A management request on port W, addressed to the part. -/
def requestFrame (own : Byte) (o : Origin) (payload : List Byte) : Option (Port × Frame) :=
  some (.W, { dest := own, src := o.src, cls := 5, tag := o.tag, payload := payload })

/-- An ACK addressed to the part. -/
def ackFrame (own : Byte) (p : Port) (o : Origin) (payload : List Byte) : Option (Port × Frame) :=
  some (p, { dest := own, src := o.src, cls := 1, tag := o.tag, payload := payload })

/-- The port and the frame that give a command, and `none` for a command that no frame gives. -/
def Instr.frame (own : Byte) : Instr → Option (Port × Frame)
  | .propel o power mode differential flags =>
    orderFrame own o (0x01 :: (halfBytes power ++ [mode] ++ halfBytes differential ++ [flags]))
  | .steer o rudder bowMode bow =>
    orderFrame own o (0x02 :: (halfBytes rudder ++ [bowMode] ++ halfBytes bow))
  | .convoyMode o code => orderFrame own o [0x03, 1, code]
  | .takeCommand o x => orderFrame own o [0x03, 2, x]
  | .helmResume o x => orderFrame own o [0x03, 3, x]
  | .orderUnknown o payload => orderFrame own o payload
  | .coupleRelease o i => orderFrame own o [0x04, 1, i]
  | .coupleCancel o i => orderFrame own o [0x04, 2, i]
  | .coupleMakeUp o i => orderFrame own o [0x04, 3, i]
  | .acceptParted o i => orderFrame own o [0x04, 4, i]
  | .enrol p h payload =>
    some (p, { dest := h.dest, src := h.src, cls := 4, tag := h.tag, payload := payload })
  | .echo p o position => ackFrame own p o (0x21 :: halfBytes position)
  | .full p o run load lvl => ackFrame own p o (0x22 :: engineBytes run load lvl)
  | .ackOfNoKind p o payload => ackFrame own p o payload
  | .engineStatus p h run load lvl => some (p, (Content.engineStatus run load lvl).frame h)
  | .actuatorStatus p h position flag => some (p, (Content.actuatorStatus position flag).frame h)
  | .winchStatus p h condition => some (p, (Content.winchStatus condition).frame h)
  | .tension p h rs => some (p, (Content.tension rs).frame h)
  | .flow p h rs => some (p, (Content.flow rs).frame h)
  | .level p h rs => some (p, (Content.level rs).frame h)
  | .passageFrame p f => some (p, f)
  | .identify o => requestFrame own o [0x01]
  | .tableRead o table index => requestFrame own o [0x02, table, index]
  | .tableWriteStation o i a => requestFrame own o [0x03, 1, i, a]
  | .tableWriteRoster o i e => requestFrame own o ([0x03, 2, i] ++ e.bytes)
  | .tableWritePassage o i e => requestFrame own o ([0x03, 3, i] ++ e.bytes)
  | .tableWriteDefault o i e => requestFrame own o ([0x03, 4, i] ++ e.bytes)
  | .tableWriteMode o i e => requestFrame own o ([0x03, 5, i] ++ e.bytes)
  | .tableWriteEngine o i e => requestFrame own o ([0x03, 6, i] ++ e.bytes)
  | .tableWriteActuator o i e => requestFrame own o ([0x03, 7, i] ++ e.bytes)
  | .tableWriteCoupling o i e => requestFrame own o ([0x03, 8, i] ++ e.bytes)
  | .tableWriteTank o i e => requestFrame own o ([0x03, 9, i] ++ e.bytes)
  | .tableWriteMeter o i e => requestFrame own o ([0x03, 10, i] ++ e.bytes)
  | .tableWriteNoticeMap o k c => requestFrame own o [0x03, 11, k, c]
  | .stateRead o r i p => requestFrame own o [0x04, r, i, p]
  | .allocate o w m t => requestFrame own o [0x05, w, m, t]
  | .setAddress o a => requestFrame own o [0x06, a]
  | .noticeSetup o a b c d => requestFrame own o [0x07, a, b, c, d]
  | .noticeRead o c x => requestFrame own o [0x08, c, x]
  | .noticeClear o k x y => requestFrame own o [0x09, k, x, y]
  | .fuelPreset o tank q => requestFrame own o ([0x0A, tank] ++ quadBytes q)
  | .legStart o budget mark => requestFrame own o (0x0B :: (quadBytes budget ++ quadBytes mark))
  | .statementStart o => requestFrame own o [0x0C]
  | .statementAbort o => requestFrame own o [0x0D]
  | .restart o => requestFrame own o [0x0E]
  | .mgmtUnknown o payload => requestFrame own o payload
  | _ => none

/-- A frame on a port that fixed intake takes ahead of the passage table, where the own address is `own`
(R162). -/
def fixedIntake (own : Byte) (p : Port) (f : Frame) : Bool :=
  decide ((f.cls = 0 ∧ p = .W ∧ f.dest = own) ∨ (f.cls = 5 ∧ p = .W ∧ f.dest = own) ∨
    (f.cls = 1 ∧ f.dest = own) ∨ f.cls = 4)

/-- The host's question about the opcode table: the table gives no row any bits, so no word spells a
command. -/
def decodeTableWord (_nbits _w : Nat) : Option Instr :=
  none

end Sys2Proof
end

