-- ==== Sys2Proof/Machine/State.lean ====
section
/-! DEFINITION. Machine/State.lean: every piece of state the manual gives the part, block by block as the
block overview (00_scope.md) lists them, its value after power-on reset, and the outcomes of a step.
A timer is `none` while stopped and otherwise holds the µs instant of the time base at which it expires
(R148). Quantities are held in the units of their field tables. -/

namespace Sys2Proof.Machine

/-- A timer: `none` while stopped, else the µs instant at which it expires (R148). -/
abbrev Timer := Option Nat

/-! ### Mode and helm unit (chapter 1) -/

/-- Helm state. -/
inductive HelmState where
  | normal | lost
deriving DecidableEq, Repr

/-- One mode profile (1.1). Times are held in the units of the table: step interval 10 ms, reversal dwell
and guard period 100 ms, tow hold time and wait limit 1 s. -/
structure Profile where
  aheadCeiling : Nat
  asternCeiling : Nat
  stepSize : Nat
  stepInterval : Nat
  reversalDwell : Nat
  guardPeriod : Nat
  towAlertCeiling : Nat
  towOverloadCeiling : Nat
  towHold : Nat
  tensionScale : Nat
  economyCeiling : Nat
  gain : Nat
  waitLimit : Nat
  fallback : Int
deriving DecidableEq, Repr

/-- Mode and helm unit: mode table, station table and helm record (1.1, 1.2, 1.5). -/
structure HelmUnit where
  modes : Table Profile 8
  stations : Table (Option Byte) 2
  helm : HelmState
  mode : Fin 8
  remembered : Option (Fin 8)
  command : Option Byte
  guardAt : Timer
deriving DecidableEq, Repr

/-! ### Propulsion coordinator (chapter 2) -/

/-- Side of an engine; fixes the sign of the differential. -/
inductive Side where
  | port | centre | stbd
deriving DecidableEq, Repr

/-- Engine state (2.2). -/
inductive EngineState where
  | absent | standby | running | tripped | lost
deriving DecidableEq, Repr

/-- Health level NONE, ALERT, ALARM. -/
inductive Health where
  | sound | alert | alarm
deriving DecidableEq, Repr

/-- Last sign NONE, AHEAD, ASTERN. -/
inductive LastSign where
  | unset | ahead | astern
deriving DecidableEq, Repr

/-- Slew sub-state (2.6). -/
inductive Slew where
  | steady | slewing | dwelling
deriving DecidableEq, Repr

/-- Differential mode. -/
inductive DiffMode where
  | fixed | auto
deriving DecidableEq, Repr

/-- Wash direction of a boat. -/
inductive Wash where
  | ahead | astern
deriving DecidableEq, Repr

/-- Written fields of an engine entry, keys a to k (2.1). -/
structure EngineEntry where
  governor : Option (Fin 32)
  boat : Boat
  side : Side
  rating : Nat
  weight : Nat
  serviceTank : Option (Fin 8)
  supplyMeter : Option (Fin 16)
  returnMeter : Option (Fin 16)
  idleBand : Nat
  alertCeiling : Nat
  alarmCeiling : Nat
deriving DecidableEq, Repr

/-- An engine: its entry and its runtime fields, keys l to z (2.1). -/
structure Engine where
  entry : EngineEntry
  state : EngineState
  health : Health
  load : Int
  target : Int
  setpoint : Int
  lastSign : LastSign
  slew : Slew
  stepAt : Timer
  dwellAt : Timer
  modeAhead : Nat
  modeAstern : Nat
  healthCeiling : Nat
  towCeiling : Nat
  economyCeiling : Nat
  tankLowCeiling : Nat
  compositeAhead : Nat
  compositeAstern : Nat
deriving DecidableEq, Repr

/-- A value for each of the two boats. -/
structure PerBoat (α : Type) where
  b1 : α
  b2 : α
deriving DecidableEq, Repr

/-- Propulsion coordinator: engine table and coordinator record (2.1, 2.4). -/
structure Propulsion where
  engines : Table Engine 6
  power : Int
  diffMode : DiffMode
  fixedDiff : Int
  diff : Int
  nominal : Nat
  demand : Int
  unmet : Nat
  wash : PerBoat Wash
  zero : PerBoat Bool
  zeroAll : Bool
deriving DecidableEq, Repr

/-! ### Steering coordinator (chapter 3) -/

/-- Kind of an actuator. -/
inductive ActuatorKind where
  | mainRudder | flankingRudder | bowUnit
deriving DecidableEq, Repr

/-- Actuator state (3.5). -/
inductive ActuatorState where
  | absent | ready | diverged | fault | lost
deriving DecidableEq, Repr

/-- Bow mode. -/
inductive BowMode where
  | follow | explicit
deriving DecidableEq, Repr

/-- Written fields of an actuator entry, keys a to h; the divergence time in units of 100 ms (3.1). -/
structure ActuatorEntry where
  node : Option (Fin 32)
  kind : ActuatorKind
  boat : Boat
  gainAhead : Int
  gainAstern : Int
  limit : Nat
  band : Nat
  time : Nat
deriving DecidableEq, Repr

/-- An actuator: its entry and its runtime fields, keys i to l (3.1). -/
structure Actuator where
  entry : ActuatorEntry
  state : ActuatorState
  ordered : Int
  reported : Int
  divergeAt : Timer
deriving DecidableEq, Repr

/-- Steering coordinator: actuator table and steering record (3.1, 3.2). -/
structure Steering where
  actuators : Table Actuator 5
  rudder : Int
  bowMode : BowMode
  bowDemand : Int
  forced : Bool
deriving DecidableEq, Repr

/-! ### Coupling supervisor (chapter 4) -/

/-- Kind of a coupling. -/
inductive CouplingKind where
  | push | barge
deriving DecidableEq, Repr

/-- A set of boats: what a coupling bears on, and the sets of the boat-at-zero condition. -/
inductive BoatSet where
  | boat1 | boat2 | all
deriving DecidableEq, Repr

/-- Coupling state (4.2). -/
inductive CouplingState where
  | unused | slack | madeUp | alert | overload | parted | silent | releasing | released | makingUp
deriving DecidableEq, Repr

/-- Phase of a release (4.4). -/
inductive ReleasePhase where
  | waitZero | ordered | awaitSlack
deriving DecidableEq, Repr

/-- Written fields of a coupling entry, keys a to k (4.1). -/
structure CouplingEntry where
  kind : CouplingKind
  bearsOn : BoatSet
  sensor : Option (Fin 32)
  channel : Nat
  winch : Option (Fin 32)
  slack : Nat
  alert : Nat
  overload : Nat
  hysteresis : Nat
  debounce : Nat
  heave : Nat
deriving DecidableEq, Repr

/-- A coupling: its entry and its runtime fields, keys l to r (4.1). -/
structure Coupling where
  entry : CouplingEntry
  state : CouplingState
  phase : Option ReleasePhase
  prior : Option CouplingState
  last : Nat
  count : Nat
  waitAt : Timer
  sampleAt : Timer
deriving DecidableEq, Repr

/-- Coupling supervisor: coupling table and supervisor record (4.1, 4.3). -/
structure Tow where
  couplings : Table Coupling 48
  computed : PerBoat Nat
  applied : PerBoat Nat
  holdAt : PerBoat Timer
  work : Option (Fin 48)
deriving DecidableEq, Repr

/-! ### Fuel accounting unit (chapter 5) -/

/-- Role of a meter. -/
inductive MeterRole where
  | supply | returns | transfer | bunker
deriving DecidableEq, Repr

/-- Meter state (5.1). -/
inductive MeterState where
  | unused | baseline | counting | estimating
deriving DecidableEq, Repr

/-- Written fields of a meter entry, keys a to g (5.1). -/
structure MeterEntry where
  node : Option (Fin 32)
  channel : Nat
  role : MeterRole
  firstObject : Nat
  toTank : Nat
  maxRate : Nat
  margin : Nat
deriving DecidableEq, Repr

/-- A meter: its entry and its runtime fields, keys h to n; the last good arrival in ms (5.1). The manual gives the
accumulator no width: it is held unbounded (DESIGN CHOICE, log entry 22). -/
structure Meter where
  entry : MeterEntry
  state : MeterState
  lastTotal : Nat
  lastArrival : Nat
  lastRate : Nat
  accumulator : Nat
  silenceAt : Timer
  tickAt : Timer
deriving DecidableEq, Repr

/-- Role of a tank. -/
inductive TankRole where
  | service | storage
deriving DecidableEq, Repr

/-- Written fields of a tank entry, keys a to g (5.3). -/
structure TankEntry where
  capacity : Nat
  role : TankRole
  gauge : Option (Fin 32)
  channel : Nat
  lowMark : Nat
  lowCeiling : Nat
  tolerance : Nat
deriving DecidableEq, Repr

/-- A tank: its entry and its runtime fields, keys h to q (5.3). -/
structure Tank where
  entry : TankEntry
  base : Nat
  additions : Nat
  deductions : Nat
  shortfall : Nat
  overflow : Nat
  quantity : Nat
  bunkered : Int
  reading : Option Nat
  low : Bool
  discrepant : Bool
deriving DecidableEq, Repr

/-- An engine fuel account (5.2). -/
structure Account where
  total : Int
  leg : Int
deriving DecidableEq, Repr

/-- The leg record (5.4). -/
structure Leg where
  active : Bool
  budget : Nat
  reserveMark : Nat
  consumed : Int
  reserve : Bool
deriving DecidableEq, Repr

/-- One block of a fuel statement, as the snapshot takes it (R119). -/
inductive Block where
  | header (active reserve : Bool) (budget mark : Nat) (consumed : Int)
  | engine (index : Fin 6) (leg total : Int) (estimating : Bool)
  | tank (index : Fin 8) (role : TankRole) (quantity shortfall overflow : Nat) (bunkered : Int)
      (reading : Option Nat) (low discrepant : Bool)
deriving DecidableEq, Repr

/-- Statement state (5.5). -/
inductive StatementState where
  | idle | sending | paused
deriving DecidableEq, Repr

/-- The statement store (5.5). -/
structure Statement where
  state : StatementState
  number : Nat
  destination : Option Byte
  next : Nat
  stallAt : Timer
  blocks : List Block
deriving DecidableEq, Repr

/-- Fuel accounting unit. -/
structure Fuel where
  meters : Table Meter 16
  tanks : Table Tank 8
  accounts : Table Account 6
  leg : Leg
  statement : Statement
deriving DecidableEq, Repr

/-! ### Node roster and order transaction unit (chapter 6) -/

/-- The ports that carry plant nodes. -/
inductive PlantPort where
  | M | T
deriving DecidableEq, Repr

/-- Kind of a plant node. -/
inductive NodeKind where
  | engineGovernor | rudderActuator | bowUnit | winch | tensionSensor | fuelMeter | tankGauge
deriving DecidableEq, Repr

/-- Node state (6.2). -/
inductive NodeState where
  | unused | expected | enrolled | silent | failed
deriving DecidableEq, Repr

/-- Written fields of a roster entry, keys a to f; ack timeout in units of 10 ms, silence time and refresh
interval in units of 100 ms (6.1). -/
structure NodeEntry where
  port : PlantPort
  address : Option Byte
  kind : NodeKind
  ackTimeout : Nat
  silence : Nat
  refresh : Nat
deriving DecidableEq, Repr

/-- A roster entry and its runtime fields, keys g to k (6.1). -/
structure Node where
  entry : NodeEntry
  state : NodeState
  timeouts : Nat
  silenceAt : Timer
  refreshAt : Timer
  nextTag : Nibble
deriving DecidableEq, Repr

/-- Order kind of a transaction slot. -/
inductive OrderKind where
  | setpoint | angle | bow | winch
deriving DecidableEq, Repr

/-- What an order tells its node: a signed value, or a winch action (6.3). -/
inductive OrderValue where
  | amount (v : Int)
  | release
  | heave (target : Nat)
deriving DecidableEq, Repr

/-- The block and table entry that placed an order (6.3). -/
inductive Owner where
  | propulsion (engine : Fin 6)
  | steering (actuator : Fin 5)
  | tow (coupling : Fin 48)
deriving DecidableEq, Repr

/-- State of a transaction slot (6.3). -/
inductive SlotState where
  | free | held | waiting | queued | sending | awaiting
deriving DecidableEq, Repr

/-- One transaction slot (6.3). Its key g, supersedable, follows from the order kind. -/
structure Slot where
  target : Fin 32
  kind : OrderKind
  value : OrderValue
  tag : Nibble
  owner : Option Owner
  condition : Option BoatSet
  state : SlotState
  ackAt : Timer
deriving DecidableEq, Repr

/-- Order transaction unit: slots and the order lanes of ports M and T, head first. -/
structure Transactions where
  slots : Table Slot 16
  laneM : List (Fin 16)
  laneT : List (Fin 16)
deriving DecidableEq, Repr

/-! ### Link ports (chapter 7) -/

/-- Line state. -/
inductive LineState where
  | up | down
deriving DecidableEq, Repr

/-- Where the frame on the line came from (R154). A slot freed while SENDING leaves `slot none`. -/
inductive Source where
  | answerLane
  | frameQueue
  | slot (index : Option (Fin 16))
deriving DecidableEq, Repr

/-- A transmission in progress: the frame as taken and the instant of its last stop bit (R153). -/
structure Transmission where
  source : Source
  frame : Frame
  doneAt : Nat
deriving DecidableEq, Repr

/-- One port of the link. `gapAt` is the instant from which the line has rested idle for 2 byte times (R153). -/
structure Line where
  line : LineState
  assembly : Assembly
  sending : Option Transmission
  gapAt : Nat
deriving DecidableEq, Repr

/-- A value for each of the three ports. -/
structure PerPort (α : Type) where
  w : α
  m : α
  t : α
deriving DecidableEq, Repr

/-- Link ports and own address. -/
structure Link where
  ports : PerPort Line
  own : Byte
deriving DecidableEq, Repr

/-! ### Intake, passage and forwarding (chapter 8) -/

/-- Action of a passage entry or default. -/
inductive Action where
  | drop | pass | take | takePass
deriving DecidableEq, Repr

/-- The four jobs. -/
inductive Job where
  | propulsion | steering | tow | fuel
deriving DecidableEq, Repr

/-- A set of ports. -/
structure PortSet where
  w : Bool
  m : Bool
  t : Bool
deriving DecidableEq, Repr

/-- A passage entry (8.3). The kind selector, the kind and the disposition are held as last written (R167);
the selector is 0 for a number and any other value for ANY (10.2). -/
structure PassageEntry where
  used : Bool
  ingress : Option Port
  source : Option Byte
  cls : Option (Fin 8)
  kindSelector : Byte
  kind : Byte
  disposition : Byte
deriving DecidableEq, Repr

/-- The default action of a port (8.3). The port set is held as last written. -/
structure DefaultEntry where
  action : Action
  job : Job
  ports : Byte
deriving DecidableEq, Repr

/-- Intake and forwarding: passage table, defaults, allocation, frame queues and answer lane (8.2 to 8.5).
A queue or lane is listed head first; the frame being sent from it is its head. -/
structure Forwarding where
  passage : Table PassageEntry 64
  defaults : PerPort DefaultEntry
  reserved : PerPort Nat
  pool : Nat
  pendingDecrease : PerPort (Option Nat)
  queues : PerPort (List Frame)
  answers : List Frame
deriving DecidableEq, Repr

/-! ### Notice unit (chapter 9) -/

/-- The notice kinds in the order of their numbers 1 to 25 (9.1). -/
inductive NoticeKind where
  | engineTrip | engineLost | unmetDemand | actuatorFault | actuatorDiverged | couplingAlert
  | couplingOverload | couplingParted | couplingSilent | releaseDone | releaseAbandoned
  | makeupAbandoned | helmLoss | commandTransfer | nodeEnrolled | nodeSilent | nodeFailed
  | enrolMismatch | fuelReserve | tankLow | tankDiscrepancy | meterEstimating | meterReset
  | statementEnd | forwardLost
deriving DecidableEq, Repr

/-- A notice: a kind and a subject (9.2). -/
structure Notice where
  kind : NoticeKind
  subject : Byte
deriving DecidableEq, Repr

/-- A channel record (9.3). -/
structure Channel where
  armed : Bool
  autoDisarm : Bool
  overflow : Bool
deriving DecidableEq, Repr

/-- Notice unit: notice list, notice map, channels, master enable (9.2, 9.3). -/
structure NoticeUnit where
  list : List Notice
  map : Table (Fin 8) 25
  channels : Table Channel 8
  master : Bool
deriving DecidableEq, Repr

/-! ### The whole part -/

/-- The state of the part. The management handler keeps nothing from one request to the next (chapter 10),
so it has no field. `now` is the time base, in µs since the last power-on reset (R148). `free` and
`pending` are the model's own: the number of free values used so far, and the commands that wait. -/
structure State where
  now : Nat
  helm : HelmUnit
  prop : Propulsion
  steer : Steering
  tow : Tow
  fuel : Fuel
  nodes : Table Node 32
  trans : Transactions
  link : Link
  fwd : Forwarding
  notices : NoticeUnit
  free : Nat
  pending : List Instr
deriving DecidableEq, Repr

/-! ### Values after power-on reset -/

/-- Default profile (R15). -/
def Profile.reset : Profile where
  aheadCeiling := 1000
  asternCeiling := 1000
  stepSize := 20
  stepInterval := 50
  reversalDwell := 30
  guardPeriod := 0
  towAlertCeiling := 600
  towOverloadCeiling := 200
  towHold := 10
  tensionScale := 16
  economyCeiling := 700
  gain := 0
  waitLimit := 60
  fallback := 0

/-- Mode and helm unit after power-on (R15). -/
def HelmUnit.reset : HelmUnit where
  modes := Vector.replicate 8 Profile.reset
  stations := Vector.replicate 2 none
  helm := .normal
  mode := 0
  remembered := none
  command := none
  guardAt := none

/-- Engine after power-on (R47). -/
def Engine.reset : Engine where
  entry := {
    governor := none, boat := .b1, side := .centre, rating := 1000, weight := 0, serviceTank := none,
    supplyMeter := none, returnMeter := none, idleBand := 0, alertCeiling := 600, alarmCeiling := 300 }
  state := .absent
  health := .sound
  load := 0
  target := 0
  setpoint := 0
  lastSign := .unset
  slew := .steady
  stepAt := none
  dwellAt := none
  modeAhead := 1000
  modeAstern := 1000
  healthCeiling := 1000
  towCeiling := 1000
  economyCeiling := 1000
  tankLowCeiling := 1000
  compositeAhead := 1000
  compositeAstern := 1000

/-- Propulsion coordinator after power-on (R47). -/
def Propulsion.reset : Propulsion where
  engines := Vector.replicate 6 Engine.reset
  power := 0
  diffMode := .fixed
  fixedDiff := 0
  diff := 0
  nominal := 0
  demand := 0
  unmet := 0
  wash := { b1 := .ahead, b2 := .ahead }
  zero := { b1 := true, b2 := true }
  zeroAll := true

/-- Actuator after power-on (R67). -/
def Actuator.reset : Actuator where
  entry := {
    node := none, kind := .mainRudder, boat := .b1, gainAhead := 0, gainAstern := 0, limit := 0,
    band := 0, time := 10 }
  state := .absent
  ordered := 0
  reported := 0
  divergeAt := none

/-- Steering coordinator after power-on (R67). -/
def Steering.reset : Steering where
  actuators := Vector.replicate 5 Actuator.reset
  rudder := 0
  bowMode := .follow
  bowDemand := 0
  forced := false

/-- Coupling after power-on (R96). -/
def Coupling.reset : Coupling where
  entry := {
    kind := .push, bearsOn := .all, sensor := none, channel := 0, winch := none, slack := 50,
    alert := 1800, overload := 2600, hysteresis := 100, debounce := 3, heave := 300 }
  state := .unused
  phase := none
  prior := none
  last := 0
  count := 0
  waitAt := none
  sampleAt := none

/-- Coupling supervisor after power-on (R96). -/
def Tow.reset : Tow where
  couplings := Vector.replicate 48 Coupling.reset
  computed := { b1 := 1000, b2 := 1000 }
  applied := { b1 := 1000, b2 := 1000 }
  holdAt := { b1 := none, b2 := none }
  work := none

/-- Meter after power-on (R125). -/
def Meter.reset : Meter where
  entry := {
    node := none, channel := 0, role := .supply, firstObject := 0, toTank := 0, maxRate := 1000,
    margin := 200 }
  state := .unused
  lastTotal := 0
  lastArrival := 0
  lastRate := 0
  accumulator := 0
  silenceAt := none
  tickAt := none

/-- Tank after power-on (R125). -/
def Tank.reset : Tank where
  entry := {
    capacity := 0, role := .service, gauge := none, channel := 0, lowMark := 0, lowCeiling := 1000,
    tolerance := 0 }
  base := 0
  additions := 0
  deductions := 0
  shortfall := 0
  overflow := 0
  quantity := 0
  bunkered := 0
  reading := none
  low := false
  discrepant := false

/-- Fuel accounting unit after power-on (R125). -/
def Fuel.reset : Fuel where
  meters := Vector.replicate 16 Meter.reset
  tanks := Vector.replicate 8 Tank.reset
  accounts := Vector.replicate 6 { total := 0, leg := 0 }
  leg := { active := false, budget := 0, reserveMark := 0, consumed := 0, reserve := false }
  statement := {
    state := .idle, number := 0, destination := none, next := 1, stallAt := none, blocks := [] }

/-- Roster entry after power-on (R145). -/
def Node.reset : Node where
  entry := {
    port := .M, address := none, kind := .engineGovernor, ackTimeout := 10, silence := 20, refresh := 0 }
  state := .unused
  timeouts := 0
  silenceAt := none
  refreshAt := none
  nextTag := 0

/-- Transaction slot after power-on (R145). -/
def Slot.reset : Slot where
  target := 0
  kind := .setpoint
  value := .amount 0
  tag := 0
  owner := none
  condition := none
  state := .free
  ackAt := none

/-- Transaction unit after power-on (R145). -/
def Transactions.reset : Transactions where
  slots := Vector.replicate 16 Slot.reset
  laneM := []
  laneT := []

/-- A port after power-on (R151): UP, assembly empty, transmitter idle. -/
def Line.reset : Line where
  line := .up
  assembly := Assembly.empty
  sending := none
  gapAt := 0

/-- Link ports after power-on (R151, R152). -/
def Link.reset : Link where
  ports := { w := Line.reset, m := Line.reset, t := Line.reset }
  own := 120

/-- Passage entry after power-on (R173). R173 gives kind ANY and not the bytes that carry it: the selector
is FFh and the kind 0 here (log entry 5). Disposition 0 is DROP, PROPULSION, no port. -/
def PassageEntry.reset : PassageEntry where
  used := false
  ingress := none
  source := none
  cls := none
  kindSelector := 0xFF
  kind := 0
  disposition := 0

/-- Default action after power-on (R173). -/
def DefaultEntry.reset : DefaultEntry where
  action := .drop
  job := .propulsion
  ports := 0

/-- Intake and forwarding after power-on (R173). -/
def Forwarding.reset : Forwarding where
  passage := Vector.replicate 64 PassageEntry.reset
  defaults := { w := DefaultEntry.reset, m := DefaultEntry.reset, t := DefaultEntry.reset }
  reserved := { w := 8, m := 8, t := 8 }
  pool := 24
  pendingDecrease := { w := none, m := none, t := none }
  queues := { w := [], m := [], t := [] }
  answers := []

/-- Notice unit after power-on (R182). -/
def NoticeUnit.reset : NoticeUnit where
  list := []
  map := Vector.replicate 25 0
  channels := Vector.replicate 8 { armed := false, autoDisarm := false, overflow := false }
  master := false

/-- The part right after power-on reset (R189), with no command waiting. -/
def State.reset : State where
  now := 0
  helm := HelmUnit.reset
  prop := Propulsion.reset
  steer := Steering.reset
  tow := Tow.reset
  fuel := Fuel.reset
  nodes := Vector.replicate 32 Node.reset
  trans := Transactions.reset
  link := Link.reset
  fwd := Forwarding.reset
  notices := NoticeUnit.reset
  free := 0
  pending := []

/-- No command of the part faults: the manual gives each of them an effect in every state, and names no
condition that stops the part. -/
inductive Fault where
deriving DecidableEq, Repr

/-- The model's refusals. -/
inductive Refusal where
  /-- Raised by `exec` alone, for a command that has no meaning yet. Safe: the model stops. -/
  | notModelled (mnemonic : String)
deriving DecidableEq, Repr

/-- What a command answers: a next state, a fault or a refusal. -/
abbrev Outcome := Host.Outcome State Fault Refusal

end Sys2Proof.Machine
end

