-- ==== Sys2Proof/Machine/Ops.lean ====
section
/-! DEFINITION. Machine/Ops.lean: the shared operations: tables, timers and the time base, values held for
each port or boat, free values, the frames the part builds, the frame queues and their buffers, the answer
lane, and the latch of a notice with the REPORT it may build. -/

namespace Sys2Proof.Machine

/-! ### Tables -/

/-- A table with every entry changed by `f`. -/
def mapTable {α β : Type} {n : Nat} (f : α → β) (t : Table α n) : Table β n :=
  ⟨⟨t.toArray.toList.map f⟩, by simp⟩

/-- The table with entry `i` equal to `f i`. -/
def ofTable {α : Type} {n : Nat} (f : Fin n → α) : Table α n :=
  ⟨⟨(List.finRange n).map f⟩, by simp⟩

/-- A table with entry `i` changed by `f`. -/
def modTable {α : Type} {n : Nat} (t : Table α n) (i : Fin n) (f : α → α) : Table α n :=
  t.set i (f t[i])

/-- The lowest index whose entry meets `p`. -/
def findTable {α : Type} {n : Nat} (t : Table α n) (p : α → Bool) : Option (Fin n) :=
  (List.finRange n).find? fun i => p t[i]

/-- The entry a byte names, if the table has it. -/
def indexOf (n : Nat) (b : Byte) : Option (Fin n) :=
  if h : b.toNat < n then some ⟨b.toNat, h⟩ else none

/-- The value for one port. -/
def PerPort.get {α : Type} (v : PerPort α) : Port → α
  | .W => v.w
  | .M => v.m
  | .T => v.t

/-- The values with the one of a port replaced. -/
def PerPort.set {α : Type} (v : PerPort α) (p : Port) (x : α) : PerPort α :=
  match p with
  | .W => { v with w := x }
  | .M => { v with m := x }
  | .T => { v with t := x }

/-- The value for one boat. -/
def PerBoat.get {α : Type} (v : PerBoat α) : Boat → α
  | .b1 => v.b1
  | .b2 => v.b2

/-- The values with the one of a boat replaced. -/
def PerBoat.set {α : Type} (v : PerBoat α) (b : Boat) (x : α) : PerBoat α :=
  match b with
  | .b1 => { v with b1 := x }
  | .b2 => { v with b2 := x }

/-- The three ports in the order W, M, T. -/
def allPorts : List Port :=
  [.W, .M, .T]

/-- Number of a port: 0 W, 1 M, 2 T (9.1). -/
def portNumber : Port → Byte
  | .W => 0
  | .M => 1
  | .T => 2

/-- A plant port as a port of the link. -/
def PlantPort.port : PlantPort → Port
  | .M => .M
  | .T => .T

/-! ### Arithmetic -/

/-- A signed value brought to the nearest end of its range. -/
def clamp (lo hi x : Int) : Int :=
  max lo (min hi x)

/-! ### Time base and timers (R148) -/

/-- Milliseconds as µs. -/
def ms (n : Nat) : Nat :=
  n * 1000

/-- The instant a timer started now with a period in µs expires at. -/
def State.after (s : State) (period : Nat) : Timer :=
  some (s.now + period)

/-- The time left on a timer in whole ms, truncated; 0 while stopped (R148). -/
def State.remaining (s : State) : Timer → Nat
  | none => 0
  | some instant => (instant - s.now) / 1000

/-- The state at an instant not before the present one: the time base stands at that instant. -/
def State.reach (s : State) (instant : Nat) : State :=
  { s with now := max s.now instant }

/-- The profile in force (1.1). -/
def State.profile (s : State) : Profile :=
  s.helm.modes[s.helm.mode]

/-- MOORED is in force (R3). -/
def State.moored (s : State) : Bool :=
  decide (s.helm.mode = 0)

/-! ### Free values -/

/-- A fresh 48-bit figure, of which nothing is known, and the state with the value used up. -/
def State.freeFigure (s : State) : BitVec 48 × State :=
  (Config.freeFigure s.free, { s with free := s.free + 1 })

/-- A fresh byte, of which nothing is known, and the state with the value used up. -/
def State.freeByte (s : State) : Byte × State :=
  (Config.freeByte s.free, { s with free := s.free + 1 })

/-! ### Frames the part builds (R156) -/

/-- A frame built by the part: it carries the own address as its SRC (R152). -/
def State.build (s : State) (dest : Byte) (cls tag : Nibble) (payload : List Byte) : Frame :=
  { dest := dest, src := s.link.own, cls := cls, tag := tag, payload := payload }

/-! ### Frame buffers and queues (R168, R169) -/

/-- Frames held by a queue. -/
def State.queueCount (s : State) (p : Port) : Nat :=
  (s.fwd.queues.get p).length

/-- Pool in use: what each queue count exceeds its reservation by, summed (8.4 key e). -/
def Forwarding.poolInUse (f : Forwarding) : Nat :=
  (f.queues.w.length - f.reserved.w) + (f.queues.m.length - f.reserved.m) +
    (f.queues.t.length - f.reserved.t)

/-- A buffer reserved to the queue of a port is free (R168). -/
def State.reservedFree (s : State) (p : Port) : Bool :=
  decide (s.queueCount p < s.fwd.reserved.get p)

/-- A frame placed at the tail of a frame queue. -/
def State.pushFrame (s : State) (p : Port) (f : Frame) : State :=
  { s with fwd := { s.fwd with queues := s.fwd.queues.set p (s.fwd.queues.get p ++ [f]) } }

/-- A forwarded copy or a REPORT takes a reserved buffer, else a pool buffer; `none` when it is lost (R169). -/
def State.placeFrame (s : State) (p : Port) (f : Frame) : Option State :=
  if s.reservedFree p ∨ s.fwd.poolInUse < s.fwd.pool then some (s.pushFrame p f) else none

/-! ### The answer lane (R163) -/

/-- The answer lane holds its four frames. -/
def State.laneFull (s : State) : Bool :=
  decide (4 ≤ s.fwd.answers.length)

/-- An answer or reply placed at the tail of the answer lane. -/
def State.placeAnswer (s : State) (f : Frame) : State :=
  { s with fwd := { s.fwd with answers := s.fwd.answers ++ [f] } }

/-! ### Notices (chapter 9) -/

/-- Index of a kind in the notice map: its number less 1 (9.1). -/
def NoticeKind.index : NoticeKind → Fin 25
  | .engineTrip => 0
  | .engineLost => 1
  | .unmetDemand => 2
  | .actuatorFault => 3
  | .actuatorDiverged => 4
  | .couplingAlert => 5
  | .couplingOverload => 6
  | .couplingParted => 7
  | .couplingSilent => 8
  | .releaseDone => 9
  | .releaseAbandoned => 10
  | .makeupAbandoned => 11
  | .helmLoss => 12
  | .commandTransfer => 13
  | .nodeEnrolled => 14
  | .nodeSilent => 15
  | .nodeFailed => 16
  | .enrolMismatch => 17
  | .fuelReserve => 18
  | .tankLow => 19
  | .tankDiscrepancy => 20
  | .meterEstimating => 21
  | .meterReset => 22
  | .statementEnd => 23
  | .forwardLost => 24

/-- Number of a kind, 1 to 25 (9.1). -/
def NoticeKind.number (k : NoticeKind) : Byte :=
  BitVec.ofNat 8 (k.index.val + 1)

/-- The channel a kind belongs to (9.3). -/
def NoticeUnit.channelOf (u : NoticeUnit) (k : NoticeKind) : Fin 8 :=
  u.map[k.index]

/-- A channel is reportable while the master enable is ON and it is ARMED (R178). -/
def NoticeUnit.reportable (u : NoticeUnit) (c : Fin 8) : Bool :=
  u.master && u.channels[c].armed

/-- The entries of a channel, oldest first. -/
def NoticeUnit.entriesOf (u : NoticeUnit) (c : Fin 8) : List Notice :=
  u.list.filter fun n => u.channelOf n.kind = c

/-- The entries a REPORT or a NOTICE_READ reply of a channel carries (R179, R180). -/
def NoticeUnit.carried (u : NoticeUnit) (c : Fin 8) : List Notice :=
  (u.entriesOf c).take 10

/-- The flags byte of a REPORT or NOTICE_READ reply: bit 0 more, bit 1 overflow (7.5.5). -/
def NoticeUnit.flags (u : NoticeUnit) (c : Fin 8) : Byte :=
  (if 10 < (u.entriesOf c).length then 1 else 0) ||| (if u.channels[c].overflow then 2 else 0)

/-- Kind and subject of each notice, two bytes each (7.5.5). -/
def noticeBytes (ns : List Notice) : List Byte :=
  ns.flatMap fun n => [n.kind.number, n.subject]

/-- Payload of a REPORT (7.5.5). -/
def NoticeUnit.reportPayload (u : NoticeUnit) (c : Fin 8) : List Byte :=
  [0x01, BitVec.ofNat 8 c.val, u.flags c, BitVec.ofNat 8 (u.carried c).length] ++
    noticeBytes (u.carried c)

/-- A channel after a REPORT was built for it: DISARMED if its auto-disarm flag is TRUE (R179). -/
def Channel.afterReport (c : Channel) : Channel :=
  if c.autoDisarm then { c with armed := false } else c

/-- The build of a REPORT for a channel, with whether the frame was lost for want of a buffer (R179). -/
def State.report (s : State) (c : Fin 8) : State × Bool :=
  let f := s.build 0 6 0 (s.notices.reportPayload c)
  let s1 := { s with
    notices := { s.notices with channels := modTable s.notices.channels c Channel.afterReport } }
  match s1.placeFrame .W f with
  | some s2 => (s2, false)
  | none => (s1, true)

/-- A pair appended at the tail of the notice list. -/
def State.append (s : State) (n : Notice) : State :=
  { s with notices := { s.notices with list := s.notices.list ++ [n] } }

/-- The overflow marker of a channel SET. -/
def State.markOverflow (s : State) (c : Fin 8) : State :=
  { s with notices :=
    { s.notices with channels := modTable s.notices.channels c fun x => { x with overflow := true } } }

/-- The latch of FORWARD_LOST for the queue of port W made at the loss of a REPORT (R179). It builds a REPORT
only where the pair is new in the list; that REPORT, lost in turn, finds the pair present and latches
nothing. -/
def State.reportLost (s : State) : State :=
  let n : Notice := { kind := .forwardLost, subject := portNumber .W }
  let c := s.notices.channelOf .forwardLost
  if n ∈ s.notices.list then s
  else if s.notices.list.length < 32 then
    let s1 := s.append n
    if s1.notices.reportable c then (s1.report c).1 else s1
  else s.markOverflow c

/-- The end of work that may have lost a REPORT: FORWARD_LOST latched where one was lost (R179). -/
def lossNoted (r : State × Bool) : State :=
  if r.2 then r.1.reportLost else r.1

/-- A REPORT built for a channel, and FORWARD_LOST latched if it is lost (R179). -/
def State.buildReport (s : State) (c : Fin 8) : State :=
  lossNoted (s.report c)

/-- The record of a notice (R175) with the REPORT that R179 calls for, and whether that REPORT was lost. -/
def State.note (s : State) (kind : NoticeKind) (subject : Byte) : State × Bool :=
  let n : Notice := { kind := kind, subject := subject }
  let c := s.notices.channelOf kind
  if n ∈ s.notices.list then (s, false)
  else if s.notices.list.length < 32 then
    let s1 := s.append n
    if s1.notices.reportable c then s1.report c else (s1, false)
  else
    let s1 := s.markOverflow c
    if s1.notices.reportable c ∧ s1.notices.entriesOf c ≠ [] then s1.report c else (s1, false)

/-- The latch of a notice (R175), with the REPORT that R179 calls for. -/
def State.latch (s : State) (kind : NoticeKind) (subject : Byte) : State :=
  lossNoted (s.note kind subject)

/-- The subject byte of a table index. -/
def subjectOf {n : Nat} (i : Fin n) : Byte :=
  BitVec.ofNat 8 i.val

/-- A forwarded copy placed in a frame queue, or lost with FORWARD_LOST latched for the port (R169). -/
def State.forwardCopy (s : State) (p : Port) (f : Frame) : State :=
  match s.placeFrame p f with
  | some s1 => s1
  | none => s.latch .forwardLost (portNumber p)

end Sys2Proof.Machine
end

