-- ==== Sys2Proof/Machine/Operands.lean ====
section
/-! DEFINITION. Machine/Operands.lean: the operand forms of the commands: table entries as written and as held
(10.2), and the encodings that TABLE_READ and STATE_READ replies use (R184, R185). A coded field is numbered
from 0 in the order its chapter lists its values, and an index that is none is FFh. -/

namespace Sys2Proof.Machine

/-! ### Fields -/

/-- An unsigned field of two bytes. -/
def bytes2 (n : Nat) : List Byte :=
  halfBytes (BitVec.ofNat 16 n)

/-- A signed field of two bytes. -/
def bytes2i (x : Int) : List Byte :=
  halfBytes (BitVec.ofInt 16 x)

/-- An unsigned field of four bytes. -/
def bytes4 (n : Nat) : List Byte :=
  quadBytes (BitVec.ofNat 32 n)

/-- A signed field of four bytes. -/
def bytes4i (x : Int) : List Byte :=
  quadBytes (BitVec.ofInt 32 x)

/-- The three bytes of a field of 24 bits. -/
def bytes3n (n : Nat) : List Byte :=
  [BitVec.ofNat 8 (n / 65536), BitVec.ofNat 8 (n / 256), BitVec.ofNat 8 n]

/-- The six bytes of a 48-bit field. -/
def bytes6v (x : BitVec 48) : List Byte :=
  [x.extractLsb' 40 8, x.extractLsb' 32 8, x.extractLsb' 24 8, x.extractLsb' 16 8, x.extractLsb' 8 8,
    x.extractLsb' 0 8]

/-- An unsigned 48-bit figure. -/
def bytes6 (n : Nat) : List Byte :=
  bytes6v (BitVec.ofNat 48 n)

/-- A signed 48-bit figure. -/
def bytes6i (x : Int) : List Byte :=
  bytes6v (BitVec.ofInt 48 x)

/-- A flag: 1 for TRUE, ON, ARMED or SET, 0 otherwise (log entry 7). -/
def flagByte (b : Bool) : Byte :=
  if b then 1 else 0

/-- A YES/NO field, a coded field listed YES first (8.3 key a, 6.3 key g; log entry 8). -/
def yesByte (b : Bool) : Byte :=
  if b then 0 else 1

/-- An index as carried: FFh when none (10.2). -/
def indexByte {n : Nat} : Option (Fin n) → Byte
  | some i => BitVec.ofNat 8 i.val
  | none => 0xFF

/-- An address as carried: 0 when none (10.2). -/
def addressByte : Option Byte → Byte
  | some a => a
  | none => 0

/-- An index field of a write: the index, none for FFh, or out of range. -/
def readIndex (n : Nat) (b : Byte) : Option (Option (Fin n)) :=
  if b = 0xFF then some none else (indexOf n b).map some

/-- A byte is the number of one of the `n` values of a coded field. -/
def coded (n : Nat) (b : Byte) : Bool :=
  decide (b.toNat < n)

/-! ### Numbers of the coded fields -/

/-- Boat as carried: its number, 1 or 2. -/
def boatByte : Boat → Byte
  | .b1 => 1
  | .b2 => 2

def Side.byte : Side → Byte
  | .port => 0
  | .centre => 1
  | .stbd => 2

def EngineState.byte : EngineState → Byte
  | .absent => 0
  | .standby => 1
  | .running => 2
  | .tripped => 3
  | .lost => 4

def Health.byte : Health → Byte
  | .sound => 0
  | .alert => 1
  | .alarm => 2

def LastSign.byte : LastSign → Byte
  | .unset => 0
  | .ahead => 1
  | .astern => 2

def Slew.byte : Slew → Byte
  | .steady => 0
  | .slewing => 1
  | .dwelling => 2

def DiffMode.byte : DiffMode → Byte
  | .fixed => 0
  | .auto => 1

def Wash.byte : Wash → Byte
  | .ahead => 0
  | .astern => 1

def ActuatorKind.byte : ActuatorKind → Byte
  | .mainRudder => 0
  | .flankingRudder => 1
  | .bowUnit => 2

def ActuatorState.byte : ActuatorState → Byte
  | .absent => 0
  | .ready => 1
  | .diverged => 2
  | .fault => 3
  | .lost => 4

def BowMode.byte : BowMode → Byte
  | .follow => 0
  | .explicit => 1

def CouplingKind.byte : CouplingKind → Byte
  | .push => 0
  | .barge => 1

def BoatSet.byte : BoatSet → Byte
  | .boat1 => 0
  | .boat2 => 1
  | .all => 2

def CouplingState.byte : CouplingState → Byte
  | .unused => 0
  | .slack => 1
  | .madeUp => 2
  | .alert => 3
  | .overload => 4
  | .parted => 5
  | .silent => 6
  | .releasing => 7
  | .released => 8
  | .makingUp => 9

/-- A prior state as carried: numbered in the order key n of 4.1 lists them, FFh when none. -/
def priorByte : Option CouplingState → Byte
  | some .slack => 0
  | some .madeUp => 1
  | some .alert => 2
  | some .overload => 3
  | some .silent => 4
  | some .released => 5
  | _ => 0xFF

/-- A release phase as carried, FFh when none. -/
def phaseByte : Option ReleasePhase → Byte
  | some .waitZero => 0
  | some .ordered => 1
  | some .awaitSlack => 2
  | none => 0xFF

def MeterRole.byte : MeterRole → Byte
  | .supply => 0
  | .returns => 1
  | .transfer => 2
  | .bunker => 3

def MeterState.byte : MeterState → Byte
  | .unused => 0
  | .baseline => 1
  | .counting => 2
  | .estimating => 3

def TankRole.byte : TankRole → Byte
  | .service => 0
  | .storage => 1

def StatementState.byte : StatementState → Byte
  | .idle => 0
  | .sending => 1
  | .paused => 2

def PlantPort.byte : PlantPort → Byte
  | .M => 0
  | .T => 1

def NodeKind.byte : NodeKind → Byte
  | .engineGovernor => 0
  | .rudderActuator => 1
  | .bowUnit => 2
  | .winch => 3
  | .tensionSensor => 4
  | .fuelMeter => 5
  | .tankGauge => 6

def NodeState.byte : NodeState → Byte
  | .unused => 0
  | .expected => 1
  | .enrolled => 2
  | .silent => 3
  | .failed => 4

def OrderKind.byte : OrderKind → Byte
  | .setpoint => 0
  | .angle => 1
  | .bow => 2
  | .winch => 3

def SlotState.byte : SlotState → Byte
  | .free => 0
  | .held => 1
  | .waiting => 2
  | .queued => 3
  | .sending => 4
  | .awaiting => 5

def HelmState.byte : HelmState → Byte
  | .normal => 0
  | .lost => 1

def LineState.byte : LineState → Byte
  | .up => 0
  | .down => 1

def Action.byte : Action → Byte
  | .drop => 0
  | .pass => 1
  | .take => 2
  | .takePass => 3

def Job.byte : Job → Byte
  | .propulsion => 0
  | .steering => 1
  | .tow => 2
  | .fuel => 3

/-- Condition of a slot as carried, FFh when none. -/
def conditionByte : Option BoatSet → Byte
  | some b => b.byte
  | none => 0xFF

/-- KIND by which an ENROL names a node kind: 01h to 07h (7.5.4). -/
def NodeKind.enrolKind (k : NodeKind) : Byte :=
  k.byte + 1

/-- Action of a code. -/
def actionOf (b : Byte) : Action :=
  if b = 0 then .drop else if b = 1 then .pass else if b = 2 then .take else .takePass

/-- Job of a code. -/
def jobOf (b : Byte) : Job :=
  if b = 0 then .propulsion else if b = 1 then .steering else if b = 2 then .tow else .fuel

/-- Port set of three bits, W lowest. -/
def portSetOf (b : Byte) : PortSet :=
  { w := b.getLsbD 0, m := b.getLsbD 1, t := b.getLsbD 2 }

/-- A port set names a port. -/
def PortSet.has (x : PortSet) : Port → Bool
  | .W => x.w
  | .M => x.m
  | .T => x.t

/-- A port set is empty. -/
def PortSet.isEmpty (x : PortSet) : Bool :=
  !x.w && !x.m && !x.t

/-! ### Entries as written and as held -/

/-- A station entry: 0 is none (1.2). -/
def stationOf (b : Byte) : Option Byte :=
  if b = 0 then none else some b

/-- A roster entry as held; the ranges are those of R127. -/
def RosterRaw.entry (r : RosterRaw) : NodeEntry where
  port := if r.port = 0 then .M else .T
  address := stationOf r.address
  kind :=
    if r.kind = 0 then .engineGovernor
    else if r.kind = 1 then .rudderActuator
    else if r.kind = 2 then .bowUnit
    else if r.kind = 3 then .winch
    else if r.kind = 4 then .tensionSensor
    else if r.kind = 5 then .fuelMeter
    else .tankGauge
  ackTimeout := r.ackTimeout.toNat
  silence := r.silence.toNat
  refresh := r.refresh.toNat

/-- Checks 2 and 3 of R127. -/
def RosterRaw.inRange (r : RosterRaw) : Bool :=
  coded 2 r.port && decide (r.address.toNat ≤ 127) && coded 7 r.kind && decide (1 ≤ r.ackTimeout.toNat) &&
    decide (1 ≤ r.silence.toNat)

/-- A roster entry as read. -/
def NodeEntry.bytes (e : NodeEntry) : List Byte :=
  [e.port.byte, addressByte e.address, e.kind.byte, BitVec.ofNat 8 e.ackTimeout,
    BitVec.ofNat 8 e.silence, BitVec.ofNat 8 e.refresh]

/-- A passage entry as held (8.3). -/
def PassageRaw.entry (r : PassageRaw) : PassageEntry where
  used := r.used = 0
  ingress := if r.ingress = 0 then some .W else if r.ingress = 1 then some .M
    else if r.ingress = 2 then some .T else none
  source := if r.source = 0xFF then none else some r.source
  cls := indexOf 8 r.cls
  kindSelector := r.kindSelector
  kind := r.kind
  disposition := r.disposition

/-- Check 2 of R167: each coded field holds a listed value, and the source is an address or ANY. -/
def PassageRaw.inRange (r : PassageRaw) : Bool :=
  coded 2 r.used && (coded 3 r.ingress || decide (r.ingress = 0xFF)) &&
    (decide (r.source = 0xFF) || (decide (1 ≤ r.source.toNat) && decide (r.source.toNat ≤ 127))) &&
    (coded 8 r.cls || decide (r.cls = 0xFF))

/-- Action of a passage entry: bits 0 and 1 of the disposition (10.2). -/
def PassageEntry.action (e : PassageEntry) : Action :=
  actionOf (e.disposition &&& 3)

/-- Job of a passage entry: bits 2 and 3 of the disposition (10.2). -/
def PassageEntry.job (e : PassageEntry) : Job :=
  jobOf ((e.disposition >>> 2) &&& 3)

/-- Port set of a passage entry: bits 4 to 6 of the disposition (10.2). -/
def PassageEntry.ports (e : PassageEntry) : PortSet :=
  portSetOf (e.disposition >>> 4)

/-- Byte of a port pattern; FFh is ANY. -/
def portByte : Option Port → Byte
  | some p => portNumber p
  | none => 0xFF

/-- Byte of a source pattern; FFh is ANY. -/
def sourceByte : Option Byte → Byte
  | some a => a
  | none => 0xFF

/-- A passage entry as read: the entry as last written (R167). -/
def PassageEntry.bytes (e : PassageEntry) : List Byte :=
  [yesByte e.used, portByte e.ingress, sourceByte e.source, indexByte e.cls, e.kindSelector, e.kind,
    e.disposition]

/-- An action passes frames on: PASS or TAKE_PASS. -/
def Action.passes : Action → Bool
  | .pass => true
  | .takePass => true
  | _ => false

/-- An action takes frames into a job: TAKE or TAKE_PASS. -/
def Action.takes : Action → Bool
  | .take => true
  | .takePass => true
  | _ => false

/-- A default action as held (8.3). -/
def DefaultRaw.entry (r : DefaultRaw) : DefaultEntry where
  action := actionOf r.action
  job := jobOf r.job
  ports := r.ports

/-- A default action as read. -/
def DefaultEntry.bytes (e : DefaultEntry) : List Byte :=
  [e.action.byte, e.job.byte, e.ports]

/-- A mode profile as held (1.1). -/
def ModeRaw.entry (r : ModeRaw) : Profile where
  aheadCeiling := r.ahead.toNat
  asternCeiling := r.astern.toNat
  stepSize := r.stepSize.toNat
  stepInterval := r.stepInterval.toNat
  reversalDwell := r.dwell.toNat
  guardPeriod := r.guardPeriod.toNat
  towAlertCeiling := r.towAlert.toNat
  towOverloadCeiling := r.towOverload.toNat
  towHold := r.towHold.toNat
  tensionScale := r.scale.toNat
  economyCeiling := r.economy.toNat
  gain := r.gain.toNat
  waitLimit := r.waitLimit.toNat
  fallback := r.fallback.toInt

/-- The ranges of the mode profile table, times in their units (1.1, R1). -/
def Profile.inRange (p : Profile) : Bool :=
  decide (p.aheadCeiling ≤ 1000) && decide (p.asternCeiling ≤ 1000) &&
    decide (1 ≤ p.stepSize) && decide (p.stepSize ≤ 250) &&
    decide (2 ≤ p.stepInterval) && decide (p.stepInterval ≤ 255) &&
    decide (p.reversalDwell ≤ 255) && decide (p.guardPeriod ≠ 1) && decide (p.guardPeriod ≤ 255) &&
    decide (p.towAlertCeiling ≤ 1000) && decide (p.towOverloadCeiling ≤ 1000) &&
    decide (p.towHold ≤ 255) && decide (8 ≤ p.tensionScale) && decide (p.tensionScale ≤ 16) &&
    decide (p.economyCeiling ≤ 1000) && decide (p.gain ≤ 127) &&
    decide (5 ≤ p.waitLimit) && decide (p.waitLimit ≤ 255) &&
    decide (-1000 ≤ p.fallback) && decide (p.fallback ≤ 1000)

/-- A mode profile as read. -/
def Profile.bytes (p : Profile) : List Byte :=
  bytes2 p.aheadCeiling ++ bytes2 p.asternCeiling ++
    [BitVec.ofNat 8 p.stepSize, BitVec.ofNat 8 p.stepInterval, BitVec.ofNat 8 p.reversalDwell,
      BitVec.ofNat 8 p.guardPeriod] ++
    bytes2 p.towAlertCeiling ++ bytes2 p.towOverloadCeiling ++
    [BitVec.ofNat 8 p.towHold, BitVec.ofNat 8 p.tensionScale] ++ bytes2 p.economyCeiling ++
    [BitVec.ofNat 8 p.gain, BitVec.ofNat 8 p.waitLimit] ++ bytes2i p.fallback

/-- An engine entry as held, where every field is in range (2.1, R17). -/
def EngineRaw.entry? (r : EngineRaw) : Option EngineEntry :=
  match readIndex 32 r.governor, readIndex 8 r.serviceTank, readIndex 16 r.supplyMeter,
      readIndex 16 r.returnMeter with
  | some governor, some tank, some supply, some returns =>
    if (r.boat = 1 ∨ r.boat = 2) ∧ r.side.toNat ≤ 2 ∧ 50 ≤ r.rating.toNat ∧ r.rating.toNat ≤ 6000 ∧
        r.weight.toNat ≤ 15 ∧ r.idleBand.toNat ≤ 100 ∧ r.alertCeiling.toNat ≤ 1000 ∧
        r.alarmCeiling.toNat ≤ 1000 then
      some {
        governor := governor
        boat := if r.boat = 1 then .b1 else .b2
        side := if r.side = 0 then .port else if r.side = 1 then .centre else .stbd
        rating := r.rating.toNat
        weight := r.weight.toNat
        serviceTank := tank
        supplyMeter := supply
        returnMeter := returns
        idleBand := r.idleBand.toNat
        alertCeiling := r.alertCeiling.toNat
        alarmCeiling := r.alarmCeiling.toNat }
    else none
  | _, _, _, _ => none

/-- Structure fields of an engine entry as carried: keys a to i. -/
def EngineEntry.structureBytes (e : EngineEntry) : List Byte :=
  [indexByte e.governor, boatByte e.boat, e.side.byte] ++ bytes2 e.rating ++
    [BitVec.ofNat 8 e.weight, indexByte e.serviceTank, indexByte e.supplyMeter, indexByte e.returnMeter,
      BitVec.ofNat 8 e.idleBand]

/-- An engine entry as read. -/
def EngineEntry.bytes (e : EngineEntry) : List Byte :=
  e.structureBytes ++ bytes2 e.alertCeiling ++ bytes2 e.alarmCeiling

/-- A write changes a structure field of an engine entry (R17). -/
def EngineRaw.changesStructure (r : EngineRaw) (e : EngineEntry) : Bool :=
  r.bytes.take 10 ≠ e.structureBytes

/-- An actuator entry as held, where every field is in range (3.1, R49 checks 2 to 5). -/
def ActuatorRaw.entry? (r : ActuatorRaw) : Option ActuatorEntry :=
  match readIndex 32 r.node with
  | some node =>
    if r.kind.toNat ≤ 2 ∧ (r.boat = 1 ∨ r.boat = 2) ∧ (r.kind = 2 → r.boat = 1) ∧ 1 ≤ r.time.toNat ∧
        r.limit.toNat ≤ (if r.kind = 2 then 1000 else 450) ∧
        r.band.toNat ≤ (if r.kind = 2 then 1000 else 450) then
      some {
        node := node
        kind := if r.kind = 0 then .mainRudder else if r.kind = 1 then .flankingRudder else .bowUnit
        boat := if r.boat = 1 then .b1 else .b2
        gainAhead := r.gainAhead.toInt
        gainAstern := r.gainAstern.toInt
        limit := r.limit.toNat
        band := r.band.toNat
        time := r.time.toNat }
    else none
  | none => none

/-- An actuator entry as read. -/
def ActuatorEntry.bytes (e : ActuatorEntry) : List Byte :=
  [indexByte e.node, e.kind.byte, boatByte e.boat, BitVec.ofInt 8 e.gainAhead, BitVec.ofInt 8 e.gainAstern] ++
    bytes2 e.limit ++ bytes2 e.band ++ [BitVec.ofNat 8 e.time]

/-- A coupling entry as held, where every field is in range (4.1, R69 check 3). -/
def CouplingRaw.entry? (r : CouplingRaw) : Option CouplingEntry :=
  match readIndex 32 r.sensor, readIndex 32 r.winch with
  | some sensor, some winch =>
    if r.kind.toNat ≤ 1 ∧ r.bearsOn.toNat ≤ 2 ∧ (r.kind = 1 → r.bearsOn = 2) ∧ r.channel.toNat ≤ 3 ∧
        1 ≤ r.debounce.toNat ∧ r.debounce.toNat ≤ 8 then
      some {
        kind := if r.kind = 0 then .push else .barge
        bearsOn := if r.bearsOn = 0 then .boat1 else if r.bearsOn = 1 then .boat2 else .all
        sensor := sensor
        channel := r.channel.toNat
        winch := winch
        slack := r.slack.toNat
        alert := r.alert.toNat
        overload := r.overload.toNat
        hysteresis := r.hysteresis.toNat
        debounce := r.debounce.toNat
        heave := r.heave.toNat }
    else none
  | _, _ => none

/-- Structure fields of a coupling entry as carried: keys a to e. -/
def CouplingEntry.structureBytes (e : CouplingEntry) : List Byte :=
  [e.kind.byte, e.bearsOn.byte, indexByte e.sensor, BitVec.ofNat 8 e.channel, indexByte e.winch]

/-- A coupling entry as read; the fill byte is 0 (10.2). -/
def CouplingEntry.bytes (e : CouplingEntry) : List Byte :=
  e.structureBytes ++ bytes2 e.slack ++ bytes2 e.alert ++ bytes2 e.overload ++ bytes2 e.hysteresis ++
    [BitVec.ofNat 8 e.debounce] ++ bytes2 e.heave ++ [0]

/-- A write changes a structure field of a coupling entry (R69). -/
def CouplingRaw.changesStructure (r : CouplingRaw) (e : CouplingEntry) : Bool :=
  r.bytes.take 5 ≠ e.structureBytes

/-- A tank entry as held, where every field is in range (5.3, R109 check 3). -/
def TankRaw.entry? (r : TankRaw) : Option TankEntry :=
  match readIndex 32 r.gauge with
  | some gauge =>
    if r.capacity.toNat ≤ 2000000000 ∧ r.lowMark.toNat ≤ 2000000000 ∧ r.tolerance.toNat ≤ 2000000000 ∧
        r.role.toNat ≤ 1 ∧ r.channel.toNat ≤ 3 ∧ r.lowCeiling.toNat ≤ 1000 then
      some {
        capacity := r.capacity.toNat
        role := if r.role = 0 then .service else .storage
        gauge := gauge
        channel := r.channel.toNat
        lowMark := r.lowMark.toNat
        lowCeiling := r.lowCeiling.toNat
        tolerance := r.tolerance.toNat }
    else none
  | none => none

/-- Structure fields of a tank entry as carried: keys a to d. -/
def TankEntry.structureBytes (e : TankEntry) : List Byte :=
  bytes4 e.capacity ++ [e.role.byte, indexByte e.gauge, BitVec.ofNat 8 e.channel]

/-- A tank entry as read. -/
def TankEntry.bytes (e : TankEntry) : List Byte :=
  e.structureBytes ++ bytes4 e.lowMark ++ bytes2 e.lowCeiling ++ bytes4 e.tolerance

/-- A write changes a structure field of a tank entry (R109). -/
def TankRaw.changesStructure (r : TankRaw) (e : TankEntry) : Bool :=
  r.bytes.take 7 ≠ e.structureBytes

/-- A meter entry as held, where every field is in range (5.1, R98 checks 2 to 4). -/
def MeterRaw.entry? (r : MeterRaw) : Option MeterEntry :=
  match readIndex 32 r.node with
  | some node =>
    if r.channel.toNat ≤ 1 ∧ r.role.toNat ≤ 3 ∧
        (r.role.toNat ≤ 1 → r.firstObject.toNat ≤ 5) ∧
        (r.role = 2 → r.firstObject.toNat ≤ 7 ∧ r.toTank.toNat ≤ 7 ∧ r.firstObject ≠ r.toTank) ∧
        (r.role = 3 → r.toTank.toNat ≤ 7) ∧ 1 ≤ r.maxRate.toNat then
      some {
        node := node
        channel := r.channel.toNat
        role := if r.role = 0 then .supply else if r.role = 1 then .returns
          else if r.role = 2 then .transfer else .bunker
        firstObject := r.firstObject.toNat
        toTank := r.toTank.toNat
        maxRate := r.maxRate.toNat
        margin := r.margin.toNat }
    else none
  | none => none

/-- A meter entry as read. -/
def MeterEntry.bytes (e : MeterEntry) : List Byte :=
  [indexByte e.node, BitVec.ofNat 8 e.channel, e.role.byte, BitVec.ofNat 8 e.firstObject,
    BitVec.ofNat 8 e.toTank] ++ bytes2 e.maxRate ++ bytes2 e.margin

end Sys2Proof.Machine
end

