-- ==== Sys2Proof/Machine/Transactions.lean ====
section
/-! DEFINITION. Machine/Transactions.lean: the order transaction unit (6.3): placement, supersede, the requests
of the coupling supervisor, and the end of a slot. -/

namespace Sys2Proof.Machine

/-- The outcome of a placement (R136): taken, not placed (target FAILED or UNUSED), or refused as busy. -/
inductive Placement where
  | taken | unplaced | busy
deriving DecidableEq, Repr

/-- A slot that counts as waiting: HELD, WAITING or QUEUED (6.3). -/
def Slot.isWaiting (x : Slot) : Bool :=
  x.state = .held ∨ x.state = .waiting ∨ x.state = .queued

/-- A slot in flight: SENDING or AWAITING (6.3). -/
def Slot.inFlight (x : Slot) : Bool :=
  x.state = .sending ∨ x.state = .awaiting

/-- Key g of a slot: SETPOINT, ANGLE and BOW orders are supersedable, WINCH orders are not (6.3). -/
def OrderKind.supersedable : OrderKind → Bool
  | .winch => false
  | _ => true

/-- The waiting slot of a node; there is at most one (R135). -/
def State.waitingSlot (s : State) (t : Fin 32) : Option (Fin 16) :=
  findTable s.trans.slots fun x => x.isWaiting && decide (x.target = t)

/-- The slot of a node in flight; there is at most one (R135). -/
def State.flightSlot (s : State) (t : Fin 32) : Option (Fin 16) :=
  findTable s.trans.slots fun x => x.inFlight && decide (x.target = t)

/-- The FREE slot a placement takes: the one of lowest index (DESIGN CHOICE, log entry 6). -/
def State.freeSlot (s : State) : Option (Fin 16) :=
  findTable s.trans.slots fun x => decide (x.state = .free)

/-- A slot changed by `f`. -/
def State.modSlot (s : State) (i : Fin 16) (f : Slot → Slot) : State :=
  { s with trans := { s.trans with slots := modTable s.trans.slots i f } }

/-- A roster entry changed by `f`. -/
def State.modNode (s : State) (i : Fin 32) (f : Node → Node) : State :=
  { s with nodes := modTable s.nodes i f }

/-- The order lane of a port, head first. -/
def Transactions.lane (x : Transactions) : PlantPort → List (Fin 16)
  | .M => x.laneM
  | .T => x.laneT

/-- A slot joins the order lane of a port at its tail (R139). -/
def State.joinLane (s : State) (p : PlantPort) (i : Fin 16) : State :=
  match p with
  | .M => { s with trans := { s.trans with laneM := s.trans.laneM ++ [i] } }
  | .T => { s with trans := { s.trans with laneT := s.trans.laneT ++ [i] } }

/-- A slot taken out of its order lane; the others keep their order (R138). -/
def State.leaveLane (s : State) (i : Fin 16) : State :=
  { s with trans :=
    { s.trans with laneM := s.trans.laneM.filter (· ≠ i), laneT := s.trans.laneT.filter (· ≠ i) } }

/-- A slot becomes QUEUED at the tail of the order lane of its target's port (R139). -/
def State.queueSlot (s : State) (i : Fin 16) : State :=
  (s.modSlot i fun x => { x with state := .queued }).joinLane
    s.nodes[s.trans.slots[i].target].entry.port i

/-- A slot becomes FREE, its ack timer stopped and its place in the lane given up. -/
def State.endSlot (s : State) (i : Fin 16) : State :=
  (s.modSlot i fun x => { x with state := .free, ackAt := none }).leaveLane i

/-- The next TAG of a node is used up: it increases by 1 modulo 16 (R136). -/
def State.useTag (s : State) (t : Fin 32) : State :=
  s.modNode t fun n => { n with nextTag := n.nextTag + 1 }

/-- A supersede (R137): the waiting slot takes the new value, owner and TAG and keeps its state and place. -/
def State.supersede (s : State) (i : Fin 16) (t : Fin 32) (value : OrderValue) (owner : Owner) : State :=
  (s.modSlot i fun x =>
    { x with value := value, owner := some owner, tag := s.nodes[t].nextTag }).useTag t

/-- A FREE slot takes an order with the next TAG of its target (R136 case 5). -/
def State.fillSlot (s : State) (i : Fin 16) (t : Fin 32) (kind : OrderKind) (value : OrderValue)
    (owner : Owner) (condition : Option BoatSet) : State :=
  let s1 := (s.modSlot i fun _ =>
    { target := t, kind := kind, value := value, tag := s.nodes[t].nextTag, owner := some owner,
      condition := condition, ackAt := none,
      state := if condition.isSome then .held else .waiting }).useTag t
  if condition.isSome ∨ (s.flightSlot t).isSome then s1 else s1.queueSlot i

/-- A placement, decided by the first case of R136 that applies. -/
def State.place (s : State) (t : Fin 32) (kind : OrderKind) (value : OrderValue) (owner : Owner)
    (condition : Option BoatSet) : State × Placement :=
  if s.nodes[t].state = .failed ∨ s.nodes[t].state = .unused then (s, .unplaced)
  else
    match s.waitingSlot t with
    | some i =>
      if s.trans.slots[i].kind = kind ∧ kind.supersedable then
        (s.supersede i t value owner, .taken)
      else (s, .busy)
    | none =>
      match s.freeSlot with
      | some i => (s.fillSlot i t kind value owner condition, .taken)
      | none => (s, .busy)

/-- The request `release` of the coupling supervisor (R138). -/
def State.releaseSlot (s : State) (i : Fin 16) : State :=
  if s.trans.slots[i].state = .held then
    if (s.flightSlot s.trans.slots[i].target).isSome then
      s.modSlot i fun x => { x with state := .waiting }
    else s.queueSlot i
  else s

/-- The request `hold` (R138). -/
def State.holdSlot (s : State) (i : Fin 16) : State :=
  if s.trans.slots[i].state = .waiting ∨ s.trans.slots[i].state = .queued then
    (s.modSlot i fun x => { x with state := .held }).leaveLane i
  else s

/-- The request `withdraw` (R138). -/
def State.withdrawSlot (s : State) (i : Fin 16) : State :=
  if s.trans.slots[i].isWaiting then s.endSlot i else s

/-- The WAITING slot of a node becomes QUEUED when its order in flight has ended (R140, R142). -/
def State.wakeSlot (s : State) (t : Fin 32) : State :=
  match s.waitingSlot t with
  | some i => if s.trans.slots[i].state = .waiting then s.queueSlot i else s
  | none => s

/-- The waiting slot that carries the WINCH RELEASE order of a coupling (4.4), if it has not been sent. -/
def State.releaseSlotOf (s : State) (c : Fin 48) : Option (Fin 16) :=
  findTable s.trans.slots fun x =>
    x.isWaiting && decide (x.owner = some (.tow c)) && decide (x.value = .release)

end Sys2Proof.Machine
end

