-- ==== Sys2Proof/Machine/Mapping.lean ====
section
/-! DEFINITION. Machine/Mapping.lean: what a recompute of propulsion hands on: the mapping of the rudder and bow
demands onto the actuators (3.3, 3.4), and the return of a release slot to HELD when a boat-at-zero condition
ends (R85). -/

namespace Sys2Proof.Machine

/-! ### Mapping the demand onto each actuator -/

/-- An actuator changed by `f`. -/
def State.modActuator (s : State) (i : Fin 5) (f : Actuator → Actuator) : State :=
  { s with steer := { s.steer with actuators := modTable s.steer.actuators i f } }

/-- The boat whose wash direction an actuator answers: a bow unit follows boat 1 (R54, R55). -/
def ActuatorEntry.washBoat (e : ActuatorEntry) : Boat :=
  if e.kind = .bowUnit then .b1 else e.boat

/-- δ × gain / 64, truncated toward zero and clamped to the limit (R53). -/
def mapRudder (rudder gain : Int) (limit : Nat) : Int :=
  clamp (-limit) limit ((rudder * gain).tdiv 64)

/-- The gain that a wash direction selects (R53). -/
def ActuatorEntry.gain (e : ActuatorEntry) : Wash → Int
  | .ahead => e.gainAhead
  | .astern => e.gainAstern

/-- The ordered value of an entry under a wash direction (R53, R54). -/
def Steering.orderedFor (x : Steering) (wash : Wash) (e : ActuatorEntry) : Int :=
  if e.kind = .bowUnit ∧ x.bowMode = .explicit then clamp (-e.limit) e.limit x.bowDemand
  else mapRudder x.rudder (e.gain wash) e.limit

/-- The ordered value of an entry from the demands and the wash direction in force. -/
def State.orderedFor (s : State) (e : ActuatorEntry) : Int :=
  s.steer.orderedFor (s.prop.wash.get e.washBoat) e

/-- The order kind of an actuator: BOW for a bow unit, ANGLE otherwise (R57). -/
def ActuatorKind.order : ActuatorKind → OrderKind
  | .bowUnit => .bow
  | _ => .angle

/-- The ordered value of an actuator placed with the transaction unit (R57). -/
def State.placeOrdered (s : State) (i : Fin 5) : State :=
  match s.steer.actuators[i].entry.node with
  | some n =>
    (s.place n s.steer.actuators[i].entry.kind.order (.amount s.steer.actuators[i].ordered)
      (.steering i) none).1
  | none => s

/-- An actuator's ordered value formed again, and placed if it changed (R52, R55). -/
def State.remapActuator (s : State) (i : Fin 5) : State :=
  let a := s.steer.actuators[i]
  if a.state = .absent ∨ s.orderedFor a.entry = a.ordered then s
  else (s.modActuator i fun x => { x with ordered := s.orderedFor a.entry }).placeOrdered i

/-- The remapping that a change of a boat's wash direction brings (R55), by rising actuator index (DESIGN CHOICE,
log entry 21). -/
def State.remapBoat (s : State) (b : Boat) : State :=
  (List.finRange 5).foldl
    (fun s i => if s.steer.actuators[i].entry.washBoat = b then s.remapActuator i else s) s

/-- The remapping that a STEER taken brings (R52). R52 gives the orders of several actuators no order among them:
they are placed by rising actuator index (DESIGN CHOICE, log entry 21). -/
def State.remapAll (s : State) : State :=
  (List.finRange 5).foldl State.remapActuator s

/-! ### The release slot and the boat-at-zero condition -/

/-- A coupling changed by `f`. -/
def State.modCoupling (s : State) (c : Fin 48) (f : Coupling → Coupling) : State :=
  { s with tow := { s.tow with couplings := modTable s.tow.couplings c f } }

/-- The boat-at-zero condition of a set (R46). -/
def Propulsion.zeroOf (x : Propulsion) : BoatSet → Bool
  | .boat1 => x.zero.b1
  | .boat2 => x.zero.b2
  | .all => x.zeroAll

/-- A boat-at-zero condition has become FALSE: a release in ORDERED that waits on it and whose slot has not
been sent goes back to WAIT_ZERO, its slot to HELD (R85). -/
def State.holdRelease (s : State) (set : BoatSet) : State :=
  match s.tow.work with
  | some c =>
    if s.tow.couplings[c].state = .releasing ∧ s.tow.couplings[c].phase = some .ordered ∧
        s.tow.couplings[c].entry.bearsOn = set then
      match s.releaseSlotOf c with
      | some i => (s.holdSlot i).modCoupling c fun x => { x with phase := some .waitZero }
      | none => s
    else s
  | none => s

end Sys2Proof.Machine
end

