-- ==== Sys2Proof/Machine/Propulsion.lean ====
section
/-! DEFINITION. Machine/Propulsion.lean: the propulsion coordinator (chapter 2): ceilings, sharing, slewing and
the reversal dwell, wash directions, boat-at-zero conditions, engine state and status. -/

namespace Sys2Proof.Machine

/-- An engine changed by `f`. -/
def State.modEngine (s : State) (i : Fin 6) (f : Engine → Engine) : State :=
  { s with prop := { s.prop with engines := modTable s.prop.engines i f } }

/-- The sum of a figure over the engines. -/
def sumEngines (t : Table Engine 6) (f : Engine → Int) : Int :=
  (t.toArray.toList.map f).sum

/-! ### Ceilings (2.3) -/

/-- The health component (R24). -/
def Engine.healthCap (e : Engine) : Nat :=
  match e.health with
  | .sound => 1000
  | .alert => e.entry.alertCeiling
  | .alarm => e.entry.alarmCeiling

/-- The tank-low component: the low ceiling of a LOW service tank (R25). -/
def State.tankLowCap (s : State) (e : EngineEntry) : Nat :=
  match e.serviceTank with
  | some t => if s.fuel.tanks[t].low then s.fuel.tanks[t].entry.lowCeiling else 1000
  | none => 1000

/-- The economy component (R25). -/
def State.economyCap (s : State) : Nat :=
  if s.fuel.leg.reserve then s.profile.economyCeiling else 1000

/-- The composite ceilings of an engine, the lowest of its components (R25). -/
def Engine.composed (e : Engine) : Engine :=
  { e with
    compositeAhead :=
      min e.modeAhead (min e.healthCeiling (min e.towCeiling (min e.economyCeiling e.tankLowCeiling)))
    compositeAstern := min e.modeAstern (min e.healthCeiling (min e.towCeiling e.tankLowCeiling)) }

/-- An engine with every ceiling component formed again (R26). -/
def State.formComponents (s : State) (e : Engine) : Engine :=
  { e with
    modeAhead := s.profile.aheadCeiling
    modeAstern := s.profile.asternCeiling
    healthCeiling := e.healthCap
    towCeiling := s.tow.applied.get e.entry.boat
    economyCeiling := s.economyCap
    tankLowCeiling := s.tankLowCap e.entry }

/-- An engine with every ceiling component and both composite ceilings formed again (R18, R25, R26). -/
def State.formEngine (s : State) (e : Engine) : Engine :=
  (s.formComponents e).composed

/-- An engine with its components formed again (R26), and its composite ceilings too unless it is ABSENT (R25). -/
def State.reformEngine (s : State) (e : Engine) : Engine :=
  if e.state = .absent then s.formComponents e else s.formEngine e

/-- The ceilings of every engine formed again (R25, R26). -/
def State.formEngines (s : State) : State :=
  { s with prop := { s.prop with engines := mapTable s.reformEngine s.prop.engines } }

/-! ### The differential (R28) -/

/-- The automatic differential: δ × k / 64, clamped. -/
def State.autoDiff (s : State) : Int :=
  clamp (-300) 300 ((s.steer.rudder * s.profile.gain).tdiv 64)

/-- The differential in force. -/
def State.diffInForce (s : State) : Int :=
  if s.prop.diffMode = .fixed ∧ ¬ s.steer.forced then s.prop.fixedDiff else s.autoDiff

/-- The sign with which the differential applies to an engine (2.1 key c). -/
def Side.sign : Side → Int
  | .port => 1
  | .centre => 0
  | .stbd => -1

/-! ### Sharing (2.5) -/

/-- Nominal convoy power N (R30). -/
def nominalPower (t : Table Engine 6) : Nat :=
  (sumEngines t fun e =>
    if e.state ≠ .absent ∧ 0 < e.entry.weight then (e.entry.rating : Int) else 0).toNat

/-- A value held within an engine's composite range (R31). -/
def Engine.bound (e : Engine) (q : Int) : Int :=
  clamp (-e.compositeAstern) e.compositeAhead q

/-- Sum W of the weights of the available set, the RUNNING engines (R30). -/
def availableWeight (t : Table Engine 6) : Int :=
  sumEngines t fun e => if e.state = .running then e.entry.weight else 0

/-- kW as per-mille of an engine's rating. -/
def Engine.perMille (e : Engine) (kw : Int) : Int :=
  (kw * 1000).tdiv e.entry.rating

/-- Per-mille of an engine's rating as kW. -/
def Engine.kilowatt (e : Engine) (q : Int) : Int :=
  (q * e.entry.rating).tdiv 1000

/-- First-pass share q of an engine, before the clamp (R31 stage 4); 0 where W is 0 (R30). -/
def Engine.firstShare (e : Engine) (demand w : Int) : Int :=
  if w = 0 then 0 else e.perMille ((demand * e.entry.weight).tdiv w)

/-- An engine whose first-pass share the clamp changed (R31 stage 5). -/
def Engine.isClamped (e : Engine) (demand w : Int) : Bool :=
  decide (e.bound (e.firstShare demand w) ≠ e.firstShare demand w)

/-- Shortfall of an engine in kW (R31). -/
def Engine.shortfall (e : Engine) (demand w : Int) : Int :=
  e.kilowatt (e.firstShare demand w - e.bound (e.firstShare demand w))

/-- Sum S_f of the shortfalls (R31). -/
def shortfallSum (t : Table Engine 6) (demand w : Int) : Int :=
  sumEngines t fun e =>
    if e.state = .running ∧ e.isClamped demand w then e.shortfall demand w else 0

/-- A receiving engine of the redistribution (R32). -/
def Engine.receives (e : Engine) (demand w : Int) : Bool :=
  decide (e.state = .running) && !e.isClamped demand w && decide (0 < e.entry.weight)

/-- Sum W' of the weights of the receiving engines (R32). -/
def receivingWeight (t : Table Engine 6) (demand w : Int) : Int :=
  sumEngines t fun e => if e.receives demand w then (e.entry.weight : Int) else 0

/-- Share of an engine after the redistribution and before the second clamp (R32). -/
def Engine.raisedShare (e : Engine) (demand w sf w' : Int) : Int :=
  let q := e.bound (e.firstShare demand w)
  if sf ≠ 0 ∧ e.receives demand w then q + e.perMille ((sf * e.entry.weight).tdiv w') else q

/-- Share of an engine after stage 6 (R32). -/
def Engine.finalShare (e : Engine) (demand w sf w' : Int) : Int :=
  e.bound (e.raisedShare demand w sf w')

/-- Unmet demand U of a recompute (R30, R32). -/
def unmetDemand (t : Table Engine 6) (demand : Int) : Nat :=
  let w := availableWeight t
  let sf := shortfallSum t demand w
  let w' := receivingWeight t demand w
  if w = 0 then demand.natAbs
  else if sf = 0 then 0
  else if w' = 0 then sf.natAbs
  else
    (sumEngines t fun e =>
      if e.receives demand w then
        ((e.kilowatt (e.raisedShare demand w sf w' - e.finalShare demand w sf w')).natAbs : Int)
      else 0).toNat

/-- Target T of an engine: its share with the differential, within its composite range; 0 for an engine that
is not RUNNING (R33). -/
def Engine.targetFor (e : Engine) (t : Table Engine 6) (demand diff : Int) : Int :=
  let w := availableWeight t
  if e.state = .running then
    e.bound (e.finalShare demand w (shortfallSum t demand w) (receivingWeight t demand w) +
      e.entry.side.sign * diff)
  else 0

/-- The targets, D, U and the differential in force formed (R28, R30 to R33). -/
def State.share (s : State) : State :=
  let demand := (s.prop.power * s.prop.nominal).tdiv 1000
  let diff := s.diffInForce
  { s with prop := { s.prop with
    engines :=
      mapTable (fun e => { e with target := e.targetFor s.prop.engines demand diff }) s.prop.engines
    diff := diff
    demand := demand
    unmet := unmetDemand s.prop.engines demand } }

/-! ### Slewing and the reversal dwell (2.6) -/

/-- The step timer's next expiry, by the step interval of the mode in force. -/
def State.stepStart (s : State) : Timer :=
  s.after (ms (s.profile.stepInterval * 10))

/-- A target has the sign of a last sign. -/
def sameSign (target : Int) : LastSign → Bool
  | .unset => false
  | .ahead => decide (0 < target)
  | .astern => decide (target < 0)

/-- Cancellation of a dwell (R41): SLEWING with a full interval, the last sign kept. -/
def State.cancelDwell (s : State) (e : Engine) : Engine :=
  { e with slew := .slewing, stepAt := s.stepStart, dwellAt := none }

/-- Expiry of a dwell (R41). -/
def State.endDwell (s : State) (e : Engine) : Engine :=
  if e.target = 0 then { e with lastSign := .unset, slew := .steady, stepAt := none, dwellAt := none }
  else { e with lastSign := .unset, slew := .slewing, stepAt := s.stepStart, dwellAt := none }

/-- Start of a dwell (R40); a reversal dwell of 0 expires at once. -/
def State.startDwell (s : State) (e : Engine) : Engine :=
  if s.profile.reversalDwell = 0 then s.endDwell e
  else
    { e with
      slew := .dwelling, stepAt := none, dwellAt := s.after (ms (s.profile.reversalDwell * 100)) }

/-- The side a setpoint is on. -/
def signOf (x : Int) : LastSign :=
  if 0 < x then .ahead else .astern

/-- An engine whose setpoint becomes 0 from a non-zero value (R40). -/
def State.zeroEngine (s : State) (e : Engine) : Engine :=
  let e1 := { e with setpoint := 0, lastSign := signOf e.setpoint }
  if sameSign e1.target e1.lastSign then s.cancelDwell e1 else s.startDwell e1

/-- An issued setpoint moved to a value, through R40 where that value is 0 and the old one was not. -/
def State.moveTo (s : State) (e : Engine) (x : Int) : Engine :=
  if x = 0 ∧ e.setpoint ≠ 0 then s.zeroEngine e else { e with setpoint := x }

/-- The SETPOINT order for an engine's governor, carrying its issued setpoint (R43). -/
def State.placeSetpoint (s : State) (i : Fin 6) : State :=
  match s.prop.engines[i].entry.governor with
  | some g =>
    (s.place g .setpoint (.amount s.prop.engines[i].setpoint) (.propulsion i) none).1
  | none => s

/-- The value to which R35 brings an issued setpoint. -/
def Engine.cutValue (e : Engine) : Int :=
  if 0 < e.setpoint ∧ (e.compositeAhead : Int) < e.setpoint then e.compositeAhead
  else if e.setpoint < 0 ∧ e.setpoint < -(e.compositeAstern : Int) then -e.compositeAstern
  else e.setpoint

/-- The cut of one engine (R35). -/
def State.cutEngine (s : State) (i : Fin 6) : State :=
  let e := s.prop.engines[i]
  if e.cutValue = e.setpoint then s
  else (s.modEngine i fun x => s.moveTo x x.cutValue).placeSetpoint i

/-- The needed direction of an engine: UP 1, DOWN −1, NONE 0 (R36). -/
def Engine.direction (e : Engine) : Int :=
  (e.target - e.setpoint).sign

/-- An engine's slewing brought up to date at a recompute; `old` is the engine before it (R36, R41). -/
def State.slewEngine (s : State) (old e : Engine) : Engine :=
  if e.slew = .dwelling then
    if sameSign e.target e.lastSign then s.cancelDwell e else e
  else if e.slew = .slewing ∧ e.setpoint = 0 ∧ e.lastSign ≠ .unset ∧ ¬ sameSign e.target e.lastSign then
    s.startDwell e
  else if e.target = e.setpoint then { e with slew := .steady, stepAt := none }
  else if e.slew = .steady then { e with slew := .slewing, stepAt := s.stepStart }
  else if e.direction = old.direction then e
  else { e with stepAt := s.stepStart }

/-! ### Wash direction and boat at zero (2.8) -/

/-- The wash direction of a boat by R45. -/
def washOf (t : Table Engine 6) (b : Boat) : Wash :=
  if 0 ≤ sumEngines t fun e => if e.state = .running ∧ e.entry.boat = b then e.setpoint else 0 then
    .ahead
  else .astern

/-- A boat's wash direction re-evaluated; a change is handed to steering (R45). -/
def State.reviewBoatWash (s : State) (b : Boat) : State :=
  if washOf s.prop.engines b = s.prop.wash.get b then s
  else
    { s with prop := { s.prop with wash := s.prop.wash.set b (washOf s.prop.engines b) } }.remapBoat b

/-- Both wash directions re-evaluated (R45), boat 1 before boat 2 (DESIGN CHOICE, log entry 21). -/
def State.reviewWash (s : State) : State :=
  (s.reviewBoatWash .b1).reviewBoatWash .b2

/-- An engine that stands against its boat being at zero (R46). -/
def Engine.pulls (e : Engine) : Bool :=
  decide (e.state = .running) && !(decide (e.setpoint = 0) && decide (e.load.natAbs ≤ e.entry.idleBand))

/-- A set of boats holds a boat. -/
def BoatSet.has : BoatSet → Boat → Bool
  | .boat1, .b1 => true
  | .boat2, .b2 => true
  | .all, _ => true
  | _, _ => false

/-- The boat-at-zero condition of a set by R46. -/
def atZero (t : Table Engine 6) (set : BoatSet) : Bool :=
  t.toArray.toList.all fun e => !(set.has e.entry.boat && e.pulls)

/-- The boat-at-zero condition of a set re-evaluated; a change to FALSE is acted on at once, a change to
TRUE makes SLOT_RELEASE ready (R46, R85; log entry 2). -/
def State.reviewZeroOf (s : State) (set : BoatSet) : State :=
  let z := atZero s.prop.engines set
  if z = s.prop.zeroOf set then s
  else
    let s1 := { s with prop :=
      match set with
      | .boat1 => { s.prop with zero := { s.prop.zero with b1 := z } }
      | .boat2 => { s.prop with zero := { s.prop.zero with b2 := z } }
      | .all => { s.prop with zeroAll := z } }
    if z then s1 else s1.holdRelease set

/-- The three boat-at-zero conditions re-evaluated (R46), in the order BOAT1, BOAT2, ALL (DESIGN CHOICE, log
entry 21). -/
def State.reviewZero (s : State) : State :=
  ((s.reviewZeroOf .boat1).reviewZeroOf .boat2).reviewZeroOf .all

/-! ### The recompute (R29) -/

/-- UNMET_DEMAND latched where the recompute gives U above 0 (R34). -/
def State.noteUnmet (s : State) : State :=
  if 0 < s.prop.unmet then s.latch .unmetDemand 0 else s

/-- The cuts of R35 over every engine, by rising engine index (DESIGN CHOICE, log entry 21). -/
def State.cutEngines (s : State) : State :=
  (List.finRange 6).foldl State.cutEngine s

/-- Every engine's slewing brought up to date; `old` holds the engines before the recompute. -/
def State.slewEngines (s : State) (old : Table Engine 6) : State :=
  { s with prop := { s.prop with
    engines := ofTable fun i => s.slewEngine old[i] s.prop.engines[i] } }

/-- One recompute (R29). -/
def State.recompute (s : State) : State :=
  (((s.formEngines.share.noteUnmet).cutEngines).slewEngines s.prop.engines).reviewWash.reviewZero

/-- N formed again, as at each taken engine write (R30). -/
def State.formNominal (s : State) : State :=
  { s with prop := { s.prop with nominal := nominalPower s.prop.engines } }

/-! ### Engine state (2.2) -/

/-- An engine that leaves RUNNING, its state already changed (R22). -/
def State.leaveRunning (s : State) (i : Fin 6) : State :=
  (s.modEngine i fun e =>
    let e1 := { e with target := 0, stepAt := none }
    if e1.setpoint = 0 then e1 else s.zeroEngine e1).placeSetpoint i

/-- An engine moved to a state, through R22 where it leaves RUNNING; then a recompute (R21, R29). -/
def State.moveEngine (s : State) (i : Fin 6) (x : EngineState) : State :=
  let s1 := s.modEngine i fun e => { e with state := x }
  (if s.prop.engines[i].state = .running ∧ x ≠ .running then s1.leaveRunning i else s1).recompute

/-- The engine whose governor is a roster entry. -/
def State.engineOf (s : State) (n : Fin 32) : Option (Fin 6) :=
  findTable s.prop.engines fun e => decide (e.entry.governor = some n)

/-- The engine of a governor follows a change of its roster state (R19). -/
def State.engineFollows (s : State) (n : Fin 32) : State :=
  match s.engineOf n with
  | some i =>
    if s.nodes[n].state = .enrolled then
      if s.prop.engines[i].state = .lost then s.moveEngine i .standby else s
    else if s.prop.engines[i].state = .lost ∨ s.prop.engines[i].state = .absent then s
    else (s.latch .engineLost (subjectOf i)).moveEngine i .lost
  | none => s

/-- The health level of an alarm level (R20). -/
def healthOf : AlarmLevel → Health
  | .noAlarm => .sound
  | .alert => .alert
  | .alarm => .alarm
  | .trip => .alarm

/-- The engine state after a report (R21). -/
def EngineState.reported (x : EngineState) (run : RunState) (alarmLevel : AlarmLevel) : EngineState :=
  match x with
  | .absent => .absent
  | .lost => .lost
  | .tripped =>
    if alarmLevel = .trip then .tripped else if run = .stopped then .standby else .tripped
  | _ =>
    if alarmLevel = .trip then .tripped else if run = .stopped then .standby else .running

/-- Engine status read from a governor (R20, R21). -/
def State.engineReport (s : State) (n : Fin 32) (run : RunState) (load : Half)
    (alarmLevel : AlarmLevel) : State :=
  match s.engineOf n with
  | some i =>
    let e := s.prop.engines[i]
    let x := e.state.reported run alarmLevel
    let s1 := s.modEngine i fun e => { e with load := load.toInt, health := healthOf alarmLevel }
    let s2 := if x = .tripped ∧ e.state ≠ .tripped then s1.latch .engineTrip (subjectOf i) else s1
    (if x ≠ e.state then s2.moveEngine i x
      else if healthOf alarmLevel ≠ e.health then s2.recompute
      else s2).reviewZero
  | none => s

/-! ### The crash stop and the timers -/

/-- The crash stop of one engine (R39). -/
def State.crashEngine (s : State) (i : Fin 6) : State :=
  if s.prop.engines[i].setpoint = 0 then s
  else (s.modEngine i s.zeroEngine).placeSetpoint i

/-- The crash stop (R39). R39 gives the SETPOINT orders of several engines no order among them: they are placed by
rising engine index (DESIGN CHOICE, log entry 21). -/
def State.crashStop (s : State) : State :=
  (List.finRange 6).foldl State.crashEngine s

/-- The setpoint one step on (R37). -/
def stepped (setpoint target step : Int) : Int :=
  if 0 < setpoint ∧ target < 0 then (if setpoint ≤ step then 0 else setpoint - step)
  else if setpoint < 0 ∧ 0 < target then (if -setpoint ≤ step then 0 else setpoint + step)
  else if target - setpoint ≤ step ∧ setpoint - target ≤ step then target
  else if setpoint < target then setpoint + step
  else setpoint - step

/-- An engine after one step (R37). -/
def State.stepEngine (s : State) (e : Engine) : Engine :=
  let x := stepped e.setpoint e.target s.profile.stepSize
  if x = 0 ∧ e.setpoint ≠ 0 then s.zeroEngine e
  else
    let e1 := { e with
      setpoint := x, lastSign := if e.setpoint = 0 ∧ x ≠ 0 then .unset else e.lastSign }
    if x = e.target then { e1 with slew := .steady, stepAt := none }
    else { e1 with slew := .slewing, stepAt := s.stepStart }

/-- A step expiry (R37, R43, R45, R46). R29 orders the placings of a recompute and no rule those of a step: the SETPOINT
is placed before the wash directions are reviewed, so before the ANGLE and BOW orders that a change of one brings
(DESIGN CHOICE, log entry 21). -/
def State.takeStep (s : State) (i : Fin 6) : State :=
  ((s.modEngine i s.stepEngine).placeSetpoint i).reviewWash.reviewZero

end Sys2Proof.Machine
end

