-- ==== Sys2Proof/Machine/Tow.lean ====
section
/-! DEFINITION. Machine/Tow.lean: the coupling supervisor (chapter 4): tow ceilings, the coupling states under
tension, and coupling work. -/

namespace Sys2Proof.Machine

/-! ### Tow ceilings (4.3) -/

/-- The contribution of a coupling (R79); 1000 also stands for none, since the lowest is sought below 1000. -/
def Coupling.contribution (c : Coupling) (p : Profile) : Nat :=
  match c.state with
  | .alert => p.towAlertCeiling
  | .silent => p.towAlertCeiling
  | .makingUp => p.towAlertCeiling
  | .overload => p.towOverloadCeiling
  | .parted => 0
  | .releasing => 0
  | .slack => 1000
  | .madeUp => 1000
  | .released => 1000
  | .unused => 1000

/-- The computed tow ceiling of a boat (R79). -/
def computedCeiling (t : Table Coupling 48) (p : Profile) (b : Boat) : Nat :=
  t.toArray.toList.foldl
    (fun m c => if c.entry.bearsOn.has b then min m (c.contribution p) else m) 1000

/-- Computed ceilings of both boats formed. -/
def State.formCeilings (s : State) : State :=
  { s with tow := { s.tow with computed := {
      b1 := computedCeiling s.tow.couplings s.profile .b1
      b2 := computedCeiling s.tow.couplings s.profile .b2 } } }

/-- The computed ceiling of a boat compared with the applied one (R80): applied value and hold timer after. -/
def State.applyCeiling (s : State) (b : Boat) : State :=
  let computed := s.tow.computed.get b
  if computed ≤ s.tow.applied.get b then
    { s with tow := { s.tow with
      applied := s.tow.applied.set b computed, holdAt := s.tow.holdAt.set b none } }
  else if (s.tow.holdAt.get b).isSome then s
  else if s.profile.towHold = 0 then
    { s with tow := { s.tow with applied := s.tow.applied.set b computed } }
  else { s with tow := { s.tow with
    holdAt := s.tow.holdAt.set b (s.after (ms (s.profile.towHold * 1000))) } }

/-- The tow ceilings of both boats formed again, applied or held by R80, and handed to propulsion once, where an
applied value changed (R79 to R81; log entry 11). -/
def State.formTow (s : State) : State :=
  let s1 := (s.formCeilings.applyCeiling .b1).applyCeiling .b2
  if s1.tow.applied = s.tow.applied then s1 else s1.recompute

/-- Hold expiry of a boat (R80). -/
def State.holdEnds (s : State) (b : Boat) : State :=
  let s1 := { s with tow := { s.tow with
    applied := s.tow.applied.set b (s.tow.computed.get b), holdAt := s.tow.holdAt.set b none } }
  if s1.tow.applied = s.tow.applied then s1 else s1.recompute

/-! ### Coupling work (4.4, 4.5) -/

/-- The notice of a state (R78). -/
def CouplingState.notice : CouplingState → Option NoticeKind
  | .alert => some .couplingAlert
  | .overload => some .couplingOverload
  | .parted => some .couplingParted
  | .silent => some .couplingSilent
  | _ => none

/-- The notice of the state a coupling has entered, latched where it has one (R78). -/
def State.noteState (s : State) (c : Fin 48) : State :=
  match s.tow.couplings[c].state.notice with
  | some k => s.latch k (subjectOf c)
  | none => s

/-- A release slot that has not been sent is freed and taken out of its lane (R89). -/
def State.dropRelease (s : State) (c : Fin 48) : State :=
  match s.releaseSlotOf c with
  | some i => s.withdrawSlot i
  | none => s

/-- Coupling work ended: the coupling is in a new state, and its release slot is dealt with (R89). The rules of the ends
name no value of the count over alert, but for a make-up that gives MADE_UP (R94): it is kept, also where a release ends
as PARTED or RELEASED by a sample (DEDUCED, log entry 15). -/
def State.endWork (s : State) (c : Fin 48) (x : CouplingState) : State :=
  let s1 := (s.dropRelease c).modCoupling c fun k =>
    { k with state := x, phase := none, prior := none, waitAt := none }
  { s1 with tow := { s1.tow with work := none } }

/-- The state a release or make-up returns to (R88, R89, R94). -/
def Coupling.returnState (k : Coupling) : CouplingState :=
  let prior := k.prior.getD .slack
  match k.phase with
  | some .ordered => if k.last < k.entry.slack then .slack else prior
  | some .awaitSlack => if k.last < k.entry.slack then .slack else prior
  | _ => prior

/-- A release abandoned (R88, R89). -/
def State.abandonRelease (s : State) (c : Fin 48) : State :=
  (((s.endWork c s.tow.couplings[c].returnState).latch .releaseAbandoned (subjectOf c)).noteState
    c).formTow

/-- A make-up abandoned (R94). -/
def State.abandonMakeup (s : State) (c : Fin 48) : State :=
  (((s.endWork c s.tow.couplings[c].returnState).noteState c).latch .makeupAbandoned
    (subjectOf c)).formTow

/-- A release done (R87). -/
def State.releaseDone (s : State) (c : Fin 48) : State :=
  ((s.endWork c .released).latch .releaseDone (subjectOf c)).formTow

/-- Work ended by a parting (R90, R94). -/
def State.partWork (s : State) (c : Fin 48) : State :=
  ((s.endWork c .parted).latch .couplingParted (subjectOf c)).formTow

/-- The wait limit of the mode in force, captured at the start of coupling work (R84, R93). -/
def State.waitStart (s : State) : Timer :=
  s.after (ms (s.profile.waitLimit * 1000))

/-- The HELD slot of a release in WAIT_ZERO released, where its condition holds (R85). -/
def State.releaseReady (s : State) (c : Fin 48) : Bool :=
  decide (s.tow.couplings[c].state = .releasing) &&
    decide (s.tow.couplings[c].phase = some .waitZero) &&
    s.prop.zeroOf s.tow.couplings[c].entry.bearsOn && (s.releaseSlotOf c).isSome

/-- The release of the HELD slot, with phase ORDERED (R85). -/
def State.orderRelease (s : State) (c : Fin 48) : State :=
  match s.releaseSlotOf c with
  | some i =>
    if s.releaseReady c then
      (s.releaseSlot i).modCoupling c fun k => { k with phase := some .ordered }
    else s
  | none => s

/-- The ECHO or the ack timeout of a WINCH RELEASE order: ORDERED becomes AWAIT_SLACK, unless the release
in progress still has its own slot unsent (R86; log entry 15). -/
def State.winchEnded (s : State) (c : Fin 48) : State :=
  if s.tow.couplings[c].state = .releasing ∧ s.tow.couplings[c].phase = some .ordered ∧
      s.releaseSlotOf c = none then
    s.modCoupling c fun k => { k with phase := some .awaitSlack }
  else s

/-- The end of a slot handed to its owner: only the end of a release slot changes anything (R86, R94). -/
def State.orderEnded (s : State) (x : Slot) : State :=
  match x.owner with
  | some (.tow c) => if x.value = .release then s.winchEnded c else s
  | _ => s

/-- A waiting slot freed by the failure of its node (R89). -/
def State.slotLost (s : State) (x : Slot) : State :=
  match x.owner with
  | some (.tow c) =>
    if x.value = .release ∧ s.tow.couplings[c].state = .releasing ∧
        s.tow.couplings[c].phase ≠ some .awaitSlack then
      s.abandonRelease c
    else s
  | _ => s

/-! ### Tension (4.2) -/

/-- A mark scaled by the tension scale, in sixteenths. -/
def scaledMark (mark scale : Nat) : Nat :=
  mark * scale / 16

/-- What a sample below the slack mark gives in MADE_UP, ALERT and OVERLOAD (R74). -/
def endLoad (alert previous : Nat) : CouplingState :=
  if alert ≤ previous then .parted else .slack

/-- State, count over alert, after one sample (R72 to R74). -/
def Coupling.judge (k : Coupling) (x : CouplingState) (alert overload t : Nat) : CouplingState × Nat :=
  match x with
  | .slack => if k.entry.slack ≤ t then (.madeUp, 0) else (.slack, k.count)
  | .silent => if k.entry.slack ≤ t then (.madeUp, 0) else (.slack, k.count)
  | .madeUp =>
    if t < k.entry.slack then (endLoad alert k.last, 0)
    else if alert ≤ t then
      if k.entry.debounce ≤ k.count + 1 then (.alert, 0) else (.madeUp, k.count + 1)
    else (.madeUp, 0)
  | .alert =>
    if t < k.entry.slack then (endLoad alert k.last, 0)
    else if overload ≤ t then (.overload, k.count)
    else if (t : Int) < alert - k.entry.hysteresis then (.madeUp, 0)
    else (.alert, k.count)
  | .overload =>
    if t < k.entry.slack then (endLoad alert k.last, 0)
    else if (t : Int) < overload - k.entry.hysteresis then (.alert, k.count)
    else (.overload, k.count)
  | _ => (x, k.count)

/-- A coupling moved from one state to another by a sample: the notice of R78 and the forming of R79. A
return from OVERLOAD to ALERT latches nothing. -/
def State.moveCoupling (s : State) (c : Fin 48) (x : CouplingState) (count : Nat) : State :=
  let old := s.tow.couplings[c].state
  let s1 := s.modCoupling c fun k => { k with state := x, count := count }
  if x = old then s1
  else (if old = .overload ∧ x = .alert then s1 else s1.noteState c).formTow

/-- One sample evaluated against the state (R72 to R75). -/
def State.evaluateSample (s : State) (c : Fin 48) (t : Nat) : State :=
  let k := s.tow.couplings[c]
  let alert := scaledMark k.entry.alert s.profile.tensionScale
  let overload := scaledMark k.entry.overload s.profile.tensionScale
  match k.state with
  | .releasing =>
    let prior := k.prior.getD .slack
    if t < k.entry.slack then
      if k.phase = some .waitZero then
        if prior ≠ .silent ∧ alert ≤ k.last then s.partWork c
        else s.modCoupling c fun k => { k with prior := some .slack, count := 0 }
      else s.releaseDone c
    else
      let r := k.judge prior alert overload t
      s.modCoupling c fun k => { k with prior := some r.1, count := r.2 }
  | .makingUp =>
    if k.entry.slack ≤ t then
      ((s.endWork c .madeUp).modCoupling c fun k => { k with count := 0 }).formTow
    else s
  | x =>
    let r := k.judge x alert overload t
    s.moveCoupling c r.1 r.2

/-- The silence time of a node as a period. -/
def State.silencePeriod (s : State) (n : Fin 32) : Nat :=
  ms (s.nodes[n].entry.silence * 100)

/-- The coupling read by a channel of a sensor. -/
def State.couplingOf (s : State) (n : Fin 32) (channel : Byte) : Option (Fin 48) :=
  findTable s.tow.couplings fun k =>
    decide (k.entry.sensor = some n) && decide (k.entry.channel = channel.toNat)

/-- One reading of a TENSION sample (R71). -/
def State.tensionReading (n : Fin 32) (s : State) (r : Byte × Half) : State :=
  match s.couplingOf n r.1 with
  | some c =>
    let s1 := s.evaluateSample c r.2.toNat
    s1.modCoupling c fun k =>
      { k with last := r.2.toNat, sampleAt := s1.after (s1.silencePeriod n) }
  | none => s

/-- A coupling no longer heard: sample silence expiry, or its sensor out of ENROLLED (R76). -/
def State.couplingUnheard (s : State) (c : Fin 48) : State :=
  let s1 := s.modCoupling c fun k => { k with sampleAt := none }
  match s.tow.couplings[c].state with
  | .slack => s1.moveCoupling c .silent 0
  | .madeUp => s1.moveCoupling c .silent 0
  | .alert => s1.moveCoupling c .silent 0
  | .overload => s1.moveCoupling c .silent 0
  | .releasing => s1.modCoupling c fun k => { k with prior := some .silent }
  | .makingUp => s1.modCoupling c fun k => { k with prior := some .silent }
  | _ => s1

/-- The couplings of a sensor follow a change of its roster state (R76). One sensor may serve several couplings, and
the manual gives their moves no order: they are taken by rising coupling index (DESIGN CHOICE, log entry 21). -/
def State.couplingsFollow (s : State) (n : Fin 32) : State :=
  if s.nodes[n].state = .enrolled then s
  else
    (List.finRange 48).foldl
      (fun s c => if s.tow.couplings[c].entry.sensor = some n then s.couplingUnheard c else s) s

/-- A WINCH_STATUS read by the supervisor (R77). -/
def State.winchReport (s : State) (n : Fin 32) (condition : WinchCondition) : State :=
  match findTable s.tow.couplings fun k => decide (k.entry.winch = some n) with
  | some c =>
    let k := s.tow.couplings[c]
    match condition with
    | .parted =>
      if k.state = .unused ∨ k.state = .parted then s
      else if k.state = .releasing ∨ k.state = .makingUp then s.partWork c
      else s.moveCoupling c .parted k.count
    | .released =>
      if k.state = .releasing ∧ (k.phase = some .ordered ∨ k.phase = some .awaitSlack) then
        s.releaseDone c
      else s
    | _ => s
  | none => s

end Sys2Proof.Machine
end

