-- ==== Sys2Proof/Machine/Fuel.lean ====
section
/-! DEFINITION. Machine/Fuel.lean: the fuel accounting unit (chapter 5): meters, booking, tank books, the leg
and its reserve, and the fuel statement. A 48-bit figure that a booking carries out of its range becomes a
free value (log entry 3). -/

namespace Sys2Proof.Machine

/-! ### 48-bit figures -/

/-- A signed figure, or a free one where it is outside −2^47..2^47 − 1. -/
def State.signed48 (s : State) (x : Int) : Int × State :=
  if -140737488355328 ≤ x ∧ x ≤ 140737488355327 then (x, s)
  else (s.freeFigure.1.toInt, s.freeFigure.2)

/-- An unsigned figure, or a free one where it is outside 0..2^48 − 1. -/
def State.unsigned48 (s : State) (x : Nat) : Nat × State :=
  if x ≤ 281474976710655 then (x, s)
  else (s.freeFigure.1.toNat, s.freeFigure.2)

/-! ### Tanks (5.3) -/

/-- A tank changed by `f`. -/
def State.modTank (s : State) (t : Fin 8) (f : Tank → Tank) : State :=
  { s with fuel := { s.fuel with tanks := modTable s.fuel.tanks t f } }

/-- LOW by R112. -/
def Tank.isLow (k : Tank) : Bool :=
  decide (0 < k.entry.capacity) && decide (k.quantity < k.entry.lowMark)

/-- The LOW flag tested; a change is handed to propulsion (R112). -/
def State.testLow (s : State) (t : Fin 8) : State :=
  let flag := s.fuel.tanks[t].isLow
  if flag = s.fuel.tanks[t].low then s
  else
    let s1 := s.modTank t fun k => { k with low := flag }
    (if flag then s1.latch .tankLow (subjectOf t) else s1).recompute

/-- DISCREPANT by R113, where a reading is held. -/
def Tank.isDiscrepant (k : Tank) : Bool :=
  match k.reading with
  | some level => decide (k.entry.tolerance < ((level : Int) - k.quantity).natAbs)
  | none => k.discrepant

/-- The DISCREPANT flag tested (R113, R114). -/
def State.testDiscrepant (s : State) (t : Fin 8) : State :=
  let flag := s.fuel.tanks[t].isDiscrepant
  let s1 := s.modTank t fun k => { k with discrepant := flag }
  if flag ∧ ¬ s.fuel.tanks[t].discrepant then s1.latch .tankDiscrepancy (subjectOf t) else s1

/-- A deduction from a tank (R111). -/
def State.deduct (s : State) (t : Fin 8) (d : Nat) : State :=
  let q := s.fuel.tanks[t].quantity
  let r := s.unsigned48 (s.fuel.tanks[t].deductions + d)
  let f := r.2.unsigned48 (s.fuel.tanks[t].shortfall + (d - q))
  let s1 := f.2.modTank t fun k =>
    { k with deductions := r.1, shortfall := f.1, quantity := q - d }
  if q - d = q then s1 else s1.testLow t

/-- An addition to a tank (R111). -/
def State.addFuel (s : State) (t : Fin 8) (a : Nat) : State :=
  let q := s.fuel.tanks[t].quantity
  let capacity := s.fuel.tanks[t].entry.capacity
  let r := s.unsigned48 (s.fuel.tanks[t].additions + a)
  let f := r.2.unsigned48 (s.fuel.tanks[t].overflow + (q + a - capacity))
  let s1 := f.2.modTank t fun k =>
    { k with additions := r.1, overflow := f.1, quantity := min (q + a) capacity }
  if min (q + a) capacity = q then s1 else s1.testLow t

/-- A signed amount taken from a tank: a deduction, or an addition of its magnitude where below 0 (R107). -/
def State.takeFuel (s : State) (t : Fin 8) (a : Int) : State :=
  if 0 ≤ a then s.deduct t a.toNat else s.addFuel t a.natAbs

/-! ### The leg (5.4) and the engine accounts (5.2) -/

/-- The fuel reserve condition by R116. -/
def Leg.holds (l : Leg) : Bool :=
  l.active && decide ((l.budget : Int) - l.consumed ≤ l.reserveMark)

/-- The fuel reserve condition tested; a change is handed to propulsion (R116). -/
def State.testReserve (s : State) : State :=
  let flag := s.fuel.leg.holds
  if flag = s.fuel.leg.reserve then s
  else
    let s1 := { s with fuel := { s.fuel with leg := { s.fuel.leg with reserve := flag } } }
    (if flag then s1.latch .fuelReserve 0 else s1).recompute

/-- A signed amount booked to an engine account and to the leg's consumed figure (R107, R108). -/
def State.burn (s : State) (e : Fin 6) (a : Int) : State :=
  let t := s.signed48 (s.fuel.accounts[e].total + a)
  let l := t.2.signed48 (s.fuel.accounts[e].leg + a)
  let c := l.2.signed48 (s.fuel.leg.consumed + a)
  State.testReserve { c.2 with fuel := { c.2.fuel with
    accounts := c.2.fuel.accounts.set e { total := t.1, leg := l.1 }
    leg := { c.2.fuel.leg with consumed := c.1 } } }

/-- A signed amount taken from the service tank of an engine, where it has one (R107). -/
def State.takeService (s : State) (e : Fin 6) (a : Int) : State :=
  match s.prop.engines[e].entry.serviceTank with
  | some t => s.takeFuel t a
  | none => s

/-- The table entry a stored field names, if the table has it. -/
def entryAt (n x : Nat) : Option (Fin n) :=
  if h : x < n then some ⟨x, h⟩ else none

/-- A signed amount put into the tank of a BUNKER meter and into its bunkered figure (R107). -/
def State.bunker (s : State) (t : Fin 8) (a : Int) : State :=
  let s1 := s.takeFuel t (-a)
  let b := s1.signed48 (s1.fuel.tanks[t].bunkered + a)
  b.2.modTank t fun k => { k with bunkered := b.1 }

/-- A signed amount booked for a meter by its role (R107). -/
def State.book (s : State) (m : MeterEntry) (a : Int) : State :=
  if a = 0 then s
  else
    match m.role with
    | .supply =>
      match entryAt 6 m.firstObject with
      | some e => (s.burn e a).takeService e a
      | none => s
    | .returns =>
      match entryAt 6 m.firstObject with
      | some e => (s.burn e (-a)).takeService e (-a)
      | none => s
    | .transfer =>
      match entryAt 8 m.firstObject, entryAt 8 m.toTank with
      | some f, some g => (s.takeFuel f a).takeFuel g (-a)
      | _, _ => s
    | .bunker =>
      match entryAt 8 m.toTank with
      | some g => s.bunker g a
      | none => s

/-! ### Meters (5.1) -/

/-- A meter changed by `f`. -/
def State.modMeter (s : State) (i : Fin 16) (f : Meter → Meter) : State :=
  { s with fuel := { s.fuel with meters := modTable s.fuel.meters i f } }

/-- The silence timer of a meter, started with its node's silence time. -/
def State.meterSilence (s : State) (n : Fin 32) : Timer :=
  s.after (s.silencePeriod n)

/-- Counted amount of a sample, modulo 2^32 (R102). -/
def Meter.delta (m : Meter) (total : Quad) : Nat :=
  (total - BitVec.ofNat 32 m.lastTotal).toNat

/-- The plausible limit of a sample (R102). -/
def Meter.limit (m : Meter) (elapsed : Nat) : Nat :=
  m.entry.maxRate * elapsed / 1000 + m.entry.margin

/-- A meter with a new base, COUNTING (R101 to R103). -/
def State.based (s : State) (n : Fin 32) (total : Quad) (rate : Nat) (m : Meter) : Meter :=
  { m with
    state := .counting, lastTotal := total.toNat, lastArrival := s.now / 1000, lastRate := rate,
    accumulator := 0, silenceAt := s.meterSilence n, tickAt := none }

/-- The last rate after a good sample (R103). -/
def Meter.newRate (m : Meter) (delta elapsed : Nat) : Nat :=
  if elapsed = 0 then m.lastRate else min (delta * 1000 / elapsed) 65535

/-- The meter read by a channel of a node. -/
def State.meterOf (s : State) (n : Fin 32) (channel : Byte) : Option (Fin 16) :=
  findTable s.fuel.meters fun m =>
    decide (m.entry.node = some n) && decide (m.entry.channel = channel.toNat)

/-- One reading of a FLOW sample (R100 to R103). -/
def State.flowReading (n : Fin 32) (s : State) (r : Byte × Quad) : State :=
  match s.meterOf n r.1 with
  | some i =>
    let m := s.fuel.meters[i]
    let elapsed := s.now / 1000 - m.lastArrival
    let delta := m.delta r.2
    if m.state = .unused then s
    else if m.state = .baseline then s.modMeter i (s.based n r.2 m.lastRate)
    else if m.limit elapsed < delta then
      (s.modMeter i (s.based n r.2 m.lastRate)).latch .meterReset (subjectOf i)
    else
      (s.book m.entry ((delta : Int) - m.accumulator)).modMeter i
        (s.based n r.2 (m.newRate delta elapsed))
  | none => s

/-- Entry of a meter to ESTIMATING (R104). -/
def State.startEstimating (s : State) (i : Fin 16) : State :=
  (s.modMeter i fun m =>
    { m with state := .estimating, silenceAt := none, tickAt := s.after (ms 1000) }).latch
      .meterEstimating (subjectOf i)

/-- An estimate tick (R104). -/
def State.tick (s : State) (i : Fin 16) : State :=
  let m := s.fuel.meters[i]
  (s.book m.entry m.lastRate).modMeter i fun x =>
    { x with accumulator := m.accumulator + m.lastRate, tickAt := s.after (ms 1000) }

/-- The meters of a node follow a change of its roster state (R104), by rising meter index, which the manual leaves
open (DESIGN CHOICE, log entry 21). -/
def State.metersFollow (s : State) (n : Fin 32) : State :=
  if s.nodes[n].state = .enrolled then s
  else
    (List.finRange 16).foldl
      (fun s i =>
        if s.fuel.meters[i].entry.node = some n ∧ s.fuel.meters[i].state = .counting then
          s.startEstimating i
        else s) s

/-- The tank read by a channel of a gauge. -/
def State.tankOf (s : State) (n : Fin 32) (channel : Byte) : Option (Fin 8) :=
  findTable s.fuel.tanks fun k =>
    decide (k.entry.gauge = some n) && decide (k.entry.channel = channel.toNat)

/-- One reading of a LEVEL sample (R113). -/
def State.levelReading (n : Fin 32) (s : State) (r : Byte × Quad) : State :=
  match s.tankOf n r.1 with
  | some t => (s.modTank t fun k => { k with reading := some r.2.toNat }).testDiscrepant t
  | none => s

/-! ### The fuel statement (5.5) -/

/-- The estimating flag of an engine block (R119). -/
def State.estimates (s : State) (e : EngineEntry) : Bool :=
  let flag : Option (Fin 16) → Bool := fun m =>
    match m with
    | some i => decide (s.fuel.meters[i].state = .estimating)
    | none => false
  flag e.supplyMeter || flag e.returnMeter

/-- The block of an engine, where it is present (R119). -/
def State.engineBlock (s : State) (i : Fin 6) : Option Block :=
  let e := s.prop.engines[i]
  if e.state = .absent then none
  else some (.engine i s.fuel.accounts[i].leg s.fuel.accounts[i].total (s.estimates e.entry))

/-- The block of a tank, where it is present (R119). -/
def State.tankBlock (s : State) (t : Fin 8) : Option Block :=
  let k := s.fuel.tanks[t]
  if k.entry.capacity = 0 then none
  else some (.tank t k.entry.role k.quantity k.shortfall k.overflow k.bunkered k.reading k.low
    k.discrepant)

/-- The snapshot of a statement (R119). -/
def State.snapshot (s : State) : List Block :=
  let l := s.fuel.leg
  .header l.active l.reserve l.budget l.reserveMark l.consumed ::
    ((List.finRange 6).filterMap s.engineBlock ++ (List.finRange 8).filterMap s.tankBlock)

/-- One flag bit of a BULK flags byte. -/
def bit (b : Bool) (n : Nat) : Byte :=
  if b then 1 <<< n else 0

/-- Kind and contents of a block as its BULK frame carries them; a figure beyond its field is carried as the
nearest end of the range (R119, R160, 7.5.5). -/
def Block.bytes : Block → List Byte
  | .header active reserve budget mark consumed =>
    [1, bit active 0 ||| bit reserve 1] ++ bytes4 budget ++ bytes4 mark ++ bytes6i consumed
  | .engine index leg total estimating =>
    [2, BitVec.ofNat 8 index.val, bit estimating 0] ++ bytes6i leg ++ bytes6i total
  | .tank index role quantity shortfall overflow bunkered reading low discrepant =>
    [3, BitVec.ofNat 8 index.val,
      bit (decide (role = .storage)) 0 ||| bit low 1 ||| bit discrepant 2 ||| bit reading.isSome 3] ++
      bytes4 quantity ++ bytes3n (min shortfall 16777215) ++ bytes3n (min overflow 16777215) ++
      bytes4i (clamp (-2147483648) 2147483647 bunkered) ++ bytes4 (reading.getD 0)

/-- A number of the statement store as a byte. -/
def byteOf (n : Nat) : Byte :=
  BitVec.ofNat 8 n

/-- The BULK frame of block number `i` (R118). -/
def State.bulkFrame (s : State) (i : Nat) (b : Block) : Frame :=
  s.build (s.fuel.statement.destination.getD 0) 7 0
    ([byteOf s.fuel.statement.number, byteOf i, byteOf s.fuel.statement.blocks.length] ++ b.bytes)

/-- The statement store changed by `f`. -/
def State.modStatement (s : State) (f : Statement → Statement) : State :=
  { s with fuel := { s.fuel with statement := f s.fuel.statement } }

/-- The statement ends (R122, R123): IDLE, with STATEMENT_END of a subject. -/
def State.endStatement (s : State) (subject : Byte) : State :=
  (s.modStatement fun x => { x with state := .idle, stallAt := none }).latch .statementEnd subject

/-- The statement becomes PAUSED and its stall timer starts (R120). -/
def State.pauseStatement (s : State) : State :=
  s.modStatement fun x => { x with state := .paused, stallAt := s.after (ms 2000) }

/-- Blocks placed while reserved buffers of port W are free and blocks remain (R120, R123). -/
def State.placeBlocks : State → List Block → State
  | s, [] => s.endStatement 0
  | s, b :: rest =>
    if s.reservedFree .W then
      ((s.pushFrame .W (s.bulkFrame s.fuel.statement.next b)).modStatement fun x =>
        { x with next := x.next + 1 }).placeBlocks rest
    else s.pauseStatement

/-- The blocks of the statement not yet placed. -/
def Statement.remaining (x : Statement) : List Block :=
  x.blocks.drop (x.next - 1)

/-- A statement set SENDING, its stall timer stopped, and its blocks placed (R120, R121). -/
def State.sendStatement (s : State) : State :=
  let s1 := s.modStatement fun x => { x with state := .sending, stallAt := none }
  s1.placeBlocks s1.fuel.statement.remaining

end Sys2Proof.Machine
end

