-- ==== Sys2Proof/Machine/Steering.lean ====
section
/-! DEFINITION. Machine/Steering.lean: the steering coordinator (chapter 3): the forced steer-assist condition,
the actuator states, reports of position and the divergence test. The mapping is in Mapping.lean. -/

namespace Sys2Proof.Machine

/-- An actuator that calls for forced steer assist (R65). -/
def Actuator.unreliable (a : Actuator) : Bool :=
  decide (a.entry.kind = .mainRudder) &&
    (decide (a.state = .diverged) || decide (a.state = .fault) || decide (a.state = .lost))

/-- The forced steer-assist condition by R65. -/
def State.forcedHolds (s : State) : Bool :=
  s.steer.actuators.toArray.toList.any Actuator.unreliable && decide (0 < s.profile.gain)

/-- The forced steer-assist field set to the condition. -/
def State.setForced (s : State) : State :=
  { s with steer := { s.steer with forced := s.forcedHolds } }

/-- The forced steer-assist condition formed again; a change is a recompute event (R65). -/
def State.reviewForced (s : State) : State :=
  if s.forcedHolds = s.steer.forced then s else s.setForced.recompute

/-- The actuator whose node is a roster entry. -/
def State.actuatorOf (s : State) (n : Fin 32) : Option (Fin 5) :=
  findTable s.steer.actuators fun a => decide (a.entry.node = some n)

/-- Entry to FAULT: the timer stops and ACTUATOR_FAULT is latched (R60, R61). -/
def State.faultActuator (s : State) (i : Fin 5) : State :=
  (s.modActuator i fun a => { a with state := .fault, divergeAt := none }).latch .actuatorFault
    (subjectOf i)

/-- Return to READY from FAULT or LOST: the ordered value is placed at once (R57). -/
def State.readyActuator (s : State) (i : Fin 5) : State :=
  (s.modActuator i fun a => { a with state := .ready, divergeAt := none }).placeOrdered i

/-- The actuator of a node follows a change of its roster state (R60). -/
def State.actuatorFollows (s : State) (n : Fin 32) : State :=
  match s.actuatorOf n with
  | some i =>
    let a := s.steer.actuators[i]
    if a.state = .absent then s
    else
      match s.nodes[n].state with
      | .enrolled =>
        if a.state = .fault ∨ a.state = .lost then (s.readyActuator i).reviewForced else s
      | .failed => if a.state = .fault then s else (s.faultActuator i).reviewForced
      | _ => (s.modActuator i fun a => { a with state := .lost, divergeAt := none }).reviewForced
  | none => s

/-- A position is outside the divergence band (R62). -/
def Actuator.outside (a : Actuator) : Bool :=
  decide ((a.entry.band : Int) < (a.reported - a.ordered).natAbs)

/-- The divergence test of R62. -/
def State.testActuator (s : State) (a : Actuator) : Actuator :=
  match a.state with
  | .ready =>
    if a.outside then
      if a.divergeAt.isSome then a else { a with divergeAt := s.after (ms (a.entry.time * 100)) }
    else { a with divergeAt := none }
  | .diverged => if a.outside then a else { a with state := .ready, divergeAt := none }
  | _ => a

/-- A report of an actuator's position, with the fault flag of an ACTUATOR_STATUS or none for an ECHO
(R61). -/
def State.actuatorReport (s : State) (n : Fin 32) (position : Half) (flag : Option FaultFlag) : State :=
  match s.actuatorOf n with
  | some i =>
    let s1 := s.modActuator i fun a => { a with reported := position.toInt }
    match s.steer.actuators[i].state, flag with
    | .ready, some .fault => (s1.faultActuator i).reviewForced
    | .diverged, some .fault => (s1.faultActuator i).reviewForced
    | .ready, _ => s1.modActuator i s1.testActuator
    | .diverged, _ => (s1.modActuator i s1.testActuator).reviewForced
    | .fault, some .noFault =>
      let s2 := s1.readyActuator i
      (s2.modActuator i s2.testActuator).reviewForced
    | _, _ => s1
  | none => s

/-- A divergence expiry (R62). -/
def State.diverge (s : State) (i : Fin 5) : State :=
  if s.steer.actuators[i].state = .ready then
    ((s.modActuator i fun a => { a with state := .diverged, divergeAt := none }).latch .actuatorDiverged
      (subjectOf i)).reviewForced
  else s.modActuator i fun a => { a with divergeAt := none }

end Sys2Proof.Machine
end

