-- ==== Sys2Proof/Machine/Roster.lean ====
section
/-! DEFINITION. Machine/Roster.lean: the node roster (6.2): the hand-over of a change of node state, frames from
a node, enrolment, failure, and the refresh of its orders. -/

namespace Sys2Proof.Machine

/-- A change of node state handed to each block whose tables name the node (R134). R134 lists the blocks in a table and
gives no order: they are taken in that of its rows (DESIGN CHOICE, log entry 21). -/
def State.handOver (s : State) (n : Fin 32) : State :=
  (((s.engineFollows n).actuatorFollows n).couplingsFollow n).metersFollow n

/-- The entry, not UNUSED, that is found on a port at an address (R129, R130). -/
def State.nodeOf (s : State) (p : Port) (src : Byte) : Option (Fin 32) :=
  findTable s.nodes fun n =>
    decide (n.state ≠ .unused) && decide (n.entry.port.port = p) && decide (n.entry.address = some src)

/-- The silence timer of a node, started with its silence time. -/
def State.nodeSilence (s : State) (n : Fin 32) : Timer :=
  s.after (s.silencePeriod n)

/-- The refresh timer of a node, started with its refresh interval where it is above 0 (R133). -/
def State.nodeRefresh (s : State) (n : Fin 32) : Timer :=
  if s.nodes[n].entry.refresh = 0 then none else s.after (ms (s.nodes[n].entry.refresh * 100))

/-- A frame from a node, of a class other than ENROL (R130). -/
def State.hear (s : State) (n : Fin 32) : State :=
  match s.nodes[n].state with
  | .enrolled => s.modNode n fun x => { x with silenceAt := s.nodeSilence n }
  | .silent =>
    (s.modNode n fun x => { x with state := .enrolled, silenceAt := s.nodeSilence n }).handOver n
  | _ => s

/-- A good frame of a class other than ENROL, read by the roster (R130). -/
def State.heard (s : State) (p : Port) (src : Byte) : State :=
  match s.nodeOf p src with
  | some n => s.hear n
  | none => s

/-- An enrolment of the right kind (R129). -/
def State.enrolNode (s : State) (n : Fin 32) : State :=
  match s.nodes[n].state with
  | .unused => s
  | .enrolled =>
    (s.modNode n fun x => { x with timeouts := 0, silenceAt := s.nodeSilence n }).latch .nodeEnrolled
      (subjectOf n)
  | .silent =>
    ((s.modNode n fun x =>
      { x with state := .enrolled, timeouts := 0, silenceAt := s.nodeSilence n }).latch .nodeEnrolled
        (subjectOf n)).handOver n
  | _ =>
    ((s.modNode n fun x =>
      { x with
        state := .enrolled, timeouts := 0, silenceAt := s.nodeSilence n,
        refreshAt := s.nodeRefresh n }).latch .nodeEnrolled (subjectOf n)).handOver n

/-- An ENROL whose kind differs: ENROL_MISMATCH, and a frame from the node that restarts the silence timer
of an ENROLLED one (R129). -/
def State.enrolMismatch (s : State) (n : Fin 32) : State :=
  (if s.nodes[n].state = .enrolled then
    s.modNode n fun x => { x with silenceAt := s.nodeSilence n }
  else s).latch .enrolMismatch (subjectOf n)

/-- An ENROL frame (R129); it names a kind when its LEN is 1 (R159). -/
def State.takeEnrol (s : State) (p : Port) (src : Byte) (payload : List Byte) : State :=
  match s.nodeOf p src with
  | some n =>
    if payload = [s.nodes[n].entry.kind.enrolKind] then s.enrolNode n else s.enrolMismatch n
  | none => s

/-- A node becomes SILENT, its silence timer stopped; the refresh timer runs on (R131, R132). -/
def State.silenceNode (s : State) (n : Fin 32) : State :=
  s.modNode n fun x => { x with state := .silent, silenceAt := none }

/-- Silence expiry of a node (R131). -/
def State.nodeSilent (s : State) (n : Fin 32) : State :=
  ((s.silenceNode n).latch .nodeSilent (subjectOf n)).handOver n

/-- The ENROLLED nodes of a port (R132). -/
def State.enrolledOn (s : State) (p : Port) : List (Fin 32) :=
  (List.finRange 32).filter fun n =>
    decide (s.nodes[n].state = .enrolled) && decide (s.nodes[n].entry.port.port = p)

/-- Every ENROLLED node of a port becomes SILENT at once, NODE_SILENT is latched for each, and each change
is handed on (R132, R134; log entry 14). -/
def State.silencePort (s : State) (p : Port) : State :=
  let ns := s.enrolledOn p
  ns.foldl (fun s n => (s.latch .nodeSilent (subjectOf n)).handOver n) (ns.foldl State.silenceNode s)

/-- A node becomes FAILED (R143): its timers stop, its waiting slot is freed and the owner told, and the
change is handed on. -/
def State.failNode (s : State) (n : Fin 32) : State :=
  let s1 := (s.modNode n fun x =>
    { x with state := .failed, silenceAt := none, refreshAt := none }).latch .nodeFailed (subjectOf n)
  (match s1.waitingSlot n with
    | some i => (s1.endSlot i).slotLost s1.trans.slots[i]
    | none => s1).handOver n

/-- The ack timeout of an AWAITING slot (R142, R143). -/
def State.slotTimeout (s : State) (i : Fin 16) : State :=
  let x := s.trans.slots[i]
  let s1 := ((s.endSlot i).modNode x.target fun n => { n with timeouts := n.timeouts + 1 }).orderEnded x
  if 3 ≤ s1.nodes[x.target].timeouts then s1.failNode x.target else s1.wakeSlot x.target

/-- A refresh expiry handed to the coordinators that name the node (R44, R58, R133): where an engine and an actuator
both name it, propulsion places its order first (DESIGN CHOICE, log entry 21). -/
def State.refresh (s : State) (n : Fin 32) : State :=
  let s1 : State := match s.engineOf n with
    | some i => if s.prop.engines[i].state = .absent then s else s.placeSetpoint i
    | none => s
  match s1.actuatorOf n with
  | some i => if s1.steer.actuators[i].state = .absent then s1 else s1.placeOrdered i
  | none => s1

end Sys2Proof.Machine
end

