-- ==== Sys2Proof/Machine/Intake.lean ====
section
/-! DEFINITION. Machine/Intake.lean: what a good frame meets on its way in (chapters 7 and 8): the frame end at its
port, the passage table with its jobs and copies, the acknowledgements, and the answers of port W. -/

namespace Sys2Proof.Machine

/-! ### The frame end at a port -/

/-- One port of the link changed by `f`. -/
def State.modLine (s : State) (p : Port) (f : Line → Line) : State :=
  { s with link := { s.link with ports := s.link.ports.set p (f (s.link.ports.get p)) } }

/-- A frame end at a port: the port is UP, the assembly is emptied, and the line has rested idle for 2 byte
times (R148, R151, R153; log entry 10). -/
def State.frameEnd (s : State) (p : Port) : State :=
  s.modLine p fun x => { x with line := .up, assembly := Assembly.empty, gapAt := s.now }

/-- A port takes bytes while it is not sending: a node that begins to send while the part is sending is not heard
(R147, R153, R155). -/
def State.hears (s : State) (p : Port) : Bool :=
  (s.link.ports.get p).sending.isNone

/-- The end of a frame at a port: without effect where the port has taken no byte of it (log entry 10). -/
def State.receive (s : State) (p : Port) (act : State → State) : State :=
  if s.hears p then act s else s

/-- A good frame taken at its frame end and read first by the roster (R130, R148). -/
def State.arrive (s : State) (p : Port) (src : Byte) : State :=
  (s.frameEnd p).heard p src

/-! ### The passage table (8.3) -/

/-- A used entry matches a frame (R164). -/
def PassageEntry.matches (e : PassageEntry) (p : Port) (f : Frame) : Bool :=
  e.used && (decide (e.ingress = none) || decide (e.ingress = some p)) &&
    (decide (e.source = none) || decide (e.source = some f.src)) &&
    decide (f.cls.toNat < 8) &&
    (match e.cls with
      | none => true
      | some c => decide (c.val = f.cls.toNat)) &&
    (decide (e.kindSelector ≠ 0) ||
      (decide (f.cls ≠ 7) && decide (f.payload.head? = some e.kind)))

/-- Action, job and port set for a frame: the first entry that matches, else the default of its port
(R164). -/
def Forwarding.disposition (x : Forwarding) (p : Port) (f : Frame) : Action × Job × PortSet :=
  match findTable x.passage fun e => e.matches p f with
  | some i => (x.passage[i].action, x.passage[i].job, x.passage[i].ports)
  | none =>
    let d := x.defaults.get p
    (d.action, d.job, portSetOf d.ports)

/-- A frame read by a job from an ENROLLED source (R20, R61, R71, R77, R100, R113). -/
def State.jobReads (s : State) (job : Job) (n : Fin 32) (c : Content) : State :=
  match job, c with
  | .propulsion, .engineStatus run load alarmLevel => s.engineReport n run load alarmLevel
  | .steering, .actuatorStatus position flag => s.actuatorReport n position (some flag)
  | .tow, .tension rs => rs.foldl (State.tensionReading n) s
  | .tow, .winchStatus condition => s.winchReport n condition
  | .fuel, .flow rs => rs.foldl (State.flowReading n) s
  | .fuel, .level rs => rs.foldl (State.levelReading n) s
  | _, _ => s

/-- The gate of a TAKE (R166): the source is a roster entry of the ingress port, ENROLLED or SILENT. -/
def State.gate (s : State) (p : Port) (src : Byte) : Option (Fin 32) :=
  match s.nodeOf p src with
  | some n =>
    if s.nodes[n].state = .enrolled ∨ s.nodes[n].state = .silent then some n else none
  | none => none

/-- The take part of an action (R165, R166); `c` is what the frame tells a job (R159). -/
def State.deliver (s : State) (p : Port) (src : Byte) (c : Content) (job : Job) : State :=
  match s.gate p src with
  | some n => s.jobReads job n c
  | none => s

/-- The copy for one port of a port set; the ingress port is passed over (R165). -/
def State.copyTo (p : Port) (ports : PortSet) (f : Frame) (s : State) (q : Port) : State :=
  if ports.has q ∧ q ≠ p then s.forwardCopy q f else s

/-- The pass part of an action: one copy for each port of the set, in the order W, M, T (R165). -/
def State.passOn (s : State) (p : Port) (f : Frame) (ports : PortSet) : State :=
  allPorts.foldl (State.copyTo p ports f) s

/-- The action of the passage table on a frame (R164, R165). -/
def State.dispose (s : State) (p : Port) (f : Frame) (c : Content) : State :=
  let d := s.fwd.disposition p f
  let s1 := if d.1.takes then s.deliver p f.src c d.2.1 else s
  if d.1.passes then s1.passOn p f d.2.2 else s1

/-- A good frame that fixed intake does not take (R148, R165). -/
def State.passage (s : State) (p : Port) (f : Frame) (c : Content) : State :=
  s.receive p fun s => (s.arrive p f.src).dispose p f c

/-! ### Acknowledgements (R140, R141) -/

/-- The slot of a node that an ACK of a kind and TAG completes (R140). -/
def State.completes (s : State) (n : Fin 32) (tag : Nibble) (isFull : Bool) : Option (Fin 16) :=
  match s.flightSlot n with
  | some i =>
    let x := s.trans.slots[i]
    if x.state = .awaiting ∧ x.tag = tag ∧ (x.kind = .setpoint ↔ isFull = true) then some i else none
  | none => none

/-- An ACK that completes a slot: the slot is freed, the count becomes 0 and the owner is told (R140). -/
def State.complete (s : State) (n : Fin 32) (i : Fin 16) : State :=
  ((s.endSlot i).modNode n fun x => { x with timeouts := 0 }).orderEnded s.trans.slots[i]

/-- The content of an ECHO as status, read by the owner's block (R59, R141). -/
def State.readEcho (s : State) (n : Fin 32) (position : Half) : State :=
  if s.nodes[n].state = .enrolled then s.actuatorReport n position none else s

/-- The content of a FULL as status (R20, R141). -/
def State.readFull (s : State) (n : Fin 32) (run : RunState) (load : Half) (alarmLevel : AlarmLevel) :
    State :=
  if s.nodes[n].state = .enrolled then s.engineReport n run load alarmLevel else s

/-- An ECHO that completes a slot is read by the owner: steering for ANGLE and BOW, and nothing for WINCH
(R86, R94, R140). -/
def State.echoOwner (s : State) (n : Fin 32) (x : Slot) (position : Half) : State :=
  match x.owner with
  | some (.steering _) => s.readEcho n position
  | _ => s

/-- A FULL that completes a slot is read by the owner, propulsion (R140). -/
def State.fullOwner (s : State) (n : Fin 32) (x : Slot) (run : RunState) (load : Half)
    (alarmLevel : AlarmLevel) : State :=
  match x.owner with
  | some (.propulsion _) => s.readFull n run load alarmLevel
  | _ => s

/-- A well-formed ECHO at the transaction unit (R140, R141). -/
def State.takeEcho (s : State) (p : Port) (o : Origin) (position : Half) : State :=
  match s.nodeOf p o.src with
  | some n =>
    if s.nodes[n].state = .failed then s
    else
      match s.completes n o.tag false with
      | some i => ((s.complete n i).echoOwner n s.trans.slots[i] position).wakeSlot n
      | none => s.readEcho n position
  | none => s

/-- A well-formed FULL at the transaction unit (R140, R141). -/
def State.takeFull (s : State) (p : Port) (o : Origin) (run : RunState) (load : Half)
    (alarmLevel : AlarmLevel) : State :=
  match s.nodeOf p o.src with
  | some n =>
    if s.nodes[n].state = .failed then s
    else
      match s.completes n o.tag true with
      | some i =>
        ((s.complete n i).fullOwner n s.trans.slots[i] run load alarmLevel).wakeSlot n
      | none => s.readFull n run load alarmLevel
  | none => s

/-! ### Answers and replies on port W -/

/-- Answer codes of a wheelhouse order (R7). -/
inductive Answer where
  | taken | clamped | refusedStation | refusedHelmLost | refusedState | refusedBusy | range | unknown
deriving DecidableEq, Repr

/-- Number of an answer code (7.5.2). -/
def Answer.byte : Answer → Byte
  | .taken => 0
  | .clamped => 1
  | .refusedStation => 2
  | .refusedHelmLost => 3
  | .refusedState => 4
  | .refusedBusy => 5
  | .range => 6
  | .unknown => 7

/-- The answer to a wheelhouse order placed in the answer lane (R7, R156). -/
def State.answer (s : State) (o : Origin) (kind : Byte) (a : Answer) : State :=
  s.placeAnswer (s.build o.src 1 o.tag [kind, a.byte])

/-- Status of a management reply (7.5.6). -/
inductive Status where
  | done | closed | range | busy | state | unknown
deriving DecidableEq, Repr

/-- Number of a status (7.5.6). -/
def Status.byte : Status → Byte
  | .done => 0
  | .closed => 1
  | .range => 2
  | .busy => 3
  | .state => 4
  | .unknown => 5

/-- The reply to a management request placed in the answer lane (R161, R183). -/
def State.reply (s : State) (o : Origin) (code : Byte) (status : Status) (body : List Byte) : State :=
  s.placeAnswer (s.build o.src 5 o.tag ([code, status.byte] ++ body))

/-- A source is listed in the station table (R6). -/
def HelmUnit.lists (h : HelmUnit) (src : Byte) : Bool :=
  decide (h.stations[(0 : Fin 2)] = some src) || decide (h.stations[(1 : Fin 2)] = some src)

/-- Admission of an order that requires command (R6 steps 2 and 3): the refusal it draws, if any. -/
def State.refusal (s : State) (o : Origin) : Option Answer :=
  if ¬ s.helm.lists o.src then some .refusedStation
  else if s.helm.helm = .lost then some .refusedHelmLost
  else if s.helm.command ≠ some o.src then some .refusedStation
  else none

/-- A wheelhouse order on port W: lost where the answer lane is full (R163), else carried out by `act` and
answered (R7). -/
def State.order (s : State) (o : Origin) (kind : Byte) (act : State → State × Answer) : State :=
  s.receive .W fun s =>
    let s1 := s.arrive .W o.src
    if s1.laneFull then s1
    else
      let r := act s1
      r.1.answer o kind r.2

/-- An order that requires command, refused by R6 or handed on to its owner. -/
def State.commanded (s : State) (o : Origin) (kind : Byte) (act : State → State × Answer) : State :=
  s.order o kind fun s1 =>
    match s1.refusal o with
    | some a => (s1, a)
    | none => act s1

/-- A management request on port W: lost where the answer lane is full (R163), else carried out by `act`,
which places its reply. -/
def State.request (s : State) (o : Origin) (act : State → State) : State :=
  s.receive .W fun s =>
    let s1 := s.arrive .W o.src
    if s1.laneFull then s1 else act s1

end Sys2Proof.Machine
end

