-- ==== Sys2Proof/Machine/Orders.lean ====
section
/-! DEFINITION. Machine/Orders.lean: the wheelhouse orders (chapters 1 to 4) and the helm guard. -/

namespace Sys2Proof.Machine

/-! ### The helm guard (1.5) -/

/-- The guard is active (R10). -/
def State.guardActive (s : State) : Bool :=
  decide (0 < s.profile.guardPeriod) && !s.moored && decide (s.helm.helm = .normal)

/-- The guard's expiry when it starts now (R10). -/
def State.guardStart (s : State) : Timer :=
  s.after (ms (s.profile.guardPeriod * 100))

/-- The helm record changed by `f`. -/
def State.modHelm (s : State) (f : HelmUnit → HelmUnit) : State :=
  { s with helm := f s.helm }

/-- An active guard restarted with its full period (R10). -/
def State.restartGuard (s : State) : State :=
  if s.guardActive then s.modHelm fun h => { h with guardAt := s.guardStart } else s

/-- The guard stopped, then started if it is active (R8, R10, R13). -/
def State.resetGuard (s : State) : State :=
  s.modHelm fun h => { h with guardAt := if s.guardActive then s.guardStart else none }

/-- The effects of a mode change on the coordinators: the forced steer-assist condition and the targets are
formed again in one recompute, and then the tow ceilings (R8, R65; log entry 11). -/
def State.enterMode (s : State) : State :=
  s.setForced.recompute.formTow

/-- A source made the station in command, with COMMAND_TRANSFER where it was not before (R9, R13). -/
def State.transferTo (s : State) (src : Byte) : State :=
  if s.helm.command = some src then s
  else (s.modHelm fun h => { h with command := some src }).latch .commandTransfer src

/-! ### PROPEL and STEER -/

/-- A PROPEL taken (R27, R29, R39). -/
def State.takePropel (s : State) (power : Half) (mode : Byte) (differential : Half) (flags : Byte) :
    State :=
  let s1 := if flags.getLsbD 0 then s.crashStop else s
  { s1 with prop := { s1.prop with
    power := clamp (-1000) 1000 power.toInt
    diffMode := if mode = 0 then .fixed else .auto
    fixedDiff := clamp (-300) 300 differential.toInt } }.recompute.restartGuard

/-- A PROPEL decided by propulsion (R27). -/
def State.decidePropel (power : Half) (mode : Byte) (differential : Half) (flags : Byte) (s : State) :
    State × Answer :=
  if 1 < mode.toNat then (s, .unknown)
  else
    (s.takePropel power mode differential flags,
      if clamp (-1000) 1000 power.toInt = power.toInt ∧
          clamp (-300) 300 differential.toInt = differential.toInt then .taken else .clamped)

/-- PROPEL (R6, R27). -/
def execPropel (o : Origin) (power : Half) (mode : Byte) (differential : Half) (flags : Byte)
    (s : State) : Outcome :=
  .next (s.commanded o 0x01 (State.decidePropel power mode differential flags))

/-- A STEER taken (R51, R52). -/
def State.takeSteer (s : State) (rudder : Half) (bowMode : Byte) (bow : Half) : State :=
  let s1 := { s with steer := { s.steer with
    rudder := clamp (-450) 450 rudder.toInt
    bowMode := if bowMode = 0 then .follow else .explicit
    bowDemand := if bowMode = 0 then s.steer.bowDemand else clamp (-1000) 1000 bow.toInt } }.remapAll
  (if s1.prop.diffMode = .auto ∨ s1.steer.forced then s1.recompute else s1).restartGuard

/-- A STEER decided by steering (R51). -/
def State.decideSteer (rudder : Half) (bowMode : Byte) (bow : Half) (s : State) : State × Answer :=
  if 1 < bowMode.toNat then (s, .unknown)
  else
    (s.takeSteer rudder bowMode bow,
      if clamp (-450) 450 rudder.toInt = rudder.toInt ∧
          (bowMode = 0 ∨ clamp (-1000) 1000 bow.toInt = bow.toInt) then .taken else .clamped)

/-- STEER (R6, R51). -/
def execSteer (o : Origin) (rudder : Half) (bowMode : Byte) (bow : Half) (s : State) : Outcome :=
  .next (s.commanded o 0x02 (State.decideSteer rudder bowMode bow))

/-! ### CONVOY -/

/-- A CONVOY MODE decided (R8). -/
def State.decideMode (code : Byte) (s : State) : State × Answer :=
  match indexOf 8 code with
  | some m =>
    if m = 7 then (s, .range)
    else ((s.modHelm fun h => { h with mode := m }).enterMode.resetGuard, .taken)
  | none => (s, .range)

/-- CONVOY MODE (R6, R8). -/
def execConvoyMode (o : Origin) (code : Byte) (s : State) : Outcome :=
  .next (s.commanded o 0x03 (State.decideMode code))

/-- A TAKE_COMMAND decided (R6, R9). -/
def State.decideTakeCommand (o : Origin) (s : State) : State × Answer :=
  if ¬ s.helm.lists o.src then (s, .refusedStation)
  else if s.helm.helm = .lost then (s, .refusedHelmLost)
  else
    let s1 := s.transferTo o.src
    (if s1.helm.guardAt.isSome then s1.modHelm fun h => { h with guardAt := s1.guardStart } else s1,
      .taken)

/-- CONVOY TAKE_COMMAND (R6, R9); the selector is not read (7.5.2). -/
def execTakeCommand (o : Origin) (_selector : Byte) (s : State) : Outcome :=
  .next (s.order o 0x03 (State.decideTakeCommand o))

/-- A HELM_RESUME carried out (R13). -/
def State.resumeHelm (s : State) (src : Byte) : State :=
  ((s.modHelm fun h =>
    { h with mode := h.remembered.getD h.mode, remembered := none, helm := .normal }).enterMode.transferTo
      src).resetGuard

/-- A HELM_RESUME decided (R6, R13). At helm NORMAL it is answered REFUSED_STATE, as R6's table has it, also after a
warm restart, where a sentence of R188 gives every order but TAKE_COMMAND REFUSED_STATION (DEDUCED, log entry 23). -/
def State.decideHelmResume (o : Origin) (s : State) : State × Answer :=
  if ¬ s.helm.lists o.src then (s, .refusedStation)
  else if s.helm.helm = .lost then (s.resumeHelm o.src, .taken)
  else (s, .refusedState)

/-- CONVOY HELM_RESUME (R6, R13); the selector is not read (7.5.2). -/
def execHelmResume (o : Origin) (_selector : Byte) (s : State) : Outcome :=
  .next (s.order o 0x03 (State.decideHelmResume o))

/-! ### COUPLE -/

/-- A COUPLE order decided: the index, the entry, and then its own rule (R83). -/
def State.decideCouple (index : Byte) (act : State → Fin 48 → State × Answer) (s : State) :
    State × Answer :=
  match indexOf 48 index with
  | some c => if s.tow.couplings[c].state = .unused then (s, .refusedState) else act s c
  | none => (s, .range)

/-- The winch of a coupling that may be worked: named, and neither FAILED nor UNUSED (R84, R93). -/
def State.winchOf (s : State) (c : Fin 48) : Option (Fin 32) :=
  match s.tow.couplings[c].entry.winch with
  | some w => if s.nodes[w].state = .failed ∨ s.nodes[w].state = .unused then none else some w
  | none => none

/-- The coupling work field names another coupling (R84, R93). -/
def State.busyWith (s : State) (c : Fin 48) : Bool :=
  match s.tow.work with
  | some x => decide (x ≠ c)
  | none => false

/-- Coupling work begun: its state, phase and prior state, the work field and the wait timer (R84, R93). -/
def State.beginWork (s : State) (c : Fin 48) (x : CouplingState) (phase : Option ReleasePhase)
    (count : Nat) : State :=
  let s1 := s.modCoupling c fun k =>
    { k with
      prior := some k.state, state := x, phase := phase, count := count, waitAt := s.waitStart }
  { s1 with tow := { s1.tow with work := some c } }

/-- A COUPLE RELEASE decided (R84, R85). -/
def State.decideRelease (s : State) (c : Fin 48) : State × Answer :=
  let k := s.tow.couplings[c]
  match s.winchOf c with
  | some w =>
    if k.state = .slack ∨ k.state = .madeUp ∨ k.state = .alert then
      if s.busyWith c then (s, .refusedBusy)
      else
        let r := s.place w .winch .release (.tow c) (some k.entry.bearsOn)
        if r.2 = .taken then
          ((r.1.beginWork c .releasing (some .waitZero) k.count).formTow.orderRelease c, .taken)
        else (s, .refusedBusy)
    else (s, .refusedState)
  | none => (s, .refusedState)

/-- COUPLE RELEASE (R6, R84). -/
def execCoupleRelease (o : Origin) (index : Byte) (s : State) : Outcome :=
  .next (s.commanded o 0x04 (State.decideCouple index State.decideRelease))

/-- A COUPLE CANCEL decided (R91). -/
def State.decideCancel (s : State) (c : Fin 48) : State × Answer :=
  let k := s.tow.couplings[c]
  if k.state = .releasing ∧ k.phase = some .waitZero then
    (((s.endWork c k.returnState).noteState c).formTow, .taken)
  else (s, .refusedState)

/-- COUPLE CANCEL (R6, R91). -/
def execCoupleCancel (o : Origin) (index : Byte) (s : State) : Outcome :=
  .next (s.commanded o 0x04 (State.decideCouple index State.decideCancel))

/-- A COUPLE MAKE_UP decided (R93). -/
def State.decideMakeUp (s : State) (c : Fin 48) : State × Answer :=
  let k := s.tow.couplings[c]
  match s.winchOf c with
  | some w =>
    if k.state = .slack ∨ k.state = .released then
      if s.busyWith c then (s, .refusedBusy)
      else
        let r := s.place w .winch (.heave k.entry.heave) (.tow c) none
        if r.2 = .taken then ((r.1.beginWork c .makingUp none 0).formTow, .taken)
        else (s, .refusedBusy)
    else (s, .refusedState)
  | none => (s, .refusedState)

/-- COUPLE MAKE_UP (R6, R93). -/
def execCoupleMakeUp (o : Origin) (index : Byte) (s : State) : Outcome :=
  .next (s.commanded o 0x04 (State.decideCouple index State.decideMakeUp))

/-- A COUPLE ACCEPT_PARTED decided (R95). -/
def State.decideAccept (s : State) (c : Fin 48) : State × Answer :=
  let k := s.tow.couplings[c]
  if k.state = .parted then (s.moveCoupling c .released k.count, .taken) else (s, .refusedState)

/-- COUPLE ACCEPT_PARTED (R6, R95). -/
def execAcceptParted (o : Origin) (index : Byte) (s : State) : Outcome :=
  .next (s.commanded o 0x04 (State.decideCouple index State.decideAccept))

/-! ### Orders of no known form -/

/-- A COUPLE order of the right length whose sub-command is none of the four: R6 passes it on, and R83
answers it. -/
def unknownCouple (payload : List Byte) : Bool :=
  decide (payload.head? = some 0x04) && decide (payload.length = 3)

/-- ORDER_UNKNOWN (R6 check 1, R83, R157): answered UNKNOWN with its KIND, 00h where it has none. -/
def execOrderUnknown (o : Origin) (payload : List Byte) (s : State) : Outcome :=
  .next (if unknownCouple payload then s.commanded o 0x04 fun s1 => (s1, .unknown)
  else s.order o (payload.headD 0) fun s1 => (s1, .unknown))

end Sys2Proof.Machine
end

