-- ==== Sys2Proof/Machine/Expiries.lean ====
section
/-! DEFINITION. Machine/Expiries.lean: the running out of the timers. The command of an expiry is the event itself:
on a stopped timer it has no effect; on a running one the time base stands at the instant of the expiry, or
stays where it is if that has passed (R148; log entry 1). -/

namespace Sys2Proof.Machine

/-- An expiry of a timer with its effect. -/
def State.expire (s : State) (t : Timer) (act : State → State) : State :=
  match t with
  | some instant => act (s.reach instant)
  | none => s

/-- Helm loss (R11). -/
def State.loseHelm (s : State) : State :=
  let s1 := s.modHelm fun h =>
    { h with helm := .lost, remembered := some h.mode, mode := 7, guardAt := none }
  let s2 := { s1 with prop := { s1.prop with
    power := s1.profile.fallback, diffMode := .fixed, fixedDiff := 0 } }
  (s2.latch .helmLoss (s.helm.command.getD 0)).enterMode

/-- GUARD_EXPIRY (R11). -/
def execGuardExpiry (s : State) : Outcome :=
  .next (s.expire s.helm.guardAt State.loseHelm)

/-- STEP_EXPIRY (R37). -/
def execStepExpiry (i : Fin 6) (s : State) : Outcome :=
  .next (s.expire s.prop.engines[i].stepAt fun s1 => s1.takeStep i)

/-- DWELL_EXPIRY (R41). -/
def execDwellExpiry (i : Fin 6) (s : State) : Outcome :=
  .next (s.expire s.prop.engines[i].dwellAt fun s1 => s1.modEngine i s1.endDwell)

/-- DIVERGENCE_EXPIRY (R62). -/
def execDivergenceExpiry (i : Fin 5) (s : State) : Outcome :=
  .next (s.expire s.steer.actuators[i].divergeAt fun s1 => s1.diverge i)

/-- SAMPLE_SILENCE_EXPIRY (R76). -/
def execSampleSilenceExpiry (c : Fin 48) (s : State) : Outcome :=
  .next (s.expire s.tow.couplings[c].sampleAt fun s1 => s1.couplingUnheard c)

/-- HOLD_EXPIRY (R80). -/
def execHoldExpiry (b : Boat) (s : State) : Outcome :=
  .next (s.expire (s.tow.holdAt.get b) fun s1 => s1.holdEnds b)

/-- RELEASE_WAIT_EXPIRY (R88). -/
def execReleaseWaitExpiry (c : Fin 48) (s : State) : Outcome :=
  .next (if s.tow.couplings[c].state = .releasing then
    s.expire s.tow.couplings[c].waitAt fun s1 => s1.abandonRelease c
  else s)

/-- MAKEUP_WAIT_EXPIRY (R94). -/
def execMakeupWaitExpiry (c : Fin 48) (s : State) : Outcome :=
  .next (if s.tow.couplings[c].state = .makingUp then
    s.expire s.tow.couplings[c].waitAt fun s1 => s1.abandonMakeup c
  else s)

/-- METER_SILENCE_EXPIRY (R104). -/
def execMeterSilenceExpiry (i : Fin 16) (s : State) : Outcome :=
  .next (s.expire s.fuel.meters[i].silenceAt fun s1 => s1.startEstimating i)

/-- ESTIMATE_TICK (R104). -/
def execEstimateTick (i : Fin 16) (s : State) : Outcome :=
  .next (s.expire s.fuel.meters[i].tickAt fun s1 => s1.tick i)

/-- STALL_EXPIRY (R122). -/
def execStallExpiry (s : State) : Outcome :=
  .next (s.expire s.fuel.statement.stallAt fun s1 => s1.endStatement 1)

/-- SILENCE_EXPIRY (R131). -/
def execSilenceExpiry (n : Fin 32) (s : State) : Outcome :=
  .next (s.expire s.nodes[n].silenceAt fun s1 => s1.nodeSilent n)

/-- REFRESH_EXPIRY (R133): the timer restarts, and the expiry is handed on. -/
def execRefreshExpiry (n : Fin 32) (s : State) : Outcome :=
  .next (s.expire s.nodes[n].refreshAt fun s1 =>
    (s1.modNode n fun x => { x with refreshAt := s1.nodeRefresh n }).refresh n)

/-- ACK_TIMEOUT (R142, R143). -/
def execAckTimeout (i : Fin 16) (s : State) : Outcome :=
  .next (s.expire s.trans.slots[i].ackAt fun s1 => s1.slotTimeout i)

end Sys2Proof.Machine
end

