-- ==== Sys2Proof/Machine/Frames.lean ====
section
/-! DEFINITION. Machine/Frames.lean: the commands of plant frames: enrolment, acknowledgements, statuses and samples,
and SLOT_RELEASE. -/

namespace Sys2Proof.Machine

/-- ENROL (R129, R162). -/
def execEnrol (p : Port) (h : Header) (payload : List Byte) (s : State) : Outcome :=
  .next (s.receive p fun s => (s.frameEnd p).takeEnrol p h.src payload)

/-- ECHO (R140, R141). -/
def execEcho (p : Port) (o : Origin) (position : Half) (s : State) : Outcome :=
  .next (s.receive p fun s => (s.arrive p o.src).takeEcho p o position)

/-- FULL (R140, R141). -/
def execFull (p : Port) (o : Origin) (run : RunState) (load : Half) (alarmLevel : AlarmLevel)
    (s : State) : Outcome :=
  .next (s.receive p fun s => (s.arrive p o.src).takeFull p o run load alarmLevel)

/-- ACK_OF_NO_KIND (R158): it acts on the roster alone. -/
def execAckOfNoKind (p : Port) (o : Origin) (_payload : List Byte) (s : State) : Outcome :=
  .next (s.receive p fun s => s.arrive p o.src)

/-- ENGINE_STATUS (R20, R165, R166). -/
def execEngineStatus (p : Port) (h : Header) (run : RunState) (load : Half) (alarmLevel : AlarmLevel)
    (s : State) : Outcome :=
  .next (s.passage p ((Content.engineStatus run load alarmLevel).frame h) (.engineStatus run load alarmLevel))

/-- SLOT_RELEASE (R85). -/
def execSlotRelease (c : Fin 48) (s : State) : Outcome :=
  .next (s.orderRelease c)

/-- ACTUATOR_STATUS (R61, R165, R166). -/
def execActuatorStatus (p : Port) (h : Header) (position : Half) (flag : FaultFlag) (s : State) :
    Outcome :=
  .next (s.passage p ((Content.actuatorStatus position flag).frame h) (.actuatorStatus position flag))

/-- WINCH_STATUS (R77, R165, R166). -/
def execWinchStatus (p : Port) (h : Header) (condition : WinchCondition) (s : State) : Outcome :=
  .next (s.passage p ((Content.winchStatus condition).frame h) (.winchStatus condition))

/-- TENSION (R71, R165, R166). -/
def execTension (p : Port) (h : Header) (readings : List (Byte × Half)) (s : State) : Outcome :=
  .next (s.passage p ((Content.tension readings).frame h) (.tension readings))

/-- FLOW (R100, R165, R166). -/
def execFlow (p : Port) (h : Header) (readings : List (Byte × Quad)) (s : State) : Outcome :=
  .next (s.passage p ((Content.flow readings).frame h) (.flow readings))

/-- LEVEL (R113, R165, R166). -/
def execLevel (p : Port) (h : Header) (readings : List (Byte × Quad)) (s : State) : Outcome :=
  .next (s.passage p ((Content.level readings).frame h) (.level readings))

end Sys2Proof.Machine
end

