-- ==== Sys2Proof/Machine/Link.lean ====
section
/-! DEFINITION. Machine/Link.lean: power-on reset and the events of the link ports (chapter 7), with the sending of
frames from the lanes and queues (8.4), and the resumption of a paused statement (R121). -/

namespace Sys2Proof.Machine

/-- Time of one byte on the line in µs (R147). -/
def byteTime : Nat :=
  40

/-- Time of a transmission: LEN + 6 bytes back to back (R153). -/
def sendTime (f : Frame) : Nat :=
  (f.payload.length + 6) * byteTime

/-- KIND of a plant order (7.5.3). -/
def OrderKind.code : OrderKind → Byte
  | .setpoint => 0x11
  | .angle => 0x12
  | .bow => 0x13
  | .winch => 0x14

/-- Value bytes of a plant order (7.5.3). -/
def OrderValue.bytes : OrderValue → List Byte
  | .amount v => bytes2i v
  | .release => 1 :: bytes2 0
  | .heave target => 2 :: bytes2 target

/-- The ORDER frame of a slot, built at the take (R139, R153, R156). -/
def State.orderFrame (s : State) (x : Slot) : Frame :=
  s.build (s.nodes[x.target].entry.address.getD 0) 0 x.tag (x.kind.code :: x.value.bytes)

/-- A frame from the frame queue of a port, where one waits. -/
def State.queueHead (s : State) (p : Port) : Option (Source × Frame) :=
  (s.fwd.queues.get p).head?.map fun f => (.frameQueue, f)

/-- The frame of the slot at the head of an order lane, where one waits. -/
def State.laneHead (s : State) (p : PlantPort) : Option (Source × Frame) :=
  (s.trans.lane p).head?.map fun i => (.slot (some i), s.orderFrame s.trans.slots[i])

/-- The frame a transmitter takes next: the answer lane or order lane before the frame queue (R170). -/
def State.nextFrame (s : State) : Port → Option (Source × Frame)
  | .W => (s.fwd.answers.head?.map fun f => (.answerLane, f)).or (s.queueHead .W)
  | .M => (s.laneHead .M).or (s.queueHead .M)
  | .T => (s.laneHead .T).or (s.queueHead .T)

/-- The take of a frame: a slot becomes SENDING and leaves its lane; a frame of a queue or of the answer
lane keeps its place while it is sent (R139, R163, R170). -/
def State.takeSource (s : State) : Source → State
  | .slot (some i) => (s.modSlot i fun x => { x with state := .sending }).leaveLane i
  | _ => s

/-- A transmitter may take a frame, the idle time of the line apart (R153). A byte that is being received is no
condition of its own: a frame end is one command, and no row of the table begins a byte (log entry 10). -/
def Line.canTake (x : Line) : Bool :=
  decide (x.line = .up) && x.sending.isNone && decide (x.assembly = Assembly.empty)

/-- A transmission begun by a port at the present instant (R153). -/
def State.beginSending (s : State) (p : Port) (x : Source × Frame) : State :=
  (s.takeSource x.1).modLine p fun l =>
    { l with sending := some { source := x.1, frame := x.2, doneAt := s.now + sendTime x.2 } }

/-- TRANSMIT_START (R153, R170): the transmitter takes the next frame once the line has rested. -/
def State.startSending (s : State) (p : Port) : State :=
  if (s.link.ports.get p).canTake then
    match s.nextFrame p with
    | some x => (s.reach (s.link.ports.get p).gapAt).beginSending p x
    | none => s
  else s

/-- A transmit completion handed to the owner of the frame (R154). -/
def State.completeSource (s : State) (p : Port) : Source → State
  | .answerLane => { s with fwd := { s.fwd with answers := s.fwd.answers.tail } }
  | .frameQueue =>
    { s with fwd := { s.fwd with queues := s.fwd.queues.set p (s.fwd.queues.get p).tail } }
  | .slot (some i) =>
    s.modSlot i fun x =>
      if x.state = .sending then
        { x with
          state := .awaiting, ackAt := s.after (ms (s.nodes[x.target].entry.ackTimeout * 10)) }
      else x
  | .slot none => s

/-- TRANSMIT_COMPLETION (R154): the line has rested again 2 byte times later. -/
def State.endSending (s : State) (p : Port) : State :=
  match (s.link.ports.get p).sending with
  | some x =>
    let s1 := s.reach x.doneAt
    (s1.modLine p fun l => { l with sending := none, gapAt := s1.now + 2 * byteTime }).completeSource p
      x.source
  | none => s

/-- The frame queue of a port discarded (R171). -/
def State.discardQueue (s : State) (p : Port) : State :=
  { s with fwd := { s.fwd with queues := s.fwd.queues.set p [] } }

/-- A port goes DOWN (R150, R132, R171). -/
def State.breakLine (s : State) (p : Port) : State :=
  if (s.link.ports.get p).line = .up ∧ (s.link.ports.get p).sending.isNone then
    ((s.modLine p fun x => { x with line := .down, assembly := Assembly.empty }).silencePort
      p).discardQueue p
  else s

/-- A DOWN port returns UP at its first valid byte, which begins an assembly (R151). -/
def State.raiseLine (s : State) (p : Port) (first : Byte) : State :=
  if (s.link.ports.get p).line = .down then
    s.modLine p fun x =>
      { x with line := .up, assembly := { bytes := [first], inError := false, overlong := false } }
  else s

/-- A PAUSED statement finds a reserved buffer of port W free (R121). -/
def State.resumeStatement (s : State) : State :=
  if s.fuel.statement.state = .paused ∧ s.reservedFree .W then s.sendStatement else s

/-- POWER_ON_RESET (R189, R148). -/
def execPowerOnReset (s : State) : Outcome :=
  .next ({ State.reset with free := s.free, pending := s.pending })

/-- FRAME_DISCARD (R148, R149): a frame that is not good leaves no trace but the emptied assembly of its UP port;
a port that is sending has taken no byte of it. -/
def execFrameDiscard (p : Port) (s : State) : Outcome :=
  .next (s.receive p fun s => if (s.link.ports.get p).line = .up then s.frameEnd p else s)

/-- LINE_BREAK (R150). -/
def execLineBreak (p : Port) (s : State) : Outcome :=
  .next (s.breakLine p)

/-- LINE_UP (R151). -/
def execLineUp (p : Port) (first : Byte) (s : State) : Outcome :=
  .next (s.raiseLine p first)

/-- TRANSMIT_START (R153). -/
def execTransmitStart (p : Port) (s : State) : Outcome :=
  .next (s.startSending p)

/-- TRANSMIT_COMPLETION (R154). -/
def execTransmitCompletion (p : Port) (s : State) : Outcome :=
  .next (s.endSending p)

/-- STATEMENT_RESUME (R121). -/
def execStatementResume (s : State) : Outcome :=
  .next (s.resumeStatement)

end Sys2Proof.Machine
end

