-- ==== Sys2Proof/Machine/Tables.lean ====
section
/-! DEFINITION. Machine/Tables.lean: the table requests: TABLE_READ and TABLE_WRITE of each of the eleven tables
(10.2, R184, and the rules of the tables' chapters). -/

namespace Sys2Proof.Machine

/-- A TABLE_WRITE: its table's rule decides it, and the reply carries the table id and the index (R184,
R187). -/
def State.tableWrite (s : State) (o : Origin) (table index : Byte) (act : State → State × Status) :
    State :=
  s.request o fun s1 =>
    let r := act s1
    r.1.reply o 0x03 r.2 [table, index]

/-- An entry other than `i` meets `p`. -/
def othersMeet {α : Type} {n : Nat} (t : Table α n) (i : Fin n) (p : α → Bool) : Bool :=
  (List.finRange n).any fun j => decide (j ≠ i) && p t[j]

/-! ### STATION -/

/-- The other station entry holds an address (R5). -/
def HelmUnit.otherStation (h : HelmUnit) (i : Fin 2) : Option Byte :=
  if i = 0 then h.stations[(1 : Fin 2)] else h.stations[(0 : Fin 2)]

/-- A write of a station entry decided (R5). -/
def State.writeStation (index address : Byte) (s : State) : State × Status :=
  if ¬ s.moored then (s, .closed)
  else
    match indexOf 2 index with
    | some i =>
      if 128 ≤ address.toNat ∨ address = s.link.own ∨
          (address ≠ 0 ∧ s.helm.otherStation i = some address) then (s, .range)
      else
        (s.modHelm fun h =>
          { h with
            stations := h.stations.set i (stationOf address)
            command :=
              if h.command.isSome ∧ h.stations[i] = h.command ∧ stationOf address ≠ h.command then none
              else h.command },
          .done)
    | none => (s, .range)

/-- TABLE_WRITE of a station entry (R5, R184). -/
def execTableWriteStation (o : Origin) (index address : Byte) (s : State) : Outcome :=
  .next (s.tableWrite o 1 index (State.writeStation index address))

/-! ### ROSTER -/

/-- A write changes the port, the address or the kind of an entry (R127, R128). -/
def NodeEntry.differs (a b : NodeEntry) : Bool :=
  decide (a.port ≠ b.port) || decide (a.address ≠ b.address) || decide (a.kind ≠ b.kind)

/-- A node is the target of a slot that is not FREE (R127 check 5). -/
def State.isTarget (s : State) (n : Fin 32) : Bool :=
  s.trans.slots.toArray.toList.any fun x => decide (x.state ≠ .free) && decide (x.target = n)

/-- A node written with a new port, address or kind (R128). -/
def NodeEntry.started (e : NodeEntry) (x : Node) : Node :=
  { x with
    entry := e
    state := if e.address = none then .unused else .expected
    timeouts := 0
    silenceAt := none
    refreshAt := none }

/-- A node written with new times alone (R128). -/
def State.retimed (s : State) (e : NodeEntry) (x : Node) : Node :=
  { x with
    entry := e
    refreshAt :=
      if e.refresh = 0 then none
      else if x.refreshAt.isNone ∧ (x.state = .enrolled ∨ x.state = .silent) then
        s.after (ms (e.refresh * 100))
      else x.refreshAt }

/-- A taken roster write (R128). -/
def State.takeRoster (s : State) (n : Fin 32) (e : NodeEntry) : State :=
  if e.differs s.nodes[n].entry then
    let s1 := s.modNode n e.started
    if s1.nodes[n].state = s.nodes[n].state then s1 else s1.handOver n
  else s.modNode n (s.retimed e)

/-- A write of a roster entry decided (R127). -/
def State.writeRoster (index : Byte) (r : RosterRaw) (s : State) : State × Status :=
  if ¬ s.moored then (s, .closed)
  else
    match indexOf 32 index with
    | some n =>
      let e := RosterRaw.entry r
      if ¬ RosterRaw.inRange r then (s, .range)
      else if e.address.isSome ∧
          othersMeet s.nodes n fun x =>
            decide (x.entry.port = e.port) && decide (x.entry.address = e.address) then (s, .range)
      else if e.differs s.nodes[n].entry ∧ s.isTarget n then (s, .state)
      else (s.takeRoster n e, .done)
    | none => (s, .range)

/-- TABLE_WRITE of a roster entry (R127, R184). -/
def execTableWriteRoster (o : Origin) (index : Byte) (entry : RosterRaw) (s : State) : Outcome :=
  .next (s.tableWrite o 2 index (State.writeRoster index entry))

/-! ### PASSAGE and DEFAULT -/

/-- A write of a passage entry decided (R167). -/
def State.writePassage (index : Byte) (r : PassageRaw) (s : State) : State × Status :=
  if ¬ s.moored then (s, .closed)
  else
    match indexOf 64 index with
    | some i =>
      if ¬ PassageRaw.inRange r ∨ ((PassageRaw.entry r).action.passes ∧ (PassageRaw.entry r).ports.isEmpty) then (s, .range)
      else ({ s with fwd := { s.fwd with passage := s.fwd.passage.set i (PassageRaw.entry r) } }, .done)
    | none => (s, .range)

/-- TABLE_WRITE of a passage entry (R167, R184). -/
def execTableWritePassage (o : Origin) (index : Byte) (entry : PassageRaw) (s : State) : Outcome :=
  .next (s.tableWrite o 3 index (State.writePassage index entry))

/-- The port a default entry is for: 0 W, 1 M, 2 T (10.2). -/
def portOf (b : Byte) : Option Port :=
  if b = 0 then some .W else if b = 1 then some .M else if b = 2 then some .T else none

/-- A write of a port's default action decided (R167). -/
def State.writeDefault (index : Byte) (r : DefaultRaw) (s : State) : State × Status :=
  if ¬ s.moored then (s, .closed)
  else
    match portOf index with
    | some p =>
      if ¬ coded 4 r.action ∨ ¬ coded 4 r.job ∨
          ((DefaultRaw.entry r).action.passes ∧ (portSetOf (DefaultRaw.entry r).ports).isEmpty) then (s, .range)
      else ({ s with fwd := { s.fwd with defaults := s.fwd.defaults.set p (DefaultRaw.entry r) } }, .done)
    | none => (s, .range)

/-- TABLE_WRITE of a port's default action (R167, R184). -/
def execTableWriteDefault (o : Origin) (index : Byte) (entry : DefaultRaw) (s : State) : Outcome :=
  .next (s.tableWrite o 4 index (State.writeDefault index entry))

/-! ### MODE -/

/-- The guard after a write of the guard period of the profile in force (R10). -/
def State.guardWritten (s : State) : State :=
  if s.profile.guardPeriod = 0 then s.modHelm fun h => { h with guardAt := none }
  else if s.helm.guardAt.isNone then s.restartGuard
  else s

/-- A write of the profile in force changes what a recompute reads (R2, R26, R28). -/
def State.profileMoves (s : State) (old new : Profile) : Bool :=
  decide (old.aheadCeiling ≠ new.aheadCeiling) || decide (old.asternCeiling ≠ new.asternCeiling) ||
    (s.fuel.leg.reserve && decide (old.economyCeiling ≠ new.economyCeiling)) ||
    decide (old.gain ≠ new.gain)

/-- A taken mode write (R1, R2). -/
def State.takeMode (s : State) (m : Fin 8) (p : Profile) : State :=
  let s1 := s.modHelm fun h => { h with modes := h.modes.set m p }
  if m = s.helm.mode then
    (if s.profileMoves s.profile p ∨ s1.forcedHolds ≠ s1.steer.forced then s1.setForced.recompute
      else s1).formTow.guardWritten
  else s1

/-- A write of a mode profile decided (R1). -/
def State.writeMode (index : Byte) (r : ModeRaw) (s : State) : State × Status :=
  match indexOf 8 index with
  | some m => if (ModeRaw.entry r).inRange then (s.takeMode m (ModeRaw.entry r), .done) else (s, .range)
  | none => (s, .range)

/-- TABLE_WRITE of a mode profile (R1, R184). -/
def execTableWriteMode (o : Origin) (index : Byte) (entry : ModeRaw) (s : State) : Outcome :=
  .next (s.tableWrite o 5 index (State.writeMode index entry))

/-! ### ENGINE -/

/-- The state of an engine whose entry has been written (R18). -/
def State.engineStart (s : State) (e : EngineEntry) : EngineState :=
  match e.governor with
  | none => .absent
  | some g => if s.nodes[g].state = .enrolled then .standby else .lost

/-- An engine whose structure has been written: its runtime fields start again (R18). -/
def State.startedEngine (s : State) (e : EngineEntry) (x : Engine) : Engine :=
  s.formEngine { x with
    entry := e, state := s.engineStart e, health := .sound, load := 0, target := 0, setpoint := 0,
    lastSign := .unset, slew := .steady, stepAt := none, dwellAt := none }

/-- A taken engine write (R18). -/
def State.takeEngine (s : State) (i : Fin 6) (e : EngineEntry) (structural : Bool) : State :=
  (s.modEngine i fun x =>
    if structural then s.startedEngine e x else { x with entry := e }).formNominal.recompute

/-- An engine stands against a structure write (R17). -/
def Engine.engaged (x : Engine) : Bool :=
  decide (x.setpoint ≠ 0) || decide (x.slew = .dwelling) || decide (x.lastSign ≠ .unset)

/-- A write of an engine entry decided (R17). -/
def State.writeEngine (index : Byte) (r : EngineRaw) (s : State) : State × Status :=
  match indexOf 6 index with
  | some i =>
    let x := s.prop.engines[i]
    let structural := EngineRaw.changesStructure r x.entry
    if structural ∧ ¬ s.moored then (s, .closed)
    else
      match EngineRaw.entry? r with
      | some e =>
        if e.governor.isSome ∧ othersMeet s.prop.engines i fun y =>
            decide (y.entry.governor = e.governor) then (s, .range)
        else if structural ∧ x.engaged then (s, .state)
        else (s.takeEngine i e structural, .done)
      | none => (s, .range)
  | none => (s, .range)

/-- TABLE_WRITE of an engine entry (R17, R184). -/
def execTableWriteEngine (o : Origin) (index : Byte) (entry : EngineRaw) (s : State) : Outcome :=
  .next (s.tableWrite o 6 index (State.writeEngine index entry))

/-! ### ACTUATOR -/

/-- The state of an actuator whose entry has been written (R50). -/
def State.actuatorStart (s : State) (e : ActuatorEntry) : ActuatorState :=
  match e.node with
  | none => .absent
  | some n =>
    if s.nodes[n].state = .enrolled then .ready
    else if s.nodes[n].state = .failed then .fault
    else .lost

/-- A taken actuator write (R50). -/
def State.takeActuator (s : State) (i : Fin 5) (e : ActuatorEntry) : State :=
  let x := s.actuatorStart e
  let s1 := s.modActuator i fun _ =>
    { entry := e, state := x, reported := 0, divergeAt := none
      ordered := if x = .absent then 0 else s.orderedFor e }
  ((if x = .fault then s1.latch .actuatorFault (subjectOf i) else s1).placeOrdered i).reviewForced

/-- A write of an actuator entry decided (R49). -/
def State.writeActuator (index : Byte) (r : ActuatorRaw) (s : State) : State × Status :=
  if ¬ s.moored then (s, .closed)
  else
    match indexOf 5 index with
    | some i =>
      match ActuatorRaw.entry? r with
      | some e =>
        if e.node.isSome ∧ othersMeet s.steer.actuators i fun y =>
            decide (y.entry.node = e.node) then (s, .range)
        else (s.takeActuator i e, .done)
      | none => (s, .range)
    | none => (s, .range)

/-- TABLE_WRITE of an actuator entry (R49, R184). -/
def execTableWriteActuator (o : Origin) (index : Byte) (entry : ActuatorRaw) (s : State) : Outcome :=
  .next (s.tableWrite o 7 index (State.writeActuator index entry))

/-! ### COUPLING -/

/-- A coupling whose structure has been written: its runtime fields start again (R70). -/
def CouplingEntry.started (e : CouplingEntry) : Coupling where
  entry := e
  state := if e.sensor = none then .unused else .silent
  phase := none
  prior := none
  last := 0
  count := 0
  waitAt := none
  sampleAt := none

/-- A taken coupling write (R70). -/
def State.takeCoupling (s : State) (c : Fin 48) (e : CouplingEntry) (structural : Bool) : State :=
  if structural then (s.modCoupling c fun _ => e.started).formTow
  else s.modCoupling c fun k => { k with entry := e }

/-- Another coupling names the same sensor and channel, or the same winch (R69 check 4). -/
def State.couplingClash (s : State) (c : Fin 48) (e : CouplingEntry) : Bool :=
  othersMeet s.tow.couplings c fun k =>
    (e.sensor.isSome && decide (k.entry.sensor = e.sensor) && decide (k.entry.channel = e.channel)) ||
      (e.winch.isSome && decide (k.entry.winch = e.winch))

/-- A write of a coupling entry decided (R69). -/
def State.writeCoupling (index : Byte) (r : CouplingRaw) (s : State) : State × Status :=
  match indexOf 48 index with
  | some c =>
    let k := s.tow.couplings[c]
    let structural := CouplingRaw.changesStructure r k.entry
    if structural ∧ ¬ s.moored then (s, .closed)
    else
      match CouplingRaw.entry? r with
      | some e =>
        if s.couplingClash c e then (s, .range)
        else if k.state = .releasing ∨ k.state = .makingUp then (s, .state)
        else (s.takeCoupling c e structural, .done)
      | none => (s, .range)
  | none => (s, .range)

/-- TABLE_WRITE of a coupling entry (R69, R184). -/
def execTableWriteCoupling (o : Origin) (index : Byte) (entry : CouplingRaw) (s : State) : Outcome :=
  .next (s.tableWrite o 8 index (State.writeCoupling index entry))

/-! ### TANK -/

/-- A tank with a written entry; a new gauge drops the reading and the DISCREPANT flag (R110). -/
def TankEntry.written (e : TankEntry) (k : Tank) : Tank :=
  if e.gauge = k.entry.gauge ∧ e.channel = k.entry.channel then { k with entry := e }
  else { k with entry := e, reading := none, discrepant := false }

/-- A taken tank write (R110). -/
def State.takeTank (s : State) (t : Fin 8) (e : TankEntry) : State :=
  let k := s.fuel.tanks[t]
  let s1 := (s.modTank t e.written).testLow t
  if k.low ∧ s1.fuel.tanks[t].low ∧ k.entry.lowCeiling ≠ e.lowCeiling then s1.recompute else s1

/-- A write of a tank entry decided (R109). -/
def State.writeTank (index : Byte) (r : TankRaw) (s : State) : State × Status :=
  match indexOf 8 index with
  | some t =>
    let k := s.fuel.tanks[t]
    if TankRaw.changesStructure r k.entry ∧ ¬ s.moored then (s, .closed)
    else
      match TankRaw.entry? r with
      | some e =>
        if e.gauge.isSome ∧ othersMeet s.fuel.tanks t fun x =>
            decide (x.entry.gauge = e.gauge) && decide (x.entry.channel = e.channel) then (s, .range)
        else if e.capacity < k.quantity then (s, .state)
        else (s.takeTank t e, .done)
      | none => (s, .range)
  | none => (s, .range)

/-- TABLE_WRITE of a tank entry (R109, R184). -/
def execTableWriteTank (o : Origin) (index : Byte) (entry : TankRaw) (s : State) : Outcome :=
  .next (s.tableWrite o 9 index (State.writeTank index entry))

/-! ### METER -/

/-- A meter whose entry has been written: its runtime fields start again (R99). -/
def MeterEntry.started (e : MeterEntry) : Meter where
  entry := e
  state := if e.node = none then .unused else .baseline
  lastTotal := 0
  lastArrival := 0
  lastRate := 0
  accumulator := 0
  silenceAt := none
  tickAt := none

/-- A write of a meter entry decided (R98, R99). -/
def State.writeMeter (index : Byte) (r : MeterRaw) (s : State) : State × Status :=
  if ¬ s.moored then (s, .closed)
  else
    match indexOf 16 index with
    | some i =>
      match MeterRaw.entry? r with
      | some e =>
        if e.node.isSome ∧ othersMeet s.fuel.meters i fun m =>
            decide (m.entry.node = e.node) && decide (m.entry.channel = e.channel) then (s, .range)
        else (s.modMeter i fun _ => e.started, .done)
      | none => (s, .range)
    | none => (s, .range)

/-- TABLE_WRITE of a meter entry (R98, R184). -/
def execTableWriteMeter (o : Origin) (index : Byte) (entry : MeterRaw) (s : State) : Outcome :=
  .next (s.tableWrite o 10 index (State.writeMeter index entry))

/-! ### NOTICE_MAP -/

/-- The index in the notice map of a kind number 1..25. -/
def mapIndex (kind : Byte) : Option (Fin 25) :=
  if kind = 0 then none else indexOf 25 (kind - 1)

/-- A write of a notice map entry decided (R177). -/
def State.writeMap (kind channel : Byte) (s : State) : State × Status :=
  match mapIndex kind, indexOf 8 channel with
  | some i, some c =>
    ({ s with notices := { s.notices with map := s.notices.map.set i c } }, .done)
  | _, _ => (s, .range)

/-- TABLE_WRITE of a notice map entry (R177, R184). -/
def execTableWriteNoticeMap (o : Origin) (kind channel : Byte) (s : State) : Outcome :=
  .next (s.tableWrite o 11 kind (State.writeMap kind channel))

/-! ### TABLE_READ -/

/-- The bytes of a table entry, where the table has the index (R184). -/
def entryRead {α : Type} {n : Nat} (t : Table α n) (index : Byte) (f : α → List Byte) :
    Option (List Byte) :=
  (indexOf n index).map fun i => f t[i]

/-- The written fields of a table entry as held (10.2, R184). -/
def State.tableEntry (s : State) (table index : Byte) : Option (List Byte) :=
  if table = 1 then entryRead s.helm.stations index fun a => [addressByte a]
  else if table = 2 then entryRead s.nodes index fun x => x.entry.bytes
  else if table = 3 then entryRead s.fwd.passage index PassageEntry.bytes
  else if table = 4 then (portOf index).map fun p => (s.fwd.defaults.get p).bytes
  else if table = 5 then entryRead s.helm.modes index Profile.bytes
  else if table = 6 then entryRead s.prop.engines index fun e => e.entry.bytes
  else if table = 7 then entryRead s.steer.actuators index fun a => a.entry.bytes
  else if table = 8 then entryRead s.tow.couplings index fun k => k.entry.bytes
  else if table = 9 then entryRead s.fuel.tanks index fun k => k.entry.bytes
  else if table = 10 then entryRead s.fuel.meters index fun m => m.entry.bytes
  else if table = 11 then (mapIndex index).map fun i => [BitVec.ofNat 8 s.notices.map[i].val]
  else none

/-- The reply to a TABLE_READ (R184). -/
def State.readTable (o : Origin) (table index : Byte) (s : State) : State :=
  match s.tableEntry table index with
  | some bytes => s.reply o 0x02 .done ([table, index] ++ bytes)
  | none => s.reply o 0x02 .range []

/-- TABLE_READ (R184). -/
def execTableRead (o : Origin) (table index : Byte) (s : State) : Outcome :=
  .next (s.request o (State.readTable o table index))

end Sys2Proof.Machine
end

