-- ==== Sys2Proof/Machine/Reading.lean ====
section
/-! DEFINITION. Machine/Reading.lean: the records that STATE_READ returns, encoded field by field in key order
(10.3, R185; log entry 9 for the sizes the rule leaves to the range of a field). -/

namespace Sys2Proof.Machine

/-- A timer remaining: 4 bytes, in ms. -/
def State.timer (s : State) (t : Timer) : List Byte :=
  bytes4 (s.remaining t)

/-- A quantity of 4 bytes that may be none, preceded by 1 or 0. -/
def optional4 : Option Nat → List Byte
  | some n => 1 :: bytes4 n
  | none => 0 :: bytes4 0

/-- HELM: the helm record, keys a to f (1.5). -/
def State.readHelm (s : State) : List Byte :=
  [s.helm.helm.byte, byteOf s.helm.mode.val, indexByte s.helm.remembered, addressByte s.helm.command,
    flagByte s.helm.guardAt.isSome] ++ s.timer s.helm.guardAt

/-- ENGINE: keys l to z (2.1). -/
def State.readEngine (s : State) (e : Engine) : List Byte :=
  [e.state.byte, e.health.byte] ++ bytes2i e.load ++ bytes2i e.target ++ bytes2i e.setpoint ++
    [e.lastSign.byte, e.slew.byte] ++ s.timer e.stepAt ++ s.timer e.dwellAt ++
    bytes2 e.modeAhead ++ bytes2 e.modeAstern ++ bytes2 e.healthCeiling ++ bytes2 e.towCeiling ++
    bytes2 e.economyCeiling ++ bytes2 e.tankLowCeiling ++ bytes2 e.compositeAhead ++
    bytes2 e.compositeAstern

/-- PROPULSION: keys a to i (2.4). -/
def Propulsion.bytes (x : Propulsion) : List Byte :=
  bytes2i x.power ++ [x.diffMode.byte] ++ bytes2i x.fixedDiff ++ bytes2i x.diff ++ bytes2 x.nominal ++
    bytes4i x.demand ++ bytes4 x.unmet ++
    [x.wash.b1.byte, x.wash.b2.byte, flagByte x.zero.b1, flagByte x.zero.b2, flagByte x.zeroAll]

/-- ACCOUNT: keys a and b (5.2). -/
def Account.bytes (a : Account) : List Byte :=
  bytes6i a.total ++ bytes6i a.leg

/-- ACTUATOR: keys i to l (3.1). -/
def State.readActuator (s : State) (a : Actuator) : List Byte :=
  [a.state.byte] ++ bytes2i a.ordered ++ bytes2i a.reported ++ s.timer a.divergeAt

/-- STEERING: keys a to d (3.2). -/
def Steering.bytes (x : Steering) : List Byte :=
  bytes2i x.rudder ++ [x.bowMode.byte] ++ bytes2i x.bowDemand ++ [flagByte x.forced]

/-- COUPLING: keys l to r (4.1). -/
def State.readCoupling (s : State) (k : Coupling) : List Byte :=
  [k.state.byte, phaseByte k.phase, priorByte k.prior] ++ bytes2 k.last ++ bytes2 k.count ++
    s.timer k.waitAt ++ s.timer k.sampleAt

/-- TOW: keys a to d (4.3). -/
def State.readTow (s : State) : List Byte :=
  bytes2 s.tow.computed.b1 ++ bytes2 s.tow.computed.b2 ++ bytes2 s.tow.applied.b1 ++
    bytes2 s.tow.applied.b2 ++ s.timer s.tow.holdAt.b1 ++ s.timer s.tow.holdAt.b2 ++
    [indexByte s.tow.work]

/-- METER: keys h to n (5.1); the last good arrival modulo 2^32. The manual gives the accumulator no width: it is
held unbounded and carried in 6 bytes, modulo 2^48 (DESIGN CHOICE, log entry 22). -/
def State.readMeter (s : State) (m : Meter) : List Byte :=
  [m.state.byte] ++ bytes4 m.lastTotal ++ bytes4 m.lastArrival ++ bytes2 m.lastRate ++
    bytes6 m.accumulator ++ s.timer m.silenceAt ++ s.timer m.tickAt

/-- TANK: keys h to q (5.3). -/
def Tank.bytes (k : Tank) : List Byte :=
  bytes4 k.base ++ bytes6 k.additions ++ bytes6 k.deductions ++ bytes6 k.shortfall ++
    bytes6 k.overflow ++ bytes4 k.quantity ++ bytes6i k.bunkered ++ optional4 k.reading ++
    [flagByte k.low, flagByte k.discrepant]

/-- LEG: keys a to e (5.4). -/
def Leg.bytes (l : Leg) : List Byte :=
  [flagByte l.active] ++ bytes4 l.budget ++ bytes4 l.reserveMark ++ bytes6i l.consumed ++
    [flagByte l.reserve]

/-- STATEMENT: keys a to f (5.5). -/
def State.readStatement (s : State) : List Byte :=
  let x := s.fuel.statement
  [x.state.byte] ++ bytes2 x.number ++ [addressByte x.destination] ++ bytes2 x.blocks.length ++
    bytes2 x.next ++ s.timer x.stallAt

/-- ROSTER: keys g to k (6.1). -/
def State.readNode (s : State) (x : Node) : List Byte :=
  [x.state.byte] ++ bytes2 x.timeouts ++ s.timer x.silenceAt ++ s.timer x.refreshAt ++
    bytes2 x.nextTag.toNat

/-- Value of a slot: 3 bytes. -/
def OrderValue.record : OrderValue → List Byte
  | .amount v => 0 :: bytes2i v
  | .release => 1 :: bytes2 0
  | .heave target => 2 :: bytes2 target

/-- Owner of a slot: block and index. -/
def ownerBytes : Option Owner → List Byte
  | some (.propulsion i) => [0, byteOf i.val]
  | some (.steering i) => [1, byteOf i.val]
  | some (.tow i) => [2, byteOf i.val]
  | none => [0xFF, 0xFF]

/-- SLOT: keys a to i (6.3). -/
def State.readSlot (s : State) (x : Slot) : List Byte :=
  [byteOf x.target.val, x.kind.byte] ++ x.value.record ++ bytes2 x.tag.toNat ++ ownerBytes x.owner ++
    [conditionByte x.condition, yesByte x.kind.supersedable, x.state.byte] ++ s.timer x.ackAt

/-- A pending reservation as carried: FFh when none. -/
def pendingByte : Option Nat → Byte
  | some n => byteOf n
  | none => 0xFF

/-- BUFFERS: keys a to e (8.4), then the answer lane count. -/
def State.readBuffers (s : State) : List Byte :=
  let f := s.fwd
  bytes2 f.reserved.w ++ bytes2 f.reserved.m ++ bytes2 f.reserved.t ++ bytes2 f.pool ++
    [pendingByte f.pendingDecrease.w, pendingByte f.pendingDecrease.m,
      pendingByte f.pendingDecrease.t] ++
    bytes2 f.queues.w.length ++ bytes2 f.queues.m.length ++ bytes2 f.queues.t.length ++
    bytes2 f.poolInUse ++ bytes2 f.answers.length

/-- LINK: line state of W, M and T. -/
def Link.bytes (x : Link) : List Byte :=
  [x.ports.w.line.byte, x.ports.m.line.byte, x.ports.t.line.byte]

/-- CHANNEL: the master enable, then the channel's arm state, auto-disarm and overflow marker (9.3). -/
def NoticeUnit.channelBytes (u : NoticeUnit) (c : Channel) : List Byte :=
  [flagByte u.master, flagByte c.armed, flagByte c.autoDisarm, flagByte c.overflow]

/-- A record of one index, 0. -/
def single (index : Byte) (bytes : List Byte) : Option (List Byte) :=
  if index = 0 then some bytes else none

/-- The encoding of a record, where the code and the index name one (R185). -/
def State.record (s : State) (code index : Byte) : Option (List Byte) :=
  if code = 1 then single index s.readHelm
  else if code = 2 then entryRead s.prop.engines index s.readEngine
  else if code = 3 then single index s.prop.bytes
  else if code = 4 then entryRead s.fuel.accounts index Account.bytes
  else if code = 5 then entryRead s.steer.actuators index s.readActuator
  else if code = 6 then single index s.steer.bytes
  else if code = 7 then entryRead s.tow.couplings index s.readCoupling
  else if code = 8 then single index s.readTow
  else if code = 9 then entryRead s.fuel.meters index s.readMeter
  else if code = 10 then entryRead s.fuel.tanks index Tank.bytes
  else if code = 11 then single index s.fuel.leg.bytes
  else if code = 12 then single index s.readStatement
  else if code = 13 then entryRead s.nodes index s.readNode
  else if code = 14 then entryRead s.trans.slots index s.readSlot
  else if code = 15 then single index s.readBuffers
  else if code = 16 then single index s.link.bytes
  else if code = 17 then entryRead s.notices.channels index s.notices.channelBytes
  else none

/-- Pages of 18 bytes that an encoding is cut into (R185). -/
def pageCount (bytes : List Byte) : Nat :=
  (bytes.length + 17) / 18

/-- The bytes of one page. -/
def pageOf (bytes : List Byte) (page : Nat) : List Byte :=
  (bytes.drop (18 * page)).take 18

/-- The reply to a STATE_READ (R185). -/
def State.readState (o : Origin) (code index page : Byte) (s : State) : State :=
  match s.record code index with
  | some bytes =>
    if page.toNat < pageCount bytes then
      s.reply o 0x04 .done ([code, index, page, byteOf (pageCount bytes)] ++ pageOf bytes page.toNat)
    else s.reply o 0x04 .range []
  | none => s.reply o 0x04 .range []

/-- STATE_READ (R185). -/
def execStateRead (o : Origin) (code index page : Byte) (s : State) : Outcome :=
  .next (s.request o (State.readState o code index page))

end Sys2Proof.Machine
end

