-- ==== Sys2Proof/Machine/Flags.lean ====
section
/-! DEFINITION. Machine/Flags.lean: the conditions of the level notices, which a clear asks their owners for
(R176), and the removal of notices with the latches made again by it (R176, R180, R181). -/

namespace Sys2Proof.Machine

/-- The entry of a table that a subject names, tested. -/
def subjectHolds {α : Type} {n : Nat} (t : Table α n) (subject : Byte) (p : α → Bool) : Bool :=
  match indexOf n subject with
  | some i => p t[i]
  | none => false

/-- The condition of a kind and subject holds (R176); an edge kind has none. -/
def State.holds (s : State) (n : Notice) : Bool :=
  match n.kind with
  | .engineLost => subjectHolds s.prop.engines n.subject fun e => decide (e.state = .lost)
  | .unmetDemand => decide (0 < s.prop.unmet)
  | .actuatorFault => subjectHolds s.steer.actuators n.subject fun a => decide (a.state = .fault)
  | .actuatorDiverged => subjectHolds s.steer.actuators n.subject fun a => decide (a.state = .diverged)
  | .couplingAlert => subjectHolds s.tow.couplings n.subject fun k => decide (k.state = .alert)
  | .couplingOverload => subjectHolds s.tow.couplings n.subject fun k => decide (k.state = .overload)
  | .couplingParted => subjectHolds s.tow.couplings n.subject fun k => decide (k.state = .parted)
  | .couplingSilent => subjectHolds s.tow.couplings n.subject fun k => decide (k.state = .silent)
  | .helmLoss => decide (s.helm.helm = .lost)
  | .nodeSilent => subjectHolds s.nodes n.subject fun x => decide (x.state = .silent)
  | .nodeFailed => subjectHolds s.nodes n.subject fun x => decide (x.state = .failed)
  | .fuelReserve => s.fuel.leg.reserve
  | .tankLow => subjectHolds s.fuel.tanks n.subject fun k => k.low
  | .tankDiscrepancy => subjectHolds s.fuel.tanks n.subject fun k => k.discrepant
  | .meterEstimating => subjectHolds s.fuel.meters n.subject fun m => decide (m.state = .estimating)
  | .engineTrip => false
  | .releaseDone => false
  | .releaseAbandoned => false
  | .makeupAbandoned => false
  | .commandTransfer => false
  | .nodeEnrolled => false
  | .enrolMismatch => false
  | .meterReset => false
  | .statementEnd => false
  | .forwardLost => false

/-- A pair latched again by a clear, where its condition holds (R176); with it, whether a REPORT of the clear
has been lost so far. -/
def relatch (r : State × Bool) (n : Notice) : State × Bool :=
  if r.1.holds n then
    let q := r.1.note n.kind n.subject
    (q.1, r.2 || q.2)
  else r

/-- The entries of a list removed from the notice list, the others keeping their order (R176). -/
def State.removeNotices (s : State) (ns : List Notice) : State :=
  { s with notices := { s.notices with list := s.notices.list.filter fun n => n ∉ ns } }

/-- A clear of entries: removal, then the latches made again in the order they held (R176). Each new latch
finds the place its entry gave up, so it is always recorded: the FORWARD_LOST of a REPORT lost by any of them
is latched once, after them all (DEDUCED, log entry 24). -/
def State.clearNotices (s : State) (ns : List Notice) : State :=
  lossNoted (ns.foldl relatch (s.removeNotices ns, false))

end Sys2Proof.Machine
end

