-- ==== Sys2Proof/Machine/Requests.lean ====
section
/-! DEFINITION. Machine/Requests.lean: the management requests other than the table and state requests and RESTART
(chapter 10, and the rules of the blocks that own them). -/

namespace Sys2Proof.Machine

/-- IDENTIFY: family code 53h, part number 240, revision 1, own address (R186). -/
def State.identity (o : Origin) (s : State) : State :=
  s.reply o 0x01 .done ([0x53] ++ bytes2 240 ++ [1, s.link.own])

/-- IDENTIFY (R186). -/
def execIdentify (o : Origin) (s : State) : Outcome :=
  .next (s.request o (State.identity o))

/-! ### ALLOCATE (R172) -/

/-- The reservation of a port after an increase. -/
def increased (reserved new : Nat) : Nat :=
  max reserved new

/-- The pending reservation of a port after an ALLOCATE. -/
def decreased (reserved new : Nat) : Option Nat :=
  if new < reserved then some new else none

/-- The forwarding record an ALLOCATE leaves, or `none` where it is answered RANGE. -/
def Forwarding.allocated (f : Forwarding) (w m t : Nat) : Option Forwarding :=
  let r : PerPort Nat :=
    { w := increased f.reserved.w w, m := increased f.reserved.m m, t := increased f.reserved.t t }
  let amount := (r.w - f.reserved.w) + (r.m - f.reserved.m) + (r.t - f.reserved.t)
  let g := { f with
    reserved := r
    pool := f.pool - amount
    pendingDecrease := {
      w := decreased f.reserved.w w
      m := decreased f.reserved.m m
      t := decreased f.reserved.t t } }
  if w < 2 ∨ m < 2 ∨ t < 2 ∨ f.pool < amount + 4 ∨ g.pool < g.poolInUse then none else some g

/-- Reply body of an ALLOCATE (R187). -/
def Forwarding.allocationBytes (f : Forwarding) : List Byte :=
  [byteOf f.reserved.w, byteOf f.reserved.m, byteOf f.reserved.t, byteOf f.pool,
    pendingByte f.pendingDecrease.w, pendingByte f.pendingDecrease.m, pendingByte f.pendingDecrease.t]

/-- An ALLOCATE decided (R172). -/
def State.takeAllocate (o : Origin) (w m t : Byte) (s : State) : State :=
  if ¬ s.moored then s.reply o 0x05 .closed []
  else
    match s.fwd.allocated w.toNat m.toNat t.toNat with
    | some f => { s with fwd := f }.reply o 0x05 .done f.allocationBytes
    | none => s.reply o 0x05 .range []

/-- ALLOCATE (R172). -/
def execAllocate (o : Origin) (w m t : Byte) (s : State) : Outcome :=
  .next (s.request o (State.takeAllocate o w m t))

/-! ### SET_ADDRESS (R186) -/

/-- A SET_ADDRESS decided: the reply carries the new address as its SRC. -/
def State.takeAddress (o : Origin) (address : Byte) (s : State) : State :=
  if ¬ s.moored then s.reply o 0x06 .closed []
  else if address = 0 ∨ 127 < address.toNat ∨ s.helm.lists address then s.reply o 0x06 .range []
  else { s with link := { s.link with own := address } }.reply o 0x06 .done []

/-- SET_ADDRESS (R186). -/
def execSetAddress (o : Origin) (address : Byte) (s : State) : Outcome :=
  .next (s.request o (State.takeAddress o address))

/-! ### Notices -/

/-- The values of a NOTICE_SETUP set (R178). -/
def State.setUp (s : State) (c : Fin 8) (master arm autoDisarm : Byte) : State :=
  { s with notices := { s.notices with
    master := decide (master ≠ 0)
    channels := modTable s.notices.channels c fun x =>
      { x with armed := decide (arm ≠ 0), autoDisarm := decide (autoDisarm ≠ 0) } } }

/-- The REPORT of a channel that has become reportable, where it holds entries (R178). -/
def State.reportNew (s : State) (c : Fin 8) : State :=
  if s.notices.reportable c ∧ s.notices.entriesOf c ≠ [] then s.buildReport c else s

/-- A NOTICE_SETUP carried out (R178). -/
def State.takeSetup (s : State) (c : Fin 8) (master arm autoDisarm : Byte) : State :=
  let s1 := s.setUp c master arm autoDisarm
  ((List.finRange 8).filter fun d => s1.notices.reportable d && !s.notices.reportable d).foldl
    State.reportNew s1

/-- A NOTICE_SETUP decided (R178). -/
def State.decideSetup (o : Origin) (master channel arm autoDisarm : Byte) (s : State) : State :=
  match indexOf 8 channel with
  | some c => (s.takeSetup c master arm autoDisarm).reply o 0x07 .done []
  | none => s.reply o 0x07 .range []

/-- NOTICE_SETUP (R178). -/
def execNoticeSetup (o : Origin) (master channel arm autoDisarm : Byte) (s : State) : Outcome :=
  .next (s.request o (State.decideSetup o master channel arm autoDisarm))

/-- Overflow marker of a channel CLEAR (R180). -/
def State.clearOverflow (s : State) (c : Fin 8) : State :=
  { s with notices := { s.notices with
    channels := modTable s.notices.channels c fun x => { x with overflow := false } } }

/-- A NOTICE_READ decided (R180). -/
def State.readNotices (o : Origin) (channel clear : Byte) (s : State) : State :=
  match indexOf 8 channel with
  | some c =>
    let ns := s.notices.carried c
    let body := [s.notices.flags c, byteOf ns.length] ++ noticeBytes ns
    (if clear = 0 then s else (s.clearOverflow c).clearNotices ns).reply o 0x08 .done body
  | none => s.reply o 0x08 .range []

/-- NOTICE_READ (R180). -/
def execNoticeRead (o : Origin) (channel clear : Byte) (s : State) : Outcome :=
  .next (s.request o (State.readNotices o channel clear))

/-- The entries a NOTICE_CLEAR names (R181). -/
def NoticeUnit.named (u : NoticeUnit) (i : Fin 25) (selector subject : Byte) : List Notice :=
  u.list.filter fun n =>
    decide (n.kind.index = i) && (decide (selector ≠ 0) || decide (n.subject = subject))

/-- A NOTICE_CLEAR decided (R181). -/
def State.takeClear (o : Origin) (kind selector subject : Byte) (s : State) : State :=
  match mapIndex kind with
  | some i =>
    let ns := s.notices.named i selector subject
    (s.clearNotices ns).reply o 0x09 .done [byteOf ns.length]
  | none => s.reply o 0x09 .range []

/-- NOTICE_CLEAR (R181). -/
def execNoticeClear (o : Origin) (kind selector subject : Byte) (s : State) : Outcome :=
  .next (s.request o (State.takeClear o kind selector subject))

/-! ### Fuel -/

/-- A tank after a FUEL_PRESET (R114). -/
def Tank.preset (k : Tank) (quantity : Nat) : Tank :=
  { k with
    base := quantity, quantity := quantity, additions := 0, deductions := 0, shortfall := 0,
    overflow := 0 }

/-- A FUEL_PRESET decided (R114). -/
def State.takePreset (o : Origin) (tank : Byte) (quantity : Quad) (s : State) : State :=
  match indexOf 8 tank with
  | some t =>
    if s.fuel.tanks[t].entry.capacity < quantity.toNat then s.reply o 0x0A .range []
    else
      (((s.modTank t fun k => k.preset quantity.toNat).testLow t).testDiscrepant t).reply o 0x0A .done []
  | none => s.reply o 0x0A .range []

/-- FUEL_PRESET (R114). -/
def execFuelPreset (o : Origin) (tank : Byte) (quantity : Quad) (s : State) : Outcome :=
  .next (s.request o (State.takePreset o tank quantity))

/-- A leg opened (R115). -/
def State.openLeg (s : State) (budget mark : Nat) : State :=
  State.testReserve { s with fuel := { s.fuel with
    accounts := mapTable (fun a => { a with leg := 0 }) s.fuel.accounts
    leg := { s.fuel.leg with active := true, budget := budget, reserveMark := mark, consumed := 0 } } }

/-- A LEG_START decided (R115). -/
def State.takeLeg (o : Origin) (budget mark : Quad) (s : State) : State :=
  if 2000000000 < budget.toNat ∨ 2000000000 < mark.toNat then s.reply o 0x0B .range []
  else (s.openLeg budget.toNat mark.toNat).reply o 0x0B .done []

/-- LEG_START (R115). -/
def execLegStart (o : Origin) (budget mark : Quad) (s : State) : Outcome :=
  .next (s.request o (State.takeLeg o budget mark))

/-- A statement begun (R117, R119). -/
def State.beginStatement (s : State) (destination : Byte) : State :=
  s.modStatement fun x =>
    { x with
      number := (x.number + 1) % 256, destination := some destination, next := 1,
      blocks := s.snapshot }

/-- A STATEMENT_START decided (R117). -/
def State.takeStatement (o : Origin) (s : State) : State :=
  if s.fuel.statement.state = .paused then s.reply o 0x0C .busy []
  else
    let s1 := (s.beginStatement o.src).sendStatement
    s1.reply o 0x0C .done [byteOf s1.fuel.statement.number, byteOf s1.fuel.statement.blocks.length]

/-- STATEMENT_START (R117). -/
def execStatementStart (o : Origin) (s : State) : Outcome :=
  .next (s.request o (State.takeStatement o))

/-- A STATEMENT_ABORT decided (R124). -/
def State.takeAbort (o : Origin) (s : State) : State :=
  if s.fuel.statement.state = .paused then
    (s.modStatement fun x => { x with state := .idle, stallAt := none }).reply o 0x0D .done []
  else s.reply o 0x0D .state []

/-- STATEMENT_ABORT (R124). -/
def execStatementAbort (o : Origin) (s : State) : Outcome :=
  .next (s.request o (State.takeAbort o))

/-! ### Requests of no known form (R183) -/

/-- Status of a request that R183 decides at its steps 1 to 3. -/
def unknownStatus (payload : List Byte) : Status :=
  match payload with
  | code :: table :: _ =>
    if (code = 0x02 ∨ code = 0x03) ∧ entryBytes table = none then .range else .unknown
  | _ => .unknown

/-- Table id and index in the reply to a TABLE_WRITE, which carries them whatever its status (R187); a byte
the request does not hold is free (log entry 4). -/
def State.writeBody (s : State) (rest : List Byte) : List Byte × State :=
  match rest with
  | table :: index :: _ => ([table, index], s)
  | [table] => ([table, s.freeByte.1], s.freeByte.2)
  | [] =>
    let r := s.freeByte.2.freeByte
    ([s.freeByte.1, r.1], r.2)

/-- A request decided at steps 1 to 3 of R183. -/
def State.takeUnknown (o : Origin) (payload : List Byte) (s : State) : State :=
  match payload with
  | [] => s.reply o 0x00 .unknown []
  | code :: rest =>
    if code = 0x03 then
      let r := s.writeBody rest
      r.2.reply o code (unknownStatus payload) r.1
    else s.reply o code (unknownStatus payload) []

/-- MGMT_UNKNOWN (R183). -/
def execMgmtUnknown (o : Origin) (payload : List Byte) (s : State) : Outcome :=
  .next (s.request o (State.takeUnknown o payload))

end Sys2Proof.Machine
end

