-- ==== Sys2Proof/Machine/Restart.lean ====
section
/-! DEFINITION. Machine/Restart.lean: the warm restart (R188): each block by its own restart rule, at one event. -/

namespace Sys2Proof.Machine

/-- Mode and helm unit (R16). -/
def HelmUnit.restarted (h : HelmUnit) : HelmUnit :=
  { h with mode := 0, helm := .normal, remembered := none, command := none, guardAt := none }

/-- The state of a coupling across a restart (R97). -/
def CouplingState.restarted : CouplingState → CouplingState
  | .unused => .unused
  | .released => .released
  | .parted => .parted
  | _ => .silent

/-- A coupling across a restart (R97). -/
def Coupling.restarted (k : Coupling) : Coupling :=
  { k with
    state := k.state.restarted, phase := none, prior := none, count := 0, waitAt := none,
    sampleAt := none }

/-- Coupling supervisor (R97), under profile 0: each applied tow ceiling takes its computed value. -/
def Tow.restarted (x : Tow) (p : Profile) : Tow :=
  let t := mapTable Coupling.restarted x.couplings
  let c : PerBoat Nat := { b1 := computedCeiling t p .b1, b2 := computedCeiling t p .b2 }
  { couplings := t, computed := c, applied := c, holdAt := { b1 := none, b2 := none }, work := none }

/-- A meter across a restart (R126). -/
def State.restartedMeter (s : State) (m : Meter) : Meter :=
  if m.state = .counting ∨ m.state = .estimating then
    { m with
      state := .counting, tickAt := none
      silenceAt :=
        match m.entry.node with
        | some n => s.meterSilence n
        | none => none }
  else m

/-- Fuel accounting unit (R126). -/
def State.restartedFuel (s : State) : Fuel :=
  { s.fuel with
    meters := mapTable s.restartedMeter s.fuel.meters
    statement := { s.fuel.statement with state := .idle, stallAt := none } }

/-- A roster entry across a restart (R146). -/
def Node.restarted (x : Node) : Node :=
  { x with
    state := if x.entry.address = none then .unused else .expected
    timeouts := 0
    silenceAt := none
    refreshAt := none }

/-- The transaction unit (R146): every slot FREE, both lanes empty. -/
def Transactions.restarted (x : Transactions) : Transactions where
  slots := mapTable (fun y => { y with state := .free, ackAt := none }) x.slots
  laneM := []
  laneT := []

/-- A port (R151): a slot freed while SENDING is parted from the frame on the line (R154). -/
def Line.restarted (x : Line) : Line :=
  { x with sending := x.sending.map fun t =>
      match t.source with
      | .slot _ => { t with source := .slot none }
      | _ => t }

/-- The link ports (R151, R152). -/
def Link.restarted (x : Link) : Link :=
  { x with ports := {
      w := x.ports.w.restarted
      m := x.ports.m.restarted
      t := x.ports.t.restarted } }

/-- The frames of a queue or lane that stay across a restart: the one being sent from it (R174). -/
def keptFrames (l : Line) (source : Source) (frames : List Frame) : List Frame :=
  match l.sending with
  | some t => if t.source = source then frames.take 1 else []
  | none => []

/-- The buffers a pending decrease gives up (R172). -/
def givenUp (reserved : Nat) : Option Nat → Nat
  | some n => reserved - n
  | none => 0

/-- Intake and forwarding (R172, R174). -/
def State.restartedForwarding (s : State) : Forwarding :=
  let f := s.fwd
  { f with
    reserved := {
      w := f.pendingDecrease.w.getD f.reserved.w
      m := f.pendingDecrease.m.getD f.reserved.m
      t := f.pendingDecrease.t.getD f.reserved.t }
    pool := f.pool + givenUp f.reserved.w f.pendingDecrease.w + givenUp f.reserved.m f.pendingDecrease.m +
      givenUp f.reserved.t f.pendingDecrease.t
    pendingDecrease := { w := none, m := none, t := none }
    queues := {
      w := keptFrames s.link.ports.w .frameQueue f.queues.w
      m := keptFrames s.link.ports.m .frameQueue f.queues.m
      t := keptFrames s.link.ports.t .frameQueue f.queues.t }
    answers := keptFrames s.link.ports.w .answerLane f.answers }

/-- Notice unit (R182). -/
def NoticeUnit.restarted (u : NoticeUnit) : NoticeUnit :=
  { u with list := [], channels := mapTable (fun c => { c with overflow := false }) u.channels }

/-- An actuator across a restart (R68). -/
def Actuator.restarted (a : Actuator) : Actuator :=
  { a with
    state := if a.entry.node = none then .absent else .lost
    ordered := 0
    reported := 0
    divergeAt := none }

/-- The steering coordinator (R68), the forced steer-assist condition apart. -/
def Steering.restarted (x : Steering) : Steering :=
  { x with
    actuators := mapTable Actuator.restarted x.actuators
    rudder := 0
    bowMode := .follow
    bowDemand := 0 }

/-- An engine across a restart (R48), its ceiling components apart. -/
def Engine.restarted (e : Engine) : Engine :=
  { e with
    state := if e.entry.governor = none then .absent else .lost
    health := .sound
    load := 0
    target := 0
    setpoint := 0
    lastSign := .unset
    slew := .steady
    stepAt := none
    dwellAt := none }

/-- The propulsion coordinator (R48): every component is formed from mode 0, the applied tow ceilings, the
fuel reserve condition and the LOW flags that `s` holds. -/
def State.restartedPropulsion (s : State) : Propulsion :=
  let t := mapTable (fun e => s.reformEngine e.restarted) s.prop.engines
  { engines := t, power := 0, diffMode := .fixed, fixedDiff := 0, diff := 0
    nominal := nominalPower t, demand := 0, unmet := 0
    wash := { b1 := .ahead, b2 := .ahead }
    zero := { b1 := true, b2 := true }
    zeroAll := true }

/-- Every block but propulsion and the forced steer-assist condition by its restart rule (R188). -/
def State.restartedBlocks (s : State) : State :=
  { s with
    helm := s.helm.restarted
    steer := s.steer.restarted
    tow := s.tow.restarted s.helm.modes[(0 : Fin 8)]
    fuel := s.restartedFuel
    nodes := mapTable Node.restarted s.nodes
    trans := s.trans.restarted
    link := s.link.restarted
    fwd := s.restartedForwarding
    notices := s.notices.restarted }

/-- The warm restart (R188). -/
def State.warmRestart (s : State) : State :=
  let s1 := s.restartedBlocks
  { s1 with prop := s1.restartedPropulsion }.setForced

/-- A RESTART decided (R188): the reply is placed after the answer lane is emptied. -/
def State.takeRestart (o : Origin) (s : State) : State :=
  if s.moored then s.warmRestart.reply o 0x0E .done [] else s.reply o 0x0E .closed []

/-- RESTART (R188). -/
def execRestart (o : Origin) (s : State) : Outcome :=
  .next (s.request o (State.takeRestart o))

end Sys2Proof.Machine
end

