-- ==== Sys2Proof/Machine/Fixed.lean ====
section
/-! DEFINITION. Machine/Fixed.lean: PASSAGE_FRAME. Fixed intake compares a frame with the own address in force at
its frame end (R162), which a SET_ADDRESS ahead of it in the queue may have changed: a frame addressed to the own
address, or an ENROL, is then the command that `classify` finds in it, and any other is looked up in the passage
table. -/

namespace Sys2Proof.Machine

/-- What a frame that fixed intake takes does: the meaning of the command it gives (R162). Fixed intake gives an
order, a request, an ACK or an ENROL and no other command. -/
def takeFixed (i : Instr) (s : State) : Outcome :=
  match i with
  | .propel o power mode differential flags => execPropel o power mode differential flags s
  | .steer o rudder bowMode bow => execSteer o rudder bowMode bow s
  | .convoyMode o code => execConvoyMode o code s
  | .takeCommand o selector => execTakeCommand o selector s
  | .helmResume o selector => execHelmResume o selector s
  | .orderUnknown o payload => execOrderUnknown o payload s
  | .coupleRelease o index => execCoupleRelease o index s
  | .coupleCancel o index => execCoupleCancel o index s
  | .coupleMakeUp o index => execCoupleMakeUp o index s
  | .acceptParted o index => execAcceptParted o index s
  | .enrol port h payload => execEnrol port h payload s
  | .echo port o position => execEcho port o position s
  | .full port o run load alarmLevel => execFull port o run load alarmLevel s
  | .ackOfNoKind port o payload => execAckOfNoKind port o payload s
  | .identify o => execIdentify o s
  | .tableRead o table index => execTableRead o table index s
  | .tableWriteStation o index address => execTableWriteStation o index address s
  | .tableWriteRoster o index entry => execTableWriteRoster o index entry s
  | .tableWritePassage o index entry => execTableWritePassage o index entry s
  | .tableWriteDefault o index entry => execTableWriteDefault o index entry s
  | .tableWriteMode o index entry => execTableWriteMode o index entry s
  | .tableWriteEngine o index entry => execTableWriteEngine o index entry s
  | .tableWriteActuator o index entry => execTableWriteActuator o index entry s
  | .tableWriteCoupling o index entry => execTableWriteCoupling o index entry s
  | .tableWriteTank o index entry => execTableWriteTank o index entry s
  | .tableWriteMeter o index entry => execTableWriteMeter o index entry s
  | .tableWriteNoticeMap o kind channel => execTableWriteNoticeMap o kind channel s
  | .stateRead o record index page => execStateRead o record index page s
  | .allocate o w m t => execAllocate o w m t s
  | .setAddress o address => execSetAddress o address s
  | .noticeSetup o master channel arm autoDisarm => execNoticeSetup o master channel arm autoDisarm s
  | .noticeRead o channel clear => execNoticeRead o channel clear s
  | .noticeClear o kind selector subject => execNoticeClear o kind selector subject s
  | .fuelPreset o tank quantity => execFuelPreset o tank quantity s
  | .legStart o budget reserve => execLegStart o budget reserve s
  | .statementStart o => execStatementStart o s
  | .statementAbort o => execStatementAbort o s
  | .restart o => execRestart o s
  | .mgmtUnknown o payload => execMgmtUnknown o payload s
  | _ => .next s

/-- PASSAGE_FRAME (R162, R165): a frame that no block reads, unless fixed intake takes it under the own address in
force. -/
def execPassageFrame (p : Port) (f : Frame) (s : State) : Outcome :=
  if fixedIntake s.link.own p f then takeFixed (classify s.link.own p f) s
  else .next (s.passage p f (contentOf f))

end Sys2Proof.Machine
end

