-- ==== Sys2Proof/Machine/Dispatch.lean ====
section
/-! DEFINITION. Machine/Dispatch.lean: the meaning of each command. -/

namespace Sys2Proof.Machine

def exec (i : Instr) (s : State) : Host.Outcome State Fault Refusal :=
  match i with
  | .powerOnReset => Sys2Proof.Machine.execPowerOnReset s
  | .frameDiscard port => Sys2Proof.Machine.execFrameDiscard port s
  | .lineBreak port => Sys2Proof.Machine.execLineBreak port s
  | .lineUp port first => Sys2Proof.Machine.execLineUp port first s
  | .transmitStart port => Sys2Proof.Machine.execTransmitStart port s
  | .transmitCompletion port => Sys2Proof.Machine.execTransmitCompletion port s
  | .statementResume => Sys2Proof.Machine.execStatementResume s
  | .propel o power mode differential flags => Sys2Proof.Machine.execPropel o power mode differential flags s
  | .steer o rudder bowMode bow => Sys2Proof.Machine.execSteer o rudder bowMode bow s
  | .convoyMode o code => Sys2Proof.Machine.execConvoyMode o code s
  | .takeCommand o selector => Sys2Proof.Machine.execTakeCommand o selector s
  | .helmResume o selector => Sys2Proof.Machine.execHelmResume o selector s
  | .orderUnknown o payload => Sys2Proof.Machine.execOrderUnknown o payload s
  | .coupleRelease o index => Sys2Proof.Machine.execCoupleRelease o index s
  | .coupleCancel o index => Sys2Proof.Machine.execCoupleCancel o index s
  | .coupleMakeUp o index => Sys2Proof.Machine.execCoupleMakeUp o index s
  | .acceptParted o index => Sys2Proof.Machine.execAcceptParted o index s
  | .enrol port h payload => Sys2Proof.Machine.execEnrol port h payload s
  | .echo port o position => Sys2Proof.Machine.execEcho port o position s
  | .full port o run load alarmLevel => Sys2Proof.Machine.execFull port o run load alarmLevel s
  | .engineStatus port h run load alarmLevel => Sys2Proof.Machine.execEngineStatus port h run load alarmLevel s
  | .slotRelease coupling => Sys2Proof.Machine.execSlotRelease coupling s
  | .actuatorStatus port h position flag => Sys2Proof.Machine.execActuatorStatus port h position flag s
  | .winchStatus port h condition => Sys2Proof.Machine.execWinchStatus port h condition s
  | .tension port h readings => Sys2Proof.Machine.execTension port h readings s
  | .flow port h readings => Sys2Proof.Machine.execFlow port h readings s
  | .level port h readings => Sys2Proof.Machine.execLevel port h readings s
  | .passageFrame port frame => Sys2Proof.Machine.execPassageFrame port frame s
  | .identify o => Sys2Proof.Machine.execIdentify o s
  | .tableRead o table index => Sys2Proof.Machine.execTableRead o table index s
  | .tableWriteStation o index address => Sys2Proof.Machine.execTableWriteStation o index address s
  | .tableWriteRoster o index entry => Sys2Proof.Machine.execTableWriteRoster o index entry s
  | .tableWritePassage o index entry => Sys2Proof.Machine.execTableWritePassage o index entry s
  | .tableWriteDefault o index entry => Sys2Proof.Machine.execTableWriteDefault o index entry s
  | .tableWriteMode o index entry => Sys2Proof.Machine.execTableWriteMode o index entry s
  | .tableWriteEngine o index entry => Sys2Proof.Machine.execTableWriteEngine o index entry s
  | .tableWriteActuator o index entry => Sys2Proof.Machine.execTableWriteActuator o index entry s
  | .tableWriteCoupling o index entry => Sys2Proof.Machine.execTableWriteCoupling o index entry s
  | .tableWriteTank o index entry => Sys2Proof.Machine.execTableWriteTank o index entry s
  | .tableWriteMeter o index entry => Sys2Proof.Machine.execTableWriteMeter o index entry s
  | .tableWriteNoticeMap o kind channel => Sys2Proof.Machine.execTableWriteNoticeMap o kind channel s
  | .stateRead o record index page => Sys2Proof.Machine.execStateRead o record index page s
  | .allocate o w m t => Sys2Proof.Machine.execAllocate o w m t s
  | .setAddress o address => Sys2Proof.Machine.execSetAddress o address s
  | .noticeSetup o master channel arm autoDisarm => Sys2Proof.Machine.execNoticeSetup o master channel arm autoDisarm s
  | .noticeRead o channel clear => Sys2Proof.Machine.execNoticeRead o channel clear s
  | .noticeClear o kind selector subject => Sys2Proof.Machine.execNoticeClear o kind selector subject s
  | .fuelPreset o tank quantity => Sys2Proof.Machine.execFuelPreset o tank quantity s
  | .legStart o budget reserve => Sys2Proof.Machine.execLegStart o budget reserve s
  | .statementStart o => Sys2Proof.Machine.execStatementStart o s
  | .statementAbort o => Sys2Proof.Machine.execStatementAbort o s
  | .restart o => Sys2Proof.Machine.execRestart o s
  | .mgmtUnknown o payload => Sys2Proof.Machine.execMgmtUnknown o payload s
  | .guardExpiry => Sys2Proof.Machine.execGuardExpiry s
  | .stepExpiry engine => Sys2Proof.Machine.execStepExpiry engine s
  | .dwellExpiry engine => Sys2Proof.Machine.execDwellExpiry engine s
  | .divergenceExpiry actuator => Sys2Proof.Machine.execDivergenceExpiry actuator s
  | .sampleSilenceExpiry coupling => Sys2Proof.Machine.execSampleSilenceExpiry coupling s
  | .holdExpiry boat => Sys2Proof.Machine.execHoldExpiry boat s
  | .releaseWaitExpiry coupling => Sys2Proof.Machine.execReleaseWaitExpiry coupling s
  | .makeupWaitExpiry coupling => Sys2Proof.Machine.execMakeupWaitExpiry coupling s
  | .meterSilenceExpiry meter => Sys2Proof.Machine.execMeterSilenceExpiry meter s
  | .estimateTick meter => Sys2Proof.Machine.execEstimateTick meter s
  | .stallExpiry => Sys2Proof.Machine.execStallExpiry s
  | .silenceExpiry node => Sys2Proof.Machine.execSilenceExpiry node s
  | .refreshExpiry node => Sys2Proof.Machine.execRefreshExpiry node s
  | .ackTimeout slot => Sys2Proof.Machine.execAckTimeout slot s
  | .ackOfNoKind port o payload => Sys2Proof.Machine.execAckOfNoKind port o payload s

end Sys2Proof.Machine
end

