-- ==== Sys2Proof/Machine/Clock.lean ====
section
/-! DEFINITION. Machine/Clock.lean: what the part does with no command waiting. The manual gives it a time base
(R148), timers that expire by themselves, transmitters that take frames when they may (R153), and releases
and statements that go on when they can (R85, R121). With an empty queue the part carries out the first of
those events that is due, and otherwise lets 1 µs pass (DESIGN CHOICE, log entry 1). -/

namespace Sys2Proof.Machine

/-- A timer that has run out at the present instant. -/
def State.ran (s : State) : Timer → Bool
  | some instant => decide (instant ≤ s.now)
  | none => false

/-- A command, where it is due. -/
def dueIf (b : Bool) (i : Instr) : List Instr :=
  if b then [i] else []

/-- A command for each entry of a table that is due. -/
def dueEach {α : Type} {n : Nat} (t : Table α n) (p : α → Bool) (i : Fin n → Instr) : List Instr :=
  ((List.finRange n).filter fun j => p t[j]).map i

/-- Commands of a port that are due: the completion of its transmission, or the start of the next. -/
def State.duePort (s : State) (p : Port) : List Instr :=
  let x := s.link.ports.get p
  match x.sending with
  | some t => dueIf (decide (t.doneAt ≤ s.now)) (.transmitCompletion p)
  | none =>
    dueIf (x.canTake && (s.nextFrame p).isSome && decide (x.gapAt ≤ s.now)) (.transmitStart p)

/-- The commands of the part's own accord that are due, in a fixed order. -/
def State.due (s : State) : List Instr :=
  s.duePort .W ++ s.duePort .M ++ s.duePort .T ++
  dueIf (decide (s.fuel.statement.state = .paused) && s.reservedFree .W) .statementResume ++
  ((List.finRange 48).filter s.releaseReady).map .slotRelease ++
  dueIf (s.ran s.helm.guardAt) .guardExpiry ++
  dueEach s.prop.engines (fun e => s.ran e.stepAt) .stepExpiry ++
  dueEach s.prop.engines (fun e => s.ran e.dwellAt) .dwellExpiry ++
  dueEach s.steer.actuators (fun a => s.ran a.divergeAt) .divergenceExpiry ++
  dueEach s.tow.couplings (fun k => s.ran k.sampleAt) .sampleSilenceExpiry ++
  dueIf (s.ran s.tow.holdAt.b1) (.holdExpiry .b1) ++
  dueIf (s.ran s.tow.holdAt.b2) (.holdExpiry .b2) ++
  dueEach s.tow.couplings (fun k => decide (k.state = .releasing) && s.ran k.waitAt)
    .releaseWaitExpiry ++
  dueEach s.tow.couplings (fun k => decide (k.state = .makingUp) && s.ran k.waitAt)
    .makeupWaitExpiry ++
  dueEach s.fuel.meters (fun m => s.ran m.silenceAt) .meterSilenceExpiry ++
  dueEach s.fuel.meters (fun m => s.ran m.tickAt) .estimateTick ++
  dueIf (s.ran s.fuel.statement.stallAt) .stallExpiry ++
  dueEach s.nodes (fun x => s.ran x.silenceAt) .silenceExpiry ++
  dueEach s.nodes (fun x => s.ran x.refreshAt) .refreshExpiry ++
  dueEach s.trans.slots (fun x => s.ran x.ackAt) .ackTimeout

/-- One step with no command waiting: the first event that is due, or 1 µs. -/
def State.idle (s : State) : Outcome :=
  match s.due with
  | i :: _ => exec i s
  | [] => .next { s with now := s.now + 1 }

end Sys2Proof.Machine
end

