-- ==== Sys2Proof/Safety.lean ====
section
/-! DEFINITION. Safety.lean: what the statements about the part are said with: what one block's work leaves as it
was, and the properties of the state that every step keeps. -/

namespace Sys2Proof.Machine

/-! ### What a change leaves as it was -/

/-- How far a change reaches. Each level may change what the levels before it may:
`notices` the notice list, the channel records and, by a REPORT, the tail of the frame queue of port W;
`propulsion` what a recompute forms (targets, setpoints, ceilings, slewing, D, U, the differential in force, wash
directions and boat-at-zero conditions), the ordered values of the actuators, the phase of a release, the order
slots and lanes, and the next TAG of a node;
`tow` the computed and applied tow ceilings and their hold timers;
`units` the states and reports of engines, actuators and couplings;
`fuel` the books, meters and flags of the fuel accounting unit;
`roster` the state, count and timers of a node. -/
inductive Level where
  | notices | propulsion | tow | units | fuel | roster
deriving DecidableEq, Repr

/-- Order of the levels. -/
def Level.rank : Level → Nat
  | .notices => 0
  | .propulsion => 1
  | .tow => 2
  | .units => 3
  | .fuel => 4
  | .roster => 5

/-- Written fields and held orders, which no coordinator's own work changes. -/
structure WrittenKept (s t : State) : Prop where
  helm : t.helm = s.helm
  engines : ∀ i : Fin 6, t.prop.engines[i].entry = s.prop.engines[i].entry
  power : t.prop.power = s.prop.power
  diffMode : t.prop.diffMode = s.prop.diffMode
  fixedDiff : t.prop.fixedDiff = s.prop.fixedDiff
  nominal : t.prop.nominal = s.prop.nominal
  actuators : ∀ i : Fin 5, t.steer.actuators[i].entry = s.steer.actuators[i].entry
  rudder : t.steer.rudder = s.steer.rudder
  bowMode : t.steer.bowMode = s.steer.bowMode
  bowDemand : t.steer.bowDemand = s.steer.bowDemand
  couplings : ∀ c : Fin 48, t.tow.couplings[c].entry = s.tow.couplings[c].entry
  meters : ∀ i : Fin 16, t.fuel.meters[i].entry = s.fuel.meters[i].entry
  tanks : ∀ i : Fin 8, t.fuel.tanks[i].entry = s.fuel.tanks[i].entry
  bases : ∀ i : Fin 8, t.fuel.tanks[i].base = s.fuel.tanks[i].base
  statement : t.fuel.statement = s.fuel.statement
  nodes : ∀ n : Fin 32, t.nodes[n].entry = s.nodes[n].entry
  passage : t.fwd.passage = s.fwd.passage
  defaults : t.fwd.defaults = s.fwd.defaults
  map : t.notices.map = s.notices.map
  master : t.notices.master = s.notices.master

/-- The states and reports of the units, which no recompute changes. -/
structure UnitsKept (s t : State) : Prop where
  engines : ∀ i : Fin 6, t.prop.engines[i].state = s.prop.engines[i].state ∧
    t.prop.engines[i].health = s.prop.engines[i].health ∧ t.prop.engines[i].load = s.prop.engines[i].load
  actuators : ∀ i : Fin 5, t.steer.actuators[i].state = s.steer.actuators[i].state ∧
    t.steer.actuators[i].reported = s.steer.actuators[i].reported ∧
    t.steer.actuators[i].divergeAt = s.steer.actuators[i].divergeAt
  forced : t.steer.forced = s.steer.forced
  couplings : ∀ c : Fin 48,
    { t.tow.couplings[c] with phase := s.tow.couplings[c].phase } = s.tow.couplings[c]
  work : t.tow.work = s.tow.work

/-- `t` differs from `s` at most in what a level may change. -/
structure Within (x : Level) (s t : State) : Prop where
  written : WrittenKept s t
  now : t.now = s.now
  link : t.link = s.link
  pending : t.pending = s.pending
  allocation : t.fwd.reserved = s.fwd.reserved ∧ t.fwd.pool = s.fwd.pool ∧
    t.fwd.pendingDecrease = s.fwd.pendingDecrease
  answers : t.fwd.answers = s.fwd.answers
  queueM : t.fwd.queues.m = s.fwd.queues.m
  queueT : t.fwd.queues.t = s.fwd.queues.t
  queueW : s.fwd.queues.w <+: t.fwd.queues.w
  list : s.notices.list <+: t.notices.list
  quiet : x.rank < 1 → t.prop = s.prop ∧ t.steer = s.steer ∧ t.tow = s.tow ∧ t.trans = s.trans
  ceilings : x.rank < 2 →
    t.tow.computed = s.tow.computed ∧ t.tow.applied = s.tow.applied ∧ t.tow.holdAt = s.tow.holdAt
  units : x.rank < 3 → UnitsKept s t
  fuel : x.rank < 4 → t.fuel = s.fuel ∧ t.free = s.free
  nodes : x.rank < 5 → ∀ n : Fin 32,
    { t.nodes[n] with nextTag := s.nodes[n].nextTag } = s.nodes[n]

/-! ### Properties every step keeps -/

/-- The allocation of the 48 frame buffers (R168, R172): the reservations and the pool sum to 48, each
reservation is at least 2 and the pool at least 4, a pending reservation is a decrease to at least 2, and the
queues hold no more pool buffers than there are. -/
structure Forwarding.Allocated (f : Forwarding) : Prop where
  total : f.reserved.w + f.reserved.m + f.reserved.t + f.pool = 48
  reserved : ∀ p : Port, 2 ≤ f.reserved.get p
  pool : 4 ≤ f.pool
  decreases : ∀ (p : Port) (n : Nat), f.pendingDecrease.get p = some n → 2 ≤ n ∧ n < f.reserved.get p
  inUse : f.poolInUse ≤ f.pool

/-- The answer lane holds at most four frames (R163). -/
def Forwarding.AnswersFit (f : Forwarding) : Prop :=
  f.answers.length ≤ 4

/-- The notice list holds at most 32 entries, each pair once (R175). -/
def NoticeUnit.Fits (u : NoticeUnit) : Prop :=
  u.list.length ≤ 32 ∧ u.list.Nodup

/-- The helm record agrees with itself and with the station table: HELM LOSS is in force, and a mode
remembered, exactly while the helm state is LOST (R4, R11, R13); the guard runs exactly while it is active
(R10); the station in command is listed (R5, R9), and there is one in every mode but MOORED (R16); the two station
entries differ, and neither is the own address (R5, R186). -/
structure State.HelmSound (s : State) : Prop where
  remembered : s.helm.helm = .lost ↔ s.helm.remembered.isSome = true
  mode : s.helm.helm = .lost ↔ s.helm.mode = 7
  ordinary : ∀ m : Fin 8, s.helm.remembered = some m → m ≠ 7
  guard : s.helm.guardAt.isSome = s.guardActive
  command : ∀ a : Byte, s.helm.command = some a → s.helm.lists a = true
  underway : s.helm.mode ≠ 0 → s.helm.command.isSome = true
  distinct : ∀ a : Byte, s.helm.stations[(0 : Fin 2)] = some a → s.helm.stations[(1 : Fin 2)] ≠ some a
  own : s.helm.lists s.link.own = false

/-- The port a node is on. -/
def State.plantPort (s : State) (n : Fin 32) : PlantPort :=
  s.nodes[n].entry.port

/-- The order slots (R135, R139, R142): a node has at most one slot in flight and at most one waiting; a QUEUED
slot's node has nothing in flight; the lane of a port holds, each once, exactly the QUEUED slots of the nodes of
that port; and an ack timer runs for a slot that is AWAITING and for no other. -/
structure State.SlotsSound (s : State) : Prop where
  oneFlight : ∀ i j : Fin 16, s.trans.slots[i].inFlight = true → s.trans.slots[j].inFlight = true →
    s.trans.slots[i].target = s.trans.slots[j].target → i = j
  oneWaiting : ∀ i j : Fin 16, s.trans.slots[i].isWaiting = true → s.trans.slots[j].isWaiting = true →
    s.trans.slots[i].target = s.trans.slots[j].target → i = j
  queuedIdle : ∀ i j : Fin 16, s.trans.slots[i].state = .queued → s.trans.slots[j].inFlight = true →
    s.trans.slots[i].target ≠ s.trans.slots[j].target
  lanes : ∀ (p : PlantPort) (i : Fin 16), i ∈ s.trans.lane p ↔
    s.trans.slots[i].state = .queued ∧ s.plantPort s.trans.slots[i].target = p
  once : ∀ p : PlantPort, (s.trans.lane p).Nodup
  timed : ∀ i : Fin 16, s.trans.slots[i].ackAt.isSome = true → s.trans.slots[i].state = .awaiting

/-- Target and issued setpoint lie within the composite range, and are 0 outside RUNNING (R23, R33, R35). -/
structure Engine.Sound (e : Engine) : Prop where
  target : -(e.compositeAstern : Int) ≤ e.target ∧ e.target ≤ e.compositeAhead
  setpoint : -(e.compositeAstern : Int) ≤ e.setpoint ∧ e.setpoint ≤ e.compositeAhead
  stopped : e.state ≠ .running → e.target = 0 ∧ e.setpoint = 0

/-- Every engine is sound. -/
def State.EnginesSound (s : State) : Prop :=
  ∀ i : Fin 6, s.prop.engines[i].Sound

/-- A sum over the six engines. -/
def sum6 (f : Fin 6 → Int) : Int :=
  ((List.finRange 6).map f).sum

/-- The ceiling components of an engine, each from its source as it stands (R24 to R26). -/
structure State.ComponentsFormed (s : State) (e : Engine) : Prop where
  modeAhead : e.modeAhead = s.helm.modes[s.helm.mode].aheadCeiling
  modeAstern : e.modeAstern = s.helm.modes[s.helm.mode].asternCeiling
  health : e.healthCeiling = match e.health with
    | .sound => 1000
    | .alert => e.entry.alertCeiling
    | .alarm => e.entry.alarmCeiling
  tow : e.towCeiling = s.tow.applied.get e.entry.boat
  economy : e.economyCeiling =
    if s.fuel.leg.reserve then s.helm.modes[s.helm.mode].economyCeiling else 1000
  tankLow : e.tankLowCeiling = match e.entry.serviceTank with
    | some k => if s.fuel.tanks[k].low then s.fuel.tanks[k].entry.lowCeiling else 1000
    | none => 1000

/-- The composite ceilings of an engine, the lowest of its components (R25). -/
structure Engine.Composed (e : Engine) : Prop where
  ahead : e.compositeAhead =
    min e.modeAhead (min e.healthCeiling (min e.towCeiling (min e.economyCeiling e.tankLowCeiling)))
  astern : e.compositeAstern = min e.modeAstern (min e.healthCeiling (min e.towCeiling e.tankLowCeiling))

/-- The demand, the differential in force, the targets and the unmet demand by R28 and R30 to R33, from P, N, δ, the
profile in force and the engines with their composite ceilings. -/
def State.DemandShared (s : State) : Prop :=
  let e (i : Fin 6) := s.prop.engines[i].entry
  let run (i : Fin 6) : Prop := s.prop.engines[i].state = .running
  let bound (i : Fin 6) (q : Int) : Int :=
    max (-(s.prop.engines[i].compositeAstern : Int)) (min (s.prop.engines[i].compositeAhead : Int) q)
  let demand := (s.prop.power * s.prop.nominal).tdiv 1000
  let weights := sum6 fun i => if s.prop.engines[i].state = .running then ((e i).weight : Int) else 0
  let first (i : Fin 6) : Int :=
    if weights = 0 then 0 else ((demand * (e i).weight).tdiv weights * 1000).tdiv (e i).rating
  let short := sum6 fun i =>
    if s.prop.engines[i].state = .running ∧ bound i (first i) ≠ first i then
      ((first i - bound i (first i)) * (e i).rating).tdiv 1000
    else 0
  let receives (i : Fin 6) : Bool :=
    decide (s.prop.engines[i].state = .running) && decide (bound i (first i) = first i) &&
      decide (0 < (e i).weight)
  let left := sum6 fun i => if receives i then ((e i).weight : Int) else 0
  let raised (i : Fin 6) : Int :=
    if short ≠ 0 ∧ receives i then
      bound i (first i) + ((short * (e i).weight).tdiv left * 1000).tdiv (e i).rating
    else bound i (first i)
  let automatic := max (-300) (min 300 ((s.steer.rudder * s.helm.modes[s.helm.mode].gain).tdiv 64))
  let diff := if s.prop.diffMode = .fixed ∧ s.steer.forced = false then s.prop.fixedDiff else automatic
  let sign (i : Fin 6) : Int := match (e i).side with
    | .port => 1
    | .centre => 0
    | .stbd => -1
  s.prop.demand = demand ∧ s.prop.diff = diff ∧
  (∀ i, run i → s.prop.engines[i].target = bound i (bound i (raised i) + sign i * diff)) ∧
  (∀ i, ¬ run i → s.prop.engines[i].target = 0) ∧
  (weights = 0 → s.prop.unmet = demand.natAbs) ∧
  (weights ≠ 0 → short = 0 → s.prop.unmet = 0) ∧
  (weights ≠ 0 → short ≠ 0 → left = 0 → s.prop.unmet = short.natAbs) ∧
  (weights ≠ 0 → short ≠ 0 → left ≠ 0 → (s.prop.unmet : Int) = sum6 fun i =>
    if receives i then ((((raised i - bound i (raised i)) * (e i).rating).tdiv 1000).natAbs : Int) else 0)

/-- What a recompute forms is as its sources have it: the components of every engine (R26), the composite ceilings of
every engine that is not ABSENT (R25), and the demand, the differential, the targets and the unmet demand (R29). -/
structure State.TargetsFormed (s : State) : Prop where
  components : ∀ i : Fin 6, s.ComponentsFormed s.prop.engines[i]
  composites : ∀ i : Fin 6, s.prop.engines[i].state ≠ .absent → s.prop.engines[i].Composed
  shared : s.DemandShared

/-- The nominal convoy power: the ratings of the engines that are not ABSENT and have weight above 0 (R30). -/
def State.NominalFormed (s : State) : Prop :=
  (s.prop.nominal : Int) = sum6 fun i =>
    if s.prop.engines[i].state ≠ .absent ∧ 0 < s.prop.engines[i].entry.weight then
      (s.prop.engines[i].entry.rating : Int)
    else 0

/-- The ordered value of an actuator by R53 and R54, from the demands and the wash directions that a state
holds. -/
def State.mapped (s : State) (a : Actuator) : Int :=
  let b : Boat := if a.entry.kind = .bowUnit then .b1 else a.entry.boat
  let gain : Int := match s.prop.wash.get b with
    | .ahead => a.entry.gainAhead
    | .astern => a.entry.gainAstern
  let raw : Int :=
    if a.entry.kind = .bowUnit ∧ s.steer.bowMode = .explicit then s.steer.bowDemand
    else (s.steer.rudder * gain).tdiv 64
  max (-(a.entry.limit : Int)) (min (a.entry.limit : Int) raw)

/-- The wash directions, the boat-at-zero conditions and the ordered values are as the issued setpoints, the reported
loads and the demands have them (R45, R46, R52 to R55). -/
structure State.WashSound (s : State) : Prop where
  wash : ∀ b : Boat, s.prop.wash.get b =
    if 0 ≤ sum6 (fun i =>
      if s.prop.engines[i].state = .running ∧ s.prop.engines[i].entry.boat = b then s.prop.engines[i].setpoint
      else 0) then .ahead
    else .astern
  zero : ∀ x : BoatSet, s.prop.zeroOf x = true ↔
    ∀ i : Fin 6, x.has s.prop.engines[i].entry.boat = true → s.prop.engines[i].state = .running →
      s.prop.engines[i].setpoint = 0 ∧ s.prop.engines[i].load.natAbs ≤ s.prop.engines[i].entry.idleBand
  ordered : ∀ a : Fin 5, s.steer.actuators[a].state ≠ .absent →
    s.steer.actuators[a].ordered = s.mapped s.steer.actuators[a]

/-- What a coupling contributes to the tow ceilings of the boats it bears on under a profile (R79). -/
def Coupling.share (k : Coupling) (p : Profile) : Nat :=
  match k.state with
  | .alert => p.towAlertCeiling
  | .silent => p.towAlertCeiling
  | .makingUp => p.towAlertCeiling
  | .overload => p.towOverloadCeiling
  | .parted => 0
  | .releasing => 0
  | _ => 1000

/-- A coupling bears on a boat (4.1 key b). -/
def Coupling.on (k : Coupling) (b : Boat) : Prop :=
  k.entry.bearsOn = .all ∨ k.entry.bearsOn = (match b with | .b1 => .boat1 | .b2 => .boat2)

/-- The tow ceilings: each computed one is the lowest contribution of the couplings bearing on its boat, and 1000 where
none is lower (R79); an applied one is never above it, and the hold timer runs exactly while it is below (R80). -/
structure State.CeilingsFormed (s : State) : Prop where
  top : ∀ b : Boat, s.tow.computed.get b ≤ 1000
  bound : ∀ (b : Boat) (c : Fin 48), s.tow.couplings[c].on b →
    s.tow.computed.get b ≤ s.tow.couplings[c].share s.helm.modes[s.helm.mode]
  reached : ∀ b : Boat, s.tow.computed.get b = 1000 ∨ ∃ c : Fin 48, s.tow.couplings[c].on b ∧
    s.tow.computed.get b = s.tow.couplings[c].share s.helm.modes[s.helm.mode]
  applied : ∀ b : Boat, s.tow.applied.get b ≤ s.tow.computed.get b
  hold : ∀ b : Boat, (s.tow.holdAt.get b).isSome = true ↔ s.tow.applied.get b < s.tow.computed.get b

/-- The forced steer-assist field holds exactly where R65 has it: a MAIN_RUDDER is DIVERGED, in FAULT or LOST, and
the gain of the mode in force is above 0. -/
def State.ForcedSound (s : State) : Prop :=
  s.steer.forced = true ↔
    (∃ i : Fin 5, s.steer.actuators[i].entry.kind = .mainRudder ∧
      (s.steer.actuators[i].state = .diverged ∨ s.steer.actuators[i].state = .fault ∨
        s.steer.actuators[i].state = .lost)) ∧
    0 < s.helm.modes[s.helm.mode].gain

/-- Coupling in work: RELEASING or MAKING_UP. -/
def Coupling.working (k : Coupling) : Bool :=
  decide (k.state = .releasing) || decide (k.state = .makingUp)

/-- A state that a coupling may hold as its prior state (4.1 key n). -/
def CouplingState.isPrior : CouplingState → Bool
  | .slack => true
  | .madeUp => true
  | .alert => true
  | .overload => true
  | .silent => true
  | .released => true
  | _ => false

/-- Coupling work (R84, R89, R93): the coupling work field names exactly the coupling that is RELEASING or
MAKING_UP; such a coupling, and no other, has a prior state, of those key n lists, and a running wait timer; a release,
and nothing else, has a phase. -/
structure Tow.Sound (x : Tow) : Prop where
  work : ∀ c : Fin 48, x.couplings[c].working = true ↔ x.work = some c
  prior : ∀ c : Fin 48, x.couplings[c].prior.isSome = x.couplings[c].working
  kinds : ∀ (c : Fin 48) (k : CouplingState), x.couplings[c].prior = some k → k.isPrior = true
  wait : ∀ c : Fin 48, x.couplings[c].waitAt.isSome = x.couplings[c].working
  phase : ∀ c : Fin 48, x.couplings[c].phase.isSome = true ↔ x.couplings[c].state = .releasing

/-- What every step keeps. -/
structure State.Sound (s : State) : Prop where
  allocated : s.fwd.Allocated
  answers : s.fwd.AnswersFit
  notices : s.notices.Fits
  helm : s.HelmSound
  slots : s.SlotsSound
  engines : s.EnginesSound
  forced : s.ForcedSound
  tow : s.tow.Sound
  targets : s.TargetsFormed
  nominal : s.NominalFormed
  wash : s.WashSound
  ceilings : s.CeilingsFormed

/-! ### Slewing (2.6) -/

/-- The expiry of a step timer that starts now, by the step interval of the mode in force (R36). -/
def State.fullStep (s : State) : Timer :=
  some (s.now + 10000 * s.helm.modes[s.helm.mode].stepInterval)

/-- The side of 0 that an issued setpoint, not 0, stands on (R40). -/
def sideOf (setpoint : Int) : LastSign :=
  if 0 < setpoint then .ahead else .astern

/-- A target has the sign of a last sign (R41). -/
def LastSign.agrees (x : LastSign) (target : Int) : Prop :=
  (x = .ahead ∧ 0 < target) ∨ (x = .astern ∧ target < 0)

/-- An engine that has come to 0 from a side under a target that has not the sign of that side: it dwells for the
reversal dwell of the mode in force, and with a reversal dwell of 0 it is as at the expiry of that dwell (R40, R41). -/
def State.Halted (s : State) (side : LastSign) (y : Engine) : Prop :=
  if s.helm.modes[s.helm.mode].reversalDwell = 0 then
    y.lastSign = .unset ∧ y.dwellAt = none ∧
      (y.target = 0 → y.slew = .steady ∧ y.stepAt = none) ∧
      (y.target ≠ 0 → y.slew = .slewing ∧ y.stepAt = s.fullStep)
  else
    y.slew = .dwelling ∧ y.lastSign = side ∧ y.stepAt = none ∧
      y.dwellAt = some (s.now + 100000 * s.helm.modes[s.helm.mode].reversalDwell)

/-- A recompute has brought the slewing of an engine up to date, from `x` before it to `y` after it, whose target and
issued setpoint it has formed (R36, R40, R41). -/
structure State.Slewed (s : State) (x y : Engine) : Prop where
  cut : x.setpoint ≠ 0 → y.setpoint = 0 → s.Halted (sideOf x.setpoint) y
  cancelled : x.setpoint = 0 ∨ y.setpoint ≠ 0 → x.slew = .dwelling → x.lastSign.agrees y.target →
    y.slew = .slewing ∧ y.stepAt = s.fullStep ∧ y.dwellAt = none ∧ y.lastSign = x.lastSign
  dwells : x.setpoint = 0 ∨ y.setpoint ≠ 0 → x.slew = .dwelling → ¬ x.lastSign.agrees y.target →
    y.slew = .dwelling ∧ y.dwellAt = x.dwellAt ∧ y.lastSign = x.lastSign ∧ (x.stepAt = none → y.stepAt = none)
  returns : x.setpoint = 0 → y.setpoint = 0 → x.slew = .slewing → x.lastSign ≠ .unset →
    ¬ x.lastSign.agrees y.target → s.Halted x.lastSign y
  follows : x.setpoint = 0 ∨ y.setpoint ≠ 0 → x.slew ≠ .dwelling →
    (x.slew = .slewing → y.setpoint ≠ 0 ∨ x.lastSign = .unset ∨ x.lastSign.agrees y.target) →
    y.lastSign = x.lastSign ∧ y.dwellAt = x.dwellAt ∧
      (y.target = y.setpoint → y.slew = .steady ∧ y.stepAt = none) ∧
      (y.target ≠ y.setpoint → y.slew = .slewing ∧
        (x.slew = .steady → y.stepAt = s.fullStep) ∧
        (x.slew = .slewing → x.target ≠ x.setpoint →
          y.stepAt = if x.setpoint < x.target ↔ y.setpoint < y.target then x.stepAt else s.fullStep))

/-! ### What an order, a request or a frame meets -/

/-- The answer to a wheelhouse order, addressed to its source with its TAG (R7, R156). -/
def answerFrame (own : Byte) (o : Origin) (kind code : Byte) : Frame :=
  { dest := o.src, src := own, cls := 1, tag := o.tag, payload := [kind, code] }

/-- The reply to a management request, addressed to its source with its TAG (R156, R161). -/
def replyFrame (own : Byte) (o : Origin) (code status : Byte) (body : List Byte) : Frame :=
  { dest := o.src, src := own, cls := 5, tag := o.tag, payload := [code, status] ++ body }

/-- A port hears a frame: it is not sending (R147, R153, R155). -/
def State.listens (s : State) (p : Port) : Prop :=
  (s.link.ports.get p).sending = none

/-- Port W hears the frame, and the answer lane has room for what it draws (R153, R163). -/
def State.hasRoom (s : State) : Prop :=
  s.listens .W ∧ s.fwd.answers.length < 4

/-- An order that requires command is admitted from a source (R6). -/
structure State.Admits (s : State) (o : Origin) : Prop where
  listed : s.helm.lists o.src = true
  normal : s.helm.helm = .normal
  command : s.helm.command = some o.src
  room : s.hasRoom

/-- The state with an answer lane of its own. -/
def State.withAnswers (s : State) (l : List Frame) : State :=
  { s with fwd := { s.fwd with answers := l } }

/-- `t` is `b` with one frame more in the answer lane, and a block's work within a level. -/
def Replied (x : Level) (b : State) (f : Frame) (t : State) : Prop :=
  t.fwd.answers = b.fwd.answers ++ [f] ∧ Within x b (t.withAnswers b.fwd.answers)

/-- A notice stands in the list, or the list is full and could not take it (R175). -/
def State.hasNotice (s : State) (k : NoticeKind) (subject : Byte) : Prop :=
  ({ kind := k, subject := subject } : Notice) ∈ s.notices.list ∨ 32 ≤ s.notices.list.length

/-- A frame end at a port, of a frame from an ENROLLED node: the node's silence timer restarts (R130). -/
def State.heardFrom (s : State) (p : Port) (n : Fin 32) : State :=
  (s.frameEnd p).modNode n fun x => { x with silenceAt := some (s.now + 100000 * x.entry.silence) }

/-- A STATUS or SAMPLE frame is heard, and taken for a job from an ENROLLED node (R153, R164 to R166). -/
structure State.Delivers (s : State) (p : Port) (h : Header) (c : Content) (j : Job) (n : Fin 32) : Prop where
  hears : s.listens p
  source : s.nodeOf p h.src = some n
  enrolled : s.nodes[n].state = .enrolled
  takes : (s.fwd.disposition p (c.frame h)).1.takes = true
  job : (s.fwd.disposition p (c.frame h)).2.1 = j

/-- What follows a job's reading of a frame: its copies, where the action passes it on (R165). -/
def State.andPass (s u : State) (p : Port) (f : Frame) : State :=
  if (s.fwd.disposition p f).1.passes then u.passOn p f (s.fwd.disposition p f).2.2 else u

/-- The period of the guard under a profile in µs, and its expiry when it starts now; none where it is not
active (R10). -/
def guardFrom (now : Nat) (modes : Table Profile 8) (m : Fin 8) : Timer :=
  if m = 0 ∨ modes[m].guardPeriod = 0 then none else some (now + 100000 * modes[m].guardPeriod)

/-- A tank after a deduction of an amount (R111), LOW tested where the quantity changes (R112). -/
def Tank.taken (k : Tank) (d : Nat) : Tank :=
  { k with
    deductions := k.deductions + d, shortfall := k.shortfall + (d - k.quantity), quantity := k.quantity - d
    low :=
      if k.quantity - d = k.quantity then k.low
      else decide (0 < k.entry.capacity) && decide (k.quantity - d < k.entry.lowMark) }

/-- A tank after an addition of an amount (R111), LOW tested where the quantity changes (R112). -/
def Tank.given (k : Tank) (a : Nat) : Tank :=
  { k with
    additions := k.additions + a, overflow := k.overflow + (k.quantity + a - k.entry.capacity)
    quantity := min (k.quantity + a) k.entry.capacity
    low :=
      if min (k.quantity + a) k.entry.capacity = k.quantity then k.low
      else
        decide (0 < k.entry.capacity) &&
          decide (min (k.quantity + a) k.entry.capacity < k.entry.lowMark) }

/-- A tank after a signed amount is taken from it: a deduction, or an addition of the magnitude (R107). -/
def Tank.moved (k : Tank) (x : Int) : Tank :=
  if 0 ≤ x then k.taken x.toNat else k.given x.natAbs

/-- The counters of a tank are figures of 48 bits (5.3). -/
def Tank.Fits (k : Tank) : Prop :=
  k.additions ≤ 281474976710655 ∧ k.deductions ≤ 281474976710655 ∧ k.shortfall ≤ 281474976710655 ∧
    k.overflow ≤ 281474976710655

/-- A signed figure of 48 bits (5.2). -/
def fits48 (x : Int) : Prop :=
  -140737488355328 ≤ x ∧ x ≤ 140737488355327

/-- An engine after a status from its governor (R20, R21). -/
def Engine.told (e : Engine) (run : RunState) (load : Half) (lvl : AlarmLevel) : Engine :=
  { e with
    load := load.toInt
    health := match lvl with
      | .noAlarm => .sound
      | .alert => .alert
      | .alarm => .alarm
      | .trip => .alarm
    state :=
      if e.state = .absent ∨ e.state = .lost then e.state
      else if lvl = .trip then .tripped
      else if run = .stopped then .standby
      else if e.state = .tripped then .tripped
      else .running }

/-- An actuator after an ECHO, which carries no fault flag: the position and the divergence test (R61, R62). -/
def Actuator.told (a : Actuator) (now : Nat) (position : Half) : Actuator :=
  let out : Bool := decide (a.entry.band < (position.toInt - a.ordered).natAbs)
  { a with
    reported := position.toInt
    state := if a.state = .diverged ∧ out = false then .ready else a.state
    divergeAt :=
      if a.state = .ready then
        if out then a.divergeAt.or (some (now + 100000 * a.entry.time)) else none
      else if a.state = .diverged ∧ out = false then none
      else a.divergeAt }

/-- A waiting slot carries the issued setpoint of an engine to its governor (R43). -/
def State.carriesSetpoint (s : State) (i : Fin 6) (g : Fin 32) : Prop :=
  ∃ j : Fin 16, s.trans.slots[j].isWaiting = true ∧ s.trans.slots[j].target = g ∧
    s.trans.slots[j].kind = .setpoint ∧ s.trans.slots[j].value = .amount s.prop.engines[i].setpoint ∧
    s.trans.slots[j].owner = some (.propulsion i)

/-- A SETPOINT for an engine's governor finds no waiting order of another kind in its way (R43, R136). -/
structure State.maySetpoint (s : State) (i : Fin 6) (g : Fin 32) : Prop where
  governor : s.prop.engines[i].entry.governor = some g
  own : ∀ j : Fin 6, j ≠ i → s.prop.engines[j].entry.governor ≠ some g
  alive : s.nodes[g].state ≠ .failed ∧ s.nodes[g].state ≠ .unused
  open_ : ∀ j : Fin 16, s.waitingSlot g = some j → s.trans.slots[j].kind = .setpoint

/-- A waiting slot carries the ordered value of an actuator to its node (R57). -/
def State.carriesOrdered (s : State) (a : Fin 5) (n : Fin 32) : Prop :=
  ∃ j : Fin 16, s.trans.slots[j].isWaiting = true ∧ s.trans.slots[j].target = n ∧
    s.trans.slots[j].kind = (if s.steer.actuators[a].entry.kind = .bowUnit then .bow else .angle) ∧
    s.trans.slots[j].value = .amount s.steer.actuators[a].ordered ∧
    s.trans.slots[j].owner = some (.steering a)

/-- An ANGLE or BOW for an actuator's node finds no waiting order of another kind in its way (R57, R136). -/
structure State.mayOrder (s : State) (a : Fin 5) (n : Fin 32) : Prop where
  node : s.steer.actuators[a].entry.node = some n
  own : ∀ b : Fin 5, b ≠ a → s.steer.actuators[b].entry.node ≠ some n
  engines : ∀ i : Fin 6, s.prop.engines[i].entry.governor ≠ some n
  alive : s.nodes[n].state ≠ .failed ∧ s.nodes[n].state ≠ .unused
  open_ : ∀ j : Fin 16, s.waitingSlot n = some j →
    s.trans.slots[j].kind = (if s.steer.actuators[a].entry.kind = .bowUnit then .bow else .angle)

/-- A slot is FREE. -/
def State.hasFree (s : State) : Prop :=
  ∃ j : Fin 16, s.trans.slots[j].state = .free

/-- A slot of a coupling's release has been given up: it is FREE and in no lane, unless another order has taken it
since (R89, R91). -/
def State.gaveUp (s : State) (c : Fin 48) (i : Fin 16) : Prop :=
  (s.trans.slots[i].state = .free ∧ ∀ p : PlantPort, i ∉ s.trans.lane p) ∨
    s.trans.slots[i].owner ≠ some (.tow c)

/-- A field that names an entry of a table of `n`, or none by FFh (10.2). -/
def isIndex (n : Nat) (b : Byte) : Prop :=
  b.toNat < n ∨ b = 0xFF

/-- The BULK frames of blocks of the statement numbered from `next` on, of the `count` blocks it has (R118). -/
def bulkFrames (own dest : Byte) (number next count : Nat) (l : List Block) : List Frame :=
  l.mapIdx fun j b =>
    { dest := dest, src := own, cls := 7, tag := 0
      payload := [BitVec.ofNat 8 number, BitVec.ofNat 8 (next + j), BitVec.ofNat 8 count] ++ b.bytes }

/-- The lane that a port's transmitter serves before its frame queue has a frame to take. -/
def laneWaits (s : State) : Port → Prop
  | .W => s.fwd.answers ≠ []
  | .M => s.trans.laneM ≠ []
  | .T => s.trans.laneT ≠ []

end Sys2Proof.Machine

/-- The source and TAG and the KIND of an order that requires command (R6). -/
def Sys2Proof.Instr.requiresCommand (c : Sys2Proof.Instr) : Option (Sys2Proof.Origin × Sys2Proof.Byte) :=
  match c with
  | .propel o _ _ _ _ => some (o, 1)
  | .steer o _ _ _ => some (o, 2)
  | .convoyMode o _ => some (o, 3)
  | .coupleRelease o _ => some (o, 4)
  | .coupleCancel o _ => some (o, 4)
  | .coupleMakeUp o _ => some (o, 4)
  | .acceptParted o _ => some (o, 4)
  | _ => none

/-- The command that a STATUS or SAMPLE frame gives at a port (R159); none for a frame that no job reads. -/
def Sys2Proof.Content.command (p : Sys2Proof.Port) (h : Sys2Proof.Header) (x : Sys2Proof.Content) :
    Option Sys2Proof.Instr :=
  match x with
  | .engineStatus run load lvl => some (.engineStatus p h run load lvl)
  | .actuatorStatus position flag => some (.actuatorStatus p h position flag)
  | .winchStatus condition => some (.winchStatus p h condition)
  | .tension rs => some (.tension p h rs)
  | .flow rs => some (.flow p h rs)
  | .level rs => some (.level p h rs)
  | .other => none

/-- The job that reads a content (R20, R61, R71, R77, R100, R113). -/
def Sys2Proof.Content.job (x : Sys2Proof.Content) : Option Sys2Proof.Machine.Job :=
  match x with
  | .engineStatus _ _ _ => some .propulsion
  | .actuatorStatus _ _ => some .steering
  | .winchStatus _ => some .tow
  | .tension _ => some .tow
  | .flow _ => some .fuel
  | .level _ => some .fuel
  | .other => none

/-- The command that a frame given as a PASSAGE_FRAME turns out to be under an own address (R162): the one that fixed
intake gives, where it takes the frame; every other command is what it is. -/
def Sys2Proof.Instr.actual (own : Sys2Proof.Byte) (c : Sys2Proof.Instr) : Sys2Proof.Instr :=
  match c with
  | .passageFrame p f => if Sys2Proof.fixedIntake own p f then Sys2Proof.classify own p f else c
  | _ => c
end

