-- ==== Sys2Proof/Certificates/Slice0/Obligations.lean ====
section
/-! DEFINITION. Certificates/Slice0/Obligations.lean: the statements about the part. A statement about a command
gives the state it leaves: a base state, in which the fields the command writes are written out, and the level
within which a block's own work goes on from there (`Within`, Safety.lean), so that all else is as it was. -/

open Sys2Proof Sys2Proof.Machine

/-! ### The step and its queue -/

/-- A step carries out the command at the front of the queue, on the state with the queue's rest. The queue is the
model's own (log entry 1). -/
def Obligations.StepRunsFront : Prop :=
  ∀ (s : State) (c : Instr) (rest : List Instr),
    step { s with pending := c :: rest } = exec c { s with pending := rest }

/-- Every command answers a next state in every state. None changes the queue of waiting commands, and none but
power-on reset sets the time base back (R148). The queue is the model's own (log entry 1). -/
def Obligations.CommandsKeepQueueAndTime : Prop :=
  ∀ (c : Instr) (s : State), ∃ t : State, exec c s = .next t ∧ t.pending = s.pending ∧
    (c ≠ .powerOnReset → s.now ≤ t.now)

/-- The step on an empty queue carries out the first event that is due, and otherwise adds 1 µs to the time base and
changes nothing else. Due are a transmit completion and a transmit start that the line admits, the resumption of a
paused statement and the release of a held slot whose condition holds, and the expiry of each timer that has run out.
That the empty queue is when these happen, and their order, is the model's choice (log entry 1). That SLOT_RELEASE and
STATEMENT_RESUME are steps of their own, after the event that makes them ready, is its reading (log entry 2). -/
def Obligations.IdleStep : Prop :=
  ∀ s : State, s.pending = [] →
    (s.due = [] → step s = .next { s with now := s.now + 1 }) ∧
    (∀ c rest, s.due = c :: rest → step s = exec c s) ∧
    ∀ c : Instr,
      let ran (x : Timer) : Prop := ∃ at_ : Nat, x = some at_ ∧ at_ ≤ s.now
      c ∈ s.due ↔
        (∃ p x, c = .transmitCompletion p ∧ (s.link.ports.get p).sending = some x ∧ x.doneAt ≤ s.now) ∨
        (∃ p, c = .transmitStart p ∧ (s.link.ports.get p).line = .up ∧
          (s.link.ports.get p).sending = none ∧ (s.link.ports.get p).assembly = Assembly.empty ∧
          (s.link.ports.get p).gapAt ≤ s.now ∧ (laneWaits s p ∨ s.fwd.queues.get p ≠ [])) ∨
        (c = .statementResume ∧ s.fuel.statement.state = .paused ∧
          s.fwd.queues.w.length < s.fwd.reserved.w) ∨
        (∃ k : Fin 48, c = .slotRelease k ∧ s.tow.couplings[k].state = .releasing ∧
          s.tow.couplings[k].phase = some .waitZero ∧
          s.prop.zeroOf s.tow.couplings[k].entry.bearsOn = true ∧ (s.releaseSlotOf k).isSome = true) ∨
        (c = .guardExpiry ∧ ran s.helm.guardAt) ∨
        (∃ i : Fin 6, c = .stepExpiry i ∧ ran s.prop.engines[i].stepAt) ∨
        (∃ i : Fin 6, c = .dwellExpiry i ∧ ran s.prop.engines[i].dwellAt) ∨
        (∃ i : Fin 5, c = .divergenceExpiry i ∧ ran s.steer.actuators[i].divergeAt) ∨
        (∃ k : Fin 48, c = .sampleSilenceExpiry k ∧ ran s.tow.couplings[k].sampleAt) ∨
        (∃ b : Boat, c = .holdExpiry b ∧ ran (s.tow.holdAt.get b)) ∨
        (∃ k : Fin 48, c = .releaseWaitExpiry k ∧ s.tow.couplings[k].state = .releasing ∧
          ran s.tow.couplings[k].waitAt) ∨
        (∃ k : Fin 48, c = .makeupWaitExpiry k ∧ s.tow.couplings[k].state = .makingUp ∧
          ran s.tow.couplings[k].waitAt) ∨
        (∃ i : Fin 16, c = .meterSilenceExpiry i ∧ ran s.fuel.meters[i].silenceAt) ∨
        (∃ i : Fin 16, c = .estimateTick i ∧ ran s.fuel.meters[i].tickAt) ∨
        (c = .stallExpiry ∧ ran s.fuel.statement.stallAt) ∨
        (∃ n : Fin 32, c = .silenceExpiry n ∧ ran s.nodes[n].silenceAt) ∨
        (∃ n : Fin 32, c = .refreshExpiry n ∧ ran s.nodes[n].refreshAt) ∨
        (∃ i : Fin 16, c = .ackTimeout i ∧ ran s.trans.slots[i].ackAt)

/-! ### Power-on reset -/

/-- Every field after power-on reset. R15: the mode table, the station table and the helm record. R47: the engine
table and the coordinator record. R67 and R96: the actuator and coupling tables, the steering record and the
supervisor record. R125: meters, tanks, accounts, leg and statement. R145 and R173: the roster, the order slots and
lanes, the passage table, the default actions, the buffers and the lanes. With them, the notice unit, the ports and
the own address; every order slot is FREE and the notice list is empty. -/
def Obligations.ResetOfEveryBlock : Prop :=
  (∀ s : State, ∃ t : State, exec .powerOnReset s = .next t ∧
     (∀ m : Fin 8,
       let p := t.helm.modes[m]
       p.aheadCeiling = 1000 ∧ p.asternCeiling = 1000 ∧ p.stepSize = 20 ∧ p.stepInterval * 10 = 500 ∧
         p.reversalDwell * 100 = 3000 ∧ p.guardPeriod = 0 ∧ p.towAlertCeiling = 600 ∧
         p.towOverloadCeiling = 200 ∧ p.towHold = 10 ∧ p.tensionScale = 16 ∧ p.economyCeiling = 700 ∧
         p.gain = 0 ∧ p.waitLimit = 60 ∧ p.fallback = 0) ∧
     t.helm.mode = 0 ∧ t.helm.helm = .normal ∧ t.helm.remembered = none ∧ t.helm.guardAt = none ∧
     t.remaining t.helm.guardAt = 0 ∧ (∀ i : Fin 2, t.helm.stations[i] = none) ∧ t.helm.command = none ∧
     t.prop.power = 0 ∧ t.prop.diffMode = .fixed ∧ t.prop.fixedDiff = 0 ∧ t.steer.rudder = 0) ∧
  (∀ s : State, ∃ t : State, exec .powerOnReset s = .next t ∧
     (∀ i : Fin 6, t.prop.engines[i] = {
       entry := {
         governor := none, boat := .b1, side := .centre, rating := 1000, weight := 0, serviceTank := none,
         supplyMeter := none, returnMeter := none, idleBand := 0, alertCeiling := 600, alarmCeiling := 300 }
       state := .absent, health := .sound, load := 0, target := 0, setpoint := 0, lastSign := .unset
       slew := .steady, stepAt := none, dwellAt := none, modeAhead := 1000, modeAstern := 1000
       healthCeiling := 1000, towCeiling := 1000, economyCeiling := 1000, tankLowCeiling := 1000
       compositeAhead := 1000, compositeAstern := 1000 }) ∧
     t.prop.power = 0 ∧ t.prop.diffMode = .fixed ∧ t.prop.fixedDiff = 0 ∧ t.prop.diff = 0 ∧
     t.prop.nominal = 0 ∧ t.prop.demand = 0 ∧ t.prop.unmet = 0 ∧
     (∀ b : Boat, t.prop.wash.get b = .ahead) ∧ (∀ x : BoatSet, t.prop.zeroOf x = true) ∧
     t.notices.list = [] ∧ ∀ i : Fin 16, t.trans.slots[i].state = .free) ∧
  (∀ s : State, ∃ t : State, exec .powerOnReset s = .next t ∧
     (∀ i : Fin 5, t.steer.actuators[i] = {
       entry := {
         node := none, kind := .mainRudder, boat := .b1, gainAhead := 0, gainAstern := 0, limit := 0,
         band := 0, time := 10 }
       state := .absent, ordered := 0, reported := 0, divergeAt := none }) ∧
     t.steer.rudder = 0 ∧ t.steer.bowMode = .follow ∧ t.steer.bowDemand = 0 ∧ t.steer.forced = false ∧
     (∀ c : Fin 48, t.tow.couplings[c] = {
       entry := {
         kind := .push, bearsOn := .all, sensor := none, channel := 0, winch := none, slack := 50,
         alert := 1800, overload := 2600, hysteresis := 100, debounce := 3, heave := 300 }
       state := .unused, phase := none, prior := none, last := 0, count := 0, waitAt := none
       sampleAt := none }) ∧
     (∀ b : Boat, t.tow.computed.get b = 1000 ∧ t.tow.applied.get b = 1000 ∧ t.tow.holdAt.get b = none) ∧
     t.tow.work = none ∧ t.notices.list = [] ∧ ∀ i : Fin 16, t.trans.slots[i].state = .free) ∧
  (∀ s : State, ∃ t : State, exec .powerOnReset s = .next t ∧
     (∀ i : Fin 16, t.fuel.meters[i] = {
       entry := {
         node := none, channel := 0, role := .supply, firstObject := 0, toTank := 0, maxRate := 1000,
         margin := 200 }
       state := .unused, lastTotal := 0, lastArrival := 0, lastRate := 0, accumulator := 0
       silenceAt := none, tickAt := none }) ∧
     (∀ i : Fin 8, t.fuel.tanks[i] = {
       entry := {
         capacity := 0, role := .service, gauge := none, channel := 0, lowMark := 0, lowCeiling := 1000,
         tolerance := 0 }
       base := 0, additions := 0, deductions := 0, shortfall := 0, overflow := 0, quantity := 0
       bunkered := 0, reading := none, low := false, discrepant := false }) ∧
     (∀ i : Fin 6, t.fuel.accounts[i] = { total := 0, leg := 0 }) ∧
     t.fuel.leg = { active := false, budget := 0, reserveMark := 0, consumed := 0, reserve := false } ∧
     t.fuel.statement =
       { state := .idle, number := 0, destination := none, next := 1, stallAt := none, blocks := [] } ∧
     t.notices.list = [] ∧
     ∀ i : Fin 6, t.prop.engines[i].economyCeiling = 1000 ∧ t.prop.engines[i].tankLowCeiling = 1000) ∧
  (∀ s : State, ∃ t : State, exec .powerOnReset s = .next t ∧
     (∀ n : Fin 32, t.nodes[n] = {
       entry := {
         port := .M, address := none, kind := .engineGovernor, ackTimeout := 10, silence := 20,
         refresh := 0 }
       state := .unused, timeouts := 0, silenceAt := none, refreshAt := none, nextTag := 0 }) ∧
     (∀ i : Fin 16, t.trans.slots[i] = {
       target := 0, kind := .setpoint, value := .amount 0, tag := 0, owner := none, condition := none
       state := .free, ackAt := none }) ∧
     (∀ p : PlantPort, t.trans.lane p = []) ∧
     (∀ i : Fin 64,
       let e := t.fwd.passage[i]
       e.used = false ∧ e.ingress = none ∧ e.source = none ∧ e.cls = none ∧ e.kindSelector ≠ 0 ∧
         e.action = .drop ∧ e.job = .propulsion ∧ e.ports.isEmpty = true) ∧
     (∀ p : Port, (t.fwd.defaults.get p).action = .drop ∧ (t.fwd.defaults.get p).job = .propulsion ∧
       (portSetOf (t.fwd.defaults.get p).ports).isEmpty = true ∧ t.fwd.reserved.get p = 8 ∧
       t.fwd.pendingDecrease.get p = none ∧ t.fwd.queues.get p = []) ∧
     t.fwd.pool = 24 ∧ t.fwd.answers = [] ∧ t.notices.list = [] ∧
     (∀ (p : Port) (f : Frame),
       t.fwd.disposition p f = (.drop, .propulsion, { w := false, m := false, t := false })) ∧
     (∀ k : Fin 25, t.notices.map[k] = 0) ∧ t.notices.master = false ∧
     (∀ c : Fin 8, t.notices.channels[c] = { armed := false, autoDisarm := false, overflow := false }) ∧
     (∀ p : Port, (t.link.ports.get p).line = .up ∧ (t.link.ports.get p).assembly = Assembly.empty ∧
       (t.link.ports.get p).sending = none) ∧
     t.link.own = 120)

/-- The state after power-on reset has every property that a step keeps. -/
def Obligations.ResetIsSound : Prop :=
  State.reset.Sound

/-! ### What every step keeps -/

/-- Every step keeps the allocation of the frame buffers and the bound of the answer lane (R163, R168, R169, R172).
Every step keeps the bound of the notice list, with each pair in it once (R175). -/
def Obligations.StepKeepsBuffersAndNotices : Prop :=
  (∀ s t : State, s.fwd.Allocated → s.fwd.AnswersFit → step s = .next t →
     t.fwd.Allocated ∧ t.fwd.AnswersFit) ∧
  (∀ s t : State, s.notices.Fits → step s = .next t → t.notices.Fits)

/-- Every step keeps the helm record in agreement with itself and with the station table (R4, R5, R10 to R13, R16,
R186). -/
def Obligations.StepKeepsHelm : Prop :=
  ∀ s t : State, s.HelmSound → step s = .next t → t.HelmSound

/-- Every step keeps, for each node, at most one order in flight and one waiting, with the order lanes holding exactly
the QUEUED slots of their ports and an ack timer running for no slot but an AWAITING one (R135, R139, R142). -/
def Obligations.StepKeepsSlots : Prop :=
  ∀ s t : State, s.SlotsSound → step s = .next t → t.SlotsSound

/-- Every step keeps the target and the issued setpoint of each engine within its composite range, and both at 0
outside RUNNING (R23, R33, R35, R37). Every step keeps the forced steer-assist field at the condition of R65. Every
step keeps the wash directions, the boat-at-zero conditions and the ordered values of the actuators as the issued
setpoints, the reported loads and the demands have them (R45, R46, R52 to R55). -/
def Obligations.StepKeepsEnginesWashAndForcedAssist : Prop :=
  (∀ s t : State, s.EnginesSound → step s = .next t → t.EnginesSound) ∧
  (∀ s t : State, s.ForcedSound → step s = .next t → t.ForcedSound) ∧
  (∀ s t : State, s.WashSound → step s = .next t → t.WashSound)

/-- Every step keeps what a recompute forms as its sources have it: the ceiling components of every engine, the
composite ceilings of every engine that is not ABSENT, the demand, the differential in force, the targets and the
unmet demand (R24 to R26, R28 to R33). So each event that changes one of those sources brings a recompute. Every step
keeps the nominal convoy power N the sum of the ratings of the engines that are not ABSENT and have weight above 0
(R30). That the components of an ABSENT engine too follow their sources, the economy component of R116 among them, is
the model's reading (log entry 11). -/
def Obligations.StepKeepsTargets : Prop :=
  (∀ s t : State, s.TargetsFormed → step s = .next t → t.TargetsFormed) ∧
  (∀ s t : State, s.NominalFormed → step s = .next t → t.NominalFormed)

/-- Every step keeps the coupling work field in agreement with the couplings: at most one release or make-up is in
progress, with its prior state, wait timer and phase (R84, R89, R93). Every step keeps each computed tow ceiling the
lowest contribution of the couplings that bear on its boat, the applied one no higher, and the hold timer running
exactly while it is lower (R79, R80). With these the engines of a boat on which a PARTED or RELEASING coupling bears
have target and issued setpoint 0 (R81). -/
def Obligations.StepKeepsCouplingWorkAndCeilings : Prop :=
  (∀ s t : State, s.tow.Sound → step s = .next t → t.tow.Sound) ∧
  (∀ s t : State, s.CeilingsFormed → step s = .next t → t.CeilingsFormed) ∧
  ∀ (s : State) (c : Fin 48) (b : Boat) (i : Fin 6), s.EnginesSound → s.TargetsFormed → s.CeilingsFormed →
    s.tow.couplings[c].state = .parted ∨ s.tow.couplings[c].state = .releasing →
    s.tow.couplings[c].on b → s.prop.engines[i].entry.boat = b →
    s.prop.engines[i].target = 0 ∧ s.prop.engines[i].setpoint = 0

/-! ### What only some commands change -/

/-- The written fields of a table change only by a TABLE_WRITE of that table and by power-on reset. A frame is the
command that fixed intake finds in it under the own address in force (R162). -/
def Obligations.TablesChangeByTheirWrites : Prop :=
  ∀ (c : Instr) (s t : State), let act := c.actual s.link.own
    exec c s = .next t → c ≠ .powerOnReset →
    ((∀ o i a, act ≠ .tableWriteStation o i a) → t.helm.stations = s.helm.stations) ∧
    ((∀ o i r, act ≠ .tableWriteRoster o i r) → ∀ n : Fin 32, t.nodes[n].entry = s.nodes[n].entry) ∧
    ((∀ o i r, act ≠ .tableWritePassage o i r) → t.fwd.passage = s.fwd.passage) ∧
    ((∀ o i r, act ≠ .tableWriteDefault o i r) → t.fwd.defaults = s.fwd.defaults) ∧
    ((∀ o i r, act ≠ .tableWriteMode o i r) → t.helm.modes = s.helm.modes) ∧
    ((∀ o i r, act ≠ .tableWriteEngine o i r) →
      ∀ e : Fin 6, t.prop.engines[e].entry = s.prop.engines[e].entry) ∧
    ((∀ o i r, act ≠ .tableWriteActuator o i r) →
      ∀ a : Fin 5, t.steer.actuators[a].entry = s.steer.actuators[a].entry) ∧
    ((∀ o i r, act ≠ .tableWriteCoupling o i r) →
      ∀ k : Fin 48, t.tow.couplings[k].entry = s.tow.couplings[k].entry) ∧
    ((∀ o i r, act ≠ .tableWriteTank o i r) →
      ∀ k : Fin 8, t.fuel.tanks[k].entry = s.fuel.tanks[k].entry) ∧
    ((∀ o i r, act ≠ .tableWriteMeter o i r) →
      ∀ m : Fin 16, t.fuel.meters[m].entry = s.fuel.meters[m].entry) ∧
    ((∀ o i k, act ≠ .tableWriteNoticeMap o i k) → t.notices.map = s.notices.map)

/-- The orders of the wheelhouse and the helm record change only by the commands whose rules change them: P and the
differential by PROPEL and helm loss, the demands by STEER, the mode, the remembered mode and the helm state by CONVOY
MODE, HELM_RESUME and helm loss, the guard by PROPEL, STEER, CONVOY MODE, TAKE_COMMAND, HELM_RESUME, a write of the
mode table and helm loss, the station in command by TAKE_COMMAND, HELM_RESUME and a write of the station table, and
all of them by a warm restart and by power-on reset (R8 to R13). The station and mode tables are in
TablesChangeByTheirWrites. -/
def Obligations.OrdersChangeByTheirCommands : Prop :=
  ∀ (c : Instr) (s t : State), let act := c.actual s.link.own
    exec c s = .next t → c ≠ .powerOnReset → (∀ o, act ≠ .restart o) →
    ((∀ o p m d f, act ≠ .propel o p m d f) → act ≠ .guardExpiry →
      t.prop.power = s.prop.power ∧ t.prop.diffMode = s.prop.diffMode ∧
        t.prop.fixedDiff = s.prop.fixedDiff) ∧
    ((∀ o r m b, act ≠ .steer o r m b) →
      t.steer.rudder = s.steer.rudder ∧ t.steer.bowMode = s.steer.bowMode ∧
        t.steer.bowDemand = s.steer.bowDemand) ∧
    ((∀ o m, act ≠ .convoyMode o m) → (∀ o x, act ≠ .helmResume o x) → act ≠ .guardExpiry →
      t.helm.mode = s.helm.mode ∧ t.helm.helm = s.helm.helm ∧ t.helm.remembered = s.helm.remembered) ∧
    ((∀ o p m d f, act ≠ .propel o p m d f) → (∀ o r m b, act ≠ .steer o r m b) →
      (∀ o m, act ≠ .convoyMode o m) → (∀ o x, act ≠ .takeCommand o x) → (∀ o x, act ≠ .helmResume o x) →
      (∀ o i r, act ≠ .tableWriteMode o i r) → act ≠ .guardExpiry → t.helm.guardAt = s.helm.guardAt) ∧
    ((∀ o x, act ≠ .takeCommand o x) → (∀ o x, act ≠ .helmResume o x) →
      (∀ o i a, act ≠ .tableWriteStation o i a) → t.helm.command = s.helm.command)

/-- The own address changes only by SET_ADDRESS, the allocation of the buffers only by ALLOCATE and a warm restart,
the master enable only by NOTICE_SETUP, and all of them by power-on reset (R152, R168, R172, R178). An entry leaves
the notice list only by NOTICE_READ, NOTICE_CLEAR and the two resets; every other command leaves the list as the
beginning of the new one (R175, R176). -/
def Obligations.LinkAndNoticesChangeByTheirCommands : Prop :=
  (∀ (c : Instr) (s t : State), let act := c.actual s.link.own
    exec c s = .next t → c ≠ .powerOnReset →
     ((∀ o a, act ≠ .setAddress o a) → t.link.own = s.link.own) ∧
     ((∀ o w m x, act ≠ .allocate o w m x) → (∀ o, act ≠ .restart o) →
       t.fwd.reserved = s.fwd.reserved ∧ t.fwd.pool = s.fwd.pool ∧
         t.fwd.pendingDecrease = s.fwd.pendingDecrease) ∧
     ((∀ o m k a d, act ≠ .noticeSetup o m k a d) → t.notices.master = s.notices.master)) ∧
  (∀ (c : Instr) (s t : State), let act := c.actual s.link.own
    exec c s = .next t → c ≠ .powerOnReset → (∀ o, act ≠ .restart o) →
     (∀ o k x, act ≠ .noticeRead o k x) → (∀ o k x y, act ≠ .noticeClear o k x y) →
     s.notices.list <+: t.notices.list)

/-! ### Which orders and requests are carried out, and what each draws -/

/-- R6, checks 2 and 3: an order that may not be carried out draws its refusal and changes nothing but the assembly of
port W and the answer lane. The rows are a source that is not listed, the helm state LOST, a listed source that is not
in command, and a HELM_RESUME while the helm state is NORMAL. That a HELM_RESUME draws REFUSED_STATE at helm NORMAL
also after a warm restart, where a sentence of R188 has REFUSED_STATION for every order but TAKE_COMMAND, is the
model's reading (log entry 23). -/
def Obligations.RefusedOrdersChangeNothing : Prop :=
  ∀ (s : State) (o : Origin) (c : Instr) (kind : Byte), s.hasRoom →
    (((∃ p m d f, c = .propel o p m d f) ∧ kind = 1) ∨ ((∃ r m b, c = .steer o r m b) ∧ kind = 2) ∨
      ((∃ x, c = .convoyMode o x) ∧ kind = 3) ∨
      ((∃ x, c = .coupleRelease o x ∨ c = .coupleCancel o x ∨ c = .coupleMakeUp o x ∨
        c = .acceptParted o x) ∧ kind = 4) ∨
      ((∃ x, c = .takeCommand o x ∨ c = .helmResume o x) ∧ kind = 3)) →
    let drawn (code : Byte) : Outcome :=
      .next ((s.frameEnd .W).withAnswers (s.fwd.answers ++ [answerFrame s.link.own o kind code]))
    (s.helm.lists o.src = false → exec c s = drawn 2) ∧
    (s.helm.lists o.src = true → s.helm.helm = .lost → (∀ x, c ≠ .helmResume o x) → exec c s = drawn 3) ∧
    (s.helm.lists o.src = true → s.helm.helm = .normal → s.helm.command ≠ some o.src →
      (∀ x, c ≠ .helmResume o x) → (∀ x, c ≠ .takeCommand o x) → exec c s = drawn 2) ∧
    (s.helm.lists o.src = true → s.helm.helm = .normal → (∃ x, c = .helmResume o x) → exec c s = drawn 4)

/-- R163: an order or a request addressed to the part, heard on port W, is lost where the answer lane holds four
frames; with room it draws exactly one answer or reply, at the tail of the lane, to its source, with its TAG and its
KIND (R7, R156, R161). A warm restart empties the lane first and is stated by itself. -/
def Obligations.EachDrawsOneAnswer : Prop :=
  ∀ (s : State) (f : Frame), f.dest = s.link.own → f.cls = 0 ∨ f.cls = 5 →
    (s.listens .W → 4 ≤ s.fwd.answers.length → exec (classify s.link.own .W f) s = .next (s.frameEnd .W)) ∧
    (s.hasRoom → (∀ o, classify s.link.own .W f ≠ .restart o) →
      ∃ (t : State) (a : Frame), exec (classify s.link.own .W f) s = .next t ∧
        t.fwd.answers = s.fwd.answers ++ [a] ∧ a.dest = f.src ∧ a.tag = f.tag ∧
        a.cls = (if f.cls = 0 then 1 else 5) ∧ a.payload.head? = some (f.payload.headD 0) ∧
        a.src = t.link.own)

/-! ### Frames on the line -/

/-- For every command that a frame gives, the bytes of that frame on the line, each with a good stop bit, give the
command back, with every operand at every value (R149, R157 to R162, R183, 7.5). -/
def Obligations.FramesGiveTheirCommands : Prop :=
  ∀ (own : Byte) (c : Instr) (p : Port) (f : Frame), c.wellFormed = true → c.frame own = some (p, f) →
    ((∃ q g, c = .passageFrame q g) → fixedIntake own p f = false) →
    frameEnd own p (f.bytes.map fun b => { data := b, valid := true }) = c

/-- A frame end finds a good frame exactly where no byte is in error, the bytes are those of a frame, its CHECK
included, and its LEN is at most 24 (R147 to R149). -/
def Obligations.GoodFrameIsJudged : Prop :=
  ∀ (rx : List LineByte) (f : Frame),
    judge (gather rx) = some f ↔
      (∀ b ∈ rx, b.valid = true) ∧ rx.map LineByte.data = f.bytes ∧ f.payload.length ≤ 24

/-! ### Convoy modes and the helm guard -/

/-- R8: a MODE order admitted with a code of 0 to 6 is taken: the named profile comes into force, the guard stops and
starts again where it is active, and forced steer assist, the ceiling components, the demand, the differential, the
targets and the tow ceilings are formed again under it; a code of 7 or above is answered RANGE and changes nothing.
That the components of an ABSENT engine are formed with the others is the model's reading (log entry 11). -/
def Obligations.ConvoyModeTaken : Prop :=
  ∀ (s : State) (o : Origin) (code : Byte), s.Admits o →
    (∀ m : Fin 8, code.toNat = m.val → m ≠ 7 →
      let base : State := { s.frameEnd .W with
        helm := { s.helm with mode := m, guardAt := guardFrom s.now s.helm.modes m } }
      ∃ t, exec (.convoyMode o code) s = .next t ∧
        Replied .tow base.setForced (answerFrame s.link.own o 3 0) t ∧
        t.TargetsFormed ∧ t.CeilingsFormed ∧ t.ForcedSound) ∧
    (7 ≤ code.toNat → exec (.convoyMode o code) s =
      .next ((s.frameEnd .W).withAnswers (s.fwd.answers ++ [answerFrame s.link.own o 3 6])))

/-- R9: a TAKE_COMMAND from a listed source makes it the station in command; a running guard starts again with its
full period and a stopped one stays stopped; COMMAND_TRANSFER is latched where the source was not in command before,
and no notice otherwise. No mode, power order, differential or demand changes, and an order that requires command from
the station that was in command before is answered REFUSED_STATION. -/
def Obligations.TakeCommandTaken : Prop :=
  ∀ (s : State) (o : Origin) (x : Byte), s.helm.lists o.src = true → s.helm.helm = .normal → s.hasRoom →
    let base : State := { s.frameEnd .W with
      helm := { s.helm with
        command := some o.src
        guardAt :=
          if s.helm.guardAt.isSome then some (s.now + 100000 * s.helm.modes[s.helm.mode].guardPeriod)
          else none } }
    ∃ t, exec (.takeCommand o x) s = .next t ∧
      Replied .notices base (answerFrame s.link.own o 3 0) t ∧
      (s.helm.command ≠ some o.src → t.hasNotice .commandTransfer o.src) ∧
      (s.helm.command = some o.src → t.notices = s.notices) ∧
      ∀ (c : Instr) (q : Origin) (kind : Byte), c.requiresCommand = some (q, kind) →
        s.helm.command = some q.src → q.src ≠ o.src → t.hasRoom →
        exec c t = .next ((t.frameEnd .W).withAnswers (t.fwd.answers ++ [answerFrame t.link.own q kind 2]))

/-- R11: at guard expiry the helm state becomes LOST, the mode is remembered, profile 7 comes into force with its
fallback power, the differential becomes 0 FIXED, and HELM_LOSS is latched for the station in command, which is kept,
as the demands are. With the guard stopped the command changes nothing. R13: a HELM_RESUME from a listed source ends
helm loss: the remembered mode comes into force again, the source takes command, and the guard starts where it is
active under that mode. P, the differential and the demands stay as they are. At both, targets, tow ceilings and
forced steer assist are formed again under the mode that comes into force. That the time base then stands at the
expiry is the model's choice (log entry 1). That the components of an ABSENT engine are formed with the others is the
model's reading (log entry 11). -/
def Obligations.HelmLossAndResume : Prop :=
  (∀ s : State,
     (∀ at_ : Nat, s.helm.guardAt = some at_ →
       let base : State := { s.reach at_ with
         helm := { s.helm with
           helm := .lost, remembered := some s.helm.mode, mode := 7, guardAt := none }
         prop := { s.prop with
           power := s.helm.modes[(7 : Fin 8)].fallback, diffMode := .fixed, fixedDiff := 0 } }
       ∃ t, exec .guardExpiry s = .next t ∧ Within .tow base.setForced t ∧
         t.TargetsFormed ∧ t.CeilingsFormed ∧ t.ForcedSound ∧
         t.hasNotice .helmLoss (s.helm.command.getD 0)) ∧
     (s.helm.guardAt = none → exec .guardExpiry s = .next s)) ∧
  (∀ (s : State) (o : Origin) (x : Byte) (m : Fin 8), s.helm.lists o.src = true → s.helm.helm = .lost →
     s.helm.remembered = some m → s.hasRoom →
     let base : State := { s.frameEnd .W with
       helm := { s.helm with
         mode := m, remembered := none, helm := .normal, command := some o.src
         guardAt := guardFrom s.now s.helm.modes m } }
     ∃ t, exec (.helmResume o x) s = .next t ∧
       Replied .tow base.setForced (answerFrame s.link.own o 3 0) t ∧
       t.TargetsFormed ∧ t.CeilingsFormed ∧ t.ForcedSound ∧
       (s.helm.command ≠ some o.src → t.hasNotice .commandTransfer o.src))

/-! ### Propulsion -/

/-- R27, R29, R36, R39 to R41: a PROPEL admitted is taken where its differential mode is FIXED or AUTO: P and the
fixed differential are stored, each brought to the nearest end of its range, an active guard starts again, a recompute
forms the demand and the targets and brings the slewing of every engine up to date. With the CRASH flag every issued
setpoint is 0; an engine whose setpoint was not 0 dwells, with the last sign of its side, or is as at the expiry of a
dwell of 0, unless its new target has that sign: then it slews from 0 with a full interval; an engine that stood at 0
keeps its sub-state up to the recompute. Any other differential mode is answered UNKNOWN and changes nothing. That the
components of an ABSENT engine are formed with the others is the model's reading (log entry 11). That a reversal dwell
of 0 expires inside the same event, and that a crash stop begins its dwell under the target that stands, are the
model's reading (log entry 12). -/
def Obligations.PropelTaken : Prop :=
  ∀ (s : State) (o : Origin) (p : Half) (mode : Byte) (d : Half) (flags : Byte), s.Admits o →
    (mode.toNat ≤ 1 →
      let base : State := { s.frameEnd .W with
        helm := { s.helm with
          guardAt :=
            if s.helm.mode = 0 ∨ s.helm.modes[s.helm.mode].guardPeriod = 0 then s.helm.guardAt
            else some (s.now + 100000 * s.helm.modes[s.helm.mode].guardPeriod) }
        prop := { s.prop with
          power := max (-1000) (min 1000 p.toInt), diffMode := if mode = 0 then .fixed else .auto
          fixedDiff := max (-300) (min 300 d.toInt) } }
      let kept : Bool := decide (-1000 ≤ p.toInt) && decide (p.toInt ≤ 1000) && decide (-300 ≤ d.toInt) &&
        decide (d.toInt ≤ 300)
      ∃ t, exec (.propel o p mode d flags) s = .next t ∧
        Replied .propulsion base (answerFrame s.link.own o 1 (if kept then 0 else 1)) t ∧
        t.TargetsFormed ∧ t.prop.demand = (base.prop.power * s.prop.nominal).tdiv 1000 ∧
        (flags.getLsbD 0 = false → ∀ i : Fin 6, s.Slewed s.prop.engines[i] t.prop.engines[i]) ∧
        (flags.getLsbD 0 = true → ∀ i : Fin 6,
          let x := s.prop.engines[i]
          let y := t.prop.engines[i]
          y.setpoint = 0 ∧ (x.setpoint = 0 → s.Slewed x y) ∧
          (x.setpoint ≠ 0 → (sideOf x.setpoint).agrees y.target →
            y.slew = .slewing ∧ y.stepAt = s.fullStep ∧ y.dwellAt = none ∧
              (0 < s.helm.modes[s.helm.mode].reversalDwell → y.lastSign = sideOf x.setpoint)) ∧
          (x.setpoint ≠ 0 → ¬ (sideOf x.setpoint).agrees y.target → s.Halted (sideOf x.setpoint) y))) ∧
    (1 < mode.toNat → exec (.propel o p mode d flags) s =
      .next ((s.frameEnd .W).withAnswers (s.fwd.answers ++ [answerFrame s.link.own o 1 7])))

/-- R28, R30 to R34: what a recompute makes of P, N, the weights and the composite ceilings it forms: the demand, the
shares with one redistribution, the differential in force, the targets and the unmet demand. -/
def Obligations.RecomputeSharesTheDemand : Prop :=
  ∀ s : State,
    let t := s.recompute
    let e (i : Fin 6) := s.prop.engines[i].entry
    let run (i : Fin 6) : Prop := s.prop.engines[i].state = .running
    let bound (i : Fin 6) (q : Int) : Int :=
      max (-(t.prop.engines[i].compositeAstern : Int)) (min (t.prop.engines[i].compositeAhead : Int) q)
    let demand := (s.prop.power * s.prop.nominal).tdiv 1000
    let weights := sum6 fun i => if s.prop.engines[i].state = .running then ((e i).weight : Int) else 0
    let first (i : Fin 6) : Int :=
      if weights = 0 then 0 else ((demand * (e i).weight).tdiv weights * 1000).tdiv (e i).rating
    let short := sum6 fun i =>
      if s.prop.engines[i].state = .running ∧ bound i (first i) ≠ first i then
        ((first i - bound i (first i)) * (e i).rating).tdiv 1000
      else 0
    let receives (i : Fin 6) : Bool :=
      decide (s.prop.engines[i].state = .running) && decide (bound i (first i) = first i) &&
        decide (0 < (e i).weight)
    let left := sum6 fun i => if receives i then ((e i).weight : Int) else 0
    let raised (i : Fin 6) : Int :=
      if short ≠ 0 ∧ receives i then
        bound i (first i) + ((short * (e i).weight).tdiv left * 1000).tdiv (e i).rating
      else bound i (first i)
    let automatic := max (-300) (min 300 ((s.steer.rudder * s.helm.modes[s.helm.mode].gain).tdiv 64))
    let diff := if s.prop.diffMode = .fixed ∧ s.steer.forced = false then s.prop.fixedDiff else automatic
    let sign (i : Fin 6) : Int := match (e i).side with
      | .port => 1
      | .centre => 0
      | .stbd => -1
    t.prop.demand = demand ∧ t.prop.diff = diff ∧
    (∀ i, run i → t.prop.engines[i].target = bound i (bound i (raised i) + sign i * diff)) ∧
    (∀ i, ¬ run i → t.prop.engines[i].target = 0) ∧
    (weights = 0 → t.prop.unmet = demand.natAbs) ∧
    (weights ≠ 0 → short = 0 → t.prop.unmet = 0) ∧
    (weights ≠ 0 → short ≠ 0 → left = 0 → t.prop.unmet = short.natAbs) ∧
    (weights ≠ 0 → short ≠ 0 → left ≠ 0 → (t.prop.unmet : Int) = sum6 fun i =>
      if receives i then ((((raised i - bound i (raised i)) * (e i).rating).tdiv 1000).natAbs : Int)
      else 0) ∧
    (0 < t.prop.unmet → t.hasNotice .unmetDemand 0)

/-- R24 to R26, R29, R35, R36, R40, R41: a recompute forms every ceiling component of each engine, and takes the
lowest as the composite ceilings of each engine that is not ABSENT, and it cuts an issued setpoint that they no longer
admit to the nearest end. It then brings the slewing of each engine up to date: a cut to 0 begins a dwell; a dwell is
cancelled by a target of the sign of its last sign, and goes on under another; an engine that slews at 0 with its last
sign kept dwells again under a target that has not that sign; else the engine is STEADY with the step timer stopped
where target and setpoint are equal, and SLEWING where they differ, the step timer started from STEADY, running on in
the same direction and restarted in the opposite one. That the components of an ABSENT engine are formed too, the
economy component of R116 among them, while its composites stay, is the model's reading (log entry 11). That a
reversal dwell of 0 expires inside the same event is the model's reading (log entry 12). -/
def Obligations.RecomputeFormsTheCeilings : Prop :=
  ∀ (s : State) (i : Fin 6),
    let p := s.helm.modes[s.helm.mode]
    let x := s.prop.engines[i]
    let y := s.recompute.prop.engines[i]
    y.modeAhead = p.aheadCeiling ∧ y.modeAstern = p.asternCeiling ∧
    (x.health = .sound → y.healthCeiling = 1000) ∧
    (x.health = .alert → y.healthCeiling = x.entry.alertCeiling) ∧
    (x.health = .alarm → y.healthCeiling = x.entry.alarmCeiling) ∧
    y.towCeiling = s.tow.applied.get x.entry.boat ∧
    y.economyCeiling = (if s.fuel.leg.reserve then p.economyCeiling else 1000) ∧
    (x.entry.serviceTank = none → y.tankLowCeiling = 1000) ∧
    (∀ k : Fin 8, x.entry.serviceTank = some k →
      y.tankLowCeiling = if s.fuel.tanks[k].low then s.fuel.tanks[k].entry.lowCeiling else 1000) ∧
    (x.state = .absent →
      y.compositeAhead = x.compositeAhead ∧ y.compositeAstern = x.compositeAstern) ∧
    (x.state ≠ .absent →
      y.compositeAhead =
        min y.modeAhead (min y.healthCeiling (min y.towCeiling (min y.economyCeiling y.tankLowCeiling))) ∧
      y.compositeAstern = min y.modeAstern (min y.healthCeiling (min y.towCeiling y.tankLowCeiling))) ∧
    (0 ≤ x.setpoint → y.setpoint = min x.setpoint y.compositeAhead) ∧
    (x.setpoint ≤ 0 → y.setpoint = max x.setpoint (-(y.compositeAstern : Int))) ∧
    s.Slewed x y

/-- R20 to R22, R29, R36, R40 to R42: an ENGINE_STATUS taken into the PROPULSION job from an ENROLLED governor sets
load, health level and state of its engine; an entry to TRIPPED latches ENGINE_TRIP; an engine that leaves RUNNING has
target and issued setpoint 0, and dwells if its setpoint was not 0 (with a reversal dwell of 0 it is as at the dwell's
expiry). A change of state or health level brings a recompute, which brings the slewing of every engine up to date;
without one no engine moves. The copies that the action calls for follow (R165). That a reversal dwell of 0 expires
inside the same event (log entry 12), that the components of an ABSENT engine are formed with the others, and that
each change of the health level recomputes (log entry 11), are the model's reading. -/
def Obligations.EngineStatusRead : Prop :=
  ∀ (s : State) (p : Port) (h : Header) (run : RunState) (load : Half) (lvl : AlarmLevel) (n : Fin 32)
    (i : Fin 6), s.Delivers p h (.engineStatus run load lvl) .propulsion n → s.engineOf n = some i →
    let e := s.prop.engines[i]
    let x : EngineState :=
      if e.state = .absent ∨ e.state = .lost then e.state
      else if lvl = .trip then .tripped
      else if run = .stopped then .standby
      else if e.state = .tripped then .tripped
      else .running
    let health : Health := match lvl with
      | .noAlarm => .sound
      | .alert => .alert
      | .alarm => .alarm
      | .trip => .alarm
    let base := (s.heardFrom p n).modEngine i fun y =>
      { y with load := load.toInt, health := health, state := x }
    ∃ u, exec (.engineStatus p h run load lvl) s =
        .next (s.andPass u p ((Content.engineStatus run load lvl).frame h)) ∧
      Within .propulsion base u ∧
      (x = .tripped → e.state ≠ .tripped → u.hasNotice .engineTrip (subjectOf i)) ∧
      (e.state = .running → x ≠ .running →
        u.prop.engines[i].target = 0 ∧ u.prop.engines[i].setpoint = 0) ∧
      (x ≠ e.state ∨ health ≠ e.health → ∀ j : Fin 6, s.Slewed s.prop.engines[j] u.prop.engines[j]) ∧
      (x = e.state → health = e.health → u.prop.engines = base.prop.engines)

/-- R37, R40: a step expiry moves the issued setpoint of its engine one step toward the target, never past 0 or past
the target, and no other engine's; the engine is then DWELLING, STEADY or SLEWING. Under a reversal dwell of 0 a step
to 0 leaves it as the expiry of that dwell does, inside the same step, which is the model's reading (log entry 12).
With the timer stopped the command changes nothing. R41: at dwell expiry the last sign becomes NONE; with a target of
0 the engine is STEADY, and otherwise it is SLEWING with a full step interval; nothing else changes. With the timer
stopped the command changes nothing. That the time base then stands at the expiry is the model's choice (log entry 1).
-/
def Obligations.StepAndDwellExpiry : Prop :=
  (∀ (s : State) (i : Fin 6),
     (s.prop.engines[i].stepAt = none → exec (.stepExpiry i) s = .next s) ∧
     ∀ at_ : Nat, s.prop.engines[i].stepAt = some at_ →
       let now := max s.now at_
       let p := s.helm.modes[s.helm.mode]
       let e := s.prop.engines[i]
       let step : Int := p.stepSize
       let x : Int :=
         if 0 < e.setpoint ∧ e.target < 0 then max 0 (e.setpoint - step)
         else if e.setpoint < 0 ∧ 0 < e.target then min 0 (e.setpoint + step)
         else if (e.target - e.setpoint).natAbs ≤ p.stepSize then e.target
         else if e.setpoint < e.target then e.setpoint + step
         else e.setpoint - step
       ∃ t, exec (.stepExpiry i) s = .next t ∧ Within .propulsion (s.reach at_) t ∧
         t.prop.engines[i].setpoint = x ∧ t.prop.engines[i].target = e.target ∧
         (∀ j : Fin 6, j ≠ i → t.prop.engines[j] = s.prop.engines[j]) ∧
         (x = 0 → e.setpoint ≠ 0 → 0 < p.reversalDwell →
           t.prop.engines[i].slew = .dwelling ∧ t.prop.engines[i].stepAt = none ∧
           t.prop.engines[i].dwellAt = some (now + 100000 * p.reversalDwell) ∧
           t.prop.engines[i].lastSign = (if 0 < e.setpoint then .ahead else .astern)) ∧
         (x = 0 → e.setpoint ≠ 0 → p.reversalDwell = 0 →
           t.prop.engines[i].lastSign = .unset ∧ t.prop.engines[i].dwellAt = none ∧
           t.prop.engines[i].slew = (if e.target = 0 then .steady else .slewing) ∧
           t.prop.engines[i].stepAt =
             (if e.target = 0 then none else some (now + 10000 * p.stepInterval))) ∧
         ((x ≠ 0 ∨ e.setpoint = 0) → x = e.target →
           t.prop.engines[i].slew = .steady ∧ t.prop.engines[i].stepAt = none) ∧
         ((x ≠ 0 ∨ e.setpoint = 0) → x ≠ e.target →
           t.prop.engines[i].slew = .slewing ∧
           t.prop.engines[i].stepAt = some (now + 10000 * p.stepInterval)) ∧
         (x ≠ 0 → e.setpoint = 0 → t.prop.engines[i].lastSign = .unset)) ∧
  (∀ (s : State) (i : Fin 6),
     (s.prop.engines[i].dwellAt = none → exec (.dwellExpiry i) s = .next s) ∧
     ∀ at_ : Nat, s.prop.engines[i].dwellAt = some at_ →
       exec (.dwellExpiry i) s = .next ((s.reach at_).modEngine i fun e =>
         { e with
           lastSign := .unset, dwellAt := none
           slew := if e.target = 0 then .steady else .slewing
           stepAt :=
             if e.target = 0 then none
             else some (max s.now at_ + 10000 * s.helm.modes[s.helm.mode].stepInterval) }))

/-- R22, R35, R37, R39, R43: a step expiry, a recompute that cuts an issued setpoint, a PROPEL with CRASH, and an
ENGINE_STATUS by which its engine leaves RUNNING each place the issued setpoint that they leave as a SETPOINT order of
its governor. The governor is named by no other engine, is neither FAILED nor UNUSED and has no waiting order of
another kind, and a slot is FREE, for a recompute still so after it. A recompute that finds all it forms already
formed places nothing and moves no target, setpoint or actuator. That the components of an ABSENT engine are formed
with the others is the model's reading (log entry 11). That a step expiry whose step also changes a wash direction
places its SETPOINT before the ANGLE and BOW orders of that change, and so takes the only FREE slot before the step,
is the model's choice (log entry 21). -/
def Obligations.SetpointChangesPlaceOrders : Prop :=
  (∀ (s : State) (i : Fin 6) (g : Fin 32) (at_ : Nat), s.maySetpoint i g → s.hasFree →
     s.prop.engines[i].stepAt = some at_ →
     ∃ t, exec (.stepExpiry i) s = .next t ∧ t.carriesSetpoint i g) ∧
  (∀ (s : State) (i : Fin 6) (g : Fin 32), s.maySetpoint i g →
     s.recompute.prop.engines[i].setpoint ≠ s.prop.engines[i].setpoint → s.recompute.hasFree →
     s.recompute.carriesSetpoint i g) ∧
  (∀ (s : State) (o : Origin) (p : Half) (mode : Byte) (d : Half) (flags : Byte) (i : Fin 6) (g : Fin 32),
     s.Admits o → mode.toNat ≤ 1 → flags.getLsbD 0 = true → s.prop.engines[i].setpoint ≠ 0 →
     s.maySetpoint i g →
     ∃ t, exec (.propel o p mode d flags) s = .next t ∧ (t.hasFree → t.carriesSetpoint i g)) ∧
  (∀ (s : State) (p : Port) (h : Header) (run : RunState) (load : Half) (lvl : AlarmLevel) (n : Fin 32)
     (i : Fin 6), s.Delivers p h (.engineStatus run load lvl) .propulsion n → s.engineOf n = some i →
     s.prop.engines[i].state = .running → run = .stopped ∨ lvl = .trip → s.maySetpoint i n →
     ∃ t, exec (.engineStatus p h run load lvl) s = .next t ∧ (t.hasFree → t.carriesSetpoint i n)) ∧
  ∀ s : State, s.TargetsFormed → s.EnginesSound → s.WashSound →
    s.recompute.trans = s.trans ∧ s.recompute.steer = s.steer ∧
    ∀ i : Fin 6, s.recompute.prop.engines[i].target = s.prop.engines[i].target ∧
      s.recompute.prop.engines[i].setpoint = s.prop.engines[i].setpoint

/-! ### Steering -/

/-- R51 to R55, R57: a STEER admitted is taken where its bow mode is FOLLOW or EXPLICIT: δ and, in EXPLICIT, the bow
demand are stored, each brought to the nearest end of its range, an active guard starts again, and the ordered value
of every actuator that is not ABSENT follows the demands and the wash directions; one that changes is placed as an
ANGLE or BOW order. With AUTO or forced steer assist a recompute follows; without both propulsion stays, and where no
ordered value changes nothing is placed. Any other bow mode is answered UNKNOWN and changes nothing. A recompute and a
step expiry form again the ordered values of the actuators, not ABSENT, of a boat whose wash direction they change,
those of boat 1 with the bow unit, and no others, and place those that change. Each placement is stated for a node
that no engine and no other actuator names, neither FAILED nor UNUSED, with no waiting order of another kind and a
slot FREE afterwards. That the components of an ABSENT engine are formed with the others is the model's reading (log
entry 11). That a reversal dwell of 0 expires inside the same event is the model's reading (log entry 12). -/
def Obligations.SteerTaken : Prop :=
  (∀ (s : State) (o : Origin) (r : Half) (mode : Byte) (bow : Half), s.Admits o →
    (mode.toNat ≤ 1 →
      let base : State := { s.frameEnd .W with
        helm := { s.helm with
          guardAt :=
            if s.helm.mode = 0 ∨ s.helm.modes[s.helm.mode].guardPeriod = 0 then s.helm.guardAt
            else some (s.now + 100000 * s.helm.modes[s.helm.mode].guardPeriod) }
        steer := { s.steer with
          rudder := max (-450) (min 450 r.toInt), bowMode := if mode = 0 then .follow else .explicit
          bowDemand := if mode = 0 then s.steer.bowDemand else max (-1000) (min 1000 bow.toInt) } }
      let kept : Bool := decide (-450 ≤ r.toInt) && decide (r.toInt ≤ 450) &&
        (decide (mode = 0) || (decide (-1000 ≤ bow.toInt) && decide (bow.toInt ≤ 1000)))
      ∃ t, exec (.steer o r mode bow) s = .next t ∧
        Replied .propulsion base (answerFrame s.link.own o 2 (if kept then 0 else 1)) t ∧
        (∀ a : Fin 5, t.steer.actuators[a].state ≠ .absent →
          t.steer.actuators[a].ordered = t.mapped t.steer.actuators[a]) ∧
        (∀ (a : Fin 5) (n : Fin 32), s.mayOrder a n →
          t.steer.actuators[a].ordered ≠ s.steer.actuators[a].ordered → t.hasFree → t.carriesOrdered a n) ∧
        (s.prop.diffMode = .fixed → s.steer.forced = false → t.prop = s.prop ∧
          ((∀ a : Fin 5, t.steer.actuators[a].ordered = s.steer.actuators[a].ordered) →
            t.trans = s.trans ∧ t.nodes = s.nodes)) ∧
        (s.prop.diffMode = .auto ∨ s.steer.forced = true →
          t.TargetsFormed ∧ ∀ i : Fin 6, s.Slewed s.prop.engines[i] t.prop.engines[i])) ∧
    (1 < mode.toNat → exec (.steer o r mode bow) s =
      .next ((s.frameEnd .W).withAnswers (s.fwd.answers ++ [answerFrame s.link.own o 2 7])))) ∧
  let remapped (s t : State) : Prop :=
    (∀ a : Fin 5,
      let x := s.steer.actuators[a]
      let b : Boat := if x.entry.kind = .bowUnit then .b1 else x.entry.boat
      (x.state ≠ .absent → t.prop.wash.get b ≠ s.prop.wash.get b → t.steer.actuators[a].ordered = t.mapped x) ∧
      (x.state = .absent ∨ t.prop.wash.get b = s.prop.wash.get b →
        t.steer.actuators[a].ordered = x.ordered)) ∧
    ∀ (a : Fin 5) (n : Fin 32), s.mayOrder a n →
      t.steer.actuators[a].ordered ≠ s.steer.actuators[a].ordered → t.hasFree → t.carriesOrdered a n
  (∀ s : State, remapped s s.recompute) ∧
  ∀ (s : State) (i : Fin 6) (at_ : Nat), s.prop.engines[i].stepAt = some at_ →
    ∃ t, exec (.stepExpiry i) s = .next t ∧ remapped s t

/-- R57, R61, R62, R65: an ACTUATOR_STATUS taken into the STEERING job from an ENROLLED node sets the reported
position of its actuator and moves its state and its divergence timer by the fault flag and the divergence test;
forced steer assist follows. A return to READY from FAULT places the ordered value, where nothing stands in its way
and a slot is FREE afterwards. The copies that the action calls for follow (R165). At divergence expiry an actuator in
READY becomes DIVERGED, ACTUATOR_DIVERGED is latched, and forced steer assist holds exactly where a MAIN_RUDDER is
DIVERGED, in FAULT or LOST and the gain of the mode in force is above 0. With the timer stopped the command changes
nothing. That the time base then stands at the expiry is the model's choice (log entry 1). -/
def Obligations.ActuatorStatusAndDivergence : Prop :=
  (∀ (s : State) (p : Port) (h : Header) (position : Half) (flag : FaultFlag) (n : Fin 32) (i : Fin 5),
     s.Delivers p h (.actuatorStatus position flag) .steering n → s.actuatorOf n = some i →
     s.ForcedSound →
     let a := s.steer.actuators[i]
     let out : Bool := decide (a.entry.band < (position.toInt - a.ordered).natAbs)
     let started : Timer := if out then some (s.now + 100000 * a.entry.time) else none
     let x : ActuatorState × Timer := match a.state, flag with
       | .ready, .fault => (.fault, none)
       | .diverged, .fault => (.fault, none)
       | .ready, .noFault => (.ready, if out then a.divergeAt.or started else none)
       | .diverged, .noFault => if out then (.diverged, a.divergeAt) else (.ready, none)
       | .fault, .noFault => (.ready, started)
       | y, _ => (y, a.divergeAt)
     let base := (s.heardFrom p n).modActuator i fun y =>
       { y with reported := position.toInt, state := x.1, divergeAt := x.2 }
     ∃ u, exec (.actuatorStatus p h position flag) s =
         .next (s.andPass u p ((Content.actuatorStatus position flag).frame h)) ∧
       Within .propulsion base.setForced u ∧
       (x.1 = .fault → a.state ≠ .fault → u.hasNotice .actuatorFault (subjectOf i)) ∧
       (a.state = .fault → flag = .noFault → s.mayOrder i n → u.hasFree → u.carriesOrdered i n)) ∧
  (∀ (s : State) (i : Fin 5),
     (s.steer.actuators[i].divergeAt = none → exec (.divergenceExpiry i) s = .next s) ∧
     ∀ at_ : Nat, s.steer.actuators[i].divergeAt = some at_ → s.steer.actuators[i].state = .ready →
       let base := (s.reach at_).modActuator i fun a => { a with state := .diverged, divergeAt := none }
       ∃ t, exec (.divergenceExpiry i) s = .next t ∧ Within .propulsion base.setForced t ∧
         t.hasNotice .actuatorDiverged (subjectOf i) ∧
         (t.steer.forced = true ↔
           (∃ a : Fin 5, t.steer.actuators[a].entry.kind = .mainRudder ∧
             (t.steer.actuators[a].state = .diverged ∨ t.steer.actuators[a].state = .fault ∨
               t.steer.actuators[a].state = .lost)) ∧
           0 < s.helm.modes[s.helm.mode].gain))

/-! ### Couplings -/

/-- R71 to R75, R87, R90, R94: a TENSION frame of one reading, taken into the TOW job from an ENROLLED sensor, moves a
coupling that is not in work by its state, the reading, the last tension and the marks scaled by the mode in force,
and then sets the last tension and restarts the sample timer. For a coupling in RELEASING a reading at or above the
slack mark moves its prior state in the same way, and one below it ends a release past WAIT_ZERO as done; in WAIT_ZERO
it parts the coupling where the load was lost at or above the scaled alert mark, the prior state not SILENT, and makes
the prior state SLACK where not. A coupling in MAKING_UP is MADE_UP by a reading at or above the slack mark. Ended
work gives up its release slot. The count set to 0 with a prior state of SLACK, and kept where the work ends as PARTED
or RELEASED, are the model's reading (log entry 15). A frame of several readings does the work of each in its order,
and a reading of no coupling does nothing. The copies that the action calls for follow (R165). -/
def Obligations.TensionRead : Prop :=
  (∀ (s : State) (p : Port) (h : Header) (ch : Byte) (v : Half) (n : Fin 32) (c : Fin 48),
     s.Delivers p h (.tension [(ch, v)]) .tow n → s.couplingOf n ch = some c →
     let k := s.tow.couplings[c]
     let scale := s.helm.modes[s.helm.mode].tensionScale
     let a := k.entry.alert * scale / 16
     let o := k.entry.overload * scale / 16
     let t := v.toNat
     let loaded : CouplingState × Nat := if k.entry.slack ≤ t then (.madeUp, 0) else (.slack, k.count)
     let ended : CouplingState × Nat := (if a ≤ k.last then .parted else .slack, 0)
     let judged (y : CouplingState) : CouplingState × Nat := match y with
       | .slack => loaded
       | .silent => loaded
       | .madeUp =>
         if t < k.entry.slack then ended
         else if t < a then (.madeUp, 0)
         else if k.entry.debounce ≤ k.count + 1 then (.alert, 0)
         else (.madeUp, k.count + 1)
       | .alert =>
         if t < k.entry.slack then ended
         else if o ≤ t then (.overload, k.count)
         else if t + k.entry.hysteresis < a then (.madeUp, 0)
         else (.alert, k.count)
       | .overload =>
         if t < k.entry.slack then ended
         else if t + k.entry.hysteresis < o then (.alert, k.count)
         else (.overload, k.count)
       | y => (y, k.count)
     let sampled (f : Coupling → Coupling) : State := (s.heardFrom p n).modCoupling c fun y =>
       { f y with last := t, sampleAt := some (s.now + 100000 * s.nodes[n].entry.silence) }
     let ended (y : CouplingState) (count : Nat) : State :=
       let r := sampled fun z =>
         { z with state := y, phase := none, prior := none, waitAt := none, count := count }
       { r with tow := { r.tow with work := none } }
     ∃ u, exec (.tension p h [(ch, v)]) s =
         .next (s.andPass u p ((Content.tension [(ch, v)]).frame h)) ∧
       (k.state ≠ .releasing → k.state ≠ .makingUp →
         let x := judged k.state
         Within .tow (sampled fun y => { y with state := x.1, count := x.2 }) u ∧
         (x.1 ≠ k.state → x.1 = .alert → k.state ≠ .overload → u.hasNotice .couplingAlert (subjectOf c)) ∧
         (x.1 ≠ k.state → x.1 = .overload → u.hasNotice .couplingOverload (subjectOf c)) ∧
         (x.1 ≠ k.state → x.1 = .parted → u.hasNotice .couplingParted (subjectOf c))) ∧
       (∀ y : CouplingState, k.state = .releasing → k.prior = some y →
         (k.entry.slack ≤ t →
           u = sampled fun z => { z with prior := some (judged y).1, count := (judged y).2 }) ∧
         (t < k.entry.slack → k.phase = some .waitZero → y ≠ .silent ∧ a ≤ k.last →
           Within .tow (ended .parted k.count) u ∧ u.hasNotice .couplingParted (subjectOf c) ∧
             ∀ i : Fin 16, s.releaseSlotOf c = some i → u.gaveUp c i) ∧
         (t < k.entry.slack → k.phase = some .waitZero → y = .silent ∨ k.last < a →
           u = sampled fun z => { z with prior := some .slack, count := 0 }) ∧
         (t < k.entry.slack → k.phase = some .ordered ∨ k.phase = some .awaitSlack →
           Within .tow (ended .released k.count) u ∧ u.hasNotice .releaseDone (subjectOf c) ∧
             ∀ i : Fin 16, s.releaseSlotOf c = some i → u.gaveUp c i)) ∧
       (k.state = .makingUp → k.entry.slack ≤ t → Within .tow (ended .madeUp 0) u) ∧
       (k.state = .makingUp → t < k.entry.slack → u = sampled fun z => z)) ∧
  (∀ (s : State) (p : Port) (h : Header) (rs : List (Byte × Half)) (n : Fin 32),
     s.Delivers p h (.tension rs) .tow n →
     exec (.tension p h rs) s =
       .next (s.andPass (rs.foldl (State.tensionReading n) (s.heardFrom p n)) p ((Content.tension rs).frame h))) ∧
  (∀ (s : State) (n : Fin 32) (ch : Byte) (v : Half), s.couplingOf n ch = none →
     State.tensionReading n s (ch, v) = s)

/-- R79, R80: a forming of the tow ceilings takes for each boat the lowest contribution of the couplings that bear on
it; a fall applies at once and stops the hold timer, a rise starts a stopped hold timer, and with a hold time of 0 it
applies at once. -/
def Obligations.TowCeilingsFormed : Prop :=
  ∀ (s : State) (b : Boat),
    let p := s.helm.modes[s.helm.mode]
    let t := s.formTow
    let share (c : Fin 48) : Nat := match s.tow.couplings[c].state with
      | .alert => p.towAlertCeiling
      | .silent => p.towAlertCeiling
      | .makingUp => p.towAlertCeiling
      | .overload => p.towOverloadCeiling
      | .parted => 0
      | .releasing => 0
      | _ => 1000
    let bears (c : Fin 48) : Prop :=
      s.tow.couplings[c].entry.bearsOn = .all ∨
        s.tow.couplings[c].entry.bearsOn = (match b with | .b1 => .boat1 | .b2 => .boat2)
    let x := t.tow.computed.get b
    let old := s.tow.applied.get b
    x ≤ 1000 ∧ (∀ c, bears c → x ≤ share c) ∧ (x = 1000 ∨ ∃ c, bears c ∧ x = share c) ∧
    (x ≤ old → t.tow.applied.get b = x ∧ t.tow.holdAt.get b = none) ∧
    (old < x → (s.tow.holdAt.get b).isSome = true →
      t.tow.applied.get b = old ∧ t.tow.holdAt.get b = s.tow.holdAt.get b) ∧
    (old < x → s.tow.holdAt.get b = none → 0 < p.towHold →
      t.tow.applied.get b = old ∧ t.tow.holdAt.get b = some (s.now + 1000000 * p.towHold)) ∧
    (old < x → s.tow.holdAt.get b = none → p.towHold = 0 → t.tow.applied.get b = x)

/-- R84, R85: a COUPLE RELEASE of a coupling that is SLACK, MADE_UP or ALERT, with a winch that may be worked, no
other work in progress and a slot to be had, is taken: the coupling is RELEASING with the wait captured, its WINCH
RELEASE order has a waiting slot, and the boats it bears on have a tow ceiling of 0. The phase is ORDERED exactly
where the boat-at-zero condition of its set holds. A coupling index above 47 is answered RANGE. REFUSED_STATE is the
answer where the coupling is UNUSED or in another state than those, or its winch is none, FAILED or UNUSED, and
otherwise REFUSED_BUSY where another coupling is in work, the winch has a waiting order, or no slot is FREE (R83,
R136). A refused order changes nothing. -/
def Obligations.CoupleReleaseTaken : Prop :=
  (∀ (s : State) (o : Origin) (index : Byte) (c : Fin 48) (w : Fin 32), s.Admits o →
     index.toNat = c.val → s.tow.couplings[c].entry.winch = some w →
     s.nodes[w].state ≠ .failed → s.nodes[w].state ≠ .unused →
     s.tow.couplings[c].state = .slack ∨ s.tow.couplings[c].state = .madeUp ∨
       s.tow.couplings[c].state = .alert →
     s.tow.work = none → s.waitingSlot w = none → (∃ i : Fin 16, s.trans.slots[i].state = .free) →
     let base := (s.frameEnd .W).modCoupling c fun k =>
       { k with
         state := .releasing, prior := some k.state
         waitAt := some (s.now + 1000000 * s.helm.modes[s.helm.mode].waitLimit) }
     let set := s.tow.couplings[c].entry.bearsOn
     ∃ t, exec (.coupleRelease o index) s = .next t ∧
       Replied .tow { base with tow := { base.tow with work := some c } } (answerFrame s.link.own o 4 0) t ∧
       (∃ i : Fin 16, t.trans.slots[i].isWaiting = true ∧ t.trans.slots[i].target = w ∧
         t.trans.slots[i].kind = .winch ∧ t.trans.slots[i].value = .release ∧
         t.trans.slots[i].owner = some (.tow c) ∧ t.trans.slots[i].condition = some set) ∧
       t.tow.couplings[c].phase = some (if t.prop.zeroOf set then .ordered else .waitZero) ∧
       (∀ b : Boat, set = .all ∨ set = (match b with | .b1 => .boat1 | .b2 => .boat2) →
         t.tow.applied.get b = 0)) ∧
  (∀ (s : State) (o : Origin) (index : Byte), s.Admits o →
     let refused (code : Byte) : Outcome :=
       .next ((s.frameEnd .W).withAnswers (s.fwd.answers ++ [answerFrame s.link.own o 4 code]))
     (48 ≤ index.toNat → exec (.coupleRelease o index) s = refused 6) ∧
     (∀ c : Fin 48, index.toNat = c.val →
       let k := s.tow.couplings[c]
       let may : Prop := k.state = .slack ∨ k.state = .madeUp ∨ k.state = .alert
       (¬ may → exec (.coupleRelease o index) s = refused 4) ∧
       (k.entry.winch = none → exec (.coupleRelease o index) s = refused 4) ∧
       ∀ w : Fin 32, k.entry.winch = some w →
         (s.nodes[w].state = .failed ∨ s.nodes[w].state = .unused →
           exec (.coupleRelease o index) s = refused 4) ∧
         (may → s.nodes[w].state ≠ .failed → s.nodes[w].state ≠ .unused →
           (∃ d : Fin 48, d ≠ c ∧ s.tow.work = some d) ∨ (s.waitingSlot w).isSome = true ∨
             (∀ i : Fin 16, s.trans.slots[i].state ≠ .free) →
           exec (.coupleRelease o index) s = refused 5)))

/-- R85: SLOT_RELEASE of a coupling in WAIT_ZERO whose condition holds releases its HELD slot, QUEUED at the tail of
its lane or WAITING behind an order in flight, with phase ORDERED; where the condition does not hold it changes
nothing. Where an ENGINE_STATUS of a RUNNING engine brings a load above its idle band, so that the condition of its
set becomes FALSE, a release in ORDERED whose slot has not been sent returns to WAIT_ZERO, its slot HELD again and out
of its lane. R89, R91, R95: a COUPLE CANCEL of a release in WAIT_ZERO returns the coupling to its prior state, with
the notice of that state and its release slot given up; an ACCEPT_PARTED of a PARTED coupling makes it RELEASED. In
any other state or phase each is answered REFUSED_STATE, and with an index above 47 RANGE, and changes nothing. That
SLOT_RELEASE is a command of its own, without effect until its condition holds, is the model's reading (log entry 2).
So is that a CANCEL and an ACCEPT_PARTED keep the count over alert (log entry 15). -/
def Obligations.SlotReleaseCancelAndAccept : Prop :=
  (∀ (s : State) (c : Fin 48),
     (∀ i : Fin 16, s.tow.couplings[c].state = .releasing → s.tow.couplings[c].phase = some .waitZero →
       s.prop.zeroOf s.tow.couplings[c].entry.bearsOn = true → s.releaseSlotOf c = some i →
       s.trans.slots[i].state = .held →
       let n := s.trans.slots[i].target
       ∃ t, exec (.slotRelease c) s = .next t ∧
         (s.flightSlot n = none →
           t = (s.queueSlot i).modCoupling c (fun k => { k with phase := some .ordered }) ∧
           t.trans.lane s.nodes[n].entry.port = s.trans.lane s.nodes[n].entry.port ++ [i]) ∧
         ((s.flightSlot n).isSome = true →
           t = (s.modSlot i fun x => { x with state := .waiting }).modCoupling c fun k =>
             { k with phase := some .ordered })) ∧
     (s.prop.zeroOf s.tow.couplings[c].entry.bearsOn = false → exec (.slotRelease c) s = .next s)) ∧
  (∀ (s : State) (p : Port) (h : Header) (load : Half) (lvl : AlarmLevel) (n : Fin 32) (i : Fin 6)
     (c : Fin 48) (j : Fin 16), s.Delivers p h (.engineStatus .running load lvl) .propulsion n →
     s.engineOf n = some i →
     let e := s.prop.engines[i]
     let set := s.tow.couplings[c].entry.bearsOn
     e.state = .running → (match e.health with
       | .sound => lvl = .noAlarm
       | .alert => lvl = .alert
       | .alarm => lvl = .alarm) →
     e.entry.idleBand < load.toInt.natAbs →
     set = .all ∨ set = (match e.entry.boat with | .b1 => .boat1 | .b2 => .boat2) →
     s.tow.work = some c → s.tow.couplings[c].state = .releasing →
     s.tow.couplings[c].phase = some .ordered → s.prop.zeroOf set = true →
     s.releaseSlotOf c = some j → s.trans.slots[j].state = .waiting ∨ s.trans.slots[j].state = .queued →
     ∃ t, exec (.engineStatus p h .running load lvl) s = .next t ∧ t.prop.zeroOf set = false ∧
       t.tow.couplings[c].phase = some .waitZero ∧ t.trans.slots[j].state = .held ∧
       ∀ q : PlantPort, j ∉ t.trans.lane q) ∧
  (∀ (s : State) (o : Origin) (index : Byte) (c : Fin 48), s.Admits o → index.toNat = c.val →
     let k := s.tow.couplings[c]
     let ended := (s.frameEnd .W).modCoupling c fun k =>
       { k with state := k.prior.getD .slack, phase := none, prior := none, waitAt := none }
     let refused : Outcome :=
       .next ((s.frameEnd .W).withAnswers (s.fwd.answers ++ [answerFrame s.link.own o 4 4]))
     (k.state = .releasing → k.phase = some .waitZero →
       ∃ t, exec (.coupleCancel o index) s = .next t ∧
         Replied .tow { ended with tow := { ended.tow with work := none } } (answerFrame s.link.own o 4 0) t ∧
         (k.prior = some .alert → t.hasNotice .couplingAlert (subjectOf c)) ∧
         (k.prior = some .overload → t.hasNotice .couplingOverload (subjectOf c)) ∧
         (k.prior = some .silent → t.hasNotice .couplingSilent (subjectOf c)) ∧
         ∀ i : Fin 16, s.releaseSlotOf c = some i → t.gaveUp c i) ∧
     (k.state = .parted →
       ∃ t, exec (.acceptParted o index) s = .next t ∧
         Replied .tow ((s.frameEnd .W).modCoupling c fun k => { k with state := .released })
           (answerFrame s.link.own o 4 0) t) ∧
     (k.state ≠ .releasing ∨ k.phase ≠ some .waitZero → exec (.coupleCancel o index) s = refused) ∧
     (k.state ≠ .parted → exec (.acceptParted o index) s = refused)) ∧
  (∀ (s : State) (o : Origin) (index : Byte), s.Admits o → 48 ≤ index.toNat →
     let range : Outcome :=
       .next ((s.frameEnd .W).withAnswers (s.fwd.answers ++ [answerFrame s.link.own o 4 6]))
     exec (.coupleCancel o index) s = range ∧ exec (.acceptParted o index) s = range)

/-- R93: a COUPLE MAKE_UP of a coupling that is SLACK or RELEASED, with a winch that may be worked, no other work in
progress and a slot to be had, is taken: the coupling is MAKING_UP with count 0 and the wait captured, and its HEAVE
order waits for the winch with the heave target as value. A coupling index above 47 is answered RANGE. REFUSED_STATE
is the answer where the coupling is UNUSED or in another state than those, or its winch is none, FAILED or UNUSED, and
otherwise REFUSED_BUSY where another coupling is in work, the winch has a waiting order, or no slot is FREE (R83,
R136). A refused order changes nothing. -/
def Obligations.CoupleMakeUpTaken : Prop :=
  (∀ (s : State) (o : Origin) (index : Byte) (c : Fin 48) (w : Fin 32), s.Admits o →
     index.toNat = c.val → s.tow.couplings[c].entry.winch = some w →
     s.nodes[w].state ≠ .failed → s.nodes[w].state ≠ .unused →
     s.tow.couplings[c].state = .slack ∨ s.tow.couplings[c].state = .released →
     s.tow.work = none → s.waitingSlot w = none → (∃ i : Fin 16, s.trans.slots[i].state = .free) →
     let base := (s.frameEnd .W).modCoupling c fun k =>
       { k with
         state := .makingUp, phase := none, prior := some k.state, count := 0
         waitAt := some (s.now + 1000000 * s.helm.modes[s.helm.mode].waitLimit) }
     ∃ t, exec (.coupleMakeUp o index) s = .next t ∧
       Replied .tow { base with tow := { base.tow with work := some c } } (answerFrame s.link.own o 4 0) t ∧
       ∃ i : Fin 16, t.trans.slots[i].isWaiting = true ∧ t.trans.slots[i].target = w ∧
         t.trans.slots[i].kind = .winch ∧
         t.trans.slots[i].value = .heave s.tow.couplings[c].entry.heave ∧
         t.trans.slots[i].owner = some (.tow c)) ∧
  (∀ (s : State) (o : Origin) (index : Byte), s.Admits o →
     let refused (code : Byte) : Outcome :=
       .next ((s.frameEnd .W).withAnswers (s.fwd.answers ++ [answerFrame s.link.own o 4 code]))
     (48 ≤ index.toNat → exec (.coupleMakeUp o index) s = refused 6) ∧
     (∀ c : Fin 48, index.toNat = c.val →
       let k := s.tow.couplings[c]
       let may : Prop := k.state = .slack ∨ k.state = .released
       (¬ may → exec (.coupleMakeUp o index) s = refused 4) ∧
       (k.entry.winch = none → exec (.coupleMakeUp o index) s = refused 4) ∧
       ∀ w : Fin 32, k.entry.winch = some w →
         (s.nodes[w].state = .failed ∨ s.nodes[w].state = .unused →
           exec (.coupleMakeUp o index) s = refused 4) ∧
         (may → s.nodes[w].state ≠ .failed → s.nodes[w].state ≠ .unused →
           (∃ d : Fin 48, d ≠ c ∧ s.tow.work = some d) ∨ (s.waitingSlot w).isSome = true ∨
             (∀ i : Fin 16, s.trans.slots[i].state ≠ .free) →
           exec (.coupleMakeUp o index) s = refused 5)))

/-- R77, R87, R90: a WINCH_STATUS taken into the TOW job from an ENROLLED winch: PARTED parts any coupling that is
neither UNUSED nor PARTED and ends its work; RELEASED ends a release past WAIT_ZERO; ended work gives up its release
slot (R89); anything else it leaves as it is. The copies that the action calls for follow (R165). That the count over
alert is kept is the model's reading (log entry 15). -/
def Obligations.WinchStatusRead : Prop :=
  ∀ (s : State) (p : Port) (h : Header) (x : WinchCondition) (n : Fin 32) (c : Fin 48),
    s.Delivers p h (.winchStatus x) .tow n →
    findTable s.tow.couplings (fun k => decide (k.entry.winch = some n)) = some c →
    let k := s.tow.couplings[c]
    let heard := s.heardFrom p n
    let ended (y : CouplingState) : State :=
      let r := heard.modCoupling c fun k =>
        { k with state := y, phase := none, prior := none, waitAt := none }
      { r with tow := { r.tow with work := none } }
    ∃ u, exec (.winchStatus p h x) s = .next (s.andPass u p ((Content.winchStatus x).frame h)) ∧
      (x = .parted → k.state = .unused ∨ k.state = .parted → u = heard) ∧
      (x = .parted → k.state = .releasing ∨ k.state = .makingUp →
        Within .tow (ended .parted) u ∧ u.hasNotice .couplingParted (subjectOf c) ∧
          ∀ i : Fin 16, s.releaseSlotOf c = some i → u.gaveUp c i) ∧
      (x = .parted → k.state = .slack ∨ k.state = .madeUp ∨ k.state = .alert ∨ k.state = .overload ∨
          k.state = .silent ∨ k.state = .released →
        Within .tow (heard.modCoupling c fun k => { k with state := .parted }) u ∧
          u.hasNotice .couplingParted (subjectOf c)) ∧
      (x = .released → k.state = .releasing → k.phase = some .ordered ∨ k.phase = some .awaitSlack →
        Within .tow (ended .released) u ∧ u.hasNotice .releaseDone (subjectOf c) ∧
          ∀ i : Fin 16, s.releaseSlotOf c = some i → u.gaveUp c i) ∧
      (x = .released → k.state ≠ .releasing ∨ k.phase = some .waitZero ∨ k.phase = none → u = heard) ∧
      (x = .holding ∨ x = .heaving → u = heard)

/-- R76, R80: at sample silence a loaded or slack coupling becomes SILENT with count 0 and COUPLING_SILENT latched,
work in progress goes on with SILENT as its prior state, and in any other state the timer alone stops; at hold expiry
the applied tow ceiling of the boat becomes its computed one, the timer stopped. R88, R94: at the wait expiry of a
release or of a make-up the work ends, the coupling returns to its prior state, a release past WAIT_ZERO whose last
tension is below the slack mark to SLACK, the release slot is given up (R89), and RELEASE_ABANDONED or
MAKEUP_ABANDONED is latched. That the time base then stands at the expiry is the model's choice (log entry 1). That
the end of a release or a make-up keeps the count over alert is the model's reading (log entry 15). -/
def Obligations.CouplingTimerExpiries : Prop :=
  (∀ s : State,
     (∀ (c : Fin 48) (at_ : Nat), s.tow.couplings[c].sampleAt = some at_ →
       let k := s.tow.couplings[c]
       let x : Coupling :=
         if k.state = .slack ∨ k.state = .madeUp ∨ k.state = .alert ∨ k.state = .overload then
           { k with state := .silent, count := 0, sampleAt := none }
         else if k.state = .releasing ∨ k.state = .makingUp then
           { k with prior := some .silent, sampleAt := none }
         else { k with sampleAt := none }
       ∃ t, exec (.sampleSilenceExpiry c) s = .next t ∧
         Within .tow ((s.reach at_).modCoupling c fun _ => x) t ∧
         (x.state = .silent → k.state ≠ .silent → t.hasNotice .couplingSilent (subjectOf c))) ∧
     (∀ (b : Boat) (at_ : Nat), s.tow.holdAt.get b = some at_ →
       let r := s.reach at_
       ∃ t, exec (.holdExpiry b) s = .next t ∧
         Within .propulsion { r with tow := { r.tow with
           applied := r.tow.applied.set b (r.tow.computed.get b), holdAt := r.tow.holdAt.set b none } } t)) ∧
  (∀ (s : State) (c : Fin 48) (at_ : Nat), s.tow.couplings[c].waitAt = some at_ →
     let k := s.tow.couplings[c]
     let back (x : CouplingState) : State :=
       let r := (s.reach at_).modCoupling c fun k =>
         { k with state := x, phase := none, prior := none, waitAt := none }
       { r with tow := { r.tow with work := none } }
     (k.state = .releasing →
       let slackened : Prop :=
         (k.phase = some .ordered ∨ k.phase = some .awaitSlack) ∧ k.last < k.entry.slack
       ∃ t, exec (.releaseWaitExpiry c) s = .next t ∧
         (slackened → Within .tow (back .slack) t) ∧
         (¬ slackened → Within .tow (back (k.prior.getD .slack)) t) ∧
         t.hasNotice .releaseAbandoned (subjectOf c) ∧
         ∀ i : Fin 16, s.releaseSlotOf c = some i → t.gaveUp c i) ∧
     (k.state = .makingUp → k.phase = none →
       ∃ t, exec (.makeupWaitExpiry c) s = .next t ∧ Within .tow (back (k.prior.getD .slack)) t ∧
         t.hasNotice .makeupAbandoned (subjectOf c)))

/-! ### Fuel -/

/-- R101 to R103: a FLOW frame of one reading, taken into the FUEL job from an ENROLLED meter node. At BASELINE it
sets the base and books nothing; beyond the plausible limit it sets the base, books nothing and latches METER_RESET;
otherwise what was counted, less what was estimated, is booked by the role of the meter, as BookingByRole says it, for
a SUPPLY meter to its engine's account and the leg. The meter counts from the reading on. A frame of several readings
does the work of each in its order, and a reading of no meter does nothing. The copies that the action calls for
follow (R165). A figure outside its range is left open (log entry 3). -/
def Obligations.FlowRead : Prop :=
  (∀ (s : State) (p : Port) (h : Header) (ch : Byte) (total : Quad) (n : Fin 32) (i : Fin 16),
     s.Delivers p h (.flow [(ch, total)]) .fuel n → s.meterOf n ch = some i →
     let m := s.fuel.meters[i]
     let counted := (total.toNat + (4294967296 - m.lastTotal % 4294967296)) % 4294967296
     let elapsed := s.now / 1000 - m.lastArrival
     let booked : Int := (counted : Int) - m.accumulator
     let based (rate : Nat) : Meter :=
       { m with
         state := .counting, lastTotal := total.toNat, lastArrival := s.now / 1000, lastRate := rate
         accumulator := 0, tickAt := none
         silenceAt := some (s.now + 100000 * s.nodes[n].entry.silence) }
     let kept := (s.heardFrom p n).modMeter i fun _ => based m.lastRate
     let plausible := counted ≤ m.entry.maxRate * elapsed / 1000 + m.entry.margin
     ∃ u, exec (.flow p h [(ch, total)]) s = .next (s.andPass u p ((Content.flow [(ch, total)]).frame h)) ∧
       (m.state = .baseline → u = kept) ∧
       (m.state = .counting ∨ m.state = .estimating → ¬ plausible →
         Within .notices kept u ∧ u.hasNotice .meterReset (subjectOf i)) ∧
       (m.state = .counting ∨ m.state = .estimating → plausible →
         Within .fuel (s.heardFrom p n) u ∧
         u = ((s.heardFrom p n).book m.entry booked).modMeter i (fun _ =>
           based (if elapsed = 0 then m.lastRate else min (counted * 1000 / elapsed) 65535)) ∧
         u.fuel.meters[i] =
           based (if elapsed = 0 then m.lastRate else min (counted * 1000 / elapsed) 65535) ∧
         (∀ j : Fin 16, j ≠ i → u.fuel.meters[j] = s.fuel.meters[j]) ∧
         (∀ e : Fin 6, m.entry.role = .supply → m.entry.firstObject = e.val →
           let a := s.fuel.accounts[e]
           let fits (x : Int) : Prop := -140737488355328 ≤ x ∧ x ≤ 140737488355327
           fits (a.total + booked) → fits (a.leg + booked) → fits (s.fuel.leg.consumed + booked) →
             u.fuel.accounts[e] = { total := a.total + booked, leg := a.leg + booked } ∧
             u.fuel.leg.consumed = s.fuel.leg.consumed + booked))) ∧
  (∀ (s : State) (p : Port) (h : Header) (rs : List (Byte × Quad)) (n : Fin 32),
     s.Delivers p h (.flow rs) .fuel n →
     exec (.flow p h rs) s =
       .next (s.andPass (rs.foldl (State.flowReading n) (s.heardFrom p n)) p ((Content.flow rs).frame h))) ∧
  (∀ (s : State) (n : Fin 32) (ch : Byte) (v : Quad), s.meterOf n ch = none →
     State.flowReading n s (ch, v) = s)

/-- R104: at the silence of a meter it becomes ESTIMATING, its tick timer starts and METER_ESTIMATING is latched; at
each tick its last rate is booked by the role of the meter, as BookingByRole says it, and added to its accumulator,
and the tick timer restarts. That the time base then stands at the expiry is the model's choice (log entry 1). That
the accumulator has no greatest value is the model's choice (log entry 22). -/
def Obligations.MeterTimers : Prop :=
  ∀ (s : State) (i : Fin 16),
    (∀ at_ : Nat, s.fuel.meters[i].silenceAt = some at_ →
      ∃ t, exec (.meterSilenceExpiry i) s = .next t ∧
        Within .notices ((s.reach at_).modMeter i fun m =>
          { m with
            state := .estimating, silenceAt := none
            tickAt := some (max s.now at_ + 1000000) }) t ∧
        t.hasNotice .meterEstimating (subjectOf i)) ∧
    (∀ at_ : Nat, s.fuel.meters[i].tickAt = some at_ →
      let m := s.fuel.meters[i]
      ∃ t, exec (.estimateTick i) s = .next t ∧ Within .fuel (s.reach at_) t ∧
        t = ((s.reach at_).book m.entry m.lastRate).modMeter i (fun x =>
          { x with
            accumulator := m.accumulator + m.lastRate, tickAt := some (max s.now at_ + 1000000) }) ∧
        t.fuel.meters[i] =
          { m with
            accumulator := m.accumulator + m.lastRate, tickAt := some (max s.now at_ + 1000000) } ∧
        (∀ j : Fin 16, j ≠ i → t.fuel.meters[j] = s.fuel.meters[j]) ∧
        (∀ e : Fin 6, m.entry.role = .supply → m.entry.firstObject = e.val →
          let a := s.fuel.accounts[e]
          let fits (x : Int) : Prop := -140737488355328 ≤ x ∧ x ≤ 140737488355327
          fits (a.total + m.lastRate) → fits (a.leg + m.lastRate) →
            fits (s.fuel.leg.consumed + m.lastRate) →
            t.fuel.accounts[e] = { total := a.total + m.lastRate, leg := a.leg + m.lastRate } ∧
            t.fuel.leg.consumed = s.fuel.leg.consumed + m.lastRate))

/-- R107, R108, R111, R112, R116: what a booking does by the role of its meter. SUPPLY adds to the account of its
engine and to the consumed figure and takes from the engine's service tank; RETURN does the same with the sign turned;
TRANSFER takes from one tank and gives to the other; BUNKER gives to its tank and adds to the bunkered figure. A
deduction stops at an empty tank with the rest as shortfall, an addition at a full one with the rest as overflow. LOW
is tested where a quantity changes and the fuel reserve condition where the consumed figure is booked, each with its
notice. An amount of 0 books nothing. A figure outside its range is left open (log entry 3). -/
def Obligations.BookingByRole : Prop :=
  ∀ (s : State) (m : MeterEntry) (a : Int),
    let t := s.book m a
    let burnt (e : Fin 6) (x : Int) : Prop :=
      let y := s.fuel.accounts[e]
      let consumed := s.fuel.leg.consumed + x
      fits48 (y.total + x) → fits48 (y.leg + x) → fits48 consumed →
        t.fuel.accounts = s.fuel.accounts.set e { total := y.total + x, leg := y.leg + x } ∧
        t.fuel.leg = { s.fuel.leg with
          consumed := consumed
          reserve := s.fuel.leg.active &&
            decide ((s.fuel.leg.budget : Int) - consumed ≤ s.fuel.leg.reserveMark) } ∧
        (s.prop.engines[e].entry.serviceTank = none → t.fuel.tanks = s.fuel.tanks) ∧
        (∀ k : Fin 8, s.prop.engines[e].entry.serviceTank = some k → (s.fuel.tanks[k].moved x).Fits →
          t.fuel.tanks = s.fuel.tanks.set k (s.fuel.tanks[k].moved x))
    Within .fuel s t ∧ t.fuel.meters = s.fuel.meters ∧
    (a = 0 → t = s) ∧
    (∀ e : Fin 6, a ≠ 0 → m.role = .supply → m.firstObject = e.val → burnt e a) ∧
    (∀ e : Fin 6, a ≠ 0 → m.role = .returns → m.firstObject = e.val → burnt e (-a)) ∧
    (∀ f g : Fin 8, a ≠ 0 → m.role = .transfer → m.firstObject = f.val → m.toTank = g.val → f ≠ g →
      (s.fuel.tanks[f].moved a).Fits → (s.fuel.tanks[g].moved (-a)).Fits →
      t.fuel.tanks =
        (s.fuel.tanks.set f (s.fuel.tanks[f].moved a)).set g (s.fuel.tanks[g].moved (-a))) ∧
    (∀ g : Fin 8, a ≠ 0 → m.role = .bunker → m.toTank = g.val →
      fits48 (s.fuel.tanks[g].bunkered + a) → (s.fuel.tanks[g].moved (-a)).Fits →
      t.fuel.tanks = s.fuel.tanks.set g
        { s.fuel.tanks[g].moved (-a) with bunkered := s.fuel.tanks[g].bunkered + a }) ∧
    (m.role = .transfer ∨ m.role = .bunker →
      t.fuel.accounts = s.fuel.accounts ∧ t.fuel.leg = s.fuel.leg) ∧
    (s.fuel.leg.reserve = false → t.fuel.leg.reserve = true → t.hasNotice .fuelReserve 0) ∧
    ∀ k : Fin 8, s.fuel.tanks[k].low = false → t.fuel.tanks[k].low = true →
      t.hasNotice .tankLow (subjectOf k)

/-- R113, R114: a LEVEL reading sets the last gauge reading of its tank and tests DISCREPANT, and books nothing; a
frame of several readings does the work of each in its order; a FUEL_PRESET of at most the capacity sets base and
quantity, clears what the books have gathered and tests LOW and DISCREPANT; above the capacity, or with a tank index
above 7, it is answered RANGE and changes nothing. R115, R116: a LEG_START within its ranges opens a leg: every leg
figure and the consumed figure are 0, budget and reserve mark are stored, and the fuel reserve condition is tested;
outside them it is answered RANGE and changes nothing. -/
def Obligations.LevelPresetAndLeg : Prop :=
  ((∀ (s : State) (p : Port) (h : Header) (rs : List (Byte × Quad)) (n : Fin 32),
     s.Delivers p h (.level rs) .fuel n →
     exec (.level p h rs) s =
       .next (s.andPass (rs.foldl (State.levelReading n) (s.heardFrom p n)) p ((Content.level rs).frame h))) ∧
   (∀ (s : State) (n : Fin 32) (ch : Byte) (v : Quad), s.tankOf n ch = none →
     State.levelReading n s (ch, v) = s) ∧
   (∀ (s : State) (p : Port) (h : Header) (ch : Byte) (v : Quad) (n : Fin 32) (i : Fin 8),
     s.Delivers p h (.level [(ch, v)]) .fuel n → s.tankOf n ch = some i →
     let k := s.fuel.tanks[i]
     let off : Bool := decide (k.entry.tolerance < ((v.toNat : Int) - k.quantity).natAbs)
     ∃ u, exec (.level p h [(ch, v)]) s = .next (s.andPass u p ((Content.level [(ch, v)]).frame h)) ∧
       Within .notices ((s.heardFrom p n).modTank i fun k =>
         { k with reading := some v.toNat, discrepant := off }) u ∧
       (off = true → k.discrepant = false → u.hasNotice .tankDiscrepancy (subjectOf i))) ∧
   (∀ (s : State) (o : Origin) (tank : Byte) (q : Quad) (i : Fin 8), s.hasRoom → tank.toNat = i.val →
     let k := s.fuel.tanks[i]
     let low : Bool := decide (0 < k.entry.capacity) && decide (q.toNat < k.entry.lowMark)
     let off : Bool := match k.reading with
       | some v => decide (k.entry.tolerance < ((v : Int) - q.toNat).natAbs)
       | none => k.discrepant
     (q.toNat ≤ k.entry.capacity →
       ∃ t, exec (.fuelPreset o tank q) s = .next t ∧
         Replied .propulsion ((s.frameEnd .W).modTank i fun k =>
           { k with
             base := q.toNat, quantity := q.toNat, additions := 0, deductions := 0, shortfall := 0
             overflow := 0, low := low, discrepant := off })
           (replyFrame s.link.own o 0x0A 0 []) t ∧
         (low = true → k.low = false → t.hasNotice .tankLow (subjectOf i))) ∧
     (k.entry.capacity < q.toNat → exec (.fuelPreset o tank q) s =
       .next ((s.frameEnd .W).withAnswers (s.fwd.answers ++ [replyFrame s.link.own o 0x0A 2 []])))) ∧
   ∀ (s : State) (o : Origin) (tank : Byte) (q : Quad), s.hasRoom → 8 ≤ tank.toNat →
     exec (.fuelPreset o tank q) s =
       .next ((s.frameEnd .W).withAnswers (s.fwd.answers ++ [replyFrame s.link.own o 0x0A 2 []]))) ∧
  (∀ (s : State) (o : Origin) (budget mark : Quad), s.hasRoom →
     let reserve : Bool := decide (budget.toNat ≤ mark.toNat)
     let within := budget.toNat ≤ 2000000000 ∧ mark.toNat ≤ 2000000000
     (within →
       ∃ t, exec (.legStart o budget mark) s = .next t ∧
         Replied .propulsion { s.frameEnd .W with
           fuel := { s.fuel with
             accounts := mapTable (fun a => { a with leg := 0 }) s.fuel.accounts
             leg := {
               active := true, budget := budget.toNat, reserveMark := mark.toNat, consumed := 0
               reserve := reserve } } }
           (replyFrame s.link.own o 0x0B 0 []) t ∧
         (reserve = true → s.fuel.leg.reserve = false → t.hasNotice .fuelReserve 0)) ∧
     (¬ within → exec (.legStart o budget mark) s =
       .next ((s.frameEnd .W).withAnswers (s.fwd.answers ++ [replyFrame s.link.own o 0x0B 2 []]))))

/-- R117 to R120, R123: a STATEMENT_START while no statement is PAUSED takes a snapshot, increases the number, and
places as many blocks as reserved buffers of port W are free; the statement is then IDLE where all are placed, with
STATEMENT_END of subject 0, and PAUSED with its stall timer of 2 s where not. While one is PAUSED it is answered BUSY
and changes nothing. The snapshot is a header block of the leg, a block of each engine that is not ABSENT by rising
index, and a block of each tank of capacity above 0 by rising index. R120 to R124: STATEMENT_RESUME of a PAUSED
statement with a reserved buffer of port W free places as many of the remaining blocks as fit; at stall expiry the
statement ends with STATEMENT_END of subject 1; a STATEMENT_ABORT of a PAUSED statement ends it with no notice, and of
any other is answered STATE. That the time base then stands at the expiry is the model's choice (log entry 1). That
STATEMENT_RESUME is a step of its own is its reading (log entry 2). -/
def Obligations.StatementStartedAndGoesOn : Prop :=
  (∀ s : State,
     let l := s.fuel.leg
     let estimating (m : Option (Fin 16)) : Bool := match m with
       | some i => decide (s.fuel.meters[i].state = .estimating)
       | none => false
     s.snapshot = .header l.active l.reserve l.budget l.reserveMark l.consumed ::
       ((List.finRange 6).filterMap (fun i =>
         if s.prop.engines[i].state = .absent then none
         else some (.engine i s.fuel.accounts[i].leg s.fuel.accounts[i].total
           (estimating s.prop.engines[i].entry.supplyMeter ||
             estimating s.prop.engines[i].entry.returnMeter))) ++
       (List.finRange 8).filterMap fun k =>
         let x := s.fuel.tanks[k]
         if x.entry.capacity = 0 then none
         else some (.tank k x.entry.role x.quantity x.shortfall x.overflow x.bunkered x.reading x.low
           x.discrepant))) ∧
  (∀ (s : State) (o : Origin), s.hasRoom →
     let l := s.snapshot
     let number := (s.fuel.statement.number + 1) % 256
     let k := min (s.fwd.reserved.w - s.fwd.queues.w.length) l.length
     let done : Bool := decide (k = l.length)
     let b := s.frameEnd .W
     let base : State := { b with
       fuel := { s.fuel with statement := {
         state := if done then .idle else .paused, number := number, destination := some o.src
         next := k + 1, stallAt := if done then none else some (s.now + 2000000), blocks := l } }
       fwd := { s.fwd with queues := { s.fwd.queues with
         w := s.fwd.queues.w ++ bulkFrames s.link.own o.src number 1 l.length (l.take k) } } }
     (s.fuel.statement.state ≠ .paused →
       ∃ t, exec (.statementStart o) s = .next t ∧
         Replied .notices base
           (replyFrame s.link.own o 0x0C 0 [BitVec.ofNat 8 number, BitVec.ofNat 8 l.length]) t ∧
         (done = true → t.hasNotice .statementEnd 0)) ∧
     (s.fuel.statement.state = .paused → exec (.statementStart o) s =
       .next (b.withAnswers (s.fwd.answers ++ [replyFrame s.link.own o 0x0C 3 []])))) ∧
  (∀ s : State,
     (s.fuel.statement.state = .paused → s.fwd.queues.w.length < s.fwd.reserved.w →
       let x := s.fuel.statement
       let l := x.blocks.drop (x.next - 1)
       let k := min (s.fwd.reserved.w - s.fwd.queues.w.length) l.length
       let done : Bool := decide (k = l.length)
       let base : State := { s with
         fuel := { s.fuel with statement := { x with
           state := if done then .idle else .paused, next := x.next + k
           stallAt := if done then none else some (s.now + 2000000) } }
         fwd := { s.fwd with queues := { s.fwd.queues with
           w := s.fwd.queues.w ++
             bulkFrames s.link.own (x.destination.getD 0) x.number x.next x.blocks.length (l.take k) } } }
       ∃ t, exec .statementResume s = .next t ∧ Within .notices base t ∧
         (done = true → t.hasNotice .statementEnd 0)) ∧
     (∀ at_ : Nat, s.fuel.statement.stallAt = some at_ →
       ∃ t, exec .stallExpiry s = .next t ∧
         Within .notices ((s.reach at_).modStatement fun x => { x with state := .idle, stallAt := none }) t ∧
         t.hasNotice .statementEnd 1) ∧
     (∀ o : Origin, s.hasRoom →
       let b := s.frameEnd .W
       let placed (u : State) (status : Byte) : Outcome :=
         .next (u.withAnswers (s.fwd.answers ++ [replyFrame s.link.own o 0x0D status []]))
       exec (.statementAbort o) s =
         if s.fuel.statement.state = .paused then
           placed (b.modStatement fun x => { x with state := .idle, stallAt := none }) 0
         else placed b 4))

/-! ### Nodes and order transactions -/

/-- R129: an ENROL of the right kind, heard on its port, enrols its node, with its count at 0, its silence timer
started, its refresh timer started where it was EXPECTED or FAILED, and NODE_ENROLLED latched; an engine LOST with it
returns to STANDBY and an actuator in FAULT or LOST to READY with its ordered value placed (R57, R60), where nothing
stands in its way and a slot is FREE afterwards. One of another kind latches ENROL_MISMATCH alone, but that it
restarts the silence timer of an ENROLLED node; one from no entry of its port changes nothing but the assembly. -/
def Obligations.EnrolTaken : Prop :=
  ∀ (s : State) (p : Port) (h : Header) (payload : List Byte), s.listens p →
    (∀ n : Fin 32, s.nodeOf p h.src = some n → payload = [s.nodes[n].entry.kind.enrolKind] →
      let x := s.nodes[n]
      let fresh : Bool := decide (x.state = .expected) || decide (x.state = .failed)
      let base := (s.frameEnd p).modNode n fun x =>
        { x with
          state := .enrolled, timeouts := 0
          silenceAt := some (s.now + 100000 * x.entry.silence)
          refreshAt :=
            if fresh then
              if x.entry.refresh = 0 then none else some (s.now + 100000 * x.entry.refresh)
            else x.refreshAt }
      ∃ t, exec (.enrol p h payload) s = .next t ∧ Within .units base t ∧
        t.hasNotice .nodeEnrolled (subjectOf n) ∧
        (x.state = .enrolled → Within .notices base t) ∧
        (x.state ≠ .enrolled → ∀ i : Fin 6, s.engineOf n = some i → s.prop.engines[i].state = .lost →
          t.prop.engines[i].state = .standby) ∧
        (x.state ≠ .enrolled → ∀ i : Fin 5, s.actuatorOf n = some i →
          s.steer.actuators[i].state = .fault ∨ s.steer.actuators[i].state = .lost →
          t.steer.actuators[i].state = .ready ∧
            (base.mayOrder i n → t.hasFree → t.carriesOrdered i n))) ∧
    (∀ n : Fin 32, s.nodeOf p h.src = some n → payload ≠ [s.nodes[n].entry.kind.enrolKind] →
      ∃ t, exec (.enrol p h payload) s = .next t ∧
        (s.nodes[n].state = .enrolled → Within .notices (s.heardFrom p n) t) ∧
        (s.nodes[n].state ≠ .enrolled → Within .notices (s.frameEnd p) t) ∧
        t.hasNotice .enrolMismatch (subjectOf n)) ∧
    (s.nodeOf p h.src = none → exec (.enrol p h payload) s = .next (s.frameEnd p))

/-- R130, R134, R140, R166: a frame of any class but ENROL from a SILENT node brings it back to ENROLLED with its
silence timer started and the change handed on: an engine LOST with it is STANDBY and an actuator in FAULT or LOST is
READY with its ordered value placed (R57), and the frame then does what it does for an ENROLLED node. From an EXPECTED
or FAILED node a status, a sample or any other frame that fixed intake leaves is passed on at most, an ACK of no kind
leaves the emptied assembly alone, and so does an ECHO or a FULL from a FAILED node, or from an EXPECTED one that
completes no slot. From an EXPECTED node one that carries the TAG of an AWAITING slot and is of the kind that the
slot's order expects completes the slot, brings the count to 0 and lets the WAITING order be QUEUED, and is not read
as status: no engine and no actuator changes. -/
def Obligations.SilentNodeHeard : Prop :=
  ∀ (s : State) (p : Port) (src : Byte) (n : Fin 32), s.listens p → s.nodeOf p src = some n →
    let ack (c : Instr) : Prop :=
      (∃ (o : Origin) (v : Half), o.src = src ∧ c = .echo p o v) ∨
        ∃ (o : Origin) (r : RunState) (l : Half) (a : AlarmLevel), o.src = src ∧ c = .full p o r l a
    let noKind (c : Instr) : Prop := ∃ (o : Origin) (l : List Byte), o.src = src ∧ c = .ackOfNoKind p o l
    let gives (c : Instr) (f : Frame) : Prop :=
      (∃ (h : Header) (x : Content), h.src = src ∧ x.command p h = some c ∧ f = x.frame h) ∨
        (f.src = src ∧ fixedIntake s.link.own p f = false ∧ c = .passageFrame p f)
    let awaited (o : Origin) (i : Fin 16) (full : Bool) : Prop :=
      s.trans.slots[i].target = n ∧ s.trans.slots[i].state = .awaiting ∧
        s.trans.slots[i].tag = o.tag ∧ (s.trans.slots[i].kind = .setpoint ↔ full = true)
    let ended (i : Fin 16) (t : State) : Prop :=
      Within .propulsion ((s.frameEnd p).modNode n fun x => { x with timeouts := 0 }) t ∧
      t.prop = s.prop ∧ t.steer = s.steer ∧ t.notices = s.notices ∧ t.fwd = s.fwd ∧
      t.trans.slots[i].state = .free ∧ t.trans.slots[i].ackAt = none ∧
      (∀ j : Fin 16, s.trans.slots[j].state = .waiting → s.trans.slots[j].target = n →
        t.trans.slots[j] = { s.trans.slots[j] with state := .queued } ∧
          t.trans.lane s.nodes[n].entry.port = s.trans.lane s.nodes[n].entry.port ++ [j]) ∧
      (∀ j : Fin 16, j ≠ i → s.trans.slots[j].state ≠ .waiting ∨ s.trans.slots[j].target ≠ n →
        t.trans.slots[j] = s.trans.slots[j]) ∧
      ∀ c : Fin 48, s.trans.slots[i].owner = some (.tow c) → s.trans.slots[i].value = .release →
        s.tow.couplings[c].state = .releasing → s.tow.couplings[c].phase = some .ordered →
        s.releaseSlotOf c = none → t.tow.couplings[c].phase = some .awaitSlack
    (s.nodes[n].state = .silent → ∃ t : State,
      Within .units ((s.frameEnd p).modNode n fun x =>
        { x with state := .enrolled, silenceAt := some (s.now + 100000 * x.entry.silence) }) t ∧
      (∀ i : Fin 6, s.engineOf n = some i → s.prop.engines[i].state = .lost →
        t.prop.engines[i].state = .standby) ∧
      (∀ i : Fin 5, s.actuatorOf n = some i →
        s.steer.actuators[i].state = .fault ∨ s.steer.actuators[i].state = .lost →
        t.steer.actuators[i].state = .ready ∧ (s.mayOrder i n → t.hasFree → t.carriesOrdered i n)) ∧
      (∀ c, noKind c → exec c s = .next t) ∧
      ∀ c, (ack c ∨ ∃ f, gives c f) → exec c s = exec c t) ∧
    (s.nodes[n].state = .expected ∨ s.nodes[n].state = .failed →
      (∀ c, noKind c → exec c s = .next (s.frameEnd p)) ∧
      (∀ c f, gives c f → exec c s = .next (s.andPass (s.frameEnd p) p f)) ∧
      (∀ (o : Origin) (v : Half), o.src = src →
        s.nodes[n].state = .failed ∨ (∀ i, ¬ awaited o i false) → exec (.echo p o v) s = .next (s.frameEnd p)) ∧
      ∀ (o : Origin) (r : RunState) (l : Half) (a : AlarmLevel), o.src = src →
        s.nodes[n].state = .failed ∨ (∀ i, ¬ awaited o i true) →
        exec (.full p o r l a) s = .next (s.frameEnd p)) ∧
    (s.nodes[n].state = .expected → s.SlotsSound → ∀ (o : Origin) (i : Fin 16), o.src = src →
      (awaited o i false → ∀ v, ∃ t, exec (.echo p o v) s = .next t ∧ ended i t) ∧
      (awaited o i true → ∀ r l a, ∃ t, exec (.full p o r l a) s = .next t ∧ ended i t))

/-- R140, R141, R59, R61, R62, R65, R20, R21, R86: an ECHO that carries the TAG of an AWAITING slot of its ENROLLED
node, of a kind other than SETPOINT, or a FULL that carries the TAG of an AWAITING SETPOINT slot, ends that slot,
brings the node's consecutive timeouts to 0, and leaves the node with nothing in flight; its WAITING order is then
QUEUED. The content is read as status by the owner of the slot: the position of an ECHO into the actuator of the node,
with the divergence test and forced steer assist, where steering owns it, and run state, load and alarm level of a
FULL into the engine of the node where propulsion does. The end of an ORDERED release moves it to AWAIT_SLACK. One
that completes nothing leaves timeouts and slots in flight as they are and is read as status by the block that names
the node. -/
def Obligations.AcksCompleteSlots : Prop :=
  ∀ (s : State) (p : Port) (o : Origin) (n : Fin 32), s.listens p → s.SlotsSound → s.ForcedSound →
    s.nodeOf p o.src = some n → s.nodes[n].state = .enrolled →
    let heard := s.heardFrom p n
    let quit := heard.modNode n fun x => { x with timeouts := 0 }
    let awaited (i : Fin 16) (full : Bool) : Prop :=
      s.trans.slots[i].target = n ∧ s.trans.slots[i].state = .awaiting ∧
        s.trans.slots[i].tag = o.tag ∧ (s.trans.slots[i].kind = .setpoint ↔ full = true)
    let late (t : State) : Prop :=
      ∀ j : Fin 16, s.trans.slots[j].inFlight = true → t.trans.slots[j] = s.trans.slots[j]
    let woken (t : State) (alone : Prop) : Prop :=
      (∀ j : Fin 16, t.trans.slots[j].inFlight = true → t.trans.slots[j].target ≠ n) ∧
      ∀ j : Fin 16, s.trans.slots[j].state = .waiting → s.trans.slots[j].target = n →
        s.trans.slots[j].value ≠ .release ∨ alone →
        t.trans.slots[j].state = .queued ∧ j ∈ t.trans.lane s.nodes[n].entry.port
    (∀ v : Half,
      let position (b t : State) : Prop :=
        (s.actuatorOf n = none → Within .propulsion b t ∧ t.prop = s.prop ∧ t.steer = s.steer) ∧
        ∀ a : Fin 5, s.actuatorOf n = some a →
          Within .propulsion (b.modActuator a fun y => y.told s.now v).setForced t
      ((∀ i, ¬ awaited i false) →
        ∃ t, exec (.echo p o v) s = .next t ∧ late t ∧ position heard t ∧
          (s.actuatorOf n = none → t = heard)) ∧
      (∀ i, awaited i false →
        ∃ t, exec (.echo p o v) s = .next t ∧ woken t (s.actuatorOf n = none) ∧
          (∀ a, s.trans.slots[i].owner = some (.steering a) → position quit t) ∧
          ((∀ a, s.trans.slots[i].owner ≠ some (.steering a)) →
            Within .propulsion quit t ∧ t.prop = s.prop ∧ t.steer = s.steer) ∧
          ∀ c : Fin 48, s.trans.slots[i].owner = some (.tow c) → s.trans.slots[i].value = .release →
            s.tow.couplings[c].state = .releasing → s.tow.couplings[c].phase = some .ordered →
            s.releaseSlotOf c = none → t.tow.couplings[c].phase = some .awaitSlack)) ∧
    ∀ (run : RunState) (load : Half) (lvl : AlarmLevel),
      let report (b t : State) : Prop :=
        (s.engineOf n = none → Within .propulsion b t ∧ t.prop = s.prop ∧ t.steer = s.steer) ∧
        ∀ e : Fin 6, s.engineOf n = some e →
          let x := s.prop.engines[e].told run load lvl
          Within .propulsion (b.modEngine e fun y => y.told run load lvl) t ∧
          (x.state = .tripped → s.prop.engines[e].state ≠ .tripped →
            t.hasNotice .engineTrip (subjectOf e)) ∧
          (s.prop.engines[e].state = .running → x.state ≠ .running →
            t.prop.engines[e].target = 0 ∧ t.prop.engines[e].setpoint = 0)
      ((∀ i, ¬ awaited i true) →
        ∃ t, exec (.full p o run load lvl) s = .next t ∧ late t ∧ report heard t ∧
          (s.engineOf n = none → t = heard)) ∧
      (∀ i, awaited i true →
        ∃ t, exec (.full p o run load lvl) s = .next t ∧ woken t (s.engineOf n = none) ∧
          (∀ e, s.trans.slots[i].owner = some (.propulsion e) → report quit t) ∧
          ((∀ e, s.trans.slots[i].owner ≠ some (.propulsion e)) →
            Within .propulsion quit t ∧ t.prop = s.prop ∧ t.steer = s.steer))

/-- R131, R132, R150, R171: at silence expiry a node becomes SILENT with NODE_SILENT latched, and the change is handed
on: an engine it governs, not ABSENT, is LOST with ENGINE_LOST latched, and from RUNNING it has target and setpoint 0
and dwells (R19, R22, R40); its actuator, not ABSENT, is LOST with its divergence timer stopped (R60); a coupling it
is the sensor of has its sample timer stopped and is SILENT from SLACK, MADE_UP, ALERT or OVERLOAD with
COUPLING_SILENT latched, and has SILENT as its prior state while in work (R76); its counting meters estimate (R104).
At a line break on an UP port that is sending nothing, the port goes DOWN, its assembly and its frame queue are
emptied, and every ENROLLED node of the port becomes SILENT in the same way. That a line break on a DOWN port, or on a
port that is sending, changes nothing (R155) is the model's choice (log entry 10). That the time base then stands at
the expiry is the model's choice (log entry 1). That a reversal dwell of 0 expires inside the same event is the
model's reading (log entry 12). -/
def Obligations.SilenceAndLineBreak : Prop :=
  ∀ s : State,
    let lost (b t : State) (n : Fin 32) : Prop :=
      (∀ i : Fin 6, s.engineOf n = some i → s.prop.engines[i].state ≠ .absent →
        t.prop.engines[i].state = .lost ∧
        (s.prop.engines[i].state ≠ .lost → t.hasNotice .engineLost (subjectOf i)) ∧
        (s.prop.engines[i].state = .running → t.prop.engines[i].target = 0 ∧ t.prop.engines[i].setpoint = 0 ∧
          (s.prop.engines[i].setpoint ≠ 0 → b.Halted (sideOf s.prop.engines[i].setpoint) t.prop.engines[i]))) ∧
      (∀ a : Fin 5, s.actuatorOf n = some a → s.steer.actuators[a].state ≠ .absent →
        t.steer.actuators[a].state = .lost ∧ t.steer.actuators[a].divergeAt = none) ∧
      (∀ c : Fin 48, s.tow.couplings[c].entry.sensor = some n →
        t.tow.couplings[c].sampleAt = none ∧
        (s.tow.couplings[c].state = .slack ∨ s.tow.couplings[c].state = .madeUp ∨
            s.tow.couplings[c].state = .alert ∨ s.tow.couplings[c].state = .overload →
          t.tow.couplings[c].state = .silent ∧ t.tow.couplings[c].count = 0 ∧
            t.hasNotice .couplingSilent (subjectOf c)) ∧
        (s.tow.couplings[c].state = .releasing ∨ s.tow.couplings[c].state = .makingUp →
          t.tow.couplings[c].state = s.tow.couplings[c].state ∧ t.tow.couplings[c].prior = some .silent)) ∧
      ∀ i : Fin 16, s.fuel.meters[i].entry.node = some n → s.fuel.meters[i].state = .counting →
        t.fuel.meters[i].state = .estimating
    (∀ (n : Fin 32) (at_ : Nat), s.nodes[n].silenceAt = some at_ →
      ∃ t, exec (.silenceExpiry n) s = .next t ∧
        Within .fuel ((s.reach at_).modNode n fun x => { x with state := .silent, silenceAt := none }) t ∧
        t.hasNotice .nodeSilent (subjectOf n) ∧ lost (s.reach at_) t n) ∧
    (∀ p : Port, (s.link.ports.get p).line = .up → (s.link.ports.get p).sending = none →
      ∃ t u, exec (.lineBreak p) s = .next t ∧
        Within .roster (s.modLine p fun x => { x with line := .down, assembly := Assembly.empty }) u ∧
        t = { u with fwd := { u.fwd with queues := u.fwd.queues.set p [] } } ∧
        ∀ n : Fin 32,
          (s.nodes[n].state = .enrolled → s.nodes[n].entry.port.port = p →
            t.nodes[n].state = .silent ∧ t.nodes[n].silenceAt = none ∧
              t.hasNotice .nodeSilent (subjectOf n) ∧ lost s t n) ∧
          (s.nodes[n].state ≠ .enrolled ∨ s.nodes[n].entry.port.port ≠ p →
            { t.nodes[n] with nextTag := s.nodes[n].nextTag } = s.nodes[n])) ∧
    (∀ p : Port, (s.link.ports.get p).line = .down ∨ (s.link.ports.get p).sending.isSome = true →
      exec (.lineBreak p) s = .next s)

/-- R44, R58, R133, R142, R143: a refresh expiry answers a next state in which the timer runs again and the order that
the node's engine or actuator, not ABSENT, is to hold is placed: a waiting order of the same kind is superseded in its
slot with the next TAG; with nothing waiting a FREE slot takes it, WAITING behind an order in flight and else QUEUED;
nothing is placed for a FAILED or UNUSED node, behind a waiting order of another kind, or with no slot FREE, and
nothing else changes. At an ack timeout the AWAITING slot becomes FREE with its ack timer stopped, the consecutive
timeouts increase by 1, and an ORDERED release whose slot it was is in AWAIT_SLACK (R86). Below 3 the node's WAITING
order is QUEUED at the tail of its lane and the other slots stay as they are. At 3 the node becomes FAILED, its timers
stopped, its slots freed and NODE_FAILED latched: a release whose slot still waited is abandoned (R89), its engine is
LOST (R19), its actuator in FAULT (R60), couplings it hears for are SILENT (R76) and its counting meters estimate
(R104). The model's choices: that the time base then stands at the expiry, and that a command on a stopped timer
changes nothing (log entry 1); that where an engine and an actuator both name the node, propulsion places first, so
that the SETPOINT takes the slot (log entry 21). Its reading: that the release moves only where no unsent slot of it
remains (log entry 15). -/
def Obligations.RefreshAndAckTimeout : Prop :=
  ∀ s : State,
    (∀ n : Fin 32, s.nodes[n].refreshAt = none → exec (.refreshExpiry n) s = .next s) ∧
    (∀ i : Fin 16, s.trans.slots[i].ackAt = none → exec (.ackTimeout i) s = .next s) ∧
    (∀ (n : Fin 32) (at_ : Nat), s.nodes[n].refreshAt = some at_ →
      let base := (s.reach at_).modNode n fun x =>
        { x with refreshAt :=
            if x.entry.refresh = 0 then none else some (max s.now at_ + 100000 * x.entry.refresh) }
      let port := s.nodes[n].entry.port
      let alive : Prop := s.nodes[n].state ≠ .failed ∧ s.nodes[n].state ≠ .unused
      let engine (i : Fin 6) : Prop := s.engineOf n = some i ∧ s.prop.engines[i].state ≠ .absent
      let actuator (a : Fin 5) : Prop := s.actuatorOf n = some a ∧ s.steer.actuators[a].state ≠ .absent
      let kind (a : Fin 5) : OrderKind := if s.steer.actuators[a].entry.kind = .bowUnit then .bow else .angle
      let superseded (t : State) (k : OrderKind) (x : Int) (w : Owner) : Prop :=
        ∀ j : Fin 16, s.waitingSlot n = some j → s.trans.slots[j].kind = k →
          t.nodes[n].nextTag = s.nodes[n].nextTag + 1 ∧
          t.trans.slots[j] =
            { s.trans.slots[j] with value := .amount x, owner := some w, tag := s.nodes[n].nextTag }
      let placed (t : State) (k : OrderKind) (x : Int) (w : Owner) : Prop :=
        s.waitingSlot n = none → s.hasFree → t.nodes[n].nextTag = s.nodes[n].nextTag + 1 ∧
          ∃ j : Fin 16, s.trans.slots[j].state = .free ∧
            t.trans.slots[j] =
              { target := n, kind := k, value := .amount x, tag := s.nodes[n].nextTag, owner := some w,
                condition := none, ackAt := none,
                state := if (s.flightSlot n).isSome = true then .waiting else .queued } ∧
            t.trans.lane port =
              s.trans.lane port ++ (if (s.flightSlot n).isSome = true then [] else [j])
      ∃ t, exec (.refreshExpiry n) s = .next t ∧ Within .propulsion base t ∧
        t.prop = s.prop ∧ t.steer = s.steer ∧ t.tow = s.tow ∧ t.notices = s.notices ∧ t.fwd = s.fwd ∧
        (∀ j : Fin 16, s.trans.slots[j].state ≠ .free → s.waitingSlot n ≠ some j →
          t.trans.slots[j] = s.trans.slots[j]) ∧
        (∀ i, engine i → alive →
          superseded t .setpoint s.prop.engines[i].setpoint (.propulsion i) ∧
          placed t .setpoint s.prop.engines[i].setpoint (.propulsion i)) ∧
        (∀ a, actuator a → alive →
          superseded t (kind a) s.steer.actuators[a].ordered (.steering a) ∧
          ((∀ i, ¬ engine i) → placed t (kind a) s.steer.actuators[a].ordered (.steering a))) ∧
        (¬ alive ∨ ((∀ i, ¬ engine i) ∧ ∀ a, ¬ actuator a) ∨ (s.waitingSlot n = none ∧ ¬ s.hasFree) ∨
          (∃ j, s.waitingSlot n = some j ∧ (∀ i, engine i → s.trans.slots[j].kind ≠ .setpoint) ∧
            ∀ a, actuator a → s.trans.slots[j].kind ≠ kind a) → t = base)) ∧
    (∀ (i : Fin 16) (at_ : Nat), s.SlotsSound → s.trans.slots[i].state = .awaiting →
      s.trans.slots[i].ackAt = some at_ →
      let n := s.trans.slots[i].target
      let port := s.nodes[n].entry.port
      let count := s.nodes[n].timeouts + 1
      ∃ t, exec (.ackTimeout i) s = .next t ∧
        (∀ j : Fin 16, t.trans.slots[j].inFlight = true → t.trans.slots[j].target ≠ n) ∧
        (∀ c : Fin 48, s.trans.slots[i].owner = some (.tow c) → s.trans.slots[i].value = .release →
          s.tow.couplings[c].state = .releasing → s.tow.couplings[c].phase = some .ordered →
          s.releaseSlotOf c = none → t.tow.couplings[c].phase = some .awaitSlack) ∧
        (count < 3 →
          Within .propulsion ((s.reach at_).modNode n fun x => { x with timeouts := count }) t ∧
          t.prop = s.prop ∧ t.steer = s.steer ∧ t.notices = s.notices ∧ t.fwd = s.fwd ∧
          t.trans.slots[i] = { s.trans.slots[i] with state := .free, ackAt := none } ∧
          (∀ j : Fin 16, s.trans.slots[j].state = .waiting → s.trans.slots[j].target = n →
            t.trans.slots[j] = { s.trans.slots[j] with state := .queued } ∧
              t.trans.lane port = s.trans.lane port ++ [j]) ∧
          (∀ j : Fin 16, j ≠ i → s.trans.slots[j].state ≠ .waiting ∨ s.trans.slots[j].target ≠ n →
            t.trans.slots[j] = s.trans.slots[j])) ∧
        (3 ≤ count →
          Within .fuel ((s.reach at_).modNode n fun x =>
            { x with state := .failed, timeouts := count, silenceAt := none, refreshAt := none }) t ∧
          t.hasNotice .nodeFailed (subjectOf n) ∧
          (∀ j : Fin 16, t.trans.slots[j].target = n →
            t.trans.slots[j].state = .free ∧ t.trans.slots[j].ackAt = none) ∧
          (∀ j : Fin 16, s.waitingSlot n = some j ∨ j = i →
            t.trans.slots[j].state = .free ∧ (∀ p : PlantPort, j ∉ t.trans.lane p) ∨
              t.trans.slots[j].target ≠ n) ∧
          (∀ (j : Fin 16) (c : Fin 48), s.waitingSlot n = some j → s.trans.slots[j].owner = some (.tow c) →
            s.trans.slots[j].value = .release → s.tow.couplings[c].state = .releasing →
            s.tow.couplings[c].phase ≠ some .awaitSlack →
            let k := s.tow.couplings[c]
            let back : CouplingState :=
              if k.phase = some .ordered ∧ k.last < k.entry.slack then .slack else k.prior.getD .slack
            t.tow.couplings[c].state =
                (if k.entry.sensor = some n ∧
                    (back = .slack ∨ back = .madeUp ∨ back = .alert ∨ back = .overload) then .silent
                  else back) ∧
              t.tow.couplings[c].phase = none ∧ t.tow.couplings[c].waitAt = none ∧ t.tow.work = none ∧
              t.hasNotice .releaseAbandoned (subjectOf c)) ∧
          (∀ e : Fin 6, s.engineOf n = some e → s.prop.engines[e].state ≠ .absent →
            t.prop.engines[e].state = .lost) ∧
          (∀ a : Fin 5, s.actuatorOf n = some a → s.steer.actuators[a].state ≠ .absent →
            t.steer.actuators[a].state = .fault) ∧
          (∀ c : Fin 48, s.tow.couplings[c].entry.sensor = some n →
            s.tow.couplings[c].state = .slack ∨ s.tow.couplings[c].state = .madeUp ∨
              s.tow.couplings[c].state = .alert ∨ s.tow.couplings[c].state = .overload →
            t.tow.couplings[c].state = .silent ∧ t.tow.couplings[c].sampleAt = none) ∧
          (∀ m : Fin 16, s.fuel.meters[m].entry.node = some n → s.fuel.meters[m].state = .counting →
            t.fuel.meters[m].state = .estimating)))

/-- R136, R137: a placement takes the first of its five cases: not placed for a FAILED or UNUSED node; a supersede of
a waiting slot of the same supersedable kind, which keeps its state and place; busy; busy; and a free slot with the
next TAG, HELD with a condition, WAITING behind an order in flight, or QUEUED at the tail of the lane. -/
def Obligations.PlacementIsDecided : Prop :=
  ∀ (s : State) (n : Fin 32) (kind : OrderKind) (v : OrderValue) (w : Owner) (cond : Option BoatSet),
    let dead : Prop := s.nodes[n].state = .failed ∨ s.nodes[n].state = .unused
    let same (i : Fin 16) : Prop := s.trans.slots[i].kind = kind ∧ kind ≠ .winch
    let tag := s.nodes[n].nextTag
    let counted (t : State) : Prop :=
      t.nodes[n].nextTag = tag + 1 ∧ ∀ m : Fin 32, m ≠ n → t.nodes[m] = s.nodes[m]
    (dead → s.place n kind v w cond = (s, .unplaced)) ∧
    (¬ dead → ∀ i, s.waitingSlot n = some i → same i →
      ∃ t, s.place n kind v w cond = (t, .taken) ∧ counted t ∧
        t.trans.slots[i] = { s.trans.slots[i] with value := v, owner := some w, tag := tag } ∧
        (∀ j : Fin 16, j ≠ i → t.trans.slots[j] = s.trans.slots[j]) ∧
        ∀ p, t.trans.lane p = s.trans.lane p) ∧
    (¬ dead → ∀ i, s.waitingSlot n = some i → ¬ same i → s.place n kind v w cond = (s, .busy)) ∧
    (¬ dead → s.waitingSlot n = none → (∀ i : Fin 16, s.trans.slots[i].state ≠ .free) →
      s.place n kind v w cond = (s, .busy)) ∧
    (¬ dead → s.waitingSlot n = none → (∃ i : Fin 16, s.trans.slots[i].state = .free) →
      ∃ (t : State) (i : Fin 16), s.place n kind v w cond = (t, .taken) ∧ counted t ∧
        s.trans.slots[i].state = .free ∧
        (∀ j : Fin 16, j ≠ i → t.trans.slots[j] = s.trans.slots[j]) ∧
        t.trans.slots[i].target = n ∧ t.trans.slots[i].kind = kind ∧ t.trans.slots[i].value = v ∧
        t.trans.slots[i].owner = some w ∧ t.trans.slots[i].condition = cond ∧
        t.trans.slots[i].tag = tag ∧
        (cond.isSome = true → t.trans.slots[i].state = .held ∧ ∀ p, t.trans.lane p = s.trans.lane p) ∧
        (cond = none → (s.flightSlot n).isSome = true →
          t.trans.slots[i].state = .waiting ∧ ∀ p, t.trans.lane p = s.trans.lane p) ∧
        (cond = none → s.flightSlot n = none →
          t.trans.slots[i].state = .queued ∧
          t.trans.lane s.nodes[n].entry.port = s.trans.lane s.nodes[n].entry.port ++ [i]))

/-! ### The link and the frame queues -/

/-- R149, R151, R154: a frame that is not good leaves nothing but the emptied assembly of its UP port; a port that is
sending takes no bytes, so that no frame that ends on it, good or not, changes anything (R147, R153, R155); the first
good byte on a DOWN port brings it UP and begins an assembly; at transmit completion the line is free 2 byte times
later and the source of the frame gives up its place, a slot beginning its ack timeout. That the time base stands at
the end of the transmission, and that a command with nothing to act on changes nothing, are the model's choices (log
entries 1 and 10). -/
def Obligations.LineEvents : Prop :=
  ∀ (s : State) (p : Port),
    let l := s.link.ports.get p
    (∀ (c : Instr) (f : Frame), l.sending.isSome = true → c.frame s.link.own = some (p, f) →
      exec c s = .next s) ∧
    (l.sending.isSome = true → exec (.frameDiscard p) s = .next s) ∧
    (l.sending = none → l.line = .up → exec (.frameDiscard p) s = .next (s.modLine p fun x =>
      { x with assembly := Assembly.empty, gapAt := s.now })) ∧
    (l.line = .down → exec (.frameDiscard p) s = .next s) ∧
    (∀ b : Byte, l.line = .down → exec (.lineUp p b) s = .next (s.modLine p fun x =>
      { x with line := .up, assembly := { bytes := [b], inError := false, overlong := false } })) ∧
    (∀ b : Byte, l.line = .up → exec (.lineUp p b) s = .next s) ∧
    (∀ x : Transmission, l.sending = some x →
      let now := max s.now x.doneAt
      let free := (s.reach x.doneAt).modLine p fun y => { y with sending := none, gapAt := now + 80 }
      (x.source = .answerLane → exec (.transmitCompletion p) s =
        .next { free with fwd := { s.fwd with answers := s.fwd.answers.drop 1 } }) ∧
      (x.source = .frameQueue → exec (.transmitCompletion p) s =
        .next { free with fwd := { s.fwd with
          queues := s.fwd.queues.set p ((s.fwd.queues.get p).drop 1) } }) ∧
      (∀ i : Fin 16, x.source = .slot (some i) → s.trans.slots[i].state = .sending →
        exec (.transmitCompletion p) s = .next (free.modSlot i fun y =>
          { y with
            state := .awaiting
            ackAt := some (now + 10000 * s.nodes[y.target].entry.ackTimeout) })) ∧
      (x.source = .slot none → exec (.transmitCompletion p) s = .next free)) ∧
    (l.sending = none → exec (.transmitCompletion p) s = .next s)

/-- R139, R153, R170: the transmitter of an UP port that sends nothing and has no byte of a frame in its assembly
takes the head of its lane, and only with the lane empty the head of its frame queue; the transmission takes LEN + 6
byte times of 40 µs; a slot becomes SENDING, leaves its lane, and goes out as an ORDER with its TAG, kind and value. A
port that may not take, or has nothing to take, is left as it is. That the time base stands at the end of the gap, and
that a command with nothing to act on changes nothing, are the model's choices (log entries 1 and 10). -/
def Obligations.TransmitStart : Prop :=
  ∀ (s : State) (p : Port),
    let l := s.link.ports.get p
    let may : Prop := l.line = .up ∧ l.sending = none ∧ l.assembly = Assembly.empty
    let r := s.reach l.gapAt
    let sent (u : State) (src : Source) (f : Frame) : State := u.modLine p fun x =>
      { x with sending := some {
          source := src, frame := f, doneAt := max s.now l.gapAt + 40 * (f.payload.length + 6) } }
    (may → p = .W → ∀ f rest, s.fwd.answers = f :: rest →
      exec (.transmitStart p) s = .next (sent r .answerLane f)) ∧
    (may → ¬ laneWaits s p → ∀ f rest, s.fwd.queues.get p = f :: rest →
      exec (.transmitStart p) s = .next (sent r .frameQueue f)) ∧
    (may → ∀ (q : PlantPort) (i : Fin 16) (rest : List (Fin 16)), p = q.port →
      s.trans.lane q = i :: rest →
      let x := s.trans.slots[i]
      let f : Frame := {
        dest := s.nodes[x.target].entry.address.getD 0, src := s.link.own, cls := 0, tag := x.tag
        payload := x.kind.code :: x.value.bytes }
      exec (.transmitStart p) s =
        .next (sent ((r.modSlot i fun y => { y with state := .sending }).leaveLane i) (.slot (some i)) f)) ∧
    (may → ¬ laneWaits s p → s.fwd.queues.get p = [] → exec (.transmitStart p) s = .next s) ∧
    (¬ may → exec (.transmitStart p) s = .next s)

/-- R158, R165, R169: a frame that no block reads, from no node of its port, changes nothing but the assembly where
its action is DROP or TAKE; where the action passes it to one other port, one copy is placed at the tail of the frame
queue of that port if a reserved or pool buffer is free, and lost with FORWARD_LOST if not; where it passes it to two,
each gets a copy of its own. The copies of any port set, here and in every statement that ends a frame's reading with
them, are placed one port after another in the order W, M, T, the ingress port passed over, each by the buffers that
the ones before it leave. An ACK of no kind acts on the roster alone. A status or sample from no node, or one that is
not taken for its job, is passed on at most. R162, R164: a frame that fixed intake takes under the own address in
force does what its command does; any other meets the first passage entry in use that matches its port, source, class
and kind, and the default action of its port where none does. The gap before the next transmission begins at the frame
end (log entry 10). -/
def Obligations.PassageAndNoKind : Prop :=
  ((∀ (s : State) (p : Port) (f : Frame), fixedIntake s.link.own p f = true →
     exec (.passageFrame p f) s = exec (classify s.link.own p f) s) ∧
   (∀ (s : State) (p : Port) (f : Frame), (Instr.passageFrame p f).wellFormed = true → s.listens p →
     fixedIntake s.link.own p f = false → s.nodeOf p f.src = none →
     let d := s.fwd.disposition p f
     let heard := s.frameEnd p
     ((d.1 = .drop ∨ d.1 = .take) → exec (.passageFrame p f) s = .next heard) ∧
     (d.1 = .pass ∨ d.1 = .takePass → ∀ q : Port, q ≠ p →
       (∀ x : Port, d.2.2.has x = true ↔ x = q ∨ (x = p ∧ d.2.2.has p = true)) →
       let free : Prop :=
         (s.fwd.queues.get q).length < s.fwd.reserved.get q ∨ s.fwd.poolInUse < s.fwd.pool
       (free → exec (.passageFrame p f) s = .next { heard with fwd := { s.fwd with
         queues := s.fwd.queues.set q (s.fwd.queues.get q ++ [f]) } }) ∧
       (¬ free → ∃ t, exec (.passageFrame p f) s = .next t ∧ Within .notices heard t ∧
         t.hasNotice .forwardLost (portNumber q))) ∧
     (d.1 = .pass ∨ d.1 = .takePass → ∀ q r : Port, q ≠ p → r ≠ p → q ≠ r →
       d.2.2.has q = true → d.2.2.has r = true →
       (s.fwd.queues.get q).length < s.fwd.reserved.get q →
       (s.fwd.queues.get r).length < s.fwd.reserved.get r ∨ s.fwd.poolInUse < s.fwd.pool →
       exec (.passageFrame p f) s = .next { heard with fwd := { s.fwd with
         queues := (s.fwd.queues.set q (s.fwd.queues.get q ++ [f])).set r (s.fwd.queues.get r ++ [f]) } }) ∧
     exec (.passageFrame p f) s = .next (s.andPass heard p f)) ∧
   (∀ (s u : State) (p : Port) (f : Frame),
     let d := s.fwd.disposition p f
     let copied (v w : State) (q : Port) : Prop :=
       if (d.1 = .pass ∨ d.1 = .takePass) ∧ d.2.2.has q = true ∧ q ≠ p then
         if (v.fwd.queues.get q).length < v.fwd.reserved.get q ∨ v.fwd.poolInUse < v.fwd.pool then
           w = { v with fwd := { v.fwd with queues := v.fwd.queues.set q (v.fwd.queues.get q ++ [f]) } }
         else Within .notices v w ∧ w.hasNotice .forwardLost (portNumber q)
       else w = v
     ∃ v w, copied u v .W ∧ copied v w .M ∧ copied w (s.andPass u p f) .T) ∧
   (∀ (s : State) (p : Port) (o : Origin) (payload : List Byte), s.listens p →
     (s.nodeOf p o.src = none → exec (.ackOfNoKind p o payload) s = .next (s.frameEnd p)) ∧
     (∀ n : Fin 32, s.nodeOf p o.src = some n → s.nodes[n].state = .enrolled →
       exec (.ackOfNoKind p o payload) s = .next (s.heardFrom p n)))) ∧
  (∀ (s : State) (p : Port) (h : Header) (x : Content) (c : Instr) (j : Job), s.listens p →
     x.command p h = some c → x.job = some j →
     let d := s.fwd.disposition p (x.frame h)
     (s.nodeOf p h.src = none → exec c s = .next (s.andPass (s.frameEnd p) p (x.frame h))) ∧
     (∀ n : Fin 32, s.nodeOf p h.src = some n → s.nodes[n].state = .enrolled →
       d.1.takes = false ∨ d.2.1 ≠ j → exec c s = .next (s.andPass (s.heardFrom p n) p (x.frame h)))) ∧
  (∀ (s : State) (p : Port) (f : Frame),
     let matching (e : PassageEntry) : Prop :=
       e.used = true ∧ (e.ingress = none ∨ e.ingress = some p) ∧
         (e.source = none ∨ e.source = some f.src) ∧ f.cls.toNat < 8 ∧
         (∀ c : Fin 8, e.cls = some c → f.cls.toNat = c.val) ∧
         (e.kindSelector = 0 → f.cls ≠ 7 ∧ f.payload.head? = some e.kind)
     (∀ i : Fin 64, matching s.fwd.passage[i] → (∀ j : Fin 64, j < i → ¬ matching s.fwd.passage[j]) →
       let e := s.fwd.passage[i]
       s.fwd.disposition p f = (e.action, e.job, e.ports)) ∧
     ((∀ i : Fin 64, ¬ matching s.fwd.passage[i]) →
       let d := s.fwd.defaults.get p
       s.fwd.disposition p f = (d.action, d.job, portSetOf d.ports)))

/-- R172: while MOORED an ALLOCATE whose reservations are at least 2, and whose increases leave at least 4 pool
buffers and no fewer than are in use, takes its increases at once and records its decreases; otherwise it is answered
RANGE, and outside MOORED CLOSED, and changes nothing. -/
def Obligations.AllocateDecided : Prop :=
  ∀ (s : State) (o : Origin) (w m x : Byte), s.hasRoom →
    let r := s.fwd.reserved
    let up : PerPort Nat := { w := max r.w w.toNat, m := max r.m m.toNat, t := max r.t x.toNat }
    let amount := (up.w - r.w) + (up.m - r.m) + (up.t - r.t)
    let inUse := (s.fwd.queues.w.length - up.w) + (s.fwd.queues.m.length - up.m) +
      (s.fwd.queues.t.length - up.t)
    let fits := 2 ≤ w.toNat ∧ 2 ≤ m.toNat ∧ 2 ≤ x.toNat ∧ amount + 4 ≤ s.fwd.pool ∧
      inUse ≤ s.fwd.pool - amount
    let down (old new : Nat) : Option Nat := if new < old then some new else none
    let carried (n : Option Nat) : Byte := match n with
      | some n => BitVec.ofNat 8 n
      | none => 0xFF
    let g : Forwarding := { s.fwd with
      reserved := up, pool := s.fwd.pool - amount
      pendingDecrease := { w := down r.w w.toNat, m := down r.m m.toNat, t := down r.t x.toNat } }
    let body := [BitVec.ofNat 8 up.w, BitVec.ofNat 8 up.m, BitVec.ofNat 8 up.t, BitVec.ofNat 8 g.pool,
      carried g.pendingDecrease.w, carried g.pendingDecrease.m, carried g.pendingDecrease.t]
    let b := s.frameEnd .W
    (s.helm.mode = 0 → fits → exec (.allocate o w m x) s = .next
      ({ b with fwd := g }.withAnswers (s.fwd.answers ++ [replyFrame s.link.own o 5 0 body]))) ∧
    (s.helm.mode = 0 → ¬ fits → exec (.allocate o w m x) s =
      .next (b.withAnswers (s.fwd.answers ++ [replyFrame s.link.own o 5 2 []]))) ∧
    (s.helm.mode ≠ 0 → exec (.allocate o w m x) s =
      .next (b.withAnswers (s.fwd.answers ++ [replyFrame s.link.own o 5 1 []])))

/-! ### Notices -/

/-- R175, with the REPORT of R179 and its buffer by R169: a latch of a pair in the list does nothing; with room it
appends the pair; with the list full it sets the overflow marker of the channel. Where the channel is reportable and
holds an entry it builds a REPORT of the channel's oldest ten entries, placed in the frame queue of port W where a
buffer is free, and disarms a channel with auto-disarm; without a buffer the REPORT is lost, the channel is disarmed
in the same way, and FORWARD_LOST is latched, which with the list full sets the overflow marker of its channel. -/
def Obligations.LatchAndReport : Prop :=
  ∀ (s : State) (k : NoticeKind) (x : Byte),
    let n : Notice := { kind := k, subject := x }
    let l := s.notices.list
    let c := s.notices.map[k.index]
    let report : Prop := s.notices.master = true ∧ s.notices.channels[c].armed = true
    let free : Prop := s.fwd.queues.w.length < s.fwd.reserved.w ∨ s.fwd.poolInUse < s.fwd.pool
    let held (l : List Notice) := l.filter fun y => decide (s.notices.map[y.kind.index] = c)
    let frame (l : List Notice) (marked : Bool) : Frame := {
      dest := 0, src := s.link.own, cls := 6, tag := 0
      payload := [1, BitVec.ofNat 8 c.val, (if 10 < l.length then 1 else 0) ||| (if marked then 2 else 0),
          BitVec.ofNat 8 (min 10 l.length)] ++
        (l.take 10).flatMap fun y => [y.kind.number, y.subject] }
    let u : State := { s with notices := { s.notices with list := l ++ [n] } }
    let marked : State := { s with notices := { s.notices with
      channels := modTable s.notices.channels c fun y => { y with overflow := true } } }
    let lost : Notice := { kind := .forwardLost, subject := 0 }
    let unsent : State := { s with notices := { s.notices with
      channels := modTable s.notices.channels c fun y => { y with armed := !y.autoDisarm, overflow := true } } }
    (n ∈ l → s.latch k x = s) ∧
    (n ∉ l → l.length < 32 → ¬ report → s.latch k x = u) ∧
    (n ∉ l → l.length < 32 → report → free →
      s.latch k x = { u with
        notices := { u.notices with channels := modTable s.notices.channels c fun y =>
          { y with armed := !y.autoDisarm } }
        fwd := { s.fwd with queues := { s.fwd.queues with
          w := s.fwd.queues.w ++ [frame (held (l ++ [n])) s.notices.channels[c].overflow] } } }) ∧
    (n ∉ l → l.length < 32 → report → ¬ free →
      Within .notices u (s.latch k x) ∧ (s.latch k x).fwd = s.fwd ∧ (s.latch k x).hasNotice .forwardLost 0 ∧
      (s.latch k x).notices.list =
        l ++ [n] ++ (if lost ∈ l ++ [n] ∨ 31 ≤ l.length then [] else [lost]) ∧
      (s.notices.channels[c].autoDisarm = true → (s.latch k x).notices.channels[c].armed = false)) ∧
    (n ∉ l → 32 ≤ l.length → ¬ (report ∧ held l ≠ []) → s.latch k x = marked) ∧
    (n ∉ l → 32 ≤ l.length → report → held l ≠ [] → free →
      s.latch k x = { s with
        notices := { s.notices with channels := modTable s.notices.channels c fun y =>
          { y with armed := !y.autoDisarm, overflow := true } }
        fwd := { s.fwd with queues := { s.fwd.queues with w := s.fwd.queues.w ++ [frame (held l) true] } } }) ∧
    (n ∉ l → 32 ≤ l.length → report → held l ≠ [] → ¬ free →
      (lost ∈ l → s.latch k x = unsent) ∧
      (lost ∉ l → s.latch k x = { unsent with notices := { unsent.notices with
        channels := modTable unsent.notices.channels s.notices.map[NoticeKind.forwardLost.index] fun y =>
          { y with overflow := true } } }))

/-- R176, R178, R180, R181: NOTICE_SETUP sets the master enable and the arm state and auto-disarm flag of its channel,
and builds the REPORT of each channel that becomes reportable and holds entries, by rising channel, each at the tail
of the frame queue of port W and with its auto-disarm, where there are buffers for all of them, and loses at least one
with FORWARD_LOST where there are not; NOTICE_READ answers with the oldest ten entries of its channel and, with clear,
removes them; NOTICE_CLEAR removes the entries it names and answers with their number; each entry removed whose
condition holds is latched again in its order, and always recorded; at most FORWARD_LOST comes after them (log entry
24). The condition of a level kind is that of its owner, whatever the subject for HELM_LOSS (log entry 13), and an
edge kind has none. A channel above 7, or a kind outside 1 to 25, is answered RANGE and changes nothing. -/
def Obligations.NoticeRequests : Prop :=
  (∀ (s : State) (o : Origin), s.hasRoom →
     let b := s.frameEnd .W
     let range (code : Byte) : Outcome :=
       .next (b.withAnswers (s.fwd.answers ++ [replyFrame s.link.own o code 2 []]))
     let less (ns : List Notice) : State :=
       { b with notices := { s.notices with list := s.notices.list.filter fun n => n ∉ ns } }
     let cleared (ns : List Notice) (t : State) : Prop :=
       (∀ n ∈ ns, s.holds n = true → t.hasNotice n.kind n.subject) ∧
       (s.notices.Fits → ∃ l : List Notice,
         (l = [] ∨ l = [{ kind := .forwardLost, subject := 0 }]) ∧
         t.notices.list = (less ns).notices.list ++ ns.filter s.holds ++ l)
     (∀ (master ch arm auto : Byte) (c : Fin 8), ch.toNat = c.val →
       let base : State := { b with notices := { s.notices with
         master := decide (master ≠ 0)
         channels := modTable s.notices.channels c fun x =>
           { x with armed := decide (arm ≠ 0), autoDisarm := decide (auto ≠ 0) } } }
       let becomes (d : Fin 8) : Prop :=
         base.notices.master = true ∧ base.notices.channels[d].armed = true ∧
           (s.notices.master = false ∨ s.notices.channels[d].armed = false) ∧
           ∃ x ∈ s.notices.list, s.notices.map[x.kind.index] = d
       let es := (List.finRange 8).filter fun d => decide (becomes d)
       let frame (d : Fin 8) : Frame :=
         let l := s.notices.list.filter fun y => decide (s.notices.map[y.kind.index] = d)
         { dest := 0, src := s.link.own, cls := 6, tag := 0
           payload := [1, BitVec.ofNat 8 d.val, (if 10 < l.length then 1 else 0) |||
               (if s.notices.channels[d].overflow then 2 else 0), BitVec.ofNat 8 (min 10 l.length)] ++
             (l.take 10).flatMap fun y => [y.kind.number, y.subject] }
       let room := (s.fwd.reserved.w - s.fwd.queues.w.length) + (s.fwd.pool - s.fwd.poolInUse)
       let answers := s.fwd.answers ++ [replyFrame s.link.own o 7 0 []]
       (es.length ≤ room → exec (.noticeSetup o master ch arm auto) s = .next ({ base with
         notices := { base.notices with channels := ofTable fun d =>
           let x := base.notices.channels[d]
           if d ∈ es then { x with armed := x.armed && !x.autoDisarm } else x }
         fwd := { s.fwd with queues := { s.fwd.queues with
           w := s.fwd.queues.w ++ es.map frame } } }.withAnswers answers)) ∧
       (room < es.length → ∃ t, exec (.noticeSetup o master ch arm auto) s = .next t ∧
         Replied .notices base (replyFrame s.link.own o 7 0 []) t ∧ t.hasNotice .forwardLost 0)) ∧
     (∀ master ch arm auto : Byte, 8 ≤ ch.toNat → exec (.noticeSetup o master ch arm auto) s = range 7) ∧
     (∀ (ch clear : Byte) (c : Fin 8), ch.toNat = c.val →
       let ns := (s.notices.entriesOf c).take 10
       let body : List Byte :=
         [(if 10 < (s.notices.entriesOf c).length then 1 else 0) |||
             (if s.notices.channels[c].overflow then 2 else 0), BitVec.ofNat 8 ns.length] ++
           ns.flatMap fun n => [n.kind.number, n.subject]
       let base : State := { less ns with notices := { (less ns).notices with
         channels := modTable s.notices.channels c fun x => { x with overflow := false } } }
       (clear = 0 → exec (.noticeRead o ch clear) s =
         .next (b.withAnswers (s.fwd.answers ++ [replyFrame s.link.own o 8 0 body]))) ∧
       (clear ≠ 0 → ∃ t, exec (.noticeRead o ch clear) s = .next t ∧
         Replied .notices base (replyFrame s.link.own o 8 0 body) t ∧ cleared ns t ∧
         (s.notices.master = false → s.notices.Fits → t = { base with notices := { base.notices with
           list := base.notices.list ++ ns.filter s.holds } }.withAnswers
             (s.fwd.answers ++ [replyFrame s.link.own o 8 0 body])))) ∧
     (∀ ch clear : Byte, 8 ≤ ch.toNat → exec (.noticeRead o ch clear) s = range 8) ∧
     (∀ (kind sel subject : Byte) (k : NoticeKind), kind = k.number →
       let ns := s.notices.list.filter fun n =>
         decide (n.kind = k) && (decide (sel ≠ 0) || decide (n.subject = subject))
       ∃ t, exec (.noticeClear o kind sel subject) s = .next t ∧
         Replied .notices (less ns) (replyFrame s.link.own o 9 0 [BitVec.ofNat 8 ns.length]) t ∧
         cleared ns t ∧
         (s.notices.master = false → s.notices.Fits → t = { less ns with notices := { (less ns).notices with
           list := (less ns).notices.list ++ ns.filter s.holds } }.withAnswers
             (s.fwd.answers ++ [replyFrame s.link.own o 9 0 [BitVec.ofNat 8 ns.length]]))) ∧
     (∀ kind sel subject : Byte, kind = 0 ∨ 25 < kind.toNat →
       exec (.noticeClear o kind sel subject) s = range 9)) ∧
  (∀ (s : State) (x : Byte),
     let at_ (k : NoticeKind) : Prop := s.holds { kind := k, subject := x } = true
     (at_ .engineLost ↔ ∃ i : Fin 6, x.toNat = i.val ∧ s.prop.engines[i].state = .lost) ∧
     (at_ .unmetDemand ↔ 0 < s.prop.unmet) ∧
     (at_ .actuatorFault ↔ ∃ i : Fin 5, x.toNat = i.val ∧ s.steer.actuators[i].state = .fault) ∧
     (at_ .actuatorDiverged ↔ ∃ i : Fin 5, x.toNat = i.val ∧ s.steer.actuators[i].state = .diverged) ∧
     (at_ .couplingAlert ↔ ∃ i : Fin 48, x.toNat = i.val ∧ s.tow.couplings[i].state = .alert) ∧
     (at_ .couplingOverload ↔ ∃ i : Fin 48, x.toNat = i.val ∧ s.tow.couplings[i].state = .overload) ∧
     (at_ .couplingParted ↔ ∃ i : Fin 48, x.toNat = i.val ∧ s.tow.couplings[i].state = .parted) ∧
     (at_ .couplingSilent ↔ ∃ i : Fin 48, x.toNat = i.val ∧ s.tow.couplings[i].state = .silent) ∧
     (at_ .helmLoss ↔ s.helm.helm = .lost) ∧
     (at_ .nodeSilent ↔ ∃ i : Fin 32, x.toNat = i.val ∧ s.nodes[i].state = .silent) ∧
     (at_ .nodeFailed ↔ ∃ i : Fin 32, x.toNat = i.val ∧ s.nodes[i].state = .failed) ∧
     (at_ .fuelReserve ↔ s.fuel.leg.reserve = true) ∧
     (at_ .tankLow ↔ ∃ i : Fin 8, x.toNat = i.val ∧ s.fuel.tanks[i].low = true) ∧
     (at_ .tankDiscrepancy ↔ ∃ i : Fin 8, x.toNat = i.val ∧ s.fuel.tanks[i].discrepant = true) ∧
     (at_ .meterEstimating ↔ ∃ i : Fin 16, x.toNat = i.val ∧ s.fuel.meters[i].state = .estimating) ∧
     ∀ k : NoticeKind, k = .engineTrip ∨ k = .releaseDone ∨ k = .releaseAbandoned ∨
       k = .makeupAbandoned ∨ k = .commandTransfer ∨ k = .nodeEnrolled ∨ k = .enrolMismatch ∨
       k = .meterReset ∨ k = .statementEnd ∨ k = .forwardLost → ¬ at_ k)

/-! ### Tables and records -/

/-- R5, R98, R99, R167, R177: while MOORED a TABLE_WRITE of a station, passage, default or meter entry within its
ranges takes the entry and changes nothing else, a written station entry that held the station in command leaves none
in command, and a written meter starts again; a notice map entry is taken in every mode. Outside MOORED a write of the
first four is answered CLOSED and changes nothing. An index beyond the table, a field beyond its range, an address or
a node channel that another entry has, and an action that passes frames to no port are answered RANGE and change
nothing. -/
def Obligations.PlainTableWrites : Prop :=
  ∀ (s : State) (o : Origin) (index : Byte), s.hasRoom →
    let b := s.frameEnd .W
    let placed (u : State) (table status : Byte) : Outcome :=
      .next (u.withAnswers (s.fwd.answers ++ [replyFrame s.link.own o 3 status [table, index]]))
    (∀ (i j : Fin 2) (a : Byte), s.helm.mode = 0 → index.toNat = i.val → j ≠ i → a.toNat < 128 →
      a ≠ s.link.own → (a ≠ 0 → s.helm.stations[j] ≠ some a) →
      let new : Option Byte := if a = 0 then none else some a
      exec (.tableWriteStation o index a) s = placed { b with helm := { s.helm with
        stations := s.helm.stations.set i new
        command :=
          if s.helm.command.isSome ∧ s.helm.stations[i] = s.helm.command ∧ new ≠ s.helm.command then none
          else s.helm.command } } 1 0) ∧
    (∀ (i : Fin 64) (r : PassageRaw), s.helm.mode = 0 → index.toNat = i.val → PassageRaw.inRange r = true →
      ((PassageRaw.entry r).action.passes = true → (PassageRaw.entry r).ports.isEmpty = false) →
      exec (.tableWritePassage o index r) s =
        placed { b with fwd := { s.fwd with passage := s.fwd.passage.set i (PassageRaw.entry r) } } 3 0) ∧
    (∀ (p : Port) (r : DefaultRaw), s.helm.mode = 0 → index = portNumber p → r.action.toNat < 4 →
      r.job.toNat < 4 →
      ((r.action = 1 ∨ r.action = 3) → (portSetOf r.ports).isEmpty = false) →
      exec (.tableWriteDefault o index r) s =
        placed { b with fwd := { s.fwd with defaults := s.fwd.defaults.set p (DefaultRaw.entry r) } } 4 0) ∧
    (∀ (i : Fin 16) (r : MeterRaw) (e : MeterEntry), s.helm.mode = 0 → index.toNat = i.val →
      (MeterRaw.entry? r) = some e →
      (∀ j : Fin 16, j ≠ i → e.node.isSome = true →
        s.fuel.meters[j].entry.node ≠ e.node ∨ s.fuel.meters[j].entry.channel ≠ e.channel) →
      exec (.tableWriteMeter o index r) s = placed (b.modMeter i fun _ => {
        entry := e, state := if e.node = none then .unused else .baseline
        lastTotal := 0, lastArrival := 0, lastRate := 0, accumulator := 0
        silenceAt := none, tickAt := none }) 10 0) ∧
    (∀ (k : NoticeKind) (ch : Byte) (c : Fin 8), index = k.number → ch.toNat = c.val →
      exec (.tableWriteNoticeMap o index ch) s =
        placed { b with notices := { s.notices with map := s.notices.map.set k.index c } } 11 0) ∧
    (s.helm.mode ≠ 0 → ∀ a r d m,
      exec (.tableWriteStation o index a) s = placed b 1 1 ∧
      exec (.tableWritePassage o index r) s = placed b 3 1 ∧
      exec (.tableWriteDefault o index d) s = placed b 4 1 ∧
      exec (.tableWriteMeter o index m) s = placed b 10 1) ∧
    (s.helm.mode = 0 → ∀ a : Byte,
      2 ≤ index.toNat ∨ 128 ≤ a.toNat ∨ a = s.link.own ∨
        (a ≠ 0 ∧ ∃ i j : Fin 2, index.toNat = i.val ∧ j ≠ i ∧ s.helm.stations[j] = some a) →
      exec (.tableWriteStation o index a) s = placed b 1 2) ∧
    (s.helm.mode = 0 → ∀ r : PassageRaw,
      let listed : Prop := r.used.toNat < 2 ∧ (r.ingress.toNat < 3 ∨ r.ingress = 0xFF) ∧
        (r.source = 0xFF ∨ (1 ≤ r.source.toNat ∧ r.source.toNat ≤ 127)) ∧ isIndex 8 r.cls
      (PassageRaw.inRange r = true ↔ listed) ∧
      (64 ≤ index.toNat ∨ ¬ listed ∨
          ((PassageRaw.entry r).action.passes = true ∧ (PassageRaw.entry r).ports.isEmpty = true) →
        exec (.tableWritePassage o index r) s = placed b 3 2)) ∧
    (s.helm.mode = 0 → ∀ r : DefaultRaw,
      2 < index.toNat ∨ 4 ≤ r.action.toNat ∨ 4 ≤ r.job.toNat ∨
        ((r.action = 1 ∨ r.action = 3) ∧ (portSetOf r.ports).isEmpty = true) →
      exec (.tableWriteDefault o index r) s = placed b 4 2) ∧
    (s.helm.mode = 0 → ∀ r : MeterRaw,
      let listed : Prop := isIndex 32 r.node ∧ r.channel.toNat ≤ 1 ∧ r.role.toNat ≤ 3 ∧
        (r.role.toNat ≤ 1 → r.firstObject.toNat ≤ 5) ∧
        (r.role = 2 → r.firstObject.toNat ≤ 7 ∧ r.toTank.toNat ≤ 7 ∧ r.firstObject ≠ r.toTank) ∧
        (r.role = 3 → r.toTank.toNat ≤ 7) ∧ 1 ≤ r.maxRate.toNat
      ((MeterRaw.entry? r).isSome = true ↔ listed) ∧
      (16 ≤ index.toNat ∨ ¬ listed → exec (.tableWriteMeter o index r) s = placed b 10 2) ∧
      (∀ (e : MeterEntry) (i j : Fin 16), (MeterRaw.entry? r) = some e → index.toNat = i.val → j ≠ i →
        e.node.isSome = true → s.fuel.meters[j].entry.node = e.node →
        s.fuel.meters[j].entry.channel = e.channel →
        exec (.tableWriteMeter o index r) s = placed b 10 2)) ∧
    (∀ ch : Byte, index = 0 ∨ 25 < index.toNat ∨ 8 ≤ ch.toNat →
      exec (.tableWriteNoticeMap o index ch) s = placed b 11 2)

/-- R1, R2, R10, R26, R28, R65: a TABLE_WRITE of a mode profile within its ranges is taken in every mode. A profile
not in force is stored and nothing else changes; under the profile in force the guard stops or starts with its period,
forced steer assist follows the gain, the tow ceilings are those of the new profile, and the ceiling components, the
demand, the differential and the targets stay those of the profile in force. Outside the ranges, or with an index
above 7, it is answered RANGE and changes nothing. The order and number of recomputes, and that the components of an
ABSENT engine are formed with the others, are the model's reading (log entry 11). -/
def Obligations.ModeWriteTaken : Prop :=
  ∀ (s : State) (o : Origin) (index : Byte) (r : ModeRaw), s.hasRoom →
    let b := s.frameEnd .W
    let e := ModeRaw.entry r
    let stored (m : Fin 8) := s.helm.modes.set m e
    let reply (status : Byte) := replyFrame s.link.own o 3 status [5, index]
    let base (m : Fin 8) : State := { b with helm := { s.helm with
      modes := stored m
      guardAt :=
        if e.guardPeriod = 0 then none
        else if s.helm.guardAt = none ∧ m ≠ 0 ∧ s.helm.helm = .normal then
          some (s.now + 100000 * e.guardPeriod)
        else s.helm.guardAt } }
    (e.inRange = true ↔ e.aheadCeiling ≤ 1000 ∧ e.asternCeiling ≤ 1000 ∧ 1 ≤ e.stepSize ∧ e.stepSize ≤ 250 ∧
      2 ≤ e.stepInterval ∧ e.guardPeriod ≠ 1 ∧ e.towAlertCeiling ≤ 1000 ∧ e.towOverloadCeiling ≤ 1000 ∧
      8 ≤ e.tensionScale ∧ e.tensionScale ≤ 16 ∧ e.economyCeiling ≤ 1000 ∧ e.gain ≤ 127 ∧
      5 ≤ e.waitLimit ∧ -1000 ≤ e.fallback ∧ e.fallback ≤ 1000) ∧
    (∀ m : Fin 8, index.toNat = m.val → e.inRange = true → m ≠ s.helm.mode →
      exec (.tableWriteMode o index r) s = .next
        ({ b with helm := { s.helm with modes := stored m } }.withAnswers (s.fwd.answers ++ [reply 0]))) ∧
    (∀ m : Fin 8, index.toNat = m.val → e.inRange = true → m = s.helm.mode →
      ∃ t, exec (.tableWriteMode o index r) s = .next t ∧ Replied .tow (base m).setForced (reply 0) t ∧
        t.CeilingsFormed ∧ t.ForcedSound ∧ (s.TargetsFormed → t.TargetsFormed)) ∧
    (e.inRange = false ∨ 8 ≤ index.toNat → exec (.tableWriteMode o index r) s =
      .next (b.withAnswers (s.fwd.answers ++ [reply 2])))

/-- R17, R18, R26, R30, R49, R50, R57: a TABLE_WRITE of an engine entry within its ranges whose governor no other
engine names is taken, a structure write while MOORED with the engine at rest only: the entry is stored, N, the
ceilings, the demand and the targets are formed again, and a structure write starts the engine again, STANDBY with an
ENROLLED governor, LOST with another, ABSENT with none. A write of an actuator entry while MOORED, within its ranges
and with a node that no other actuator names, starts the actuator again by the state of its node and places its
ordered value, where nothing stands in its way and a slot is FREE afterwards; forced steer assist follows. An index
beyond the table, a field beyond its range and a governor or node named twice are answered RANGE, a structure write
under way CLOSED, one of an engine not at rest STATE; each changes nothing. That the components of an ABSENT engine
are formed with the others is the model's reading (log entry 11). -/
def Obligations.EngineAndActuatorWrites : Prop :=
  ∀ (s : State) (o : Origin) (index : Byte), s.hasRoom →
    let b := s.frameEnd .W
    let reply (table status : Byte) := replyFrame s.link.own o 3 status [table, index]
    let refused (table status : Byte) : Outcome :=
      .next (b.withAnswers (s.fwd.answers ++ [reply table status]))
    (∀ (i : Fin 6) (r : EngineRaw), index.toNat = i.val →
      let x := s.prop.engines[i]
      let structural : Bool := decide (r.bytes.take 10 ≠ x.entry.structureBytes)
      let clash (e : EngineEntry) : Prop :=
        e.governor.isSome = true ∧ ∃ j : Fin 6, j ≠ i ∧ s.prop.engines[j].entry.governor = e.governor
      let engaged : Prop := x.setpoint ≠ 0 ∨ x.slew = .dwelling ∨ x.lastSign ≠ .unset
      ((EngineRaw.entry? r).isSome = true ↔ isIndex 32 r.governor ∧ (r.boat = 1 ∨ r.boat = 2) ∧
        r.side.toNat ≤ 2 ∧ 50 ≤ r.rating.toNat ∧ r.rating.toNat ≤ 6000 ∧ r.weight.toNat ≤ 15 ∧
        isIndex 8 r.serviceTank ∧ isIndex 16 r.supplyMeter ∧ isIndex 16 r.returnMeter ∧
        r.idleBand.toNat ≤ 100 ∧ r.alertCeiling.toNat ≤ 1000 ∧ r.alarmCeiling.toNat ≤ 1000) ∧
      (structural = true → s.helm.mode ≠ 0 → exec (.tableWriteEngine o index r) s = refused 6 1) ∧
      (structural = false ∨ s.helm.mode = 0 →
        ((EngineRaw.entry? r) = none → exec (.tableWriteEngine o index r) s = refused 6 2) ∧
        ∀ e : EngineEntry, (EngineRaw.entry? r) = some e →
          (clash e → exec (.tableWriteEngine o index r) s = refused 6 2) ∧
          (¬ clash e → structural = true → engaged →
            exec (.tableWriteEngine o index r) s = refused 6 4) ∧
          (¬ clash e → (structural = true → ¬ engaged) →
            let start : EngineState := match e.governor with
              | none => .absent
              | some g => if s.nodes[g].state = .enrolled then .standby else .lost
            let engines := modTable s.prop.engines i fun x =>
              if structural then { x with entry := e, state := start, health := .sound, load := 0 }
              else { x with entry := e }
            ∃ t, exec (.tableWriteEngine o index r) s = .next t ∧
              Replied .propulsion { b with prop := { s.prop with
                engines := engines, nominal := nominalPower engines } } (reply 6 0) t ∧
              t.TargetsFormed ∧ t.NominalFormed ∧
              (structural = true → t.prop.engines[i].target = 0 ∧ t.prop.engines[i].setpoint = 0)))) ∧
    (∀ (i : Fin 5) (r : ActuatorRaw), index.toNat = i.val →
      let clash (e : ActuatorEntry) : Prop :=
        e.node.isSome = true ∧ ∃ j : Fin 5, j ≠ i ∧ s.steer.actuators[j].entry.node = e.node
      let widest : Nat := if r.kind = 2 then 1000 else 450
      ((ActuatorRaw.entry? r).isSome = true ↔ isIndex 32 r.node ∧ r.kind.toNat ≤ 2 ∧
        (r.boat = 1 ∨ r.boat = 2) ∧ (r.kind = 2 → r.boat = 1) ∧ 1 ≤ r.time.toNat ∧
        r.limit.toNat ≤ widest ∧ r.band.toNat ≤ widest) ∧
      (s.helm.mode ≠ 0 → exec (.tableWriteActuator o index r) s = refused 7 1) ∧
      (s.helm.mode = 0 →
        ((ActuatorRaw.entry? r) = none → exec (.tableWriteActuator o index r) s = refused 7 2) ∧
        ∀ e : ActuatorEntry, (ActuatorRaw.entry? r) = some e →
          (clash e → exec (.tableWriteActuator o index r) s = refused 7 2) ∧
          (¬ clash e →
            let start : ActuatorState := match e.node with
              | none => .absent
              | some n =>
                if s.nodes[n].state = .enrolled then .ready
                else if s.nodes[n].state = .failed then .fault
                else .lost
            let base := b.modActuator i fun x =>
              { x with entry := e, state := start, reported := 0, divergeAt := none }
            ∃ t, exec (.tableWriteActuator o index r) s = .next t ∧
              Replied .propulsion base.setForced (reply 7 0) t ∧ t.ForcedSound ∧
              (s.TargetsFormed → t.TargetsFormed) ∧
              (start = .fault → t.hasNotice .actuatorFault (subjectOf i)) ∧
              (start = .absent → t.steer.actuators[i].ordered = 0) ∧
              (start ≠ .absent → t.steer.actuators[i].ordered = t.mapped t.steer.actuators[i]) ∧
              (∀ n : Fin 32, base.mayOrder i n → t.hasFree → t.carriesOrdered i n)))) ∧
    (6 ≤ index.toNat → ∀ r, exec (.tableWriteEngine o index r) s = refused 6 2) ∧
    (5 ≤ index.toNat → ∀ r, exec (.tableWriteActuator o index r) s =
      refused 7 (if s.helm.mode = 0 then 2 else 1))

/-- R69, R70, R79, R109, R110, R112, R127, R128, R134: a TABLE_WRITE of a coupling, tank or roster entry that its rule
takes. A structure write of a coupling starts it again, SILENT or UNUSED, and forms the tow ceilings; a live one
stores the marks. A tank is stored with its LOW flag tested, and a new gauge drops the reading. A roster entry with a
new port, address or kind starts again, EXPECTED or UNUSED, and a change of its state is handed on: its engine and its
actuator are LOST, its couplings SILENT, its meters estimate. With new times alone it keeps its state. An index beyond
the table, a field beyond its range and a clash with another entry are answered RANGE, a write that wants MOORED and
finds it not CLOSED, and STATE a coupling in work, a tank that holds more than the new capacity, and a moved node with
an order. That the components of an ABSENT engine are formed with the others, and that a live write of a coupling does
not form the tow ceilings (R70 against R79), are the model's reading (log entry 11), as is that a roster write which
leaves the state of its node hands nothing on (log entry 17). -/
def Obligations.CouplingTankAndRosterWrites : Prop :=
  ∀ (s : State) (o : Origin) (index : Byte), s.hasRoom →
    let b := s.frameEnd .W
    let reply (table status : Byte) := replyFrame s.link.own o 3 status [table, index]
    let refused (table status : Byte) : Outcome :=
      .next (b.withAnswers (s.fwd.answers ++ [reply table status]))
    (∀ (c : Fin 48) (r : CouplingRaw), index.toNat = c.val →
      let k := s.tow.couplings[c]
      let structural := r.bytes.take 5 ≠ k.entry.structureBytes
      let clash (e : CouplingEntry) : Prop := ∃ d : Fin 48, d ≠ c ∧
        ((e.sensor.isSome = true ∧ s.tow.couplings[d].entry.sensor = e.sensor ∧
            s.tow.couplings[d].entry.channel = e.channel) ∨
          (e.winch.isSome = true ∧ s.tow.couplings[d].entry.winch = e.winch))
      let working : Prop := k.state = .releasing ∨ k.state = .makingUp
      ((CouplingRaw.entry? r).isSome = true ↔ r.kind.toNat ≤ 1 ∧ r.bearsOn.toNat ≤ 2 ∧
        (r.kind = 1 → r.bearsOn = 2) ∧ isIndex 32 r.sensor ∧ r.channel.toNat ≤ 3 ∧ isIndex 32 r.winch ∧
        1 ≤ r.debounce.toNat ∧ r.debounce.toNat ≤ 8) ∧
      (structural → s.helm.mode ≠ 0 → exec (.tableWriteCoupling o index r) s = refused 8 1) ∧
      (¬ structural ∨ s.helm.mode = 0 →
        ((CouplingRaw.entry? r) = none → exec (.tableWriteCoupling o index r) s = refused 8 2) ∧
        ∀ e : CouplingEntry, (CouplingRaw.entry? r) = some e →
          (clash e → exec (.tableWriteCoupling o index r) s = refused 8 2) ∧
          (¬ clash e → working → exec (.tableWriteCoupling o index r) s = refused 8 4) ∧
          (¬ clash e → ¬ working → structural → ∃ t, exec (.tableWriteCoupling o index r) s = .next t ∧
            Replied .tow (b.modCoupling c fun _ => {
              entry := e, state := if e.sensor = none then .unused else .silent
              phase := none, prior := none, last := 0, count := 0, waitAt := none, sampleAt := none })
              (reply 8 0) t ∧
            t.CeilingsFormed ∧ (s.TargetsFormed → t.TargetsFormed)) ∧
          (¬ clash e → ¬ working → ¬ structural → exec (.tableWriteCoupling o index r) s =
            .next ((b.modCoupling c fun k => { k with entry := e }).withAnswers
              (s.fwd.answers ++ [reply 8 0]))))) ∧
    (∀ (i : Fin 8) (r : TankRaw), index.toNat = i.val →
      let k := s.fuel.tanks[i]
      let structural := r.bytes.take 7 ≠ k.entry.structureBytes
      let clash (e : TankEntry) : Prop := e.gauge.isSome = true ∧ ∃ j : Fin 8, j ≠ i ∧
        s.fuel.tanks[j].entry.gauge = e.gauge ∧ s.fuel.tanks[j].entry.channel = e.channel
      ((TankRaw.entry? r).isSome = true ↔ r.capacity.toNat ≤ 2000000000 ∧ r.role.toNat ≤ 1 ∧
        isIndex 32 r.gauge ∧ r.channel.toNat ≤ 3 ∧ r.lowMark.toNat ≤ 2000000000 ∧
        r.lowCeiling.toNat ≤ 1000 ∧ r.tolerance.toNat ≤ 2000000000) ∧
      (structural → s.helm.mode ≠ 0 → exec (.tableWriteTank o index r) s = refused 9 1) ∧
      (¬ structural ∨ s.helm.mode = 0 →
        ((TankRaw.entry? r) = none → exec (.tableWriteTank o index r) s = refused 9 2) ∧
        ∀ e : TankEntry, (TankRaw.entry? r) = some e →
          (clash e → exec (.tableWriteTank o index r) s = refused 9 2) ∧
          (¬ clash e → e.capacity < k.quantity → exec (.tableWriteTank o index r) s = refused 9 4) ∧
          (¬ clash e → k.quantity ≤ e.capacity →
            let same : Bool := decide (e.gauge = k.entry.gauge) && decide (e.channel = k.entry.channel)
            let low : Bool := decide (0 < e.capacity) && decide (k.quantity < e.lowMark)
            ∃ t, exec (.tableWriteTank o index r) s = .next t ∧
              Replied .propulsion (b.modTank i fun k =>
                { k with
                  entry := e, low := low
                  reading := if same then k.reading else none
                  discrepant := if same then k.discrepant else false }) (reply 9 0) t ∧
              (low = true → k.low = false → t.hasNotice .tankLow (subjectOf i)) ∧
              (s.TargetsFormed → t.TargetsFormed)))) ∧
    (∀ (n : Fin 32) (r : RosterRaw), s.helm.mode = 0 → index.toNat = n.val →
      let e := (RosterRaw.entry r)
      let x := s.nodes[n]
      let moved : Prop := e.port ≠ x.entry.port ∨ e.address ≠ x.entry.address ∨ e.kind ≠ x.entry.kind
      let clash : Prop := e.address.isSome = true ∧ ∃ m : Fin 32, m ≠ n ∧
        s.nodes[m].entry.port = e.port ∧ s.nodes[m].entry.address = e.address
      let target : Prop := ∃ i : Fin 16, s.trans.slots[i].target = n ∧ s.trans.slots[i].state ≠ .free
      let state : NodeState := if e.address = none then .unused else .expected
      let base := b.modNode n fun y =>
        { y with entry := e, state := state, timeouts := 0, silenceAt := none, refreshAt := none }
      ((RosterRaw.inRange r) = true ↔ r.port.toNat ≤ 1 ∧ r.address.toNat ≤ 127 ∧ r.kind.toNat ≤ 6 ∧
        1 ≤ r.ackTimeout.toNat ∧ 1 ≤ r.silence.toNat) ∧
      ((RosterRaw.inRange r) = false → exec (.tableWriteRoster o index r) s = refused 2 2) ∧
      ((RosterRaw.inRange r) = true → clash → exec (.tableWriteRoster o index r) s = refused 2 2) ∧
      ((RosterRaw.inRange r) = true → ¬ clash →
        (moved → target → exec (.tableWriteRoster o index r) s = refused 2 4) ∧
        (moved → ¬ target → x.state = state → exec (.tableWriteRoster o index r) s =
          .next (base.withAnswers (s.fwd.answers ++ [reply 2 0]))) ∧
        (moved → ¬ target → x.state ≠ state → ∃ t, exec (.tableWriteRoster o index r) s = .next t ∧
          Replied .fuel base (reply 2 0) t ∧
          (∀ i : Fin 6, s.engineOf n = some i → s.prop.engines[i].state ≠ .absent →
            t.prop.engines[i].state = .lost) ∧
          (∀ i : Fin 5, s.actuatorOf n = some i → s.steer.actuators[i].state ≠ .absent →
            t.steer.actuators[i].state = .lost) ∧
          (∀ c : Fin 48, s.tow.couplings[c].entry.sensor = some n →
            s.tow.couplings[c].state = .slack ∨ s.tow.couplings[c].state = .madeUp ∨
              s.tow.couplings[c].state = .alert ∨ s.tow.couplings[c].state = .overload →
            t.tow.couplings[c].state = .silent) ∧
          (∀ i : Fin 16, s.fuel.meters[i].entry.node = some n → s.fuel.meters[i].state = .counting →
            t.fuel.meters[i].state = .estimating)) ∧
        (¬ moved → exec (.tableWriteRoster o index r) s = .next
          ((b.modNode n fun y =>
            { y with
              entry := e
              refreshAt :=
                if e.refresh = 0 then none
                else if y.refreshAt = none ∧ (y.state = .enrolled ∨ y.state = .silent) then
                  some (s.now + 100000 * e.refresh)
                else y.refreshAt }).withAnswers (s.fwd.answers ++ [reply 2 0]))))) ∧
    (48 ≤ index.toNat → ∀ r, exec (.tableWriteCoupling o index r) s = refused 8 2) ∧
    (8 ≤ index.toNat → ∀ r, exec (.tableWriteTank o index r) s = refused 9 2) ∧
    (s.helm.mode = 0 → 32 ≤ index.toNat → ∀ r, exec (.tableWriteRoster o index r) s = refused 2 2) ∧
    (s.helm.mode ≠ 0 → ∀ r, exec (.tableWriteRoster o index r) s = refused 2 1)

/-- R184, 10.2: the entry bytes of each table, read back from the entry that a taken write stores, are the bytes
written, the fill byte of a coupling apart, which reads 0. Each table id and index names the entry of its table, as
its bytes are read back, and every other id or index names none. R184, R185: a TABLE_READ answers with the entry it
names and a STATE_READ with the page it names of the record's encoding, and each changes nothing else; an entry,
record, index or page that is not there is answered RANGE. Each record code and index gives its record, field by field
in key order, and every other code or index none; and the pages of a record, joined, are its encoding. The size of
each field of a record and its codes are the model's (log entries 7, 8, 9 and 22), as is that bits which are not read
come back as written (log entry 5). -/
def Obligations.EntriesAndRecordsAreRead : Prop :=
  ((∀ a : Byte, addressByte (stationOf a) = a) ∧
   (∀ r : RosterRaw, (RosterRaw.inRange r) = true → (RosterRaw.entry r).bytes = r.bytes) ∧
   (∀ r : PassageRaw, (PassageRaw.inRange r) = true → (PassageRaw.entry r).bytes = r.bytes) ∧
   (∀ r : DefaultRaw, r.action.toNat < 4 → r.job.toNat < 4 → (DefaultRaw.entry r).bytes = r.bytes) ∧
   (∀ r : ModeRaw, (ModeRaw.entry r).bytes = r.bytes) ∧
   (∀ (r : EngineRaw) (e : EngineEntry), (EngineRaw.entry? r) = some e → e.bytes = r.bytes) ∧
   (∀ (r : ActuatorRaw) (e : ActuatorEntry), (ActuatorRaw.entry? r) = some e → e.bytes = r.bytes) ∧
   (∀ (r : CouplingRaw) (e : CouplingEntry), (CouplingRaw.entry? r) = some e → e.bytes = { r with fill := 0 }.bytes) ∧
   (∀ (r : TankRaw) (e : TankEntry), (TankRaw.entry? r) = some e → e.bytes = r.bytes) ∧
   (∀ (r : MeterRaw) (e : MeterEntry), (MeterRaw.entry? r) = some e → e.bytes = r.bytes)) ∧
  (∀ (s : State) (index : Byte),
     let size (l : List Nat) (x : Byte) : Nat := (0 :: l).getD x.toNat 0
     let entry (x : Byte) (n : Nat) (f : Fin n → List Byte) : Prop :=
       ∀ i : Fin n, index.toNat = i.val → s.tableEntry x index = some (f i)
     let record (x : Byte) (n : Nat) (f : Fin n → List Byte) : Prop :=
       ∀ i : Fin n, index.toNat = i.val → s.record x index = some (f i)
     let timer (x : Timer) : List Byte := bytes4 (s.remaining x)
     entry 1 2 (fun i => [addressByte s.helm.stations[i]]) ∧
     entry 2 32 (fun i => s.nodes[i].entry.bytes) ∧
     entry 3 64 (fun i => s.fwd.passage[i].bytes) ∧
     (∀ p : Port, index = portNumber p → s.tableEntry 4 index = some (s.fwd.defaults.get p).bytes) ∧
     entry 5 8 (fun i => s.helm.modes[i].bytes) ∧
     entry 6 6 (fun i => s.prop.engines[i].entry.bytes) ∧
     entry 7 5 (fun i => s.steer.actuators[i].entry.bytes) ∧
     entry 8 48 (fun i => s.tow.couplings[i].entry.bytes) ∧
     entry 9 8 (fun i => s.fuel.tanks[i].entry.bytes) ∧
     entry 10 16 (fun i => s.fuel.meters[i].entry.bytes) ∧
     (∀ k : NoticeKind, index = k.number →
       s.tableEntry 11 index = some [BitVec.ofNat 8 s.notices.map[k.index].val]) ∧
     (∀ x : Byte, s.tableEntry x index = none ↔
       size [2, 32, 64, 3, 8, 6, 5, 48, 8, 16, 26] x ≤ index.toNat ∨ (x = 11 ∧ index = 0)) ∧
     record 1 1 (fun _ => let h := s.helm
       [h.helm.byte, BitVec.ofNat 8 h.mode.val, indexByte h.remembered, addressByte h.command,
         flagByte h.guardAt.isSome] ++ timer h.guardAt) ∧
     record 2 6 (fun i => let e := s.prop.engines[i]
       [e.state.byte, e.health.byte] ++ bytes2i e.load ++ bytes2i e.target ++ bytes2i e.setpoint ++
         [e.lastSign.byte, e.slew.byte] ++ timer e.stepAt ++ timer e.dwellAt ++ bytes2 e.modeAhead ++
         bytes2 e.modeAstern ++ bytes2 e.healthCeiling ++ bytes2 e.towCeiling ++ bytes2 e.economyCeiling ++
         bytes2 e.tankLowCeiling ++ bytes2 e.compositeAhead ++ bytes2 e.compositeAstern) ∧
     record 3 1 (fun _ => let x := s.prop
       bytes2i x.power ++ [x.diffMode.byte] ++ bytes2i x.fixedDiff ++ bytes2i x.diff ++ bytes2 x.nominal ++
         bytes4i x.demand ++ bytes4 x.unmet ++
         [x.wash.b1.byte, x.wash.b2.byte, flagByte x.zero.b1, flagByte x.zero.b2, flagByte x.zeroAll]) ∧
     record 4 6 (fun i => bytes6i s.fuel.accounts[i].total ++ bytes6i s.fuel.accounts[i].leg) ∧
     record 5 5 (fun i => let a := s.steer.actuators[i]
       [a.state.byte] ++ bytes2i a.ordered ++ bytes2i a.reported ++ timer a.divergeAt) ∧
     record 6 1 (fun _ => let x := s.steer
       bytes2i x.rudder ++ [x.bowMode.byte] ++ bytes2i x.bowDemand ++ [flagByte x.forced]) ∧
     record 7 48 (fun i => let k := s.tow.couplings[i]
       [k.state.byte, phaseByte k.phase, priorByte k.prior] ++ bytes2 k.last ++ bytes2 k.count ++
         timer k.waitAt ++ timer k.sampleAt) ∧
     record 8 1 (fun _ => let x := s.tow
       bytes2 x.computed.b1 ++ bytes2 x.computed.b2 ++ bytes2 x.applied.b1 ++ bytes2 x.applied.b2 ++
         timer x.holdAt.b1 ++ timer x.holdAt.b2 ++ [indexByte x.work]) ∧
     record 9 16 (fun i => let m := s.fuel.meters[i]
       [m.state.byte] ++ bytes4 m.lastTotal ++ bytes4 m.lastArrival ++ bytes2 m.lastRate ++
         bytes6 m.accumulator ++ timer m.silenceAt ++ timer m.tickAt) ∧
     record 10 8 (fun i => let k := s.fuel.tanks[i]
       bytes4 k.base ++ bytes6 k.additions ++ bytes6 k.deductions ++ bytes6 k.shortfall ++ bytes6 k.overflow ++
         bytes4 k.quantity ++ bytes6i k.bunkered ++
         (match k.reading with
           | some n => 1 :: bytes4 n
           | none => [0, 0, 0, 0, 0]) ++
         [flagByte k.low, flagByte k.discrepant]) ∧
     record 11 1 (fun _ => let l := s.fuel.leg
       [flagByte l.active] ++ bytes4 l.budget ++ bytes4 l.reserveMark ++ bytes6i l.consumed ++
         [flagByte l.reserve]) ∧
     record 12 1 (fun _ => let x := s.fuel.statement
       [x.state.byte] ++ bytes2 x.number ++ [addressByte x.destination] ++ bytes2 x.blocks.length ++
         bytes2 x.next ++ timer x.stallAt) ∧
     record 13 32 (fun i => let x := s.nodes[i]
       [x.state.byte] ++ bytes2 x.timeouts ++ timer x.silenceAt ++ timer x.refreshAt ++
         bytes2 x.nextTag.toNat) ∧
     record 14 16 (fun i => let x := s.trans.slots[i]
       [BitVec.ofNat 8 x.target.val, x.kind.byte] ++
         (match x.value with
           | .amount v => 0 :: bytes2i v
           | .release => [1, 0, 0]
           | .heave h => 2 :: bytes2 h) ++
         bytes2 x.tag.toNat ++
         (match x.owner with
           | some (.propulsion i) => [0, BitVec.ofNat 8 i.val]
           | some (.steering i) => [1, BitVec.ofNat 8 i.val]
           | some (.tow i) => [2, BitVec.ofNat 8 i.val]
           | none => [0xFF, 0xFF]) ++
         [conditionByte x.condition, (if x.kind = .winch then 1 else 0), x.state.byte] ++ timer x.ackAt) ∧
     record 15 1 (fun _ => let f := s.fwd
       let carried (n : Option Nat) : Byte := match n with
         | some n => BitVec.ofNat 8 n
         | none => 0xFF
       bytes2 f.reserved.w ++ bytes2 f.reserved.m ++ bytes2 f.reserved.t ++ bytes2 f.pool ++
         [carried f.pendingDecrease.w, carried f.pendingDecrease.m, carried f.pendingDecrease.t] ++
         bytes2 f.queues.w.length ++ bytes2 f.queues.m.length ++ bytes2 f.queues.t.length ++
         bytes2 f.poolInUse ++ bytes2 f.answers.length) ∧
     record 16 1 (fun _ => let x := s.link.ports
       [x.w.line.byte, x.m.line.byte, x.t.line.byte]) ∧
     record 17 8 (fun i => let c := s.notices.channels[i]
       [flagByte s.notices.master, flagByte c.armed, flagByte c.autoDisarm, flagByte c.overflow]) ∧
     ∀ x : Byte, s.record x index = none ↔
       size [1, 6, 1, 6, 5, 1, 48, 1, 16, 8, 1, 1, 32, 16, 1, 1, 8] x ≤ index.toNat) ∧
  ((∀ (s : State) (o : Origin) (x index page : Byte), s.hasRoom →
     let placed (f : Frame) : Outcome := .next ((s.frameEnd .W).withAnswers (s.fwd.answers ++ [f]))
     (∀ l, s.tableEntry x index = some l →
       exec (.tableRead o x index) s = placed (replyFrame s.link.own o 2 0 ([x, index] ++ l))) ∧
     (s.tableEntry x index = none →
       exec (.tableRead o x index) s = placed (replyFrame s.link.own o 2 2 [])) ∧
     (∀ l, s.record x index = some l →
       exec (.stateRead o x index page) s =
         if page.toNat < pageCount l then
           placed (replyFrame s.link.own o 4 0
             ([x, index, page, BitVec.ofNat 8 (pageCount l)] ++ pageOf l page.toNat))
         else placed (replyFrame s.link.own o 4 2 [])) ∧
     (s.record x index = none →
       exec (.stateRead o x index page) s = placed (replyFrame s.link.own o 4 2 []))) ∧
   ∀ l : List Byte, (List.range (pageCount l)).flatMap (fun n => pageOf l n) = l)

/-- R186: IDENTIFY answers with the family code, the part number, the revision and the own address in every state;
SET_ADDRESS is answered CLOSED outside MOORED, RANGE for an address of 0, above 127 or of a station, and otherwise the
own address takes the new value at the take, and the reply carries it as its SRC. R6 check 1, R83, R183: an order of
no known kind, sub-command or length draws UNKNOWN with its KIND, a COUPLE of no known sub-command only from the
station in command; a request of no known form draws UNKNOWN, or RANGE where its table id is none of the eleven; none
of them changes anything but the assembly and the lane. The reply to a TABLE_WRITE too short for an index carries a
free value for it, and the count of free values goes on: the model's choice (log entry 4). -/
def Obligations.IdentityAndUnknownRequests : Prop :=
  (∀ (s : State) (o : Origin) (a : Byte), s.hasRoom →
     let b := s.frameEnd .W
     let placed (u : State) (f : Frame) : Outcome := .next (u.withAnswers (s.fwd.answers ++ [f]))
     exec (.identify o) s = placed b (replyFrame s.link.own o 1 0 [0x53, 0, 240, 1, s.link.own]) ∧
     (s.helm.mode ≠ 0 → exec (.setAddress o a) s = placed b (replyFrame s.link.own o 6 1 [])) ∧
     (s.helm.mode = 0 → (a = 0 ∨ 127 < a.toNat ∨ ∃ i : Fin 2, s.helm.stations[i] = some a) →
       exec (.setAddress o a) s = placed b (replyFrame s.link.own o 6 2 [])) ∧
     (s.helm.mode = 0 → a ≠ 0 → a.toNat ≤ 127 → (∀ i : Fin 2, s.helm.stations[i] ≠ some a) →
       exec (.setAddress o a) s =
         placed { b with link := { b.link with own := a } } (replyFrame a o 6 0 []))) ∧
  (∀ (s : State) (o : Origin) (kind : Byte) (rest : List Byte), s.hasRoom →
     let placed (f : Frame) : Outcome := .next ((s.frameEnd .W).withAnswers (s.fwd.answers ++ [f]))
     exec (.orderUnknown o []) s = placed (answerFrame s.link.own o 0 7) ∧
     (kind ≠ 4 ∨ rest.length ≠ 2 →
       exec (.orderUnknown o (kind :: rest)) s = placed (answerFrame s.link.own o kind 7)) ∧
     (kind = 4 → rest.length = 2 → s.Admits o →
       exec (.orderUnknown o (kind :: rest)) s = placed (answerFrame s.link.own o 4 7)) ∧
     exec (.mgmtUnknown o []) s = placed (replyFrame s.link.own o 0 5 []) ∧
     (kind ≠ 2 → kind ≠ 3 →
       exec (.mgmtUnknown o (kind :: rest)) s = placed (replyFrame s.link.own o kind 5 [])) ∧
     (kind = 2 → rest = [] →
       exec (.mgmtUnknown o (kind :: rest)) s = placed (replyFrame s.link.own o 2 5 [])) ∧
     (kind = 3 → rest = [] →
       ∃ (t : State) (x y : Byte), exec (.mgmtUnknown o (kind :: rest)) s = .next t ∧
         t = { (s.frameEnd .W).withAnswers (s.fwd.answers ++ [replyFrame s.link.own o 3 5 [x, y]]) with
           free := t.free }) ∧
     (∀ table tail, kind = 2 → rest = table :: tail →
       exec (.mgmtUnknown o (kind :: rest)) s =
         placed (replyFrame s.link.own o 2 (if entryBytes table = none then 2 else 5) [])) ∧
     (∀ table index tail, kind = 3 → rest = table :: index :: tail →
       exec (.mgmtUnknown o (kind :: rest)) s =
         placed (replyFrame s.link.own o 3 (if entryBytes table = none then 2 else 5) [table, index])) ∧
     (∀ table, kind = 3 → rest = [table] →
       ∃ (t : State) (x : Byte), exec (.mgmtUnknown o (kind :: rest)) s = .next t ∧
         t = { (s.frameEnd .W).withAnswers (s.fwd.answers ++
           [replyFrame s.link.own o 3 (if entryBytes table = none then 2 else 5) [table, x]]) with
             free := t.free }))

/-- R16, R48, R68, R97, R126, R146, R151, R172, R174, R182, R188: a RESTART while MOORED starts every block again by
its rule, keeps the written tables, the books and the buffers, and its reply is the one frame placed in the emptied
answer lane. The ceiling components are formed under mode 0 with the applied tow ceilings at their computed values,
pending decreases are applied, and a frame being sent from a frame queue stays as the only one of its queue. Outside
MOORED it is answered CLOSED and changes nothing. That a slot freed while its frame is being sent leaves the
transmission running, and that the reply is placed after the lane is emptied, are the model's reading (log entry 16).
That the components of an ABSENT engine are formed with the others is the model's reading (log entry 11). -/
def Obligations.RestartDecided : Prop :=
  ∀ (s : State) (o : Origin), s.hasRoom →
    (s.helm.mode ≠ 0 → exec (.restart o) s =
      .next ((s.frameEnd .W).withAnswers (s.fwd.answers ++ [replyFrame s.link.own o 0x0E 1 []]))) ∧
    (s.helm.mode = 0 → ∃ t, exec (.restart o) s = .next t ∧
      t.now = s.now ∧ t.pending = s.pending ∧ t.free = s.free ∧
      t.helm = { s.helm with
        mode := 0, helm := .normal, remembered := none, command := none, guardAt := none } ∧
      (∀ i : Fin 6, t.prop.engines[i].entry = s.prop.engines[i].entry ∧
        t.prop.engines[i].state = (if s.prop.engines[i].entry.governor = none then .absent else .lost) ∧
        t.prop.engines[i].health = .sound ∧ t.prop.engines[i].load = 0 ∧
        t.prop.engines[i].target = 0 ∧ t.prop.engines[i].setpoint = 0 ∧
        t.prop.engines[i].lastSign = .unset ∧
        t.prop.engines[i].slew = .steady ∧ t.prop.engines[i].stepAt = none ∧
        t.prop.engines[i].dwellAt = none ∧
        (s.prop.engines[i].entry.governor = none →
          t.prop.engines[i].compositeAhead = s.prop.engines[i].compositeAhead ∧
          t.prop.engines[i].compositeAstern = s.prop.engines[i].compositeAstern)) ∧
      t.TargetsFormed ∧ t.NominalFormed ∧ t.WashSound ∧
      t.prop.power = 0 ∧ t.prop.diffMode = .fixed ∧ t.prop.fixedDiff = 0 ∧ t.prop.diff = 0 ∧
      t.prop.demand = 0 ∧ t.prop.unmet = 0 ∧
      (∀ b : Boat, t.prop.wash.get b = .ahead) ∧ (∀ x : BoatSet, t.prop.zeroOf x = true) ∧
      (∀ i : Fin 5, t.steer.actuators[i] = { s.steer.actuators[i] with
        ordered := 0, reported := 0, divergeAt := none
        state := if s.steer.actuators[i].entry.node = none then .absent else .lost }) ∧
      t.steer.rudder = 0 ∧ t.steer.bowMode = .follow ∧ t.steer.bowDemand = 0 ∧ t.ForcedSound ∧
      (∀ c : Fin 48, t.tow.couplings[c] = { s.tow.couplings[c] with
        state := (match s.tow.couplings[c].state with
          | .unused => .unused
          | .released => .released
          | .parted => .parted
          | _ => .silent)
        phase := none, prior := none, count := 0, waitAt := none, sampleAt := none }) ∧
      t.tow.work = none ∧ t.CeilingsFormed ∧ t.tow.applied = t.tow.computed ∧
      (∀ b : Boat, t.tow.holdAt.get b = none) ∧
      t.fuel.tanks = s.fuel.tanks ∧ t.fuel.accounts = s.fuel.accounts ∧ t.fuel.leg = s.fuel.leg ∧
      t.fuel.statement = { s.fuel.statement with state := .idle, stallAt := none } ∧
      (∀ i : Fin 16, let m := s.fuel.meters[i]
        t.fuel.meters[i] =
          if m.state = .counting ∨ m.state = .estimating then
            { m with
              state := .counting, tickAt := none
              silenceAt := match m.entry.node with
                | some n => some (s.now + 100000 * s.nodes[n].entry.silence)
                | none => none }
          else m) ∧
      (∀ n : Fin 32, t.nodes[n] = { s.nodes[n] with
        state := if s.nodes[n].entry.address = none then .unused else .expected
        timeouts := 0, silenceAt := none, refreshAt := none }) ∧
      (∀ i : Fin 16, t.trans.slots[i].state = .free ∧ t.trans.slots[i].ackAt = none) ∧
      (∀ p : PlantPort, t.trans.lane p = []) ∧
      t.link.own = s.link.own ∧
      (∀ p : Port,
        let l := (s.frameEnd .W).link.ports.get p
        (∀ x, l.sending = some x → (∃ i, x.source = .slot i) →
          t.link.ports.get p = { l with sending := some { x with source := .slot none } }) ∧
        ((∀ x, l.sending = some x → ∀ i, x.source ≠ .slot i) → t.link.ports.get p = l)) ∧
      t.fwd.passage = s.fwd.passage ∧ t.fwd.defaults = s.fwd.defaults ∧
      (∀ p : Port, t.fwd.pendingDecrease.get p = none ∧
        t.fwd.reserved.get p = (s.fwd.pendingDecrease.get p).getD (s.fwd.reserved.get p) ∧
        (∀ x, (s.link.ports.get p).sending = some x → x.source = .frameQueue →
          t.fwd.queues.get p = (s.fwd.queues.get p).take 1) ∧
        ((∀ x, (s.link.ports.get p).sending = some x → x.source ≠ .frameQueue) →
          t.fwd.queues.get p = [])) ∧
      (s.fwd.Allocated →
        t.fwd.pool + t.fwd.reserved.w + t.fwd.reserved.m + t.fwd.reserved.t = 48) ∧
      t.fwd.answers = [replyFrame s.link.own o 0x0E 0 []] ∧
      t.notices.list = [] ∧ t.notices.map = s.notices.map ∧ t.notices.master = s.notices.master ∧
      (∀ c : Fin 8, t.notices.channels[c] = { s.notices.channels[c] with overflow := false }))
end

