-- ==== Sys2Proof/Laws/State.lean ====
section
/-! SUPPORT. Laws/State.lean: one lemma per field for each update of the state, so that no later proof unfolds
a record update. -/

namespace Sys2Proof.Machine

variable (s : State)

@[simp] theorem State.reach_now (instant : Nat) : (s.reach instant).now = max s.now instant := rfl
@[simp] theorem State.reach_helm (instant : Nat) : (s.reach instant).helm = s.helm := rfl
@[simp] theorem State.reach_prop (instant : Nat) : (s.reach instant).prop = s.prop := rfl
@[simp] theorem State.reach_steer (instant : Nat) : (s.reach instant).steer = s.steer := rfl
@[simp] theorem State.reach_tow (instant : Nat) : (s.reach instant).tow = s.tow := rfl
@[simp] theorem State.reach_fuel (instant : Nat) : (s.reach instant).fuel = s.fuel := rfl
@[simp] theorem State.reach_nodes (instant : Nat) : (s.reach instant).nodes = s.nodes := rfl
@[simp] theorem State.reach_trans (instant : Nat) : (s.reach instant).trans = s.trans := rfl
@[simp] theorem State.reach_link (instant : Nat) : (s.reach instant).link = s.link := rfl
@[simp] theorem State.reach_fwd (instant : Nat) : (s.reach instant).fwd = s.fwd := rfl
@[simp] theorem State.reach_notices (instant : Nat) : (s.reach instant).notices = s.notices := rfl
@[simp] theorem State.reach_free (instant : Nat) : (s.reach instant).free = s.free := rfl
@[simp] theorem State.reach_pending (instant : Nat) : (s.reach instant).pending = s.pending := rfl

@[simp] theorem State.pushFrame_now (p : Port) (f : Frame) : (s.pushFrame p f).now = s.now := rfl
@[simp] theorem State.pushFrame_helm (p : Port) (f : Frame) : (s.pushFrame p f).helm = s.helm := rfl
@[simp] theorem State.pushFrame_prop (p : Port) (f : Frame) : (s.pushFrame p f).prop = s.prop := rfl
@[simp] theorem State.pushFrame_steer (p : Port) (f : Frame) : (s.pushFrame p f).steer = s.steer := rfl
@[simp] theorem State.pushFrame_tow (p : Port) (f : Frame) : (s.pushFrame p f).tow = s.tow := rfl
@[simp] theorem State.pushFrame_fuel (p : Port) (f : Frame) : (s.pushFrame p f).fuel = s.fuel := rfl
@[simp] theorem State.pushFrame_nodes (p : Port) (f : Frame) : (s.pushFrame p f).nodes = s.nodes := rfl
@[simp] theorem State.pushFrame_trans (p : Port) (f : Frame) : (s.pushFrame p f).trans = s.trans := rfl
@[simp] theorem State.pushFrame_link (p : Port) (f : Frame) : (s.pushFrame p f).link = s.link := rfl
@[simp] theorem State.pushFrame_fwd (p : Port) (f : Frame) :
    (s.pushFrame p f).fwd = { s.fwd with queues := s.fwd.queues.set p (s.fwd.queues.get p ++ [f]) } := rfl
@[simp] theorem State.pushFrame_notices (p : Port) (f : Frame) :
    (s.pushFrame p f).notices = s.notices := rfl
@[simp] theorem State.pushFrame_free (p : Port) (f : Frame) : (s.pushFrame p f).free = s.free := rfl
@[simp] theorem State.pushFrame_pending (p : Port) (f : Frame) :
    (s.pushFrame p f).pending = s.pending := rfl

@[simp] theorem State.placeAnswer_now (f : Frame) : (s.placeAnswer f).now = s.now := rfl
@[simp] theorem State.placeAnswer_helm (f : Frame) : (s.placeAnswer f).helm = s.helm := rfl
@[simp] theorem State.placeAnswer_prop (f : Frame) : (s.placeAnswer f).prop = s.prop := rfl
@[simp] theorem State.placeAnswer_steer (f : Frame) : (s.placeAnswer f).steer = s.steer := rfl
@[simp] theorem State.placeAnswer_tow (f : Frame) : (s.placeAnswer f).tow = s.tow := rfl
@[simp] theorem State.placeAnswer_fuel (f : Frame) : (s.placeAnswer f).fuel = s.fuel := rfl
@[simp] theorem State.placeAnswer_nodes (f : Frame) : (s.placeAnswer f).nodes = s.nodes := rfl
@[simp] theorem State.placeAnswer_trans (f : Frame) : (s.placeAnswer f).trans = s.trans := rfl
@[simp] theorem State.placeAnswer_link (f : Frame) : (s.placeAnswer f).link = s.link := rfl
@[simp] theorem State.placeAnswer_fwd (f : Frame) :
    (s.placeAnswer f).fwd = { s.fwd with answers := s.fwd.answers ++ [f] } := rfl
@[simp] theorem State.placeAnswer_notices (f : Frame) : (s.placeAnswer f).notices = s.notices := rfl
@[simp] theorem State.placeAnswer_free (f : Frame) : (s.placeAnswer f).free = s.free := rfl
@[simp] theorem State.placeAnswer_pending (f : Frame) : (s.placeAnswer f).pending = s.pending := rfl

@[simp] theorem State.append_now (n : Notice) : (s.append n).now = s.now := rfl
@[simp] theorem State.append_helm (n : Notice) : (s.append n).helm = s.helm := rfl
@[simp] theorem State.append_prop (n : Notice) : (s.append n).prop = s.prop := rfl
@[simp] theorem State.append_steer (n : Notice) : (s.append n).steer = s.steer := rfl
@[simp] theorem State.append_tow (n : Notice) : (s.append n).tow = s.tow := rfl
@[simp] theorem State.append_fuel (n : Notice) : (s.append n).fuel = s.fuel := rfl
@[simp] theorem State.append_nodes (n : Notice) : (s.append n).nodes = s.nodes := rfl
@[simp] theorem State.append_trans (n : Notice) : (s.append n).trans = s.trans := rfl
@[simp] theorem State.append_link (n : Notice) : (s.append n).link = s.link := rfl
@[simp] theorem State.append_fwd (n : Notice) : (s.append n).fwd = s.fwd := rfl
@[simp] theorem State.append_notices (n : Notice) :
    (s.append n).notices = { s.notices with list := s.notices.list ++ [n] } := rfl
@[simp] theorem State.append_free (n : Notice) : (s.append n).free = s.free := rfl
@[simp] theorem State.append_pending (n : Notice) : (s.append n).pending = s.pending := rfl

@[simp] theorem State.markOverflow_now (c : Fin 8) : (s.markOverflow c).now = s.now := rfl
@[simp] theorem State.markOverflow_helm (c : Fin 8) : (s.markOverflow c).helm = s.helm := rfl
@[simp] theorem State.markOverflow_prop (c : Fin 8) : (s.markOverflow c).prop = s.prop := rfl
@[simp] theorem State.markOverflow_steer (c : Fin 8) : (s.markOverflow c).steer = s.steer := rfl
@[simp] theorem State.markOverflow_tow (c : Fin 8) : (s.markOverflow c).tow = s.tow := rfl
@[simp] theorem State.markOverflow_fuel (c : Fin 8) : (s.markOverflow c).fuel = s.fuel := rfl
@[simp] theorem State.markOverflow_nodes (c : Fin 8) : (s.markOverflow c).nodes = s.nodes := rfl
@[simp] theorem State.markOverflow_trans (c : Fin 8) : (s.markOverflow c).trans = s.trans := rfl
@[simp] theorem State.markOverflow_link (c : Fin 8) : (s.markOverflow c).link = s.link := rfl
@[simp] theorem State.markOverflow_fwd (c : Fin 8) : (s.markOverflow c).fwd = s.fwd := rfl
@[simp] theorem State.markOverflow_notices (c : Fin 8) :
    (s.markOverflow c).notices =
      { s.notices with channels := modTable s.notices.channels c fun x => { x with overflow := true } } := rfl
@[simp] theorem State.markOverflow_free (c : Fin 8) : (s.markOverflow c).free = s.free := rfl
@[simp] theorem State.markOverflow_pending (c : Fin 8) : (s.markOverflow c).pending = s.pending := rfl

@[simp] theorem State.modSlot_now (i : Fin 16) (f : Slot → Slot) : (s.modSlot i f).now = s.now := rfl
@[simp] theorem State.modSlot_helm (i : Fin 16) (f : Slot → Slot) : (s.modSlot i f).helm = s.helm := rfl
@[simp] theorem State.modSlot_prop (i : Fin 16) (f : Slot → Slot) : (s.modSlot i f).prop = s.prop := rfl
@[simp] theorem State.modSlot_steer (i : Fin 16) (f : Slot → Slot) : (s.modSlot i f).steer = s.steer := rfl
@[simp] theorem State.modSlot_tow (i : Fin 16) (f : Slot → Slot) : (s.modSlot i f).tow = s.tow := rfl
@[simp] theorem State.modSlot_fuel (i : Fin 16) (f : Slot → Slot) : (s.modSlot i f).fuel = s.fuel := rfl
@[simp] theorem State.modSlot_nodes (i : Fin 16) (f : Slot → Slot) : (s.modSlot i f).nodes = s.nodes := rfl
@[simp] theorem State.modSlot_trans (i : Fin 16) (f : Slot → Slot) :
    (s.modSlot i f).trans = { s.trans with slots := modTable s.trans.slots i f } := rfl
@[simp] theorem State.modSlot_link (i : Fin 16) (f : Slot → Slot) : (s.modSlot i f).link = s.link := rfl
@[simp] theorem State.modSlot_fwd (i : Fin 16) (f : Slot → Slot) : (s.modSlot i f).fwd = s.fwd := rfl
@[simp] theorem State.modSlot_notices (i : Fin 16) (f : Slot → Slot) :
    (s.modSlot i f).notices = s.notices := rfl
@[simp] theorem State.modSlot_free (i : Fin 16) (f : Slot → Slot) : (s.modSlot i f).free = s.free := rfl
@[simp] theorem State.modSlot_pending (i : Fin 16) (f : Slot → Slot) :
    (s.modSlot i f).pending = s.pending := rfl

@[simp] theorem State.modNode_now (i : Fin 32) (f : Node → Node) : (s.modNode i f).now = s.now := rfl
@[simp] theorem State.modNode_helm (i : Fin 32) (f : Node → Node) : (s.modNode i f).helm = s.helm := rfl
@[simp] theorem State.modNode_prop (i : Fin 32) (f : Node → Node) : (s.modNode i f).prop = s.prop := rfl
@[simp] theorem State.modNode_steer (i : Fin 32) (f : Node → Node) : (s.modNode i f).steer = s.steer := rfl
@[simp] theorem State.modNode_tow (i : Fin 32) (f : Node → Node) : (s.modNode i f).tow = s.tow := rfl
@[simp] theorem State.modNode_fuel (i : Fin 32) (f : Node → Node) : (s.modNode i f).fuel = s.fuel := rfl
@[simp] theorem State.modNode_nodes (i : Fin 32) (f : Node → Node) :
    (s.modNode i f).nodes = modTable s.nodes i f := rfl
@[simp] theorem State.modNode_trans (i : Fin 32) (f : Node → Node) : (s.modNode i f).trans = s.trans := rfl
@[simp] theorem State.modNode_link (i : Fin 32) (f : Node → Node) : (s.modNode i f).link = s.link := rfl
@[simp] theorem State.modNode_fwd (i : Fin 32) (f : Node → Node) : (s.modNode i f).fwd = s.fwd := rfl
@[simp] theorem State.modNode_notices (i : Fin 32) (f : Node → Node) :
    (s.modNode i f).notices = s.notices := rfl
@[simp] theorem State.modNode_free (i : Fin 32) (f : Node → Node) : (s.modNode i f).free = s.free := rfl
@[simp] theorem State.modNode_pending (i : Fin 32) (f : Node → Node) :
    (s.modNode i f).pending = s.pending := rfl

@[simp] theorem State.leaveLane_now (i : Fin 16) : (s.leaveLane i).now = s.now := rfl
@[simp] theorem State.leaveLane_helm (i : Fin 16) : (s.leaveLane i).helm = s.helm := rfl
@[simp] theorem State.leaveLane_prop (i : Fin 16) : (s.leaveLane i).prop = s.prop := rfl
@[simp] theorem State.leaveLane_steer (i : Fin 16) : (s.leaveLane i).steer = s.steer := rfl
@[simp] theorem State.leaveLane_tow (i : Fin 16) : (s.leaveLane i).tow = s.tow := rfl
@[simp] theorem State.leaveLane_fuel (i : Fin 16) : (s.leaveLane i).fuel = s.fuel := rfl
@[simp] theorem State.leaveLane_nodes (i : Fin 16) : (s.leaveLane i).nodes = s.nodes := rfl
@[simp] theorem State.leaveLane_link (i : Fin 16) : (s.leaveLane i).link = s.link := rfl
@[simp] theorem State.leaveLane_fwd (i : Fin 16) : (s.leaveLane i).fwd = s.fwd := rfl
@[simp] theorem State.leaveLane_notices (i : Fin 16) : (s.leaveLane i).notices = s.notices := rfl
@[simp] theorem State.leaveLane_free (i : Fin 16) : (s.leaveLane i).free = s.free := rfl
@[simp] theorem State.leaveLane_pending (i : Fin 16) : (s.leaveLane i).pending = s.pending := rfl

@[simp] theorem State.modActuator_now (i : Fin 5) (f : Actuator → Actuator) :
    (s.modActuator i f).now = s.now := rfl
@[simp] theorem State.modActuator_helm (i : Fin 5) (f : Actuator → Actuator) :
    (s.modActuator i f).helm = s.helm := rfl
@[simp] theorem State.modActuator_prop (i : Fin 5) (f : Actuator → Actuator) :
    (s.modActuator i f).prop = s.prop := rfl
@[simp] theorem State.modActuator_steer (i : Fin 5) (f : Actuator → Actuator) :
    (s.modActuator i f).steer = { s.steer with actuators := modTable s.steer.actuators i f } := rfl
@[simp] theorem State.modActuator_tow (i : Fin 5) (f : Actuator → Actuator) :
    (s.modActuator i f).tow = s.tow := rfl
@[simp] theorem State.modActuator_fuel (i : Fin 5) (f : Actuator → Actuator) :
    (s.modActuator i f).fuel = s.fuel := rfl
@[simp] theorem State.modActuator_nodes (i : Fin 5) (f : Actuator → Actuator) :
    (s.modActuator i f).nodes = s.nodes := rfl
@[simp] theorem State.modActuator_trans (i : Fin 5) (f : Actuator → Actuator) :
    (s.modActuator i f).trans = s.trans := rfl
@[simp] theorem State.modActuator_link (i : Fin 5) (f : Actuator → Actuator) :
    (s.modActuator i f).link = s.link := rfl
@[simp] theorem State.modActuator_fwd (i : Fin 5) (f : Actuator → Actuator) :
    (s.modActuator i f).fwd = s.fwd := rfl
@[simp] theorem State.modActuator_notices (i : Fin 5) (f : Actuator → Actuator) :
    (s.modActuator i f).notices = s.notices := rfl
@[simp] theorem State.modActuator_free (i : Fin 5) (f : Actuator → Actuator) :
    (s.modActuator i f).free = s.free := rfl
@[simp] theorem State.modActuator_pending (i : Fin 5) (f : Actuator → Actuator) :
    (s.modActuator i f).pending = s.pending := rfl

@[simp] theorem State.modCoupling_now (c : Fin 48) (f : Coupling → Coupling) :
    (s.modCoupling c f).now = s.now := rfl
@[simp] theorem State.modCoupling_helm (c : Fin 48) (f : Coupling → Coupling) :
    (s.modCoupling c f).helm = s.helm := rfl
@[simp] theorem State.modCoupling_prop (c : Fin 48) (f : Coupling → Coupling) :
    (s.modCoupling c f).prop = s.prop := rfl
@[simp] theorem State.modCoupling_steer (c : Fin 48) (f : Coupling → Coupling) :
    (s.modCoupling c f).steer = s.steer := rfl
@[simp] theorem State.modCoupling_tow (c : Fin 48) (f : Coupling → Coupling) :
    (s.modCoupling c f).tow = { s.tow with couplings := modTable s.tow.couplings c f } := rfl
@[simp] theorem State.modCoupling_fuel (c : Fin 48) (f : Coupling → Coupling) :
    (s.modCoupling c f).fuel = s.fuel := rfl
@[simp] theorem State.modCoupling_nodes (c : Fin 48) (f : Coupling → Coupling) :
    (s.modCoupling c f).nodes = s.nodes := rfl
@[simp] theorem State.modCoupling_trans (c : Fin 48) (f : Coupling → Coupling) :
    (s.modCoupling c f).trans = s.trans := rfl
@[simp] theorem State.modCoupling_link (c : Fin 48) (f : Coupling → Coupling) :
    (s.modCoupling c f).link = s.link := rfl
@[simp] theorem State.modCoupling_fwd (c : Fin 48) (f : Coupling → Coupling) :
    (s.modCoupling c f).fwd = s.fwd := rfl
@[simp] theorem State.modCoupling_notices (c : Fin 48) (f : Coupling → Coupling) :
    (s.modCoupling c f).notices = s.notices := rfl
@[simp] theorem State.modCoupling_free (c : Fin 48) (f : Coupling → Coupling) :
    (s.modCoupling c f).free = s.free := rfl
@[simp] theorem State.modCoupling_pending (c : Fin 48) (f : Coupling → Coupling) :
    (s.modCoupling c f).pending = s.pending := rfl

@[simp] theorem State.modEngine_now (i : Fin 6) (f : Engine → Engine) : (s.modEngine i f).now = s.now := rfl
@[simp] theorem State.modEngine_helm (i : Fin 6) (f : Engine → Engine) :
    (s.modEngine i f).helm = s.helm := rfl
@[simp] theorem State.modEngine_prop (i : Fin 6) (f : Engine → Engine) :
    (s.modEngine i f).prop = { s.prop with engines := modTable s.prop.engines i f } := rfl
@[simp] theorem State.modEngine_steer (i : Fin 6) (f : Engine → Engine) :
    (s.modEngine i f).steer = s.steer := rfl
@[simp] theorem State.modEngine_tow (i : Fin 6) (f : Engine → Engine) : (s.modEngine i f).tow = s.tow := rfl
@[simp] theorem State.modEngine_fuel (i : Fin 6) (f : Engine → Engine) :
    (s.modEngine i f).fuel = s.fuel := rfl
@[simp] theorem State.modEngine_nodes (i : Fin 6) (f : Engine → Engine) :
    (s.modEngine i f).nodes = s.nodes := rfl
@[simp] theorem State.modEngine_trans (i : Fin 6) (f : Engine → Engine) :
    (s.modEngine i f).trans = s.trans := rfl
@[simp] theorem State.modEngine_link (i : Fin 6) (f : Engine → Engine) :
    (s.modEngine i f).link = s.link := rfl
@[simp] theorem State.modEngine_fwd (i : Fin 6) (f : Engine → Engine) : (s.modEngine i f).fwd = s.fwd := rfl
@[simp] theorem State.modEngine_notices (i : Fin 6) (f : Engine → Engine) :
    (s.modEngine i f).notices = s.notices := rfl
@[simp] theorem State.modEngine_free (i : Fin 6) (f : Engine → Engine) :
    (s.modEngine i f).free = s.free := rfl
@[simp] theorem State.modEngine_pending (i : Fin 6) (f : Engine → Engine) :
    (s.modEngine i f).pending = s.pending := rfl

@[simp] theorem State.formEngines_now : s.formEngines.now = s.now := rfl
@[simp] theorem State.formEngines_helm : s.formEngines.helm = s.helm := rfl
@[simp] theorem State.formEngines_steer : s.formEngines.steer = s.steer := rfl
@[simp] theorem State.formEngines_tow : s.formEngines.tow = s.tow := rfl
@[simp] theorem State.formEngines_fuel : s.formEngines.fuel = s.fuel := rfl
@[simp] theorem State.formEngines_nodes : s.formEngines.nodes = s.nodes := rfl
@[simp] theorem State.formEngines_trans : s.formEngines.trans = s.trans := rfl
@[simp] theorem State.formEngines_link : s.formEngines.link = s.link := rfl
@[simp] theorem State.formEngines_fwd : s.formEngines.fwd = s.fwd := rfl
@[simp] theorem State.formEngines_notices : s.formEngines.notices = s.notices := rfl
@[simp] theorem State.formEngines_free : s.formEngines.free = s.free := rfl
@[simp] theorem State.formEngines_pending : s.formEngines.pending = s.pending := rfl

@[simp] theorem State.share_now : s.share.now = s.now := rfl
@[simp] theorem State.share_helm : s.share.helm = s.helm := rfl
@[simp] theorem State.share_steer : s.share.steer = s.steer := rfl
@[simp] theorem State.share_tow : s.share.tow = s.tow := rfl
@[simp] theorem State.share_fuel : s.share.fuel = s.fuel := rfl
@[simp] theorem State.share_nodes : s.share.nodes = s.nodes := rfl
@[simp] theorem State.share_trans : s.share.trans = s.trans := rfl
@[simp] theorem State.share_link : s.share.link = s.link := rfl
@[simp] theorem State.share_fwd : s.share.fwd = s.fwd := rfl
@[simp] theorem State.share_notices : s.share.notices = s.notices := rfl
@[simp] theorem State.share_free : s.share.free = s.free := rfl
@[simp] theorem State.share_pending : s.share.pending = s.pending := rfl

@[simp] theorem State.slewEngines_now (old : Table Engine 6) : (s.slewEngines old).now = s.now := rfl
@[simp] theorem State.slewEngines_helm (old : Table Engine 6) : (s.slewEngines old).helm = s.helm := rfl
@[simp] theorem State.slewEngines_steer (old : Table Engine 6) : (s.slewEngines old).steer = s.steer := rfl
@[simp] theorem State.slewEngines_tow (old : Table Engine 6) : (s.slewEngines old).tow = s.tow := rfl
@[simp] theorem State.slewEngines_fuel (old : Table Engine 6) : (s.slewEngines old).fuel = s.fuel := rfl
@[simp] theorem State.slewEngines_nodes (old : Table Engine 6) : (s.slewEngines old).nodes = s.nodes := rfl
@[simp] theorem State.slewEngines_trans (old : Table Engine 6) : (s.slewEngines old).trans = s.trans := rfl
@[simp] theorem State.slewEngines_link (old : Table Engine 6) : (s.slewEngines old).link = s.link := rfl
@[simp] theorem State.slewEngines_fwd (old : Table Engine 6) : (s.slewEngines old).fwd = s.fwd := rfl
@[simp] theorem State.slewEngines_notices (old : Table Engine 6) :
    (s.slewEngines old).notices = s.notices := rfl
@[simp] theorem State.slewEngines_free (old : Table Engine 6) : (s.slewEngines old).free = s.free := rfl
@[simp] theorem State.slewEngines_pending (old : Table Engine 6) :
    (s.slewEngines old).pending = s.pending := rfl

@[simp] theorem State.formNominal_now : s.formNominal.now = s.now := rfl
@[simp] theorem State.formNominal_helm : s.formNominal.helm = s.helm := rfl
@[simp] theorem State.formNominal_prop :
    s.formNominal.prop = { s.prop with nominal := nominalPower s.prop.engines } := rfl
@[simp] theorem State.formNominal_steer : s.formNominal.steer = s.steer := rfl
@[simp] theorem State.formNominal_tow : s.formNominal.tow = s.tow := rfl
@[simp] theorem State.formNominal_fuel : s.formNominal.fuel = s.fuel := rfl
@[simp] theorem State.formNominal_nodes : s.formNominal.nodes = s.nodes := rfl
@[simp] theorem State.formNominal_trans : s.formNominal.trans = s.trans := rfl
@[simp] theorem State.formNominal_link : s.formNominal.link = s.link := rfl
@[simp] theorem State.formNominal_fwd : s.formNominal.fwd = s.fwd := rfl
@[simp] theorem State.formNominal_notices : s.formNominal.notices = s.notices := rfl
@[simp] theorem State.formNominal_free : s.formNominal.free = s.free := rfl
@[simp] theorem State.formNominal_pending : s.formNominal.pending = s.pending := rfl

@[simp] theorem State.setForced_now : s.setForced.now = s.now := rfl
@[simp] theorem State.setForced_helm : s.setForced.helm = s.helm := rfl
@[simp] theorem State.setForced_prop : s.setForced.prop = s.prop := rfl
@[simp] theorem State.setForced_steer : s.setForced.steer = { s.steer with forced := s.forcedHolds } := rfl
@[simp] theorem State.setForced_tow : s.setForced.tow = s.tow := rfl
@[simp] theorem State.setForced_fuel : s.setForced.fuel = s.fuel := rfl
@[simp] theorem State.setForced_nodes : s.setForced.nodes = s.nodes := rfl
@[simp] theorem State.setForced_trans : s.setForced.trans = s.trans := rfl
@[simp] theorem State.setForced_link : s.setForced.link = s.link := rfl
@[simp] theorem State.setForced_fwd : s.setForced.fwd = s.fwd := rfl
@[simp] theorem State.setForced_notices : s.setForced.notices = s.notices := rfl
@[simp] theorem State.setForced_free : s.setForced.free = s.free := rfl
@[simp] theorem State.setForced_pending : s.setForced.pending = s.pending := rfl

@[simp] theorem State.formCeilings_now : s.formCeilings.now = s.now := rfl
@[simp] theorem State.formCeilings_helm : s.formCeilings.helm = s.helm := rfl
@[simp] theorem State.formCeilings_prop : s.formCeilings.prop = s.prop := rfl
@[simp] theorem State.formCeilings_steer : s.formCeilings.steer = s.steer := rfl
@[simp] theorem State.formCeilings_fuel : s.formCeilings.fuel = s.fuel := rfl
@[simp] theorem State.formCeilings_nodes : s.formCeilings.nodes = s.nodes := rfl
@[simp] theorem State.formCeilings_trans : s.formCeilings.trans = s.trans := rfl
@[simp] theorem State.formCeilings_link : s.formCeilings.link = s.link := rfl
@[simp] theorem State.formCeilings_fwd : s.formCeilings.fwd = s.fwd := rfl
@[simp] theorem State.formCeilings_notices : s.formCeilings.notices = s.notices := rfl
@[simp] theorem State.formCeilings_free : s.formCeilings.free = s.free := rfl
@[simp] theorem State.formCeilings_pending : s.formCeilings.pending = s.pending := rfl

@[simp] theorem State.modTank_now (t : Fin 8) (f : Tank → Tank) : (s.modTank t f).now = s.now := rfl
@[simp] theorem State.modTank_helm (t : Fin 8) (f : Tank → Tank) : (s.modTank t f).helm = s.helm := rfl
@[simp] theorem State.modTank_prop (t : Fin 8) (f : Tank → Tank) : (s.modTank t f).prop = s.prop := rfl
@[simp] theorem State.modTank_steer (t : Fin 8) (f : Tank → Tank) : (s.modTank t f).steer = s.steer := rfl
@[simp] theorem State.modTank_tow (t : Fin 8) (f : Tank → Tank) : (s.modTank t f).tow = s.tow := rfl
@[simp] theorem State.modTank_fuel (t : Fin 8) (f : Tank → Tank) :
    (s.modTank t f).fuel = { s.fuel with tanks := modTable s.fuel.tanks t f } := rfl
@[simp] theorem State.modTank_nodes (t : Fin 8) (f : Tank → Tank) : (s.modTank t f).nodes = s.nodes := rfl
@[simp] theorem State.modTank_trans (t : Fin 8) (f : Tank → Tank) : (s.modTank t f).trans = s.trans := rfl
@[simp] theorem State.modTank_link (t : Fin 8) (f : Tank → Tank) : (s.modTank t f).link = s.link := rfl
@[simp] theorem State.modTank_fwd (t : Fin 8) (f : Tank → Tank) : (s.modTank t f).fwd = s.fwd := rfl
@[simp] theorem State.modTank_notices (t : Fin 8) (f : Tank → Tank) :
    (s.modTank t f).notices = s.notices := rfl
@[simp] theorem State.modTank_free (t : Fin 8) (f : Tank → Tank) : (s.modTank t f).free = s.free := rfl
@[simp] theorem State.modTank_pending (t : Fin 8) (f : Tank → Tank) :
    (s.modTank t f).pending = s.pending := rfl

@[simp] theorem State.modMeter_now (i : Fin 16) (f : Meter → Meter) : (s.modMeter i f).now = s.now := rfl
@[simp] theorem State.modMeter_helm (i : Fin 16) (f : Meter → Meter) : (s.modMeter i f).helm = s.helm := rfl
@[simp] theorem State.modMeter_prop (i : Fin 16) (f : Meter → Meter) : (s.modMeter i f).prop = s.prop := rfl
@[simp] theorem State.modMeter_steer (i : Fin 16) (f : Meter → Meter) :
    (s.modMeter i f).steer = s.steer := rfl
@[simp] theorem State.modMeter_tow (i : Fin 16) (f : Meter → Meter) : (s.modMeter i f).tow = s.tow := rfl
@[simp] theorem State.modMeter_fuel (i : Fin 16) (f : Meter → Meter) :
    (s.modMeter i f).fuel = { s.fuel with meters := modTable s.fuel.meters i f } := rfl
@[simp] theorem State.modMeter_nodes (i : Fin 16) (f : Meter → Meter) :
    (s.modMeter i f).nodes = s.nodes := rfl
@[simp] theorem State.modMeter_trans (i : Fin 16) (f : Meter → Meter) :
    (s.modMeter i f).trans = s.trans := rfl
@[simp] theorem State.modMeter_link (i : Fin 16) (f : Meter → Meter) : (s.modMeter i f).link = s.link := rfl
@[simp] theorem State.modMeter_fwd (i : Fin 16) (f : Meter → Meter) : (s.modMeter i f).fwd = s.fwd := rfl
@[simp] theorem State.modMeter_notices (i : Fin 16) (f : Meter → Meter) :
    (s.modMeter i f).notices = s.notices := rfl
@[simp] theorem State.modMeter_free (i : Fin 16) (f : Meter → Meter) : (s.modMeter i f).free = s.free := rfl
@[simp] theorem State.modMeter_pending (i : Fin 16) (f : Meter → Meter) :
    (s.modMeter i f).pending = s.pending := rfl

@[simp] theorem State.modStatement_now (f : Statement → Statement) : (s.modStatement f).now = s.now := rfl
@[simp] theorem State.modStatement_helm (f : Statement → Statement) :
    (s.modStatement f).helm = s.helm := rfl
@[simp] theorem State.modStatement_prop (f : Statement → Statement) :
    (s.modStatement f).prop = s.prop := rfl
@[simp] theorem State.modStatement_steer (f : Statement → Statement) :
    (s.modStatement f).steer = s.steer := rfl
@[simp] theorem State.modStatement_tow (f : Statement → Statement) : (s.modStatement f).tow = s.tow := rfl
@[simp] theorem State.modStatement_fuel (f : Statement → Statement) :
    (s.modStatement f).fuel = { s.fuel with statement := f s.fuel.statement } := rfl
@[simp] theorem State.modStatement_nodes (f : Statement → Statement) :
    (s.modStatement f).nodes = s.nodes := rfl
@[simp] theorem State.modStatement_trans (f : Statement → Statement) :
    (s.modStatement f).trans = s.trans := rfl
@[simp] theorem State.modStatement_link (f : Statement → Statement) :
    (s.modStatement f).link = s.link := rfl
@[simp] theorem State.modStatement_fwd (f : Statement → Statement) : (s.modStatement f).fwd = s.fwd := rfl
@[simp] theorem State.modStatement_notices (f : Statement → Statement) :
    (s.modStatement f).notices = s.notices := rfl
@[simp] theorem State.modStatement_free (f : Statement → Statement) :
    (s.modStatement f).free = s.free := rfl
@[simp] theorem State.modStatement_pending (f : Statement → Statement) :
    (s.modStatement f).pending = s.pending := rfl

@[simp] theorem State.modLine_now (p : Port) (f : Line → Line) : (s.modLine p f).now = s.now := rfl
@[simp] theorem State.modLine_helm (p : Port) (f : Line → Line) : (s.modLine p f).helm = s.helm := rfl
@[simp] theorem State.modLine_prop (p : Port) (f : Line → Line) : (s.modLine p f).prop = s.prop := rfl
@[simp] theorem State.modLine_steer (p : Port) (f : Line → Line) : (s.modLine p f).steer = s.steer := rfl
@[simp] theorem State.modLine_tow (p : Port) (f : Line → Line) : (s.modLine p f).tow = s.tow := rfl
@[simp] theorem State.modLine_fuel (p : Port) (f : Line → Line) : (s.modLine p f).fuel = s.fuel := rfl
@[simp] theorem State.modLine_nodes (p : Port) (f : Line → Line) : (s.modLine p f).nodes = s.nodes := rfl
@[simp] theorem State.modLine_trans (p : Port) (f : Line → Line) : (s.modLine p f).trans = s.trans := rfl
@[simp] theorem State.modLine_link (p : Port) (f : Line → Line) :
    (s.modLine p f).link = { s.link with ports := s.link.ports.set p (f (s.link.ports.get p)) } := rfl
@[simp] theorem State.modLine_fwd (p : Port) (f : Line → Line) : (s.modLine p f).fwd = s.fwd := rfl
@[simp] theorem State.modLine_notices (p : Port) (f : Line → Line) :
    (s.modLine p f).notices = s.notices := rfl
@[simp] theorem State.modLine_free (p : Port) (f : Line → Line) : (s.modLine p f).free = s.free := rfl
@[simp] theorem State.modLine_pending (p : Port) (f : Line → Line) :
    (s.modLine p f).pending = s.pending := rfl

@[simp] theorem State.modHelm_now (f : HelmUnit → HelmUnit) : (s.modHelm f).now = s.now := rfl
@[simp] theorem State.modHelm_helm (f : HelmUnit → HelmUnit) : (s.modHelm f).helm = f s.helm := rfl
@[simp] theorem State.modHelm_prop (f : HelmUnit → HelmUnit) : (s.modHelm f).prop = s.prop := rfl
@[simp] theorem State.modHelm_steer (f : HelmUnit → HelmUnit) : (s.modHelm f).steer = s.steer := rfl
@[simp] theorem State.modHelm_tow (f : HelmUnit → HelmUnit) : (s.modHelm f).tow = s.tow := rfl
@[simp] theorem State.modHelm_fuel (f : HelmUnit → HelmUnit) : (s.modHelm f).fuel = s.fuel := rfl
@[simp] theorem State.modHelm_nodes (f : HelmUnit → HelmUnit) : (s.modHelm f).nodes = s.nodes := rfl
@[simp] theorem State.modHelm_trans (f : HelmUnit → HelmUnit) : (s.modHelm f).trans = s.trans := rfl
@[simp] theorem State.modHelm_link (f : HelmUnit → HelmUnit) : (s.modHelm f).link = s.link := rfl
@[simp] theorem State.modHelm_fwd (f : HelmUnit → HelmUnit) : (s.modHelm f).fwd = s.fwd := rfl
@[simp] theorem State.modHelm_notices (f : HelmUnit → HelmUnit) : (s.modHelm f).notices = s.notices := rfl
@[simp] theorem State.modHelm_free (f : HelmUnit → HelmUnit) : (s.modHelm f).free = s.free := rfl
@[simp] theorem State.modHelm_pending (f : HelmUnit → HelmUnit) : (s.modHelm f).pending = s.pending := rfl

@[simp] theorem State.removeNotices_now (ns : List Notice) : (s.removeNotices ns).now = s.now := rfl
@[simp] theorem State.removeNotices_helm (ns : List Notice) : (s.removeNotices ns).helm = s.helm := rfl
@[simp] theorem State.removeNotices_prop (ns : List Notice) : (s.removeNotices ns).prop = s.prop := rfl
@[simp] theorem State.removeNotices_steer (ns : List Notice) : (s.removeNotices ns).steer = s.steer := rfl
@[simp] theorem State.removeNotices_tow (ns : List Notice) : (s.removeNotices ns).tow = s.tow := rfl
@[simp] theorem State.removeNotices_fuel (ns : List Notice) : (s.removeNotices ns).fuel = s.fuel := rfl
@[simp] theorem State.removeNotices_nodes (ns : List Notice) : (s.removeNotices ns).nodes = s.nodes := rfl
@[simp] theorem State.removeNotices_trans (ns : List Notice) : (s.removeNotices ns).trans = s.trans := rfl
@[simp] theorem State.removeNotices_link (ns : List Notice) : (s.removeNotices ns).link = s.link := rfl
@[simp] theorem State.removeNotices_fwd (ns : List Notice) : (s.removeNotices ns).fwd = s.fwd := rfl
@[simp] theorem State.removeNotices_notices (ns : List Notice) :
    (s.removeNotices ns).notices = { s.notices with list := s.notices.list.filter fun n => n ∉ ns } := rfl
@[simp] theorem State.removeNotices_free (ns : List Notice) : (s.removeNotices ns).free = s.free := rfl
@[simp] theorem State.removeNotices_pending (ns : List Notice) :
    (s.removeNotices ns).pending = s.pending := rfl

@[simp] theorem State.discardQueue_now (p : Port) : (s.discardQueue p).now = s.now := rfl
@[simp] theorem State.discardQueue_helm (p : Port) : (s.discardQueue p).helm = s.helm := rfl
@[simp] theorem State.discardQueue_prop (p : Port) : (s.discardQueue p).prop = s.prop := rfl
@[simp] theorem State.discardQueue_steer (p : Port) : (s.discardQueue p).steer = s.steer := rfl
@[simp] theorem State.discardQueue_tow (p : Port) : (s.discardQueue p).tow = s.tow := rfl
@[simp] theorem State.discardQueue_fuel (p : Port) : (s.discardQueue p).fuel = s.fuel := rfl
@[simp] theorem State.discardQueue_nodes (p : Port) : (s.discardQueue p).nodes = s.nodes := rfl
@[simp] theorem State.discardQueue_trans (p : Port) : (s.discardQueue p).trans = s.trans := rfl
@[simp] theorem State.discardQueue_link (p : Port) : (s.discardQueue p).link = s.link := rfl
@[simp] theorem State.discardQueue_fwd (p : Port) :
    (s.discardQueue p).fwd = { s.fwd with queues := s.fwd.queues.set p [] } := rfl
@[simp] theorem State.discardQueue_notices (p : Port) : (s.discardQueue p).notices = s.notices := rfl
@[simp] theorem State.discardQueue_free (p : Port) : (s.discardQueue p).free = s.free := rfl
@[simp] theorem State.discardQueue_pending (p : Port) : (s.discardQueue p).pending = s.pending := rfl

@[simp] theorem State.setUp_now (c : Fin 8) (master arm autoDisarm : Byte) :
    (s.setUp c master arm autoDisarm).now = s.now := rfl
@[simp] theorem State.setUp_helm (c : Fin 8) (master arm autoDisarm : Byte) :
    (s.setUp c master arm autoDisarm).helm = s.helm := rfl
@[simp] theorem State.setUp_prop (c : Fin 8) (master arm autoDisarm : Byte) :
    (s.setUp c master arm autoDisarm).prop = s.prop := rfl
@[simp] theorem State.setUp_steer (c : Fin 8) (master arm autoDisarm : Byte) :
    (s.setUp c master arm autoDisarm).steer = s.steer := rfl
@[simp] theorem State.setUp_tow (c : Fin 8) (master arm autoDisarm : Byte) :
    (s.setUp c master arm autoDisarm).tow = s.tow := rfl
@[simp] theorem State.setUp_fuel (c : Fin 8) (master arm autoDisarm : Byte) :
    (s.setUp c master arm autoDisarm).fuel = s.fuel := rfl
@[simp] theorem State.setUp_nodes (c : Fin 8) (master arm autoDisarm : Byte) :
    (s.setUp c master arm autoDisarm).nodes = s.nodes := rfl
@[simp] theorem State.setUp_trans (c : Fin 8) (master arm autoDisarm : Byte) :
    (s.setUp c master arm autoDisarm).trans = s.trans := rfl
@[simp] theorem State.setUp_link (c : Fin 8) (master arm autoDisarm : Byte) :
    (s.setUp c master arm autoDisarm).link = s.link := rfl
@[simp] theorem State.setUp_fwd (c : Fin 8) (master arm autoDisarm : Byte) :
    (s.setUp c master arm autoDisarm).fwd = s.fwd := rfl
@[simp] theorem State.setUp_free (c : Fin 8) (master arm autoDisarm : Byte) :
    (s.setUp c master arm autoDisarm).free = s.free := rfl
@[simp] theorem State.setUp_pending (c : Fin 8) (master arm autoDisarm : Byte) :
    (s.setUp c master arm autoDisarm).pending = s.pending := rfl

@[simp] theorem State.clearOverflow_now (c : Fin 8) : (s.clearOverflow c).now = s.now := rfl
@[simp] theorem State.clearOverflow_helm (c : Fin 8) : (s.clearOverflow c).helm = s.helm := rfl
@[simp] theorem State.clearOverflow_prop (c : Fin 8) : (s.clearOverflow c).prop = s.prop := rfl
@[simp] theorem State.clearOverflow_steer (c : Fin 8) : (s.clearOverflow c).steer = s.steer := rfl
@[simp] theorem State.clearOverflow_tow (c : Fin 8) : (s.clearOverflow c).tow = s.tow := rfl
@[simp] theorem State.clearOverflow_fuel (c : Fin 8) : (s.clearOverflow c).fuel = s.fuel := rfl
@[simp] theorem State.clearOverflow_nodes (c : Fin 8) : (s.clearOverflow c).nodes = s.nodes := rfl
@[simp] theorem State.clearOverflow_trans (c : Fin 8) : (s.clearOverflow c).trans = s.trans := rfl
@[simp] theorem State.clearOverflow_link (c : Fin 8) : (s.clearOverflow c).link = s.link := rfl
@[simp] theorem State.clearOverflow_fwd (c : Fin 8) : (s.clearOverflow c).fwd = s.fwd := rfl
@[simp] theorem State.clearOverflow_notices (c : Fin 8) :
    (s.clearOverflow c).notices =
      { s.notices with channels := modTable s.notices.channels c fun x => { x with overflow := false } } := rfl
@[simp] theorem State.clearOverflow_free (c : Fin 8) : (s.clearOverflow c).free = s.free := rfl
@[simp] theorem State.clearOverflow_pending (c : Fin 8) : (s.clearOverflow c).pending = s.pending := rfl

end Sys2Proof.Machine
end

