-- ==== Sys2Proof/Laws/Tables.lean ====
section
/-! SUPPORT. Laws/Tables.lean: reading after writing in tables, and in the values held for each port or boat. -/

namespace Sys2Proof.Machine

theorem mapTable_get {α β : Type} {n : Nat} (f : α → β) (t : Table α n) (i : Fin n) :
    (mapTable f t)[i] = f t[i] := by
  simp [mapTable]

@[simp] theorem mapTable_at {α β : Type} {n : Nat} (f : α → β) (t : Table α n) (k : Nat) (h : k < n) :
    (mapTable f t)[k] = f t[k] := by
  simp [mapTable]

theorem ofTable_get {α : Type} {n : Nat} (f : Fin n → α) (i : Fin n) : (ofTable f)[i] = f i := by
  simp [ofTable]

@[simp] theorem ofTable_at {α : Type} {n : Nat} (f : Fin n → α) (k : Nat) (h : k < n) :
    (ofTable f)[k] = f ⟨k, h⟩ := by
  simp [ofTable]

theorem modTable_get {α : Type} {n : Nat} (t : Table α n) (i j : Fin n) (f : α → α) :
    (modTable t i f)[j] = if i = j then f t[i] else t[j] := by
  simp [modTable, Vector.getElem_set, Fin.ext_iff]

@[simp] theorem modTable_at {α : Type} {n : Nat} (t : Table α n) (i : Fin n) (f : α → α) (k : Nat)
    (h : k < n) : (modTable t i f)[k] = if i.val = k then f t[k] else t[k] := by
  simp only [modTable, Vector.getElem_set]
  split
  · next e => subst e; rfl
  · rfl

theorem modTable_get_same {α : Type} {n : Nat} (t : Table α n) (i : Fin n) (f : α → α) :
    (modTable t i f)[i] = f t[i] := by
  rw [modTable_get, if_pos rfl]

theorem modTable_get_ne {α : Type} {n : Nat} (t : Table α n) {i j : Fin n} (h : i ≠ j) (f : α → α) :
    (modTable t i f)[j] = t[j] := by
  rw [modTable_get, if_neg h]

/-- A field that `f` keeps is kept in every entry of the changed table. -/
theorem modTable_keeps {α β : Type} {n : Nat} (t : Table α n) (i j : Fin n) (f : α → α) (g : α → β)
    (h : ∀ x, g (f x) = g x) : g (modTable t i f)[j] = g t[j] := by
  rw [modTable_get]
  split
  · next e => rw [h, e]
  · rfl

theorem set_get {α : Type} {n : Nat} (t : Table α n) (i j : Fin n) (x : α) :
    (t.set i x)[j] = if i = j then x else t[j] := by
  simp [Vector.getElem_set, Fin.ext_iff]

@[simp] theorem PerPort.get_set_same {α : Type} (v : PerPort α) (p : Port) (x : α) :
    (v.set p x).get p = x := by
  cases p <;> rfl

theorem PerPort.get_set {α : Type} (v : PerPort α) (p q : Port) (x : α) :
    (v.set p x).get q = if p = q then x else v.get q := by
  cases p <;> cases q <;> rfl

@[simp] theorem PerBoat.get_set_same {α : Type} (v : PerBoat α) (b : Boat) (x : α) :
    (v.set b x).get b = x := by
  cases b <;> rfl

theorem PerBoat.get_set {α : Type} (v : PerBoat α) (b c : Boat) (x : α) :
    (v.set b x).get c = if b = c then x else v.get c := by
  cases b <;> cases c <;> rfl

/-- The entry a search finds meets what it was searched by. -/
theorem findTable_meets {α : Type} {n : Nat} {t : Table α n} {p : α → Bool} {i : Fin n}
    (h : findTable t p = some i) : p t[i] = true := by
  simpa using List.find?_some h

/-- A search that finds nothing: no entry meets it. -/
theorem findTable_none {α : Type} {n : Nat} {t : Table α n} {p : α → Bool}
    (h : findTable t p = none) (i : Fin n) : p t[i] = false := by
  have := List.find?_eq_none.mp h i (List.mem_finRange i)
  simpa using this

/-- A search finds an entry where one meets it. -/
theorem findTable_isSome {α : Type} {n : Nat} {t : Table α n} {p : α → Bool} {i : Fin n}
    (h : p t[i] = true) : (findTable t p).isSome = true := by
  cases e : findTable t p with
  | some _ => rfl
  | none => rw [findTable_none e i] at h; cases h

end Sys2Proof.Machine
end

