-- ==== Sys2Proof/Laws/Notices.lean ====
section
/-! SUPPORT. Laws/Notices.lean: what the placing of a frame and the latch of a notice can do. -/

namespace Sys2Proof.Machine

/-! ### Frame buffers -/

/-- A reserved buffer of a port is free. -/
theorem State.reservedFree_iff (s : State) (p : Port) :
    s.reservedFree p = true ↔ (s.fwd.queues.get p).length < s.fwd.reserved.get p := by
  exact decide_eq_true_iff

/-- A queue with one frame more takes a pool buffer where its reservation is full. -/
theorem Forwarding.poolInUse_push (f : Forwarding) (p : Port) (x : Frame) :
    ({ f with queues := f.queues.set p (f.queues.get p ++ [x]) } : Forwarding).poolInUse =
      if (f.queues.get p).length < f.reserved.get p then f.poolInUse else f.poolInUse + 1 := by
  by_cases h : (f.queues.get p).length < f.reserved.get p
  · rw [if_pos h]
    cases p <;> simp [Forwarding.poolInUse, PerPort.set, PerPort.get] at h ⊢ <;> omega
  · rw [if_neg h]
    cases p <;> simp [Forwarding.poolInUse, PerPort.set, PerPort.get] at h ⊢ <;> omega

/-- A frame placed by R169 keeps the allocation. -/
theorem State.placeFrame_allocated {s t : State} {p : Port} {f : Frame} (h : s.placeFrame p f = some t)
    (a : s.fwd.Allocated) : t.fwd.Allocated := by
  unfold State.placeFrame at h
  split at h
  · next c =>
    cases h
    refine ⟨a.total, a.reserved, a.pool, a.decreases, ?_⟩
    have := a.inUse
    rw [State.reservedFree_iff] at c
    rw [State.pushFrame_fwd, Forwarding.poolInUse_push]
    by_cases e : (s.fwd.queues.get p).length < s.fwd.reserved.get p
    · rw [if_pos e]; exact this
    · rw [if_neg e]; exact (c.resolve_left e)
  · cases h

/-- What a placed frame changes: the tail of one queue. -/
theorem State.placeFrame_eq {s t : State} {p : Port} {f : Frame} (h : s.placeFrame p f = some t) :
    t = s.pushFrame p f := by
  unfold State.placeFrame at h
  split at h
  · exact (Option.some.inj h).symm
  · cases h

/-! ### What notices change -/

/-- `t` is `s` but for the notice list, the channel records and the queue of port W, whose lists have only
grown. -/
structure Noted (s t : State) : Prop where
  same : t = { s with
    notices := { s.notices with list := t.notices.list, channels := t.notices.channels }
    fwd := { s.fwd with queues := { s.fwd.queues with w := t.fwd.queues.w } } }
  list : s.notices.list <+: t.notices.list
  queue : s.fwd.queues.w <+: t.fwd.queues.w
  allocated : s.fwd.Allocated → t.fwd.Allocated
  fits : s.notices.Fits → t.notices.Fits

theorem Noted.refl (s : State) : Noted s s :=
  ⟨rfl, List.prefix_rfl, List.prefix_rfl, id, id⟩

theorem Noted.trans {s t u : State} (h : Noted s t) (k : Noted t u) : Noted s u := by
  refine ⟨?_, h.list.trans k.list, h.queue.trans k.queue, k.allocated ∘ h.allocated, k.fits ∘ h.fits⟩
  have a := h.same
  have b := k.same
  rw [a] at b
  exact b

/-- A pair that is not in a list with room, appended. -/
theorem State.append_noted {s : State} {n : Notice} (h : n ∉ s.notices.list)
    (r : s.notices.list.length < 32) : Noted s (s.append n) := by
  refine ⟨rfl, List.prefix_append _ _, List.prefix_rfl, id, fun f => ⟨?_, ?_⟩⟩
  · simp only [State.append_notices, List.length_append, List.length_cons, List.length_nil]; omega
  · simp only [State.append_notices]
    exact List.Nodup.append f.2 (List.nodup_singleton n) (by simpa using h)

theorem State.markOverflow_noted (s : State) (c : Fin 8) : Noted s (s.markOverflow c) :=
  ⟨rfl, List.prefix_rfl, List.prefix_rfl, id, id⟩

theorem State.pushFrame_noted {s t : State} {f : Frame} (h : s.placeFrame .W f = some t) : Noted s t := by
  have e := State.placeFrame_eq h
  refine ⟨?_, ?_, ?_, State.placeFrame_allocated h, ?_⟩
  · subst e; rfl
  · subst e; exact List.prefix_rfl
  · subst e; exact List.prefix_append _ _
  · subst e; exact id

theorem State.report_noted (s : State) (c : Fin 8) : Noted s (s.report c).1 := by
  have h : Noted s { s with notices :=
      { s.notices with channels := modTable s.notices.channels c Channel.afterReport } } :=
    ⟨rfl, List.prefix_rfl, List.prefix_rfl, id, id⟩
  unfold State.report
  dsimp only
  split
  · next e => exact h.trans (State.pushFrame_noted e)
  · exact h

theorem State.reportLost_noted (s : State) : Noted s s.reportLost := by
  unfold State.reportLost
  dsimp only
  split
  · exact Noted.refl s
  · next h =>
    split
    · next r =>
      split
      · exact (State.append_noted h r).trans (State.report_noted _ _)
      · exact State.append_noted h r
    · exact State.markOverflow_noted s _

/-- The FORWARD_LOST after work that may have lost a REPORT (R179). -/
theorem lossNoted_noted (r : State × Bool) : Noted r.1 (lossNoted r) := by
  unfold lossNoted
  split
  · exact State.reportLost_noted _
  · exact Noted.refl _

theorem State.buildReport_noted (s : State) (c : Fin 8) : Noted s (s.buildReport c) :=
  (State.report_noted s c).trans (lossNoted_noted _)

/-- All that the record of a notice can do (R175). -/
theorem State.note_noted (s : State) (k : NoticeKind) (x : Byte) : Noted s (s.note k x).1 := by
  unfold State.note
  dsimp only
  split
  · exact Noted.refl s
  · next h =>
    split
    · next r =>
      split
      · exact (State.append_noted h r).trans (State.report_noted _ _)
      · exact State.append_noted h r
    · split
      · exact (State.markOverflow_noted s _).trans (State.report_noted _ _)
      · exact State.markOverflow_noted s _

/-- All that a latch can do (R175, R179). -/
theorem State.latch_noted (s : State) (k : NoticeKind) (x : Byte) : Noted s (s.latch k x) :=
  (s.note_noted k x).trans (lossNoted_noted _)

/-- The build of a REPORT leaves the list of notices as it is. -/
theorem State.report_list (s : State) (c : Fin 8) : (s.report c).1.notices.list = s.notices.list := by
  unfold State.report
  dsimp only
  split
  · next e => rw [State.placeFrame_eq e]; rfl
  · rfl

/-- A notice recorded: in the list already, appended to a list with room, or not in a full list (R175). -/
theorem State.note_list (s : State) (k : NoticeKind) (x : Byte) :
    (s.note k x).1.notices.list =
      if ({ kind := k, subject := x } : Notice) ∈ s.notices.list ∨ 32 ≤ s.notices.list.length then
        s.notices.list
      else s.notices.list ++ [{ kind := k, subject := x }] := by
  unfold State.note
  dsimp only
  split
  · next h => simp [h]
  · next h =>
    split
    · next r =>
      have n : ¬ 32 ≤ s.notices.list.length := by omega
      simp only [h, n, or_self, if_false]
      split
      · exact State.report_list _ _
      · rfl
    · next r =>
      have n : 32 ≤ s.notices.list.length := by omega
      simp only [n, or_true, if_true]
      split
      · exact State.report_list _ _
      · rfl

/-- A pair latched is in the list, unless the list was full (R175). -/
theorem State.mem_latch (s : State) (k : NoticeKind) (x : Byte) (h : s.notices.list.length < 32) :
    ({ kind := k, subject := x } : Notice) ∈ (s.latch k x).notices.list := by
  refine (lossNoted_noted (s.note k x)).list.subset ?_
  rw [State.note_list]
  split
  · next e => exact e.resolve_right (by omega)
  · simp

/-- A latch of a pair that is in the list changes nothing (R175). -/
theorem State.latch_present {s : State} {k : NoticeKind} {x : Byte}
    (h : ({ kind := k, subject := x } : Notice) ∈ s.notices.list) : s.latch k x = s := by
  unfold State.latch State.note
  simp only [if_pos h]
  rfl

end Sys2Proof.Machine
end

