-- ==== Sys2Proof/Laws/Slots.lean ====
section
/-! SUPPORT. Laws/Slots.lean: what the operations of the order transaction unit can do (R135 to R139). -/

namespace Sys2Proof.Machine

/-! ### Slots seen one at a time -/

theorem State.modSlot_slot (s : State) (i j : Fin 16) (f : Slot → Slot) :
    (s.modSlot i f).trans.slots[j] = if i = j then f s.trans.slots[j] else s.trans.slots[j] := by
  rw [State.modSlot_trans]
  show (modTable s.trans.slots i f)[j] = _
  rw [modTable_get]
  split
  · next h => rw [h]
  · rfl

@[simp] theorem State.modSlot_lane (s : State) (i : Fin 16) (f : Slot → Slot) (p : PlantPort) :
    (s.modSlot i f).trans.lane p = s.trans.lane p := by
  cases p <;> rfl

@[simp] theorem State.leaveLane_slots (s : State) (i : Fin 16) :
    (s.leaveLane i).trans.slots = s.trans.slots := rfl

@[simp] theorem State.leaveLane_lane (s : State) (i : Fin 16) (p : PlantPort) :
    (s.leaveLane i).trans.lane p = (s.trans.lane p).filter (· ≠ i) := by
  cases p <;> rfl

@[simp] theorem State.joinLane_slots (s : State) (p : PlantPort) (i : Fin 16) :
    (s.joinLane p i).trans.slots = s.trans.slots := by
  cases p <;> rfl

@[simp] theorem State.joinLane_nodes (s : State) (p : PlantPort) (i : Fin 16) :
    (s.joinLane p i).nodes = s.nodes := by
  cases p <;> rfl

theorem State.joinLane_lane (s : State) (p q : PlantPort) (i : Fin 16) :
    (s.joinLane p i).trans.lane q = if p = q then s.trans.lane q ++ [i] else s.trans.lane q := by
  cases p <;> cases q <;> rfl

theorem State.modNode_node (s : State) (n m : Fin 32) (f : Node → Node) :
    (s.modNode n f).nodes[m] = if n = m then f s.nodes[m] else s.nodes[m] := by
  rw [State.modNode_nodes, modTable_get]
  split
  · next h => rw [h]
  · rfl

theorem Slot.isWaiting_iff (x : Slot) :
    x.isWaiting = true ↔ x.state = .held ∨ x.state = .waiting ∨ x.state = .queued :=
  decide_eq_true_iff

theorem Slot.inFlight_iff (x : Slot) : x.inFlight = true ↔ x.state = .sending ∨ x.state = .awaiting :=
  decide_eq_true_iff

/-- A node has no order in flight. -/
def State.idle? (s : State) (n : Fin 32) : Prop :=
  ∀ j : Fin 16, s.trans.slots[j].inFlight = true → s.trans.slots[j].target ≠ n

theorem State.idle_of_flightSlot {s : State} {n : Fin 32} (h : (s.flightSlot n).isSome = false) :
    s.idle? n := by
  intro j a b
  have e : s.flightSlot n = none := by simpa using h
  have := findTable_none e j
  simp [-Fin.getElem_fin, a, b] at this

theorem State.waitingSlot_meets {s : State} {n : Fin 32} {i : Fin 16} (h : s.waitingSlot n = some i) :
    s.trans.slots[i].isWaiting = true ∧ s.trans.slots[i].target = n := by
  have := findTable_meets h
  simpa using this

theorem State.waitingSlot_none {s : State} {n : Fin 32} (h : s.waitingSlot n = none) (i : Fin 16)
    (w : s.trans.slots[i].isWaiting = true) : s.trans.slots[i].target ≠ n := by
  intro e
  have := findTable_none h i
  simp [-Fin.getElem_fin, w, e] at this

theorem State.freeSlot_meets {s : State} {i : Fin 16} (h : s.freeSlot = some i) :
    s.trans.slots[i].state = .free := by
  have := findTable_meets h
  simpa using this

theorem State.flightSlot_meets {s : State} {n : Fin 32} {i : Fin 16} (h : s.flightSlot n = some i) :
    s.trans.slots[i].inFlight = true ∧ s.trans.slots[i].target = n := by
  have := findTable_meets h
  simpa using this

/-! ### What slot operations change -/

/-- `t` is `s` but for the slots, the lanes and the next TAGs; R135 and R139 hold on, and no node gets an
order in flight. -/
structure Slotted (s t : State) : Prop where
  same : t = { s with trans := t.trans, nodes := t.nodes }
  nodes : ∀ n : Fin 32, { t.nodes[n] with nextTag := s.nodes[n].nextTag } = s.nodes[n]
  sound : s.SlotsSound → t.SlotsSound
  idle : ∀ n : Fin 32, s.idle? n → t.idle? n

theorem Slotted.refl (s : State) : Slotted s s :=
  ⟨rfl, fun _ => rfl, id, fun _ => id⟩

theorem Slotted.trans {s t u : State} (h : Slotted s t) (k : Slotted t u) : Slotted s u := by
  refine ⟨?_, ?_, k.sound ∘ h.sound, fun n => k.idle n ∘ h.idle n⟩
  · have a := h.same
    have b := k.same
    rw [a] at b
    exact b
  · intro n
    have a := h.nodes n
    have b := k.nodes n
    rw [← a, ← b]

/-- The slots hold on through a change of one slot that keeps its state, target and ack timer. -/
theorem State.SlotsSound.congr {s t : State} (h : s.SlotsSound)
    (k : ∀ i : Fin 16, t.trans.slots[i].state = s.trans.slots[i].state ∧
      t.trans.slots[i].target = s.trans.slots[i].target ∧
      t.trans.slots[i].ackAt = s.trans.slots[i].ackAt)
    (l : ∀ p, t.trans.lane p = s.trans.lane p)
    (n : ∀ m : Fin 32, t.plantPort m = s.plantPort m) : t.SlotsSound := by
  have f : ∀ i : Fin 16, t.trans.slots[i].inFlight = s.trans.slots[i].inFlight := by
    intro i; simp only [Slot.inFlight, (k i).1]
  have w : ∀ i : Fin 16, t.trans.slots[i].isWaiting = s.trans.slots[i].isWaiting := by
    intro i; simp only [Slot.isWaiting, (k i).1]
  refine ⟨?_, ?_, ?_, ?_, ?_, ?_⟩
  · intro i j; rw [f, f, (k i).2.1, (k j).2.1]; exact h.oneFlight i j
  · intro i j; rw [w, w, (k i).2.1, (k j).2.1]; exact h.oneWaiting i j
  · intro i j; rw [f, (k i).1, (k i).2.1, (k j).2.1]; exact h.queuedIdle i j
  · intro p i
    rw [l, (k i).1, (k i).2.1, n]; exact h.lanes p i
  · intro p; rw [l]; exact h.once p
  · intro i; rw [(k i).2.2, (k i).1]; exact h.timed i

theorem State.idle_congr {s t : State} {n : Fin 32} (h : s.idle? n)
    (k : ∀ i : Fin 16, t.trans.slots[i].state = s.trans.slots[i].state ∧
      t.trans.slots[i].target = s.trans.slots[i].target) : t.idle? n := by
  intro j a
  rw [(k j).2]
  apply h j
  simpa only [Slot.inFlight, (k j).1] using a

/-- A slot that is counted as waiting has no ack timer running. -/
theorem State.SlotsSound.untimed {s : State} (h : s.SlotsSound) {i : Fin 16}
    (w : s.trans.slots[i].isWaiting = true) : s.trans.slots[i].ackAt.isSome = false := by
  cases e : s.trans.slots[i].ackAt.isSome with
  | false => rfl
  | true =>
    rw [Slot.isWaiting_iff, h.timed i e] at w
    rcases w with w | w | w <;> cases w

/-- A slot that leaves its lane and becomes FREE or HELD. -/
theorem State.leave_slotted (s : State) (i : Fin 16) (f : Slot → Slot)
    (t : ∀ x, (f x).target = x.target)
    (u : (f s.trans.slots[i]).state = .free ∨
      ((f s.trans.slots[i]).state = .held ∧ s.trans.slots[i].isWaiting = true))
    (v : (f s.trans.slots[i]).ackAt.isSome = true →
      s.trans.slots[i].ackAt.isSome = true ∧ s.trans.slots[i].isWaiting = true) :
    Slotted s ((s.modSlot i f).leaveLane i) := by
  have g : ∀ j : Fin 16, ((s.modSlot i f).leaveLane i).trans.slots[j] =
      if i = j then f s.trans.slots[j] else s.trans.slots[j] := fun j => State.modSlot_slot s i j f
  have fl : ∀ j : Fin 16, ((s.modSlot i f).leaveLane i).trans.slots[j].inFlight = true →
      i ≠ j ∧ s.trans.slots[j].inFlight = true := by
    intro j a
    rw [g] at a
    split at a
    · next e => subst e; rcases u with u | u <;> simp [-Fin.getElem_fin, Slot.inFlight, u] at a
    · next e => exact ⟨e, a⟩
  have wt : ∀ j : Fin 16, ((s.modSlot i f).leaveLane i).trans.slots[j].isWaiting = true →
      s.trans.slots[j].isWaiting = true := by
    intro j a
    rw [g] at a
    split at a
    · next e =>
      subst e
      rcases u with u | u
      · simp [-Fin.getElem_fin, Slot.isWaiting, u] at a
      · exact u.2
    · exact a
  have tg : ∀ j : Fin 16, ((s.modSlot i f).leaveLane i).trans.slots[j].target =
      s.trans.slots[j].target := by
    intro j; rw [g]; split
    · exact t _
    · rfl
  have qd : ∀ j : Fin 16, ((s.modSlot i f).leaveLane i).trans.slots[j].state = .queued ↔
      i ≠ j ∧ s.trans.slots[j].state = .queued := by
    intro j; rw [g]; split
    · next e => subst e; rcases u with u | u <;> simp [-Fin.getElem_fin, u]
    · next e => simp [-Fin.getElem_fin, e]
  refine ⟨rfl, fun _ => rfl, fun h => ⟨?_, ?_, ?_, ?_, ?_, ?_⟩, ?_⟩
  · intro a b x y e; rw [tg, tg] at e; exact h.oneFlight a b (fl a x).2 (fl b y).2 e
  · intro a b x y e; rw [tg, tg] at e; exact h.oneWaiting a b (wt a x) (wt b y) e
  · intro a b x y; rw [tg, tg]; exact h.queuedIdle a b ((qd a).1 x).2 (fl b y).2
  · intro p a
    rw [State.leaveLane_lane, State.modSlot_lane, List.mem_filter, qd, tg, h.lanes p a]
    simp only [decide_eq_true_eq]
    constructor
    · rintro ⟨⟨x, y⟩, z⟩; exact ⟨⟨fun e => z e.symm, x⟩, y⟩
    · rintro ⟨⟨z, x⟩, y⟩; exact ⟨⟨x, y⟩, fun e => z e.symm⟩
  · intro p
    rw [State.leaveLane_lane, State.modSlot_lane]
    exact (h.once p).filter _
  · intro a x
    rw [g] at x ⊢
    split at x
    · next e =>
      subst e
      have y := v x
      rw [h.untimed y.2] at y; cases y.1
    · next e => rw [if_neg e]; exact h.timed a x
  · intro n h j a
    rw [tg]
    exact h j (fl j a).2

/-- The end of a slot. -/
theorem State.endSlot_slotted (s : State) (i : Fin 16) : Slotted s (s.endSlot i) :=
  State.leave_slotted s i _ (fun _ => rfl) (.inl rfl) fun a => by cases a

/-- The request `withdraw` (R138). -/
theorem State.withdrawSlot_slotted (s : State) (i : Fin 16) : Slotted s (s.withdrawSlot i) := by
  unfold State.withdrawSlot
  split
  · exact s.endSlot_slotted i
  · exact Slotted.refl s

/-- The request `hold` (R138). -/
theorem State.holdSlot_slotted (s : State) (i : Fin 16) : Slotted s (s.holdSlot i) := by
  unfold State.holdSlot
  split
  · next h =>
    have w : s.trans.slots[i].isWaiting = true := by
      rcases h with h | h <;> simp [-Fin.getElem_fin, Slot.isWaiting, h]
    exact State.leave_slotted s i _ (fun _ => rfl) (.inr ⟨rfl, w⟩) fun a => ⟨a, w⟩
  · exact Slotted.refl s

/-- A waiting slot that becomes WAITING. -/
theorem State.waitSlot_slotted (s : State) (i : Fin 16) (w : s.trans.slots[i].state = .held) :
    Slotted s (s.modSlot i fun x => { x with state := .waiting }) := by
  have g := fun j => State.modSlot_slot s i j fun x => { x with state := .waiting }
  have fl : ∀ j : Fin 16, (s.modSlot i fun x => { x with state := .waiting }).trans.slots[j].inFlight =
      s.trans.slots[j].inFlight := by
    intro j; rw [g]; split
    · next e => subst e; simp [-Fin.getElem_fin, Slot.inFlight, w]
    · rfl
  have wt : ∀ j : Fin 16, (s.modSlot i fun x => { x with state := .waiting }).trans.slots[j].isWaiting =
      s.trans.slots[j].isWaiting := by
    intro j; rw [g]; split
    · next e => subst e; simp [-Fin.getElem_fin, Slot.isWaiting, w]
    · rfl
  have tg : ∀ j : Fin 16, (s.modSlot i fun x => { x with state := .waiting }).trans.slots[j].target =
      s.trans.slots[j].target := by
    intro j; rw [g]; split <;> rfl
  have qd : ∀ j : Fin 16, (s.modSlot i fun x => { x with state := .waiting }).trans.slots[j].state =
      .queued ↔ s.trans.slots[j].state = .queued := by
    intro j; rw [g]; split
    · next e => subst e; simp [-Fin.getElem_fin, w]
    · rfl
  refine ⟨rfl, fun _ => rfl, fun h => ⟨?_, ?_, ?_, ?_, ?_, ?_⟩, ?_⟩
  · intro a b; rw [fl, fl, tg, tg]; exact h.oneFlight a b
  · intro a b; rw [wt, wt, tg, tg]; exact h.oneWaiting a b
  · intro a b; rw [qd, fl, tg, tg]; exact h.queuedIdle a b
  · intro p a; rw [State.modSlot_lane, qd, tg]; exact h.lanes p a
  · intro p; rw [State.modSlot_lane]; exact h.once p
  · intro a x
    rw [g] at x ⊢
    split at x
    · next e =>
      subst e
      have y := h.timed i x
      rw [w] at y; cases y
    · next e => rw [if_neg e]; exact h.timed a x
  · intro n h j; rw [fl, tg]; exact h j

/-- A waiting slot, not QUEUED, of a node with nothing in flight becomes QUEUED (R139). -/
theorem State.queueSlot_slotted (s : State) (i : Fin 16) (w : s.trans.slots[i].isWaiting = true)
    (q : s.trans.slots[i].state ≠ .queued) (d : s.idle? s.trans.slots[i].target) :
    Slotted s (s.queueSlot i) := by
  have g : ∀ j : Fin 16, (s.queueSlot i).trans.slots[j] =
      if i = j then { s.trans.slots[j] with state := .queued } else s.trans.slots[j] := by
    intro j; unfold State.queueSlot; rw [State.joinLane_slots]; exact State.modSlot_slot s i j _
  have fl : ∀ j : Fin 16, (s.queueSlot i).trans.slots[j].inFlight = s.trans.slots[j].inFlight := by
    intro j; rw [g]; split
    · next e =>
      subst e
      rw [Slot.isWaiting_iff] at w
      rcases w with w | w | w <;> simp [-Fin.getElem_fin, Slot.inFlight, w]
    · rfl
  have wt : ∀ j : Fin 16, (s.queueSlot i).trans.slots[j].isWaiting = s.trans.slots[j].isWaiting := by
    intro j; rw [g]; split
    · next e => subst e; rw [w]; rfl
    · rfl
  have tg : ∀ j : Fin 16, (s.queueSlot i).trans.slots[j].target = s.trans.slots[j].target := by
    intro j; rw [g]; split <;> rfl
  have qd : ∀ j : Fin 16, (s.queueSlot i).trans.slots[j].state = .queued ↔
      i = j ∨ s.trans.slots[j].state = .queued := by
    intro j; rw [g]; split
    · next e => simp [-Fin.getElem_fin, e]
    · next e => simp [-Fin.getElem_fin, e]
  have ln : ∀ p, (s.queueSlot i).trans.lane p =
      if s.plantPort s.trans.slots[i].target = p then s.trans.lane p ++ [i]
      else s.trans.lane p := by
    intro p; unfold State.queueSlot; rw [State.joinLane_lane, State.modSlot_lane]; rfl
  have nd : (s.queueSlot i).nodes = s.nodes := by
    unfold State.queueSlot; rw [State.joinLane_nodes]; rfl
  refine ⟨?_, ?_, fun h => ⟨?_, ?_, ?_, ?_, ?_, ?_⟩, ?_⟩
  · unfold State.queueSlot
    cases s.nodes[s.trans.slots[i].target].entry.port <;> rfl
  · intro n; rw [nd]
  · intro a b; rw [fl, fl, tg, tg]; exact h.oneFlight a b
  · intro a b; rw [wt, wt, tg, tg]; exact h.oneWaiting a b
  · intro a b x y
    rw [fl] at y; rw [tg, tg]
    rcases (qd a).1 x with e | e
    · subst e; exact fun z => d b y z.symm
    · exact h.queuedIdle a b e y
  · intro p a
    rw [ln, qd, tg, show (s.queueSlot i).plantPort = s.plantPort by unfold State.plantPort; rw [nd]]
    split
    · next e =>
      rw [List.mem_append, h.lanes p a, List.mem_singleton]
      constructor
      · rintro (⟨x, y⟩ | rfl)
        · exact ⟨.inr x, y⟩
        · exact ⟨.inl rfl, e⟩
      · rintro ⟨rfl | x, y⟩
        · exact .inr rfl
        · exact .inl ⟨x, y⟩
    · next e =>
      rw [h.lanes p a]
      constructor
      · rintro ⟨x, y⟩; exact ⟨.inr x, y⟩
      · rintro ⟨rfl | x, y⟩
        · exact absurd y e
        · exact ⟨x, y⟩
  · intro p
    rw [ln]
    split
    · refine List.Nodup.append (h.once p) (List.nodup_singleton i) ?_
      rw [List.disjoint_singleton]
      intro m
      exact q ((h.lanes p i).1 m).1
    · exact h.once p
  · intro a x
    rw [g] at x ⊢
    split at x
    · next e =>
      subst e
      rw [h.untimed w] at x; cases x
    · next e => rw [if_neg e]; exact h.timed a x
  · intro n h j; rw [fl, tg]; exact h j

/-- The request `release` (R138). -/
theorem State.releaseSlot_slotted (s : State) (i : Fin 16) : Slotted s (s.releaseSlot i) := by
  unfold State.releaseSlot
  split
  · next h =>
    split
    · exact s.waitSlot_slotted i h
    · next e =>
      refine s.queueSlot_slotted i (by simp [-Fin.getElem_fin, Slot.isWaiting, h]) (by simp [-Fin.getElem_fin, h]) ?_
      exact State.idle_of_flightSlot (by simpa using e)
  · exact Slotted.refl s

/-- The TAG taken at a placement (R136). -/
theorem State.useTag_slotted (s : State) (n : Fin 32) : Slotted s (s.useTag n) := by
  have e : ∀ m : Fin 32, { (s.useTag n).nodes[m] with nextTag := s.nodes[m].nextTag } = s.nodes[m] := by
    intro m
    have := State.modNode_node s n m fun x => { x with nextTag := x.nextTag + 1 }
    unfold State.useTag
    rw [this]
    split <;> rfl
  refine ⟨rfl, e, fun h => ?_, fun m h => ?_⟩
  · exact h.congr (fun _ => ⟨rfl, rfl, rfl⟩) (fun _ => rfl) fun m => by
      have := congrArg (fun x => x.entry.port) (e m); exact this
  · exact h

/-- A supersede (R137). -/
theorem State.supersede_slotted (s : State) (i : Fin 16) (n : Fin 32) (v : OrderValue) (o : Owner) :
    Slotted s (s.supersede i n v o) := by
  refine Slotted.trans ?_ (State.useTag_slotted _ n)
  have k : ∀ j : Fin 16, (s.modSlot i fun x =>
      { x with value := v, owner := some o, tag := s.nodes[n].nextTag }).trans.slots[j].state =
        s.trans.slots[j].state ∧ (s.modSlot i fun x =>
      { x with value := v, owner := some o, tag := s.nodes[n].nextTag }).trans.slots[j].target =
        s.trans.slots[j].target ∧ (s.modSlot i fun x =>
      { x with value := v, owner := some o, tag := s.nodes[n].nextTag }).trans.slots[j].ackAt =
        s.trans.slots[j].ackAt := by
    intro j; rw [State.modSlot_slot]; split <;> exact ⟨rfl, rfl, rfl⟩
  exact ⟨rfl, fun _ => rfl, fun h => h.congr k (fun p => State.modSlot_lane _ _ _ p) fun _ => rfl,
    fun m h => State.idle_congr h fun i => ⟨(k i).1, (k i).2.1⟩⟩

/-- A FREE slot that becomes HELD or WAITING for a node with no waiting slot. -/
theorem State.fill_slotted (s : State) (i : Fin 16) (y : Slot) (e : s.trans.slots[i].state = .free)
    (w : y.state = .held ∨ y.state = .waiting) (v : y.ackAt = none)
    (n : ∀ j : Fin 16, s.trans.slots[j].isWaiting = true → s.trans.slots[j].target ≠ y.target) :
    Slotted s (s.modSlot i fun _ => y) := by
  have g := fun j => State.modSlot_slot s i j fun _ => y
  have fl : ∀ j : Fin 16, (s.modSlot i fun _ => y).trans.slots[j].inFlight = true →
      i ≠ j ∧ s.trans.slots[j].inFlight = true := by
    intro j a; rw [g] at a; split at a
    · rcases w with w | w <;> simp [-Fin.getElem_fin, Slot.inFlight, w] at a
    · next h => exact ⟨h, a⟩
  have wt : ∀ j : Fin 16, (s.modSlot i fun _ => y).trans.slots[j].isWaiting = true →
      i = j ∨ (i ≠ j ∧ s.trans.slots[j].isWaiting = true) := by
    intro j a; rw [g] at a; split at a
    · next h => exact .inl h
    · next h => exact .inr ⟨h, a⟩
  have tg : ∀ j : Fin 16, (s.modSlot i fun _ => y).trans.slots[j].target =
      if i = j then y.target else s.trans.slots[j].target := by
    intro j; rw [g]; split <;> rfl
  have qd : ∀ j : Fin 16, (s.modSlot i fun _ => y).trans.slots[j].state = .queued ↔
      i ≠ j ∧ s.trans.slots[j].state = .queued := by
    intro j; rw [g]; split
    · next h => rcases w with w | w <;> simp [-Fin.getElem_fin, w, h]
    · next h => simp [-Fin.getElem_fin, h]
  refine ⟨rfl, fun _ => rfl, fun h => ⟨?_, ?_, ?_, ?_, ?_, ?_⟩, ?_⟩
  · intro a b x z k
    rw [tg, tg, if_neg (fl a x).1, if_neg (fl b z).1] at k
    exact h.oneFlight a b (fl a x).2 (fl b z).2 k
  · intro a b x z k
    rw [tg, tg] at k
    rcases wt a x with u | ⟨u, u'⟩ <;> rcases wt b z with v | ⟨v, v'⟩
    · rw [← u, ← v]
    · rw [if_pos u, if_neg v] at k; exact absurd k.symm (n b v')
    · rw [if_neg u, if_pos v] at k; exact absurd k (n a u')
    · rw [if_neg u, if_neg v] at k; exact h.oneWaiting a b u' v' k
  · intro a b x z
    rw [tg, tg, if_neg (fl b z).1, if_neg ((qd a).1 x).1]
    exact h.queuedIdle a b ((qd a).1 x).2 (fl b z).2
  · intro p a
    rw [State.modSlot_lane, qd, tg, h.lanes p a]
    constructor
    · rintro ⟨x, z⟩
      have u : i ≠ a := by rintro rfl; rw [e] at x; cases x
      rw [if_neg u]
      exact ⟨⟨u, x⟩, z⟩
    · rintro ⟨⟨u, x⟩, z⟩
      rw [if_neg u] at z
      exact ⟨x, z⟩
  · intro p; rw [State.modSlot_lane]; exact h.once p
  · intro a x
    rw [g] at x ⊢
    split at x
    · rw [v] at x; cases x
    · next e => rw [if_neg e]; exact h.timed a x
  · intro m h j a
    rw [tg, if_neg (fl j a).1]
    exact h j (fl j a).2

/-- The filling of a FREE slot (R136 case 5). -/
theorem State.fillSlot_slotted (s : State) (i : Fin 16) (n : Fin 32) (k : OrderKind) (v : OrderValue)
    (o : Owner) (c : Option BoatSet) (e : s.trans.slots[i].state = .free)
    (w : ∀ j : Fin 16, s.trans.slots[j].isWaiting = true → s.trans.slots[j].target ≠ n) :
    Slotted s (s.fillSlot i n k v o c) := by
  have a : Slotted s ((s.modSlot i fun _ =>
    { target := n, kind := k, value := v, tag := s.nodes[n].nextTag, owner := some o,
      condition := c, ackAt := none,
      state := if c.isSome then .held else .waiting }).useTag n) := by
    refine Slotted.trans (s.fill_slotted i _ e ?_ rfl w) (State.useTag_slotted _ n)
    cases c
    · exact .inr rfl
    · exact .inl rfl
  unfold State.fillSlot
  dsimp only
  split
  · exact a
  · next h =>
    simp only [not_or, Bool.not_eq_true] at h
    have sl : ∀ x : Slot, ((s.modSlot i fun _ => x).useTag n).trans.slots[i] = x := by
      intro x
      show (s.modSlot i fun _ => x).trans.slots[i] = x
      rw [State.modSlot_slot, if_pos rfl]
    refine a.trans (State.queueSlot_slotted _ i ?_ ?_ ?_)
    · rw [sl]; simp [-Fin.getElem_fin, Slot.isWaiting, h.1]
    · rw [sl]; simp [-Fin.getElem_fin, h.1]
    · rw [sl]
      exact a.idle n (State.idle_of_flightSlot h.2)

/-- All that a placement can do (R136, R137). -/
theorem State.place_slotted (s : State) (n : Fin 32) (k : OrderKind) (v : OrderValue) (o : Owner)
    (c : Option BoatSet) : Slotted s (s.place n k v o c).1 := by
  unfold State.place
  split
  · exact Slotted.refl s
  · split
    · split
      · exact s.supersede_slotted _ n v o
      · exact Slotted.refl s
    · next w =>
      split
      · next i e =>
        exact s.fillSlot_slotted i n k v o c (State.freeSlot_meets e) (State.waitingSlot_none w)
      · exact Slotted.refl s

/-- The waking of a node's waiting slot, where the node has nothing in flight. -/
theorem State.wakeSlot_slotted (s : State) (n : Fin 32) (d : s.idle? n) : Slotted s (s.wakeSlot n) := by
  unfold State.wakeSlot
  split
  · next i h =>
    have m := State.waitingSlot_meets h
    split
    · next e => exact s.queueSlot_slotted i m.1 (by simp [-Fin.getElem_fin, e]) (by rw [m.2]; exact d)
    · exact Slotted.refl s
  · exact Slotted.refl s

end Sys2Proof.Machine
end

