-- ==== Sys2Proof/Laws/Worked.lean ====
section
/-! SUPPORT. Laws/Worked.lean: a block's own work, step by step. `Worked x s t` says that `t` differs from `s`
within a level, and that the properties of the buffers, the notice list, the order slots and the coupling work
hold on. Each primitive change has one lemma here; the operations of the blocks are put together from them. -/

namespace Sys2Proof.Machine

theorem WrittenKept.refl (s : State) : WrittenKept s s :=
  ⟨rfl, fun _ => rfl, rfl, rfl, rfl, rfl, fun _ => rfl, rfl, rfl, rfl, fun _ => rfl, fun _ => rfl,
    fun _ => rfl, fun _ => rfl, rfl, fun _ => rfl, rfl, rfl, rfl, rfl⟩

theorem WrittenKept.trans {s t u : State} (h : WrittenKept s t) (k : WrittenKept t u) :
    WrittenKept s u where
  helm := k.helm.trans h.helm
  engines i := (k.engines i).trans (h.engines i)
  power := k.power.trans h.power
  diffMode := k.diffMode.trans h.diffMode
  fixedDiff := k.fixedDiff.trans h.fixedDiff
  nominal := k.nominal.trans h.nominal
  actuators i := (k.actuators i).trans (h.actuators i)
  rudder := k.rudder.trans h.rudder
  bowMode := k.bowMode.trans h.bowMode
  bowDemand := k.bowDemand.trans h.bowDemand
  couplings c := (k.couplings c).trans (h.couplings c)
  meters i := (k.meters i).trans (h.meters i)
  tanks i := (k.tanks i).trans (h.tanks i)
  bases i := (k.bases i).trans (h.bases i)
  statement := k.statement.trans h.statement
  nodes n := (k.nodes n).trans (h.nodes n)
  passage := k.passage.trans h.passage
  defaults := k.defaults.trans h.defaults
  map := k.map.trans h.map
  master := k.master.trans h.master

theorem UnitsKept.refl (s : State) : UnitsKept s s :=
  ⟨fun _ => ⟨rfl, rfl, rfl⟩, fun _ => ⟨rfl, rfl, rfl⟩, rfl, fun _ => rfl, rfl⟩

/-- Units kept by a change of other blocks. -/
theorem UnitsKept.of_same {s t : State} (p : t.prop = s.prop) (a : t.steer = s.steer)
    (c : t.tow = s.tow) : UnitsKept s t := by
  refine ⟨?_, ?_, ?_, ?_, ?_⟩
  · intro i; rw [p]; exact ⟨rfl, rfl, rfl⟩
  · intro i; rw [a]; exact ⟨rfl, rfl, rfl⟩
  · rw [a]
  · intro k; rw [c]
  · rw [c]

theorem UnitsKept.trans {s t u : State} (h : UnitsKept s t) (k : UnitsKept t u) : UnitsKept s u where
  engines i := ⟨(k.engines i).1.trans (h.engines i).1, (k.engines i).2.1.trans (h.engines i).2.1,
    (k.engines i).2.2.trans (h.engines i).2.2⟩
  actuators i := ⟨(k.actuators i).1.trans (h.actuators i).1,
    (k.actuators i).2.1.trans (h.actuators i).2.1, (k.actuators i).2.2.trans (h.actuators i).2.2⟩
  forced := k.forced.trans h.forced
  couplings c := by
    have a := h.couplings c
    have b := k.couplings c
    rw [← a, ← b]
  work := k.work.trans h.work

theorem Within.refl (x : Level) (s : State) : Within x s s where
  written := WrittenKept.refl s
  now := rfl
  link := rfl
  pending := rfl
  allocation := ⟨rfl, rfl, rfl⟩
  answers := rfl
  queueM := rfl
  queueT := rfl
  queueW := List.prefix_rfl
  list := List.prefix_rfl
  quiet _ := ⟨rfl, rfl, rfl, rfl⟩
  ceilings _ := ⟨rfl, rfl, rfl⟩
  units _ := UnitsKept.refl s
  fuel _ := ⟨rfl, rfl⟩
  nodes _ _ := rfl

theorem Within.trans {x : Level} {s t u : State} (h : Within x s t) (k : Within x t u) :
    Within x s u where
  written := h.written.trans k.written
  now := k.now.trans h.now
  link := k.link.trans h.link
  pending := k.pending.trans h.pending
  allocation := ⟨k.allocation.1.trans h.allocation.1, k.allocation.2.1.trans h.allocation.2.1,
    k.allocation.2.2.trans h.allocation.2.2⟩
  answers := k.answers.trans h.answers
  queueM := k.queueM.trans h.queueM
  queueT := k.queueT.trans h.queueT
  queueW := h.queueW.trans k.queueW
  list := h.list.trans k.list
  quiet l := ⟨(k.quiet l).1.trans (h.quiet l).1, (k.quiet l).2.1.trans (h.quiet l).2.1,
    (k.quiet l).2.2.1.trans (h.quiet l).2.2.1, (k.quiet l).2.2.2.trans (h.quiet l).2.2.2⟩
  ceilings l := ⟨(k.ceilings l).1.trans (h.ceilings l).1, (k.ceilings l).2.1.trans (h.ceilings l).2.1,
    (k.ceilings l).2.2.trans (h.ceilings l).2.2⟩
  units l := (h.units l).trans (k.units l)
  fuel l := ⟨(k.fuel l).1.trans (h.fuel l).1, (k.fuel l).2.trans (h.fuel l).2⟩
  nodes l n := by
    have a := h.nodes l n
    have b := k.nodes l n
    rw [← a, ← b]

/-- A change within a level is within each higher one. -/
theorem Within.mono {x y : Level} {s t : State} (h : Within x s t) (l : x.rank ≤ y.rank) :
    Within y s t where
  written := h.written
  now := h.now
  link := h.link
  pending := h.pending
  allocation := h.allocation
  answers := h.answers
  queueM := h.queueM
  queueT := h.queueT
  queueW := h.queueW
  list := h.list
  quiet m := h.quiet (l.trans_lt m)
  ceilings m := h.ceilings (l.trans_lt m)
  units m := h.units (l.trans_lt m)
  fuel m := h.fuel (l.trans_lt m)
  nodes m := h.nodes (l.trans_lt m)

/-- Work of a block within a level. -/
structure Worked (x : Level) (s t : State) : Prop where
  within : Within x s t
  allocated : s.fwd.Allocated → t.fwd.Allocated
  fits : s.notices.Fits → t.notices.Fits
  slots : s.SlotsSound → t.SlotsSound
  idle : ∀ n : Fin 32, s.idle? n → t.idle? n
  tow : s.tow.Sound → t.tow.Sound

theorem Worked.refl (x : Level) (s : State) : Worked x s s :=
  ⟨Within.refl x s, id, id, id, fun _ => id, id⟩

theorem Worked.trans {x : Level} {s t u : State} (h : Worked x s t) (k : Worked x t u) : Worked x s u :=
  ⟨h.within.trans k.within, k.allocated ∘ h.allocated, k.fits ∘ h.fits, k.slots ∘ h.slots,
    fun n => k.idle n ∘ h.idle n, k.tow ∘ h.tow⟩

theorem Worked.mono {x y : Level} {s t : State} (h : Worked x s t)
    (l : x.rank ≤ y.rank := by decide) : Worked y s t :=
  ⟨h.within.mono l, h.allocated, h.fits, h.slots, h.idle, h.tow⟩

/-- Work over a list, one entry after another. -/
theorem Worked.foldl {α : Type} {x : Level} (f : State → α → State)
    (h : ∀ s a, Worked x s (f s a)) (l : List α) (s : State) : Worked x s (l.foldl f s) := by
  induction l generalizing s with
  | nil => exact Worked.refl x s
  | cons a l ih => exact (h s a).trans (ih _)

/-! ### The primitive changes -/

/-- Slots that are the same are as sound, and as idle. -/
theorem State.slots_of_same {s t : State} (e : t.trans = s.trans) (n : t.nodes = s.nodes) :
    (s.SlotsSound → t.SlotsSound) ∧ ∀ m : Fin 32, s.idle? m → t.idle? m := by
  have k : ∀ i : Fin 16, t.trans.slots[i].state = s.trans.slots[i].state ∧
      t.trans.slots[i].target = s.trans.slots[i].target ∧
      t.trans.slots[i].ackAt = s.trans.slots[i].ackAt := by
    intro i; rw [e]; exact ⟨rfl, rfl, rfl⟩
  refine ⟨fun h => h.congr k ?_ ?_, fun m h => State.idle_congr h fun i => ⟨(k i).1, (k i).2.1⟩⟩
  · intro p; rw [e]
  · intro m; unfold State.plantPort; rw [n]

theorem Noted.worked {s t : State} (h : Noted s t) : Worked .notices s t := by
  have l := h.list
  have q := h.queue
  have a := h.allocated
  have f := h.fits
  have e := h.same
  clear h
  generalize t.notices.list = x at *
  generalize t.notices.channels = y at *
  generalize t.fwd.queues.w = z at *
  subst e
  have z := State.slots_of_same (s := s) (t := { s with
    notices := { s.notices with list := x, channels := y }
    fwd := { s.fwd with queues := { s.fwd.queues with w := z } } }) rfl rfl
  exact ⟨⟨⟨rfl, fun _ => rfl, rfl, rfl, rfl, rfl, fun _ => rfl, rfl, rfl, rfl, fun _ => rfl, fun _ => rfl,
    fun _ => rfl, fun _ => rfl, rfl, fun _ => rfl, rfl, rfl, rfl, rfl⟩, rfl, rfl, rfl, ⟨rfl, rfl, rfl⟩, rfl,
    rfl, rfl, q, l, fun _ => ⟨rfl, rfl, rfl, rfl⟩, fun _ => ⟨rfl, rfl, rfl⟩, fun _ => UnitsKept.of_same rfl rfl rfl,
    fun _ => ⟨rfl, rfl⟩, fun _ _ => rfl⟩, a, f, z.1, z.2, id⟩

theorem Slotted.worked {s t : State} (h : Slotted s t) : Worked .propulsion s t := by
  have e := h.same
  have n := h.nodes
  have o := h.sound
  have d := h.idle
  clear h
  generalize t.trans = x at *
  generalize t.nodes = y at *
  subst e
  have m : ∀ m : Fin 32, y[m].entry = s.nodes[m].entry := by
    intro m; have := congrArg Node.entry (n m); exact this
  exact ⟨⟨⟨rfl, fun _ => rfl, rfl, rfl, rfl, rfl, fun _ => rfl, rfl, rfl, rfl, fun _ => rfl, fun _ => rfl,
    fun _ => rfl, fun _ => rfl, rfl, m, rfl, rfl, rfl, rfl⟩, rfl, rfl, rfl, ⟨rfl, rfl, rfl⟩, rfl,
    rfl, rfl, List.prefix_rfl, List.prefix_rfl, fun l => absurd l (by decide), fun _ => ⟨rfl, rfl, rfl⟩,
    fun _ => UnitsKept.of_same rfl rfl rfl, fun _ => ⟨rfl, rfl⟩, fun _ => n⟩, id, id, o, d, id⟩

/-- A change of the propulsion coordinator's own fields. -/
theorem Worked.prop {x : Level} (s : State) (q : Propulsion) (l : 1 ≤ x.rank)
    (e : ∀ i : Fin 6, q.engines[i].entry = s.prop.engines[i].entry)
    (o : q.power = s.prop.power ∧ q.diffMode = s.prop.diffMode ∧ q.fixedDiff = s.prop.fixedDiff ∧
      q.nominal = s.prop.nominal)
    (u : x.rank < 3 → ∀ i : Fin 6, q.engines[i].state = s.prop.engines[i].state ∧
      q.engines[i].health = s.prop.engines[i].health ∧ q.engines[i].load = s.prop.engines[i].load) :
    Worked x s { s with prop := q } := by
  have z := State.slots_of_same (s := s) (t := { s with prop := q }) rfl rfl
  exact ⟨⟨⟨rfl, e, o.1, o.2.1, o.2.2.1, o.2.2.2, fun _ => rfl, rfl, rfl, rfl, fun _ => rfl, fun _ => rfl,
    fun _ => rfl, fun _ => rfl, rfl, fun _ => rfl, rfl, rfl, rfl, rfl⟩, rfl, rfl, rfl, ⟨rfl, rfl, rfl⟩, rfl,
    rfl, rfl, List.prefix_rfl, List.prefix_rfl, fun h => absurd l (by omega), fun _ => ⟨rfl, rfl, rfl⟩,
    fun h => ⟨u h, fun _ => ⟨rfl, rfl, rfl⟩, rfl, fun _ => rfl, rfl⟩, fun _ => ⟨rfl, rfl⟩,
    fun _ _ => rfl⟩, id, id, z.1, z.2, id⟩

/-- A change of the steering coordinator's own fields. -/
theorem Worked.steer {x : Level} (s : State) (q : Steering) (l : 1 ≤ x.rank)
    (e : ∀ i : Fin 5, q.actuators[i].entry = s.steer.actuators[i].entry)
    (o : q.rudder = s.steer.rudder ∧ q.bowMode = s.steer.bowMode ∧ q.bowDemand = s.steer.bowDemand)
    (u : x.rank < 3 → q.forced = s.steer.forced ∧ ∀ i : Fin 5,
      q.actuators[i].state = s.steer.actuators[i].state ∧
      q.actuators[i].reported = s.steer.actuators[i].reported ∧
      q.actuators[i].divergeAt = s.steer.actuators[i].divergeAt) :
    Worked x s { s with steer := q } := by
  have z := State.slots_of_same (s := s) (t := { s with steer := q }) rfl rfl
  exact ⟨⟨⟨rfl, fun _ => rfl, rfl, rfl, rfl, rfl, e, o.1, o.2.1, o.2.2, fun _ => rfl, fun _ => rfl,
    fun _ => rfl, fun _ => rfl, rfl, fun _ => rfl, rfl, rfl, rfl, rfl⟩, rfl, rfl, rfl, ⟨rfl, rfl, rfl⟩, rfl,
    rfl, rfl, List.prefix_rfl, List.prefix_rfl, fun h => absurd l (by omega), fun _ => ⟨rfl, rfl, rfl⟩,
    fun h => ⟨fun _ => ⟨rfl, rfl, rfl⟩, (u h).2, (u h).1, fun _ => rfl, rfl⟩, fun _ => ⟨rfl, rfl⟩,
    fun _ _ => rfl⟩, id, id, z.1, z.2, id⟩

/-- A change of the coupling supervisor's own fields. -/
theorem Worked.coupling {x : Level} (s : State) (q : Tow) (l : 1 ≤ x.rank)
    (e : ∀ c : Fin 48, q.couplings[c].entry = s.tow.couplings[c].entry)
    (o : s.tow.Sound → q.Sound)
    (v : x.rank < 2 → q.computed = s.tow.computed ∧ q.applied = s.tow.applied ∧ q.holdAt = s.tow.holdAt)
    (u : x.rank < 3 → q.work = s.tow.work ∧ ∀ c : Fin 48,
      { q.couplings[c] with phase := s.tow.couplings[c].phase } = s.tow.couplings[c]) :
    Worked x s { s with tow := q } := by
  have z := State.slots_of_same (s := s) (t := { s with tow := q }) rfl rfl
  exact ⟨⟨⟨rfl, fun _ => rfl, rfl, rfl, rfl, rfl, fun _ => rfl, rfl, rfl, rfl, e, fun _ => rfl,
    fun _ => rfl, fun _ => rfl, rfl, fun _ => rfl, rfl, rfl, rfl, rfl⟩, rfl, rfl, rfl, ⟨rfl, rfl, rfl⟩, rfl,
    rfl, rfl, List.prefix_rfl, List.prefix_rfl, fun h => absurd l (by omega), v,
    fun h => ⟨fun _ => ⟨rfl, rfl, rfl⟩, fun _ => ⟨rfl, rfl, rfl⟩, rfl, (u h).2, (u h).1⟩,
    fun _ => ⟨rfl, rfl⟩, fun _ _ => rfl⟩, id, id, z.1, z.2, o⟩

/-- A change of the fuel unit's own fields, with the free values it uses. -/
theorem Worked.fuel {x : Level} (s : State) (q : Fuel) (n : Nat) (l : 4 ≤ x.rank)
    (m : ∀ i : Fin 16, q.meters[i].entry = s.fuel.meters[i].entry)
    (k : ∀ i : Fin 8, q.tanks[i].entry = s.fuel.tanks[i].entry ∧
      q.tanks[i].base = s.fuel.tanks[i].base)
    (e : q.statement = s.fuel.statement) :
    Worked x s { s with fuel := q, free := n } := by
  have z := State.slots_of_same (s := s) (t := { s with fuel := q, free := n }) rfl rfl
  exact ⟨⟨⟨rfl, fun _ => rfl, rfl, rfl, rfl, rfl, fun _ => rfl, rfl, rfl, rfl, fun _ => rfl, m,
    fun i => (k i).1, fun i => (k i).2, e, fun _ => rfl, rfl, rfl, rfl, rfl⟩, rfl, rfl, rfl,
    ⟨rfl, rfl, rfl⟩, rfl, rfl, rfl, List.prefix_rfl, List.prefix_rfl, fun _ => ⟨rfl, rfl, rfl, rfl⟩,
    fun _ => ⟨rfl, rfl, rfl⟩, fun _ => UnitsKept.of_same rfl rfl rfl, fun h => absurd l (by omega),
    fun _ _ => rfl⟩, id, id, z.1, z.2, id⟩

/-- A change of a node that keeps its written fields. -/
theorem Worked.node {x : Level} (s : State) (n : Fin 32) (f : Node → Node) (l : 5 ≤ x.rank)
    (e : ∀ y, (f y).entry = y.entry) : Worked x s (s.modNode n f) := by
  have m : ∀ m : Fin 32, (s.modNode n f).nodes[m].entry = s.nodes[m].entry := by
    intro m; rw [State.modNode_node]; split
    · exact e _
    · rfl
  have p : ∀ m : Fin 32, (s.modNode n f).plantPort m = s.plantPort m :=
    fun k => congrArg NodeEntry.port (m k)
  exact ⟨⟨⟨rfl, fun _ => rfl, rfl, rfl, rfl, rfl, fun _ => rfl, rfl, rfl, rfl, fun _ => rfl, fun _ => rfl,
    fun _ => rfl, fun _ => rfl, rfl, m, rfl, rfl, rfl, rfl⟩, rfl, rfl, rfl, ⟨rfl, rfl, rfl⟩, rfl, rfl, rfl,
    List.prefix_rfl, List.prefix_rfl, fun _ => ⟨rfl, rfl, rfl, rfl⟩, fun _ => ⟨rfl, rfl, rfl⟩,
    fun _ => UnitsKept.of_same rfl rfl rfl, fun _ => ⟨rfl, rfl⟩, fun h => absurd l (by omega)⟩, id, id,
    fun h => h.congr (fun _ => ⟨rfl, rfl, rfl⟩) (fun _ => rfl) p, fun _ => id, id⟩

theorem State.latch_worked (x : Level) (s : State) (k : NoticeKind) (b : Byte) :
    Worked x s (s.latch k b) :=
  (s.latch_noted k b).worked.mono (Nat.zero_le _)

theorem State.place_worked {x : Level} (s : State) (n : Fin 32) (k : OrderKind) (v : OrderValue)
    (o : Owner) (c : Option BoatSet) (l : 1 ≤ x.rank := by decide) :
    Worked x s (s.place n k v o c).1 :=
  (s.place_slotted n k v o c).worked.mono l

/-- A change of one engine that keeps its entry. -/
theorem Worked.engine {x : Level} (s : State) (i : Fin 6) (f : Engine → Engine) (l : 1 ≤ x.rank)
    (e : (f s.prop.engines[i]).entry = s.prop.engines[i].entry)
    (u : x.rank < 3 → (f s.prop.engines[i]).state = s.prop.engines[i].state ∧
      (f s.prop.engines[i]).health = s.prop.engines[i].health ∧
      (f s.prop.engines[i]).load = s.prop.engines[i].load) :
    Worked x s (s.modEngine i f) := by
  have g : ∀ j : Fin 6, (modTable s.prop.engines i f)[j] =
      if i = j then f s.prop.engines[i] else s.prop.engines[j] := fun j => modTable_get _ i j f
  refine Worked.prop s _ l ?_ ⟨rfl, rfl, rfl, rfl⟩ ?_
  · intro j; show (modTable s.prop.engines i f)[j].entry = _
    rw [g]; split
    · next h => rw [← h]; exact e
    · rfl
  · intro h j; show (modTable s.prop.engines i f)[j].state = _ ∧ (modTable s.prop.engines i f)[j].health = _ ∧
      (modTable s.prop.engines i f)[j].load = _
    rw [g]; split
    · next k => rw [← k]; exact u h
    · exact ⟨rfl, rfl, rfl⟩

/-- A change of one actuator that keeps its entry. -/
theorem Worked.actuator {x : Level} (s : State) (i : Fin 5) (f : Actuator → Actuator) (l : 1 ≤ x.rank)
    (e : (f s.steer.actuators[i]).entry = s.steer.actuators[i].entry)
    (u : x.rank < 3 → (f s.steer.actuators[i]).state = s.steer.actuators[i].state ∧
      (f s.steer.actuators[i]).reported = s.steer.actuators[i].reported ∧
      (f s.steer.actuators[i]).divergeAt = s.steer.actuators[i].divergeAt) :
    Worked x s (s.modActuator i f) := by
  have g : ∀ j : Fin 5, (modTable s.steer.actuators i f)[j] =
      if i = j then f s.steer.actuators[i] else s.steer.actuators[j] := fun j => modTable_get _ i j f
  refine Worked.steer s _ l ?_ ⟨rfl, rfl, rfl⟩ ?_
  · intro j; show (modTable s.steer.actuators i f)[j].entry = _
    rw [g]; split
    · next h => rw [← h]; exact e
    · rfl
  · intro h; refine ⟨rfl, fun j => ?_⟩
    show (modTable s.steer.actuators i f)[j].state = _ ∧ (modTable s.steer.actuators i f)[j].reported = _ ∧
      (modTable s.steer.actuators i f)[j].divergeAt = _
    rw [g]; split
    · next k => rw [← k]; exact u h
    · exact ⟨rfl, rfl, rfl⟩

end Sys2Proof.Machine
end

