-- ==== Sys2Proof/Laws/Recompute.lean ====
section
/-! SUPPORT. Laws/Recompute.lean: what the mapping, the recompute, the crash stop, the steps and the tow ceilings
can do. -/

namespace Sys2Proof.Machine

/-! ### Mapping (chapter 3) -/

theorem State.placeOrdered_worked {x : Level} (s : State) (i : Fin 5) (l : 1 ≤ x.rank := by decide) :
    Worked x s (s.placeOrdered i) := by
  unfold State.placeOrdered
  split
  · exact s.place_worked _ _ _ _ _ l
  · exact Worked.refl x s

theorem State.remapActuator_worked (s : State) (i : Fin 5) : Worked .propulsion s (s.remapActuator i) := by
  unfold State.remapActuator
  dsimp only
  split
  · exact Worked.refl _ s
  · exact (Worked.actuator s i _ (by decide) rfl fun _ => ⟨rfl, rfl, rfl⟩).trans
      (State.placeOrdered_worked _ i)

theorem State.remapBoat_worked (s : State) (b : Boat) : Worked .propulsion s (s.remapBoat b) := by
  unfold State.remapBoat
  refine Worked.foldl _ (fun s i => ?_) _ s
  split
  · exact s.remapActuator_worked i
  · exact Worked.refl _ s

theorem State.remapAll_worked (s : State) : Worked .propulsion s s.remapAll :=
  Worked.foldl _ State.remapActuator_worked _ s

/-! ### Couplings one at a time -/

theorem State.modCoupling_coupling (s : State) (c d : Fin 48) (f : Coupling → Coupling) :
    (s.modCoupling c f).tow.couplings[d] =
      if c = d then f s.tow.couplings[c] else s.tow.couplings[d] :=
  modTable_get s.tow.couplings c d f

/-- Coupling work is as sound where each coupling has the same state of work. -/
theorem Tow.Sound.of_same {p q : Tow} (h : p.Sound) (w : q.work = p.work)
    (k : ∀ c : Fin 48, q.couplings[c].working = p.couplings[c].working ∧
      q.couplings[c].prior = p.couplings[c].prior ∧
      q.couplings[c].waitAt.isSome = p.couplings[c].waitAt.isSome ∧
      q.couplings[c].phase.isSome = p.couplings[c].phase.isSome ∧
      (q.couplings[c].state = .releasing ↔ p.couplings[c].state = .releasing)) : q.Sound where
  work c := by rw [(k c).1, w]; exact h.work c
  prior c := by rw [(k c).2.1, (k c).1]; exact h.prior c
  kinds c x e := by
    refine h.kinds c x ?_
    rw [← (k c).2.1, e]
  wait c := by rw [(k c).2.2.1, (k c).1]; exact h.wait c
  phase c := by rw [(k c).2.2.2.1, (k c).2.2.2.2]; exact h.phase c

/-- A change of one coupling that keeps its entry and, while the coupling work is sound, its state of work. -/
theorem Worked.oneCoupling {x : Level} (s : State) (c : Fin 48) (f : Coupling → Coupling)
    (l : 1 ≤ x.rank) (e : (f s.tow.couplings[c]).entry = s.tow.couplings[c].entry)
    (o : s.tow.Sound → (f s.tow.couplings[c]).working = s.tow.couplings[c].working ∧
      (f s.tow.couplings[c]).prior = s.tow.couplings[c].prior ∧
      (f s.tow.couplings[c]).waitAt.isSome = s.tow.couplings[c].waitAt.isSome ∧
      (f s.tow.couplings[c]).phase.isSome = s.tow.couplings[c].phase.isSome ∧
      ((f s.tow.couplings[c]).state = .releasing ↔ s.tow.couplings[c].state = .releasing))
    (u : x.rank < 3 →
      { f s.tow.couplings[c] with phase := s.tow.couplings[c].phase } = s.tow.couplings[c]) :
    Worked x s (s.modCoupling c f) := by
  have g := fun d : Fin 48 => State.modCoupling_coupling s c d f
  refine Worked.coupling s _ l ?_ (fun h => ?_) (fun _ => ⟨rfl, rfl, rfl⟩) fun m => ⟨rfl, ?_⟩
  · intro d; have := g d; rw [State.modCoupling_tow] at this; rw [this]; split
    · next k => rw [← k]; exact e
    · rfl
  · refine h.of_same rfl fun d => ?_
    have := g d; rw [State.modCoupling_tow] at this; rw [this]; split
    · next k => rw [← k]; exact o h
    · exact ⟨rfl, rfl, rfl, rfl, Iff.rfl⟩
  · intro d; have := g d; rw [State.modCoupling_tow] at this; rw [this]; split
    · next k => rw [← k]; exact u m
    · rfl

theorem State.holdRelease_worked (s : State) (b : BoatSet) : Worked .propulsion s (s.holdRelease b) := by
  unfold State.holdRelease
  split
  · next c _ =>
    split
    · next h =>
      split
      · next i _ =>
        have w := (s.holdSlot_slotted i).worked
        have t : (s.holdSlot i).tow = s.tow := by
          rw [(s.holdSlot_slotted i).same]
        refine w.trans (Worked.oneCoupling _ c _ (by decide) rfl (fun _ => ?_) fun _ => rfl)
        refine ⟨rfl, rfl, rfl, ?_, Iff.rfl⟩
        rw [t, h.2.1]; rfl
      · exact Worked.refl _ s
    · exact Worked.refl _ s
  · exact Worked.refl _ s

/-! ### The recompute (chapter 2) -/

theorem State.formEngines_worked (s : State) : Worked .propulsion s s.formEngines := by
  refine Worked.prop s _ (by decide) ?_ ⟨rfl, rfl, rfl, rfl⟩ fun _ => ?_
  · intro i; rw [mapTable_get]; unfold State.reformEngine; split <;> rfl
  · intro i; rw [mapTable_get]; unfold State.reformEngine; split <;> exact ⟨rfl, rfl, rfl⟩

theorem State.share_worked (s : State) : Worked .propulsion s s.share := by
  refine Worked.prop s _ (by decide) ?_ ⟨rfl, rfl, rfl, rfl⟩ fun _ => ?_
  · intro i; dsimp only; rw [mapTable_get]
  · intro i; dsimp only; rw [mapTable_get]; exact ⟨rfl, rfl, rfl⟩

theorem State.noteUnmet_worked (x : Level) (s : State) : Worked x s s.noteUnmet := by
  unfold State.noteUnmet
  split
  · exact s.latch_worked x _ _
  · exact Worked.refl x s

theorem State.placeSetpoint_worked {x : Level} (s : State) (i : Fin 6) (l : 1 ≤ x.rank := by decide) :
    Worked x s (s.placeSetpoint i) := by
  unfold State.placeSetpoint
  split
  · exact s.place_worked _ _ _ _ _ l
  · exact Worked.refl x s

/-- What a change of slewing keeps of an engine. -/
structure Engine.Kept (a b : Engine) : Prop where
  entry : b.entry = a.entry
  state : b.state = a.state
  health : b.health = a.health
  load : b.load = a.load

theorem Engine.Kept.worked {x : Level} {s : State} {i : Fin 6} {f : Engine → Engine}
    (h : Engine.Kept s.prop.engines[i] (f s.prop.engines[i])) (l : 1 ≤ x.rank := by decide) :
    Worked x s (s.modEngine i f) :=
  Worked.engine s i f l h.entry fun _ => ⟨h.state, h.health, h.load⟩

theorem State.cancelDwell_kept (s : State) (e : Engine) : e.Kept (s.cancelDwell e) :=
  ⟨rfl, rfl, rfl, rfl⟩

theorem State.endDwell_kept (s : State) (e : Engine) : e.Kept (s.endDwell e) := by
  unfold State.endDwell
  split <;> exact ⟨rfl, rfl, rfl, rfl⟩

theorem State.startDwell_kept (s : State) (e : Engine) : e.Kept (s.startDwell e) := by
  unfold State.startDwell
  split
  · exact s.endDwell_kept e
  · exact ⟨rfl, rfl, rfl, rfl⟩

theorem State.zeroEngine_kept (s : State) (e : Engine) : e.Kept (s.zeroEngine e) := by
  unfold State.zeroEngine
  dsimp only
  split
  · exact ⟨rfl, rfl, rfl, rfl⟩
  · have h := s.startDwell_kept { e with setpoint := 0, lastSign := signOf e.setpoint }
    exact ⟨h.entry, h.state, h.health, h.load⟩

theorem State.moveTo_kept (s : State) (e : Engine) (v : Int) : e.Kept (s.moveTo e v) := by
  unfold State.moveTo
  split
  · exact s.zeroEngine_kept e
  · exact ⟨rfl, rfl, rfl, rfl⟩

theorem State.slewEngine_kept (s : State) (old e : Engine) : e.Kept (s.slewEngine old e) := by
  have r : e.Kept e := ⟨rfl, rfl, rfl, rfl⟩
  unfold State.slewEngine
  split
  · split
    · exact s.cancelDwell_kept e
    · exact r
  · split
    · exact s.startDwell_kept e
    · split
      · exact ⟨rfl, rfl, rfl, rfl⟩
      · split
        · exact ⟨rfl, rfl, rfl, rfl⟩
        · split
          · exact r
          · exact ⟨rfl, rfl, rfl, rfl⟩

theorem State.stepEngine_kept (s : State) (e : Engine) : e.Kept (s.stepEngine e) := by
  unfold State.stepEngine
  dsimp only
  split
  · exact s.zeroEngine_kept e
  · split <;> exact ⟨rfl, rfl, rfl, rfl⟩

theorem State.cutEngine_worked (s : State) (i : Fin 6) : Worked .propulsion s (s.cutEngine i) := by
  unfold State.cutEngine
  dsimp only
  split
  · exact Worked.refl _ s
  · refine Worked.trans ?_ (State.placeSetpoint_worked _ i)
    exact Engine.Kept.worked (s.moveTo_kept _ _)

theorem State.cutEngines_worked (s : State) : Worked .propulsion s s.cutEngines :=
  Worked.foldl _ State.cutEngine_worked _ s

theorem State.slewEngines_worked (s : State) (old : Table Engine 6) :
    Worked .propulsion s (s.slewEngines old) := by
  refine Worked.prop s _ (by decide) ?_ ⟨rfl, rfl, rfl, rfl⟩ fun _ => ?_
  · intro i; dsimp only; rw [ofTable_get]; exact (s.slewEngine_kept _ _).entry
  · intro i; dsimp only; rw [ofTable_get]
    exact ⟨(s.slewEngine_kept _ _).state, (s.slewEngine_kept _ _).health, (s.slewEngine_kept _ _).load⟩

theorem State.reviewBoatWash_worked (s : State) (b : Boat) :
    Worked .propulsion s (s.reviewBoatWash b) := by
  unfold State.reviewBoatWash
  split
  · exact Worked.refl _ s
  · refine Worked.trans ?_ (State.remapBoat_worked _ b)
    exact Worked.prop s _ (by decide) (fun _ => rfl) ⟨rfl, rfl, rfl, rfl⟩ fun _ _ => ⟨rfl, rfl, rfl⟩

theorem State.reviewWash_worked (s : State) : Worked .propulsion s s.reviewWash :=
  (s.reviewBoatWash_worked .b1).trans (State.reviewBoatWash_worked _ .b2)

theorem State.reviewZeroOf_worked (s : State) (b : BoatSet) :
    Worked .propulsion s (s.reviewZeroOf b) := by
  unfold State.reviewZeroOf
  dsimp only
  split
  · exact Worked.refl _ s
  · cases b
    all_goals
      dsimp only
      split
      · exact Worked.prop s _ (by decide) (fun _ => rfl) ⟨rfl, rfl, rfl, rfl⟩ fun _ _ => ⟨rfl, rfl, rfl⟩
      · refine Worked.trans ?_ (State.holdRelease_worked _ _)
        exact Worked.prop s _ (by decide) (fun _ => rfl) ⟨rfl, rfl, rfl, rfl⟩ fun _ _ => ⟨rfl, rfl, rfl⟩

theorem State.reviewZero_worked (s : State) : Worked .propulsion s s.reviewZero :=
  ((s.reviewZeroOf_worked .boat1).trans (State.reviewZeroOf_worked _ .boat2)).trans
    (State.reviewZeroOf_worked _ .all)

/-- All that a recompute can do (R29). -/
theorem State.recompute_worked (s : State) : Worked .propulsion s s.recompute :=
  (((((s.formEngines_worked.trans (State.share_worked _)).trans (State.noteUnmet_worked _ _)).trans
    (State.cutEngines_worked _)).trans (State.slewEngines_worked _ _)).trans
      (State.reviewWash_worked _)).trans (State.reviewZero_worked _)

theorem State.crashEngine_worked (s : State) (i : Fin 6) : Worked .propulsion s (s.crashEngine i) := by
  unfold State.crashEngine
  split
  · exact Worked.refl _ s
  · refine Worked.trans ?_ (State.placeSetpoint_worked _ i)
    exact Engine.Kept.worked (s.zeroEngine_kept _)

theorem State.crashStop_worked (s : State) : Worked .propulsion s s.crashStop :=
  Worked.foldl _ State.crashEngine_worked _ s

theorem State.takeStep_worked (s : State) (i : Fin 6) : Worked .propulsion s (s.takeStep i) := by
  refine Worked.trans (Worked.trans (Worked.trans ?_ (State.placeSetpoint_worked _ i))
    (State.reviewWash_worked _)) (State.reviewZero_worked _)
  exact Engine.Kept.worked (s.stepEngine_kept _)

theorem State.endDwell_worked (s : State) (i : Fin 6) :
    Worked .propulsion s (s.modEngine i s.endDwell) :=
  Engine.Kept.worked (s.endDwell_kept _)

/-! ### Tow ceilings (chapter 4) -/

theorem Worked.ceilings {x : Level} (s : State) (a b : PerBoat Nat) (h : PerBoat Timer)
    (l : 2 ≤ x.rank := by decide) :
    Worked x s { s with tow := { s.tow with computed := a, applied := b, holdAt := h } } :=
  Worked.coupling s _ (by omega) (fun _ => rfl) (fun o => ⟨o.work, o.prior, o.kinds, o.wait, o.phase⟩)
    (fun m => by omega) fun _ => ⟨rfl, fun _ => rfl⟩

theorem State.applyCeiling_worked (s : State) (b : Boat) : Worked .tow s (s.applyCeiling b) := by
  unfold State.applyCeiling
  dsimp only
  split
  · exact Worked.ceilings s _ _ _
  · split
    · exact Worked.refl _ s
    · split
      · exact Worked.ceilings s _ _ _
      · exact Worked.ceilings s _ _ _

theorem State.formTow_worked (s : State) : Worked .tow s s.formTow := by
  have h : Worked .tow s ((s.formCeilings.applyCeiling .b1).applyCeiling .b2) :=
    ((Worked.ceilings s _ _ _).trans (State.applyCeiling_worked _ .b1)).trans
      (State.applyCeiling_worked _ .b2)
  unfold State.formTow
  dsimp only
  split
  · exact h
  · exact h.trans (State.recompute_worked _).mono

theorem State.holdEnds_worked (s : State) (b : Boat) : Worked .tow s (s.holdEnds b) := by
  unfold State.holdEnds
  dsimp only
  split
  · exact Worked.ceilings s _ _ _
  · exact (Worked.ceilings s _ _ _).trans (State.recompute_worked _).mono

end Sys2Proof.Machine
end

