-- ==== Sys2Proof/Laws/Units.lean ====
section
/-! SUPPORT. Laws/Units.lean: what a change of an engine, an actuator or a coupling can do. -/

namespace Sys2Proof.Machine

/-! ### Engines (2.2) -/

theorem State.leaveRunning_worked (s : State) (i : Fin 6) : Worked .units s (s.leaveRunning i) := by
  refine Worked.trans ?_ (State.placeSetpoint_worked _ i)
  have h : ∀ e : Engine, e.Kept (let e1 := { e with target := 0, stepAt := none }
      if e1.setpoint = 0 then e1 else s.zeroEngine e1) := by
    intro e
    dsimp only
    split
    · exact ⟨rfl, rfl, rfl, rfl⟩
    · have k := s.zeroEngine_kept { e with target := 0, stepAt := none }
      exact ⟨k.entry, k.state, k.health, k.load⟩
  exact Engine.Kept.worked (h _)

theorem State.moveEngine_worked (s : State) (i : Fin 6) (x : EngineState) :
    Worked .units s (s.moveEngine i x) := by
  have h : Worked .units s (s.modEngine i fun e => { e with state := x }) :=
    Worked.engine s i _ (by decide) rfl fun m => absurd m (by decide)
  unfold State.moveEngine
  dsimp only
  refine Worked.trans ?_ (State.recompute_worked _).mono
  split
  · exact h.trans (State.leaveRunning_worked _ i)
  · exact h

theorem State.engineFollows_worked (s : State) (n : Fin 32) : Worked .units s (s.engineFollows n) := by
  unfold State.engineFollows
  split
  · split
    · split
      · exact s.moveEngine_worked _ _
      · exact Worked.refl _ s
    · split
      · exact Worked.refl _ s
      · exact (s.latch_worked _ _ _).trans (State.moveEngine_worked _ _ _)
  · exact Worked.refl _ s

theorem State.engineReport_worked (s : State) (n : Fin 32) (r : RunState) (l : Half) (a : AlarmLevel) :
    Worked .units s (s.engineReport n r l a) := by
  unfold State.engineReport
  split
  · next i _ =>
    dsimp only
    refine Worked.trans ?_ (State.reviewZero_worked _).mono
    have h : Worked .units s (s.modEngine i fun e => { e with load := l.toInt, health := healthOf a }) :=
      Worked.engine s i _ (by decide) rfl fun m => absurd m (by decide)
    have k : ∀ p : Prop, [Decidable p] → Worked .units s (if p then
        (s.modEngine i fun e => { e with load := l.toInt, health := healthOf a }).latch .engineTrip
          (subjectOf i)
        else s.modEngine i fun e => { e with load := l.toInt, health := healthOf a }) := by
      intro p _
      split
      · exact h.trans (State.latch_worked _ _ _ _)
      · exact h
    split
    · exact (k _).trans (State.moveEngine_worked _ _ _)
    · split
      · exact (k _).trans (State.recompute_worked _).mono
      · exact k _
  · exact Worked.refl _ s

/-! ### Actuators (chapter 3) -/

theorem State.setForced_worked (s : State) : Worked .units s s.setForced :=
  Worked.steer s _ (by decide) (fun _ => rfl) ⟨rfl, rfl, rfl⟩ fun m => absurd m (by decide)

theorem State.reviewForced_worked (s : State) : Worked .units s s.reviewForced := by
  unfold State.reviewForced
  split
  · exact Worked.refl _ s
  · exact s.setForced_worked.trans (State.recompute_worked _).mono

/-- A change of one actuator that keeps its entry. -/
theorem State.modActuator_worked (s : State) (i : Fin 5) (f : Actuator → Actuator)
    (e : ∀ a, (f a).entry = a.entry) : Worked .units s (s.modActuator i f) :=
  Worked.actuator s i f (by decide) (e _) fun m => absurd m (by decide)

theorem State.faultActuator_worked (s : State) (i : Fin 5) : Worked .units s (s.faultActuator i) := by
  refine Worked.trans ?_ (State.latch_worked _ _ _ _)
  exact s.modActuator_worked i _ fun _ => rfl

theorem State.readyActuator_worked (s : State) (i : Fin 5) : Worked .units s (s.readyActuator i) := by
  refine Worked.trans ?_ (State.placeOrdered_worked _ i)
  exact s.modActuator_worked i _ fun _ => rfl

theorem State.testActuator_entry (s : State) (a : Actuator) : (s.testActuator a).entry = a.entry := by
  unfold State.testActuator
  split
  · split
    · split <;> rfl
    · rfl
  · split <;> rfl
  · rfl

theorem State.actuatorFollows_worked (s : State) (n : Fin 32) :
    Worked .units s (s.actuatorFollows n) := by
  unfold State.actuatorFollows
  split
  · dsimp only
    split
    · exact Worked.refl _ s
    · split
      · split
        · exact (s.readyActuator_worked _).trans (State.reviewForced_worked _)
        · exact Worked.refl _ s
      · split
        · exact Worked.refl _ s
        · exact (s.faultActuator_worked _).trans (State.reviewForced_worked _)
      · refine Worked.trans ?_ (State.reviewForced_worked _)
        exact s.modActuator_worked _ _ fun _ => rfl
  · exact Worked.refl _ s

theorem State.actuatorReport_worked (s : State) (n : Fin 32) (p : Half) (g : Option FaultFlag) :
    Worked .units s (s.actuatorReport n p g) := by
  unfold State.actuatorReport
  split
  · next i _ =>
    dsimp only
    have h := s.modActuator_worked i (fun a => { a with reported := p.toInt }) fun _ => rfl
    split
    · exact (h.trans (State.faultActuator_worked _ _)).trans (State.reviewForced_worked _)
    · exact (h.trans (State.faultActuator_worked _ _)).trans (State.reviewForced_worked _)
    · exact h.trans (State.modActuator_worked _ _ _ (State.testActuator_entry _))
    · exact (h.trans (State.modActuator_worked _ _ _ (State.testActuator_entry _))).trans
        (State.reviewForced_worked _)
    · exact ((h.trans (State.readyActuator_worked _ _)).trans
        (State.modActuator_worked _ _ _ (State.testActuator_entry _))).trans (State.reviewForced_worked _)
    · exact h
  · exact Worked.refl _ s

theorem State.diverge_worked (s : State) (i : Fin 5) : Worked .units s (s.diverge i) := by
  unfold State.diverge
  split
  · refine Worked.trans (Worked.trans ?_ (State.latch_worked _ _ _ _)) (State.reviewForced_worked _)
    exact s.modActuator_worked i _ fun _ => rfl
  · exact s.modActuator_worked i _ fun _ => rfl

/-! ### Coupling work (4.4, 4.5) -/

theorem Coupling.working_iff (k : Coupling) :
    k.working = true ↔ k.state = .releasing ∨ k.state = .makingUp := by
  simp [Coupling.working]

theorem State.noteState_worked (x : Level) (s : State) (c : Fin 48) : Worked x s (s.noteState c) := by
  unfold State.noteState
  split
  · exact s.latch_worked x _ _
  · exact Worked.refl x s

theorem State.dropRelease_worked (s : State) (c : Fin 48) : Worked .propulsion s (s.dropRelease c) := by
  unfold State.dropRelease
  split
  · exact (s.withdrawSlot_slotted _).worked
  · exact Worked.refl _ s

theorem State.dropRelease_tow (s : State) (c : Fin 48) : (s.dropRelease c).tow = s.tow := by
  unfold State.dropRelease
  split
  · rw [(s.withdrawSlot_slotted _).same]
  · rfl

/-- The end of coupling work leaves it sound, where the coupling was the one in work. -/
theorem State.endWork_worked (s : State) (c : Fin 48) (x : CouplingState)
    (w : s.tow.couplings[c].working = true)
    (o : s.tow.Sound → x ≠ .releasing ∧ x ≠ .makingUp) : Worked .units s (s.endWork c x) := by
  refine Worked.trans (s.dropRelease_worked c).mono ?_
  have e := s.dropRelease_tow c
  have g := fun d : Fin 48 => State.modCoupling_coupling (s.dropRelease c) c d fun k =>
    { k with state := x, phase := none, prior := none, waitAt := none }
  refine Worked.coupling _ { ((s.dropRelease c).modCoupling c fun k =>
    { k with state := x, phase := none, prior := none, waitAt := none }).tow with work := none }
    (by decide) ?_ (fun h => ?_) (fun m => absurd m (by decide)) fun m => absurd m (by decide)
  · intro d
    show ((s.dropRelease c).modCoupling c _).tow.couplings[d].entry = _
    rw [g]; split
    · next k => rw [k]
    · rfl
  · rw [e] at h
    have r := o h
    have q := (h.work c).1 w
    have idle : ∀ d : Fin 48, c ≠ d → s.tow.couplings[d].working = false := by
      intro d n
      cases a : s.tow.couplings[d].working with
      | false => rfl
      | true =>
        have := (h.work d).1 a
        rw [q] at this
        exact absurd (Option.some.inj this) n
    have st : ∀ d : Fin 48, c ≠ d → s.tow.couplings[d].state ≠ .releasing := by
      intro d n a
      have := idle d n
      simp [-Fin.getElem_fin, Coupling.working, a] at this
    refine ⟨?_, ?_, ?_, ?_, ?_⟩
    all_goals intro d
    all_goals dsimp only
    all_goals rw [g, e]
    · split
      · simp [-Fin.getElem_fin, Coupling.working, r]
      · next n => simp [-Fin.getElem_fin, idle d n]
    · split
      · simp [-Fin.getElem_fin, Coupling.working, r]
      · next n => exact h.prior d
    · split
      · intro k a; cases a
      · exact h.kinds d
    · split
      · simp [-Fin.getElem_fin, Coupling.working, r]
      · next n => exact h.wait d
    · split
      · simp [-Fin.getElem_fin, r]
      · exact h.phase d

/-- A prior state is no state of work. -/
theorem CouplingState.isPrior_idle {x : CouplingState} (h : x.isPrior = true) :
    x ≠ .releasing ∧ x ≠ .makingUp := by
  cases x <;> simp_all [CouplingState.isPrior]

/-- The state a release or make-up returns to is no state of work. -/
theorem Coupling.returnState_idle {t : Tow} (h : t.Sound) (c : Fin 48) :
    t.couplings[c].returnState ≠ .releasing ∧ t.couplings[c].returnState ≠ .makingUp := by
  have p : (t.couplings[c].prior.getD .slack).isPrior = true := by
    cases e : t.couplings[c].prior with
    | none => rfl
    | some k => exact h.kinds c k e
  have q := CouplingState.isPrior_idle p
  unfold Coupling.returnState
  dsimp only
  split
  · split
    · exact ⟨by decide, by decide⟩
    · exact q
  · split
    · exact ⟨by decide, by decide⟩
    · exact q
  · exact q

theorem State.abandonRelease_worked (s : State) (c : Fin 48) (w : s.tow.couplings[c].working = true) :
    Worked .units s (s.abandonRelease c) :=
  (((s.endWork_worked c _ w fun h => Coupling.returnState_idle h c).trans
    (State.latch_worked _ _ _ _)).trans (State.noteState_worked _ _ c)).trans
      (State.formTow_worked _).mono

theorem State.abandonMakeup_worked (s : State) (c : Fin 48) (w : s.tow.couplings[c].working = true) :
    Worked .units s (s.abandonMakeup c) :=
  (((s.endWork_worked c _ w fun h => Coupling.returnState_idle h c).trans
    (State.noteState_worked _ _ c)).trans (State.latch_worked _ _ _ _)).trans
      (State.formTow_worked _).mono

theorem State.releaseDone_worked (s : State) (c : Fin 48) (w : s.tow.couplings[c].working = true) :
    Worked .units s (s.releaseDone c) :=
  ((s.endWork_worked c _ w fun _ => ⟨by decide, by decide⟩).trans (State.latch_worked _ _ _ _)).trans
    (State.formTow_worked _).mono

theorem State.partWork_worked (s : State) (c : Fin 48) (w : s.tow.couplings[c].working = true) :
    Worked .units s (s.partWork c) :=
  ((s.endWork_worked c _ w fun _ => ⟨by decide, by decide⟩).trans (State.latch_worked _ _ _ _)).trans
    (State.formTow_worked _).mono

theorem State.orderRelease_worked (s : State) (c : Fin 48) : Worked .propulsion s (s.orderRelease c) := by
  unfold State.orderRelease
  split
  · next i _ =>
    split
    · next h =>
      have e : (s.releaseSlot i).tow = s.tow := by rw [(s.releaseSlot_slotted i).same]
      refine (s.releaseSlot_slotted i).worked.trans
        (Worked.oneCoupling _ c _ (by decide) rfl (fun _ => ⟨rfl, rfl, rfl, ?_, Iff.rfl⟩) fun _ => rfl)
      rw [e]
      simp only [State.releaseReady, Bool.and_eq_true, decide_eq_true_eq] at h
      rw [h.1.1.2]
      rfl
    · exact Worked.refl _ s
  · exact Worked.refl _ s

theorem State.winchEnded_worked (s : State) (c : Fin 48) : Worked .propulsion s (s.winchEnded c) := by
  unfold State.winchEnded
  split
  · next h =>
    refine Worked.oneCoupling _ c _ (by decide) rfl (fun _ => ⟨rfl, rfl, rfl, ?_, Iff.rfl⟩) fun _ => rfl
    rw [h.2.1]; rfl
  · exact Worked.refl _ s

theorem State.orderEnded_worked (s : State) (x : Slot) : Worked .propulsion s (s.orderEnded x) := by
  unfold State.orderEnded
  split
  · split
    · exact s.winchEnded_worked _
    · exact Worked.refl _ s
  · exact Worked.refl _ s

theorem State.slotLost_worked (s : State) (x : Slot) : Worked .units s (s.slotLost x) := by
  unfold State.slotLost
  split
  · split
    · next h => exact s.abandonRelease_worked _ ((Coupling.working_iff _).2 (.inl h.2.1))
    · exact Worked.refl _ s
  · exact Worked.refl _ s

/-! ### Tension (4.2) -/

/-- A change of one coupling, not in work, to a state that is not one of work. -/
theorem State.restCoupling_worked (s : State) (c : Fin 48) (x : CouplingState) (f : Coupling → Coupling)
    (e : ∀ k, (f k).entry = k.entry ∧ (f k).prior = k.prior ∧ (f k).waitAt = k.waitAt ∧
      (f k).phase = k.phase ∧ (f k).state = x)
    (w : s.tow.couplings[c].working = false) (n : x ≠ .releasing ∧ x ≠ .makingUp) :
    Worked .units s (s.modCoupling c f) := by
  have k := e s.tow.couplings[c]
  have v : s.tow.couplings[c].state ≠ .releasing := by
    intro a; simp [-Fin.getElem_fin, Coupling.working, a] at w
  refine Worked.oneCoupling s c f (by decide) k.1 (fun _ => ⟨?_, k.2.1, ?_, ?_, ?_⟩)
    fun m => absurd m (by decide)
  · rw [w]; simp [-Fin.getElem_fin, Coupling.working, k.2.2.2.2, n]
  · rw [k.2.2.1]
  · rw [k.2.2.2.1]
  · rw [k.2.2.2.2]; exact ⟨fun a => absurd a n.1, fun a => absurd a v⟩

theorem State.moveCoupling_worked (s : State) (c : Fin 48) (x : CouplingState) (m : Nat)
    (w : s.tow.couplings[c].working = false) (n : x ≠ .releasing ∧ x ≠ .makingUp) :
    Worked .units s (s.moveCoupling c x m) := by
  have h := s.restCoupling_worked c x (fun k => { k with state := x, count := m })
    (fun _ => ⟨rfl, rfl, rfl, rfl, rfl⟩) w n
  unfold State.moveCoupling
  dsimp only
  split
  · exact h
  · refine Worked.trans ?_ (State.formTow_worked _).mono
    split
    · exact h
    · exact h.trans (State.noteState_worked _ _ c)

/-- A sample judged in a state that is not one of work gives none. -/
theorem Coupling.judge_idle (k : Coupling) (x : CouplingState) (a o t : Nat)
    (n : x ≠ .releasing ∧ x ≠ .makingUp) :
    (k.judge x a o t).1 ≠ .releasing ∧ (k.judge x a o t).1 ≠ .makingUp := by
  have q : ∀ y, endLoad a y ≠ .releasing ∧ endLoad a y ≠ .makingUp := by
    intro y; unfold endLoad; split <;> exact ⟨by decide, by decide⟩
  unfold Coupling.judge
  split
  case h_6 => exact n
  all_goals
    repeat' split
    all_goals first
      | exact q _
      | exact ⟨by simp, by simp⟩

/-- A sample at or above the slack mark, judged in a prior state, gives a prior state. -/
theorem Coupling.judge_prior (k : Coupling) (x : CouplingState) (a o t : Nat) (h : x.isPrior = true)
    (l : k.entry.slack ≤ t) : (k.judge x a o t).1.isPrior = true := by
  have n : ¬ t < k.entry.slack := by omega
  unfold Coupling.judge
  split
  case h_6 => exact h
  all_goals
    simp only [n, l, if_true, if_false]
    repeat' split
    all_goals rfl

/-- A coupling in work with a new prior state. -/
theorem State.prior_worked (s : State) (c : Fin 48) (f : Coupling → Coupling) (x : CouplingState)
    (e : ∀ k, (f k).entry = k.entry ∧ (f k).prior = some x ∧ (f k).waitAt = k.waitAt ∧
      (f k).phase = k.phase ∧ (f k).state = k.state)
    (w : s.tow.couplings[c].working = true) (o : s.tow.Sound → x.isPrior = true) :
    Worked .units s (s.modCoupling c f) := by
  have k := e s.tow.couplings[c]
  have g := fun d : Fin 48 => State.modCoupling_coupling s c d f
  have z : (f s.tow.couplings[c]).working = s.tow.couplings[c].working := by
    simp only [Coupling.working, k.2.2.2.2]
  refine Worked.coupling s _ (by decide) ?_ (fun h => ?_) (fun m => absurd m (by decide))
    fun m => absurd m (by decide)
  · intro d; have := g d; rw [State.modCoupling_tow] at this; rw [this]; split
    · next j => rw [← j]; exact k.1
    · rfl
  · refine ⟨?_, ?_, ?_, ?_, ?_⟩
    all_goals intro d
    all_goals have r := g d
    all_goals rw [State.modCoupling_tow] at r
    all_goals rw [r]
    all_goals split
    · next j => rw [z, ← j]; exact h.work c
    · exact h.work d
    · rw [k.2.1, z, w]; rfl
    · exact h.prior d
    · intro y a; rw [k.2.1] at a; rw [← Option.some.inj a]; exact o h
    · exact h.kinds d
    · rw [k.2.2.1, z]; exact h.wait c
    · exact h.wait d
    · rw [k.2.2.2.1, k.2.2.2.2]; exact h.phase c
    · exact h.phase d

/-- A prior state, or SLACK where a coupling has none. -/
theorem Tow.Sound.priorOr {t : Tow} (h : t.Sound) (c : Fin 48) :
    (t.couplings[c].prior.getD .slack).isPrior = true := by
  cases e : t.couplings[c].prior with
  | none => rfl
  | some k => exact h.kinds c k e

theorem State.evaluateSample_worked (s : State) (c : Fin 48) (t : Nat) :
    Worked .units s (s.evaluateSample c t) := by
  unfold State.evaluateSample
  dsimp only
  split
  · next e =>
    have w : s.tow.couplings[c].working = true := (Coupling.working_iff _).2 (.inl e)
    split
    · split
      · split
        · exact s.partWork_worked c w
        · exact s.prior_worked c _ .slack (fun _ => ⟨rfl, rfl, rfl, rfl, rfl⟩) w fun _ => rfl
      · exact s.releaseDone_worked c w
    · next n =>
      exact s.prior_worked c _ _ (fun _ => ⟨rfl, rfl, rfl, rfl, rfl⟩) w fun h =>
        Coupling.judge_prior _ _ _ _ _ (h.priorOr c) (by omega)
  · next e =>
    have w : s.tow.couplings[c].working = true := (Coupling.working_iff _).2 (.inr e)
    split
    · have h := s.endWork_worked c .madeUp w fun _ => ⟨by decide, by decide⟩
      refine Worked.trans (h.trans ?_) (State.formTow_worked _).mono
      exact Worked.oneCoupling _ c _ (by decide) rfl (fun _ => ⟨rfl, rfl, rfl, rfl, Iff.rfl⟩)
        fun m => absurd m (by decide)
    · exact Worked.refl _ s
  · next n m =>
    have v : s.tow.couplings[c].state ≠ .releasing ∧ s.tow.couplings[c].state ≠ .makingUp := ⟨n, m⟩
    refine s.moveCoupling_worked c _ _ ?_ (Coupling.judge_idle _ _ _ _ _ v)
    cases a : s.tow.couplings[c].working with
    | false => rfl
    | true => exact absurd ((Coupling.working_iff _).1 a) (by simp [-Fin.getElem_fin, v])

theorem State.tensionReading_worked (n : Fin 32) (s : State) (r : Byte × Half) :
    Worked .units s (State.tensionReading n s r) := by
  unfold State.tensionReading
  split
  · exact (s.evaluateSample_worked _ _).trans (Worked.oneCoupling _ _ _ (by decide) rfl
      (fun _ => ⟨rfl, rfl, rfl, rfl, Iff.rfl⟩) fun m => absurd m (by decide))
  · exact Worked.refl _ s

theorem State.couplingUnheard_worked (s : State) (c : Fin 48) :
    Worked .units s (s.couplingUnheard c) := by
  have h : Worked .units s (s.modCoupling c fun k => { k with sampleAt := none }) :=
    Worked.oneCoupling _ _ _ (by decide) rfl (fun _ => ⟨rfl, rfl, rfl, rfl, Iff.rfl⟩)
      fun m => absurd m (by decide)
  have g : ((s.modCoupling c fun k => { k with sampleAt := none }).tow.couplings[c]).state =
      s.tow.couplings[c].state := by
    rw [State.modCoupling_coupling, if_pos rfl]
  unfold State.couplingUnheard
  dsimp only
  split
  case h_7 => exact h
  case h_5 e =>
    exact h.trans (State.prior_worked _ c _ .silent (fun _ => ⟨rfl, rfl, rfl, rfl, rfl⟩)
      ((Coupling.working_iff _).2 (.inl (g.trans e))) fun _ => rfl)
  case h_6 e =>
    exact h.trans (State.prior_worked _ c _ .silent (fun _ => ⟨rfl, rfl, rfl, rfl, rfl⟩)
      ((Coupling.working_iff _).2 (.inr (g.trans e))) fun _ => rfl)
  all_goals
    next e =>
      refine h.trans (State.moveCoupling_worked _ c _ _ ?_ ⟨by decide, by decide⟩)
      simp only [Coupling.working, g, e]
      rfl

theorem State.couplingsFollow_worked (s : State) (n : Fin 32) :
    Worked .units s (s.couplingsFollow n) := by
  unfold State.couplingsFollow
  split
  · exact Worked.refl _ s
  · refine Worked.foldl _ (fun s c => ?_) _ s
    split
    · exact s.couplingUnheard_worked c
    · exact Worked.refl _ s

theorem State.winchReport_worked (s : State) (n : Fin 32) (w : WinchCondition) :
    Worked .units s (s.winchReport n w) := by
  unfold State.winchReport
  split
  · dsimp only
    split
    · split
      · exact Worked.refl _ s
      · split
        · next h => exact s.partWork_worked _ ((Coupling.working_iff _).2 h)
        · next h =>
          refine s.moveCoupling_worked _ _ _ ?_ ⟨by decide, by decide⟩
          cases a : Coupling.working _ with
          | false => rfl
          | true => exact absurd ((Coupling.working_iff _).1 a) h
    · split
      · next h => exact s.releaseDone_worked _ ((Coupling.working_iff _).2 (.inl h.1))
      · exact Worked.refl _ s
    · exact Worked.refl _ s
  · exact Worked.refl _ s

end Sys2Proof.Machine
end

