-- ==== Sys2Proof/Laws/Books.lean ====
section
/-! SUPPORT. Laws/Books.lean: what the fuel accounting unit's bookings and readings can do. -/

namespace Sys2Proof.Machine

theorem State.signed48_worked (s : State) (v : Int) : Worked .fuel s (s.signed48 v).2 := by
  unfold State.signed48
  split
  · exact Worked.refl _ s
  · exact Worked.fuel s s.fuel _ (by decide) (fun _ => rfl) (fun _ => ⟨rfl, rfl⟩) rfl

theorem State.unsigned48_worked (s : State) (v : Nat) : Worked .fuel s (s.unsigned48 v).2 := by
  unfold State.unsigned48
  split
  · exact Worked.refl _ s
  · exact Worked.fuel s s.fuel _ (by decide) (fun _ => rfl) (fun _ => ⟨rfl, rfl⟩) rfl

/-- A change of one tank that keeps its entry and base. -/
theorem State.modTank_worked (s : State) (t : Fin 8) (f : Tank → Tank)
    (e : ∀ k, (f k).entry = k.entry ∧ (f k).base = k.base) : Worked .fuel s (s.modTank t f) := by
  refine Worked.fuel s _ s.free (by decide) (fun _ => rfl) (fun i => ?_) rfl
  dsimp only
  rw [modTable_get]
  split
  · next h => rw [← h]; exact e _
  · exact ⟨rfl, rfl⟩

/-- A change of one meter that keeps its entry. -/
theorem State.modMeter_worked (s : State) (i : Fin 16) (f : Meter → Meter)
    (e : ∀ m, (f m).entry = m.entry) : Worked .fuel s (s.modMeter i f) := by
  refine Worked.fuel s _ s.free (by decide) (fun j => ?_) (fun _ => ⟨rfl, rfl⟩) rfl
  dsimp only
  rw [modTable_get]
  split
  · next h => rw [← h]; exact e _
  · rfl

theorem State.testLow_worked (s : State) (t : Fin 8) : Worked .fuel s (s.testLow t) := by
  unfold State.testLow
  dsimp only
  split
  · exact Worked.refl _ s
  · refine Worked.trans ?_ (State.recompute_worked _).mono
    have h := s.modTank_worked t (fun k => { k with low := s.fuel.tanks[t].isLow })
      fun _ => ⟨rfl, rfl⟩
    split
    · exact h.trans (State.latch_worked _ _ _ _)
    · exact h

theorem State.testDiscrepant_worked (s : State) (t : Fin 8) : Worked .fuel s (s.testDiscrepant t) := by
  have h := s.modTank_worked t (fun k => { k with discrepant := s.fuel.tanks[t].isDiscrepant })
    fun _ => ⟨rfl, rfl⟩
  unfold State.testDiscrepant
  dsimp only
  split
  · exact h.trans (State.latch_worked _ _ _ _)
  · exact h

theorem State.deduct_worked (s : State) (t : Fin 8) (d : Nat) : Worked .fuel s (s.deduct t d) := by
  have h := ((s.unsigned48_worked (s.fuel.tanks[t].deductions + d)).trans
    (State.unsigned48_worked _ (s.fuel.tanks[t].shortfall + (d - s.fuel.tanks[t].quantity)))).trans
      (State.modTank_worked _ t (fun k => { k with
        deductions := (s.unsigned48 (s.fuel.tanks[t].deductions + d)).1
        shortfall := ((s.unsigned48 (s.fuel.tanks[t].deductions + d)).2.unsigned48
          (s.fuel.tanks[t].shortfall + (d - s.fuel.tanks[t].quantity))).1
        quantity := s.fuel.tanks[t].quantity - d }) fun _ => ⟨rfl, rfl⟩)
  unfold State.deduct
  dsimp only
  split
  · exact h
  · exact h.trans (State.testLow_worked _ t)

theorem State.addFuel_worked (s : State) (t : Fin 8) (a : Nat) : Worked .fuel s (s.addFuel t a) := by
  have h := ((s.unsigned48_worked (s.fuel.tanks[t].additions + a)).trans
    (State.unsigned48_worked _ (s.fuel.tanks[t].overflow +
      (s.fuel.tanks[t].quantity + a - s.fuel.tanks[t].entry.capacity)))).trans
      (State.modTank_worked _ t (fun k => { k with
        additions := (s.unsigned48 (s.fuel.tanks[t].additions + a)).1
        overflow := ((s.unsigned48 (s.fuel.tanks[t].additions + a)).2.unsigned48
          (s.fuel.tanks[t].overflow +
            (s.fuel.tanks[t].quantity + a - s.fuel.tanks[t].entry.capacity))).1
        quantity := min (s.fuel.tanks[t].quantity + a) s.fuel.tanks[t].entry.capacity })
        fun _ => ⟨rfl, rfl⟩)
  unfold State.addFuel
  dsimp only
  split
  · exact h
  · exact h.trans (State.testLow_worked _ t)

theorem State.takeFuel_worked (s : State) (t : Fin 8) (a : Int) : Worked .fuel s (s.takeFuel t a) := by
  unfold State.takeFuel
  split
  · exact s.deduct_worked t _
  · exact s.addFuel_worked t _

theorem State.testReserve_worked (s : State) : Worked .fuel s s.testReserve := by
  unfold State.testReserve
  dsimp only
  split
  · exact Worked.refl _ s
  · refine Worked.trans ?_ (State.recompute_worked _).mono
    have h : Worked .fuel s
        { s with fuel := { s.fuel with leg := { s.fuel.leg with reserve := s.fuel.leg.holds } } } :=
      Worked.fuel s _ s.free (by decide) (fun _ => rfl) (fun _ => ⟨rfl, rfl⟩) rfl
    split
    · exact h.trans (State.latch_worked _ _ _ _)
    · exact h

theorem State.burn_worked (s : State) (e : Fin 6) (a : Int) : Worked .fuel s (s.burn e a) := by
  unfold State.burn
  dsimp only
  refine Worked.trans ?_ (State.testReserve_worked _)
  refine Worked.trans (((s.signed48_worked (s.fuel.accounts[e].total + a)).trans
    (State.signed48_worked _ (s.fuel.accounts[e].leg + a))).trans
      (State.signed48_worked _ (s.fuel.leg.consumed + a))) ?_
  exact Worked.fuel _ _ _ (by decide) (fun _ => rfl) (fun _ => ⟨rfl, rfl⟩) rfl

theorem State.takeService_worked (s : State) (e : Fin 6) (a : Int) :
    Worked .fuel s (s.takeService e a) := by
  unfold State.takeService
  split
  · exact s.takeFuel_worked _ a
  · exact Worked.refl _ s

theorem State.bunker_worked (s : State) (t : Fin 8) (a : Int) : Worked .fuel s (s.bunker t a) :=
  ((s.takeFuel_worked t (-a)).trans (State.signed48_worked _ _)).trans
    (State.modTank_worked _ t _ fun _ => ⟨rfl, rfl⟩)

/-- All that a booking can do (R107). -/
theorem State.book_worked (s : State) (m : MeterEntry) (a : Int) : Worked .fuel s (s.book m a) := by
  unfold State.book
  split
  · exact Worked.refl _ s
  · split
    · split
      · exact (s.burn_worked _ _).trans (State.takeService_worked _ _ _)
      · exact Worked.refl _ s
    · split
      · exact (s.burn_worked _ _).trans (State.takeService_worked _ _ _)
      · exact Worked.refl _ s
    · split
      · exact (s.takeFuel_worked _ _).trans (State.takeFuel_worked _ _ _)
      · exact Worked.refl _ s
    · split
      · exact s.bunker_worked _ _
      · exact Worked.refl _ s

theorem State.flowReading_worked (n : Fin 32) (s : State) (r : Byte × Quad) :
    Worked .fuel s (State.flowReading n s r) := by
  unfold State.flowReading
  split
  · dsimp only
    split
    · exact Worked.refl _ s
    · split
      · exact s.modMeter_worked _ _ fun _ => rfl
      · split
        · refine Worked.trans ?_ (State.latch_worked _ _ _ _)
          exact s.modMeter_worked _ _ fun _ => rfl
        · exact (s.book_worked _ _).trans (State.modMeter_worked _ _ _ fun _ => rfl)
  · exact Worked.refl _ s

theorem State.startEstimating_worked (s : State) (i : Fin 16) :
    Worked .fuel s (s.startEstimating i) := by
  refine Worked.trans ?_ (State.latch_worked _ _ _ _)
  exact s.modMeter_worked _ _ fun _ => rfl

theorem State.tick_worked (s : State) (i : Fin 16) : Worked .fuel s (s.tick i) :=
  (s.book_worked _ _).trans (State.modMeter_worked _ _ _ fun _ => rfl)

theorem State.metersFollow_worked (s : State) (n : Fin 32) : Worked .fuel s (s.metersFollow n) := by
  unfold State.metersFollow
  split
  · exact Worked.refl _ s
  · refine Worked.foldl _ (fun s i => ?_) _ s
    split
    · exact s.startEstimating_worked i
    · exact Worked.refl _ s

theorem State.levelReading_worked (n : Fin 32) (s : State) (r : Byte × Quad) :
    Worked .fuel s (State.levelReading n s r) := by
  unfold State.levelReading
  split
  · refine Worked.trans ?_ (State.testDiscrepant_worked _ _)
    exact s.modTank_worked _ _ fun _ => ⟨rfl, rfl⟩
  · exact Worked.refl _ s

end Sys2Proof.Machine
end

