-- ==== Sys2Proof/Laws/Nodes.lean ====
section
/-! SUPPORT. Laws/Nodes.lean: what the roster's operations and the delivery of a frame can do. -/

namespace Sys2Proof.Machine

theorem State.handOver_worked (s : State) (n : Fin 32) : Worked .fuel s (s.handOver n) :=
  (((s.engineFollows_worked n).mono.trans (State.actuatorFollows_worked _ n).mono).trans
    (State.couplingsFollow_worked _ n).mono).trans (State.metersFollow_worked _ n)

/-- A change of a node that keeps its written fields. -/
theorem State.modNode_worked (s : State) (n : Fin 32) (f : Node → Node)
    (e : ∀ y, (f y).entry = y.entry) : Worked .roster s (s.modNode n f) :=
  Worked.node s n f (by decide) e

theorem State.hear_worked (s : State) (n : Fin 32) : Worked .roster s (s.hear n) := by
  unfold State.hear
  split
  · exact s.modNode_worked n _ fun _ => rfl
  · refine Worked.trans ?_ (State.handOver_worked _ n).mono
    exact s.modNode_worked n _ fun _ => rfl
  · exact Worked.refl _ s

theorem State.heard_worked (s : State) (p : Port) (a : Byte) : Worked .roster s (s.heard p a) := by
  unfold State.heard
  split
  · exact s.hear_worked _
  · exact Worked.refl _ s

theorem State.enrolNode_worked (s : State) (n : Fin 32) : Worked .roster s (s.enrolNode n) := by
  unfold State.enrolNode
  split
  · exact Worked.refl _ s
  · refine Worked.trans ?_ (State.latch_worked _ _ _ _)
    exact s.modNode_worked n _ fun _ => rfl
  · refine Worked.trans (Worked.trans ?_ (State.latch_worked _ _ _ _)) (State.handOver_worked _ n).mono
    exact s.modNode_worked n _ fun _ => rfl
  · refine Worked.trans (Worked.trans ?_ (State.latch_worked _ _ _ _)) (State.handOver_worked _ n).mono
    exact s.modNode_worked n _ fun _ => rfl

theorem State.enrolMismatch_worked (s : State) (n : Fin 32) : Worked .roster s (s.enrolMismatch n) := by
  unfold State.enrolMismatch
  refine Worked.trans ?_ (State.latch_worked _ _ _ _)
  split
  · exact s.modNode_worked n _ fun _ => rfl
  · exact Worked.refl _ s

theorem State.takeEnrol_worked (s : State) (p : Port) (a : Byte) (b : List Byte) :
    Worked .roster s (s.takeEnrol p a b) := by
  unfold State.takeEnrol
  split
  · split
    · exact s.enrolNode_worked _
    · exact s.enrolMismatch_worked _
  · exact Worked.refl _ s

theorem State.silenceNode_worked (s : State) (n : Fin 32) : Worked .roster s (s.silenceNode n) :=
  s.modNode_worked n _ fun _ => rfl

theorem State.nodeSilent_worked (s : State) (n : Fin 32) : Worked .roster s (s.nodeSilent n) :=
  ((s.silenceNode_worked n).trans (State.latch_worked _ _ _ _)).trans (State.handOver_worked _ n).mono

theorem State.silencePort_worked (s : State) (p : Port) : Worked .roster s (s.silencePort p) :=
  (Worked.foldl _ State.silenceNode_worked _ s).trans
    (Worked.foldl _ (fun s _ => (s.latch_worked _ _ _).trans (State.handOver_worked _ _).mono) _ _)

theorem State.failNode_worked (s : State) (n : Fin 32) : Worked .roster s (s.failNode n) := by
  unfold State.failNode
  dsimp only
  refine Worked.trans ?_ (State.handOver_worked _ n).mono
  have h : Worked .roster s ((s.modNode n fun x =>
      { x with state := .failed, silenceAt := none, refreshAt := none }).latch .nodeFailed
        (subjectOf n)) := by
    refine Worked.trans ?_ (State.latch_worked _ _ _ _)
    exact s.modNode_worked n _ fun _ => rfl
  split
  · exact (h.trans (State.endSlot_slotted _ _).worked.mono).trans (State.slotLost_worked _ _).mono
  · exact h

theorem State.refresh_worked (s : State) (n : Fin 32) : Worked .propulsion s (s.refresh n) := by
  have h : ∀ i : Fin 6, Worked .propulsion s
      (if s.prop.engines[i].state = .absent then s else s.placeSetpoint i) := by
    intro i
    split
    · exact Worked.refl _ s
    · exact s.placeSetpoint_worked _
  have k : ∀ (u : State) (i : Fin 5), Worked .propulsion u
      (if u.steer.actuators[i].state = .absent then u else u.placeOrdered i) := by
    intro u i
    split
    · exact Worked.refl _ u
    · exact u.placeOrdered_worked _
  unfold State.refresh
  cases s.engineOf n with
  | some i =>
    dsimp only
    split
    · exact (h i).trans (k _ _)
    · exact h i
  | none =>
    dsimp only
    split
    · exact k _ _
    · exact Worked.refl _ s

/-- A node whose one slot in flight has ended has nothing in flight. -/
theorem State.endSlot_idle {s : State} {i : Fin 16} (h : s.SlotsSound)
    (f : s.trans.slots[i].inFlight = true) : (s.endSlot i).idle? s.trans.slots[i].target := by
  intro j a
  have g : (s.endSlot i).trans.slots[j] =
      if i = j then { s.trans.slots[j] with state := .free, ackAt := none } else s.trans.slots[j] :=
    State.modSlot_slot s i j _
  rw [g] at a ⊢
  split at a
  · simp [-Fin.getElem_fin, Slot.inFlight] at a
  · next n =>
    rw [if_neg n]
    exact fun e => n (h.oneFlight i j f a e.symm)

/-- What the end of a slot in flight leaves to be done keeps the slots sound. -/
theorem State.slotTimeout_slots {s : State} {i : Fin 16} (h : s.SlotsSound)
    (f : s.trans.slots[i].inFlight = true) : (s.slotTimeout i).SlotsSound := by
  have w : Worked .roster s (((s.endSlot i).modNode s.trans.slots[i].target fun n =>
      { n with timeouts := n.timeouts + 1 }).orderEnded s.trans.slots[i]) := by
    refine Worked.trans (Worked.trans (State.endSlot_slotted s i).worked.mono ?_)
      (State.orderEnded_worked _ _).mono
    exact State.modNode_worked _ _ _ fun _ => rfl
  have d : State.idle? (((s.endSlot i).modNode s.trans.slots[i].target fun n =>
      { n with timeouts := n.timeouts + 1 }).orderEnded s.trans.slots[i]) s.trans.slots[i].target :=
    (State.orderEnded_worked _ _).idle _ (State.endSlot_idle h f)
  unfold State.slotTimeout
  dsimp only
  split
  · exact (State.failNode_worked _ _).slots (w.slots h)
  · exact (State.wakeSlot_slotted _ _ d).sound (w.slots h)

/-- A job's reading of a frame (chapter 8). -/
theorem State.jobReads_worked (s : State) (j : Job) (n : Fin 32) (c : Content) :
    Worked .fuel s (s.jobReads j n c) := by
  unfold State.jobReads
  split
  · exact (s.engineReport_worked _ _ _ _).mono
  · exact (s.actuatorReport_worked _ _ _).mono
  · exact (Worked.foldl _ (State.tensionReading_worked n) _ s).mono
  · exact (s.winchReport_worked _ _).mono
  · exact Worked.foldl _ (State.flowReading_worked n) _ s
  · exact Worked.foldl _ (State.levelReading_worked n) _ s
  · exact Worked.refl _ s

theorem State.deliver_worked (s : State) (p : Port) (a : Byte) (c : Content) (j : Job) :
    Worked .fuel s (s.deliver p a c j) := by
  unfold State.deliver
  split
  · exact s.jobReads_worked _ _ _
  · exact Worked.refl _ s

/-- No node is on port W. -/
theorem State.nodeOf_W (s : State) (a : Byte) : s.nodeOf .W a = none := by
  cases h : s.nodeOf .W a with
  | none => rfl
  | some n =>
    have := findTable_meets h
    simp only [Bool.and_eq_true, decide_eq_true_eq] at this
    cases e : s.nodes[n].entry.port <;> rw [e] at this <;> exact absurd this.1.2 (by decide)

/-- A frame end on port W: the roster reads nothing there. -/
theorem State.arrive_W (s : State) (a : Byte) : s.arrive .W a = s.frameEnd .W := by
  unfold State.arrive State.heard
  rw [State.nodeOf_W]

end Sys2Proof.Machine
end

