-- ==== Sys2Proof/Laws/Carried.lean ====
section
/-! SUPPORT. Laws/Carried.lean: what the change a command makes carries over. `Carried x s t` lists, for the
change from `s` to `t`, every held field that no more than a few commands write and every property that each
step keeps; `x` names the fields that this command may write. One lemma for each kind of change, from which those
of the commands can be put together. -/

namespace Sys2Proof.Machine

/-- A group of fields that only a few commands write. -/
inductive Clause where
  | stations | roster | passage | defaults | modes | engines | actuators | couplings | tanks | meters | map
  | power | rudder | mode | command | own | allocation | master | list
deriving DecidableEq, Repr

/-- What a change carries over, but for the groups `x`. -/
structure Carried (x : List Clause) (s t : State) : Prop where
  pending : t.pending = s.pending
  now : s.now ≤ t.now
  stations : .stations ∉ x → t.helm.stations = s.helm.stations
  roster : .roster ∉ x → ∀ n : Fin 32, t.nodes[n].entry = s.nodes[n].entry
  passage : .passage ∉ x → t.fwd.passage = s.fwd.passage
  defaults : .defaults ∉ x → t.fwd.defaults = s.fwd.defaults
  modes : .modes ∉ x → t.helm.modes = s.helm.modes
  engines : .engines ∉ x → ∀ i : Fin 6, t.prop.engines[i].entry = s.prop.engines[i].entry
  actuators : .actuators ∉ x → ∀ i : Fin 5, t.steer.actuators[i].entry = s.steer.actuators[i].entry
  couplings : .couplings ∉ x → ∀ c : Fin 48, t.tow.couplings[c].entry = s.tow.couplings[c].entry
  tanks : .tanks ∉ x → ∀ i : Fin 8, t.fuel.tanks[i].entry = s.fuel.tanks[i].entry
  meters : .meters ∉ x → ∀ i : Fin 16, t.fuel.meters[i].entry = s.fuel.meters[i].entry
  map : .map ∉ x → t.notices.map = s.notices.map
  power : .power ∉ x → t.prop.power = s.prop.power ∧ t.prop.diffMode = s.prop.diffMode ∧
    t.prop.fixedDiff = s.prop.fixedDiff
  rudder : .rudder ∉ x → t.steer.rudder = s.steer.rudder ∧ t.steer.bowMode = s.steer.bowMode ∧
    t.steer.bowDemand = s.steer.bowDemand
  mode : .mode ∉ x → t.helm.mode = s.helm.mode ∧ t.helm.helm = s.helm.helm ∧
    t.helm.remembered = s.helm.remembered
  command : .command ∉ x → t.helm.command = s.helm.command
  own : .own ∉ x → t.link.own = s.link.own
  allocation : .allocation ∉ x → t.fwd.reserved = s.fwd.reserved ∧ t.fwd.pool = s.fwd.pool ∧
    t.fwd.pendingDecrease = s.fwd.pendingDecrease
  master : .master ∉ x → t.notices.master = s.notices.master
  list : .list ∉ x → s.notices.list <+: t.notices.list
  allocated : s.fwd.Allocated → t.fwd.Allocated
  answers : s.fwd.AnswersFit → t.fwd.AnswersFit
  fits : s.notices.Fits → t.notices.Fits
  helm : s.HelmSound → t.HelmSound
  slots : s.SlotsSound → t.SlotsSound
  tow : s.tow.Sound → t.tow.Sound

theorem Carried.refl (x : List Clause) (s : State) : Carried x s s where
  pending := rfl
  now := le_rfl
  stations _ := rfl
  roster _ _ := rfl
  passage _ := rfl
  defaults _ := rfl
  modes _ := rfl
  engines _ _ := rfl
  actuators _ _ := rfl
  couplings _ _ := rfl
  tanks _ _ := rfl
  meters _ _ := rfl
  map _ := rfl
  power _ := ⟨rfl, rfl, rfl⟩
  rudder _ := ⟨rfl, rfl, rfl⟩
  mode _ := ⟨rfl, rfl, rfl⟩
  command _ := rfl
  own _ := rfl
  allocation _ := ⟨rfl, rfl, rfl⟩
  master _ := rfl
  list _ := List.prefix_rfl
  allocated := id
  answers := id
  fits := id
  helm := id
  slots := id
  tow := id

theorem Carried.trans {x : List Clause} {s t u : State} (h : Carried x s t) (k : Carried x t u) :
    Carried x s u where
  pending := k.pending.trans h.pending
  now := h.now.trans k.now
  stations m := (k.stations m).trans (h.stations m)
  roster m n := (k.roster m n).trans (h.roster m n)
  passage m := (k.passage m).trans (h.passage m)
  defaults m := (k.defaults m).trans (h.defaults m)
  modes m := (k.modes m).trans (h.modes m)
  engines m n := (k.engines m n).trans (h.engines m n)
  actuators m n := (k.actuators m n).trans (h.actuators m n)
  couplings m n := (k.couplings m n).trans (h.couplings m n)
  tanks m n := (k.tanks m n).trans (h.tanks m n)
  meters m n := (k.meters m n).trans (h.meters m n)
  map m := (k.map m).trans (h.map m)
  power m := ⟨(k.power m).1.trans (h.power m).1, (k.power m).2.1.trans (h.power m).2.1,
    (k.power m).2.2.trans (h.power m).2.2⟩
  rudder m := ⟨(k.rudder m).1.trans (h.rudder m).1, (k.rudder m).2.1.trans (h.rudder m).2.1,
    (k.rudder m).2.2.trans (h.rudder m).2.2⟩
  mode m := ⟨(k.mode m).1.trans (h.mode m).1, (k.mode m).2.1.trans (h.mode m).2.1,
    (k.mode m).2.2.trans (h.mode m).2.2⟩
  command m := (k.command m).trans (h.command m)
  own m := (k.own m).trans (h.own m)
  allocation m := ⟨(k.allocation m).1.trans (h.allocation m).1,
    (k.allocation m).2.1.trans (h.allocation m).2.1, (k.allocation m).2.2.trans (h.allocation m).2.2⟩
  master m := (k.master m).trans (h.master m)
  list m := (h.list m).trans (k.list m)
  allocated := k.allocated ∘ h.allocated
  answers := k.answers ∘ h.answers
  fits := k.fits ∘ h.fits
  helm := k.helm ∘ h.helm
  slots := k.slots ∘ h.slots
  tow := k.tow ∘ h.tow

/-- A change that may write fewer groups. -/
theorem Carried.mono {x y : List Clause} {s t : State} (h : Carried x s t) (l : x ⊆ y) :
    Carried y s t where
  pending := h.pending
  now := h.now
  stations m := h.stations (mt (@l _) m)
  roster m := h.roster (mt (@l _) m)
  passage m := h.passage (mt (@l _) m)
  defaults m := h.defaults (mt (@l _) m)
  modes m := h.modes (mt (@l _) m)
  engines m := h.engines (mt (@l _) m)
  actuators m := h.actuators (mt (@l _) m)
  couplings m := h.couplings (mt (@l _) m)
  tanks m := h.tanks (mt (@l _) m)
  meters m := h.meters (mt (@l _) m)
  map m := h.map (mt (@l _) m)
  power m := h.power (mt (@l _) m)
  rudder m := h.rudder (mt (@l _) m)
  mode m := h.mode (mt (@l _) m)
  command m := h.command (mt (@l _) m)
  own m := h.own (mt (@l _) m)
  allocation m := h.allocation (mt (@l _) m)
  master m := h.master (mt (@l _) m)
  list m := h.list (mt (@l _) m)
  allocated := h.allocated
  answers := h.answers
  fits := h.fits
  helm := h.helm
  slots := h.slots
  tow := h.tow

theorem State.guardActive_congr {s t : State} (e : t.helm = s.helm) : t.guardActive = s.guardActive :=
  congrArg (fun h : HelmUnit =>
    decide (0 < h.modes[h.mode].guardPeriod) && !decide (h.mode = 0) && decide (h.helm = .normal)) e

/-- The helm record is as sound where it and the own address are the same. -/
theorem State.HelmSound.congr {s t : State} (h : s.HelmSound) (e : t.helm = s.helm)
    (o : t.link.own = s.link.own) : t.HelmSound := by
  have g := State.guardActive_congr e
  exact ⟨by rw [e]; exact h.remembered, by rw [e]; exact h.mode, by rw [e]; exact h.ordinary,
    by rw [g, e]; exact h.guard, by rw [e]; exact h.command, by rw [e]; exact h.underway,
    by rw [e]; exact h.distinct, by rw [e, o]; exact h.own⟩

/-- A block's own work carries everything over. -/
theorem Worked.carried {x : Level} {s t : State} (h : Worked x s t) : Carried [] s t where
  pending := h.within.pending
  now := h.within.now.ge
  stations _ := by rw [h.within.written.helm]
  roster _ := h.within.written.nodes
  passage _ := h.within.written.passage
  defaults _ := h.within.written.defaults
  modes _ := by rw [h.within.written.helm]
  engines _ := h.within.written.engines
  actuators _ := h.within.written.actuators
  couplings _ := h.within.written.couplings
  tanks _ := h.within.written.tanks
  meters _ := h.within.written.meters
  map _ := h.within.written.map
  power _ := ⟨h.within.written.power, h.within.written.diffMode, h.within.written.fixedDiff⟩
  rudder _ := ⟨h.within.written.rudder, h.within.written.bowMode, h.within.written.bowDemand⟩
  mode _ := by rw [h.within.written.helm]; exact ⟨rfl, rfl, rfl⟩
  command _ := by rw [h.within.written.helm]
  own _ := by rw [h.within.link]
  allocation _ := h.within.allocation
  master _ := h.within.written.master
  list _ := h.within.list
  allocated := h.allocated
  answers a := by unfold Forwarding.AnswersFit; rw [h.within.answers]; exact a
  fits := h.fits
  helm a := a.congr h.within.written.helm (by rw [h.within.link])
  slots := h.slots
  tow := h.tow

theorem Worked.carries {x : Level} {s t : State} (h : Worked x s t) (y : List Clause) : Carried y s t :=
  h.carried.mono (List.nil_subset y)

/-! ### Changes of single blocks -/

/-- A change of the line records of the ports. -/
theorem State.modLine_carried (s : State) (p : Port) (f : Line → Line) :
    Carried [] s (s.modLine p f) := by
  have z := State.slots_of_same (s := s) (t := s.modLine p f) rfl rfl
  exact { Carried.refl [] s with helm := fun a => a.congr rfl rfl, slots := z.1 }

theorem State.frameEnd_carried (s : State) (p : Port) : Carried [] s (s.frameEnd p) :=
  s.modLine_carried p _

theorem State.reach_carried (s : State) (n : Nat) : Carried [] s (s.reach n) := by
  have z := State.slots_of_same (s := s) (t := s.reach n) rfl rfl
  exact { Carried.refl [] s with
    now := le_max_left _ _, helm := fun a => a.congr rfl rfl, slots := z.1 }

/-- An answer or reply placed where the lane has room. -/
theorem State.placeAnswer_carried (s : State) (f : Frame) (r : s.fwd.answers.length < 4) :
    Carried [] s (s.placeAnswer f) := by
  have z := State.slots_of_same (s := s) (t := s.placeAnswer f) rfl rfl
  refine { Carried.refl [] s with
    allocated := fun a => ⟨a.total, a.reserved, a.pool, a.decreases, a.inUse⟩
    answers := fun _ => ?_, helm := fun a => a.congr rfl rfl, slots := z.1 }
  show (s.fwd.answers ++ [f]).length ≤ 4
  rw [List.length_append]
  show _ + 1 ≤ 4
  omega

/-- A change of the helm record alone that keeps it sound. -/
theorem Carried.ofHelm (x : List Clause) (s : State) (f : HelmUnit → HelmUnit)
    (a : .stations ∉ x → (f s.helm).stations = s.helm.stations)
    (b : .modes ∉ x → (f s.helm).modes = s.helm.modes)
    (c : .mode ∉ x → (f s.helm).mode = s.helm.mode ∧ (f s.helm).helm = s.helm.helm ∧
      (f s.helm).remembered = s.helm.remembered)
    (d : .command ∉ x → (f s.helm).command = s.helm.command)
    (h : s.HelmSound → (s.modHelm f).HelmSound) : Carried x s (s.modHelm f) := by
  have z := State.slots_of_same (s := s) (t := s.modHelm f) rfl rfl
  exact { Carried.refl x s with
    stations := a, modes := b, mode := c, command := d, helm := h, slots := z.1 }

/-- A change of the forwarding record alone. -/
theorem Carried.ofForwarding (x : List Clause) (s : State) (f : Forwarding)
    (a : .passage ∉ x → f.passage = s.fwd.passage)
    (b : .defaults ∉ x → f.defaults = s.fwd.defaults)
    (c : .allocation ∉ x → f.reserved = s.fwd.reserved ∧ f.pool = s.fwd.pool ∧
      f.pendingDecrease = s.fwd.pendingDecrease)
    (d : s.fwd.Allocated → f.Allocated) (e : s.fwd.AnswersFit → f.AnswersFit) :
    Carried x s { s with fwd := f } := by
  have z := State.slots_of_same (s := s) (t := { s with fwd := f }) rfl rfl
  exact { Carried.refl x s with
    passage := a, defaults := b, allocation := c, allocated := d, answers := e
    helm := fun k => k.congr rfl rfl, slots := z.1 }

/-- A change of the notice unit alone. -/
theorem Carried.ofNotices (x : List Clause) (s : State) (u : NoticeUnit)
    (a : .map ∉ x → u.map = s.notices.map) (b : .master ∉ x → u.master = s.notices.master)
    (c : .list ∉ x → s.notices.list <+: u.list) (d : s.notices.Fits → u.Fits) :
    Carried x s { s with notices := u } := by
  have z := State.slots_of_same (s := s) (t := { s with notices := u }) rfl rfl
  exact { Carried.refl x s with
    map := a, master := b, list := c, fits := d, helm := fun k => k.congr rfl rfl, slots := z.1 }

/-- A change of the fuel unit alone. -/
theorem Carried.ofFuel (x : List Clause) (s : State) (q : Fuel)
    (a : .tanks ∉ x → ∀ i : Fin 8, q.tanks[i].entry = s.fuel.tanks[i].entry)
    (b : .meters ∉ x → ∀ i : Fin 16, q.meters[i].entry = s.fuel.meters[i].entry) :
    Carried x s { s with fuel := q } := by
  have z := State.slots_of_same (s := s) (t := { s with fuel := q }) rfl rfl
  exact { Carried.refl x s with
    tanks := a, meters := b, helm := fun k => k.congr rfl rfl, slots := z.1 }

/-- A change of the propulsion coordinator alone. -/
theorem Carried.ofProp (x : List Clause) (s : State) (q : Propulsion)
    (a : .engines ∉ x → ∀ i : Fin 6, q.engines[i].entry = s.prop.engines[i].entry)
    (b : .power ∉ x → q.power = s.prop.power ∧ q.diffMode = s.prop.diffMode ∧
      q.fixedDiff = s.prop.fixedDiff) : Carried x s { s with prop := q } := by
  have z := State.slots_of_same (s := s) (t := { s with prop := q }) rfl rfl
  exact { Carried.refl x s with
    engines := a, power := b, helm := fun k => k.congr rfl rfl, slots := z.1 }

/-- A change of the steering coordinator alone. -/
theorem Carried.ofSteer (x : List Clause) (s : State) (q : Steering)
    (a : .actuators ∉ x → ∀ i : Fin 5, q.actuators[i].entry = s.steer.actuators[i].entry)
    (b : .rudder ∉ x → q.rudder = s.steer.rudder ∧ q.bowMode = s.steer.bowMode ∧
      q.bowDemand = s.steer.bowDemand) : Carried x s { s with steer := q } := by
  have z := State.slots_of_same (s := s) (t := { s with steer := q }) rfl rfl
  exact { Carried.refl x s with
    actuators := a, rudder := b, helm := fun k => k.congr rfl rfl, slots := z.1 }

/-- A change of the coupling supervisor alone. -/
theorem Carried.ofTow (x : List Clause) (s : State) (q : Tow)
    (a : .couplings ∉ x → ∀ c : Fin 48, q.couplings[c].entry = s.tow.couplings[c].entry)
    (b : s.tow.Sound → q.Sound) : Carried x s { s with tow := q } := by
  have z := State.slots_of_same (s := s) (t := { s with tow := q }) rfl rfl
  exact { Carried.refl x s with
    couplings := a, tow := b, helm := fun k => k.congr rfl rfl, slots := z.1 }

/-- A change of the nodes, the slots and their lanes alone. -/
theorem Carried.ofSlots (x : List Clause) {s t : State}
    (e : t = { s with trans := t.trans, nodes := t.nodes })
    (a : .roster ∉ x → ∀ n : Fin 32, t.nodes[n].entry = s.nodes[n].entry)
    (b : s.SlotsSound → t.SlotsSound) : Carried x s t := by
  generalize t.trans = u at *
  generalize t.nodes = v at *
  subst e
  exact { Carried.refl x s with
    roster := a, helm := fun k => k.congr rfl rfl, slots := b }

/-! ### Orders and requests on port W -/

/-- A port that hears listens. -/
theorem State.hears_iff (s : State) (p : Port) : s.hears p = true ↔ s.listens p := by
  unfold State.hears State.listens
  exact Option.isNone_iff_eq_none

theorem State.room_of_laneFull {s : State} (h : ¬ s.laneFull = true) : s.fwd.answers.length < 4 := by
  unfold State.laneFull at h
  rw [decide_eq_true_iff] at h
  omega

/-- A frame's end carries over what its handling does; unheard, it changes nothing. -/
theorem State.receive_carried (x : List Clause) (s : State) (p : Port) (act : State → State)
    (h : s.listens p → Carried x s (act s)) : Carried x s (s.receive p act) := by
  unfold State.receive
  split
  · next e => exact h ((s.hears_iff p).1 e)
  · exact Carried.refl x s

/-- An order carries over what its decision does. -/
theorem State.order_carried (x : List Clause) (s : State) (o : Origin) (k : Byte)
    (act : State → State × Answer)
    (h : ∀ u : State, Carried x u (act u).1 ∧ (act u).1.fwd.answers = u.fwd.answers) :
    Carried x s (s.order o k act) := by
  have a : Carried x s (s.arrive .W o.src) := by
    rw [State.arrive_W]; exact (s.frameEnd_carried .W).mono (List.nil_subset x)
  refine s.receive_carried x .W _ fun _ => ?_
  dsimp only
  split
  · exact a
  · next r =>
    refine (a.trans (h _).1).trans ((State.placeAnswer_carried _ _ ?_).mono (List.nil_subset x))
    rw [(h _).2]
    exact State.room_of_laneFull r

/-- An order that requires command. -/
theorem State.commanded_carried (x : List Clause) (s : State) (o : Origin) (k : Byte)
    (act : State → State × Answer)
    (h : ∀ u : State, u.refusal o = none →
      Carried x u (act u).1 ∧ (act u).1.fwd.answers = u.fwd.answers) :
    Carried x s (s.commanded o k act) := by
  refine s.order_carried x o k _ fun u => ?_
  split
  · exact ⟨Carried.refl x u, rfl⟩
  · next r => exact h u r

/-- A request carries over what its handling does, where that places one reply. -/
theorem State.request_carried (x : List Clause) (s : State) (o : Origin) (act : State → State)
    (h : ∀ u : State, u.fwd.answers.length < 4 → Carried x u (act u)) : Carried x s (s.request o act) := by
  have a : Carried x s (s.arrive .W o.src) := by
    rw [State.arrive_W]; exact (s.frameEnd_carried .W).mono (List.nil_subset x)
  refine s.receive_carried x .W _ fun _ => ?_
  dsimp only
  split
  · exact a
  · next r => exact a.trans (h _ (State.room_of_laneFull r))

/-- The placing of a reply. -/
theorem State.reply_carried (x : List Clause) (s : State) (o : Origin) (c : Byte) (t : Status)
    (b : List Byte) (r : s.fwd.answers.length < 4) : Carried x s (s.reply o c t b) :=
  (s.placeAnswer_carried _ r).mono (List.nil_subset x)

/-- A table write carries over what its decision does. -/
theorem State.tableWrite_carried (x : List Clause) (s : State) (o : Origin) (k i : Byte)
    (act : State → State × Status)
    (h : ∀ u : State, Carried x u (act u).1 ∧ (act u).1.fwd.answers = u.fwd.answers) :
    Carried x s (s.tableWrite o k i act) := by
  refine s.request_carried x o _ fun u r => ?_
  refine (h u).1.trans (State.reply_carried x _ _ _ _ _ ?_)
  rw [(h u).2]
  exact r

end Sys2Proof.Machine
end

