-- ==== Sys2Proof/Laws/Arrival.lean ====
section
/-! SUPPORT. Laws/Arrival.lean: what the end of a good frame leaves, and what the shared operations of orders,
requests and table writes come to where the answer lane has room. -/

namespace Sys2Proof.Machine

/-! ### The end of a good frame -/

@[simp] theorem State.frameEnd_now (s : State) (p : Port) : (s.frameEnd p).now = s.now := rfl
@[simp] theorem State.frameEnd_helm (s : State) (p : Port) : (s.frameEnd p).helm = s.helm := rfl
@[simp] theorem State.frameEnd_prop (s : State) (p : Port) : (s.frameEnd p).prop = s.prop := rfl
@[simp] theorem State.frameEnd_steer (s : State) (p : Port) : (s.frameEnd p).steer = s.steer := rfl
@[simp] theorem State.frameEnd_tow (s : State) (p : Port) : (s.frameEnd p).tow = s.tow := rfl
@[simp] theorem State.frameEnd_fuel (s : State) (p : Port) : (s.frameEnd p).fuel = s.fuel := rfl
@[simp] theorem State.frameEnd_nodes (s : State) (p : Port) : (s.frameEnd p).nodes = s.nodes := rfl
@[simp] theorem State.frameEnd_trans (s : State) (p : Port) : (s.frameEnd p).trans = s.trans := rfl
@[simp] theorem State.frameEnd_fwd (s : State) (p : Port) : (s.frameEnd p).fwd = s.fwd := rfl
@[simp] theorem State.frameEnd_notices (s : State) (p : Port) : (s.frameEnd p).notices = s.notices := rfl
@[simp] theorem State.frameEnd_free (s : State) (p : Port) : (s.frameEnd p).free = s.free := rfl
@[simp] theorem State.frameEnd_pending (s : State) (p : Port) : (s.frameEnd p).pending = s.pending := rfl
@[simp] theorem State.frameEnd_profile (s : State) (p : Port) : (s.frameEnd p).profile = s.profile := rfl
@[simp] theorem State.frameEnd_moored (s : State) (p : Port) : (s.frameEnd p).moored = s.moored := rfl
@[simp] theorem State.frameEnd_own (s : State) (p : Port) : (s.frameEnd p).link.own = s.link.own := rfl

/-! ### Orders, requests and table writes with room in the answer lane -/

/-- The lane that has room is not full at the frame end. -/
theorem State.hasRoom.notFull {s : State} (h : s.hasRoom) (p : Port) : (s.frameEnd p).laneFull = false := by
  unfold State.laneFull; exact decide_eq_false (Nat.not_le.mpr h.2)

/-- A frame's end that is heard. -/
theorem State.receive_eq {s : State} {p : Port} (h : s.listens p) (act : State → State) : s.receive p act = act s :=
  if_pos ((s.hears_iff p).2 h)

/-- A frame's end at a port that is sending (R147, R153, R155). -/
theorem State.receive_deaf {s : State} {p : Port} (h : ¬ s.listens p) (act : State → State) : s.receive p act = s :=
  if_neg (mt (s.hears_iff p).1 h)

@[simp] theorem State.frameEnd_listens (s : State) (p q : Port) : (s.frameEnd p).listens q ↔ s.listens q := by
  cases p <;> cases q <;> rfl

/-- An order with room: what its handling answers (R6, R163). -/
theorem State.order_eq {s : State} (h : s.hasRoom) (o : Origin) (k : Byte) (act : State → State × Answer) :
    s.order o k act = ((act (s.frameEnd .W)).1.answer o k (act (s.frameEnd .W)).2) := by
  unfold State.order
  rw [State.receive_eq h.1]
  simp only [State.arrive_W, h.notFull]
  rfl

/-- A request with room is handled at its frame end (R163, R183). -/
theorem State.request_eq {s : State} (h : s.hasRoom) (o : Origin) (act : State → State) :
    s.request o act = act (s.frameEnd .W) := by
  unfold State.request
  rw [State.receive_eq h.1]
  simp only [State.arrive_W, h.notFull]
  rfl

/-- A table write with room draws the reply of its decision (R184). -/
theorem State.tableWrite_eq {s : State} (h : s.hasRoom) (o : Origin) (t i : Byte) (act : State → State × Status) :
    s.tableWrite o t i act = (act (s.frameEnd .W)).1.reply o 3 (act (s.frameEnd .W)).2 [t, i] := by
  unfold State.tableWrite
  rw [State.request_eq h]

/-- An order that requires command, with room: its refusal, or what its handling answers (R6). -/
theorem State.commanded_eq {s : State} (h : s.hasRoom) (o : Origin) (k : Byte) (act : State → State × Answer) :
    s.commanded o k act = match s.refusal o with
      | some a => (s.frameEnd .W).withAnswers (s.fwd.answers ++ [answerFrame s.link.own o k a.byte])
      | none => ((act (s.frameEnd .W)).1.answer o k (act (s.frameEnd .W)).2) := by
  unfold State.commanded
  rw [State.order_eq h]
  have e : (s.frameEnd .W).refusal o = s.refusal o := rfl
  rw [e]
  cases s.refusal o <;> rfl

/-- An answer placed is one frame more in the lane (R7). -/
theorem State.answer_eq (u : State) (o : Origin) (k : Byte) (a : Answer) :
    u.answer o k a = u.withAnswers (u.fwd.answers ++ [answerFrame u.link.own o k a.byte]) := rfl

/-- A reply placed is one frame more in the lane (R161). -/
theorem State.reply_eq (u : State) (o : Origin) (k : Byte) (a : Status) (b : List Byte) :
    u.reply o k a b = u.withAnswers (u.fwd.answers ++ [replyFrame u.link.own o k a.byte b]) := rfl

theorem State.Admits.refusal_none {s : State} {o : Origin} (h : s.Admits o) : s.refusal o = none := by
  unfold State.refusal; simp [h.listed, h.normal, h.command]

/-- An admitted order draws what its handling answers. -/
theorem State.Admits.commanded {s : State} {o : Origin} (h : s.Admits o) (k : Byte) (act : State → State × Answer) :
    s.commanded o k act = ((act (s.frameEnd .W)).1.answer o k (act (s.frameEnd .W)).2) := by
  rw [State.commanded_eq h.room, h.refusal_none]

/-- The entry that an index byte names. -/
theorem indexOf_some {n : Nat} {b : Byte} {i : Fin n} (h : b.toNat = i.val) : indexOf n b = some i := by
  unfold indexOf; have := i.isLt; rw [dif_pos (by omega)]; congr 1; exact Fin.ext h

theorem indexOf_none {n : Nat} {b : Byte} (h : n ≤ b.toNat) : indexOf n b = none := by
  unfold indexOf; rw [dif_neg (by omega)]

theorem State.moored_iff (s : State) : s.moored = true ↔ s.helm.mode = 0 := by unfold State.moored; simp

/-- A handling within a level, and the answer placed after it. -/
theorem Within.answered {x : Level} {b u : State} (w : Within x b u) (o : Origin) (k : Byte) (a : Answer) (own : Byte)
    (e : own = b.link.own) :
    Replied x b (answerFrame own o k a.byte) (u.answer o k a) := by
  subst e
  have q := w.answers
  have l := w.link
  refine ⟨?_, ?_⟩
  · rw [State.answer_eq]; show u.fwd.answers ++ _ = _; rw [q, l]
  · have : (u.answer o k a).withAnswers b.fwd.answers = u := by
      rw [← q]; rfl
    rw [this]; exact w

/-- A handling within a level, and the reply placed after it. -/
theorem Within.replied {x : Level} {b u : State} (w : Within x b u) (o : Origin) (k : Byte) (a : Status) (l : List Byte) (own : Byte)
    (e : own = b.link.own) :
    Replied x b (replyFrame own o k a.byte l) (u.reply o k a l) := by
  subst e
  have q := w.answers
  have z := w.link
  refine ⟨?_, ?_⟩
  · rw [State.reply_eq]; show u.fwd.answers ++ _ = _; rw [q, z]
  · have : (u.reply o k a l).withAnswers b.fwd.answers = u := by
      rw [← q]; rfl
    rw [this]; exact w

/-- A helm record written on both sides of a change. -/
theorem Within.withHelm {x : Level} {b u : State} (w : Within x b u) (f : HelmUnit) :
    Within x { b with helm := f } { u with helm := f } := by
  obtain ⟨wr, h1, h2, h3, h4, h5, h6, h7, h8, h9, h10, h11, h12, h13, h14⟩ := w
  exact ⟨⟨rfl, wr.engines, wr.power, wr.diffMode, wr.fixedDiff, wr.nominal, wr.actuators,
    wr.rudder, wr.bowMode, wr.bowDemand, wr.couplings, wr.meters, wr.tanks,
    wr.bases, wr.statement, wr.nodes, wr.passage, wr.defaults, wr.map, wr.master⟩,
    h1, h2, h3, h4, h5, h6, h7, h8, h9, h10, h11,
    fun l => ⟨(h12 l).engines, (h12 l).actuators, (h12 l).forced, (h12 l).couplings, (h12 l).work⟩, h13, h14⟩

/-- The guard as it starts under the mode in force (R10). -/
theorem guardFrom_eq (s : State) (h : s.helm.helm = .normal) :
    (if s.guardActive then s.guardStart else none) = guardFrom s.now s.helm.modes s.helm.mode := by
  unfold State.guardActive guardFrom State.guardStart State.after State.moored State.profile ms
  by_cases a : s.helm.mode = 0
  · simp [-Fin.getElem_fin, a]
  · by_cases b : s.helm.modes[s.helm.mode].guardPeriod = 0
    · simp only [a, b, h]; simp
    · have : 0 < s.helm.modes[s.helm.mode].guardPeriod := by omega
      simp only [a, b, h, this]; simp; ring

end Sys2Proof.Machine
end

