-- ==== Sys2Proof/Laws/Fixed.lean ====
section
/-! SUPPORT. Laws/Fixed.lean: a frame that fixed intake takes does what the command it gives does (R162). -/

namespace Sys2Proof.Machine

/-- A command that fixed intake can give. -/
def Fixed (i : Instr) : Prop :=
  ∀ s : State, takeFixed i s = exec i s

theorem classifyOrder_fixed (o : Origin) (l : List Byte) : Fixed (classifyOrder o l) := by
  intro s
  unfold classifyOrder
  repeat' split
  all_goals rfl

theorem classifyWrite_fixed {o : Origin} {table index : Byte} {l : List Byte} {i : Instr}
    (h : classifyWrite o table index l = some i) : Fixed i := by
  intro s
  unfold classifyWrite at h
  repeat' split at h
  all_goals first
    | (injection h with h; subst h; rfl)
    | cases h

theorem classifyPlain_fixed (o : Origin) (l : List Byte) : Fixed (classifyPlain o l) := by
  intro s
  unfold classifyPlain
  repeat' split
  all_goals rfl

theorem classifyRequest_fixed (o : Origin) (l : List Byte) : Fixed (classifyRequest o l) := by
  unfold classifyRequest
  split
  · split
    · split
      · next table index entry =>
        cases h : classifyWrite o table index entry with
        | some i => exact classifyWrite_fixed h
        | none => exact fun _ => rfl
      · exact fun _ => rfl
    · exact classifyPlain_fixed o _
  · exact fun _ => rfl

/-- What fixed intake takes has the meaning of the command it gives. -/
theorem classify_fixed {own : Byte} {p : Port} {f : Frame} (h : fixedIntake own p f = true) :
    Fixed (classify own p f) := by
  unfold fixedIntake at h
  rw [decide_eq_true_iff] at h
  unfold classify
  split
  · exact classifyOrder_fixed _ _
  · split
    · exact classifyRequest_fixed _ _
    · split
      · split <;> exact fun _ => rfl
      · split
        · exact fun _ => rfl
        · next a b c d => exact absurd h (by rintro (k | k | k | k); exacts [a k, b k, c k, d k])

/-- A command does what the command it turns out to be does. -/
theorem exec_actual (c : Instr) (s : State) : exec c s = exec (c.actual s.link.own) s := by
  unfold Instr.actual
  split
  · next p f =>
    split
    · next h =>
      show execPassageFrame p f s = _
      unfold execPassageFrame
      rw [if_pos h]
      exact classify_fixed h s
    · rfl
  · rfl

end Sys2Proof.Machine
end

