-- ==== Sys2Proof/Laws/Ports.lean ====
section
/-! SUPPORT. Laws/Ports.lean: what the work of a port does to the frame queues and the order slots. -/

namespace Sys2Proof.Machine

/-- A frame queue discarded. -/
theorem State.discardQueue_carried (s : State) (p : Port) : Carried [] s (s.discardQueue p) := by
  refine Carried.ofForwarding [] s _ (fun _ => rfl) (fun _ => rfl) (fun _ => ⟨rfl, rfl, rfl⟩) (fun a => ?_) id
  refine ⟨a.total, a.reserved, a.pool, a.decreases, ?_⟩
  have u := a.inUse
  cases p <;> simp only [Forwarding.poolInUse, PerPort.set, List.length_nil] at u ⊢ <;> omega

/-- The head slot of an order lane, taken by the transmitter (R139). -/
theorem State.sendSlot_sound {s : State} {p : PlantPort} {i : Fin 16} (m : i ∈ s.trans.lane p)
    (h : s.SlotsSound) : ((s.modSlot i fun x => { x with state := .sending }).leaveLane i).SlotsSound := by
  have q := ((h.lanes p i).1 m).1
  have g : ∀ j : Fin 16, ((s.modSlot i fun x => { x with state := .sending }).leaveLane i).trans.slots[j] =
      if i = j then { s.trans.slots[j] with state := .sending } else s.trans.slots[j] :=
    fun j => State.modSlot_slot s i j _
  have tg : ∀ j : Fin 16, ((s.modSlot i fun x => { x with state := .sending }).leaveLane
      i).trans.slots[j].target = s.trans.slots[j].target := by
    intro j; rw [g]; split <;> rfl
  have fl : ∀ j : Fin 16, ((s.modSlot i fun x => { x with state := .sending }).leaveLane
      i).trans.slots[j].inFlight = true → i = j ∨ s.trans.slots[j].inFlight = true := by
    intro j a; rw [g] at a; split at a
    · next e => exact .inl e
    · exact .inr a
  have wt : ∀ j : Fin 16, ((s.modSlot i fun x => { x with state := .sending }).leaveLane
      i).trans.slots[j].isWaiting = true → s.trans.slots[j].isWaiting = true := by
    intro j a; rw [g] at a; split at a
    · simp [-Fin.getElem_fin, Slot.isWaiting] at a
    · exact a
  have qd : ∀ j : Fin 16, ((s.modSlot i fun x => { x with state := .sending }).leaveLane
      i).trans.slots[j].state = .queued ↔ i ≠ j ∧ s.trans.slots[j].state = .queued := by
    intro j; rw [g]; split
    · next e => simp [e]
    · next e => simp [e]
  refine ⟨?_, ?_, ?_, ?_, ?_, ?_⟩
  · intro a b x y e
    rw [tg, tg] at e
    rcases fl a x with u | u <;> rcases fl b y with v | v
    · rw [← u, ← v]
    · rw [← u] at e; exact absurd e (h.queuedIdle i b q v)
    · rw [← v] at e; exact absurd e.symm (h.queuedIdle i a q u)
    · exact h.oneFlight a b u v e
  · intro a b x y e; rw [tg, tg] at e; exact h.oneWaiting a b (wt a x) (wt b y) e
  · intro a b x y
    rw [tg, tg]
    obtain ⟨n, z⟩ := (qd a).1 x
    rcases fl b y with v | v
    · rw [← v]
      intro e
      exact n (h.oneWaiting i a ((Slot.isWaiting_iff _).2 (.inr (.inr q)))
        ((Slot.isWaiting_iff _).2 (.inr (.inr z))) e.symm)
    · exact h.queuedIdle a b z v
  · intro p a
    rw [State.leaveLane_lane, State.modSlot_lane, List.mem_filter, qd, tg, h.lanes p a]
    simp only [decide_eq_true_eq]
    constructor
    · rintro ⟨⟨x, y⟩, z⟩; exact ⟨⟨fun e => z e.symm, x⟩, y⟩
    · rintro ⟨⟨z, x⟩, y⟩; exact ⟨⟨x, y⟩, fun e => z e.symm⟩
  · intro p
    rw [State.leaveLane_lane, State.modSlot_lane]
    exact (h.once p).filter _
  · intro a x
    rw [g] at x ⊢
    split at x
    · next e =>
      subst e
      have y := h.timed i x
      rw [q] at y; cases y
    · next e => rw [if_neg e]; exact h.timed a x

/-- A slot that a transmitter finds next stands in an order lane. -/
theorem State.nextFrame_slot {s : State} {p : Port} {i : Option (Fin 16)} {f : Frame}
    (h : s.nextFrame p = some (.slot i, f)) : ∃ (q : PlantPort) (j : Fin 16), i = some j ∧
      j ∈ s.trans.lane q := by
  have k : ∀ q : PlantPort, ∀ r : Port, (s.laneHead q).or (s.queueHead r) = some (.slot i, f) →
      ∃ j : Fin 16, i = some j ∧ j ∈ s.trans.lane q := by
    intro q r e
    unfold State.laneHead at e
    cases l : s.trans.lane q with
    | nil =>
      rw [l] at e
      simp only [List.head?_nil, Option.map_none, Option.none_or, State.queueHead] at e
      cases z : (s.fwd.queues.get r).head? with
      | none => rw [z] at e; cases e
      | some y => rw [z] at e; cases e
    | cons j l' =>
      rw [l] at e
      simp only [List.head?_cons, Option.map_some, Option.some_or, Option.some.injEq, Prod.mk.injEq,
        Source.slot.injEq] at e
      exact ⟨j, e.1.symm, List.mem_cons_self⟩
  cases p with
  | W =>
    simp only [State.nextFrame, State.queueHead] at h
    cases z : s.fwd.answers.head? with
    | some y => rw [z] at h; cases h
    | none =>
      rw [z] at h
      simp only [Option.map_none, Option.none_or] at h
      cases y : (s.fwd.queues.get .W).head? with
      | none => rw [y] at h; cases h
      | some y' => rw [y] at h; cases h
  | M => obtain ⟨j, a⟩ := k .M .M h; exact ⟨.M, j, a⟩
  | T => obtain ⟨j, a⟩ := k .T .T h; exact ⟨.T, j, a⟩

/-- A slot that changes from SENDING to AWAITING (R139). -/
theorem State.awaitSlot_sound (s : State) (i : Fin 16) (a : Slot → Timer) (h : s.SlotsSound) :
    (s.modSlot i fun x => if x.state = .sending then { x with state := .awaiting, ackAt := a x }
      else x).SlotsSound := by
  have g := fun j => State.modSlot_slot s i j fun x =>
    if x.state = .sending then { x with state := .awaiting, ackAt := a x } else x
  have fl : ∀ j : Fin 16, (s.modSlot i fun x => if x.state = .sending then
      { x with state := .awaiting, ackAt := a x } else x).trans.slots[j].inFlight =
        s.trans.slots[j].inFlight := by
    intro j; rw [g]; split
    · split
      · next e => simp [-Fin.getElem_fin, Slot.inFlight, e]
      · rfl
    · rfl
  have wt : ∀ j : Fin 16, (s.modSlot i fun x => if x.state = .sending then
      { x with state := .awaiting, ackAt := a x } else x).trans.slots[j].isWaiting =
        s.trans.slots[j].isWaiting := by
    intro j; rw [g]; split
    · split
      · next e => simp [-Fin.getElem_fin, Slot.isWaiting, e]
      · rfl
    · rfl
  have tg : ∀ j : Fin 16, (s.modSlot i fun x => if x.state = .sending then
      { x with state := .awaiting, ackAt := a x } else x).trans.slots[j].target =
        s.trans.slots[j].target := by
    intro j; rw [g]; split
    · split <;> rfl
    · rfl
  have qd : ∀ j : Fin 16, (s.modSlot i fun x => if x.state = .sending then
      { x with state := .awaiting, ackAt := a x } else x).trans.slots[j].state = .queued ↔
        s.trans.slots[j].state = .queued := by
    intro j; rw [g]; split
    · split
      · next e => simp [-Fin.getElem_fin, e]
      · rfl
    · rfl
  refine ⟨?_, ?_, ?_, ?_, ?_, ?_⟩
  · intro a b; rw [fl, fl, tg, tg]; exact h.oneFlight a b
  · intro a b; rw [wt, wt, tg, tg]; exact h.oneWaiting a b
  · intro a b; rw [qd, fl, tg, tg]; exact h.queuedIdle a b
  · intro p a; rw [State.modSlot_lane, qd, tg]; exact h.lanes p a
  · intro p; rw [State.modSlot_lane]; exact h.once p
  · intro b x
    rw [g] at x ⊢
    split at x
    · next e =>
      subst e
      rw [if_pos rfl]
      split at x
      · next k => rw [if_pos k]
      · next k => rw [if_neg k]; exact h.timed i x
    · next e => rw [if_neg e]; exact h.timed b x

/-- The source of a frame that has been sent (R154). -/
theorem State.completeSource_carried (s : State) (p : Port) (x : Source) :
    Carried [] s (s.completeSource p x) := by
  unfold State.completeSource
  split
  · refine Carried.ofForwarding [] s _ (fun _ => rfl) (fun _ => rfl) (fun _ => ⟨rfl, rfl, rfl⟩)
      (fun a => ⟨a.total, a.reserved, a.pool, a.decreases, a.inUse⟩) fun a => ?_
    unfold Forwarding.AnswersFit at a ⊢
    simp only [List.length_tail]
    omega
  · refine Carried.ofForwarding [] s _ (fun _ => rfl) (fun _ => rfl) (fun _ => ⟨rfl, rfl, rfl⟩)
      (fun a => ?_) id
    refine ⟨a.total, a.reserved, a.pool, a.decreases, ?_⟩
    have u := a.inUse
    cases p <;> simp only [Forwarding.poolInUse, PerPort.set, PerPort.get, List.length_tail] at u ⊢ <;> omega
  · exact Carried.ofSlots [] rfl (fun _ _ => rfl) (State.awaitSlot_sound s _
      fun x => s.after (ms (s.nodes[x.target].entry.ackTimeout * 10)))
  · exact Carried.refl _ s

end Sys2Proof.Machine
end

