-- ==== Sys2Proof/Tests/Slice0.lean ====
section
/-! SUPPORT. Tests/Slice0.lean: tests of the model, and for each statement with hypotheses the states and operands
that meet them. Expected values come from the worked examples of the manual where one covers the case, and
otherwise from its rules by hand. -/

namespace Sys2Proof.Tests

set_option Elab.async false

open Sys2Proof.Machine

/-! ### Well-formedness: each check refuses a term that breaks it -/

/-- A source and TAG. -/
def console : Origin := { src := 21, tag := 3 }

/-- A header of a frame to all nodes. -/
def toAll (src : Byte) : Header := { dest := 0, src := src, tag := 0 }

theorem test_wf_order_unknown_refuses_known : (Instr.orderUnknown console [3, 1, 0]).wellFormed = false := by decide
theorem test_wf_order_unknown_refuses_long :
    (Instr.orderUnknown console (List.replicate 25 9)).wellFormed = false := by decide
theorem test_wf_order_unknown : (Instr.orderUnknown console [3, 4, 0]).wellFormed = true := by decide
theorem test_wf_enrol_refuses_long : (Instr.enrol .M (toAll 31) (List.replicate 25 1)).wellFormed = false := by decide
theorem test_wf_full_refuses_load : (Instr.full .M console .running 1001 .noAlarm).wellFormed = false := by decide
theorem test_wf_status_refuses_load :
    (Instr.engineStatus .M (toAll 31) .running (-1001) .noAlarm).wellFormed = false := by decide
theorem test_wf_status_load : (Instr.engineStatus .M (toAll 31) .running (-1000) .noAlarm).wellFormed = true := by decide
theorem test_wf_tension_refuses_none : (Instr.tension .T (toAll 43) []).wellFormed = false := by decide
theorem test_wf_tension_refuses_eight :
    (Instr.tension .T (toAll 43) (List.replicate 8 (0, 1))).wellFormed = false := by decide
theorem test_wf_flow_refuses_none : (Instr.flow .M (toAll 35) []).wellFormed = false := by decide
theorem test_wf_flow_refuses_five :
    (Instr.flow .M (toAll 35) (List.replicate 5 (0, 1))).wellFormed = false := by decide
theorem test_wf_level_refuses_none : (Instr.level .M (toAll 36) []).wellFormed = false := by decide
theorem test_wf_level_refuses_five :
    (Instr.level .M (toAll 36) (List.replicate 5 (0, 1))).wellFormed = false := by decide
theorem test_wf_passage_refuses_enrol :
    (Instr.passageFrame .M { dest := 0, src := 31, cls := 4, tag := 0, payload := [1] }).wellFormed = false := by decide
theorem test_wf_passage_refuses_status :
    (Instr.passageFrame .T { dest := 0, src := 42, cls := 2, tag := 0, payload := [3, 0] }).wellFormed = false := by
  decide
theorem test_wf_passage_refuses_long :
    (Instr.passageFrame .M { dest := 0, src := 31, cls := 9, tag := 0, payload := List.replicate 25 0 }).wellFormed =
      false := by decide
theorem test_wf_table_read_refuses_table : (Instr.tableRead console 12 0).wellFormed = false := by decide
theorem test_wf_mgmt_unknown_refuses_known : (Instr.mgmtUnknown console [0x0C]).wellFormed = false := by decide
theorem test_wf_mgmt_unknown_refuses_long :
    (Instr.mgmtUnknown console (List.replicate 25 0x0F)).wellFormed = false := by decide
theorem test_wf_ack_refuses_echo : (Instr.ackOfNoKind .M console [0x21, 0, 1]).wellFormed = false := by decide
theorem test_wf_ack_refuses_long :
    (Instr.ackOfNoKind .M console (List.replicate 25 0x21)).wellFormed = false := by decide

/-! ### Bytes of a line: a frame of each class written out; CHECK computed apart from the model -/

/-- Bytes, each with a good stop bit. -/
def onLine (l : List Byte) : List LineByte := l.map fun b => { data := b, valid := true }

/-- R149: the CHECK of the nine bytes 31h to 39h is 29B1h. -/
theorem test_check : check [0x31, 0x32, 0x33, 0x34, 0x35, 0x36, 0x37, 0x38, 0x39] = 0x29B1 := by decide +kernel
/-- PROPEL, P = +600, FIXED, +100. -/
theorem test_bytes_propel : frameEnd 120 .W
    (onLine [0x78, 0x15, 0x03, 7, 1, 0x02, 0x58, 0, 0x00, 0x64, 0, 0x92, 0x79]) =
    .propel { src := 21, tag := 3 } 600 0 100 0 := by decide +kernel
/-- STEER, δ = −120, FOLLOW. -/
theorem test_bytes_steer : frameEnd 120 .W (onLine [0x78, 0x15, 0x04, 6, 2, 0xFF, 0x88, 0, 0, 0, 0x77, 0x9D]) =
    .steer { src := 21, tag := 4 } (-120) 0 0 := by decide +kernel
theorem test_bytes_mode : frameEnd 120 .W (onLine [0x78, 0x15, 0x05, 3, 3, 1, 3, 0x5D, 0x0E]) =
    .convoyMode { src := 21, tag := 5 } 3 := by decide +kernel
theorem test_bytes_couple : frameEnd 120 .W (onLine [0x78, 0x15, 0x06, 3, 4, 1, 0, 0x06, 0x2F]) =
    .coupleRelease { src := 21, tag := 6 } 0 := by decide +kernel
theorem test_bytes_echo : frameEnd 120 .M (onLine [0x78, 0x22, 0x17, 3, 0x21, 0, 200, 0x49, 0xAA]) =
    .echo .M { src := 34, tag := 7 } 200 := by decide +kernel
theorem test_bytes_full : frameEnd 120 .M (onLine [0x78, 0x1F, 0x16, 5, 0x22, 1, 0x01, 0xF4, 0, 0x79, 0xC9]) =
    .full .M { src := 31, tag := 6 } .running 500 .noAlarm := by decide +kernel
theorem test_bytes_enrol : frameEnd 120 .M (onLine [0, 0x1F, 0x40, 1, 1, 0xE0, 0xF8]) =
    .enrol .M (toAll 31) [1] := by decide +kernel
theorem test_bytes_engine_status :
    frameEnd 120 .M (onLine [0, 0x1F, 0x20, 5, 1, 1, 0x01, 0xF4, 2, 0xC5, 0x61]) =
    .engineStatus .M (toAll 31) .running 500 .alarm := by decide +kernel
theorem test_bytes_tension : frameEnd 120 .T (onLine [0, 0x2B, 0x30, 4, 1, 0, 0x07, 0x08, 0xDC, 0x46]) =
    .tension .T (toAll 43) [(0, 1800)] := by decide +kernel
theorem test_bytes_flow : frameEnd 120 .M (onLine [0, 0x23, 0x30, 6, 2, 0, 0, 0, 0, 14, 0xE6, 0xF6]) =
    .flow .M (toAll 35) [(0, 14)] := by decide +kernel
theorem test_bytes_station : frameEnd 120 .W (onLine [0x78, 0x15, 0x51, 4, 3, 1, 0, 21, 0x83, 0x7E]) =
    .tableWriteStation { src := 21, tag := 1 } 0 21 := by decide +kernel
/-- FUEL_PRESET of 62 000 cL. -/
theorem test_bytes_preset : frameEnd 120 .W (onLine [0x78, 0x15, 0x52, 6, 0x0A, 0, 0, 0, 0xF2, 0x30, 0x70, 0xD4]) =
    .fuelPreset { src := 21, tag := 2 } 0 62000 := by decide +kernel
/-- R149: one bit of a good frame's CHECK turned. -/
theorem test_bytes_bad_check : frameEnd 120 .W (onLine [0x78, 0x15, 0x05, 3, 3, 1, 3, 0x5D, 0x0F]) =
    .frameDiscard .W := by decide +kernel
/-- R147: a stop bit not at the idle level puts the frame in error. -/
theorem test_bytes_stop_bit :
    frameEnd 120 .W (onLine [0x78, 0x15, 0x05, 3, 3, 1, 3, 0x5D] ++ [{ data := 0x0E, valid := false }]) =
    .frameDiscard .W := by decide +kernel

/-! ### A convoy under way -/

/-- A node as written and ENROLLED: ack timeout 50 ms, silence time 2 s, refresh interval 1 s. -/
def nodeAt (p : PlantPort) (address : Byte) (kind : NodeKind) : Node :=
  { Node.reset with
    entry := { port := p, address := some address, kind := kind, ackTimeout := 5, silence := 20, refresh := 10 }
    state := .enrolled, silenceAt := some 52500000, refreshAt := some 51900000, nextTag := 6 }

/-- The roster: governors 31 to 33, rudder 34, meter 35 and gauge 36 on port M; bow unit 41, winch 42 and sensor 43
on port T. -/
def roster : Table Node 32 :=
  ((((((((Vector.replicate 32 Node.reset).set 0 (nodeAt .M 31 .engineGovernor)).set 1
    (nodeAt .M 32 .engineGovernor)).set 2 (nodeAt .M 33 .engineGovernor)).set 3
    (nodeAt .M 34 .rudderActuator)).set 4 (nodeAt .T 41 .bowUnit)).set 5 (nodeAt .T 42 .winch)).set 6
    (nodeAt .T 43 .tensionSensor)).set 7 (nodeAt .M 35 .fuelMeter) |>.set 8 (nodeAt .M 36 .tankGauge)

/-- A RUNNING engine of the example of 2.5. -/
def engineOf3 (g : Fin 32) (b : Boat) (side : Side) (rating weight : Nat) : Engine :=
  { Engine.reset with
    entry := { Engine.reset.entry with
      governor := some g, boat := b, side := side, rating := rating, weight := weight }
    state := .running }

/-- The engines of Example 2-1, with E2's health level NONE. -/
def engines3 : Table Engine 6 :=
  (((Vector.replicate 6 Engine.reset).set 0
    { engineOf3 0 .b1 .port 1500 4 with
      entry := { (engineOf3 0 .b1 .port 1500 4).entry with serviceTank := some 0, supplyMeter := some 0 } }).set 1
    (engineOf3 1 .b1 .stbd 1500 4)).set 2 (engineOf3 2 .b2 .centre 800 2)

/-- The part under way at 51 s: mode 1 with a guard period of 5 s, station 21 in command, three engines, a main
rudder, a push coupling of boat 1, meter 0 as M3 of Example 5-2, and its service tank. -/
def rig : State :=
  { State.reset with
    now := 51000000
    helm := { HelmUnit.reset with
      modes := HelmUnit.reset.modes.set 1 { Profile.reset with guardPeriod := 50, gain := 32 }
      stations := #v[some 21, some 22], mode := 1, command := some 21, guardAt := some 55000000 }
    prop := { Propulsion.reset with engines := engines3, nominal := 3800 }
    steer := { Steering.reset with
      actuators := Steering.reset.actuators.set 0
        { Actuator.reset with
          entry := {
            node := some 3, kind := .mainRudder, boat := .b1, gainAhead := 64, gainAstern := 32, limit := 350
            band := 30, time := 20 }
          state := .ready } }
    tow := { Tow.reset with
      couplings := Tow.reset.couplings.set 0
        { Coupling.reset with
          entry := { Coupling.reset.entry with bearsOn := .boat1, sensor := some 6, winch := some 5 }
          state := .madeUp, last := 500, sampleAt := some 52500000 } }
    fuel := { Fuel.reset with
      meters := Fuel.reset.meters.set 0
        { Meter.reset with
          entry := { Meter.reset.entry with node := some 7, maxRate := 80, margin := 200 }
          state := .counting, lastTotal := 4294967280, lastArrival := 50000, lastRate := 28
          silenceAt := some 53000000 }
      tanks := Fuel.reset.tanks.set 0
        { Tank.reset with
          entry := { Tank.reset.entry with
            capacity := 2000000, gauge := some 8, lowMark := 60000, lowCeiling := 500, tolerance := 5000 }
          base := 1500000, quantity := 1500000 }
      accounts := Fuel.reset.accounts.set 0 { total := 1000, leg := 1000 }
      leg := { active := true, budget := 100000, reserveMark := 10000, consumed := 1000, reserve := false } }
    nodes := roster }

/-- The rig with every port taking frames for a job. -/
def taking (j : Job) : State :=
  let d : DefaultEntry := { action := .take, job := j, ports := 0 }
  { rig with fwd := { rig.fwd with defaults := { w := d, m := d, t := d } } }

/-- The rig lying MOORED, with no station in command. -/
def moored : State :=
  { rig with helm := { rig.helm with mode := 0, command := none, guardAt := none } }

/-- The rig after helm loss in mode 1. -/
def lost : State :=
  { rig with helm := { rig.helm with mode := 7, helm := .lost, remembered := some 1, guardAt := none } }

/-- What a command leaves; it never faults or refuses. -/
def after (c : Instr) (s : State) : State :=
  match exec c s with
  | .next t => t
  | _ => s

/-- The payload at the tail of the answer lane. -/
def drawn (s : State) : List Byte :=
  match s.fwd.answers.getLast? with
  | some f => f.payload
  | none => []

/-- A slot of a state, written. -/
def withSlot (s : State) (i : Fin 16) (x : Slot) : State := s.modSlot i fun _ => x

/-- An AWAITING SETPOINT of node 0 with TAG 6. -/
def awaiting : Slot :=
  { Slot.reset with
    kind := .setpoint, value := .amount 20, tag := 6, owner := some (.propulsion 0), state := .awaiting
    ackAt := some 51051000 }

/-- A QUEUED ANGLE of node 3. -/
def queued : Slot :=
  { Slot.reset with
    target := 3, kind := .angle, value := .amount 200, tag := 6, owner := some (.steering 0), state := .queued }

/-- The rig with one order in flight and one QUEUED in the lane of port M. -/
def busy : State :=
  let s := withSlot (withSlot rig 0 awaiting) 1 queued
  { s with trans := { s.trans with laneM := [1] } }

/-! ### One step of each command -/

/-- R189, R152. -/
theorem test_power_on_reset : (after .powerOnReset rig).link.own = 120 ∧ (after .powerOnReset rig).helm.mode = 0 ∧
    (after .powerOnReset rig).now = 0 := by decide +kernel
/-- R149: a discarded frame empties the assembly. -/
theorem test_frame_discard : ((after (.frameDiscard .M) { rig with link := { rig.link with ports :=
    { rig.link.ports with m := { Line.reset with assembly := { Assembly.empty with bytes := [1, 2] } } } } }).link.ports.get
      .M).assembly = Assembly.empty := by decide +kernel
/-- Example 7-1 at 800: the port goes DOWN and its nodes fall SILENT. -/
theorem test_line_break :
    let t := after (.lineBreak .T) rig
    (t.link.ports.get .T).line = .down ∧ t.nodes[4].state = .silent ∧ t.nodes[6].state = .silent ∧
      t.nodes[0].state = .enrolled ∧ t.notices.list.head? = some { kind := .nodeSilent, subject := 4 } := by
  decide +kernel
/-- Example 7-1 at 61 000: the first valid byte brings the port UP. -/
theorem test_line_up :
    let t := after (.lineUp .T 0) (after (.lineBreak .T) rig)
    (t.link.ports.get .T).line = .up ∧ (t.link.ports.get .T).assembly.bytes = [0] := by decide +kernel
/-- Example 7-1: an ORDER of three payload bytes lasts nine byte times of 40 µs. -/
theorem test_transmit_start :
    let t := after (.transmitStart .M) busy
    (t.link.ports.get .M).sending.map Transmission.doneAt = some 51000360 ∧ t.trans.slots[1].state = .sending ∧
      t.trans.laneM = [] := by decide +kernel
/-- R142: the ack timeout starts at transmit completion; ack timeout 50 ms. -/
theorem test_transmit_completion :
    let t := after (.transmitCompletion .M) (after (.transmitStart .M) busy)
    t.trans.slots[1].state = .awaiting ∧ t.trans.slots[1].ackAt = some 51050360 ∧
      (t.link.ports.get .M).sending = none := by decide +kernel

/-- R153: while its port is sending, a request to the part is not heard. -/
theorem test_sending_port_is_deaf :
    let s := after (.transmitStart .W) { rig with fwd := { rig.fwd with
      answers := [{ dest := 21, src := 120, cls := 1, tag := 0, payload := [1, 0] }] } }
    (s.link.ports.get .W).sending.isSome = true ∧ after (.identify console) s = s := by decide +kernel

/-- A PAUSED statement of seven blocks, block 3 next, with one buffer reserved to port W free (Example 5-1). -/
def paused : State :=
  { rig with
    fuel := { rig.fuel with statement := {
      state := .paused, number := 5, destination := some 21, next := 3, stallAt := some 52000000
      blocks := rig.snapshot } }
    fwd := { rig.fwd with queues := { rig.fwd.queues with
      w := List.replicate 7 { dest := 21, src := 31, cls := 2, tag := 0, payload := [1] } } } }

/-- Example 5-1: one block is placed and the stall timer restarts with 2 s. -/
theorem test_statement_resume :
    let t := after .statementResume paused
    t.fwd.queues.w.length = 8 ∧ t.fuel.statement.next = 4 ∧ t.fuel.statement.stallAt = some 53000000 := by
  decide +kernel
/-- Example 2-1. -/
theorem test_propel :
    let t := after (.propel console 750 0 100 0) (rig.modEngine 2 fun e => { e with health := .alert })
    t.prop.engines[0].target = 889 ∧ t.prop.engines[1].target = 689 ∧ t.prop.engines[2].target = 600 ∧
      t.prop.unmet = 0 ∧ drawn t = [1, 0] := by decide +kernel
/-- R27: a P above its range is brought to +1000 and answered CLAMPED. -/
theorem test_propel_clamped :
    let t := after (.propel console 1001 0 0 0) rig
    t.prop.power = 1000 ∧ drawn t = [1, 1] := by decide +kernel
/-- Example 3-1: ANGLE +200 is placed for A0. -/
theorem test_steer :
    let t := after (.steer console 200 0 0) rig
    t.steer.actuators[0].ordered = 200 ∧ t.trans.slots[0].value = .amount 200 ∧ t.trans.slots[0].target = 3 ∧
      drawn t = [2, 0] := by decide +kernel
/-- R8: the mode comes into force and the guard, not active under it, stops. R26: the components of an ABSENT engine
follow too, its composites stay. -/
theorem test_convoy_mode :
    let t := after (.convoyMode console 3) { rig with helm := { rig.helm with
      modes := rig.helm.modes.set 3 { Profile.reset with aheadCeiling := 400 } } }
    t.helm.mode = 3 ∧ t.helm.guardAt = none ∧ drawn t = [3, 0] ∧ t.prop.engines[5].modeAhead = 400 ∧
      t.prop.engines[5].compositeAhead = 1000 ∧ t.prop.engines[0].compositeAhead = 400 := by decide +kernel
/-- R8: a code of 7 is answered RANGE. -/
theorem test_convoy_mode_range : drawn (after (.convoyMode console 7) rig) = [3, 6] := by decide +kernel
/-- R9, R10. -/
theorem test_take_command :
    let t := after (.takeCommand { src := 22, tag := 1 } 0) rig
    t.helm.command = some 22 ∧ t.helm.guardAt = some 56000000 ∧
      t.notices.list = [{ kind := .commandTransfer, subject := 22 }] := by decide +kernel
/-- Example 1-1 at 9000: the guard starts with 5 s under the mode remembered. -/
theorem test_helm_resume :
    let t := after (.helmResume { src := 22, tag := 1 } 0) lost
    t.helm.mode = 1 ∧ t.helm.helm = .normal ∧ t.helm.command = some 22 ∧ t.helm.guardAt = some 56000000 := by
  decide +kernel
/-- R6: an order of kind 9 draws UNKNOWN with its KIND. -/
theorem test_order_unknown : drawn (after (.orderUnknown console [9]) rig) = [9, 7] := by decide +kernel
/-- Example 4-2: with boat 1 at zero the release is ORDERED and its WINCH RELEASE is QUEUED. -/
theorem test_couple_release :
    let t := after (.coupleRelease console 0) rig
    t.tow.couplings[0].state = .releasing ∧ t.tow.couplings[0].phase = some .ordered ∧
      t.trans.slots[0].value = .release ∧ t.trans.laneT = [0] ∧ t.tow.applied.b1 = 0 := by decide +kernel

/-- A release of coupling 0 in WAIT_ZERO: E0 stands at +300 with load 300 (Example 4-2). -/
def releasing : State :=
  after (.coupleRelease console 0)
    { rig with prop := { rig.prop with
        engines := modTable rig.prop.engines 0 fun e => { e with setpoint := 300, target := 300, load := 300 }
        zero := { b1 := false, b2 := true }, zeroAll := false } }

/-- Example 4-2: S is cut to 0 at once, and the release waits for the load to fall. -/
theorem test_couple_release_waits : releasing.tow.couplings[0].phase = some .waitZero ∧
    releasing.trans.laneT = [] ∧ releasing.prop.engines[0].setpoint = 0 := by decide +kernel
/-- R91. -/
theorem test_couple_cancel :
    let t := after (.coupleCancel console 0) releasing
    t.tow.couplings[0].state = .madeUp ∧ t.tow.work = none ∧
      (∀ i : Fin 16, t.trans.slots[i].owner = some (.tow 0) → t.trans.slots[i].state = .free) := by decide +kernel
/-- R85. -/
theorem test_slot_release :
    let t := after (.slotRelease 0) { releasing with prop :=
      { releasing.prop with zero := { b1 := true, b2 := true }, zeroAll := true } }
    t.tow.couplings[0].phase = some .ordered ∧ t.trans.laneT = [0] := by decide +kernel
/-- R93. -/
theorem test_couple_make_up :
    let t := after (.coupleMakeUp console 0) (rig.modCoupling 0 fun k => { k with state := .slack })
    t.tow.couplings[0].state = .makingUp ∧ t.trans.slots[0].value = .heave 300 ∧ t.tow.applied.b1 = 600 := by
  decide +kernel
/-- R95. -/
theorem test_accept_parted :
    (after (.acceptParted console 0) (rig.modCoupling 0 fun k => { k with state := .parted })).tow.couplings[0].state =
      .released := by decide +kernel
/-- R129: a second enrolment of an ENROLLED node brings its count to 0 and latches NODE_ENROLLED. -/
theorem test_enrol :
    let t := after (.enrol .M (toAll 31) [1]) (rig.modNode 0 fun n => { n with timeouts := 2 })
    t.nodes[0].timeouts = 0 ∧ t.notices.list = [{ kind := .nodeEnrolled, subject := 0 }] := by decide +kernel
/-- R129: an enrolment of another kind. -/
theorem test_enrol_mismatch :
    (after (.enrol .M (toAll 31) [2]) rig).notices.list = [{ kind := .enrolMismatch, subject := 0 }] := by
  decide +kernel
/-- Example 6-1 at 70: a FULL with the slot's TAG completes it. -/
theorem test_full :
    let t := after (.full .M { src := 31, tag := 6 } .running 500 .noAlarm) busy
    t.trans.slots[0].state = .free ∧ t.prop.engines[0].load = 500 := by decide +kernel
/-- Example 6-1 at 60: a FULL with another TAG completes nothing. -/
theorem test_full_late :
    (after (.full .M { src := 31, tag := 5 } .running 500 .noAlarm) busy).trans.slots[0].state = .awaiting := by
  decide +kernel
/-- Example 3-2 at 300: an ECHO outside the band starts the divergence timer. -/
theorem test_echo :
    let t := after (.echo .M { src := 34, tag := 6 } 20)
      (rig.modActuator 0 fun a => { a with ordered := 200 })
    t.steer.actuators[0].reported = 20 ∧ t.steer.actuators[0].divergeAt = some 53000000 := by decide +kernel
/-- R140: an ECHO of an EXPECTED rudder completes its slot and is not read as status. -/
theorem test_echo_expected :
    let t := after (.echo .M { src := 34, tag := 6 } 20)
      (withSlot (rig.modNode 3 fun n => { n with state := .expected, timeouts := 2 }) 1
        { awaiting with target := 3, kind := .angle, owner := some (.steering 0) })
    t.trans.slots[1].state = .free ∧ t.nodes[3].timeouts = 0 ∧ t.nodes[3].state = .expected ∧
      t.steer.actuators[0].reported = 0 := by decide +kernel
/-- R158: an ACK of no kind restarts the silence timer of its node and completes nothing. -/
theorem test_ack_of_no_kind :
    let t := after (.ackOfNoKind .M { src := 31, tag := 6 } [0x22]) busy
    t.nodes[0].silenceAt = some 53000000 ∧ t.trans.slots[0].state = .awaiting := by decide +kernel
/-- R20, R21: alarm level TRIP. -/
theorem test_engine_status :
    let t := after (.engineStatus .M (toAll 31) .running 300 .trip) (taking .propulsion)
    t.prop.engines[0].state = .tripped ∧ t.prop.engines[0].load = 300 ∧
      t.notices.list = [{ kind := .engineTrip, subject := 0 }] := by decide +kernel
/-- R61: the fault flag. -/
theorem test_actuator_status :
    let t := after (.actuatorStatus .M (toAll 34) 0 .fault) (taking .steering)
    t.steer.actuators[0].state = .fault ∧ t.steer.forced = true := by decide +kernel
/-- R77. -/
theorem test_winch_status :
    let t := after (.winchStatus .T (toAll 42) .parted) (taking .tow)
    t.tow.couplings[0].state = .parted ∧ t.tow.applied.b1 = 0 := by decide +kernel
/-- Example 4-1 at 1500: the third loaded sample. -/
theorem test_tension :
    let t := after (.tension .T (toAll 43) [(0, 1800)])
      ((taking .tow).modCoupling 0 fun k => { k with count := 2 })
    t.tow.couplings[0].state = .alert ∧ t.tow.applied.b1 = 600 ∧
      t.notices.list = [{ kind := .couplingAlert, subject := 0 }] := by decide +kernel
/-- Example 4-1 at 4000: below the slack mark after a tension at or above the alert mark. -/
theorem test_tension_parts :
    (after (.tension .T (toAll 43) [(0, 20)])
      ((taking .tow).modCoupling 0 fun k => { k with state := .alert, last := 1800 })).tow.couplings[0].state =
      .parted := by decide +kernel
/-- Example 5-2: the totalizer wraps. -/
theorem test_flow :
    let t := after (.flow .M (toAll 35) [(0, 14)]) (taking .fuel)
    t.fuel.meters[0].lastTotal = 14 ∧ t.fuel.meters[0].lastRate = 30 ∧ t.fuel.accounts[0].leg = 1030 ∧
      t.fuel.tanks[0].quantity = 1499970 := by decide +kernel
/-- Example 5-2: an implausible totalizer books nothing. -/
theorem test_flow_reset :
    let t := after (.flow .M (toAll 35) [(0, 2000)]) (taking .fuel)
    t.fuel.accounts[0].leg = 1000 ∧ t.notices.list = [{ kind := .meterReset, subject := 0 }] := by decide +kernel
/-- Example 5-4: a gauge 7000 off with tolerance 5000. -/
theorem test_level :
    let t := after (.level .M (toAll 36) [(0, 1493000)]) (taking .fuel)
    t.fuel.tanks[0].discrepant = true ∧ t.fuel.tanks[0].quantity = 1500000 := by decide +kernel
/-- R165: action PASS to port W. -/
theorem test_passage_frame :
    let f : Frame := { dest := 0, src := 31, cls := 9, tag := 0, payload := [7] }
    (after (.passageFrame .M f) { rig with fwd := { rig.fwd with defaults :=
      { rig.fwd.defaults with m := { action := .pass, job := .propulsion, ports := 1 } } } }).fwd.queues.w = [f] := by
  decide +kernel
/-- R162: fixed intake goes by the own address in force, here behind a SET_ADDRESS. -/
theorem test_passage_frame_own :
    let t := after (.passageFrame .W { dest := 99, src := 21, cls := 5, tag := 3, payload := [1] })
      (after (.setAddress console 99) moored)
    drawn t = [1, 0, 0x53, 0, 240, 1, 99] ∧ t.fwd.queues.m = [] := by decide +kernel
/-- R186: family 53h, part number 240, revision 1, own address. -/
theorem test_identify : drawn (after (.identify console) rig) = [1, 0, 0x53, 0, 240, 1, 120] := by decide +kernel
/-- R184: station entry 1. -/
theorem test_table_read : drawn (after (.tableRead console 1 1) rig) = [2, 0, 1, 1, 22] := by decide +kernel
/-- R184: engine entry 2 (E2: governor 2, boat 2, CENTRE, 800 kW, weight 2). -/
theorem test_table_read_engine : drawn (after (.tableRead console 6 2) rig) =
    [2, 0, 6, 2, 2, 2, 1, 0x03, 0x20, 2, 0xFF, 0xFF, 0xFF, 0, 0x02, 0x58, 0x01, 0x2C] := by decide +kernel
/-- R5: the written entry held the station in command. -/
theorem test_write_station :
    let t := after (.tableWriteStation console 0 23) { moored with helm := { moored.helm with command := some 21 } }
    t.helm.stations[0] = some 23 ∧ t.helm.command = none ∧ drawn t = [3, 0, 1, 0] := by decide +kernel
/-- Example 10-1: a structure write under way is answered CLOSED. -/
theorem test_write_station_closed : drawn (after (.tableWriteStation console 0 23) rig) = [3, 1, 1, 0] := by
  decide +kernel
/-- R128: a new address starts the entry again. -/
theorem test_write_roster :
    let t := after (.tableWriteRoster console 0
      { port := 0, address := 50, kind := 0, ackTimeout := 5, silence := 20, refresh := 10 }) moored
    t.nodes[0].state = .expected ∧ t.nodes[0].entry.address = some 50 := by decide +kernel
/-- R167. -/
theorem test_write_passage :
    let t := after (.tableWritePassage console 63
      { used := 0, ingress := 1, source := 0xFF, cls := 2, kindSelector := 0, kind := 1, disposition := 0x13 }) moored
    t.fwd.passage[63].used = true ∧ t.fwd.passage[63].ingress = some .M ∧ t.fwd.passage[63].source = none := by
  decide +kernel
/-- R167. -/
theorem test_write_default :
    (after (.tableWriteDefault console 1 { action := 2, job := 3, ports := 0 }) moored).fwd.defaults.m.job = .fuel := by
  decide +kernel

/-- A mode profile in bytes: ceilings 800, the rest as after power-on, guard period 6 s. -/
def profile800 : ModeRaw where
  ahead := 800
  astern := 1000
  stepSize := 20
  stepInterval := 50
  dwell := 30
  guardPeriod := 60
  towAlert := 600
  towOverload := 200
  towHold := 10
  scale := 16
  economy := 700
  gain := 0
  waitLimit := 60
  fallback := 0

/-- Example 1-3: the running guard keeps its expiry, and the ceiling holds at once. -/
theorem test_write_mode :
    let t := after (.tableWriteMode console 1 profile800) rig
    t.helm.guardAt = some 55000000 ∧ t.prop.engines[0].modeAhead = 800 := by decide +kernel
/-- R1. -/
theorem test_write_mode_range : drawn (after (.tableWriteMode console 1 { profile800 with ahead := 1001 }) rig) =
    [3, 2, 5, 1] := by decide +kernel

/-- A governor's entry in bytes. -/
def engineBytes0 : EngineRaw where
  governor := 0
  boat := 1
  side := 0
  rating := 2000
  weight := 4
  serviceTank := 0
  supplyMeter := 0
  returnMeter := 0xFF
  idleBand := 0
  alertCeiling := 600
  alarmCeiling := 300

/-- R17, R18, R30: nominal convoy power forms again. -/
theorem test_write_engine :
    let t := after (.tableWriteEngine console 0 engineBytes0) moored
    t.prop.nominal = 4300 ∧ t.prop.engines[0].state = .standby := by decide +kernel
/-- R49, R50: the rudder's entry with another limit. -/
theorem test_write_actuator :
    let t := after (.tableWriteActuator console 0
      { node := 3, kind := 0, boat := 1, gainAhead := 64, gainAstern := 32, limit := 300, band := 30, time := 20 }) moored
    t.steer.actuators[0].state = .ready ∧ t.steer.actuators[0].entry.limit = 300 := by decide +kernel

/-- A coupling's entry in bytes. -/
def couplingBytes0 : CouplingRaw where
  kind := 0
  bearsOn := 0
  sensor := 6
  channel := 0
  winch := 5
  slack := 50
  alert := 1800
  overload := 2600
  hysteresis := 100
  debounce := 2
  heave := 300
  fill := 9

/-- R69, R70: live fields in any mode. -/
theorem test_write_coupling :
    let t := after (.tableWriteCoupling console 0 couplingBytes0) rig
    t.tow.couplings[0].entry.debounce = 2 ∧ t.tow.couplings[0].state = .madeUp := by decide +kernel
/-- R109: a low mark above the quantity. -/
theorem test_write_tank :
    let t := after (.tableWriteTank console 0
      { capacity := 2000000, role := 0, gauge := 8, channel := 0, lowMark := 1600000, lowCeiling := 500,
        tolerance := 5000 }) rig
    t.fuel.tanks[0].low = true ∧ t.notices.list = [{ kind := .tankLow, subject := 0 }] ∧
      t.prop.engines[0].compositeAhead = 500 := by decide +kernel
/-- R98, R99. -/
theorem test_write_meter :
    let t := after (.tableWriteMeter console 0
      { node := 7, channel := 1, role := 0, firstObject := 0, toTank := 0, maxRate := 80, margin := 200 }) moored
    t.fuel.meters[0].state = .baseline ∧ t.fuel.meters[0].lastTotal = 0 := by decide +kernel
/-- R177. -/
theorem test_write_notice_map : (after (.tableWriteNoticeMap console 16 2) rig).notices.map[15] = 2 := by
  decide +kernel
/-- R185: the account record of E0, 12 bytes on one page, with a leg and a total of 1000. -/
theorem test_state_read : drawn (after (.stateRead console 4 0 0) rig) =
    [4, 0, 4, 0, 0, 1, 0, 0, 0, 0, 0x03, 0xE8, 0, 0, 0, 0, 0x03, 0xE8] := by decide +kernel
/-- R185: a code that names no record. -/
theorem test_state_read_range : drawn (after (.stateRead console 0xEE 0 0) rig) = [4, 2] := by decide +kernel
/-- R172: an increase of port W by 2 and a decrease of port T to 6. -/
theorem test_allocate : drawn (after (.allocate console 10 8 6) moored) =
    [5, 0, 10, 8, 8, 22, 0xFF, 0xFF, 6] := by decide +kernel
/-- R186: the reply carries the new own address. -/
theorem test_set_address :
    let t := after (.setAddress console 99) moored
    t.link.own = 99 ∧ (t.fwd.answers.map Frame.src) = [99] := by decide +kernel

/-- The rig with (NODE_SILENT, 4) in the list and channel 2 of Example 9-1. -/
def noticed : State :=
  { rig with notices := {
      list := [{ kind := .unmetDemand, subject := 0 }, { kind := .nodeSilent, subject := 4 }]
      map := NoticeUnit.reset.map.set 15 2
      channels := NoticeUnit.reset.channels.set 2 { armed := false, autoDisarm := true, overflow := false }
      master := true } }

/-- Example 9-1: arming builds the REPORT at once, and auto-disarm disarms the channel. -/
theorem test_notice_setup :
    let t := after (.noticeSetup console 1 2 1 1) noticed
    t.fwd.queues.w.map Frame.payload = [[1, 2, 0, 1, 16, 4]] ∧ t.notices.channels[2].armed = false := by
  decide +kernel
/-- Example 9-1, last read: the condition does not hold, and the entry is gone for good. -/
theorem test_notice_read :
    let t := after (.noticeRead console 2 1) noticed
    drawn t = [8, 0, 0, 1, 16, 4] ∧ t.notices.list = [{ kind := .unmetDemand, subject := 0 }] := by decide +kernel
/-- R181. -/
theorem test_notice_clear : drawn (after (.noticeClear console 16 1 0) noticed) = [9, 0, 1] := by decide +kernel
/-- R176: with the list full and no buffer for a REPORT, both entries cleared are recorded again. -/
theorem test_notice_clear_full :
    let f : Frame := { dest := 0, src := 99, cls := 9, tag := 0, payload := [7] }
    let s : State := { rig with
      nodes := modTable (modTable rig.nodes 0 fun n => { n with state := .failed }) 1 fun n =>
        { n with state := .failed }
      notices := { rig.notices with
        list := { kind := .nodeFailed, subject := 0 } :: { kind := .nodeFailed, subject := 1 } ::
          (List.range 30).map fun x => { kind := .nodeEnrolled, subject := BitVec.ofNat 8 x }
        channels := Vector.replicate 8 { armed := true, autoDisarm := false, overflow := false }, master := true }
      fwd := { rig.fwd with queues := { rig.fwd.queues with w := List.replicate 32 f } } }
    let t := after (.noticeClear console 17 1 0) s
    drawn t = [9, 0, 2] ∧ t.notices.list.drop 30 =
      [{ kind := .nodeFailed, subject := 0 }, { kind := .nodeFailed, subject := 1 }] ∧
      t.notices.channels[0].overflow = true := by decide +kernel
/-- Example 5-4: FUEL_PRESET of 62 000. -/
theorem test_fuel_preset :
    let t := after (.fuelPreset console 0 62000) rig
    t.fuel.tanks[0].quantity = 62000 ∧ t.fuel.tanks[0].low = false := by decide +kernel
/-- R114: an index above 7. -/
theorem test_fuel_preset_range : drawn (after (.fuelPreset console 8 62000) rig) = [0x0A, 2] := by decide +kernel
/-- R115, R116: the reserve mark reaches the budget. -/
theorem test_leg_start :
    let t := after (.legStart console 5000 5000) rig
    t.fuel.leg.reserve = true ∧ t.fuel.accounts[0].leg = 0 ∧
      t.notices.list = [{ kind := .fuelReserve, subject := 0 }] := by decide +kernel
/-- R117: three engines, one tank and the leg; eight reserved buffers hold the whole statement. -/
theorem test_statement_start :
    let t := after (.statementStart console) rig
    t.fuel.statement.number = 1 ∧ t.fuel.statement.state = .idle ∧
      t.fwd.queues.w.length = rig.snapshot.length := by decide +kernel
/-- R124. -/
theorem test_statement_abort :
    let t := after (.statementAbort console) paused
    t.fuel.statement.state = .idle ∧ t.notices.list = [] ∧ drawn t = [0x0D, 0] := by decide +kernel
/-- R188. -/
theorem test_restart :
    let t := after (.restart console) moored
    t.nodes[0].state = .expected ∧ t.prop.engines[0].state = .lost ∧ t.fuel.tanks[0].quantity = 1500000 ∧
      t.fwd.answers.map Frame.payload = [[0x0E, 0]] := by decide +kernel
/-- R188: CLOSED under way. -/
theorem test_restart_closed : drawn (after (.restart console) rig) = [0x0E, 1] := by decide +kernel
/-- R183: code 0Fh. -/
theorem test_mgmt_unknown : drawn (after (.mgmtUnknown console [0x0F]) rig) = [0x0F, 5] := by decide +kernel
/-- Example 1-1 at 7000, with the fallback power at its default. -/
theorem test_guard_expiry :
    let t := after .guardExpiry rig
    t.helm.helm = .lost ∧ t.helm.mode = 7 ∧ t.helm.remembered = some 1 ∧ t.now = 55000000 ∧
      t.notices.list = [{ kind := .helmLoss, subject := 21 }] := by decide +kernel

/-- Engine 0 slewing down from +10 toward −40 (Example 2-3 at 1500). -/
def slewing : State :=
  rig.modEngine 0 fun e =>
    { e with setpoint := 10, target := -40, slew := .slewing, stepAt := some 51500000 }

/-- Example 2-3 at 1500: the step stops at 0 and the dwell of 3 s starts. -/
theorem test_step_expiry :
    let t := after (.stepExpiry 0) slewing
    t.prop.engines[0].setpoint = 0 ∧ t.prop.engines[0].slew = .dwelling ∧
      t.prop.engines[0].dwellAt = some 54500000 ∧ t.prop.engines[0].lastSign = .ahead := by decide +kernel
/-- R40, R41: under a reversal dwell of 0 the same step leaves the engine SLEWING, free to go astern. -/
theorem test_step_expiry_no_dwell :
    let t := after (.stepExpiry 0) { slewing with helm := { slewing.helm with
      modes := slewing.helm.modes.set 1 { Profile.reset with reversalDwell := 0 } } }
    t.prop.engines[0].setpoint = 0 ∧ t.prop.engines[0].slew = .slewing ∧ t.prop.engines[0].lastSign = .unset ∧
      t.prop.engines[0].stepAt = some 52000000 := by decide +kernel
/-- Example 2-3 at 4500. -/
theorem test_dwell_expiry :
    let t := after (.dwellExpiry 0) (after (.stepExpiry 0) slewing)
    t.prop.engines[0].slew = .slewing ∧ t.prop.engines[0].stepAt = some 55000000 ∧
      t.prop.engines[0].lastSign = .unset := by decide +kernel
/-- Example 3-2 at 2300: forced steer assist begins. -/
theorem test_divergence_expiry :
    let t := after (.divergenceExpiry 0)
      { rig with steer := { rig.steer with
          rudder := 200
          actuators := modTable rig.steer.actuators 0 fun a =>
            { a with ordered := 200, reported := 150, divergeAt := some 53300000 } } }
    t.steer.actuators[0].state = .diverged ∧ t.steer.forced = true ∧ t.prop.diff = 100 := by decide +kernel
/-- R76. -/
theorem test_sample_silence :
    let t := after (.sampleSilenceExpiry 0) rig
    t.tow.couplings[0].state = .silent ∧ t.tow.applied.b1 = 600 := by decide +kernel
/-- R80. -/
theorem test_hold_expiry :
    (after (.holdExpiry .b1) { rig with tow := { rig.tow with
      applied := { b1 := 200, b2 := 1000 }, holdAt := { b1 := some 52000000, b2 := none } } }).tow.applied.b1 =
      1000 := by decide +kernel
/-- R88. -/
theorem test_release_wait :
    let t := after (.releaseWaitExpiry 0) releasing
    t.tow.couplings[0].state = .madeUp ∧ t.notices.list = [{ kind := .releaseAbandoned, subject := 0 }] := by
  decide +kernel
/-- R94. -/
theorem test_makeup_wait :
    (after (.makeupWaitExpiry 0) (after (.coupleMakeUp console 0)
      (rig.modCoupling 0 fun k => { k with state := .released }))).tow.couplings[0].state = .released := by
  decide +kernel
/-- Example 5-3 at 54 000. -/
theorem test_meter_silence :
    let t := after (.meterSilenceExpiry 0) rig
    t.fuel.meters[0].state = .estimating ∧ t.fuel.meters[0].tickAt = some 54000000 := by decide +kernel
/-- Example 5-3: a tick books the last rate, here 28. -/
theorem test_estimate_tick :
    let t := after (.estimateTick 0) (after (.meterSilenceExpiry 0) rig)
    t.fuel.meters[0].accumulator = 28 ∧ t.fuel.accounts[0].leg = 1028 ∧ t.fuel.tanks[0].quantity = 1499972 := by
  decide +kernel
/-- R122. -/
theorem test_stall : (after .stallExpiry paused).notices.list = [{ kind := .statementEnd, subject := 1 }] := by
  decide +kernel
/-- R131, R22: the governor falls silent and its engine is LOST. -/
theorem test_silence :
    let t := after (.silenceExpiry 0) rig
    t.nodes[0].state = .silent ∧ t.prop.engines[0].state = .lost := by decide +kernel
/-- R133, R44: the setpoint is placed again. -/
theorem test_refresh :
    let t := after (.refreshExpiry 0) rig
    t.nodes[0].refreshAt = some 52900000 ∧ t.trans.slots[0].kind = .setpoint ∧ t.trans.laneM = [0] := by
  decide +kernel
/-- R58, R137: the QUEUED ANGLE takes the present ordered value and keeps its place. -/
theorem test_refresh_supersedes :
    let t := after (.refreshExpiry 3) busy
    t.trans.slots[1].value = .amount 0 ∧ t.trans.slots[1].state = .queued ∧ t.trans.laneM = [1] := by decide +kernel
/-- Example 6-1 at 51. -/
theorem test_ack_timeout :
    let t := after (.ackTimeout 0) busy
    t.trans.slots[0].state = .free ∧ t.nodes[0].timeouts = 1 := by decide +kernel
/-- R143: the third timeout in a row. -/
theorem test_ack_timeout_third :
    (after (.ackTimeout 0) (busy.modNode 0 fun n => { n with timeouts := 2 })).nodes[0].state = .failed := by
  decide +kernel
/-- With nothing waiting and nothing due, the time base goes on. -/
theorem test_step_idle : step State.reset = .next { State.reset with now := 1 } := rfl
/-- A step takes the command at the front. -/
theorem test_step_front : step { rig with pending := [.identify console, .restart console] } =
    exec (.identify console) { rig with pending := [.restart console] } := rfl

/-! ### States and operands that meet the hypotheses of each statement -/

/-- A frame that is heard and taken for a job, from conditions that are decided together. -/
theorem delivers {s : State} {p : Port} {h : Header} {c : Content} {j : Job} {n : Fin 32}
    (x : (s.link.ports.get p).sending = none ∧ s.nodeOf p h.src = some n ∧ s.nodes[n].state = .enrolled ∧
      (s.fwd.disposition p (c.frame h)).1.takes = true ∧ (s.fwd.disposition p (c.frame h)).2.1 = j) :
    s.Delivers p h c j n := ⟨x.1, x.2.1, x.2.2.1, x.2.2.2.1, x.2.2.2.2⟩
/-- An admitted order, from conditions that are decided together. -/
theorem admits {s : State} {o : Origin}
    (x : s.helm.lists o.src = true ∧ s.helm.helm = .normal ∧ s.helm.command = some o.src ∧
      (s.link.ports.get .W).sending = none ∧ s.fwd.answers.length < 4) : s.Admits o :=
  ⟨x.1, x.2.1, x.2.2.1, x.2.2.2.1, x.2.2.2.2⟩
/-- A SETPOINT with nothing in its way, from conditions that are decided together. -/
theorem maySetpoint {s : State} {i : Fin 6} {g : Fin 32}
    (x : s.prop.engines[i].entry.governor = some g ∧ (∀ j : Fin 6, j ≠ i → s.prop.engines[j].entry.governor ≠ some g) ∧
      (s.nodes[g].state ≠ .failed ∧ s.nodes[g].state ≠ .unused) ∧
      ∀ j : Fin 16, s.waitingSlot g = some j → s.trans.slots[j].kind = .setpoint) : s.maySetpoint i g :=
  ⟨x.1, x.2.1, x.2.2.1, x.2.2.2⟩

/-- An ANGLE or BOW with nothing in its way, from conditions that are decided together. -/
theorem mayOrder {s : State} {a : Fin 5} {n : Fin 32}
    (x : s.steer.actuators[a].entry.node = some n ∧ (∀ b : Fin 5, b ≠ a → s.steer.actuators[b].entry.node ≠ some n) ∧
      (∀ i : Fin 6, s.prop.engines[i].entry.governor ≠ some n) ∧
      (s.nodes[n].state ≠ .failed ∧ s.nodes[n].state ≠ .unused) ∧
      ∀ j : Fin 16, s.waitingSlot n = some j →
        s.trans.slots[j].kind = (if s.steer.actuators[a].entry.kind = .bowUnit then .bow else .angle)) :
    s.mayOrder a n := ⟨x.1, x.2.1, x.2.2.1, x.2.2.2.1, x.2.2.2.2⟩

/-- A command that is next, answered, and neither of the two resets. -/
theorem witness_a_command_answers : exec (.identify console) rig = .next (after (.identify console) rig) ∧
    Instr.identify console ≠ .powerOnReset ∧ (∀ o, Instr.identify console ≠ .restart o) ∧
    (∀ o k x, Instr.identify console ≠ .noticeRead o k x) ∧
    (∀ o k x y, Instr.identify console ≠ .noticeClear o k x y) :=
  ⟨rfl, by decide, by intro o; simp, by intro o k x; simp, by intro o k x y; simp⟩

/-- The part under way with an order in flight and one QUEUED has every property that a step keeps. -/
theorem witness_sound : busy.Sound where
  allocated := ⟨by decide +kernel, by intro p; cases p <;> decide +kernel, by decide +kernel,
    by intro p n h; cases p <;> simp [busy, withSlot, State.modSlot, rig, State.reset, Forwarding.reset, PerPort.get] at h,
    by decide +kernel⟩
  answers := by unfold Forwarding.AnswersFit; decide +kernel
  notices := by unfold NoticeUnit.Fits; decide +kernel
  helm := ⟨by decide +kernel, by decide +kernel, by decide +kernel, by decide +kernel, by decide +kernel,
    by decide +kernel, by decide +kernel, by decide +kernel⟩
  slots := ⟨by decide +kernel, by decide +kernel, by decide +kernel,
    by intro p; cases p <;> decide +kernel, by intro p; cases p <;> decide +kernel, by decide +kernel⟩
  engines := by
    intro i
    refine ⟨?_, ?_, ?_⟩ <;> revert i <;> decide +kernel
  forced := by unfold State.ForcedSound; decide +kernel
  tow := by
    have h : ∀ c : Fin 48, busy.tow.couplings[c].prior = none := by decide +kernel
    exact ⟨by decide +kernel, by decide +kernel, (fun c k e => by rw [h c] at e; cases e), by decide +kernel,
      by decide +kernel⟩
  targets := by
    refine ⟨fun i => ?_, fun i _ => ?_, by simp only [State.DemandShared]; decide +kernel⟩
    · refine ⟨?_, ?_, ?_, ?_, ?_, ?_⟩ <;> revert i <;> decide +kernel
    · refine ⟨?_, ?_⟩ <;> revert i <;> decide +kernel
  nominal := by unfold State.NominalFormed; decide +kernel
  wash := ⟨by intro b; cases b <;> decide +kernel, by intro x; cases x <;> decide +kernel,
    by unfold State.mapped; decide +kernel⟩
  ceilings := by
    refine ⟨?_, ?_, ?_, ?_, ?_⟩ <;> intro b <;> cases b <;> (try unfold Coupling.on) <;> decide +kernel

/-- A step of a state with a queue, and one of a state without. -/
theorem witness_a_step : (∃ t, step { busy with pending := [.propel console 600 0 0 0] } = .next t) ∧
    ∃ t, step busy = .next t := by
  refine ⟨⟨_, rfl⟩, after (.transmitStart .M) busy, ?_⟩
  have h : busy.due = [.transmitStart .M] := by decide +kernel
  rw [show step busy = exec (.transmitStart .M) busy from by
    show busy.idle = _
    unfold State.idle
    rw [h]]
  rfl
/-- IdleStep: nothing due, an event due, and the guard one microsecond before its expiry and at it. -/
theorem witness_idle : (State.reset.pending = [] ∧ State.reset.due = []) ∧
    (busy.pending = [] ∧ busy.due = [.transmitStart .M]) ∧
    .guardExpiry ∉ ({ rig with now := 54999999 } : State).due ∧
    .guardExpiry ∈ ({ rig with now := 55000000 } : State).due := by decide +kernel

/-- The rig with coupling 0 PARTED, whose boat is the boat of E0. -/
def parted : State := after (.winchStatus .T (toAll 42) .parted) { busy with
  fwd := { busy.fwd with defaults := (taking .tow).fwd.defaults } }

/-- StepKeepsCouplingWorkAndCeilings: a PARTED coupling that bears on the boat of an engine. -/
theorem witness_parted : parted.EnginesSound ∧ parted.TargetsFormed ∧ parted.CeilingsFormed ∧
    parted.tow.couplings[0].state = .parted ∧ parted.tow.couplings[0].on .b1 ∧
    parted.prop.engines[0].entry.boat = .b1 := by
  refine ⟨?_, ?_, ?_, by decide +kernel, by unfold Coupling.on; decide +kernel, by decide +kernel⟩
  · intro i
    refine ⟨?_, ?_, ?_⟩ <;> revert i <;> decide +kernel
  · refine ⟨fun i => ?_, fun i _ => ?_, by simp only [State.DemandShared]; decide +kernel⟩
    · refine ⟨?_, ?_, ?_, ?_, ?_, ?_⟩ <;> revert i <;> decide +kernel
    · refine ⟨?_, ?_⟩ <;> revert i <;> decide +kernel
  · refine ⟨?_, ?_, ?_, ?_, ?_⟩ <;> intro b <;> cases b <;> (try unfold Coupling.on) <;> decide +kernel
/-- TablesChangeByTheirWrites, OrdersChangeByTheirCommands, LinkAndNoticesChangeByTheirCommands: a command that is no
frame, and an order to the own address given as a PASSAGE_FRAME. -/
theorem witness_actual : (Instr.identify console).actual rig.link.own = .identify console ∧
    (Instr.passageFrame .W { dest := 120, src := 21, cls := 0, tag := 3, payload := [3, 1, 2] }).actual rig.link.own =
      .convoyMode console 2 := by decide +kernel

/-- RefusedOrdersChangeNothing: each row, at the edges of the helm state and the station table. -/
theorem witness_refused : rig.hasRoom ∧ rig.helm.lists 23 = false ∧
    (lost.hasRoom ∧ lost.helm.lists 21 = true ∧ lost.helm.helm = .lost) ∧
    (rig.helm.lists 22 = true ∧ rig.helm.helm = .normal ∧ rig.helm.command ≠ some 22) ∧
    (rig.helm.lists 21 = true ∧ rig.helm.helm = .normal) := by
  unfold State.hasRoom State.listens; decide +kernel

/-- The rig with its answer lane full. -/
def full4 : State :=
  let f : Frame := { dest := 21, src := 120, cls := 1, tag := 0, payload := [1, 0] }
  { rig with fwd := { rig.fwd with answers := [f, f, f, f] } }

/-- EachDrawsOneAnswer: a full lane, and a lane with one place left. -/
theorem witness_answer_lane : 4 ≤ full4.fwd.answers.length ∧
    ({ full4 with fwd := { full4.fwd with answers := full4.fwd.answers.tail } } : State).hasRoom ∧
    rig.link.own = 120 ∧
    (∀ o, classify 120 .W { dest := 120, src := 21, cls := 5, tag := 3, payload := [1] } ≠ .restart o) := by
  refine ⟨by decide +kernel, by unfold State.hasRoom State.listens; decide +kernel, by decide +kernel, ?_⟩
  have h : classify 120 .W { dest := 120, src := 21, cls := 5, tag := 3, payload := [1] } =
      .identify { src := 21, tag := 3 } := by decide +kernel
  intro o
  rw [h]
  simp

/-- FramesGiveTheirCommands: a command with operands, and a passage frame at the edge of fixed intake. -/
theorem witness_frames :
    ((Instr.tension .T (toAll 43) (List.replicate 7 (3, 0xFFFF))).wellFormed = true ∧
      ((Instr.tension .T (toAll 43) (List.replicate 7 (3, 0xFFFF))).frame 120).isSome = true) ∧
    (let f : Frame := { dest := 119, src := 21, cls := 0, tag := 0, payload := [] }
     (Instr.passageFrame .W f).wellFormed = true ∧ (Instr.passageFrame .W f).frame 120 = some (.W, f) ∧
       fixedIntake 120 .W f = false) := by decide +kernel

/-- ConvoyModeTaken, PropelTaken, SteerTaken, the COUPLE orders: an order that is admitted. -/
theorem witness_admits : rig.Admits console :=
  ⟨by decide +kernel, by decide +kernel, by decide +kernel, by unfold State.hasRoom State.listens; decide +kernel⟩
theorem witness_mode_codes : ((6 : Byte).toNat = (6 : Fin 8).val ∧ (6 : Fin 8) ≠ 7) ∧ 7 ≤ (7 : Byte).toNat ∧
    (1 : Byte).toNat ≤ 1 ∧ 1 < (2 : Byte).toNat := by decide
/-- TakeCommandTaken: from the station in command, and from the other. -/
theorem witness_take_command : rig.hasRoom ∧ rig.helm.helm = .normal ∧
    (rig.helm.lists 21 = true ∧ rig.helm.command = some 21) ∧
    (rig.helm.lists 22 = true ∧ rig.helm.command ≠ some 22) := by unfold State.hasRoom State.listens; decide +kernel
/-- HelmLossAndResume. -/
theorem witness_helm_loss : rig.helm.guardAt = some 55000000 ∧ moored.helm.guardAt = none ∧
    (lost.helm.lists 22 = true ∧ lost.helm.helm = .lost ∧ lost.helm.remembered = some 1 ∧ lost.hasRoom ∧
      lost.helm.command ≠ some 22) := by unfold State.hasRoom State.listens; decide +kernel

/-- The rig with a convoy power order and an E2 limited to 600. -/
def ordered (p : Int) : State :=
  { rig with prop := { rig.prop with
      power := p, engines := modTable rig.prop.engines 2 fun e => { e with health := .alert } } }

/-- RecomputeSharesTheDemand: no weight at all; no shortfall; a shortfall that E0 and E1 receive; a shortfall
that none receives. -/
theorem witness_shares :
    (State.reset.recompute.prop.unmet = 0 ∧ State.reset.prop.engines[0].state ≠ .running) ∧
    ((ordered 600).recompute.prop.engines[2].target = 570 ∧ (ordered 600).recompute.prop.unmet = 0) ∧
    ((ordered 750).recompute.prop.engines[2].target = 600 ∧ (ordered 750).recompute.prop.engines[0].target = 789) ∧
    (let s : State := { ordered 900 with tow := { rig.tow with applied := { b1 := 0, b2 := 0 } } }
     0 < s.recompute.prop.unmet ∧ s.recompute.prop.engines[0].target = 0) := by decide +kernel
/-- RecomputeFormsTheCeilings: an engine that is not ABSENT, with a service tank and at 0. -/
theorem witness_ceilings : rig.prop.engines[0].state ≠ .absent ∧ rig.prop.engines[0].health = .sound ∧
    rig.prop.engines[0].entry.serviceTank = some 0 ∧ rig.prop.engines[1].entry.serviceTank = none ∧
    rig.prop.engines[0].setpoint = 0 ∧ (ordered 0).prop.engines[2].health = .alert := by decide +kernel

/-- The rig under P = 600 with engine 0 in a slew sub-state at a setpoint. -/
def slewed (slew : Slew) (setpoint : Int) (side : LastSign) : State :=
  { rig with prop := { (rig.modEngine 0 fun e =>
      { e with slew := slew, setpoint := setpoint, target := 700, lastSign := side }).prop with power := 600 } }
/-- RecomputeFormsTheCeilings, slewing: a dwell that is cancelled and one that goes on, a return to the dwell, and an
engine that starts, that goes on in its direction, and that turns; a cut to 0 stands in `witness_setpoints`, and an
engine that stays STEADY is any of `rig`. -/
theorem witness_slewing :
    let t (s : State) : Int := s.recompute.prop.engines[0].target
    (0 < t (slewed .dwelling 0 .ahead) ∧ 0 < t (slewed .dwelling 0 .astern) ∧ 0 < t (slewed .slewing 0 .astern)) ∧
    (t (slewed .steady 0 .unset) ≠ 0 ∧ t rig = 0 ∧ rig.prop.engines[0].slew = .steady) ∧
    (10 < t (slewed .slewing 10 .unset) ∧ t (slewed .slewing 690 .unset) < 690) ∧
    (∀ side : LastSign, side = .ahead ∨ side = .astern →
      (slewed .dwelling 0 side).prop.engines[0].setpoint = 0 ∧
        (slewed .dwelling 0 side).prop.engines[0].lastSign = side) := by
  refine ⟨by decide +kernel, by decide +kernel, by decide +kernel, ?_⟩
  rintro _ (rfl | rfl) <;> decide +kernel
/-- PropelTaken: without CRASH; with it, from 0, and from +10 toward a target ahead and toward one astern. -/
theorem witness_crash : (0 : Byte).getLsbD 0 = false ∧ slewing.Admits console ∧
    slewing.prop.engines[0].setpoint = 10 ∧ slewing.prop.engines[1].setpoint = 0 ∧
    0 < (after (.propel console 600 0 0 1) slewing).prop.engines[0].target ∧
    (after (.propel console (-600) 0 0 1) slewing).prop.engines[0].target < 0 ∧
    0 < slewing.helm.modes[slewing.helm.mode].reversalDwell :=
  ⟨by decide, admits (by decide +kernel), by decide +kernel, by decide +kernel, by decide +kernel, by decide +kernel,
    by decide +kernel⟩
theorem witness_engine_status :
    (taking .propulsion).Delivers .M (toAll 31) (.engineStatus .running 300 .trip) .propulsion 0 ∧
    (taking .propulsion).engineOf 0 = some 0 ∧ (taking .propulsion).prop.engines[0].state = .running ∧
    (taking .propulsion).prop.engines[0].health = .sound :=
  ⟨delivers (by decide +kernel), by decide +kernel, by decide +kernel, by decide +kernel⟩
/-- StepAndDwellExpiry: stopped and running timers; a step that ends at 0, one that ends at the target, and one
that does not; a dwell with a target and without. -/
theorem witness_step_and_dwell : rig.prop.engines[0].stepAt = none ∧ rig.prop.engines[0].dwellAt = none ∧
    slewing.prop.engines[0].stepAt = some 51500000 ∧
    (after (.stepExpiry 0) slewing).prop.engines[0].setpoint = 0 ∧ slewing.prop.engines[0].setpoint ≠ 0 ∧
    (let s := slewing.modEngine 0 fun e => { e with target := 30 }
     (after (.stepExpiry 0) s).prop.engines[0].setpoint = 30) ∧
    (let s := slewing.modEngine 0 fun e => { e with target := 31 }
     (after (.stepExpiry 0) s).prop.engines[0].setpoint = 30) ∧
    (let s : State := { slewing with helm := { slewing.helm with
        modes := slewing.helm.modes.set 1 { Profile.reset with reversalDwell := 0 } } }
     s.helm.modes[s.helm.mode].reversalDwell = 0 ∧ s.prop.engines[0].stepAt = some 51500000 ∧
       (after (.stepExpiry 0) (s.modEngine 0 fun e => { e with target := 0 })).prop.engines[0].slew = .steady) ∧
    (after (.stepExpiry 0) slewing).prop.engines[0].dwellAt = some 54500000 := by decide +kernel
/-- SetpointChangesPlaceOrders: a step, a recompute that cuts, a crash stop, a status that stops the engine, and a
state with all that a recompute forms. -/
theorem witness_setpoints :
    (slewing.maySetpoint 0 0 ∧ slewing.hasFree) ∧
    (let s : State := { slewing with tow := { slewing.tow with applied := { b1 := 0, b2 := 0 } } }
     s.maySetpoint 0 0 ∧ s.recompute.prop.engines[0].setpoint = 0 ∧ s.prop.engines[0].setpoint = 10 ∧
       s.recompute.hasFree) ∧
    (slewing.Admits console ∧ (1 : Byte).getLsbD 0 = true ∧ slewing.prop.engines[0].setpoint ≠ 0 ∧
      (after (.propel console 600 0 0 1) slewing).hasFree) ∧
    ((taking .propulsion).Delivers .M (toAll 31) (.engineStatus .stopped 0 .noAlarm) .propulsion 0 ∧
      (taking .propulsion).maySetpoint 0 0 ∧
      (after (.engineStatus .M (toAll 31) .stopped 0 .noAlarm) (taking .propulsion)).hasFree) ∧
    (busy.TargetsFormed ∧ busy.EnginesSound ∧ busy.WashSound) := by
  refine ⟨⟨maySetpoint (by decide +kernel), ?_⟩,
    ⟨maySetpoint (by decide +kernel), by decide +kernel, by decide +kernel, ?_⟩,
    ⟨admits (by decide +kernel), by decide, by decide +kernel, ?_⟩,
    ⟨delivers (by decide +kernel), maySetpoint (by decide +kernel), ?_⟩,
    witness_sound.targets, witness_sound.engines, witness_sound.wash⟩ <;> unfold State.hasFree <;> decide +kernel
/-- The rig with a rudder demand of 200 held and the actuator so ordered, with the wash direction AHEAD and engine 0 at
−10 toward −700. -/
def turning : State :=
  { (slewing.modEngine 0 fun e => { e with setpoint := -10, target := -700 }).modActuator 0 fun a =>
      { a with ordered := 200 } with
    steer := { ((slewing.modActuator 0 fun a => { a with ordered := 200 }).steer) with rudder := 200 } }
/-- SteerTaken: an ordered value that changes by a STEER, by a recompute and by a step, at a node with nothing in the
way and with slots FREE afterwards; a STEER that changes none, under FIXED; AUTO; an ABSENT actuator. -/
theorem witness_steer :
    (rig.Admits console ∧ rig.mayOrder 0 3 ∧ (after (.steer console 200 0 0) rig).hasFree ∧
      (after (.steer console 200 0 0) rig).steer.actuators[0].ordered = 200 ∧
      rig.steer.actuators[0].ordered = 0) ∧
    (rig.steer.actuators[0].state ≠ .absent ∧ rig.steer.actuators[1].state = .absent ∧
      rig.prop.diffMode = .fixed ∧ rig.steer.forced = false ∧
      (after (.steer console 0 0 0) rig).steer.actuators[0].ordered = 0) ∧
    (let s : State := { rig with prop := { rig.prop with diffMode := .auto } }
     s.Admits console ∧ s.prop.diffMode = .auto) ∧
    (turning.mayOrder 0 3 ∧ turning.prop.engines[0].stepAt = some 51500000 ∧
      turning.steer.actuators[0].state ≠ .absent ∧ turning.prop.wash.b1 = .ahead) ∧
    (turning.recompute.hasFree ∧ turning.recompute.prop.wash.b1 = .astern ∧
      turning.recompute.steer.actuators[0].ordered = 100) ∧
    ((after (.stepExpiry 0) turning).hasFree ∧ (after (.stepExpiry 0) turning).prop.wash.b1 = .astern ∧
      (after (.stepExpiry 0) turning).steer.actuators[0].ordered = 100) := by
  refine ⟨⟨admits (by decide +kernel), mayOrder (by decide +kernel), ?_, by decide +kernel, by decide +kernel⟩,
    by decide +kernel, ⟨admits (by decide +kernel), rfl⟩, ⟨mayOrder (by decide +kernel), by decide +kernel⟩,
    ⟨?_, by decide +kernel⟩, ?_, by decide +kernel⟩ <;> unfold State.hasFree <;> decide +kernel
/-- ActuatorStatusAndDivergence, EnrolTaken, SilentNodeHeard: a rudder in FAULT, and a rudder LOST with its node, return
to READY at a node with nothing in the way and with slots FREE afterwards. -/
theorem witness_ready_again :
    (let s := (taking .steering).modActuator 0 fun a => { a with state := .fault }
     s.Delivers .M (toAll 34) (.actuatorStatus 31 .noFault) .steering 3 ∧ s.mayOrder 0 3 ∧
       s.setForced.ForcedSound ∧ (after (.actuatorStatus .M (toAll 34) 31 .noFault) s.setForced).hasFree) ∧
    (let s := after (.silenceExpiry 3) rig
     s.mayOrder 0 3 ∧ s.nodeOf .M 34 = some 3 ∧ s.nodes[3].state = .silent ∧ s.actuatorOf 3 = some 0 ∧
       s.steer.actuators[0].state = .lost ∧ (after (.enrol .M (toAll 34) [s.nodes[3].entry.kind.enrolKind]) s).hasFree ∧
       (after (.ackOfNoKind .M { src := 34, tag := 0 } [9]) s).hasFree) := by
  refine ⟨⟨delivers (by decide +kernel), mayOrder (by decide +kernel), ?_, ?_⟩, mayOrder (by decide +kernel),
    by decide +kernel, by decide +kernel, by decide +kernel, by decide +kernel, ?_, ?_⟩
  · unfold State.ForcedSound; decide +kernel
  all_goals unfold State.hasFree; decide +kernel
theorem witness_actuator_status :
    (taking .steering).Delivers .M (toAll 34) (.actuatorStatus 31 .noFault) .steering 3 ∧
    (taking .steering).actuatorOf 3 = some 0 ∧ (taking .steering).ForcedSound :=
  ⟨delivers (by decide +kernel), by decide +kernel,
    by unfold State.ForcedSound; decide +kernel⟩
/-- ActuatorStatusAndDivergence: a stopped timer, and a running one in READY. -/
theorem witness_divergence : rig.steer.actuators[0].divergeAt = none ∧
    (let s := rig.modActuator 0 fun a => { a with divergeAt := some 51000000 }
     s.steer.actuators[0].divergeAt = some 51000000 ∧ s.steer.actuators[0].state = .ready) := by decide +kernel
theorem witness_tension :
    (taking .tow).Delivers .T (toAll 43) (.tension [(0, 1800)]) .tow 6 ∧
    (taking .tow).couplingOf 6 0 = some 0 ∧ (taking .tow).tow.couplings[0].state ≠ .releasing ∧
    (taking .tow).tow.couplings[0].state ≠ .makingUp :=
  ⟨delivers (by decide +kernel), by decide +kernel, by decide +kernel,
    by decide +kernel⟩
/-- TowCeilingsFormed: a fall, a held rise under a running timer and under a stopped one, and a rise with a hold
time of 0. -/
theorem witness_tow_ceilings :
    ((rig.modCoupling 0 fun k => { k with state := .parted }).formTow.tow.applied.b1 = 0) ∧
    (let s : State := { rig with tow := { rig.tow with
        applied := { b1 := 600, b2 := 600 }, holdAt := { b1 := some 52000000, b2 := none } } }
     s.formTow.tow.applied = { b1 := 600, b2 := 600 } ∧ s.formTow.tow.holdAt.b1 = some 52000000 ∧
       s.formTow.tow.holdAt.b2 = some 61000000) ∧
    (let s : State := { rig with
        helm := { rig.helm with modes := rig.helm.modes.set 1 { Profile.reset with towHold := 0 } }
        tow := { rig.tow with applied := { b1 := 600, b2 := 600 } } }
     s.formTow.tow.applied = { b1 := 1000, b2 := 1000 }) := by decide +kernel
theorem witness_couple_release : (0 : Byte).toNat = (0 : Fin 48).val ∧ rig.tow.couplings[0].entry.winch = some 5 ∧
    rig.nodes[5].state ≠ .failed ∧ rig.nodes[5].state ≠ .unused ∧ rig.tow.couplings[0].state = .madeUp ∧
    rig.tow.work = none ∧ rig.waitingSlot 5 = none ∧ ∃ i : Fin 16, rig.trans.slots[i].state = .free := by
  decide +kernel

/-- CoupleReleaseTaken and CoupleMakeUpTaken, refused: an index of 48; an UNUSED coupling; no winch, a FAILED one; and
other work, a waiting order of the winch, and no FREE slot, for a coupling that may. -/
theorem witness_couple_refused : (rig.Admits console ∧ 48 ≤ (48 : Byte).toNat) ∧
    rig.tow.couplings[1].state = .unused ∧ rig.tow.couplings[1].entry.winch = none ∧
    (let s := rig.modNode 5 fun n => { n with state := .failed }
     s.Admits console ∧ s.tow.couplings[0].entry.winch = some 5 ∧ s.nodes[5].state = .failed) ∧
    ∀ x : CouplingState, x = .slack ∨ x = .madeUp →
      let may := rig.modCoupling 0 fun k => { k with state := x }
      may.Admits console ∧ may.tow.couplings[0].state = x ∧
      (let s : State := { may with tow := { may.tow with work := some 1 } }
       ∃ d : Fin 48, d ≠ 0 ∧ s.tow.work = some d) ∧
      ((withSlot may 0 { awaiting with target := 5, state := .queued }).waitingSlot 5).isSome = true ∧
      (let s : State := { may with trans := { may.trans with slots := Vector.replicate 16 awaiting } }
       ∀ i : Fin 16, s.trans.slots[i].state ≠ .free) := by
  refine ⟨⟨admits (by decide +kernel), by decide⟩, by decide +kernel, by decide +kernel,
    ⟨admits (by decide +kernel), by decide +kernel, by decide +kernel⟩, ?_⟩
  rintro x (rfl | rfl) <;>
    exact ⟨admits (by decide +kernel), by decide +kernel, ⟨1, by decide, rfl⟩, by decide +kernel, by decide +kernel⟩

/-- `releasing` with boat 1 at zero again. -/
def atZero : State :=
  { releasing with prop := { releasing.prop with zero := { b1 := true, b2 := true }, zeroAll := true } }

/-- SlotReleaseCancelAndAccept: the condition holds, and does not; each order in the state it wants, and in
another. -/
theorem witness_slot_release :
    (atZero.tow.couplings[0].state = .releasing ∧ atZero.tow.couplings[0].phase = some .waitZero ∧
      atZero.prop.zeroOf .boat1 = true ∧ (atZero.releaseSlotOf 0).isSome = true ∧
      (∀ i, atZero.releaseSlotOf 0 = some i → atZero.trans.slots[i].state = .held)) ∧
    releasing.prop.zeroOf .boat1 = false ∧
    (rig.modCoupling 0 fun k => { k with state := .parted }).tow.couplings[0].state = .parted ∧
    rig.tow.couplings[0].state = .madeUp ∧ rig.tow.couplings[0].phase = none := by decide +kernel
theorem witness_releasing_admits : releasing.Admits console ∧ 48 ≤ (48 : Byte).toNat ∧
    (rig.modCoupling 0 fun k => { k with state := .parted }).Admits console :=
  ⟨admits (by decide +kernel), by decide, admits (by decide +kernel)⟩

/-- A release that is ORDERED, its slot QUEUED, with every port taking frames for the PROPULSION job. -/
def orderedRelease : State :=
  { after (.coupleRelease console 0) rig with fwd := (taking .propulsion).fwd }

/-- SlotReleaseCancelAndAccept, the return to WAIT_ZERO: a load of 1 against an idle band of 0. -/
theorem witness_held_again :
    orderedRelease.Delivers .M (toAll 31) (.engineStatus .running 1 .noAlarm) .propulsion 0 ∧
    orderedRelease.engineOf 0 = some 0 ∧ orderedRelease.prop.engines[0].state = .running ∧
    orderedRelease.prop.engines[0].health = .sound ∧
    orderedRelease.prop.engines[0].entry.idleBand < (1 : Half).toInt.natAbs ∧
    orderedRelease.prop.engines[0].entry.boat = .b1 ∧ orderedRelease.tow.couplings[0].entry.bearsOn = .boat1 ∧
    orderedRelease.tow.work = some 0 ∧ orderedRelease.tow.couplings[0].state = .releasing ∧
    orderedRelease.tow.couplings[0].phase = some .ordered ∧ orderedRelease.prop.zeroOf .boat1 = true ∧
    orderedRelease.releaseSlotOf 0 = some 0 ∧ orderedRelease.trans.slots[0].state = .queued :=
  ⟨delivers (by decide +kernel), by decide +kernel⟩
theorem witness_make_up :
    let s := rig.modCoupling 0 fun k => { k with state := .released }
    s.tow.couplings[0].entry.winch = some 5 ∧ s.tow.couplings[0].state = .released ∧ s.tow.work = none ∧
      s.waitingSlot 5 = none ∧ s.nodes[5].state ≠ .failed ∧ s.nodes[5].state ≠ .unused ∧
      (∃ i : Fin 16, s.trans.slots[i].state = .free) ∧ s.helm.command = some 21 := by decide +kernel

/-- A make-up in progress. -/
def heaving : State := after (.coupleMakeUp console 0) (rig.modCoupling 0 fun k => { k with state := .slack })

/-- CouplingTimerExpiries: a release in WAIT_ZERO, one past it with the tension below the slack mark, and a make-up. -/
theorem witness_work_wait :
    (releasing.tow.couplings[0].waitAt = some 111000000 ∧ releasing.tow.couplings[0].state = .releasing ∧
      releasing.tow.couplings[0].phase = some .waitZero) ∧
    (let s := releasing.modCoupling 0 fun k => { k with phase := some .awaitSlack, last := 49 }
     s.tow.couplings[0].last < s.tow.couplings[0].entry.slack) ∧
    heaving.tow.couplings[0].waitAt = some 111000000 ∧ heaving.tow.couplings[0].state = .makingUp ∧
    heaving.tow.couplings[0].phase = none := by decide +kernel

/-- Frames taken for the TOW job in a state. -/
def towTaking (s : State) : State := { s with fwd := { s.fwd with defaults := (taking .tow).fwd.defaults } }

theorem witness_winch_status (c : WinchCondition) :
    (towTaking releasing).Delivers .T (toAll 42) (.winchStatus c) .tow 5 ∧
    findTable (towTaking releasing).tow.couplings (fun k => decide (k.entry.winch = some 5)) = some 0 := by
  cases c <;> exact ⟨delivers (by decide +kernel), by decide +kernel⟩
/-- TensionRead, of a coupling in work: a release in WAIT_ZERO at the slack mark of 50 and below it, with the load lost
at the alert mark of 1800, below it, and with a SILENT prior state; a release that is ORDERED, and one that awaits
slack; a make-up at the slack mark and below it. -/
theorem witness_tension_work :
    (let s := towTaking releasing
     s.Delivers .T (toAll 43) (.tension [(0, 50)]) .tow 6 ∧ s.Delivers .T (toAll 43) (.tension [(0, 49)]) .tow 6 ∧
       s.couplingOf 6 0 = some 0 ∧ s.tow.couplings[0].prior = some .madeUp ∧
       s.tow.couplings[0].phase = some .waitZero ∧ s.tow.couplings[0].entry.slack = 50 ∧
       s.tow.couplings[0].entry.alert = 1800 ∧ s.tow.couplings[0].last = 500 ∧ (s.releaseSlotOf 0).isSome = true) ∧
    ((towTaking (releasing.modCoupling 0 fun k => { k with last := 1800 })).tow.couplings[0].last = 1800) ∧
    ((towTaking (after (.sampleSilenceExpiry 0) releasing)).tow.couplings[0].prior = some .silent) ∧
    ((towTaking orderedRelease).tow.couplings[0].phase = some .ordered ∧
      (towTaking orderedRelease).Delivers .T (toAll 43) (.tension [(0, 49)]) .tow 6) ∧
    ((towTaking (orderedRelease.modCoupling 0 fun k => { k with phase := some .awaitSlack })).tow.couplings[0].phase =
      some .awaitSlack) ∧
    ((towTaking heaving).tow.couplings[0].state = .makingUp ∧
      (towTaking heaving).Delivers .T (toAll 43) (.tension [(0, 50)]) .tow 6 ∧
      (towTaking heaving).Delivers .T (toAll 43) (.tension [(0, 49)]) .tow 6) :=
  ⟨⟨delivers (by decide +kernel), delivers (by decide +kernel), by decide +kernel⟩, by decide +kernel, by decide +kernel,
    ⟨by decide +kernel, delivers (by decide +kernel)⟩, by decide +kernel,
    ⟨by decide +kernel, delivers (by decide +kernel), delivers (by decide +kernel)⟩⟩
/-- WinchStatusRead: the states and phases that its clauses name. -/
theorem witness_winch_states : releasing.tow.couplings[0].state = .releasing ∧
    releasing.tow.couplings[0].phase = some .waitZero ∧ (after (.slotRelease 0) atZero).tow.couplings[0].phase =
      some .ordered ∧ rig.tow.couplings[0].state = .madeUp ∧ rig.tow.couplings[1].state = .unused := by decide +kernel
theorem witness_coupling_timers : rig.tow.couplings[0].sampleAt = some 52500000 ∧
    rig.tow.couplings[0].state = .madeUp ∧ releasing.tow.couplings[0].sampleAt = some 52500000 ∧
    ({ rig with tow := { rig.tow with holdAt := { b1 := some 51000000, b2 := none } } } : State).tow.holdAt.get .b1 =
      some 51000000 := by decide +kernel
/-- FlowRead: at the plausible limit of 280 and one above it, COUNTING; and at BASELINE. -/
theorem witness_flow (v : Quad) :
    (taking .fuel).Delivers .M (toAll 35) (.flow [(0, v)]) .fuel 7 ∧ (taking .fuel).meterOf 7 0 = some 0 ∧
    (taking .fuel).fuel.meters[0].state = .counting ∧ (taking .fuel).fuel.meters[0].entry.role = .supply ∧
    (taking .fuel).fuel.meters[0].entry.firstObject = (0 : Fin 6).val :=
  ⟨⟨rfl, by decide +kernel, by decide +kernel, by rfl, by rfl⟩, by decide +kernel, by decide +kernel, by decide +kernel,
    by decide +kernel⟩
theorem witness_flow_limit :
    (after (.flow .M (toAll 35) [(0, 264)]) (taking .fuel)).fuel.accounts[0].leg = 1280 ∧
    (after (.flow .M (toAll 35) [(0, 265)]) (taking .fuel)).fuel.accounts[0].leg = 1000 := by decide +kernel
theorem witness_meter_timers : rig.fuel.meters[0].silenceAt = some 53000000 ∧
    (after (.meterSilenceExpiry 0) rig).fuel.meters[0].tickAt = some 54000000 := by decide +kernel
/-- BookingByRole: an amount of 0; each role, with an amount that empties the service tank of E0, one that only makes
it LOW, and one that fills its tank; and the amount at which the leg reaches its reserve mark. -/
theorem witness_booking :
    let m (r : MeterRole) : MeterEntry := { Meter.reset.entry with role := r, firstObject := 0, toTank := 1 }
    (rig.prop.engines[0].entry.serviceTank = some 0 ∧ rig.prop.engines[1].entry.serviceTank = none) ∧
    ((m .supply).firstObject = (0 : Fin 6).val ∧ (m .transfer).toTank = (1 : Fin 8).val) ∧
    (∀ a : Int, a = 28 ∨ a = 1440001 ∨ a = 1500001 ∨ a = -500001 → a ≠ 0 ∧ fits48 (rig.fuel.accounts[0].total + a) ∧
      fits48 (rig.fuel.accounts[0].leg + a) ∧ fits48 (rig.fuel.leg.consumed + a) ∧
      fits48 (rig.fuel.tanks[1].bunkered + a) ∧ (rig.fuel.tanks[0].moved a).Fits ∧
      (rig.fuel.tanks[0].moved (-a)).Fits ∧ (rig.fuel.tanks[1].moved (-a)).Fits) ∧
    ((rig.book (m .supply) 1440001).fuel.tanks[0].low = true ∧
      (rig.book (m .supply) 1440000).fuel.tanks[0].low = false ∧
      (rig.book (m .supply) 1500001).fuel.tanks[0].shortfall = 1 ∧
      (rig.book (m .returns) 500001).fuel.tanks[0].overflow = 1) ∧
    (rig.fuel.leg.reserve = false ∧ (rig.book (m .supply) 89000).fuel.leg.reserve = true ∧
      (rig.book (m .supply) 88999).fuel.leg.reserve = false) := by
  refine ⟨by decide +kernel, by decide +kernel, ?_, by decide +kernel, by decide +kernel⟩
  rintro a (rfl | rfl | rfl | rfl) <;> unfold fits48 Tank.Fits <;> decide +kernel
/-- LevelPresetAndLeg: a gauge at the edge of the tolerance; a preset at the capacity and above it; a budget at the
end of its range and above it. -/
theorem witness_level (v : Quad) :
    (taking .fuel).Delivers .M (toAll 36) (.level [(0, v)]) .fuel 8 ∧ (taking .fuel).tankOf 8 0 = some 0 :=
  ⟨⟨rfl, by decide +kernel, by decide +kernel, by rfl, by rfl⟩, by decide +kernel⟩
theorem witness_preset_and_leg : rig.hasRoom ∧ 8 ≤ (8 : Byte).toNat ∧ (0 : Byte).toNat = (0 : Fin 8).val ∧
    (2000000 : Quad).toNat ≤ rig.fuel.tanks[0].entry.capacity ∧
    rig.fuel.tanks[0].entry.capacity < (2000001 : Quad).toNat ∧
    (2000000000 : Quad).toNat ≤ 2000000000 ∧ ¬ (2000000001 : Quad).toNat ≤ 2000000000 := by
  unfold State.hasRoom State.listens; decide +kernel
/-- StatementStartedAndGoesOn. -/
theorem witness_statement : rig.hasRoom ∧ rig.fuel.statement.state ≠ .paused ∧ paused.hasRoom ∧
    paused.fuel.statement.state = .paused ∧ paused.fwd.queues.w.length < paused.fwd.reserved.w ∧
    paused.fuel.statement.stallAt = some 52000000 := by unfold State.hasRoom State.listens; decide +kernel
/-- EnrolTaken: the right kind, another kind, and no entry of the port. -/
theorem witness_enrol : rig.nodeOf .M 31 = some 0 ∧ [(1 : Byte)] = [rig.nodes[0].entry.kind.enrolKind] ∧
    [(2 : Byte)] ≠ [rig.nodes[0].entry.kind.enrolKind] ∧ rig.nodeOf .T 31 = none ∧ rig.nodeOf .W 31 = none ∧
    (let s := after (.silenceExpiry 0) rig
     s.nodeOf .M 31 = some 0 ∧ s.nodes[0].state ≠ .enrolled ∧ s.engineOf 0 = some 0 ∧
       s.prop.engines[0].state = .lost) := by decide +kernel
/-- SilentNodeHeard: a governor SILENT with its engine LOST, a rudder SILENT with its actuator LOST, a node FAILED, and
one EXPECTED with nothing AWAITING; a status, a frame that fixed intake leaves, an ACK of no kind, an ECHO and a
FULL. -/
theorem witness_silent_node :
    (let s := after (.silenceExpiry 0) rig
     s.listens .M ∧ s.nodeOf .M 31 = some 0 ∧ s.nodes[0].state = .silent ∧ s.engineOf 0 = some 0 ∧
       s.prop.engines[0].state = .lost) ∧
    (let s := after (.silenceExpiry 3) rig
     s.nodeOf .M 34 = some 3 ∧ s.nodes[3].state = .silent ∧ s.actuatorOf 3 = some 0 ∧
       s.steer.actuators[0].state = .lost) ∧
    ((rig.modNode 0 fun n => { n with state := .failed }).nodes[0].state = .failed ∧
      (rig.modNode 0 fun n => { n with state := .expected }).nodes[0].state = .expected ∧
      ∀ i : Fin 16, rig.trans.slots[i].target = 0 → rig.trans.slots[i].state ≠ .awaiting) ∧
    ((Content.engineStatus .running 300 .noAlarm).command .M (toAll 31) =
        some (.engineStatus .M (toAll 31) .running 300 .noAlarm) ∧
      fixedIntake rig.link.own .M { dest := 0, src := 31, cls := 9, tag := 0, payload := [7] } = false) := by
  unfold State.listens; decide +kernel

/-- The rig with a SETPOINT of E0, an ANGLE of A0 and the WINCH RELEASE of an ORDERED release AWAITING, each with TAG 6,
and with further orders WAITING behind the first two. -/
def acked : State :=
  let s := [(0, awaiting),
      (1, { awaiting with target := 3, kind := .angle, value := .amount 200, owner := some (.steering 0) }),
      (2, { awaiting with target := 5, kind := .winch, value := .release, owner := some (.tow 0) }),
      (3, { awaiting with tag := 7, state := .waiting, ackAt := none }),
      (4, { queued with tag := 7, state := .waiting })].foldl (fun s x => withSlot s x.1 x.2) rig
  let s := s.modCoupling 0 fun k =>
    { k with state := .releasing, phase := some .ordered, prior := some .madeUp, waitAt := some 60000000 }
  { s with tow := { s.tow with work := some 0 } }

/-- SilentNodeHeard: an EXPECTED governor, rudder and winch, each with an order AWAITING and, for the first two, one
WAITING behind it. -/
theorem witness_expected_ack :
    let s : State := { acked with nodes := ofTable fun n => { acked.nodes[n] with state := .expected } }
    s.SlotsSound ∧ s.listens .M ∧ s.listens .T ∧ s.nodeOf .M 31 = some 0 ∧ s.nodeOf .M 34 = some 3 ∧
      s.nodeOf .T 42 = some 5 ∧ s.nodes[0].state = .expected ∧
      (∀ i : Fin 16, i = 0 ∨ i = 1 ∨ i = 2 → s.trans.slots[i].state = .awaiting ∧ s.trans.slots[i].tag = 6 ∧
        (s.trans.slots[i].kind = .setpoint ↔ i = 0)) ∧
      s.trans.slots[3].state = .waiting ∧ s.trans.slots[3].target = 0 ∧ s.releaseSlotOf 0 = none ∧
      (∀ i : Fin 16, s.trans.slots[i].state = .awaiting → s.trans.slots[i].tag ≠ 7) :=
  ⟨⟨by decide +kernel, by decide +kernel, by decide +kernel, by intro p; cases p <;> decide +kernel,
    by intro p; cases p <;> decide +kernel, by decide +kernel⟩, rfl, rfl, by decide +kernel⟩
/-- AcksCompleteSlots: an ECHO of a rudder and of a winch and a FULL of a governor that complete, with orders WAITING
behind, and ones with another TAG. -/
theorem witness_acks : acked.listens .M ∧ acked.listens .T ∧ acked.SlotsSound ∧ acked.ForcedSound ∧
    (acked.nodeOf .M 31 = some 0 ∧ acked.nodeOf .M 34 = some 3 ∧ acked.nodeOf .T 42 = some 5 ∧
      ∀ n : Fin 32, n = 0 ∨ n = 3 ∨ n = 5 → acked.nodes[n].state = .enrolled) ∧
    (∀ i : Fin 16, i = 0 ∨ i = 1 ∨ i = 2 → acked.trans.slots[i].state = .awaiting ∧ acked.trans.slots[i].tag = 6 ∧
      (acked.trans.slots[i].kind = .setpoint ↔ i = 0)) ∧
    (∀ i : Fin 16, acked.trans.slots[i].state = .awaiting → acked.trans.slots[i].tag ≠ 7) ∧
    (acked.engineOf 0 = some 0 ∧ acked.actuatorOf 3 = some 0 ∧ acked.engineOf 5 = none ∧ acked.actuatorOf 5 = none) ∧
    (acked.trans.slots[3].state = .waiting ∧ acked.trans.slots[3].value ≠ .release ∧
      acked.trans.slots[4].state = .waiting) ∧
    (acked.tow.couplings[0].state = .releasing ∧ acked.tow.couplings[0].phase = some .ordered ∧
      acked.releaseSlotOf 0 = none) :=
  ⟨rfl, rfl, ⟨by decide +kernel, by decide +kernel, by decide +kernel, by intro p; cases p <;> decide +kernel,
    by intro p; cases p <;> decide +kernel, by decide +kernel⟩, by unfold State.ForcedSound; decide +kernel,
    by decide +kernel⟩
/-- SilenceAndLineBreak: the nodes of an engine that is RUNNING at +10, of an actuator, of a meter, and of the sensor of a
coupling that is MADE_UP, and of one RELEASING; a port that is UP, one that is DOWN, and one that is sending. -/
theorem witness_silence : slewing.nodes[0].silenceAt = some 52500000 ∧ slewing.engineOf 0 = some 0 ∧
    (slewing.prop.engines[0].state = .running ∧ slewing.prop.engines[0].setpoint ≠ 0) ∧
    (rig.actuatorOf 3 = some 0 ∧ rig.steer.actuators[0].state ≠ .absent ∧ rig.nodes[3].silenceAt = some 52500000) ∧
    rig.fuel.meters[0].entry.node = some 7 ∧ rig.fuel.meters[0].state = .counting ∧
    (rig.tow.couplings[0].entry.sensor = some 6 ∧ rig.tow.couplings[0].state = .madeUp ∧
      acked.tow.couplings[0].entry.sensor = some 6 ∧ acked.tow.couplings[0].state = .releasing) ∧
    (rig.link.ports.get .T).line = .up ∧ (rig.link.ports.get .M).line = .up ∧
    (rig.link.ports.get .T).sending = none ∧ rig.nodes[6].entry.port.port = .T ∧ rig.nodes[3].entry.port.port = .M ∧
    ((after (.lineBreak .T) rig).link.ports.get .T).line = .down ∧
    ((after (.transmitStart .M) busy).link.ports.get .M).sending.isSome = true := by decide +kernel
/-- The rig with actuator A0 at the governor of E0, so that an engine and an actuator both name node 0. -/
def named : State :=
  rig.modActuator 0 fun a => { a with entry := { a.entry with node := some 0 } }
/-- RefreshAndAckTimeout, refresh: a stopped timer; a governor and a rudder with nothing waiting, with an order in
flight and with a waiting order of the same kind; a node that an engine and an actuator name, and one that neither
does; a FAILED node, a waiting order of another kind, and no slot FREE. -/
theorem witness_refresh : State.reset.nodes[0].refreshAt = none ∧
    (∀ n : Fin 32, n = 0 ∨ n = 3 ∨ n = 5 → rig.nodes[n].refreshAt = some 51900000 ∧
      acked.nodes[n].refreshAt = some 51900000 ∧ rig.nodes[n].state = .enrolled ∧ rig.waitingSlot n = none ∧
      rig.flightSlot n = none) ∧
    (rig.engineOf 0 = some 0 ∧ rig.prop.engines[0].state ≠ .absent ∧ rig.actuatorOf 0 = none) ∧
    (rig.actuatorOf 3 = some 0 ∧ rig.engineOf 3 = none ∧ rig.steer.actuators[0].state ≠ .absent ∧
      rig.trans.slots[0].state = .free) ∧
    (busy.waitingSlot 0 = none ∧ (busy.flightSlot 0).isSome = true ∧ busy.trans.slots[2].state = .free) ∧
    (acked.waitingSlot 0 = some 3 ∧ acked.trans.slots[3].kind = .setpoint ∧ acked.waitingSlot 3 = some 4 ∧
      acked.trans.slots[4].kind = .angle ∧ acked.steer.actuators[0].entry.kind = .mainRudder) ∧
    (named.engineOf 0 = some 0 ∧ named.actuatorOf 0 = some 0 ∧ named.waitingSlot 0 = none ∧
      named.nodes[0].refreshAt = some 51900000) ∧
    (rig.engineOf 5 = none ∧ rig.actuatorOf 5 = none) ∧
    (rig.modNode 0 fun n => { n with state := .failed }).nodes[0].refreshAt = some 51900000 ∧
    (let s := withSlot rig 0 { queued with target := 0, state := .waiting }
     s.waitingSlot 0 = some 0 ∧ s.trans.slots[0].kind ≠ .setpoint ∧ s.actuatorOf 0 = none) ∧
    (let s : State := { rig with trans := { rig.trans with slots := Vector.replicate 16 awaiting } }
     s.waitingSlot 3 = none ∧ ∀ i : Fin 16, s.trans.slots[i].state ≠ .free) := by decide +kernel
/-- The rig with its nodes two timeouts in a row behind: orders AWAITING of a governor, a rudder, a winch, a sensor and
a meter, and behind that of the winch the WINCH RELEASE of an ORDERED release. -/
def failing : State :=
  let s := [(0, awaiting), (1, { awaiting with target := 3, kind := .angle, owner := some (.steering 0) }),
      (2, { awaiting with target := 5, kind := .winch, value := .release, owner := some (.tow 0) }),
      (3, { awaiting with target := 6 }), (4, { awaiting with target := 7 }),
      (5, { awaiting with
        target := 5, kind := .winch, value := .release, owner := some (.tow 0), tag := 7, state := .waiting
        ackAt := none })].foldl (fun s x => withSlot s x.1 x.2) rig
  let s := s.modCoupling 0 fun k =>
    { k with state := .releasing, phase := some .ordered, prior := some .madeUp, waitAt := some 60000000 }
  let s := s.modCoupling 1 fun k => { k with entry := { k.entry with sensor := some 6 }, state := .alert }
  { s with
    tow := { s.tow with work := some 0 }, nodes := ofTable fun n => { s.nodes[n] with timeouts := 2 } }
/-- RefreshAndAckTimeout, ack timeout: a stopped timer; a first timeout with an order WAITING behind it, and that of an
ORDERED release; a third one of a governor, a rudder, a winch with a release WAITING, a sensor and a meter; and the
edge between the second and the third. -/
theorem witness_ack_timeout : rig.trans.slots[0].ackAt = none ∧ acked.SlotsSound ∧ failing.SlotsSound ∧
    (∀ i : Fin 16, i = 0 ∨ i = 1 ∨ i = 2 → acked.trans.slots[i].state = .awaiting ∧
      acked.trans.slots[i].ackAt = some 51051000 ∧ acked.nodes[acked.trans.slots[i].target].timeouts + 1 < 3) ∧
    (∀ i : Fin 16, i.val < 5 → failing.trans.slots[i].state = .awaiting ∧
      failing.trans.slots[i].ackAt = some 51051000 ∧ 3 ≤ failing.nodes[failing.trans.slots[i].target].timeouts + 1) ∧
    (acked.trans.slots[3].state = .waiting ∧ acked.trans.slots[3].target = 0 ∧
      acked.trans.slots[2].owner = some (.tow 0) ∧ acked.trans.slots[2].value = .release ∧
      acked.tow.couplings[0].state = .releasing ∧ acked.tow.couplings[0].phase = some .ordered ∧
      acked.releaseSlotOf 0 = none) ∧
    (failing.engineOf 0 = some 0 ∧ failing.prop.engines[0].state ≠ .absent ∧ failing.actuatorOf 3 = some 0 ∧
      failing.steer.actuators[0].state ≠ .absent) ∧
    (failing.waitingSlot 5 = some 5 ∧ failing.trans.slots[5].owner = some (.tow 0) ∧
      failing.trans.slots[5].value = .release ∧ failing.tow.couplings[0].state = .releasing ∧
      failing.tow.couplings[0].phase ≠ some .awaitSlack) ∧
    (failing.tow.couplings[1].entry.sensor = some 6 ∧ failing.tow.couplings[1].state = .alert ∧
      failing.fuel.meters[0].entry.node = some 7 ∧ failing.fuel.meters[0].state = .counting) ∧
    ((busy.modNode 0 fun n => { n with timeouts := 1 }).nodes[0].timeouts + 1 < 3 ∧
      3 ≤ (busy.modNode 0 fun n => { n with timeouts := 2 }).nodes[0].timeouts + 1) :=
  ⟨by decide +kernel, witness_acks.2.2.1, ⟨by decide +kernel, by decide +kernel, by decide +kernel,
      by intro p; cases p <;> decide +kernel, by intro p; cases p <;> decide +kernel, by decide +kernel⟩,
    by decide +kernel, by decide +kernel, by decide +kernel, by decide +kernel, by decide +kernel, by decide +kernel,
    by decide +kernel⟩
/-- PlacementIsDecided: each of the five cases. -/
theorem witness_placement : rig.nodes[9].state = .unused ∧
    (busy.waitingSlot 3 = some 1 ∧ busy.trans.slots[1].kind = .angle ∧ busy.nodes[3].state = .enrolled) ∧
    (busy.waitingSlot 0 = none ∧ (busy.flightSlot 0).isSome = true) ∧
    (rig.waitingSlot 0 = none ∧ rig.flightSlot 0 = none ∧ rig.trans.slots[0].state = .free) ∧
    (let s : State := { rig with trans := { rig.trans with slots := Vector.replicate 16 awaiting } }
     s.waitingSlot 1 = none ∧ ∀ i : Fin 16, s.trans.slots[i].state ≠ .free) := by decide +kernel
/-- LineEvents: a port that is sending, and a frame that ends on it. -/
theorem witness_deaf : ((after (.transmitStart .M) busy).link.ports.get .M).sending.isSome = true ∧
    ((Instr.enrol .M (toAll 31) [1]).frame (after (.transmitStart .M) busy).link.own).isSome = true := by decide +kernel
/-- LineEvents and TransmitStart. -/
theorem witness_line : (rig.link.ports.get .M).line = .up ∧
    ((after (.lineBreak .T) rig).link.ports.get .T).line = .down ∧
    ((after (.transmitStart .M) busy).link.ports.get .M).sending.map Transmission.source = some (.slot (some 1)) ∧
    (after (.transmitStart .M) busy).trans.slots[1].state = .sending ∧ busy.trans.lane .M = [1] ∧
    (busy.link.ports.get .M).sending = none ∧ (busy.link.ports.get .M).assembly = Assembly.empty ∧
    ((after (.transmitStart .W) full4).link.ports.get .W).sending.map Transmission.source = some .answerLane ∧
    ((after (.transmitStart .W) paused).link.ports.get .W).sending.map Transmission.source = some .frameQueue := by
  decide +kernel

/-- A frame of CLASS 9 from no node. -/
def stray : Frame := { dest := 0, src := 99, cls := 9, tag := 0, payload := [7] }

/-- The rig with port M passing frames on to port W, which holds `n` frames. -/
def passing (n : Nat) : State :=
  { rig with fwd := { rig.fwd with
      defaults := { rig.fwd.defaults with m := { action := .pass, job := .propulsion, ports := 1 } }
      queues := { rig.fwd.queues with w := List.replicate n stray } } }

/-- PassageAndNoKind: a dropped frame; the last pool buffer taken, and none left; an ACK from no node and from
one. -/
theorem witness_passage : (Instr.passageFrame .M stray).wellFormed = true ∧ rig.nodeOf .M 99 = none ∧
    (rig.fwd.disposition .M stray).1 = .drop ∧ ((passing 31).fwd.disposition .M stray).1 = .pass ∧
    ((passing 31).fwd.disposition .M stray).2.2 = { w := true, m := false, t := false } ∧
    (passing 31).fwd.poolInUse < (passing 31).fwd.pool ∧
    (¬ (passing 32).fwd.queues.w.length < (passing 32).fwd.reserved.w ∧
      ¬ (passing 32).fwd.poolInUse < (passing 32).fwd.pool) ∧
    rig.nodeOf .M 31 = some 0 ∧ rig.nodes[0].state = .enrolled := by decide +kernel
/-- The rig with port M passing frames on to every port; port W holds `w` frames and port T `t`. -/
def spreading (w t : Nat) : State :=
  { rig with fwd := { rig.fwd with
      defaults := { rig.fwd.defaults with m := { action := .pass, job := .propulsion, ports := 7 } }
      queues := { rig.fwd.queues with w := List.replicate w stray, t := List.replicate t stray } } }
/-- PassageAndNoKind, two ports: a reserved buffer for each, a reserved one for W and the last of the pool for T, and
one copy lost because the other took that. -/
theorem witness_two_ports : ((spreading 0 0).fwd.disposition .M stray).1 = .pass ∧
    ((spreading 0 0).fwd.disposition .M stray).2.2 = { w := true, m := true, t := true } ∧
    (spreading 0 0).fwd.queues.w.length < (spreading 0 0).fwd.reserved.w ∧
    (spreading 0 0).fwd.queues.t.length < (spreading 0 0).fwd.reserved.t ∧
    ¬ (spreading 0 31).fwd.queues.t.length < (spreading 0 31).fwd.reserved.t ∧
    (spreading 0 31).fwd.poolInUse < (spreading 0 31).fwd.pool ∧
    (let u := after (.passageFrame .M stray) (spreading 8 31)
     u.fwd.queues.w.length = 9 ∧ u.fwd.queues.t.length = 31 ∧ u.hasNotice .forwardLost 2) := by
  unfold State.hasNotice; decide +kernel
/-- A status that is not taken: from a node under DROP, and taken for another job; readings of no entry. -/
theorem witness_not_taken : (Content.winchStatus .holding).command .T (toAll 42) =
      some (.winchStatus .T (toAll 42) .holding) ∧ (Content.winchStatus .holding).job = some .tow ∧
    rig.nodeOf .T 42 = some 5 ∧ rig.nodes[5].state = .enrolled ∧ rig.nodeOf .W 42 = none ∧
    (rig.fwd.disposition .T ((Content.winchStatus .holding).frame (toAll 42))).1.takes = false ∧
    ((taking .fuel).fwd.disposition .T ((Content.winchStatus .holding).frame (toAll 42))).2.1 ≠ .tow ∧
    rig.couplingOf 6 1 = none ∧ rig.meterOf 7 1 = none ∧ rig.tankOf 8 1 = none := by decide +kernel
/-- PassageAndNoKind: a frame that fixed intake takes under the own address in force; and passage entry 2, which names
class 2 and kind 1 of source 31 on port M, with none before it. -/
theorem witness_intake :
    fixedIntake rig.link.own .W { dest := 120, src := 21, cls := 0, tag := 3, payload := [3, 1, 2] } = true ∧
    (let e : PassageEntry :=
      { PassageRaw.entry {
          used := 1, ingress := 1, source := 31, cls := 2, kindSelector := 0, kind := 1, disposition := 0x12 }
        with used := true }
     let f : Frame := { dest := 0, src := 31, cls := 2, tag := 0, payload := [1, 1] }
     let s : State := { rig with fwd := { rig.fwd with passage := rig.fwd.passage.set 2 e } }
     s.fwd.passage[2] = e ∧ e.ingress = some .M ∧ e.source = some 31 ∧ e.cls = some 2 ∧ e.kindSelector = 0 ∧
       f.payload.head? = some e.kind ∧ (∀ j : Fin 64, j < 2 → s.fwd.passage[j].used = false) ∧
       s.fwd.disposition .M f = (e.action, e.job, e.ports)) ∧
    ∀ j : Fin 64, rig.fwd.passage[j].used = false := by decide +kernel
/-- AllocateDecided: the pool brought to 4, and to 3. -/
theorem witness_allocate : moored.hasRoom ∧ moored.helm.mode = 0 ∧ rig.helm.mode ≠ 0 ∧
    drawn (after (.allocate console 28 8 2) moored) = [5, 0, 28, 8, 8, 4, 0xFF, 0xFF, 2] ∧
    drawn (after (.allocate console 29 8 2) moored) = [5, 2] ∧
    drawn (after (.allocate console 28 8 1) moored) = [5, 2] := by unfold State.hasRoom State.listens; decide +kernel

/-- A notice list of `n` entries, with channel 0 armed or not. -/
def listed (n : Nat) (armed : Bool) : State :=
  { rig with notices := { rig.notices with
      list := (List.range n).map fun x => { kind := .nodeEnrolled, subject := BitVec.ofNat 8 x }
      channels := Vector.replicate 8 { armed := armed, autoDisarm := true, overflow := false }
      master := true } }

/-- LatchAndReport: a pair in the list; 31 entries with the channel disarmed and armed; 32 entries. -/
theorem witness_latch : ({ kind := .nodeEnrolled, subject := 30 } : Notice) ∈ (listed 31 false).notices.list ∧
    ({ kind := .nodeEnrolled, subject := 31 } : Notice) ∉ (listed 31 true).notices.list ∧
    (listed 31 true).notices.list.length < 32 ∧ (listed 31 true).notices.master = true ∧
    (listed 31 true).notices.channels[(listed 31 true).notices.map[(14 : Fin 25)]].armed = true ∧
    (listed 31 true).fwd.queues.w.length < (listed 31 true).fwd.reserved.w ∧
    32 ≤ (listed 32 false).notices.list.length ∧ (listed 32 false).notices.channels[0].armed = false := by
  decide +kernel
/-- LatchAndReport: no buffer for a REPORT, with room in the list, and with 32 entries with FORWARD_LOST among them and
without. -/
theorem witness_latch_unsent (n : Nat) (h : n = 31 ∨ n = 32) :
    let s : State := { listed n true with fwd := (passing 32).fwd }
    let lost : Notice := { kind := .forwardLost, subject := 0 }
    s.notices.list.length = n ∧ s.notices.master = true ∧ s.notices.channels[s.notices.map[14]].armed = true ∧
      ({ kind := .nodeEnrolled, subject := 99 } : Notice) ∉ s.notices.list ∧ lost ∉ s.notices.list ∧
      (s.notices.list.filter fun y => decide (s.notices.map[y.kind.index] = s.notices.map[14])) ≠ [] ∧
      ¬ s.fwd.queues.w.length < s.fwd.reserved.w ∧ ¬ s.fwd.poolInUse < s.fwd.pool ∧
      (let u : State := { s with notices := { s.notices with list := lost :: (listed 31 true).notices.list } }
       lost ∈ u.notices.list ∧ ({ kind := .nodeEnrolled, subject := 99 } : Notice) ∉ u.notices.list ∧
         u.notices.list.length = 32 ∧
         (u.notices.list.filter fun y => decide (u.notices.map[y.kind.index] = u.notices.map[14])) ≠ []) := by
  rcases h with rfl | rfl <;> decide +kernel
/-- NoticeRequests: channel 7 and 8; kinds 25, 0 and 26; an entry whose condition holds; a channel that becomes
reportable with an entry, with a buffer and without; and a list with the master enable off. -/
theorem witness_notice_requests : noticed.hasRoom ∧ (7 : Byte).toNat = (7 : Fin 8).val ∧ 8 ≤ (8 : Byte).toNat ∧
    (25 : Byte) = NoticeKind.forwardLost.number ∧ 25 < (26 : Byte).toNat ∧
    (∀ d : Fin 8, rig.notices.entriesOf d = []) ∧ (noticed.notices.entriesOf 2).length = 1 ∧
    (let s := after (.silenceExpiry 4) rig
     s.holds { kind := .nodeSilent, subject := 4 } = true ∧ s.notices.master = false ∧ s.notices.Fits) ∧
    (noticed.notices.master = true ∧ noticed.notices.channels[2].armed = false ∧
      ({ kind := .nodeSilent, subject := 4 } : Notice) ∈ noticed.notices.list ∧ noticed.notices.map[15] = 2 ∧
      1 ≤ (noticed.fwd.reserved.w - noticed.fwd.queues.w.length) + (noticed.fwd.pool - noticed.fwd.poolInUse)) ∧
    (let s : State := { noticed with fwd := (passing 32).fwd }
     s.hasRoom ∧ (s.fwd.reserved.w - s.fwd.queues.w.length) + (s.fwd.pool - s.fwd.poolInUse) < 1) := by
  unfold State.hasRoom State.listens NoticeUnit.Fits; decide +kernel

/-- A meter entry in bytes, for meter 15. -/
def meterBytes : MeterRaw where
  node := 7
  channel := 1
  role := 0
  firstObject := 0
  toTank := 0
  maxRate := 80
  margin := 200

/-- PlainTableWrites: the last entry of each table. -/
theorem witness_plain_writes : moored.hasRoom ∧ moored.helm.mode = 0 ∧ rig.hasRoom ∧ rig.helm.mode ≠ 0 ∧
    ((1 : Byte).toNat = (1 : Fin 2).val ∧ (127 : Byte).toNat < 128 ∧ (127 : Byte) ≠ moored.link.own ∧
      moored.helm.stations[0] ≠ some 127) ∧
    (let r : PassageRaw :=
      { used := 0, ingress := 1, source := 127, cls := 7, kindSelector := 0, kind := 1, disposition := 0x13 }
     (63 : Byte).toNat = (63 : Fin 64).val ∧ PassageRaw.inRange r = true ∧
      (PassageRaw.entry r).ports.isEmpty = false) ∧
    ((2 : Byte) = portNumber .T ∧ (portSetOf 4).isEmpty = false) ∧
    ((15 : Byte).toNat = (15 : Fin 16).val ∧ (MeterRaw.entry? meterBytes).isSome = true ∧
      ∀ j : Fin 16, j ≠ 15 → moored.fuel.meters[j].entry.node ≠ some 7 ∨ moored.fuel.meters[j].entry.channel ≠ 1) ∧
    ((25 : Byte) = NoticeKind.forwardLost.number ∧ (7 : Byte).toNat = (7 : Fin 8).val) := by
  unfold State.hasRoom State.listens; decide +kernel
/-- PlainTableWrites, refused: each index one past its table, each field one past its range, an address and a node
channel that another entry has, and an action that passes to no port. -/
theorem witness_plain_writes_refused :
    (2 ≤ (2 : Byte).toNat ∧ 128 ≤ (128 : Byte).toNat ∧ (120 : Byte) = moored.link.own ∧
      moored.helm.stations[1] = some 22) ∧
    (let r : PassageRaw :=
      { used := 2, ingress := 1, source := 127, cls := 7, kindSelector := 0, kind := 1, disposition := 0x13 }
     ¬ r.used.toNat < 2 ∧ (PassageRaw.entry { r with disposition := 0x01 }).action.passes = true ∧
       (PassageRaw.entry { r with disposition := 0x01 }).ports.isEmpty = true) ∧
    (2 < (3 : Byte).toNat ∧ 4 ≤ (4 : Byte).toNat ∧ (portSetOf 0).isEmpty = true) ∧
    (let r : MeterRaw := { meterBytes with channel := 0 }
     (MeterRaw.entry? r).isSome = true ∧ moored.fuel.meters[0].entry.node = some 7 ∧
       moored.fuel.meters[0].entry.channel = 0 ∧ ¬ ({ r with role := 4 } : MeterRaw).role.toNat ≤ 3) ∧
    (25 < (26 : Byte).toNat ∧ 8 ≤ (8 : Byte).toNat) := by decide +kernel
/-- ModeWriteTaken: the profile in force, another, a ceiling above its range, and an index of 8. -/
theorem witness_mode_write : rig.hasRoom ∧ (ModeRaw.entry profile800).inRange = true ∧ rig.helm.mode = 1 ∧
    (1 : Byte).toNat = (1 : Fin 8).val ∧ (7 : Byte).toNat = (7 : Fin 8).val ∧
    (ModeRaw.entry { profile800 with ahead := 1001 }).inRange = false ∧ 8 ≤ (8 : Byte).toNat := by
  unfold State.hasRoom State.listens; decide +kernel
/-- EngineAndActuatorWrites: a structure write at rest while MOORED, and a node that no other actuator names. -/
theorem witness_engine_write : moored.hasRoom ∧ (0 : Byte).toNat = (0 : Fin 6).val ∧
    (EngineRaw.entry? engineBytes0).isSome = true ∧
    (∀ j : Fin 6, j ≠ 0 → moored.prop.engines[j].entry.governor ≠ some 0) ∧
    engineBytes0.bytes.take 10 ≠ moored.prop.engines[0].entry.structureBytes ∧
    (moored.helm.mode = 0 ∧ moored.prop.engines[0].setpoint = 0 ∧ moored.prop.engines[0].slew ≠ .dwelling ∧
      moored.prop.engines[0].lastSign = .unset) ∧
    (let r : ActuatorRaw :=
      { node := 4, kind := 2, boat := 1, gainAhead := 64, gainAstern := 32, limit := 1000, band := 30, time := 20 }
     (4 : Byte).toNat = (4 : Fin 5).val ∧ (ActuatorRaw.entry? r).isSome = true ∧
      (∀ j : Fin 5, j ≠ 4 → moored.steer.actuators[j].entry.node ≠ some 4) ∧
      (∀ i : Fin 6, moored.prop.engines[i].entry.governor ≠ some 4) ∧ moored.nodes[4].state = .enrolled ∧
      moored.waitingSlot 4 = none ∧
      (after (.tableWriteActuator console 4 r) moored).trans.slots[1].state = .free) := by
  unfold State.hasRoom State.listens; decide +kernel
/-- EngineAndActuatorWrites, refused: a structure write under way, a rating one below its range, a governor that another
engine names, an engine not at rest, an index of 6; for an actuator the same, with an index of 5. -/
theorem witness_engine_write_refused :
    (rig.helm.mode ≠ 0 ∧ engineBytes0.bytes.take 10 ≠ rig.prop.engines[0].entry.structureBytes) ∧
    EngineRaw.entry? { engineBytes0 with rating := 49 } = none ∧
    ((EngineRaw.entry? { engineBytes0 with governor := 1 }).isSome = true ∧
      moored.prop.engines[1].entry.governor = some 1) ∧
    ((moored.modEngine 0 fun e => { e with lastSign := .ahead }).prop.engines[0].lastSign ≠ .unset) ∧
    6 ≤ (6 : Byte).toNat ∧
    (let r : ActuatorRaw :=
      { node := 3, kind := 2, boat := 1, gainAhead := 64, gainAstern := 32, limit := 1000, band := 30, time := 20 }
     ActuatorRaw.entry? { r with limit := 1001 } = none ∧ (ActuatorRaw.entry? r).isSome = true ∧
       moored.steer.actuators[0].entry.node = some 3) ∧
    5 ≤ (5 : Byte).toNat := by decide +kernel

/-- A tank entry in bytes, of the capacity held. -/
def tankBytes : TankRaw where
  capacity := 2000000
  role := 0
  gauge := 8
  channel := 0
  lowMark := 1600000
  lowCeiling := 500
  tolerance := 5000

/-- CouplingTankAndRosterWrites: a live and a structure write of each, and a new address of a node with no slot. -/
theorem witness_coupling_writes : rig.hasRoom ∧
    ((CouplingRaw.entry? couplingBytes0).isSome = true ∧
      (∀ e, CouplingRaw.entry? couplingBytes0 = some e → rig.couplingClash 0 e = false) ∧
      rig.tow.couplings[0].state = .madeUp ∧
      couplingBytes0.bytes.take 5 = rig.tow.couplings[0].entry.structureBytes ∧
      couplingBytes0.bytes.take 5 ≠ rig.tow.couplings[47].entry.structureBytes) ∧
    ((TankRaw.entry? tankBytes).isSome = true ∧ rig.fuel.tanks[0].quantity ≤ 2000000 ∧
      (∀ j : Fin 8, j ≠ 0 → rig.fuel.tanks[j].entry.gauge ≠ some 8) ∧
      tankBytes.bytes.take 7 = rig.fuel.tanks[0].entry.structureBytes) ∧
    (let r : RosterRaw := { port := 0, address := 127, kind := 0, ackTimeout := 5, silence := 20, refresh := 10 }
     moored.helm.mode = 0 ∧ RosterRaw.inRange r = true ∧
      (∀ m : Fin 32, m ≠ 0 → moored.nodes[m].entry.address ≠ some 127) ∧
      (∀ i : Fin 16, moored.trans.slots[i].target = 0 → moored.trans.slots[i].state = .free) ∧
      (RosterRaw.entry { r with address := 31, refresh := 0 }).address = moored.nodes[0].entry.address) := by
  unfold State.hasRoom State.listens
  refine ⟨by decide +kernel, ⟨by decide +kernel, ?_, by decide +kernel, by decide +kernel, by decide +kernel⟩,
    by decide +kernel, by decide +kernel⟩
  intro e h
  rw [show CouplingRaw.entry? couplingBytes0 = some { rig.tow.couplings[0].entry with debounce := 2 } from by
    decide +kernel] at h
  cases h
  decide +kernel
/-- CouplingTankAndRosterWrites, refused: structure writes under way, fields one past their range, a winch, a gauge
channel and an address that another entry has, a coupling in work, a tank that holds more than the new capacity, and a
moved node with an order; and the nodes of an engine, an actuator, a coupling and a meter, moved. -/
theorem witness_coupling_writes_refused :
    (rig.helm.mode ≠ 0 ∧ couplingBytes0.bytes.take 5 ≠ rig.tow.couplings[1].entry.structureBytes ∧
      CouplingRaw.entry? { couplingBytes0 with debounce := 9 } = none ∧
      (CouplingRaw.entry? { couplingBytes0 with sensor := 0xFF }).isSome = true ∧
      rig.tow.couplings[0].entry.winch = some 5 ∧ releasing.tow.couplings[0].state = .releasing ∧
      couplingBytes0.bytes.take 5 = releasing.tow.couplings[0].entry.structureBytes) ∧
    (tankBytes.bytes.take 7 ≠ rig.fuel.tanks[1].entry.structureBytes ∧
      TankRaw.entry? { tankBytes with role := 2 } = none ∧ (TankRaw.entry? tankBytes).isSome = true ∧
      rig.fuel.tanks[0].entry.gauge = some 8 ∧ rig.fuel.tanks[0].entry.channel = 0 ∧
      (∀ e, TankRaw.entry? { tankBytes with capacity := 1499999 } = some e → e.capacity < rig.fuel.tanks[0].quantity)) ∧
    (let r : RosterRaw := { port := 0, address := 31, kind := 0, ackTimeout := 5, silence := 20, refresh := 10 }
     RosterRaw.inRange r = true ∧ RosterRaw.inRange { r with port := 2 } = false ∧
      moored.nodes[0].entry.address = some 31 ∧ busy.trans.slots[0].target = 0 ∧ busy.trans.slots[0].state ≠ .free ∧
      ({ busy with helm := moored.helm } : State).helm.mode = 0 ∧ moored.nodes[0].state ≠ .expected ∧
      moored.engineOf 0 = some 0 ∧ moored.prop.engines[0].state ≠ .absent ∧ moored.actuatorOf 3 = some 0 ∧
      moored.tow.couplings[0].entry.sensor = some 6 ∧ moored.tow.couplings[0].state = .madeUp ∧
      moored.fuel.meters[0].entry.node = some 7 ∧ moored.fuel.meters[0].state = .counting ∧
      (moored.modNode 0 fun n => { n with state := .expected }).nodes[0].state = .expected) := by
  refine ⟨by decide +kernel, ⟨by decide +kernel, by decide +kernel, by decide +kernel, by decide +kernel,
    by decide +kernel, ?_⟩, by decide +kernel⟩
  intro e h
  have x : (TankRaw.entry? { tankBytes with capacity := 1499999 }).map TankEntry.capacity = some 1499999 := by
    decide +kernel
  rw [h] at x
  injection x with x
  rw [x]
  decide +kernel
/-- EntriesAndRecordsAreRead: an entry and a record that are there, and ones that are not; the last page of a record
and the page after it. -/
theorem witness_reads : rig.hasRoom ∧
    (31 : Byte).toNat = (31 : Fin 32).val ∧ (25 : Byte) = NoticeKind.forwardLost.number ∧ (rig.tableEntry 2 31).isSome = true ∧ rig.tableEntry 2 32 = none ∧
    (rig.record 1 0).isSome = true ∧ rig.record 0xEE 0 = none := by
  unfold State.hasRoom State.listens; decide +kernel
theorem witness_entries :
    (let r : RosterRaw := { port := 1, address := 127, kind := 6, ackTimeout := 5, silence := 20, refresh := 10 }
     RosterRaw.inRange r = true) ∧ (EngineRaw.entry? engineBytes0).isSome = true ∧
    (CouplingRaw.entry? couplingBytes0).isSome = true ∧ (TankRaw.entry? tankBytes).isSome = true ∧
    (MeterRaw.entry? meterBytes).isSome = true := by decide +kernel
/-- IdentityAndUnknownRequests: the ends of the address range, and a station's address. -/
theorem witness_identity : rig.hasRoom ∧ rig.helm.mode ≠ 0 ∧ moored.helm.mode = 0 ∧ 127 < (128 : Byte).toNat ∧
    moored.helm.stations[0] = some 21 ∧ (127 : Byte).toNat ≤ 127 ∧
    (∀ i : Fin 2, moored.helm.stations[i] ≠ some 127) ∧ rig.Admits console :=
  ⟨by unfold State.hasRoom State.listens; decide +kernel, by decide +kernel, by decide +kernel, by decide +kernel,
    by decide +kernel,
    by decide +kernel, by decide +kernel, witness_admits⟩
/-- RestartDecided: MOORED and under way; a port that sends an order slot, one that sends from its queue, and ports that
send nothing; and a pending decrease. -/
theorem witness_restart : moored.hasRoom ∧ moored.helm.mode = 0 ∧ rig.hasRoom ∧ rig.helm.mode ≠ 0 ∧
    moored.fwd.Allocated ∧
    (let s : State := { after (.transmitStart .M) busy with helm := moored.helm }
     s.hasRoom ∧ s.helm.mode = 0 ∧
       (s.link.ports.get .M).sending.map Transmission.source = some (.slot (some 1))) ∧
    (let s : State := { rig with helm := moored.helm, fwd := { rig.fwd with
       queues := { w := [], m := [stray, stray], t := [] } } }
     ((after (.transmitStart .M) s).link.ports.get .M).sending.map Transmission.source = some .frameQueue ∧
       (after (.transmitStart .M) s).hasRoom) ∧
    (after (.allocate console 8 8 6) moored).fwd.pendingDecrease.t = some 6 := by
  unfold State.hasRoom State.listens
  exact ⟨by decide +kernel, by decide +kernel, by decide +kernel, by decide +kernel, witness_sound.allocated,
    by decide +kernel, by decide +kernel, by decide +kernel⟩

end Sys2Proof.Tests
end

