-- ==== Sys2Proof/Proofs/Bridge.lean ====
section
/-! PROOF. Proofs/Bridge.lean: what the wheelhouse has set, and how little of the part's work changes it. `Steered x s t`
says that the change from `s` to `t` keeps every part of the wheelhouse's settings but those of `x`, and keeps the
helm record sound. `Decided` adds that the answer lane is as it was, which holds of the decision of every order and
request. -/

namespace Sys2Proof.Machine

/-- What the wheelhouse has set: the helm record with its tables, the own address, P with the differential, and the
demands. -/
structure Bridge where
  helm : HelmUnit
  own : Byte
  power : Int
  diffMode : DiffMode
  fixedDiff : Int
  rudder : Int
  bowMode : BowMode
  bowDemand : Int

/-- The wheelhouse's settings in a state. -/
def State.bridge (s : State) : Bridge where
  helm := s.helm
  own := s.link.own
  power := s.prop.power
  diffMode := s.prop.diffMode
  fixedDiff := s.prop.fixedDiff
  rudder := s.steer.rudder
  bowMode := s.steer.bowMode
  bowDemand := s.steer.bowDemand

theorem Within.bridge {x : Level} {s t : State} (h : Within x s t) : t.bridge = s.bridge := by
  simp only [State.bridge, h.written.helm, h.link, h.written.power, h.written.diffMode, h.written.fixedDiff,
    h.written.rudder, h.written.bowMode, h.written.bowDemand]

theorem State.bridge_helm {s t : State} (h : t.bridge = s.bridge) : t.helm = s.helm :=
  congrArg Bridge.helm h

theorem State.bridge_own {s t : State} (h : t.bridge = s.bridge) : t.link.own = s.link.own :=
  congrArg Bridge.own h

/-- A part of the wheelhouse's settings that a few commands write. -/
inductive Part where
  | power | rudder | mode | guard | command
deriving DecidableEq

/-- What a change keeps of the wheelhouse's settings, but for the parts `x`. -/
structure Steered (x : List Part) (s t : State) : Prop where
  power : .power ∉ x → t.prop.power = s.prop.power ∧ t.prop.diffMode = s.prop.diffMode ∧
    t.prop.fixedDiff = s.prop.fixedDiff
  rudder : .rudder ∉ x → t.steer.rudder = s.steer.rudder ∧ t.steer.bowMode = s.steer.bowMode ∧
    t.steer.bowDemand = s.steer.bowDemand
  mode : .mode ∉ x → t.helm.mode = s.helm.mode ∧ t.helm.helm = s.helm.helm ∧
    t.helm.remembered = s.helm.remembered
  guard : .guard ∉ x → t.helm.guardAt = s.helm.guardAt
  command : .command ∉ x → t.helm.command = s.helm.command
  sound : s.HelmSound → t.HelmSound

/-- A change that keeps the wheelhouse's settings. -/
theorem Steered.same {x : List Part} {s t : State} (h : t.bridge = s.bridge) : Steered x s t where
  power _ := ⟨congrArg Bridge.power h, congrArg Bridge.diffMode h, congrArg Bridge.fixedDiff h⟩
  rudder _ := ⟨congrArg Bridge.rudder h, congrArg Bridge.bowMode h, congrArg Bridge.bowDemand h⟩
  mode _ := by rw [State.bridge_helm h]; exact ⟨rfl, rfl, rfl⟩
  guard _ := by rw [State.bridge_helm h]
  command _ := by rw [State.bridge_helm h]
  sound a := a.congr (State.bridge_helm h) (State.bridge_own h)

theorem Steered.trans {x : List Part} {s t u : State} (h : Steered x s t) (k : Steered x t u) : Steered x s u where
  power m := ⟨(k.power m).1.trans (h.power m).1, (k.power m).2.1.trans (h.power m).2.1,
    (k.power m).2.2.trans (h.power m).2.2⟩
  rudder m := ⟨(k.rudder m).1.trans (h.rudder m).1, (k.rudder m).2.1.trans (h.rudder m).2.1,
    (k.rudder m).2.2.trans (h.rudder m).2.2⟩
  mode m := ⟨(k.mode m).1.trans (h.mode m).1, (k.mode m).2.1.trans (h.mode m).2.1,
    (k.mode m).2.2.trans (h.mode m).2.2⟩
  guard m := (k.guard m).trans (h.guard m)
  command m := (k.command m).trans (h.command m)
  sound := k.sound ∘ h.sound

/-- A change that a decision makes: the answer lane is as it was. -/
structure Decided (x : List Part) (s t : State) : Prop extends Steered x s t where
  answers : t.fwd.answers = s.fwd.answers

theorem Decided.same {x : List Part} {s t : State} (h : t.bridge = s.bridge) (a : t.fwd.answers = s.fwd.answers) :
    Decided x s t :=
  ⟨Steered.same h, a⟩

theorem Decided.refl (x : List Part) (s : State) : Decided x s s :=
  Decided.same rfl rfl

theorem Decided.trans {x : List Part} {s t u : State} (h : Decided x s t) (k : Decided x t u) : Decided x s u :=
  ⟨h.toSteered.trans k.toSteered, k.answers.trans h.answers⟩

/-- A block's own work decides nothing of the wheelhouse's settings. -/
theorem Worked.decided {l : Level} {s t : State} (h : Worked l s t) (x : List Part) : Decided x s t :=
  Decided.same h.within.bridge h.within.answers

theorem Noted.decided {s t : State} (h : Noted s t) (x : List Part) : Decided x s t :=
  h.worked.decided x

/-- Decisions one after another over a list. -/
theorem Decided.foldl {α : Type} {x : List Part} (f : State → α → State) (h : ∀ s a, Decided x s (f s a))
    (l : List α) (s : State) : Decided x s (l.foldl f s) := by
  induction l generalizing s with
  | nil => exact Decided.refl x s
  | cons a l ih => exact (h s a).trans (ih _)

/-! ### Orders, requests and expiries -/

/-- An order is unheard, is lost with a full lane, or is decided and answered (R153, R163). -/
theorem State.order_cases (s : State) (o : Origin) (k : Byte) (act : State → State × Answer) :
    (¬ s.listens .W ∧ s.order o k act = s) ∨
    (s.listens .W ∧ 4 ≤ s.fwd.answers.length ∧ s.order o k act = s.frameEnd .W) ∨
    (s.hasRoom ∧ s.order o k act = (act (s.frameEnd .W)).1.answer o k (act (s.frameEnd .W)).2) := by
  by_cases l : s.listens .W
  · by_cases r : s.fwd.answers.length < 4
    · exact .inr (.inr ⟨⟨l, r⟩, State.order_eq ⟨l, r⟩ o k act⟩)
    · refine .inr (.inl ⟨l, by omega, ?_⟩)
      unfold State.order
      rw [State.receive_eq l]
      have f : (s.frameEnd .W).laneFull = true := by
        unfold State.laneFull; exact decide_eq_true (by simpa using r)
      simp only [State.arrive_W, f, if_true]
  · exact .inl ⟨l, State.receive_deaf l _⟩

/-- A request is unheard, is lost with a full lane, or is handled (R153, R163). -/
theorem State.request_cases (s : State) (o : Origin) (act : State → State) :
    (¬ s.listens .W ∧ s.request o act = s) ∨
    (s.listens .W ∧ 4 ≤ s.fwd.answers.length ∧ s.request o act = s.frameEnd .W) ∨
    (s.hasRoom ∧ s.request o act = act (s.frameEnd .W)) := by
  by_cases l : s.listens .W
  · by_cases r : s.fwd.answers.length < 4
    · exact .inr (.inr ⟨⟨l, r⟩, State.request_eq ⟨l, r⟩ o act⟩)
    · refine .inr (.inl ⟨l, by omega, ?_⟩)
      unfold State.request
      rw [State.receive_eq l]
      have f : (s.frameEnd .W).laneFull = true := by
        unfold State.laneFull; exact decide_eq_true (by simpa using r)
      simp only [State.arrive_W, f, if_true]
  · exact .inl ⟨l, State.receive_deaf l _⟩

/-- A command that is a wheelhouse order from `o` with KIND `k`, whose decision writes the parts `x`. -/
def IsOrder (x : List Part) (c : Instr) (o : Origin) (k : Byte) : Prop :=
  ∃ act : State → State × Answer, (∀ s, exec c s = .next (s.order o k act)) ∧ ∀ u, Decided x u (act u).1

/-- A command that is a request from `o` with code `k`, whose handling writes the parts `x` and places one reply. -/
def IsRequest (x : List Part) (c : Instr) (o : Origin) (k : Byte) : Prop :=
  ∃ act : State → State, (∀ s, exec c s = .next (s.request o act)) ∧
    ∀ u, ∃ (v : State) (a : Status) (body : List Byte), act u = v.reply o k a body ∧ Decided x u v

theorem IsOrder.steered {x : List Part} {c : Instr} {o : Origin} {k : Byte} (h : IsOrder x c o k) (s : State) :
    ∃ t, exec c s = .next t ∧ Steered x s t := by
  obtain ⟨act, e, d⟩ := h
  refine ⟨_, e s, ?_⟩
  rcases s.order_cases o k act with ⟨_, a⟩ | ⟨_, _, a⟩ | ⟨_, a⟩
  · rw [a]; exact Steered.same rfl
  · rw [a]; exact Steered.same rfl
  · rw [a]
    have f : Steered x s (s.frameEnd .W) := Steered.same rfl
    exact (f.trans (d (s.frameEnd .W)).toSteered).trans (Steered.same rfl)

theorem IsRequest.steered {x : List Part} {c : Instr} {o : Origin} {k : Byte} (h : IsRequest x c o k)
    (s : State) : ∃ t, exec c s = .next t ∧ Steered x s t := by
  obtain ⟨act, e, d⟩ := h
  refine ⟨_, e s, ?_⟩
  rcases s.request_cases o act with ⟨_, a⟩ | ⟨_, _, a⟩ | ⟨_, a⟩
  · rw [a]; exact Steered.same rfl
  · rw [a]; exact Steered.same rfl
  · obtain ⟨v, st, b, q, w⟩ := d (s.frameEnd .W)
    rw [a, q]
    have f : Steered x s (s.frameEnd .W) := Steered.same rfl
    exact (f.trans w.toSteered).trans (Steered.same rfl)

/-- An order that requires command is an order, decided once R6 has refused nothing. -/
theorem IsOrder.ofCommanded {x : List Part} {c : Instr} {o : Origin} {k : Byte} {act : State → State × Answer}
    (e : ∀ s, exec c s = .next (s.commanded o k act))
    (h : ∀ u : State, u.refusal o = none → Decided x u (act u).1) : IsOrder x c o k := by
  refine ⟨_, e, fun u => ?_⟩
  split
  · exact Decided.refl x u
  · next r => exact h u r

/-- A table write is a request, whose reply follows the decision of its table. -/
theorem IsRequest.ofWrite {x : List Part} {c : Instr} {o : Origin} {table index : Byte}
    {act : State → State × Status} (e : ∀ s, exec c s = .next (s.tableWrite o table index act))
    (h : ∀ u : State, Decided x u (act u).1) : IsRequest x c o 3 :=
  ⟨_, e, fun u => ⟨_, _, _, rfl, h u⟩⟩

theorem State.receive_steered {x : List Part} {s : State} {p : Port} {act : State → State}
    (h : s.listens p → Steered x s (act s)) : Steered x s (s.receive p act) := by
  by_cases l : s.listens p
  · rw [State.receive_eq l]; exact h l
  · rw [State.receive_deaf l]; exact Steered.same rfl

/-- The expiry of a timer steers as its effect does. -/
theorem State.expire_steered {x : List Part} {s : State} {t : Timer} {act : State → State}
    (h : ∀ n, t = some n → Steered x (s.reach n) (act (s.reach n))) : Steered x s (s.expire t act) := by
  cases t with
  | none => exact Steered.same rfl
  | some n =>
    have r : Steered x s (s.reach n) := Steered.same rfl
    exact r.trans (h n rfl)

/-- The expiry of a timer whose effect is a block's own work. -/
theorem State.expire_worked {l : Level} {s : State} {t : Timer} {act : State → State}
    (h : ∀ u, Worked l u (act u)) : Steered [] s (s.expire t act) :=
  State.expire_steered fun _ _ => ((h _).decided []).toSteered

end Sys2Proof.Machine
end

