-- ==== Sys2Proof/Proofs/Helm.lean ====
section
/-! PROOF. Proofs/Helm.lean: what the decision of each wheelhouse order, of each write of the station and mode tables
and of helm loss does to the helm record (R4 to R13, R186). -/

namespace Sys2Proof.Machine

theorem HelmState.normal_of_ne {x : HelmState} (h : x ≠ .lost) : x = .normal := by
  cases x
  · rfl
  · exact absurd rfl h

/-- What R6 asks of an order that requires command. -/
theorem State.admitted_of_refusal {s : State} {o : Origin} (h : s.refusal o = none) :
    s.helm.lists o.src = true ∧ s.helm.helm = .normal ∧ s.helm.command = some o.src := by
  unfold State.refusal at h
  split at h
  · cases h
  · next a =>
    split at h
    · cases h
    · next b =>
      split at h
      · cases h
      · next c => exact ⟨by simpa using a, HelmState.normal_of_ne b, by simpa using c⟩

/-! ### The guard (R10) -/

theorem State.guardActive_iff (s : State) : s.guardActive = true ↔
    0 < s.profile.guardPeriod ∧ s.helm.mode ≠ 0 ∧ s.helm.helm = .normal := by
  simp [State.guardActive, State.moored, and_assoc]

/-- A helm record that is sound but for its guard, with a guard that runs exactly while it is active. -/
theorem State.HelmSound.withGuard {s t : State} (h : s.HelmSound) {g : Timer}
    (e : t.helm = { s.helm with guardAt := g }) (o : t.link.own = s.link.own) (a : g.isSome = s.guardActive) :
    t.HelmSound := by
  have b : t.guardActive = s.guardActive := by
    have := congrArg (fun h : HelmUnit =>
      decide (0 < h.modes[h.mode].guardPeriod) && !decide (h.mode = 0) && decide (h.helm = .normal)) e
    exact this
  refine ⟨?_, ?_, ?_, ?_, ?_, ?_, ?_, ?_⟩
  · rw [e]; exact h.remembered
  · rw [e]; exact h.mode
  · rw [e]; exact h.ordinary
  · rw [b, e]; exact a
  · rw [e]; exact h.command
  · rw [e]; exact h.underway
  · rw [e]; exact h.distinct
  · rw [e, o]; exact h.own

/-- An active guard starts again, and one that is not active stays as it is. -/
theorem State.restartGuard_decided (s : State) : Decided [.guard] s s.restartGuard := by
  unfold State.restartGuard
  split
  · next a =>
    exact {
      power := fun _ => ⟨rfl, rfl, rfl⟩, rudder := fun _ => ⟨rfl, rfl, rfl⟩, mode := fun _ => ⟨rfl, rfl, rfl⟩
      guard := fun m => absurd List.mem_cons_self m, command := fun _ => rfl
      sound := fun h => h.withGuard (g := s.guardStart) rfl rfl a.symm, answers := rfl }
  · exact Decided.refl _ s

/-- The helm record that `resetGuard` leaves is sound where all but its guard is. -/
theorem State.resetGuard_sound {s : State} (a : s.helm.helm = .lost ↔ s.helm.remembered.isSome = true)
    (b : s.helm.helm = .lost ↔ s.helm.mode = 7) (c : ∀ m : Fin 8, s.helm.remembered = some m → m ≠ 7)
    (d : ∀ x : Byte, s.helm.command = some x → s.helm.lists x = true)
    (e : s.helm.mode ≠ 0 → s.helm.command.isSome = true)
    (f : ∀ x : Byte, s.helm.stations[(0 : Fin 2)] = some x → s.helm.stations[(1 : Fin 2)] ≠ some x)
    (g : s.helm.lists s.link.own = false) : s.resetGuard.HelmSound := by
  refine ⟨a, b, c, ?_, d, e, f, g⟩
  show (if s.guardActive then s.guardStart else none).isSome = s.guardActive
  cases s.guardActive <;> rfl

/-- Forming the coordinators' work again under a mode (R8, R65) is their own work. -/
theorem State.enterMode_worked (s : State) : Worked .units s s.enterMode :=
  (s.setForced_worked.trans (State.recompute_worked _).mono).trans (State.formTow_worked _).mono

/-! ### The wheelhouse orders -/

/-- A change of P and the differential alone. -/
theorem Decided.ofPower (s : State) (a : Int) (b : DiffMode) (c : Int) :
    Decided [.power] s { s with prop := { s.prop with power := a, diffMode := b, fixedDiff := c } } where
  power m := absurd List.mem_cons_self m
  rudder _ := ⟨rfl, rfl, rfl⟩
  mode _ := ⟨rfl, rfl, rfl⟩
  guard _ := rfl
  command _ := rfl
  sound h := h.congr rfl rfl
  answers := rfl

/-- A change of the demands alone. -/
theorem Decided.ofRudder (s : State) (a : Int) (b : BowMode) (c : Int) :
    Decided [.rudder] s { s with steer := { s.steer with rudder := a, bowMode := b, bowDemand := c } } where
  power _ := ⟨rfl, rfl, rfl⟩
  rudder m := absurd List.mem_cons_self m
  mode _ := ⟨rfl, rfl, rfl⟩
  guard _ := rfl
  command _ := rfl
  sound h := h.congr rfl rfl
  answers := rfl

theorem Steered.mono {x y : List Part} {s t : State} (h : Steered x s t) (l : x ⊆ y) : Steered y s t where
  power m := h.power (mt (@l _) m)
  rudder m := h.rudder (mt (@l _) m)
  mode m := h.mode (mt (@l _) m)
  guard m := h.guard (mt (@l _) m)
  command m := h.command (mt (@l _) m)
  sound := h.sound

theorem Decided.mono {x y : List Part} {s t : State} (h : Decided x s t) (l : x ⊆ y := by decide) : Decided y s t :=
  ⟨h.toSteered.mono l, h.answers⟩

/-- P and the differential formed anew, with the recompute and the guard that follow (R10, R29). -/
theorem State.setPower_decided (s : State) (a : Int) (b : DiffMode) (c : Int) :
    Decided [.power, .guard] s (State.restartGuard
      (State.recompute { s with prop := { s.prop with power := a, diffMode := b, fixedDiff := c } })) := by
  have p : Decided [.power, .guard] s { s with prop := { s.prop with power := a, diffMode := b, fixedDiff := c } } :=
    (Decided.ofPower s a b c).mono
  exact (p.trans ((State.recompute_worked _).decided _)).trans (Decided.mono (State.restartGuard_decided _))

theorem State.decidePropel_decided (p : Half) (m : Byte) (d : Half) (f : Byte) (u : State) :
    Decided [.power, .guard] u (u.decidePropel p m d f).1 := by
  unfold State.decidePropel
  split
  · exact Decided.refl _ u
  · have c : Decided [.power, .guard] u (if f.getLsbD 0 then u.crashStop else u) := by
      split
      · exact u.crashStop_worked.decided _
      · exact Decided.refl _ u
    dsimp only
    unfold State.takePropel
    dsimp only
    exact c.trans (State.setPower_decided _ _ _ _)

/-- The demands formed anew and mapped, with the recompute and the guard that may follow (R10, R52). -/
theorem State.setRudder_decided (s : State) (a : Int) (b : BowMode) (c : Int) (p : State → Prop)
    [∀ u, Decidable (p u)] :
    Decided [.rudder, .guard] s (State.restartGuard
      (let s1 := State.remapAll { s with steer := { s.steer with rudder := a, bowMode := b, bowDemand := c } }
       if p s1 then s1.recompute else s1)) := by
  have d : Decided [.rudder, .guard] s { s with steer := { s.steer with rudder := a, bowMode := b, bowDemand := c } } :=
    (Decided.ofRudder s a b c).mono
  refine Decided.trans (Decided.trans (d.trans ((State.remapAll_worked _).decided _)) ?_)
    (Decided.mono (State.restartGuard_decided _))
  dsimp only
  split
  · exact (State.recompute_worked _).decided _
  · exact Decided.refl _ _

theorem State.decideSteer_decided (r : Half) (m : Byte) (b : Half) (u : State) :
    Decided [.rudder, .guard] u (u.decideSteer r m b).1 := by
  unfold State.decideSteer
  split
  · exact Decided.refl _ u
  · dsimp only
    unfold State.takeSteer
    exact u.setRudder_decided _ _ _ fun s1 => s1.prop.diffMode = .auto ∨ s1.steer.forced

/-- A mode change with its guard (R8, R10): the helm record but for the mode, the remembered mode, the helm state,
the station in command and the guard is as it was. -/
theorem State.resetGuard_decided {x : List Part} {s u : State} (e : u.bridge = { s.bridge with helm := u.helm })
    (a : u.fwd.answers = s.fwd.answers)
    (m : .mode ∉ x → u.helm.mode = s.helm.mode ∧ u.helm.helm = s.helm.helm ∧ u.helm.remembered = s.helm.remembered)
    (c : .command ∉ x → u.helm.command = s.helm.command) (g : .guard ∈ x)
    (h : s.HelmSound → u.resetGuard.HelmSound) : Decided x s u.resetGuard where
  power _ := ⟨congrArg Bridge.power e, congrArg Bridge.diffMode e, congrArg Bridge.fixedDiff e⟩
  rudder _ := ⟨congrArg Bridge.rudder e, congrArg Bridge.bowMode e, congrArg Bridge.bowDemand e⟩
  mode := m
  guard k := absurd g k
  command := c
  sound := h
  answers := a

/-- A change of the helm record and a block's work after it leave all else of the wheelhouse's settings. -/
theorem Worked.bridge_modHelm {l : Level} {s t : State} {f : HelmUnit → HelmUnit} (h : Worked l (s.modHelm f) t) :
    t.bridge = { s.bridge with helm := f s.helm } :=
  h.within.bridge

theorem State.decideMode_decided (code : Byte) (u : State) {o : Origin} (r : u.refusal o = none) :
    Decided [.mode, .guard] u (u.decideMode code).1 := by
  obtain ⟨_, n, c⟩ := State.admitted_of_refusal r
  unfold State.decideMode
  split
  · next m _ =>
    split
    · exact Decided.refl _ u
    · next m7 =>
      have w := State.enterMode_worked (u.modHelm fun h => { h with mode := m })
      have e := w.bridge_modHelm
      have eh := State.bridge_helm (w.within.bridge)
      have eo := State.bridge_own (w.within.bridge)
      refine State.resetGuard_decided (by rw [e, eh]; rfl) w.within.answers (by simp) (fun _ => by rw [eh]; rfl)
        (by decide) fun h => ?_
      refine State.resetGuard_sound ?_ ?_ ?_ ?_ ?_ ?_ ?_ <;> rw [eh]
      · exact h.remembered
      · show u.helm.helm = .lost ↔ m = 7
        simp [n, m7]
      · exact h.ordinary
      · exact h.command
      · intro _; show u.helm.command.isSome = true; rw [c]; rfl
      · exact h.distinct
      · rw [eo]; exact h.own
  · exact Decided.refl _ u

theorem State.transferTo_decided (s : State) (a : Byte) (l : s.helm.lists a = true) :
    Decided [.command] s (s.transferTo a) := by
  unfold State.transferTo
  split
  · exact Decided.refl _ s
  · refine Decided.trans ?_ ((State.latch_worked .notices _ _ _).decided _)
    exact {
      power := fun _ => ⟨rfl, rfl, rfl⟩, rudder := fun _ => ⟨rfl, rfl, rfl⟩, mode := fun _ => ⟨rfl, rfl, rfl⟩
      guard := fun _ => rfl, command := fun m => absurd List.mem_cons_self m, answers := rfl
      sound := fun h => ⟨h.remembered, h.mode, h.ordinary, h.guard,
        fun b e => by obtain rfl := Option.some.inj e; exact l, fun _ => rfl, h.distinct, h.own⟩ }

theorem State.transferTo_bridge (s : State) (a : Byte) :
    (s.transferTo a).bridge = { s.bridge with helm := { s.helm with command := some a } } := by
  unfold State.transferTo
  split
  · next e => rw [← e]; rfl
  · exact (State.latch_worked .notices _ _ _).bridge_modHelm

theorem State.decideTakeCommand_decided (o : Origin) (u : State) :
    Decided [.guard, .command] u (u.decideTakeCommand o).1 := by
  unfold State.decideTakeCommand
  split
  · exact Decided.refl _ u
  · next l =>
    split
    · exact Decided.refl _ u
    · have d : Decided [.guard, .command] u (u.transferTo o.src) :=
        (u.transferTo_decided o.src (by simpa using l)).mono
      dsimp only
      split
      · next g =>
        refine d.trans ?_
        exact {
          power := fun _ => ⟨rfl, rfl, rfl⟩, rudder := fun _ => ⟨rfl, rfl, rfl⟩, mode := fun _ => ⟨rfl, rfl, rfl⟩
          guard := fun m => absurd List.mem_cons_self m, command := fun _ => rfl, answers := rfl
          sound := fun h => h.withGuard (g := (u.transferTo o.src).guardStart) rfl rfl (by rw [← h.guard, g]; rfl) }
      · exact d

/-- What a HELM_RESUME leaves of the helm record, its guard apart (R13). -/
def HelmUnit.resumed (h : HelmUnit) (a : Byte) : HelmUnit :=
  { h with mode := h.remembered.getD h.mode, remembered := none, helm := .normal, command := some a }

theorem State.resumeHelm_decided (u : State) (a : Byte) (l : u.helm.lists a = true) (n : u.helm.helm = .lost) :
    Decided [.mode, .guard, .command] u (u.resumeHelm a) := by
  have w := State.enterMode_worked (u.modHelm fun h =>
    { h with mode := h.remembered.getD h.mode, remembered := none, helm := .normal })
  unfold State.resumeHelm
  generalize State.enterMode _ = v at w
  have lv : v.helm.lists a = true := by rw [State.bridge_helm w.within.bridge]; exact l
  have b : (v.transferTo a).bridge = { u.bridge with helm := u.helm.resumed a } := by
    rw [State.transferTo_bridge, w.bridge_modHelm, State.bridge_helm w.within.bridge]; rfl
  have eh : (v.transferTo a).helm = u.helm.resumed a := congrArg Bridge.helm b
  have eo : (v.transferTo a).link.own = u.link.own := congrArg Bridge.own b
  refine State.resetGuard_decided (by rw [b, eh]) ((v.transferTo_decided a lv).answers.trans w.within.answers)
    (fun m => absurd (by decide) m) (fun m => absurd (by decide) m) (by decide) fun h => ?_
  obtain ⟨m, em⟩ := Option.isSome_iff_exists.1 (h.remembered.1 n)
  have m7 : (u.helm.resumed a).mode = m := by unfold HelmUnit.resumed; rw [em]; rfl
  refine State.resetGuard_sound ?_ ?_ ?_ ?_ ?_ ?_ ?_ <;> rw [eh]
  · exact ⟨nofun, nofun⟩
  · rw [m7]; exact ⟨nofun, fun k => absurd k (h.ordinary m em)⟩
  · exact nofun
  · exact fun c e => by obtain rfl := Option.some.inj e; exact l
  · exact fun _ => rfl
  · exact h.distinct
  · rw [eo]; exact h.own

theorem State.decideHelmResume_decided (o : Origin) (u : State) :
    Decided [.mode, .guard, .command] u (u.decideHelmResume o).1 := by
  unfold State.decideHelmResume
  split
  · exact Decided.refl _ u
  · next l =>
    split
    · next lost => exact u.resumeHelm_decided o.src (by simpa using l) lost
    · exact Decided.refl _ u

/-! ### Table writes, the own address and helm loss -/

theorem HelmUnit.lists_iff (h : HelmUnit) (a : Byte) :
    h.lists a = true ↔ ∃ i : Fin 2, h.stations[i] = some a := by
  simp [HelmUnit.lists, Fin.exists_fin_two]

theorem stationOf_some {a b : Byte} : stationOf a = some b ↔ a ≠ 0 ∧ a = b := by
  unfold stationOf
  split
  · next h => simp [h]
  · next h => exact ⟨fun e => ⟨h, Option.some.inj e⟩, fun e => congrArg some e.2⟩

theorem HelmUnit.lists_false_iff (h : HelmUnit) (a : Byte) :
    h.lists a = false ↔ ∀ i : Fin 2, h.stations[i] ≠ some a := by
  rw [← Bool.not_eq_true, HelmUnit.lists_iff, not_exists]

/-- The helm record with a station entry written (R5). -/
def HelmUnit.withStation (h : HelmUnit) (i : Fin 2) (a : Byte) : HelmUnit :=
  { h with
    stations := h.stations.set i (stationOf a)
    command :=
      if h.command.isSome ∧ h.stations[i] = h.command ∧ stationOf a ≠ h.command then none else h.command }

/-- A station entry taken while MOORED keeps the helm record sound (R5). -/
theorem State.HelmSound.withStation {s : State} (h : s.HelmSound) (moored : s.helm.mode = 0) (i : Fin 2) (a : Byte)
    (own : a ≠ s.link.own) (other : a ≠ 0 → s.helm.otherStation i ≠ some a) :
    (s.modHelm fun k => k.withStation i a).HelmSound := by
  have g : ∀ j : Fin 2, (s.helm.withStation i a).stations[j] = if i = j then stationOf a else s.helm.stations[j] :=
    fun j => set_get s.helm.stations i j _
  refine ⟨h.remembered, h.mode, h.ordinary, h.guard, ?_, fun m => absurd moored m, ?_, ?_⟩
  · intro c e
    rw [HelmUnit.lists_iff]
    show ∃ j : Fin 2, (s.helm.withStation i a).stations[j] = some c
    have e : (if s.helm.command.isSome ∧ s.helm.stations[i] = s.helm.command ∧ stationOf a ≠ s.helm.command then none
      else s.helm.command) = some c := e
    split at e
    · cases e
    · next n =>
      obtain ⟨j, f⟩ := (HelmUnit.lists_iff _ _).1 (h.command c e)
      refine ⟨j, ?_⟩
      rw [g]
      split
      · next k =>
        subst k
        rw [e] at n
        exact by_contra fun q => n ⟨rfl, f, q⟩
      · exact f
  · intro b e f
    have e : (s.helm.withStation i a).stations[(0 : Fin 2)] = some b := e
    have f : (s.helm.withStation i a).stations[(1 : Fin 2)] = some b := f
    rw [g] at e f
    obtain rfl | rfl : i = 0 ∨ i = 1 := by omega
    · rw [if_pos rfl] at e
      rw [if_neg (by decide)] at f
      obtain ⟨n, rfl⟩ := stationOf_some.1 e
      exact other n f
    · rw [if_neg (by decide)] at e
      rw [if_pos rfl] at f
      obtain ⟨n, rfl⟩ := stationOf_some.1 f
      exact other n e
  · rw [HelmUnit.lists_false_iff]
    intro j
    show (s.helm.withStation i a).stations[j] ≠ some s.link.own
    rw [g]
    split
    · intro e; exact own (stationOf_some.1 e).2
    · exact (HelmUnit.lists_false_iff _ _).1 h.own j

theorem State.writeStation_decided (index a : Byte) (u : State) :
    Decided [.command] u (u.writeStation index a).1 := by
  unfold State.writeStation
  split
  · exact Decided.refl _ u
  · next m =>
    split
    · next i _ =>
      split
      · exact Decided.refl _ u
      · next r =>
        simp only [not_or, not_and] at r
        exact {
          power := fun _ => ⟨rfl, rfl, rfl⟩, rudder := fun _ => ⟨rfl, rfl, rfl⟩, mode := fun _ => ⟨rfl, rfl, rfl⟩
          guard := fun _ => rfl, command := fun m => absurd List.mem_cons_self m, answers := rfl
          sound := fun h => h.withStation ((State.moored_iff u).1 (by simpa using m)) i a r.2.1 r.2.2 }
    · exact Decided.refl _ u

/-- A SET_ADDRESS of an address that no station has (R186). -/
theorem State.setOwn_decided (s : State) (a : Byte) (l : s.helm.lists a = false) :
    Decided [] s { s with link := { s.link with own := a } } where
  power _ := ⟨rfl, rfl, rfl⟩
  rudder _ := ⟨rfl, rfl, rfl⟩
  mode _ := ⟨rfl, rfl, rfl⟩
  guard _ := rfl
  command _ := rfl
  answers := rfl
  sound h := ⟨h.remembered, h.mode, h.ordinary, h.guard, h.command, h.underway, h.distinct, l⟩

/-- A change of the mode table and the guard alone (R1, R10). -/
theorem Decided.ofModes (s : State) (t : State) (f : HelmUnit)
    (e : t.bridge = { s.bridge with helm := f }) (m : f = { s.helm with modes := f.modes, guardAt := f.guardAt })
    (a : t.fwd.answers = s.fwd.answers)
    (g : s.HelmSound → f.guardAt.isSome = t.guardActive) : Decided [.guard] s t := by
  have h : t.helm = { s.helm with modes := f.modes, guardAt := f.guardAt } := (congrArg Bridge.helm e).trans m
  have o : t.link.own = s.link.own := congrArg Bridge.own e
  refine ⟨⟨fun _ => ⟨congrArg Bridge.power e, congrArg Bridge.diffMode e, congrArg Bridge.fixedDiff e⟩,
    fun _ => ⟨congrArg Bridge.rudder e, congrArg Bridge.bowMode e, congrArg Bridge.bowDemand e⟩,
    fun _ => by rw [h]; exact ⟨rfl, rfl, rfl⟩, fun k => absurd List.mem_cons_self k, fun _ => by rw [h],
    fun k => ⟨?_, ?_, ?_, ?_, ?_, ?_, ?_, ?_⟩⟩, a⟩
  · rw [h]; exact k.remembered
  · rw [h]; exact k.mode
  · rw [h]; exact k.ordinary
  · rw [← g k, h]
  · rw [h]; exact k.command
  · rw [h]; exact k.underway
  · rw [h]; exact k.distinct
  · rw [h, o]; exact k.own

/-- The guard after a write of the guard period of the profile in force (R10). -/
def State.writtenGuard (s : State) : Timer :=
  if s.profile.guardPeriod = 0 then none
  else if s.helm.guardAt.isNone ∧ s.guardActive then s.guardStart
  else s.helm.guardAt

theorem State.guardWritten_eq (s : State) :
    s.guardWritten = s.modHelm fun h => { h with guardAt := s.writtenGuard } := by
  unfold State.guardWritten State.writtenGuard
  split
  · rfl
  · by_cases n : s.helm.guardAt.isNone
    · unfold State.restartGuard
      by_cases a : s.guardActive
      · simp only [n, a]; rfl
      · simp only [n, a]; rfl
    · simp only [n]; rfl

/-- The guard that a write of the profile in force leaves runs exactly while it is active (R10). -/
theorem State.writtenGuard_isSome {s : State}
    (h : s.helm.guardAt.isSome = true → s.helm.mode ≠ 0 ∧ s.helm.helm = .normal) :
    s.writtenGuard.isSome = s.guardActive := by
  unfold State.writtenGuard
  split
  · next z =>
    have : ¬ s.guardActive = true := fun a => by have := (s.guardActive_iff.1 a).1; omega
    exact (Bool.eq_false_iff.2 this).symm
  · next z =>
    split
    · next n => rw [n.2]; rfl
    · next n =>
      by_cases i : s.helm.guardAt.isSome = true
      · rw [i, s.guardActive_iff.2 ⟨by omega, h i⟩]
      · have j : s.helm.guardAt.isNone = true := by simpa using i
        have : ¬ s.guardActive = true := fun a => n ⟨j, a⟩
        rw [Bool.eq_false_iff.2 this, Bool.eq_false_iff.2 i]

/-- A mode write taken (R1, R2, R10). -/
theorem State.takeMode_decided (s : State) (m : Fin 8) (p : Profile) : Decided [.guard] s (s.takeMode m p) := by
  unfold State.takeMode
  dsimp only
  split
  · next e =>
    generalize hv : State.formTow _ = v
    have w : Worked .units (s.modHelm fun h => { h with modes := h.modes.set m p }) v := by
      rw [← hv]
      refine Worked.trans ?_ (State.formTow_worked _).mono
      split
      · exact (State.setForced_worked _).trans (State.recompute_worked _).mono
      · exact Worked.refl _ _
    have eh : v.helm = { s.helm with modes := s.helm.modes.set m p } := w.within.written.helm
    rw [v.guardWritten_eq]
    refine Decided.ofModes s _ { s.helm with modes := s.helm.modes.set m p, guardAt := v.writtenGuard } ?_ rfl
      w.within.answers fun h => ?_
    · show ({ v.bridge with helm := { v.helm with guardAt := v.writtenGuard } } : Bridge) = _
      rw [w.bridge_modHelm, eh]
    · refine (State.writtenGuard_isSome fun g => ?_).trans rfl
      rw [eh] at g ⊢
      exact (s.guardActive_iff.1 (h.guard ▸ g)).2
  · next n =>
    refine Decided.ofModes s _ _ rfl rfl rfl fun h => h.guard.trans ?_
    have k : (s.helm.modes.set m p)[s.helm.mode] = s.helm.modes[s.helm.mode] := by rw [set_get, if_neg n]
    show (decide (0 < s.helm.modes[s.helm.mode].guardPeriod) && _ && _) =
      (decide (0 < (s.helm.modes.set m p)[s.helm.mode].guardPeriod) && _ && _)
    rw [k]
    rfl

theorem State.writeMode_decided (index : Byte) (r : ModeRaw) (u : State) :
    Decided [.guard] u (u.writeMode index r).1 := by
  unfold State.writeMode
  split
  · split
    · exact u.takeMode_decided _ _
    · exact Decided.refl _ u
  · exact Decided.refl _ u

/-- What helm loss leaves of the helm record (R11). -/
def HelmUnit.lose (h : HelmUnit) : HelmUnit :=
  { h with helm := .lost, remembered := some h.mode, mode := 7, guardAt := none }

theorem State.loseHelm_bridge (s : State) : s.loseHelm.bridge = { s.bridge with
    helm := s.helm.lose, power := s.helm.modes[(7 : Fin 8)].fallback, diffMode := .fixed, fixedDiff := 0 } :=
  ((State.latch_worked .units _ _ _).trans (State.enterMode_worked _)).within.bridge

/-- Helm loss of a guard that was running (R11). -/
theorem State.loseHelm_steered (s : State) (r : s.helm.guardAt.isSome = true) :
    Steered [.power, .mode, .guard] s s.loseHelm := by
  have b := s.loseHelm_bridge
  generalize s.loseHelm = t at b ⊢
  have eh : t.helm = s.helm.lose := congrArg Bridge.helm b
  refine ⟨fun m => absurd (by decide) m,
    fun _ => ⟨congrArg Bridge.rudder b, congrArg Bridge.bowMode b, congrArg Bridge.bowDemand b⟩,
    fun m => absurd (by decide) m, fun m => absurd (by decide) m, fun _ => by rw [eh]; rfl, fun h => ?_⟩
  obtain ⟨_, m0, n⟩ := s.guardActive_iff.1 (h.guard ▸ r)
  have a : ¬ t.guardActive = true := fun k => by
    have := (State.guardActive_iff _).1 k |>.2.2
    rw [eh] at this
    cases this
  refine ⟨?_, ?_, ?_, ?_, ?_, ?_, ?_, ?_⟩
  · rw [eh]; exact ⟨fun _ => rfl, fun _ => rfl⟩
  · rw [eh]; exact ⟨fun _ => rfl, fun _ => rfl⟩
  · rw [eh]
    intro m e m7
    obtain rfl := Option.some.inj e
    rw [h.mode.2 m7] at n
    cases n
  · rw [Bool.eq_false_iff.2 a, eh]; rfl
  · rw [eh]; exact h.command
  · rw [eh]; exact fun _ => h.underway m0
  · rw [eh]; exact h.distinct
  · rw [eh, show t.link.own = s.link.own from congrArg Bridge.own b]; exact h.own

/-- A warm restart ends every setting of the wheelhouse but the tables and the own address (R16, R188). -/
theorem State.warmRestart_sound {s : State} (h : s.HelmSound) : s.warmRestart.HelmSound := by
  refine ⟨⟨nofun, nofun⟩, ⟨nofun, nofun⟩, nofun, ?_, nofun, fun m => absurd rfl m, h.distinct, h.own⟩
  have : ¬ s.warmRestart.guardActive = true := fun a => (State.guardActive_iff _).1 a |>.2.1 rfl
  exact (Bool.eq_false_iff.2 this).symm

end Sys2Proof.Machine
end

