-- ==== Sys2Proof/Proofs/Decisions.lean ====
section
/-! PROOF. Proofs/Decisions.lean: every wheelhouse order and every request but RESTART as an `IsOrder` or an `IsRequest`,
with the parts of the wheelhouse's settings that its decision writes. -/

namespace Sys2Proof.Machine

/-! ### Wheelhouse orders -/

theorem propel_isOrder (o : Origin) (p : Half) (m : Byte) (d : Half) (f : Byte) :
    IsOrder [.power, .guard] (.propel o p m d f) o 1 :=
  IsOrder.ofCommanded (fun _ => rfl) fun u _ => u.decidePropel_decided p m d f

theorem steer_isOrder (o : Origin) (r : Half) (m : Byte) (b : Half) :
    IsOrder [.rudder, .guard] (.steer o r m b) o 2 :=
  IsOrder.ofCommanded (fun _ => rfl) fun u _ => u.decideSteer_decided r m b

theorem convoyMode_isOrder (o : Origin) (x : Byte) : IsOrder [.mode, .guard] (.convoyMode o x) o 3 :=
  IsOrder.ofCommanded (fun _ => rfl) fun u r => u.decideMode_decided x r

theorem takeCommand_isOrder (o : Origin) (x : Byte) : IsOrder [.guard, .command] (.takeCommand o x) o 3 :=
  ⟨_, fun _ => rfl, fun u => u.decideTakeCommand_decided o⟩

theorem helmResume_isOrder (o : Origin) (x : Byte) : IsOrder [.mode, .guard, .command] (.helmResume o x) o 3 :=
  ⟨_, fun _ => rfl, fun u => u.decideHelmResume_decided o⟩

/-- A COUPLE order decides what its own rule does of a coupling in use (R83). -/
theorem State.decideCouple_decided (x : Byte) (act : State → Fin 48 → State × Answer) (u : State)
    (h : ∀ c, Decided [] u (act u c).1) : Decided [] u (u.decideCouple x act).1 := by
  unfold State.decideCouple
  split
  · split
    · exact Decided.refl _ u
    · exact h _
  · exact Decided.refl _ u

theorem State.beginWork_decided (s : State) (c : Fin 48) (x : CouplingState) (p : Option ReleasePhase) (n : Nat) :
    Decided [] s (s.beginWork c x p n) :=
  Decided.same rfl rfl

theorem State.decideRelease_decided (u : State) (c : Fin 48) : Decided [] u (u.decideRelease c).1 := by
  unfold State.decideRelease
  dsimp only
  split
  · split
    · split
      · exact Decided.refl _ u
      · split
        · dsimp only
          refine Decided.trans ?_ ((State.orderRelease_worked _ _).decided _)
          refine Decided.trans ?_ ((State.formTow_worked _).decided _)
          refine Decided.trans ?_ (State.beginWork_decided _ _ _ _ _)
          exact (State.place_worked (x := .propulsion) u _ _ _ _ _).decided []
        · exact Decided.refl _ u
    · exact Decided.refl _ u
  · exact Decided.refl _ u

theorem State.decideMakeUp_decided (u : State) (c : Fin 48) : Decided [] u (u.decideMakeUp c).1 := by
  unfold State.decideMakeUp
  dsimp only
  split
  · split
    · split
      · exact Decided.refl _ u
      · split
        · dsimp only
          refine Decided.trans ?_ ((State.formTow_worked _).decided _)
          refine Decided.trans ?_ (State.beginWork_decided _ _ _ _ _)
          exact (State.place_worked (x := .propulsion) u _ _ _ _ _).decided []
        · exact Decided.refl _ u
    · exact Decided.refl _ u
  · exact Decided.refl _ u

theorem State.decideCancel_decided (u : State) (c : Fin 48) : Decided [] u (u.decideCancel c).1 := by
  unfold State.decideCancel
  dsimp only
  split
  · next h =>
    have w : u.tow.couplings[c].working = true := (Coupling.working_iff _).2 (.inl h.1)
    dsimp only
    refine Decided.trans ?_ ((State.formTow_worked _).decided _)
    refine Decided.trans ?_ ((State.noteState_worked .units _ c).decided _)
    exact (u.endWork_worked c _ w fun k => Coupling.returnState_idle k c).decided []
  · exact Decided.refl _ u

theorem State.decideAccept_decided (u : State) (c : Fin 48) : Decided [] u (u.decideAccept c).1 := by
  unfold State.decideAccept
  dsimp only
  split
  · next h =>
    have w : u.tow.couplings[c].working = false := by simp [-Fin.getElem_fin, Coupling.working, h]
    exact (u.moveCoupling_worked c _ _ w ⟨by decide, by decide⟩).decided []
  · exact Decided.refl _ u

theorem coupleRelease_isOrder (o : Origin) (x : Byte) : IsOrder [] (.coupleRelease o x) o 4 :=
  IsOrder.ofCommanded (fun _ => rfl) fun u _ => u.decideCouple_decided x _ u.decideRelease_decided

theorem coupleCancel_isOrder (o : Origin) (x : Byte) : IsOrder [] (.coupleCancel o x) o 4 :=
  IsOrder.ofCommanded (fun _ => rfl) fun u _ => u.decideCouple_decided x _ u.decideCancel_decided

theorem coupleMakeUp_isOrder (o : Origin) (x : Byte) : IsOrder [] (.coupleMakeUp o x) o 4 :=
  IsOrder.ofCommanded (fun _ => rfl) fun u _ => u.decideCouple_decided x _ u.decideMakeUp_decided

theorem acceptParted_isOrder (o : Origin) (x : Byte) : IsOrder [] (.acceptParted o x) o 4 :=
  IsOrder.ofCommanded (fun _ => rfl) fun u _ => u.decideCouple_decided x _ u.decideAccept_decided

theorem execOrderUnknown_couple (o : Origin) {l : List Byte} (h : unknownCouple l = true) (s : State) :
    exec (.orderUnknown o l) s = .next (s.commanded o 4 fun u => (u, .unknown)) := by
  show execOrderUnknown o l s = _
  unfold execOrderUnknown
  rw [if_pos h]

theorem execOrderUnknown_plain (o : Origin) {l : List Byte} (h : ¬ unknownCouple l = true) (s : State) :
    exec (.orderUnknown o l) s = .next (s.order o (l.headD 0) fun u => (u, .unknown)) := by
  show execOrderUnknown o l s = _
  unfold execOrderUnknown
  rw [if_neg h]

theorem orderUnknown_isOrder (o : Origin) (l : List Byte) : IsOrder [] (.orderUnknown o l) o (l.headD 0) := by
  by_cases h : unknownCouple l = true
  · have k : l.headD 0 = 4 := by
      unfold unknownCouple at h
      simp only [Bool.and_eq_true, decide_eq_true_eq] at h
      rw [List.headD_eq_head?_getD, h.1]
      rfl
    rw [k]
    exact IsOrder.ofCommanded (execOrderUnknown_couple o h) fun u _ => Decided.refl _ u
  · exact ⟨_, execOrderUnknown_plain o h, fun u => Decided.refl _ u⟩

/-! ### Table writes -/

theorem tableWriteStation_isRequest (o : Origin) (i a : Byte) :
    IsRequest [.command] (.tableWriteStation o i a) o 3 :=
  IsRequest.ofWrite (fun _ => rfl) (State.writeStation_decided i a)

theorem tableWriteMode_isRequest (o : Origin) (i : Byte) (r : ModeRaw) :
    IsRequest [.guard] (.tableWriteMode o i r) o 3 :=
  IsRequest.ofWrite (fun _ => rfl) (State.writeMode_decided i r)

theorem State.writeRoster_decided (i : Byte) (r : RosterRaw) (u : State) : Decided [] u (u.writeRoster i r).1 := by
  have k : ∀ n e, Decided [] u (u.takeRoster n e) := by
    intro n e
    unfold State.takeRoster
    split
    · have m : Decided [] u (u.modNode n e.started) := Decided.same rfl rfl
      dsimp only
      split
      · exact m
      · exact m.trans ((State.handOver_worked _ _).decided _)
    · exact Decided.same rfl rfl
  unfold State.writeRoster
  split
  · exact Decided.refl _ u
  · split
    · dsimp only
      split
      · exact Decided.refl _ u
      · split
        · exact Decided.refl _ u
        · split
          · exact Decided.refl _ u
          · exact k _ _
    · exact Decided.refl _ u

theorem State.writePassage_decided (i : Byte) (r : PassageRaw) (u : State) :
    Decided [] u (u.writePassage i r).1 := by
  unfold State.writePassage
  split
  · exact Decided.refl _ u
  · split
    · split
      · exact Decided.refl _ u
      · exact Decided.same rfl rfl
    · exact Decided.refl _ u

theorem State.writeDefault_decided (i : Byte) (r : DefaultRaw) (u : State) :
    Decided [] u (u.writeDefault i r).1 := by
  unfold State.writeDefault
  split
  · exact Decided.refl _ u
  · split
    · split
      · exact Decided.refl _ u
      · exact Decided.same rfl rfl
    · exact Decided.refl _ u

theorem State.writeEngine_decided (i : Byte) (r : EngineRaw) (u : State) :
    Decided [] u (u.writeEngine i r).1 := by
  have k : ∀ j e b, Decided [] u (u.takeEngine j e b) := by
    intro j e b
    unfold State.takeEngine
    refine Decided.trans ?_ ((State.recompute_worked _).decided _)
    exact Decided.same rfl rfl
  unfold State.writeEngine
  split
  · next i' _ =>
    dsimp only
    split
    · exact Decided.refl _ u
    · split
      · next e' _ =>
        split
        · exact Decided.refl _ u
        · split
          · exact Decided.refl _ u
          · dsimp only
            exact k i' e' _
      · exact Decided.refl _ u
  · exact Decided.refl _ u

theorem State.writeActuator_decided (i : Byte) (r : ActuatorRaw) (u : State) :
    Decided [] u (u.writeActuator i r).1 := by
  have k : ∀ j e, Decided [] u (u.takeActuator j e) := by
    intro j e
    unfold State.takeActuator
    dsimp only
    refine Decided.trans ?_ ((State.reviewForced_worked _).decided _)
    refine Decided.trans ?_ ((State.placeOrdered_worked (x := .propulsion) _ j).decided _)
    split
    · refine Decided.trans ?_ ((State.latch_worked .notices _ _ _).decided _)
      exact Decided.same rfl rfl
    · exact Decided.same rfl rfl
  unfold State.writeActuator
  split
  · exact Decided.refl _ u
  · split
    · split
      · split
        · exact Decided.refl _ u
        · exact k _ _
      · exact Decided.refl _ u
    · exact Decided.refl _ u

theorem State.writeCoupling_decided (i : Byte) (r : CouplingRaw) (u : State) :
    Decided [] u (u.writeCoupling i r).1 := by
  have k : ∀ c e b, Decided [] u (u.takeCoupling c e b) := by
    intro c e b
    unfold State.takeCoupling
    split
    · have m : Decided [] u (u.modCoupling c fun _ => e.started) := Decided.same rfl rfl
      exact m.trans ((State.formTow_worked _).decided _)
    · exact Decided.same rfl rfl
  unfold State.writeCoupling
  split
  · dsimp only
    split
    · exact Decided.refl _ u
    · split
      · split
        · exact Decided.refl _ u
        · split
          · exact Decided.refl _ u
          · exact k _ _ _
      · exact Decided.refl _ u
  · exact Decided.refl _ u

theorem State.writeTank_decided (i : Byte) (r : TankRaw) (u : State) : Decided [] u (u.writeTank i r).1 := by
  have k : ∀ t e, Decided [] u (u.takeTank t e) := by
    intro t e
    have m : Decided [] u (u.modTank t e.written) := Decided.same rfl rfl
    have d := m.trans ((State.testLow_worked _ t).decided [])
    unfold State.takeTank
    dsimp only
    split
    · exact d.trans ((State.recompute_worked _).decided _)
    · exact d
  unfold State.writeTank
  split
  · dsimp only
    split
    · exact Decided.refl _ u
    · split
      · split
        · exact Decided.refl _ u
        · split
          · exact Decided.refl _ u
          · exact k _ _
      · exact Decided.refl _ u
  · exact Decided.refl _ u

theorem State.writeMeter_decided (i : Byte) (r : MeterRaw) (u : State) : Decided [] u (u.writeMeter i r).1 := by
  unfold State.writeMeter
  split
  · exact Decided.refl _ u
  · split
    · split
      · split
        · exact Decided.refl _ u
        · exact Decided.same rfl rfl
      · exact Decided.refl _ u
    · exact Decided.refl _ u

theorem State.writeMap_decided (k c : Byte) (u : State) : Decided [] u (u.writeMap k c).1 := by
  unfold State.writeMap
  split
  · exact Decided.same rfl rfl
  · exact Decided.refl _ u

theorem tableWriteRoster_isRequest (o : Origin) (i : Byte) (r : RosterRaw) : IsRequest [] (.tableWriteRoster o i r) o 3 :=
  IsRequest.ofWrite (fun _ => rfl) (State.writeRoster_decided i r)

theorem tableWritePassage_isRequest (o : Origin) (i : Byte) (r : PassageRaw) : IsRequest [] (.tableWritePassage o i r) o 3 :=
  IsRequest.ofWrite (fun _ => rfl) (State.writePassage_decided i r)

theorem tableWriteDefault_isRequest (o : Origin) (i : Byte) (r : DefaultRaw) : IsRequest [] (.tableWriteDefault o i r) o 3 :=
  IsRequest.ofWrite (fun _ => rfl) (State.writeDefault_decided i r)

theorem tableWriteEngine_isRequest (o : Origin) (i : Byte) (r : EngineRaw) : IsRequest [] (.tableWriteEngine o i r) o 3 :=
  IsRequest.ofWrite (fun _ => rfl) (State.writeEngine_decided i r)

theorem tableWriteActuator_isRequest (o : Origin) (i : Byte) (r : ActuatorRaw) : IsRequest [] (.tableWriteActuator o i r) o 3 :=
  IsRequest.ofWrite (fun _ => rfl) (State.writeActuator_decided i r)

theorem tableWriteCoupling_isRequest (o : Origin) (i : Byte) (r : CouplingRaw) : IsRequest [] (.tableWriteCoupling o i r) o 3 :=
  IsRequest.ofWrite (fun _ => rfl) (State.writeCoupling_decided i r)

theorem tableWriteTank_isRequest (o : Origin) (i : Byte) (r : TankRaw) : IsRequest [] (.tableWriteTank o i r) o 3 :=
  IsRequest.ofWrite (fun _ => rfl) (State.writeTank_decided i r)

theorem tableWriteMeter_isRequest (o : Origin) (i : Byte) (r : MeterRaw) : IsRequest [] (.tableWriteMeter o i r) o 3 :=
  IsRequest.ofWrite (fun _ => rfl) (State.writeMeter_decided i r)

theorem tableWriteNoticeMap_isRequest (o : Origin) (k c : Byte) : IsRequest [] (.tableWriteNoticeMap o k c) o 3 :=
  IsRequest.ofWrite (fun _ => rfl) (State.writeMap_decided k c)

/-! ### The other requests -/

theorem identify_isRequest (o : Origin) : IsRequest [] (.identify o) o 1 :=
  ⟨_, fun _ => rfl, fun u => ⟨u, _, _, rfl, Decided.refl _ u⟩⟩

theorem tableRead_isRequest (o : Origin) (t i : Byte) : IsRequest [] (.tableRead o t i) o 2 := by
  refine ⟨_, fun _ => rfl, fun u => ?_⟩
  unfold State.readTable
  split
  · exact ⟨u, _, _, rfl, Decided.refl _ u⟩
  · exact ⟨u, _, _, rfl, Decided.refl _ u⟩

theorem stateRead_isRequest (o : Origin) (r i p : Byte) : IsRequest [] (.stateRead o r i p) o 4 := by
  refine ⟨_, fun _ => rfl, fun u => ?_⟩
  unfold State.readState
  split
  · split
    · exact ⟨u, _, _, rfl, Decided.refl _ u⟩
    · exact ⟨u, _, _, rfl, Decided.refl _ u⟩
  · exact ⟨u, _, _, rfl, Decided.refl _ u⟩

/-- The forwarding record of an ALLOCATE keeps the answer lane. -/
theorem Forwarding.allocated_answers {f g : Forwarding} {w m t : Nat} (h : f.allocated w m t = some g) :
    g.answers = f.answers := by
  unfold Forwarding.allocated at h
  dsimp only at h
  split at h
  · cases h
  · rw [← Option.some.inj h]

theorem allocate_isRequest (o : Origin) (w m t : Byte) : IsRequest [] (.allocate o w m t) o 5 := by
  refine ⟨_, fun _ => rfl, fun u => ?_⟩
  unfold State.takeAllocate
  split
  · exact ⟨u, _, _, rfl, Decided.refl _ u⟩
  · split
    · next f h => exact ⟨_, _, _, rfl, Decided.same rfl (Forwarding.allocated_answers h)⟩
    · exact ⟨u, _, _, rfl, Decided.refl _ u⟩

theorem setAddress_isRequest (o : Origin) (a : Byte) : IsRequest [] (.setAddress o a) o 6 := by
  refine ⟨_, fun _ => rfl, fun u => ?_⟩
  unfold State.takeAddress
  split
  · exact ⟨u, _, _, rfl, Decided.refl _ u⟩
  · split
    · exact ⟨u, _, _, rfl, Decided.refl _ u⟩
    · next h =>
      simp only [not_or, Bool.not_eq_true] at h
      exact ⟨_, _, _, rfl, u.setOwn_decided a h.2.2⟩

theorem State.reportNew_decided (s : State) (c : Fin 8) : Decided [] s (s.reportNew c) := by
  unfold State.reportNew
  split
  · exact (s.buildReport_noted c).decided []
  · exact Decided.refl _ s

theorem noticeSetup_isRequest (o : Origin) (m c a d : Byte) : IsRequest [] (.noticeSetup o m c a d) o 7 := by
  refine ⟨_, fun _ => rfl, fun u => ?_⟩
  unfold State.decideSetup
  split
  · next c' _ =>
    have k : Decided [] u (u.setUp c' m a d) := Decided.same rfl rfl
    exact ⟨_, _, _, rfl, k.trans (Decided.foldl _ State.reportNew_decided _ _)⟩
  · exact ⟨u, _, _, rfl, Decided.refl _ u⟩

/-- Latching again what a clear removed is recording of notices, and no more. -/
theorem relatch_noted (r : State × Bool) (n : Notice) : Noted r.1 (relatch r n).1 := by
  unfold relatch
  split
  · exact r.1.note_noted _ _
  · exact Noted.refl _

theorem State.clearNotices_decided (s : State) (ns : List Notice) : Decided [] s (s.clearNotices ns) := by
  have k : ∀ (l : List Notice) (r : State × Bool), Noted r.1 (l.foldl relatch r).1 := by
    intro l
    induction l with
    | nil => exact fun r => Noted.refl _
    | cons n l ih => exact fun r => (relatch_noted r n).trans (ih _)
  have d : Decided [] s (s.removeNotices ns) := Decided.same rfl rfl
  exact d.trans (((k ns (s.removeNotices ns, false)).trans (lossNoted_noted _)).decided [])

theorem noticeRead_isRequest (o : Origin) (c x : Byte) : IsRequest [] (.noticeRead o c x) o 8 := by
  refine ⟨_, fun _ => rfl, fun u => ?_⟩
  unfold State.readNotices
  split
  · next c' _ =>
    refine ⟨_, _, _, rfl, ?_⟩
    split
    · exact Decided.refl _ u
    · have k : Decided [] u (u.clearOverflow c') := Decided.same rfl rfl
      exact k.trans (State.clearNotices_decided _ _)
  · exact ⟨u, _, _, rfl, Decided.refl _ u⟩

theorem noticeClear_isRequest (o : Origin) (k x y : Byte) : IsRequest [] (.noticeClear o k x y) o 9 := by
  refine ⟨_, fun _ => rfl, fun u => ?_⟩
  unfold State.takeClear
  split
  · exact ⟨_, _, _, rfl, u.clearNotices_decided _⟩
  · exact ⟨u, _, _, rfl, Decided.refl _ u⟩

theorem fuelPreset_isRequest (o : Origin) (t : Byte) (q : Quad) : IsRequest [] (.fuelPreset o t q) o 10 := by
  refine ⟨_, fun _ => rfl, fun u => ?_⟩
  unfold State.takePreset
  split
  · next t' _ =>
    split
    · exact ⟨u, _, _, rfl, Decided.refl _ u⟩
    · have k : Decided [] u (u.modTank t' fun k => k.preset q.toNat) := Decided.same rfl rfl
      exact ⟨_, _, _, rfl, (k.trans ((State.testLow_worked _ _).decided _)).trans
        ((State.testDiscrepant_worked _ _).decided _)⟩
  · exact ⟨u, _, _, rfl, Decided.refl _ u⟩

theorem State.openLeg_decided (s : State) (b m : Nat) : Decided [] s (s.openLeg b m) := by
  have k : Decided [] s { s with fuel := { s.fuel with
      accounts := mapTable (fun a => { a with leg := 0 }) s.fuel.accounts
      leg := { s.fuel.leg with active := true, budget := b, reserveMark := m, consumed := 0 } } } :=
    Decided.same rfl rfl
  exact k.trans ((State.testReserve_worked _).decided _)

theorem legStart_isRequest (o : Origin) (b m : Quad) : IsRequest [] (.legStart o b m) o 11 := by
  refine ⟨_, fun _ => rfl, fun u => ?_⟩
  unfold State.takeLeg
  split
  · exact ⟨u, _, _, rfl, Decided.refl _ u⟩
  · exact ⟨_, _, _, rfl, u.openLeg_decided _ _⟩

theorem State.endStatement_decided (s : State) (b : Byte) : Decided [] s (s.endStatement b) := by
  have k : Decided [] s (s.modStatement fun x => { x with state := .idle, stallAt := none }) := Decided.same rfl rfl
  exact k.trans ((State.latch_worked .notices _ _ _).decided _)

theorem State.placeBlocks_decided (l : List Block) (s : State) : Decided [] s (s.placeBlocks l) := by
  induction l generalizing s with
  | nil => exact s.endStatement_decided 0
  | cons b l ih =>
    unfold State.placeBlocks
    split
    · have k : Decided [] s ((s.pushFrame .W (s.bulkFrame s.fuel.statement.next b)).modStatement fun x =>
          { x with next := x.next + 1 }) := Decided.same rfl rfl
      exact k.trans (ih _)
    · exact Decided.same rfl rfl

theorem State.sendStatement_decided (s : State) : Decided [] s s.sendStatement := by
  have k : Decided [] s (s.modStatement fun x => { x with state := .sending, stallAt := none }) := Decided.same rfl rfl
  exact k.trans (State.placeBlocks_decided _ _)

theorem statementStart_isRequest (o : Origin) : IsRequest [] (.statementStart o) o 12 := by
  refine ⟨_, fun _ => rfl, fun u => ?_⟩
  unfold State.takeStatement
  split
  · exact ⟨u, _, _, rfl, Decided.refl _ u⟩
  · have k : Decided [] u (u.beginStatement o.src) := Decided.same rfl rfl
    exact ⟨_, _, _, rfl, k.trans (State.sendStatement_decided _)⟩

theorem statementAbort_isRequest (o : Origin) : IsRequest [] (.statementAbort o) o 13 := by
  refine ⟨_, fun _ => rfl, fun u => ?_⟩
  unfold State.takeAbort
  split
  · exact ⟨_, _, _, rfl, Decided.same rfl rfl⟩
  · exact ⟨u, _, _, rfl, Decided.refl _ u⟩

theorem State.writeBody_decided (s : State) (l : List Byte) : Decided [] s (s.writeBody l).2 := by
  unfold State.writeBody
  split
  · exact Decided.refl _ s
  · exact Decided.same rfl rfl
  · exact Decided.same rfl rfl

theorem mgmtUnknown_isRequest (o : Origin) (l : List Byte) : IsRequest [] (.mgmtUnknown o l) o (l.headD 0) := by
  refine ⟨_, fun _ => rfl, fun u => ?_⟩
  unfold State.takeUnknown
  split
  · exact ⟨u, _, _, rfl, Decided.refl _ u⟩
  · split
    · exact ⟨_, _, _, rfl, u.writeBody_decided _⟩
    · exact ⟨u, _, _, rfl, Decided.refl _ u⟩

end Sys2Proof.Machine
end

