-- ==== Sys2Proof/Proofs/Commands.lean ====
section
/-! PROOF. Proofs/Commands.lean: what each command writes of the wheelhouse's settings, over every command of the part, and
from it that every step keeps the helm record sound. -/

namespace Sys2Proof.Machine

/-! ### Frames -/

theorem State.arrive_steered (s : State) (p : Port) (a : Byte) : Steered [] s (s.arrive p a) := by
  have f : Steered [] s (s.frameEnd p) := Steered.same rfl
  exact f.trans ((State.heard_worked _ _ _).decided []).toSteered

theorem State.forwardCopy_bridge (s : State) (p : Port) (f : Frame) : (s.forwardCopy p f).bridge = s.bridge := by
  unfold State.forwardCopy
  split
  · next e => rw [State.placeFrame_eq e]; rfl
  · exact (s.latch_worked .notices _ _).within.bridge

theorem State.passOn_bridge (s : State) (p : Port) (f : Frame) (x : PortSet) : (s.passOn p f x).bridge = s.bridge := by
  have c : ∀ (u : State) (q : Port), (State.copyTo p x f u q).bridge = u.bridge := by
    intro u q
    unfold State.copyTo
    split
    · exact u.forwardCopy_bridge q f
    · rfl
  have k : ∀ (l : List Port) (u : State), (l.foldl (State.copyTo p x f) u).bridge = u.bridge := by
    intro l
    induction l with
    | nil => exact fun u => rfl
    | cons q l ih => exact fun u => (ih _).trans (c u q)
  exact k allPorts s

theorem State.dispose_bridge (s : State) (p : Port) (f : Frame) (c : Content) : (s.dispose p f c).bridge = s.bridge := by
  have d : (if (s.fwd.disposition p f).1.takes then s.deliver p f.src c (s.fwd.disposition p f).2.1 else s).bridge =
      s.bridge := by
    split
    · exact (s.deliver_worked p f.src c _).within.bridge
    · rfl
  unfold State.dispose
  dsimp only
  split
  · exact (State.passOn_bridge _ _ _ _).trans d
  · exact d

theorem State.passage_steered (s : State) (p : Port) (f : Frame) (c : Content) : Steered [] s (s.passage p f c) :=
  State.receive_steered fun _ => (s.arrive_steered p f.src).trans (Steered.same (State.dispose_bridge _ _ _ _))

theorem State.queueSlot_bridge (s : State) (i : Fin 16) : (s.queueSlot i).bridge = s.bridge := by
  unfold State.queueSlot State.joinLane
  split <;> rfl

theorem State.wakeSlot_bridge (s : State) (n : Fin 32) : (s.wakeSlot n).bridge = s.bridge := by
  unfold State.wakeSlot
  split
  · split
    · exact s.queueSlot_bridge _
    · rfl
  · rfl

theorem State.complete_bridge (s : State) (n : Fin 32) (i : Fin 16) : (s.complete n i).bridge = s.bridge := by
  unfold State.complete
  refine (State.orderEnded_worked _ _).within.bridge.trans ?_
  exact (s.endSlot_slotted i).worked.within.bridge

theorem State.readEcho_bridge (s : State) (n : Fin 32) (x : Half) : (s.readEcho n x).bridge = s.bridge := by
  unfold State.readEcho
  split
  · exact (s.actuatorReport_worked n x none).within.bridge
  · rfl

theorem State.readFull_bridge (s : State) (n : Fin 32) (r : RunState) (l : Half) (a : AlarmLevel) :
    (s.readFull n r l a).bridge = s.bridge := by
  unfold State.readFull
  split
  · exact (s.engineReport_worked n r l a).within.bridge
  · rfl

theorem State.takeEcho_bridge (s : State) (p : Port) (o : Origin) (x : Half) : (s.takeEcho p o x).bridge = s.bridge := by
  unfold State.takeEcho
  split
  · next n _ =>
    split
    · rfl
    · split
      · next i _ =>
        refine (State.wakeSlot_bridge _ _).trans (Eq.trans ?_ (s.complete_bridge n i))
        unfold State.echoOwner
        split
        · exact State.readEcho_bridge _ _ _
        · rfl
      · exact s.readEcho_bridge _ _
  · rfl

theorem State.takeFull_bridge (s : State) (p : Port) (o : Origin) (r : RunState) (l : Half) (a : AlarmLevel) :
    (s.takeFull p o r l a).bridge = s.bridge := by
  unfold State.takeFull
  split
  · next n _ =>
    split
    · rfl
    · split
      · next i _ =>
        refine (State.wakeSlot_bridge _ _).trans (Eq.trans ?_ (s.complete_bridge n i))
        unfold State.fullOwner
        split
        · exact State.readFull_bridge _ _ _ _ _
        · rfl
      · exact s.readFull_bridge _ _ _ _
  · rfl

/-! ### The link -/

theorem State.takeSource_bridge (s : State) (x : Source) : (s.takeSource x).bridge = s.bridge := by
  unfold State.takeSource
  split <;> rfl

theorem State.startSending_bridge (s : State) (p : Port) : (s.startSending p).bridge = s.bridge := by
  unfold State.startSending
  split
  · split
    · unfold State.beginSending
      exact State.takeSource_bridge _ _
    · rfl
  · rfl

theorem State.completeSource_bridge (s : State) (p : Port) (x : Source) : (s.completeSource p x).bridge = s.bridge := by
  unfold State.completeSource
  split <;> rfl

theorem State.endSending_bridge (s : State) (p : Port) : (s.endSending p).bridge = s.bridge := by
  unfold State.endSending
  split
  · exact State.completeSource_bridge _ _ _
  · rfl

theorem State.breakLine_bridge (s : State) (p : Port) : (s.breakLine p).bridge = s.bridge := by
  unfold State.breakLine
  split
  · exact (State.silencePort_worked (s.modLine p fun x => { x with line := .down, assembly := Assembly.empty })
      p).within.bridge
  · rfl

theorem State.raiseLine_bridge (s : State) (p : Port) (b : Byte) : (s.raiseLine p b).bridge = s.bridge := by
  unfold State.raiseLine
  split <;> rfl

theorem State.resumeStatement_steered (s : State) : Steered [] s s.resumeStatement := by
  unfold State.resumeStatement
  split
  · exact s.sendStatement_decided.toSteered
  · exact Steered.same rfl

theorem State.slotTimeout_bridge (s : State) (i : Fin 16) : (s.slotTimeout i).bridge = s.bridge := by
  have e : ∀ (n : Fin 32) (f : Node → Node) (x : Slot),
      (((s.endSlot i).modNode n f).orderEnded x).bridge = s.bridge := fun n f x =>
    (State.orderEnded_worked _ x).within.bridge.trans (s.endSlot_slotted i).worked.within.bridge
  unfold State.slotTimeout
  dsimp only
  split
  · exact (State.failNode_worked _ _).within.bridge.trans (e _ _ _)
  · exact (State.wakeSlot_bridge _ _).trans (e _ _ _)

/-! ### Every command -/

/-- The parts of the wheelhouse's settings that a command writes (R8 to R13, R16). -/
def writtenParts : Instr → List Part
  | .powerOnReset => [.power, .rudder, .mode, .guard, .command]
  | .restart _ => [.power, .rudder, .mode, .guard, .command]
  | .propel _ _ _ _ _ => [.power, .guard]
  | .steer _ _ _ _ => [.rudder, .guard]
  | .convoyMode _ _ => [.mode, .guard]
  | .takeCommand _ _ => [.guard, .command]
  | .helmResume _ _ => [.mode, .guard, .command]
  | .tableWriteStation _ _ _ => [.command]
  | .tableWriteMode _ _ _ => [.guard]
  | .guardExpiry => [.power, .mode, .guard]
  | _ => []

/-! The commands that write each part. -/

theorem power_written {c : Instr} (h : .power ∈ writtenParts c) : c = .powerOnReset ∨ (∃ o, c = .restart o) ∨
    (∃ o p m d f, c = .propel o p m d f) ∨ c = .guardExpiry := by
  unfold writtenParts at h
  split at h <;> simp at h ⊢

theorem rudder_written {c : Instr} (h : .rudder ∈ writtenParts c) : c = .powerOnReset ∨ (∃ o, c = .restart o) ∨
    (∃ o r m b, c = .steer o r m b) := by
  unfold writtenParts at h
  split at h <;> simp at h ⊢

theorem mode_written {c : Instr} (h : .mode ∈ writtenParts c) : c = .powerOnReset ∨ (∃ o, c = .restart o) ∨
    (∃ o x, c = .convoyMode o x) ∨ (∃ o x, c = .helmResume o x) ∨ c = .guardExpiry := by
  unfold writtenParts at h
  split at h <;> simp at h ⊢

theorem guard_written {c : Instr} (h : .guard ∈ writtenParts c) : c = .powerOnReset ∨ (∃ o, c = .restart o) ∨
    (∃ o p m d f, c = .propel o p m d f) ∨ (∃ o r m b, c = .steer o r m b) ∨ (∃ o x, c = .convoyMode o x) ∨
    (∃ o x, c = .takeCommand o x) ∨ (∃ o x, c = .helmResume o x) ∨ (∃ o i r, c = .tableWriteMode o i r) ∨
    c = .guardExpiry := by
  unfold writtenParts at h
  split at h <;> simp at h ⊢

theorem command_written {c : Instr} (h : .command ∈ writtenParts c) : c = .powerOnReset ∨ (∃ o, c = .restart o) ∨
    (∃ o x, c = .takeCommand o x) ∨ (∃ o x, c = .helmResume o x) ∨ (∃ o i a, c = .tableWriteStation o i a) := by
  unfold writtenParts at h
  split at h <;> simp at h ⊢

theorem State.reset_helmSound : State.reset.HelmSound where
  remembered := by decide
  mode := by decide
  ordinary := nofun
  guard := by decide
  command := nofun
  underway m := absurd rfl m
  distinct := nofun
  own := by decide

/-- A change that leaves every part of the wheelhouse's settings open, and the helm record sound. -/
theorem Steered.ofSound {s t : State} (h : s.HelmSound → t.HelmSound) :
    Steered [.power, .rudder, .mode, .guard, .command] s t :=
  ⟨fun m => absurd (by decide) m, fun m => absurd (by decide) m, fun m => absurd (by decide) m,
    fun m => absurd (by decide) m, fun m => absurd (by decide) m, h⟩

theorem restart_steered (o : Origin) (s : State) :
    ∃ t, exec (.restart o) s = .next t ∧ Steered (writtenParts (.restart o)) s t := by
  refine ⟨_, rfl, Steered.ofSound fun h => ?_⟩
  have f : (s.frameEnd .W).HelmSound := h.congr rfl rfl
  rcases s.request_cases o (State.takeRestart o) with ⟨_, a⟩ | ⟨_, _, a⟩ | ⟨_, a⟩ <;> rw [a]
  · exact h
  · exact f
  · unfold State.takeRestart
    split
    · exact (State.warmRestart_sound f).congr rfl rfl
    · exact f.congr rfl rfl

theorem guardExpiry_steered (s : State) :
    ∃ t, exec .guardExpiry s = .next t ∧ Steered (writtenParts .guardExpiry) s t :=
  ⟨_, rfl, State.expire_steered fun n e => State.loseHelm_steered _ (by rw [State.reach_helm, e]; rfl)⟩

/-- Every command but a PASSAGE_FRAME changes only the parts that it writes, and keeps the helm record sound. -/
theorem exec_steered_plain (c : Instr) (s : State) (n : ∀ p f, c ≠ .passageFrame p f) :
    ∃ t, exec c s = .next t ∧ Steered (writtenParts c) s t := by
  cases c with
  | passageFrame p f => exact absurd rfl (n p f)
  | powerOnReset => exact ⟨_, rfl, Steered.ofSound fun _ => State.reset_helmSound.congr rfl rfl⟩
  | frameDiscard p =>
    refine ⟨_, rfl, State.receive_steered fun _ => ?_⟩
    split <;> exact Steered.same rfl
  | lineBreak p => exact ⟨_, rfl, Steered.same (s.breakLine_bridge p)⟩
  | lineUp p b => exact ⟨_, rfl, Steered.same (s.raiseLine_bridge p b)⟩
  | transmitStart p => exact ⟨_, rfl, Steered.same (s.startSending_bridge p)⟩
  | transmitCompletion p => exact ⟨_, rfl, Steered.same (s.endSending_bridge p)⟩
  | statementResume => exact ⟨_, rfl, s.resumeStatement_steered⟩
  | propel o p m d f => exact (propel_isOrder o p m d f).steered s
  | steer o r m b => exact (steer_isOrder o r m b).steered s
  | convoyMode o x => exact (convoyMode_isOrder o x).steered s
  | takeCommand o x => exact (takeCommand_isOrder o x).steered s
  | helmResume o x => exact (helmResume_isOrder o x).steered s
  | orderUnknown o l => exact (orderUnknown_isOrder o l).steered s
  | coupleRelease o x => exact (coupleRelease_isOrder o x).steered s
  | coupleCancel o x => exact (coupleCancel_isOrder o x).steered s
  | coupleMakeUp o x => exact (coupleMakeUp_isOrder o x).steered s
  | acceptParted o x => exact (acceptParted_isOrder o x).steered s
  | enrol p h l =>
    refine ⟨_, rfl, State.receive_steered fun _ => ?_⟩
    exact Steered.same (State.takeEnrol_worked (s.frameEnd p) p h.src l).within.bridge
  | echo p o x =>
    exact ⟨_, rfl, State.receive_steered fun _ =>
      (s.arrive_steered p o.src).trans (Steered.same (State.takeEcho_bridge _ p o x))⟩
  | full p o r l a =>
    exact ⟨_, rfl, State.receive_steered fun _ =>
      (s.arrive_steered p o.src).trans (Steered.same (State.takeFull_bridge _ p o r l a))⟩
  | ackOfNoKind p o l => exact ⟨_, rfl, State.receive_steered fun _ => s.arrive_steered p o.src⟩
  | engineStatus p h r l a => exact ⟨_, rfl, s.passage_steered p _ _⟩
  | actuatorStatus p h x g => exact ⟨_, rfl, s.passage_steered p _ _⟩
  | winchStatus p h w => exact ⟨_, rfl, s.passage_steered p _ _⟩
  | tension p h rs => exact ⟨_, rfl, s.passage_steered p _ _⟩
  | flow p h rs => exact ⟨_, rfl, s.passage_steered p _ _⟩
  | level p h rs => exact ⟨_, rfl, s.passage_steered p _ _⟩
  | slotRelease k => exact ⟨_, rfl, Steered.same (s.orderRelease_worked k).within.bridge⟩
  | identify o => exact (identify_isRequest o).steered s
  | tableRead o t i => exact (tableRead_isRequest o t i).steered s
  | tableWriteStation o i a => exact (tableWriteStation_isRequest o i a).steered s
  | tableWriteRoster o i r => exact (tableWriteRoster_isRequest o i r).steered s
  | tableWritePassage o i r => exact (tableWritePassage_isRequest o i r).steered s
  | tableWriteDefault o i r => exact (tableWriteDefault_isRequest o i r).steered s
  | tableWriteMode o i r => exact (tableWriteMode_isRequest o i r).steered s
  | tableWriteEngine o i r => exact (tableWriteEngine_isRequest o i r).steered s
  | tableWriteActuator o i r => exact (tableWriteActuator_isRequest o i r).steered s
  | tableWriteCoupling o i r => exact (tableWriteCoupling_isRequest o i r).steered s
  | tableWriteTank o i r => exact (tableWriteTank_isRequest o i r).steered s
  | tableWriteMeter o i r => exact (tableWriteMeter_isRequest o i r).steered s
  | tableWriteNoticeMap o k x => exact (tableWriteNoticeMap_isRequest o k x).steered s
  | stateRead o r i p => exact (stateRead_isRequest o r i p).steered s
  | allocate o w m t => exact (allocate_isRequest o w m t).steered s
  | setAddress o a => exact (setAddress_isRequest o a).steered s
  | noticeSetup o m x a d => exact (noticeSetup_isRequest o m x a d).steered s
  | noticeRead o x y => exact (noticeRead_isRequest o x y).steered s
  | noticeClear o k x y => exact (noticeClear_isRequest o k x y).steered s
  | fuelPreset o t q => exact (fuelPreset_isRequest o t q).steered s
  | legStart o b m => exact (legStart_isRequest o b m).steered s
  | statementStart o => exact (statementStart_isRequest o).steered s
  | statementAbort o => exact (statementAbort_isRequest o).steered s
  | restart o => exact restart_steered o s
  | mgmtUnknown o l => exact (mgmtUnknown_isRequest o l).steered s
  | guardExpiry => exact guardExpiry_steered s
  | stepExpiry i => exact ⟨_, rfl, State.expire_worked fun u => u.takeStep_worked i⟩
  | dwellExpiry i => exact ⟨_, rfl, State.expire_worked fun u => u.endDwell_worked i⟩
  | divergenceExpiry i => exact ⟨_, rfl, State.expire_worked fun u => u.diverge_worked i⟩
  | sampleSilenceExpiry k => exact ⟨_, rfl, State.expire_worked fun u => u.couplingUnheard_worked k⟩
  | holdExpiry b => exact ⟨_, rfl, State.expire_worked fun u => u.holdEnds_worked b⟩
  | releaseWaitExpiry k =>
    refine ⟨_, rfl, ?_⟩
    split
    · next h =>
      refine State.expire_steered fun i _ => ((State.abandonRelease_worked _ k ?_).decided _).toSteered
      exact (Coupling.working_iff _).2 (.inl h)
    · exact Steered.same rfl
  | makeupWaitExpiry k =>
    refine ⟨_, rfl, ?_⟩
    split
    · next h =>
      refine State.expire_steered fun i _ => ((State.abandonMakeup_worked _ k ?_).decided _).toSteered
      exact (Coupling.working_iff _).2 (.inr h)
    · exact Steered.same rfl
  | meterSilenceExpiry i => exact ⟨_, rfl, State.expire_worked fun u => u.startEstimating_worked i⟩
  | estimateTick i => exact ⟨_, rfl, State.expire_worked fun u => u.tick_worked i⟩
  | stallExpiry => exact ⟨_, rfl, State.expire_steered fun _ _ => (State.endStatement_decided _ _).toSteered⟩
  | silenceExpiry i => exact ⟨_, rfl, State.expire_worked fun u => u.nodeSilent_worked i⟩
  | refreshExpiry i =>
    refine ⟨_, rfl, State.expire_worked (l := .roster) fun u => ?_⟩
    have m : Worked .roster u (u.modNode i fun x => { x with refreshAt := u.nodeRefresh i }) :=
      u.modNode_worked i _ fun _ => rfl
    exact m.trans (State.refresh_worked _ i).mono
  | ackTimeout i => exact ⟨_, rfl, State.expire_steered fun _ _ => Steered.same (State.slotTimeout_bridge _ i)⟩

/-! ### Frames that fixed intake takes -/

/-- Neither power-on reset nor a PASSAGE_FRAME, which no frame gives that fixed intake takes. -/
def isTaken : Instr → Bool
  | .powerOnReset => false
  | .passageFrame _ _ => false
  | _ => true

theorem classifyOrder_isTaken (o : Origin) (l : List Byte) : isTaken (classifyOrder o l) = true := by
  unfold classifyOrder
  repeat' split
  all_goals rfl

theorem classifyWrite_isTaken {o : Origin} {t i : Byte} {l : List Byte} {c : Instr}
    (h : classifyWrite o t i l = some c) : isTaken c = true := by
  unfold classifyWrite at h
  repeat' split at h
  all_goals cases h
  all_goals rfl

theorem classifyRequest_isTaken (o : Origin) (l : List Byte) : isTaken (classifyRequest o l) = true := by
  unfold classifyRequest
  split
  · split
    · split
      · next t i e =>
        cases h : classifyWrite o t i e with
        | none => rfl
        | some c => exact classifyWrite_isTaken h
      · rfl
    · unfold classifyPlain
      repeat' split
      all_goals rfl
  · rfl

/-- Fixed intake gives neither power-on reset nor a PASSAGE_FRAME (R162). -/
theorem classify_isTaken {own : Byte} {p : Port} {f : Frame} (h : fixedIntake own p f = true) :
    isTaken (classify own p f) = true := by
  unfold fixedIntake at h
  rw [decide_eq_true_iff] at h
  unfold classify
  split
  · exact classifyOrder_isTaken _ _
  · split
    · exact classifyRequest_isTaken _ _
    · split
      · split <;> rfl
      · split
        · rfl
        · next a b c d => exact absurd h (by rintro (k | k | k | k); exacts [a k, b k, c k, d k])

theorem actual_ne_powerOnReset {c : Instr} {own : Byte} (h : c ≠ .powerOnReset) : c.actual own ≠ .powerOnReset := by
  unfold Instr.actual
  split
  · split
    · next k =>
      intro e
      have := classify_isTaken k
      rw [e] at this
      cases this
    · exact h
  · exact h

/-- Every command changes only the parts that the command it turns out to be writes, and keeps the helm record
sound. -/
theorem exec_steered (c : Instr) (s : State) :
    ∃ t, exec c s = .next t ∧ Steered (writtenParts (c.actual s.link.own)) s t := by
  rw [exec_actual]
  unfold Instr.actual
  split
  · next p f =>
    split
    · next h =>
      refine exec_steered_plain _ s fun q g e => ?_
      have := classify_isTaken h
      rw [e] at this
      cases this
    · next h =>
      refine ⟨_, if_neg h, s.passage_steered p f _⟩
  · next h => exact exec_steered_plain c s h

theorem exec_keeps_helmSound {c : Instr} {s t : State} (e : exec c s = .next t) (h : s.HelmSound) : t.HelmSound := by
  obtain ⟨u, eu, k⟩ := exec_steered c s
  rw [eu] at e
  cases e
  exact k.sound h

/-- A step is the command at the front of the queue, the first event that is due, or 1 µs of the time base. -/
theorem step_cases {s t : State} (h : step s = .next t) :
    (∃ c rest, exec c { s with pending := rest } = .next t) ∨ t = { s with now := s.now + 1 } := by
  unfold step State.idle at h
  split at h
  · next c rest _ => exact .inl ⟨c, rest, h⟩
  · split at h
    · next c _ _ => exact .inl ⟨c, s.pending, h⟩
    · cases h; exact .inr rfl

end Sys2Proof.Machine

open Sys2Proof Sys2Proof.Machine

/-- Settles O7: each command keeps the helm record sound, and a step is a command or 1 µs of the time base. -/
theorem stepKeepsHelm : Obligations.StepKeepsHelm := by
  intro s t h e
  rcases step_cases e with ⟨c, rest, k⟩ | rfl
  · exact exec_keeps_helmSound k (h.congr rfl rfl)
  · exact h.congr rfl rfl

/-- Settles O13: a part of the wheelhouse's settings that the command does not write is as it was. -/
theorem ordersChangeByTheirCommands : Obligations.OrdersChangeByTheirCommands := by
  intro c s t act e np nr
  have k : Steered (writtenParts act) s t := by
    obtain ⟨u, eu, k⟩ := exec_steered c s
    rw [eu] at e
    cases e
    exact k
  have na : act ≠ .powerOnReset := actual_ne_powerOnReset np
  refine ⟨fun propel guard => k.power fun m => ?_, fun steer => k.rudder fun m => ?_,
    fun mode resume guard => k.mode fun m => ?_,
    fun propel steer mode take resume write guard => k.guard fun m => ?_,
    fun take resume write => k.command fun m => ?_⟩
  · obtain h | ⟨o, h⟩ | ⟨o, p, x, d, f, h⟩ | h := power_written m
    · exact na h
    · exact nr o h
    · exact propel o p x d f h
    · exact guard h
  · obtain h | ⟨o, h⟩ | ⟨o, r, x, b, h⟩ := rudder_written m
    · exact na h
    · exact nr o h
    · exact steer o r x b h
  · obtain h | ⟨o, h⟩ | ⟨o, x, h⟩ | ⟨o, x, h⟩ | h := mode_written m
    · exact na h
    · exact nr o h
    · exact mode o x h
    · exact resume o x h
    · exact guard h
  · obtain h | ⟨o, h⟩ | ⟨o, p, x, d, f, h⟩ | ⟨o, r, x, b, h⟩ | ⟨o, x, h⟩ | ⟨o, x, h⟩ | ⟨o, x, h⟩ | ⟨o, i, r, h⟩ | h :=
      guard_written m
    · exact na h
    · exact nr o h
    · exact propel o p x d f h
    · exact steer o r x b h
    · exact mode o x h
    · exact take o x h
    · exact resume o x h
    · exact write o i r h
    · exact guard h
  · obtain h | ⟨o, h⟩ | ⟨o, x, h⟩ | ⟨o, x, h⟩ | ⟨o, i, a, h⟩ := command_written m
    · exact na h
    · exact nr o h
    · exact take o x h
    · exact resume o x h
    · exact write o i a h

end

