-- ==== Sys2Proof/Proofs/Answers.lean ====
section
/-! PROOF. Proofs/Answers.lean: what an order or a request draws (R6, R7, R163): its refusal, one answer or reply with room
in the answer lane, and nothing with a full lane. -/

namespace Sys2Proof.Machine

/-! ### Refusals (R6) -/

theorem State.refusal_unlisted {s : State} {o : Origin} (h : s.helm.lists o.src = false) :
    s.refusal o = some .refusedStation := by
  unfold State.refusal
  rw [if_pos (by simp [h])]

theorem State.refusal_lost {s : State} {o : Origin} (h : s.helm.lists o.src = true) (l : s.helm.helm = .lost) :
    s.refusal o = some .refusedHelmLost := by
  unfold State.refusal
  rw [if_neg (by simp [h]), if_pos l]

theorem State.refusal_other {s : State} {o : Origin} (h : s.helm.lists o.src = true) (n : s.helm.helm = .normal)
    (c : s.helm.command ≠ some o.src) : s.refusal o = some .refusedStation := by
  unfold State.refusal
  rw [if_neg (by simp [h]), if_neg (by simp [n]), if_pos c]

/-- An order that requires command is one of `commanded`. -/
theorem exec_commanded {c : Instr} {o : Origin} {k : Byte} (h : c.requiresCommand = some (o, k)) :
    ∃ act, ∀ s, exec c s = .next (s.commanded o k act) := by
  unfold Instr.requiresCommand at h
  split at h <;> cases h
  all_goals exact ⟨_, fun _ => rfl⟩

/-- An order that R6 refuses draws its refusal and changes nothing else. -/
theorem exec_refused {c : Instr} {o : Origin} {k : Byte} (h : c.requiresCommand = some (o, k)) {s : State}
    (r : s.hasRoom) {a : Answer} (f : s.refusal o = some a) :
    exec c s = .next ((s.frameEnd .W).withAnswers (s.fwd.answers ++ [answerFrame s.link.own o k a.byte])) := by
  obtain ⟨act, e⟩ := exec_commanded h
  rw [e, State.commanded_eq r, f]

/-- An order with room whose decision refuses it and changes nothing. -/
theorem State.order_refused {s : State} (r : s.hasRoom) (o : Origin) (k : Byte) {act : State → State × Answer}
    {a : Answer} (e : act (s.frameEnd .W) = (s.frameEnd .W, a)) :
    s.order o k act = (s.frameEnd .W).withAnswers (s.fwd.answers ++ [answerFrame s.link.own o k a.byte]) := by
  rw [State.order_eq r, e]
  rfl

theorem State.decideTakeCommand_unlisted {s : State} {o : Origin} (h : s.helm.lists o.src = false) :
    s.decideTakeCommand o = (s, .refusedStation) := by
  unfold State.decideTakeCommand
  rw [if_pos (by simp [h])]

theorem State.decideTakeCommand_lost {s : State} {o : Origin} (h : s.helm.lists o.src = true)
    (l : s.helm.helm = .lost) : s.decideTakeCommand o = (s, .refusedHelmLost) := by
  unfold State.decideTakeCommand
  rw [if_neg (by simp [h]), if_pos l]

theorem State.decideHelmResume_unlisted {s : State} {o : Origin} (h : s.helm.lists o.src = false) :
    s.decideHelmResume o = (s, .refusedStation) := by
  unfold State.decideHelmResume
  rw [if_pos (by simp [h])]

theorem State.decideHelmResume_normal {s : State} {o : Origin} (h : s.helm.lists o.src = true)
    (n : s.helm.helm = .normal) : s.decideHelmResume o = (s, .refusedState) := by
  unfold State.decideHelmResume
  rw [if_neg (by simp [h]), if_neg (by simp [n])]

/-! ### One answer -/

/-- What a frame draws that has room: one answer or reply at the tail of the lane, to its source, with its TAG and
KIND. -/
def Draws (s : State) (c : Instr) (o : Origin) (cls : Nibble) (k : Byte) : Prop :=
  ∃ (t : State) (a : Frame), exec c s = .next t ∧ t.fwd.answers = s.fwd.answers ++ [a] ∧ a.dest = o.src ∧
    a.tag = o.tag ∧ a.cls = cls ∧ a.payload.head? = some k ∧ a.src = t.link.own

theorem IsOrder.draws {x : List Part} {c : Instr} {o : Origin} {k : Byte} (h : IsOrder x c o k) {s : State}
    (r : s.hasRoom) : Draws s c o 1 k := by
  obtain ⟨act, e, d⟩ := h
  have q := (d (s.frameEnd .W)).answers
  have a := State.order_eq r o k act
  generalize act (s.frameEnd .W) = v at a q
  refine ⟨v.1.answer o k v.2, answerFrame v.1.link.own o k v.2.byte, ?_, ?_, rfl, rfl, rfl, rfl, rfl⟩
  · rw [e, a]
  · exact congrArg (· ++ [answerFrame v.1.link.own o k v.2.byte]) q

theorem IsRequest.draws {x : List Part} {c : Instr} {o : Origin} {k : Byte} (h : IsRequest x c o k) {s : State}
    (r : s.hasRoom) : Draws s c o 5 k := by
  obtain ⟨act, e, d⟩ := h
  obtain ⟨v, a, body, q, w⟩ := d (s.frameEnd .W)
  refine ⟨v.reply o k a body, replyFrame v.link.own o k a.byte body, ?_, ?_, rfl, rfl, rfl, rfl, rfl⟩
  · rw [e, State.request_eq r, q]
  · exact congrArg (· ++ [replyFrame v.link.own o k a.byte body]) w.answers

theorem State.order_full {s : State} (l : s.listens .W) (f : 4 ≤ s.fwd.answers.length) (o : Origin) (k : Byte)
    (act : State → State × Answer) : s.order o k act = s.frameEnd .W := by
  rcases s.order_cases o k act with ⟨n, _⟩ | ⟨_, _, a⟩ | ⟨r, _⟩
  · exact absurd l n
  · exact a
  · exact absurd r.2 (by omega)

theorem State.request_full {s : State} (l : s.listens .W) (f : 4 ≤ s.fwd.answers.length) (o : Origin)
    (act : State → State) : s.request o act = s.frameEnd .W := by
  rcases s.request_cases o act with ⟨n, _⟩ | ⟨_, _, a⟩ | ⟨r, _⟩
  · exact absurd l n
  · exact a
  · exact absurd r.2 (by omega)

/-! ### The command of an order or a request -/

theorem classifyOrder_isOrder (o : Origin) (l : List Byte) : ∃ x, IsOrder x (classifyOrder o l) o (l.headD 0) := by
  unfold classifyOrder
  split
  · split
    · next e => exact ⟨_, e ▸ propel_isOrder o _ _ _ _⟩
    · exact ⟨_, orderUnknown_isOrder o _⟩
  · split
    · next e => exact ⟨_, e ▸ steer_isOrder o _ _ _⟩
    · exact ⟨_, orderUnknown_isOrder o _⟩
  · split
    · next e =>
      subst e
      split
      · exact ⟨_, convoyMode_isOrder o _⟩
      · split
        · exact ⟨_, takeCommand_isOrder o _⟩
        · split
          · exact ⟨_, helmResume_isOrder o _⟩
          · exact ⟨_, orderUnknown_isOrder o _⟩
    · split
      · next e =>
        subst e
        split
        · exact ⟨_, coupleRelease_isOrder o _⟩
        · split
          · exact ⟨_, coupleCancel_isOrder o _⟩
          · split
            · exact ⟨_, coupleMakeUp_isOrder o _⟩
            · split
              · exact ⟨_, acceptParted_isOrder o _⟩
              · exact ⟨_, orderUnknown_isOrder o _⟩
      · exact ⟨_, orderUnknown_isOrder o _⟩
  · exact ⟨_, orderUnknown_isOrder o _⟩

theorem classifyWrite_isRequest {o : Origin} {t i : Byte} {l : List Byte} {c : Instr}
    (h : classifyWrite o t i l = some c) : ∃ x, IsRequest x c o 3 := by
  unfold classifyWrite at h
  repeat' split at h
  all_goals cases h
  · exact ⟨_, tableWriteStation_isRequest o i _⟩
  · exact ⟨_, tableWriteNoticeMap_isRequest o i _⟩
  · exact ⟨_, tableWriteDefault_isRequest o i _⟩
  · exact ⟨_, tableWriteRoster_isRequest o i _⟩
  · exact ⟨_, tableWritePassage_isRequest o i _⟩
  · exact ⟨_, tableWriteMeter_isRequest o i _⟩
  · exact ⟨_, tableWriteActuator_isRequest o i _⟩
  · exact ⟨_, tableWriteEngine_isRequest o i _⟩
  · exact ⟨_, tableWriteCoupling_isRequest o i _⟩
  · exact ⟨_, tableWriteTank_isRequest o i _⟩
  · exact ⟨_, tableWriteMode_isRequest o i _⟩

/-- A request other than a TABLE_WRITE is RESTART, or one that places one reply. -/
theorem classifyPlain_isRequest (o : Origin) (l : List Byte) :
    classifyPlain o l = .restart o ∨ ∃ x, IsRequest x (classifyPlain o l) o (l.headD 0) := by
  unfold classifyPlain
  split
  · split
    · next e => exact .inr ⟨_, e ▸ identify_isRequest o⟩
    · split
      · next e => exact .inr ⟨_, e ▸ statementStart_isRequest o⟩
      · split
        · next e => exact .inr ⟨_, e ▸ statementAbort_isRequest o⟩
        · split
          · exact .inl rfl
          · exact .inr ⟨_, mgmtUnknown_isRequest o _⟩
  · split
    · next e => exact .inr ⟨_, e ▸ setAddress_isRequest o _⟩
    · exact .inr ⟨_, mgmtUnknown_isRequest o _⟩
  · split
    · next e =>
      split
      · exact .inr ⟨_, e ▸ tableRead_isRequest o _ _⟩
      · exact .inr ⟨_, mgmtUnknown_isRequest o _⟩
    · split
      · next e => exact .inr ⟨_, e ▸ noticeRead_isRequest o _ _⟩
      · exact .inr ⟨_, mgmtUnknown_isRequest o _⟩
  · split
    · next e => exact .inr ⟨_, e ▸ stateRead_isRequest o _ _ _⟩
    · split
      · next e => exact .inr ⟨_, e ▸ allocate_isRequest o _ _ _⟩
      · split
        · next e => exact .inr ⟨_, e ▸ noticeClear_isRequest o _ _ _⟩
        · exact .inr ⟨_, mgmtUnknown_isRequest o _⟩
  · split
    · next e => exact .inr ⟨_, e ▸ noticeSetup_isRequest o _ _ _ _⟩
    · exact .inr ⟨_, mgmtUnknown_isRequest o _⟩
  · split
    · next e => exact .inr ⟨_, e ▸ fuelPreset_isRequest o _ _⟩
    · exact .inr ⟨_, mgmtUnknown_isRequest o _⟩
  · split
    · next e => exact .inr ⟨_, e ▸ legStart_isRequest o _ _⟩
    · exact .inr ⟨_, mgmtUnknown_isRequest o _⟩
  · exact .inr ⟨_, mgmtUnknown_isRequest o _⟩

theorem classifyRequest_isRequest (o : Origin) (l : List Byte) :
    classifyRequest o l = .restart o ∨ ∃ x, IsRequest x (classifyRequest o l) o (l.headD 0) := by
  unfold classifyRequest
  split
  · split
    · next e =>
      subst e
      split
      · next t i b =>
        cases h : classifyWrite o t i b with
        | none => exact .inr ⟨_, mgmtUnknown_isRequest o _⟩
        | some c => exact .inr (classifyWrite_isRequest h)
      · exact .inr ⟨_, mgmtUnknown_isRequest o _⟩
    · exact classifyPlain_isRequest o _
  · exact .inr ⟨_, mgmtUnknown_isRequest o _⟩

end Sys2Proof.Machine

open Sys2Proof Sys2Proof.Machine

/-- Settles O15: by the row of R6 that the order meets. -/
theorem refusedOrdersChangeNothing : Obligations.RefusedOrdersChangeNothing := by
  intro s o c kind r row drawn
  have form : c.requiresCommand = some (o, kind) ∨ (kind = 3 ∧ ∃ x, c = .takeCommand o x ∨ c = .helmResume o x) := by
    rcases row with ⟨⟨_, _, _, _, rfl⟩, rfl⟩ | ⟨⟨_, _, _, rfl⟩, rfl⟩ | ⟨⟨_, rfl⟩, rfl⟩ | ⟨⟨_, e⟩, rfl⟩ | ⟨e, rfl⟩
    · exact .inl rfl
    · exact .inl rfl
    · exact .inl rfl
    · rcases e with rfl | rfl | rfl | rfl <;> exact .inl rfl
    · exact .inr ⟨rfl, e⟩
  rcases form with h | ⟨rfl, x, rfl | rfl⟩
  · have n : ∀ x, c ≠ .helmResume o x := by rintro x rfl; cases h
    refine ⟨fun a => ?_, fun a b _ => ?_, fun a b d _ _ => ?_, fun _ _ ⟨x, e⟩ => absurd e (n x)⟩
    · exact exec_refused h r (State.refusal_unlisted a)
    · exact exec_refused h r (State.refusal_lost a b)
    · exact exec_refused h r (State.refusal_other a b d)
  · refine ⟨fun a => ?_, fun a b _ => ?_, fun _ _ _ _ n => absurd rfl (n x), fun _ _ ⟨_, e⟩ => nomatch e⟩
    · exact congrArg _ (State.order_refused r o 3 (State.decideTakeCommand_unlisted (s := s.frameEnd .W) a))
    · exact congrArg _ (State.order_refused r o 3 (State.decideTakeCommand_lost (s := s.frameEnd .W) a b))
  · refine ⟨fun a => ?_, fun _ _ n => absurd rfl (n x), fun _ _ _ n => absurd rfl (n x), fun a b _ => ?_⟩
    · exact congrArg _ (State.order_refused r o 3 (State.decideHelmResume_unlisted (s := s.frameEnd .W) a))
    · exact congrArg _ (State.order_refused r o 3 (State.decideHelmResume_normal (s := s.frameEnd .W) a b))

/-- Settles O16: the frame is an order or a request, and each of these draws what its kind draws. -/
theorem eachDrawsOneAnswer : Obligations.EachDrawsOneAnswer := by
  intro s f own cls
  rcases cls with z | z
  · have e : classify s.link.own .W f = classifyOrder { src := f.src, tag := f.tag } f.payload :=
      if_pos ⟨z, rfl, own⟩
    obtain ⟨x, h⟩ := classifyOrder_isOrder { src := f.src, tag := f.tag } f.payload
    rw [e, z]
    refine ⟨fun l full => ?_, fun r _ => h.draws r⟩
    obtain ⟨act, q, _⟩ := h
    rw [q, State.order_full l full]
  · have e : classify s.link.own .W f = classifyRequest { src := f.src, tag := f.tag } f.payload :=
      (if_neg (by rw [z]; rintro ⟨k, _⟩; cases k)).trans (if_pos ⟨z, rfl, own⟩)
    rw [e, z]
    rcases classifyRequest_isRequest { src := f.src, tag := f.tag } f.payload with q | ⟨x, h⟩
    · rw [q]
      refine ⟨fun l full => ?_, fun _ n => absurd rfl (n _)⟩
      exact congrArg _ (State.request_full l full _ _)
    · refine ⟨fun l full => ?_, fun r _ => h.draws r⟩
      obtain ⟨act, q, _⟩ := h
      rw [q, State.request_full l full]

end

