-- ==== Sys2Proof/Proofs/Formed.lean ====
section
/-! PROOF. Proofs/Formed.lean: a recompute forms the targets from their sources (R24 to R33), the forming of the tow ceilings
leaves them as R79 and R80 have them, and neither undoes the other; the forced steer-assist field is at its condition
(R65). So it is after a mode comes into force. -/

namespace Sys2Proof.Machine

/-! ### What the targets are formed from, and what is formed -/

/-- An engine without its slewing. -/
def Engine.basis (e : Engine) : Engine :=
  { e with setpoint := 0, lastSign := .unset, slew := .steady, stepAt := none, dwellAt := none }

/-- The sources of the targets and what a recompute forms from them. -/
structure Basis where
  profile : Profile
  engines : Fin 6 → Engine
  power : Int
  diffMode : DiffMode
  fixedDiff : Int
  diff : Int
  nominal : Nat
  demand : Int
  unmet : Nat
  rudder : Int
  forced : Bool
  applied : PerBoat Nat
  fuel : Fuel

/-- The sources of the targets in a state, and what has been formed from them. -/
def State.basis (s : State) : Basis where
  profile := s.profile
  engines i := s.prop.engines[i].basis
  power := s.prop.power
  diffMode := s.prop.diffMode
  fixedDiff := s.prop.fixedDiff
  diff := s.prop.diff
  nominal := s.prop.nominal
  demand := s.prop.demand
  unmet := s.prop.unmet
  rudder := s.steer.rudder
  forced := s.steer.forced
  applied := s.tow.applied
  fuel := s.fuel

/-- A figure of an engine that is no part of its slewing is the same in two engines with the same basis. -/
theorem Engine.basis_field {d e : Engine} (h : e.basis = d.basis) {α : Type} (f : Engine → α)
    (k : ∀ e : Engine, f e.basis = f e := by intro _; rfl) : f e = f d := by
  rw [← k, h, k]

theorem State.basis_engine {s t : State} (h : t.basis = s.basis) (i : Fin 6) :
    t.prop.engines[i].basis = s.prop.engines[i].basis :=
  congrFun (congrArg Basis.engines h) i

/-- A figure of an engine that is no part of its slewing is the same in two states with the same basis. -/
theorem State.basis_field {s t : State} (h : t.basis = s.basis) {α : Type} (f : Engine → α)
    (k : ∀ e : Engine, f e.basis = f e := by intro _; rfl) (i : Fin 6) :
    f t.prop.engines[i] = f s.prop.engines[i] :=
  Engine.basis_field (State.basis_engine h i) f k

theorem State.ComponentsFormed.congr {s t : State} {d e : Engine} (h : s.ComponentsFormed d)
    (p : t.helm.modes[t.helm.mode] = s.helm.modes[s.helm.mode]) (a : t.tow.applied = s.tow.applied)
    (f : t.fuel = s.fuel) (k : e.basis = d.basis) : t.ComponentsFormed e := by
  have entry : e.entry = d.entry := Engine.basis_field k Engine.entry
  have health : e.health = d.health := Engine.basis_field k Engine.health
  constructor
  · rw [p, ← h.modeAhead]; exact Engine.basis_field k Engine.modeAhead
  · rw [p, ← h.modeAstern]; exact Engine.basis_field k Engine.modeAstern
  · rw [health, entry, ← h.health]; exact Engine.basis_field k Engine.healthCeiling
  · rw [entry, a, ← h.tow]; exact Engine.basis_field k Engine.towCeiling
  · rw [f, p, ← h.economy]; exact Engine.basis_field k Engine.economyCeiling
  · rw [entry, f, ← h.tankLow]; exact Engine.basis_field k Engine.tankLowCeiling

/-- What a recompute forms is as its sources have it in every state with the same of both. -/
theorem State.TargetsFormed.congr {s t : State} (h : s.TargetsFormed) (b : t.basis = s.basis) : t.TargetsFormed := by
  have entry := State.basis_field b Engine.entry
  have state := State.basis_field b Engine.state
  have target := State.basis_field b Engine.target
  have ahead := State.basis_field b Engine.compositeAhead
  have astern := State.basis_field b Engine.compositeAstern
  have profile : t.helm.modes[t.helm.mode] = s.helm.modes[s.helm.mode] := congrArg Basis.profile b
  have rudder : t.steer.rudder = s.steer.rudder := congrArg Basis.rudder b
  have forced : t.steer.forced = s.steer.forced := congrArg Basis.forced b
  have power : t.prop.power = s.prop.power := congrArg Basis.power b
  have nominal : t.prop.nominal = s.prop.nominal := congrArg Basis.nominal b
  have diffMode : t.prop.diffMode = s.prop.diffMode := congrArg Basis.diffMode b
  have fixedDiff : t.prop.fixedDiff = s.prop.fixedDiff := congrArg Basis.fixedDiff b
  have diff : t.prop.diff = s.prop.diff := congrArg Basis.diff b
  have demand : t.prop.demand = s.prop.demand := congrArg Basis.demand b
  have unmet : t.prop.unmet = s.prop.unmet := congrArg Basis.unmet b
  refine ⟨fun i => ?_, fun i n => ?_, ?_⟩
  · exact (h.components i).congr profile (congrArg Basis.applied b) (congrArg Basis.fuel b)
      (State.basis_engine b i)
  · rw [state] at n
    have k := h.composites i n
    refine ⟨?_, ?_⟩
    · rw [ahead, k.ahead]
      exact (State.basis_field b (fun x => min x.modeAhead (min x.healthCeiling (min x.towCeiling
        (min x.economyCeiling x.tankLowCeiling)))) (fun _ => rfl) i).symm
    · rw [astern, k.astern]
      exact (State.basis_field b (fun x => min x.modeAstern (min x.healthCeiling (min x.towCeiling
        x.tankLowCeiling))) (fun _ => rfl) i).symm
  · have k := h.shared
    unfold State.DemandShared at k ⊢
    simp only [entry, state, target, ahead, astern, profile, rudder, forced, power, nominal, diffMode, fixedDiff, diff,
      demand, unmet]
    exact k

/-! ### The sharing of the demand (R30 to R33) -/

theorem toList_eq_finRange {α : Type} {n : Nat} (t : Table α n) :
    t.toArray.toList = (List.finRange n).map fun i => t[i] := by
  refine List.ext_getElem (by simp) fun k h _ => ?_
  simp

/-- A sum over the engine table, as a sum over the engine indices. -/
theorem sumEngines_eq (t : Table Engine 6) (f : Engine → Int) : sumEngines t f = sum6 fun i => f t[i] := by
  unfold sumEngines sum6
  rw [toList_eq_finRange, List.map_map]
  rfl

theorem State.share_engine (s : State) (i : Fin 6) : s.share.prop.engines[i] = { s.prop.engines[i] with
    target := s.prop.engines[i].targetFor s.prop.engines ((s.prop.power * s.prop.nominal).tdiv 1000) s.diffInForce } :=
  mapTable_get _ _ i

theorem sum6_natCast (f : Fin 6 → Int) (h : ∀ i, 0 ≤ f i) : ((sum6 f).toNat : Int) = sum6 f := by
  refine Int.toNat_of_nonneg (List.sum_nonneg fun x m => ?_)
  obtain ⟨i, _, rfl⟩ := List.mem_map.1 m
  exact h i

/-- The demand is shared by R28 and R30 to R33 where D, δ, every target and U are what the functions of the sharing
give. -/
theorem State.demandShared_of (s : State) (dem : s.prop.demand = (s.prop.power * s.prop.nominal).tdiv 1000)
    (dif : s.prop.diff = s.diffInForce)
    (tar : ∀ i : Fin 6, s.prop.engines[i].target = s.prop.engines[i].targetFor s.prop.engines s.prop.demand s.prop.diff)
    (unm : s.prop.unmet = unmetDemand s.prop.engines s.prop.demand) : s.DemandShared := by
  unfold State.DemandShared
  intro e run bound demand weights first short receives left raised automatic diff sign
  have w : availableWeight s.prop.engines = weights := sumEngines_eq _ _
  have c : ∀ i, s.prop.engines[i].isClamped demand weights = decide (bound i (first i) ≠ first i) := fun _ => rfl
  have sf : shortfallSum s.prop.engines demand weights = short := by
    unfold shortfallSum
    rw [sumEngines_eq]
    refine congrArg sum6 (funext fun i => ?_)
    simp only [c, decide_eq_true_eq]
    rfl
  have r : ∀ i, s.prop.engines[i].receives demand weights = receives i := by
    intro i
    unfold Engine.receives
    rw [c]
    simp only [receives, ne_eq, decide_not, Bool.not_not]
    rfl
  have w' : receivingWeight s.prop.engines demand weights = left := by
    unfold receivingWeight
    rw [sumEngines_eq]
    refine congrArg sum6 (funext fun i => ?_)
    rw [r]
  have ra : ∀ i, s.prop.engines[i].raisedShare demand weights short left = raised i := by
    intro i
    unfold Engine.raisedShare
    rw [r]
    rfl
  have fi : ∀ i, s.prop.engines[i].finalShare demand weights short left = bound i (raised i) := by
    intro i
    unfold Engine.finalShare
    rw [ra]
    rfl
  have d : s.prop.diff = diff := by
    rw [dif]
    unfold State.diffInForce
    simp only [diff, Bool.not_eq_true]
    rfl
  have sg : ∀ i, (e i).side.sign = sign i := by
    intro i
    simp only [sign]
    cases (e i).side <;> rfl
  have u : s.prop.unmet = unmetDemand s.prop.engines demand := by rw [unm, dem]
  have t : ∀ i : Fin 6, s.prop.engines[i].target = s.prop.engines[i].targetFor s.prop.engines demand s.prop.diff :=
    fun i => by rw [tar, dem]
  refine ⟨dem, d, fun i h => ?_, fun i h => ?_, fun h => ?_, fun h k => ?_, fun h k l => ?_, fun h k l => ?_⟩
  · rw [t]
    unfold Engine.targetFor
    rw [if_pos h, w, sf, w', fi, d, sg]
    rfl
  · rw [t]
    unfold Engine.targetFor
    rw [if_neg h]
  all_goals
    rw [u]
    unfold unmetDemand
    simp only [w, sf, w']
  · rw [if_pos h]
  · rw [if_neg h, if_pos k]
  · rw [if_neg h, if_neg k, if_pos l]
  · rw [if_neg h, if_neg k, if_neg l, sumEngines_eq, sum6_natCast]
    · refine congrArg sum6 (funext fun i => ?_)
      rw [r, ra, fi]
      rfl
    · intro i
      split
      · exact Int.natCast_nonneg _
      · exact le_rfl

/-! ### What keeps the sources and what is formed -/

theorem State.basis_engines (s : State) (x : Table Engine 6)
    (h : ∀ i : Fin 6, x[i].basis = s.prop.engines[i].basis) :
    ({ s with prop := { s.prop with engines := x } } : State).basis = s.basis :=
  congrArg (fun e => { s.basis with engines := e }) (funext h)

theorem Noted.basis {s t : State} (h : Noted s t) : t.basis = s.basis := by
  rw [h.same]; rfl

theorem Slotted.basis {s t : State} (h : Slotted s t) : t.basis = s.basis := by
  rw [h.same]; rfl

theorem foldl_basis {α : Type} {f : State → α → State} (h : ∀ s a, (f s a).basis = s.basis) (l : List α) (s : State) :
    (l.foldl f s).basis = s.basis := by
  induction l generalizing s with
  | nil => rfl
  | cons a l ih => exact (ih _).trans (h s a)

theorem State.modEngine_basis (s : State) (i : Fin 6) (f : Engine → Engine) (h : ∀ e, (f e).basis = e.basis) :
    (s.modEngine i f).basis = s.basis := by
  refine s.basis_engines _ fun j => ?_
  rw [modTable_get]
  split
  · next e => rw [h, e]
  · rfl

theorem State.endDwell_basis (s : State) (e : Engine) : (s.endDwell e).basis = e.basis := by
  unfold State.endDwell; split <;> rfl

theorem State.startDwell_basis (s : State) (e : Engine) : (s.startDwell e).basis = e.basis := by
  unfold State.startDwell
  split
  · exact s.endDwell_basis e
  · rfl

theorem State.moveTo_basis (s : State) (e : Engine) (v : Int) : (s.moveTo e v).basis = e.basis := by
  unfold State.moveTo State.zeroEngine
  dsimp only
  split
  · split
    · rfl
    · exact s.startDwell_basis _
  · rfl

theorem State.slewEngine_basis (s : State) (old e : Engine) : (s.slewEngine old e).basis = e.basis := by
  unfold State.slewEngine
  split
  · split <;> rfl
  · split
    · exact s.startDwell_basis e
    · split
      · rfl
      · split
        · rfl
        · split <;> rfl

theorem State.placeSetpoint_basis (s : State) (i : Fin 6) : (s.placeSetpoint i).basis = s.basis := by
  unfold State.placeSetpoint
  split
  · exact (s.place_slotted _ _ _ _ _).basis
  · rfl

theorem State.placeOrdered_basis (s : State) (i : Fin 5) : (s.placeOrdered i).basis = s.basis := by
  unfold State.placeOrdered
  split
  · exact (s.place_slotted _ _ _ _ _).basis
  · rfl

theorem State.remapActuator_basis (s : State) (i : Fin 5) : (s.remapActuator i).basis = s.basis := by
  unfold State.remapActuator
  dsimp only
  split
  · rfl
  · exact State.placeOrdered_basis _ i

theorem State.reviewBoatWash_basis (s : State) (b : Boat) : (s.reviewBoatWash b).basis = s.basis := by
  unfold State.reviewBoatWash
  split
  · rfl
  · refine (foldl_basis (fun u i => ?_) _ _).trans rfl
    split
    · exact u.remapActuator_basis i
    · rfl

theorem State.holdRelease_basis (s : State) (b : BoatSet) : (s.holdRelease b).basis = s.basis := by
  unfold State.holdRelease
  split
  · split
    · split
      · exact (s.holdSlot_slotted _).basis
      · rfl
    · rfl
  · rfl

theorem State.reviewZeroOf_basis (s : State) (b : BoatSet) : (s.reviewZeroOf b).basis = s.basis := by
  unfold State.reviewZeroOf
  dsimp only
  split
  · rfl
  · cases b
    all_goals
      split
      · rfl
      · exact State.holdRelease_basis _ _

/-! ### The recompute forms the targets (R29) -/

theorem State.cutEngine_basis (s : State) (i : Fin 6) : (s.cutEngine i).basis = s.basis := by
  unfold State.cutEngine
  dsimp only
  split
  · rfl
  · exact (State.placeSetpoint_basis _ i).trans (s.modEngine_basis i _ fun e => s.moveTo_basis e _)

theorem State.slewEngines_basis (s : State) (old : Table Engine 6) : (s.slewEngines old).basis = s.basis := by
  refine s.basis_engines _ fun i => ?_
  rw [ofTable_get]
  exact s.slewEngine_basis _ _

theorem State.noteUnmet_basis (s : State) : s.noteUnmet.basis = s.basis := by
  unfold State.noteUnmet
  split
  · exact (s.latch_noted _ _).basis
  · rfl

/-- After the ceilings and the shares, a recompute changes only the slewing, the wash, the slots and the notices. -/
theorem State.recompute_basis (s : State) : s.recompute.basis = s.formEngines.share.basis := by
  unfold State.recompute State.reviewZero State.reviewWash State.cutEngines
  rw [State.reviewZeroOf_basis, State.reviewZeroOf_basis, State.reviewZeroOf_basis, State.reviewBoatWash_basis,
    State.reviewBoatWash_basis, State.slewEngines_basis, foldl_basis State.cutEngine_basis, State.noteUnmet_basis]

/-- The forming of the components and the composite ceilings (R24 to R26). -/
theorem State.reformEngine_formed (s : State) (e : Engine) :
    s.ComponentsFormed (s.reformEngine e) ∧ (e.state ≠ .absent → (s.reformEngine e).Composed) := by
  unfold State.reformEngine
  split
  · next a => exact ⟨⟨rfl, rfl, rfl, rfl, rfl, rfl⟩, fun n => absurd a n⟩
  · exact ⟨⟨rfl, rfl, rfl, rfl, rfl, rfl⟩, fun _ => ⟨rfl, rfl⟩⟩

theorem Engine.targetFor_target (e : Engine) (x : Int) (t : Table Engine 6) (d k : Int) :
    ({ e with target := x } : Engine).targetFor t d k = e.targetFor t d k := rfl

/-- A figure of the sharing sums the same over engines that differ in their targets. -/
theorem sumEngines_target (t : Table Engine 6) (g : Engine → Int) (f : Engine → Int)
    (h : ∀ e x, f { e with target := x } = f e) :
    sumEngines (mapTable (fun e => { e with target := g e }) t) f = sumEngines t f := by
  rw [sumEngines_eq, sumEngines_eq]
  refine congrArg sum6 (funext fun i => ?_)
  rw [mapTable_get, h]

theorem availableWeight_target (t : Table Engine 6) (g : Engine → Int) :
    availableWeight (mapTable (fun e => { e with target := g e }) t) = availableWeight t :=
  sumEngines_target t g _ fun _ _ => rfl

theorem shortfallSum_target (t : Table Engine 6) (g : Engine → Int) (d w : Int) :
    shortfallSum (mapTable (fun e => { e with target := g e }) t) d w = shortfallSum t d w :=
  sumEngines_target t g _ fun _ _ => rfl

theorem receivingWeight_target (t : Table Engine 6) (g : Engine → Int) (d w : Int) :
    receivingWeight (mapTable (fun e => { e with target := g e }) t) d w = receivingWeight t d w :=
  sumEngines_target t g _ fun _ _ => rfl

theorem Engine.targetFor_targets (e : Engine) (t : Table Engine 6) (g : Engine → Int) (d k : Int) :
    e.targetFor (mapTable (fun e => { e with target := g e }) t) d k = e.targetFor t d k := by
  unfold Engine.targetFor
  dsimp only
  rw [availableWeight_target, shortfallSum_target, receivingWeight_target]

theorem unmetDemand_targets (t : Table Engine 6) (g : Engine → Int) (d : Int) :
    unmetDemand (mapTable (fun e => { e with target := g e }) t) d = unmetDemand t d := by
  unfold unmetDemand
  dsimp only
  rw [availableWeight_target, shortfallSum_target, receivingWeight_target, sumEngines_target _ _ _ fun _ _ => rfl]

/-- The sharing of the demand forms D, δ, the targets and U by R28 and R30 to R33. -/
theorem State.share_shared (s : State) : s.share.DemandShared := by
  refine State.demandShared_of _ rfl rfl (fun i => ?_) (unmetDemand_targets _ _ _).symm
  rw [s.share_engine i, Engine.targetFor_target]
  exact (Engine.targetFor_targets _ _ _ _ _).symm

theorem State.formEngines_engine (s : State) (i : Fin 6) :
    s.formEngines.prop.engines[i] = s.reformEngine s.prop.engines[i] :=
  mapTable_get _ _ i

theorem State.reformEngine_state (s : State) (e : Engine) : (s.reformEngine e).state = e.state := by
  unfold State.reformEngine; split <;> rfl

/-- A recompute forms what R29 has it form, whatever the state before it. -/
theorem State.recompute_targets (s : State) : s.recompute.TargetsFormed := by
  refine State.TargetsFormed.congr (s := s.formEngines.share) ⟨fun i => ?_, fun i n => ?_, State.share_shared _⟩
    s.recompute_basis
  · rw [State.share_engine, State.formEngines_engine]
    obtain ⟨a, b, c, d, e, f⟩ := (s.reformEngine_formed s.prop.engines[i]).1
    exact ⟨a, b, c, d, e, f⟩
  · rw [State.share_engine, State.formEngines_engine] at n ⊢
    have k := (s.reformEngine_formed s.prop.engines[i]).2 (s.reformEngine_state _ ▸ n)
    exact ⟨k.ahead, k.astern⟩

/-! ### The tow ceilings (R79, R80) -/

theorem BoatSet.has_iff_on (k : Coupling) (b : Boat) : k.entry.bearsOn.has b = true ↔ k.on b := by
  unfold Coupling.on BoatSet.has
  cases k.entry.bearsOn <;> cases b <;> simp

theorem Coupling.contribution_eq_share (k : Coupling) (p : Profile) : k.contribution p = k.share p := by
  unfold Coupling.contribution Coupling.share
  cases k.state <;> rfl

/-- The lowest figure of the entries that count, from a figure to begin with. -/
theorem foldl_min_le {α : Type} (p : α → Bool) (f : α → Nat) (l : List α) (m : Nat) :
    l.foldl (fun m c => if p c then min m (f c) else m) m ≤ m ∧
      (∀ c ∈ l, p c = true → l.foldl (fun m c => if p c then min m (f c) else m) m ≤ f c) ∧
      (l.foldl (fun m c => if p c then min m (f c) else m) m = m ∨
        ∃ c ∈ l, p c = true ∧ l.foldl (fun m c => if p c then min m (f c) else m) m = f c) := by
  induction l generalizing m with
  | nil => exact ⟨le_rfl, fun c h => absurd h List.not_mem_nil, .inl rfl⟩
  | cons a l ih =>
    obtain ⟨low, each, reached⟩ := ih (if p a then min m (f a) else m)
    have le : (if p a then min m (f a) else m) ≤ m := by split <;> omega
    refine ⟨low.trans le, fun c h k => ?_, ?_⟩
    · obtain rfl | h := List.mem_cons.1 h
      · exact low.trans (by rw [if_pos k]; exact min_le_right _ _)
      · exact each c h k
    · obtain e | ⟨c, h, k, e⟩ := reached
      · by_cases k : p a = true
        · rw [if_pos k] at e
          obtain d | d := min_choice m (f a)
          · exact .inl (by rw [List.foldl_cons, if_pos k, e, d])
          · exact .inr ⟨a, List.mem_cons_self, k, by rw [List.foldl_cons, if_pos k, e, d]⟩
        · exact .inl (by rw [List.foldl_cons, e, if_neg k])
      · exact .inr ⟨c, List.mem_cons_of_mem _ h, k, e⟩

/-- A computed tow ceiling is the lowest contribution that bears on its boat (R79). -/
theorem computedCeiling_lowest (t : Table Coupling 48) (p : Profile) (b : Boat) :
    computedCeiling t p b ≤ 1000 ∧ (∀ c : Fin 48, t[c].on b → computedCeiling t p b ≤ t[c].share p) ∧
      (computedCeiling t p b = 1000 ∨ ∃ c : Fin 48, t[c].on b ∧ computedCeiling t p b = t[c].share p) := by
  obtain ⟨top, each, reached⟩ := foldl_min_le (fun c : Coupling => c.entry.bearsOn.has b) (fun c => c.contribution p)
    t.toArray.toList 1000
  refine ⟨top, fun c h => ?_, ?_⟩
  · rw [← Coupling.contribution_eq_share]
    exact each _ (by rw [toList_eq_finRange]; exact List.mem_map_of_mem (List.mem_finRange c))
      ((BoatSet.has_iff_on _ b).2 h)
  · refine reached.imp id fun ⟨k, h, on, e⟩ => ?_
    rw [toList_eq_finRange] at h
    obtain ⟨c, _, rfl⟩ := List.mem_map.1 h
    exact ⟨c, (BoatSet.has_iff_on _ b).1 on, e.trans (Coupling.contribution_eq_share _ p)⟩

/-- The applied ceiling of a boat is not above the computed one, and is held exactly while it is below (R80). -/
def State.Held (s : State) (b : Boat) : Prop :=
  s.tow.applied.get b ≤ s.tow.computed.get b ∧
    ((s.tow.holdAt.get b).isSome = true ↔ s.tow.applied.get b < s.tow.computed.get b)

theorem State.applyCeiling_computed (s : State) (b : Boat) : (s.applyCeiling b).tow.computed = s.tow.computed ∧
    (s.applyCeiling b).tow.couplings = s.tow.couplings ∧ (s.applyCeiling b).helm = s.helm := by
  unfold State.applyCeiling
  dsimp only
  split
  · exact ⟨rfl, rfl, rfl⟩
  · split
    · exact ⟨rfl, rfl, rfl⟩
    · split <;> exact ⟨rfl, rfl, rfl⟩

/-- The comparison of a boat's ceilings leaves them as R80 has them, whatever they were. -/
theorem State.applyCeiling_held (s : State) (b : Boat) : (s.applyCeiling b).Held b := by
  unfold State.applyCeiling State.Held
  dsimp only
  split
  · simp
  · next above =>
    split
    · next held => exact ⟨by omega, iff_of_true held (by omega)⟩
    · next idle =>
      split
      · simpa using idle
      · dsimp only
        rw [PerBoat.get_set_same]
        exact ⟨by omega, iff_of_true rfl (by omega)⟩

theorem State.applyCeiling_held_other (s : State) {b c : Boat} (n : b ≠ c) (h : s.Held c) :
    (s.applyCeiling b).Held c := by
  unfold State.Held at h ⊢
  rw [(s.applyCeiling_computed b).1]
  have same : (s.applyCeiling b).tow.applied.get c = s.tow.applied.get c ∧
      (s.applyCeiling b).tow.holdAt.get c = s.tow.holdAt.get c := by
    unfold State.applyCeiling
    dsimp only
    split
    · simp [PerBoat.get_set, n]
    · split
      · exact ⟨rfl, rfl⟩
      · split <;> simp [PerBoat.get_set, n]
  rw [same.1, same.2]
  exact h

/-- Work within propulsion keeps the tow ceilings (R79, R80). -/
theorem Within.ceilingsFormed {x : Level} {s t : State} (w : Within x s t) (h : s.CeilingsFormed)
    (l : x.rank < 2 := by decide) : t.CeilingsFormed := by
  obtain ⟨computed, applied, holdAt⟩ := w.ceilings l
  have coupling := (w.units (by omega)).couplings
  have entry : ∀ c : Fin 48, t.tow.couplings[c].entry = s.tow.couplings[c].entry := w.written.couplings
  have state : ∀ c : Fin 48, t.tow.couplings[c].state = s.tow.couplings[c].state := fun c =>
    (congrArg Coupling.state (coupling c) :)
  have on : ∀ (c : Fin 48) (b : Boat), t.tow.couplings[c].on b ↔ s.tow.couplings[c].on b := fun c b => by
    unfold Coupling.on; rw [entry]
  have share : ∀ (c : Fin 48) (p : Profile), t.tow.couplings[c].share p = s.tow.couplings[c].share p := fun c p => by
    unfold Coupling.share; rw [state]
  constructor
  · simpa only [computed] using h.top
  · simpa only [computed, on, share, w.written.helm] using h.bound
  · simpa only [computed, on, share, w.written.helm] using h.reached
  · simpa only [computed, applied] using h.applied
  · simpa only [computed, applied, holdAt] using h.hold

/-- The tow ceilings of both boats formed again are as R79 and R80 have them, whatever they were. -/
theorem State.formTow_ceilings (s : State) : s.formTow.CeilingsFormed := by
  have formed : ((s.formCeilings.applyCeiling .b1).applyCeiling .b2).CeilingsFormed := by
    have held : ∀ b, ((s.formCeilings.applyCeiling .b1).applyCeiling .b2).Held b := by
      rintro (_ | _)
      · exact State.applyCeiling_held_other _ (by decide) (State.applyCeiling_held _ _)
      · exact State.applyCeiling_held _ _
    obtain ⟨c1, k1, h1⟩ := State.applyCeiling_computed s.formCeilings .b1
    obtain ⟨c2, k2, h2⟩ := State.applyCeiling_computed (s.formCeilings.applyCeiling .b1) .b2
    have profile : ((s.formCeilings.applyCeiling .b1).applyCeiling .b2).profile = s.profile :=
      (congrArg (fun h : HelmUnit => h.modes[h.mode]) (h2.trans h1) :)
    have couplings : ((s.formCeilings.applyCeiling .b1).applyCeiling .b2).tow.couplings = s.tow.couplings := k2.trans k1
    have computed : ∀ b, ((s.formCeilings.applyCeiling .b1).applyCeiling .b2).tow.computed.get b =
        computedCeiling s.tow.couplings ((s.formCeilings.applyCeiling .b1).applyCeiling .b2).profile b := fun b => by
      rw [c2, c1, profile]; cases b <;> rfl
    have low := computedCeiling_lowest s.tow.couplings ((s.formCeilings.applyCeiling .b1).applyCeiling .b2).profile
    refine ⟨fun b => ?_, fun b c on => ?_, fun b => ?_, fun b => (held b).1, fun b => (held b).2⟩
    · rw [computed]; exact (low b).1
    · rw [couplings] at on
      rw [computed, couplings]; exact (low b).2.1 c on
    · rw [computed, couplings]; exact (low b).2.2
  unfold State.formTow
  dsimp only
  split
  · exact formed
  · exact (State.recompute_worked _).within.ceilingsFormed formed

theorem State.applyCeiling_basis (s : State) (b : Boat) :
    { (s.applyCeiling b).basis with applied := s.tow.applied } = s.basis := by
  unfold State.applyCeiling
  dsimp only
  split
  · rfl
  · split
    · rfl
    · split <;> rfl

/-- The forming of the tow ceilings keeps the targets formed: a changed applied ceiling brings a recompute (R81). -/
theorem State.formTow_targets {s : State} (h : s.TargetsFormed) : s.formTow.TargetsFormed := by
  unfold State.formTow
  dsimp only
  split
  · next same =>
    refine h.congr ?_
    have one := State.applyCeiling_basis s.formCeilings .b1
    have two := State.applyCeiling_basis (s.formCeilings.applyCeiling .b1) .b2
    generalize s.formCeilings.applyCeiling .b1 = u at *
    generalize u.applyCeiling .b2 = v at *
    calc v.basis = { v.basis with applied := s.tow.applied } := by rw [← same]; rfl
      _ = { ({ v.basis with applied := u.tow.applied } : Basis) with applied := s.tow.applied } := rfl
      _ = { u.basis with applied := s.tow.applied } := by rw [two]
      _ = s.basis := one
  · exact State.recompute_targets _

/-! ### The forced steer-assist field (R65) -/

theorem Actuator.unreliable_iff (a : Actuator) : a.unreliable = true ↔ a.entry.kind = .mainRudder ∧
    (a.state = .diverged ∨ a.state = .fault ∨ a.state = .lost) := by
  unfold Actuator.unreliable
  cases a.state <;> simp

theorem State.forcedHolds_iff (s : State) : s.forcedHolds = true ↔
    (∃ i : Fin 5, s.steer.actuators[i].entry.kind = .mainRudder ∧
      (s.steer.actuators[i].state = .diverged ∨ s.steer.actuators[i].state = .fault ∨
        s.steer.actuators[i].state = .lost)) ∧
    0 < s.helm.modes[s.helm.mode].gain := by
  unfold State.forcedHolds
  rw [Bool.and_eq_true, decide_eq_true_eq, toList_eq_finRange, List.any_map, List.any_eq_true]
  refine and_congr ⟨fun ⟨i, _, h⟩ => ⟨i, (Actuator.unreliable_iff _).1 h⟩,
    fun ⟨i, h⟩ => ⟨i, List.mem_finRange i, (Actuator.unreliable_iff _).2 h⟩⟩ Iff.rfl

theorem State.setForced_forced (s : State) : s.setForced.ForcedSound :=
  s.forcedHolds_iff

/-- Work that changes no unit and no helm record keeps the forced steer-assist field at its condition (R65). -/
theorem Within.forcedSound {x : Level} {s t : State} (w : Within x s t) (h : s.ForcedSound)
    (l : x.rank < 3 := by decide) : t.ForcedSound := by
  unfold State.ForcedSound at h ⊢
  have k := w.units l
  simpa only [k.forced, w.written.helm, w.written.actuators, (k.actuators _).1] using h

/-! ### A mode comes into force -/

theorem State.enterMode_within (s : State) : Within .tow s.setForced s.enterMode :=
  ((State.recompute_worked _).mono.trans (State.formTow_worked _)).within

/-- After a mode comes into force everything is formed under it (R8). -/
theorem State.enterMode_formed (s : State) :
    s.enterMode.TargetsFormed ∧ s.enterMode.CeilingsFormed ∧ s.enterMode.ForcedSound :=
  ⟨State.formTow_targets (State.recompute_targets _), State.formTow_ceilings _,
    s.enterMode_within.forcedSound s.setForced_forced⟩

end Sys2Proof.Machine
end

