-- ==== Sys2Proof/Proofs/Modes.lean ====
section
/-! PROOF. Proofs/Modes.lean: the modes and the helm (R1, R2, R8 to R13). CONVOY MODE, TAKE_COMMAND, guard expiry,
HELM_RESUME and a write of a mode profile are each traced to the state that the statement names, with everything formed
under the profile that is then in force. -/

namespace Sys2Proof.Machine

/-! ### What is formed under a profile -/

/-- Targets, tow ceilings and forced steer assist are formed under the profile in force. -/
def State.Formed (s : State) : Prop :=
  s.TargetsFormed ∧ s.CeilingsFormed ∧ s.ForcedSound

theorem State.TargetsFormed.ofSame {s t : State} (h : s.TargetsFormed) (profile : t.profile = s.profile)
    (prop : t.prop = s.prop) (steer : t.steer = s.steer) (tow : t.tow = s.tow) (fuel : t.fuel = s.fuel) :
    t.TargetsFormed := by
  refine h.congr ?_
  unfold State.basis
  rw [profile, prop, steer, tow, fuel]

theorem State.CeilingsFormed.ofSame {s t : State} (h : s.CeilingsFormed) (profile : t.profile = s.profile)
    (tow : t.tow = s.tow) : t.CeilingsFormed := by
  obtain ⟨top, bound, reached, applied, hold⟩ := h
  rw [← tow] at top bound reached applied hold
  refine ⟨top, fun b c on => ?_, fun b => ?_, applied, hold⟩
  · exact (bound b c on).trans_eq (congrArg _ profile.symm)
  · exact (reached b).imp id fun ⟨c, on, e⟩ => ⟨c, on, e.trans (congrArg _ profile.symm)⟩

theorem State.ForcedSound.ofSame {s t : State} (h : s.ForcedSound) (profile : t.profile = s.profile)
    (steer : t.steer = s.steer) : t.ForcedSound := by
  have e : t.forcedHolds = s.forcedHolds := by unfold State.forcedHolds; rw [steer, profile]
  refine Iff.trans ?_ t.forcedHolds_iff
  rw [e, steer]
  exact h.trans s.forcedHolds_iff.symm

theorem State.Formed.ofSame {s t : State} (h : s.Formed) (profile : t.profile = s.profile)
    (prop : t.prop = s.prop) (steer : t.steer = s.steer) (tow : t.tow = s.tow) (fuel : t.fuel = s.fuel) : t.Formed :=
  ⟨h.1.ofSame profile prop steer tow fuel, h.2.1.ofSame profile tow, h.2.2.ofSame profile steer⟩

theorem State.Formed.withHelm {s : State} (h : s.Formed) (g : HelmUnit)
    (p : g.modes[g.mode] = s.helm.modes[s.helm.mode]) : ({ s with helm := g } : State).Formed :=
  h.ofSame p rfl rfl rfl rfl

theorem State.Formed.answered {s : State} (h : s.Formed) (o : Origin) (k : Byte) (a : Answer) : (s.answer o k a).Formed :=
  h.ofSame rfl rfl rfl rfl rfl

theorem State.setForced_withHelm (s : State) (g : HelmUnit) (p : g.modes[g.mode] = s.helm.modes[s.helm.mode]) :
    ({ s with helm := g } : State).setForced = { s.setForced with helm := g } := by
  have e : ({ s with helm := g } : State).forcedHolds = s.forcedHolds := by
    unfold State.forcedHolds State.profile
    rw [p]
  unfold State.setForced
  rw [e]

/-- A mode comes into force, the guard and the command fields of the helm record standing as they are to be. -/
theorem State.enterMode_withHelm (s : State) (g : HelmUnit) (p : g.modes[g.mode] = s.helm.modes[s.helm.mode]) :
    Within .tow ({ s with helm := g } : State).setForced { s.enterMode with helm := g } ∧
      ({ s.enterMode with helm := g } : State).Formed := by
  have w := s.enterMode_within
  have h : s.enterMode.helm = s.helm := w.written.helm
  refine ⟨?_, State.Formed.withHelm s.enterMode_formed g ?_⟩
  · rw [s.setForced_withHelm g p]; exact w.withHelm g
  · exact p.trans (congrArg (fun h : HelmUnit => h.modes[h.mode]) h.symm)

/-! ### The guard, the command and the notices -/

theorem State.resetGuard_eq {s : State} (n : s.helm.helm = .normal) : s.resetGuard =
    s.modHelm fun h => { h with guardAt := guardFrom s.now s.helm.modes s.helm.mode } := by
  unfold State.resetGuard
  rw [guardFrom_eq s n]

theorem State.guardStart_eq (s : State) :
    s.guardStart = some (s.now + 100000 * s.helm.modes[s.helm.mode].guardPeriod) := by
  unfold State.guardStart State.after State.profile ms
  congr 1
  ring

/-- The transfer of command changes the station in command and latches its notice. -/
theorem State.transferTo_noted (s : State) (a : Byte) :
    Noted { s with helm := { s.helm with command := some a } } (s.transferTo a) := by
  unfold State.transferTo
  split
  · next h =>
    rw [← h]
    exact Noted.refl s
  · exact State.latch_noted _ _ _

theorem State.transferTo_same {s : State} {a : Byte} (h : s.helm.command = some a) : s.transferTo a = s :=
  if_pos h

theorem Noted.setForced {s t : State} (h : Noted s t) : Noted s.setForced t.setForced := by
  refine ⟨?_, h.list, h.queue, h.allocated, h.fits⟩
  rw [h.same]
  rfl

theorem State.latch_hasNotice (s : State) (k : NoticeKind) (x : Byte) : (s.latch k x).hasNotice k x := by
  by_cases room : s.notices.list.length < 32
  · exact .inl (s.mem_latch k x room)
  · exact .inr (le_trans (by omega) (s.latch_noted k x).list.length_le)

theorem State.hasNotice.mono {s t : State} {k : NoticeKind} {x : Byte} (h : s.hasNotice k x)
    (l : s.notices.list <+: t.notices.list) : t.hasNotice k x :=
  h.imp (l.subset ·) (le_trans · l.length_le)

theorem State.transferTo_hasNotice {s : State} {a : Byte} (h : s.helm.command ≠ some a) :
    (s.transferTo a).hasNotice .commandTransfer a := by
  unfold State.transferTo
  rw [if_neg h]
  exact State.latch_hasNotice _ _ _

theorem State.refusal_station {s : State} {o : Origin} (n : s.helm.helm = .normal) (c : s.helm.command ≠ some o.src) :
    s.refusal o = some .refusedStation := by
  by_cases l : s.helm.lists o.src = true
  · exact State.refusal_other l n c
  · exact State.refusal_unlisted (Bool.eq_false_iff.2 l)

/-! ### CONVOY MODE (R8) -/

theorem State.decideMode_taken {s : State} {code : Byte} {m : Fin 8} (c : code.toNat = m.val) (n : m ≠ 7) :
    s.decideMode code = ((s.modHelm fun h => { h with mode := m }).enterMode.resetGuard, .taken) := by
  unfold State.decideMode
  rw [indexOf_some c]
  exact if_neg n

theorem State.decideMode_range {s : State} {code : Byte} (c : 7 ≤ code.toNat) : s.decideMode code = (s, .range) := by
  unfold State.decideMode
  by_cases x : code.toNat = 7
  · rw [indexOf_some (i := (7 : Fin 8)) x]
    exact if_pos rfl
  · rw [indexOf_none (by omega)]

/-! ### TAKE_COMMAND (R9) -/

/-- The helm record after a TAKE_COMMAND taken. -/
def HelmUnit.taken (h : HelmUnit) (now : Nat) (a : Byte) : HelmUnit :=
  { h with
    command := some a
    guardAt := if h.guardAt.isSome then some (now + 100000 * h.modes[h.mode].guardPeriod) else none }

theorem State.transferTo_helm (s : State) (a : Byte) :
    (s.transferTo a).helm.modes = s.helm.modes ∧ (s.transferTo a).helm.mode = s.helm.mode ∧
      (s.transferTo a).helm.helm = s.helm.helm ∧ (s.transferTo a).helm.guardAt = s.helm.guardAt := by
  have h := (s.transferTo_noted a).worked.within.written.helm
  rw [h]
  exact ⟨rfl, rfl, rfl, rfl⟩

theorem State.transferTo_withGuard (s : State) (a : Byte) (g : Timer) :
    (s.transferTo a).modHelm (fun h => { h with guardAt := g }) =
      { s.transferTo a with helm := { s.helm with command := some a, guardAt := g } } := by
  have h := (s.transferTo_noted a).worked.within.written.helm
  exact (congrArg (fun h : HelmUnit => { s.transferTo a with helm := { h with guardAt := g } }) h :)

theorem State.decideTakeCommand_taken {s : State} {o : Origin} (l : s.helm.lists o.src = true)
    (n : s.helm.helm = .normal) :
    s.decideTakeCommand o = ({ s.transferTo o.src with helm := s.helm.taken s.now o.src }, .taken) := by
  unfold State.decideTakeCommand
  rw [if_neg (by simp [l]), if_neg (by simp [n])]
  dsimp only
  congr 1
  obtain ⟨modes, mode, -, guard⟩ := s.transferTo_helm o.src
  unfold HelmUnit.taken
  rw [guard]
  split
  · have start : (s.transferTo o.src).guardStart = some (s.now + 100000 * s.helm.modes[s.helm.mode].guardPeriod) := by
      rw [State.guardStart_eq, (s.transferTo_noted o.src).worked.within.now]
      simp only [modes, mode]
    rw [start]
    exact s.transferTo_withGuard o.src _
  · next idle =>
    rw [← s.transferTo_withGuard o.src none]
    have stopped : (s.transferTo o.src).helm.guardAt = none := by
      rw [guard]; exact Option.not_isSome_iff_eq_none.1 idle
    unfold State.modHelm
    rw [← stopped]

/-! ### HELM_RESUME (R13) -/

/-- The helm record after a HELM_RESUME taken. -/
def HelmUnit.back (h : HelmUnit) (now : Nat) (m : Fin 8) (a : Byte) : HelmUnit :=
  { h with
    mode := m, remembered := none, helm := .normal, command := some a, guardAt := guardFrom now h.modes m }

/-- The helm record when the remembered mode comes into force again. -/
def HelmUnit.restored (h : HelmUnit) (m : Fin 8) : HelmUnit :=
  { h with mode := m, remembered := none, helm := .normal }

/-- A HELM_RESUME carried out: what changed, that everything is formed under the remembered mode, and the notice. -/
theorem State.resumeHelm_formed {s : State} {m : Fin 8} {a : Byte} (r : s.helm.remembered = some m) :
    Within .tow ({ s with helm := s.helm.back s.now m a } : State).setForced (s.resumeHelm a) ∧
      (s.resumeHelm a).Formed ∧ (s.helm.command ≠ some a → (s.resumeHelm a).hasNotice .commandTransfer a) := by
  unfold State.resumeHelm
  generalize hu : (s.modHelm fun h =>
    { h with mode := h.remembered.getD h.mode, remembered := none, helm := .normal }) = u
  have uh : u.helm = s.helm.restored m := by
    rw [← hu]
    show ({ s.helm with mode := s.helm.remembered.getD s.helm.mode, remembered := none, helm := .normal } : HelmUnit) = _
    rw [r]
    rfl
  have un : u.now = s.now := by rw [← hu]; rfl
  have base : ({ s with helm := s.helm.back s.now m a } : State) = { u with helm := s.helm.back s.now m a } := by
    rw [← hu]; rfl
  have entered := u.enterMode_withHelm (s.helm.back s.now m a)
    (congrArg (fun h : HelmUnit => h.modes[h.mode]) uh.symm :)
  have vh : u.enterMode.helm = s.helm.restored m := u.enterMode_within.written.helm.trans uh
  have vn : u.enterMode.now = s.now := u.enterMode_within.now.trans un
  generalize u.enterMode = v at *
  have noted := (v.transferTo_noted a).worked.within
  have guard : (v.transferTo a).resetGuard = { v.transferTo a with helm := s.helm.back s.now m a } := by
    obtain ⟨modes, mode, normal, -⟩ := v.transferTo_helm a
    rw [vh] at modes mode normal
    rw [State.resetGuard_eq normal, modes, mode, noted.now, vn]
    refine (v.transferTo_withGuard a _).trans ?_
    rw [vh]
    rfl
  have last := noted.withHelm (s.helm.back s.now m a)
  obtain ⟨hp, hs, ht, _⟩ := last.quiet (by decide)
  rw [guard, base]
  refine ⟨entered.1.trans (last.mono (by decide)), entered.2.ofSame rfl hp hs ht (last.fuel (by decide)).1, fun c => ?_⟩
  refine State.transferTo_hasNotice (s := v) ?_
  rw [vh]
  exact c

end Sys2Proof.Machine

open Sys2Proof Sys2Proof.Machine

/-- Settles O19: with the mode changed, a recompute and the forming of the tow ceilings form everything under the named
profile, and the guard is set afterwards. -/
theorem convoyModeTaken : Obligations.ConvoyModeTaken := by
  intro s o code h
  have run : exec (.convoyMode o code) s = .next (((s.frameEnd .W).decideMode code).1.answer o 3
      ((s.frameEnd .W).decideMode code).2) := congrArg Host.Outcome.next (h.commanded 3 _)
  refine ⟨fun m c n => ?_, fun c => ?_⟩
  · intro base
    rw [State.decideMode_taken c n] at run
    refine ⟨_, run, ?_⟩
    have k : ((s.frameEnd .W).modHelm fun h => { h with mode := m }).enterMode.helm = { s.helm with mode := m } :=
      (State.enterMode_within _).written.helm
    have t : ((s.frameEnd .W).modHelm fun h => { h with mode := m }).enterMode.now = s.now :=
      (State.enterMode_within _).now
    have w := State.enterMode_withHelm ((s.frameEnd .W).modHelm fun h => { h with mode := m }) base.helm rfl
    dsimp only
    rw [State.resetGuard_eq (by rw [k]; exact h.normal), t]
    unfold State.modHelm at *
    rw [k]
    exact ⟨w.1.answered o 3 .taken s.link.own rfl, w.2.answered o 3 .taken⟩
  · rw [State.decideMode_range c] at run
    exact run

/-- Settles O20: the transfer latches its notice and nothing else changes but the helm record. -/
theorem takeCommandTaken : Obligations.TakeCommandTaken := by
  intro s o x l n r base
  have run : exec (.takeCommand o x) s = .next ((({ (s.frameEnd .W).transferTo o.src with
      helm := s.helm.taken s.now o.src } : State)).answer o 3 .taken) := by
    show Host.Outcome.next (s.order o 3 (State.decideTakeCommand o)) = _
    rw [State.order_eq r, State.decideTakeCommand_taken (s := s.frameEnd .W) l n]
    rfl
  have w : Within .notices base { (s.frameEnd .W).transferTo o.src with helm := s.helm.taken s.now o.src } :=
    ((s.frameEnd .W).transferTo_noted o.src).worked.within.withHelm (s.helm.taken s.now o.src)
  refine ⟨_, run, w.answered o 3 .taken s.link.own rfl, fun c => ?_, fun c => ?_, fun c q kind rc was d room => ?_⟩
  · exact (State.transferTo_hasNotice (s := s.frameEnd .W) c).mono List.prefix_rfl
  · show ((s.frameEnd .W).transferTo o.src).notices = s.notices
    rw [State.transferTo_same (s := s.frameEnd .W) c]
    rfl
  · refine exec_refused rc room (State.refusal_station n ?_)
    exact fun e => d (Option.some.inj e).symm

/-- Settles O21: helm loss latches its notice before profile 7 comes into force, and HELM_RESUME transfers command and
sets the guard after the remembered mode has come into force. -/
theorem helmLossAndResume : Obligations.HelmLossAndResume := by
  refine ⟨fun s => ⟨?_, fun g => ?_⟩, ?_⟩
  · intro at_ g base
    have run : exec .guardExpiry s = .next (s.reach at_).loseHelm := by
      show Host.Outcome.next (s.expire s.helm.guardAt State.loseHelm) = _
      rw [g]
      rfl
    have noted : Noted base (base.latch .helmLoss (s.helm.command.getD 0)) := State.latch_noted _ _ _
    have notice := State.latch_hasNotice base .helmLoss (s.helm.command.getD 0)
    have e : (s.reach at_).loseHelm = (base.latch .helmLoss (s.helm.command.getD 0)).enterMode := rfl
    rw [e] at run
    generalize base.latch .helmLoss (s.helm.command.getD 0) = u at *
    obtain ⟨targets, ceilings, forced⟩ := u.enterMode_formed
    exact ⟨_, run, (noted.setForced.worked.within.mono (by decide)).trans u.enterMode_within, targets, ceilings, forced,
      notice.mono u.enterMode_within.list⟩
  · show Host.Outcome.next (s.expire s.helm.guardAt State.loseHelm) = _
    rw [g]
    rfl
  · intro s o x m l lost r room base
    have run : exec (.helmResume o x) s = .next (((s.frameEnd .W).resumeHelm o.src).answer o 3 .taken) := by
      show Host.Outcome.next (s.order o 3 (State.decideHelmResume o)) = _
      rw [State.order_eq room]
      unfold State.decideHelmResume
      rw [if_neg (by simp [l]), if_pos (by exact lost)]
    obtain ⟨w, f, c⟩ := State.resumeHelm_formed (s := s.frameEnd .W) (a := o.src) r
    generalize (s.frameEnd .W).resumeHelm o.src = u at *
    obtain ⟨targets, ceilings, forced⟩ := f.answered o 3 .taken
    exact ⟨_, run, w.answered o 3 .taken s.link.own rfl, targets, ceilings, forced,
      fun n => (c n).mono List.prefix_rfl⟩

end

