-- ==== Sys2Proof/Proofs/ModeWrites.lean ====
section
/-! PROOF. Proofs/ModeWrites.lean: a write of a mode profile (R1, R2, R10, R26, R28, R65). A write of the profile in
force recomputes where a figure that the targets are formed from moves, and leaves them formed where none does. -/

namespace Sys2Proof.Machine

/-- The targets stay formed under a profile with the figures that they are formed from: the mode ceilings, the gain, and
under reserve the economy ceiling. -/
theorem State.TargetsFormed.ofProfile {s t : State} (h : s.TargetsFormed) (prop : t.prop = s.prop)
    (steer : t.steer = s.steer) (tow : t.tow = s.tow) (fuel : t.fuel = s.fuel)
    (ahead : t.helm.modes[t.helm.mode].aheadCeiling = s.helm.modes[s.helm.mode].aheadCeiling)
    (astern : t.helm.modes[t.helm.mode].asternCeiling = s.helm.modes[s.helm.mode].asternCeiling)
    (economy : s.fuel.leg.reserve = true →
      t.helm.modes[t.helm.mode].economyCeiling = s.helm.modes[s.helm.mode].economyCeiling)
    (gain : t.helm.modes[t.helm.mode].gain = s.helm.modes[s.helm.mode].gain) : t.TargetsFormed := by
  refine ⟨fun i => ?_, fun i n => ?_, ?_⟩
  · obtain ⟨modeAhead, modeAstern, health, towed, eco, tank⟩ := h.components i
    rw [prop]
    refine ⟨modeAhead.trans ahead.symm, modeAstern.trans astern.symm, health, ?_, ?_, ?_⟩
    · rw [tow]; exact towed
    · rw [fuel, eco]
      by_cases r : s.fuel.leg.reserve = true
      · rw [if_pos r, if_pos r, economy r]
      · rw [if_neg r, if_neg r]
    · rw [fuel]; exact tank
  · rw [prop] at n ⊢
    exact h.composites i n
  · have k := h.shared
    unfold State.DemandShared at k ⊢
    simp only [prop, steer, gain]
    exact k

theorem State.profileMoves_false {s : State} {p q : Profile} (h : s.profileMoves p q = false) :
    q.aheadCeiling = p.aheadCeiling ∧ q.asternCeiling = p.asternCeiling ∧
      (s.fuel.leg.reserve = true → q.economyCeiling = p.economyCeiling) ∧ q.gain = p.gain := by
  unfold State.profileMoves at h
  simp only [Bool.or_eq_false_iff, Bool.and_eq_false_imp, decide_eq_false_iff_not, not_not] at h
  obtain ⟨⟨⟨ahead, astern⟩, economy⟩, gain⟩ := h
  exact ⟨ahead.symm, astern.symm, fun r => (economy r).symm, gain.symm⟩

/-- The helm record with a profile written. -/
def HelmUnit.withProfile (h : HelmUnit) (m : Fin 8) (p : Profile) : HelmUnit :=
  { h with modes := h.modes.set m p }

theorem HelmUnit.withProfile_profile (h : HelmUnit) (p : Profile) :
    (h.withProfile h.mode p).modes[(h.withProfile h.mode p).mode] = p := by
  show (h.modes.set h.mode p)[h.mode] = p
  rw [set_get, if_pos rfl]

/-- The state in which the tow ceilings are formed at a write of the profile in force (R2). -/
def State.reprofiled (s : State) (p : Profile) : State :=
  let s1 := s.modHelm fun h => h.withProfile s.helm.mode p
  if s.profileMoves s.profile p ∨ s1.forcedHolds ≠ s1.steer.forced then s1.setForced.recompute else s1

theorem State.takeMode_inForce (s : State) (p : Profile) :
    s.takeMode s.helm.mode p = (s.reprofiled p).formTow.guardWritten := by
  unfold State.takeMode
  exact if_pos rfl

theorem State.reprofiled_within (s : State) (p : Profile) :
    Within .propulsion (s.modHelm fun h => h.withProfile s.helm.mode p).setForced (s.reprofiled p) := by
  unfold State.reprofiled
  dsimp only
  split
  · exact (State.recompute_worked _).within
  · next still =>
    have forced : (s.modHelm fun h => h.withProfile s.helm.mode p).forcedHolds = s.steer.forced := by
      by_contra n
      exact still (.inr n)
    have same : (s.modHelm fun h => h.withProfile s.helm.mode p).setForced =
        s.modHelm fun h => h.withProfile s.helm.mode p := by
      unfold State.setForced
      rw [forced]
      rfl
    rw [same]
    exact Within.refl _ _

theorem State.reprofiled_targets {s : State} {p : Profile} (h : s.TargetsFormed) : (s.reprofiled p).TargetsFormed := by
  unfold State.reprofiled
  dsimp only
  split
  · exact State.recompute_targets _
  · next still =>
    obtain ⟨ahead, astern, economy, gain⟩ := State.profileMoves_false (s := s) (p := s.profile) (q := p)
      (Bool.eq_false_iff.2 fun moves => still (.inl moves))
    have profile := s.helm.withProfile_profile p
    refine h.ofProfile rfl rfl rfl rfl ?_ ?_ ?_ ?_
    · exact (congrArg Profile.aheadCeiling profile).trans ahead
    · exact (congrArg Profile.asternCeiling profile).trans astern
    · exact fun r => (congrArg Profile.economyCeiling profile).trans (economy r)
    · exact (congrArg Profile.gain profile).trans gain

/-- The helm record after a write of the profile in force (R10). -/
def HelmUnit.reprofiled (h : HelmUnit) (now : Nat) (p : Profile) : HelmUnit :=
  { h with
    modes := h.modes.set h.mode p
    guardAt :=
      if p.guardPeriod = 0 then none
      else if h.guardAt = none ∧ h.mode ≠ 0 ∧ h.helm = .normal then some (now + 100000 * p.guardPeriod)
      else h.guardAt }

/-- The guard by R10, where the helm record holds the profile just written. -/
theorem State.writtenGuard_eq {v : State} {h : HelmUnit} {p : Profile} (e : v.helm = h.withProfile h.mode p) :
    v.writtenGuard = (h.reprofiled v.now p).guardAt := by
  have profile : v.helm.modes[v.helm.mode] = p :=
    (congrArg (fun g : HelmUnit => g.modes[g.mode]) e :).trans (h.withProfile_profile p)
  have guard : v.helm.guardAt = h.guardAt := (congrArg HelmUnit.guardAt e :)
  have mode : v.helm.mode = h.mode := (congrArg HelmUnit.mode e :)
  have helm : v.helm.helm = h.helm := (congrArg HelmUnit.helm e :)
  have active : v.guardActive = true ↔ 0 < p.guardPeriod ∧ h.mode ≠ 0 ∧ h.helm = .normal := by
    rw [v.guardActive_iff, ← mode, ← helm, ← profile]
    rfl
  have start : v.guardStart = some (v.now + 100000 * p.guardPeriod) := by rw [v.guardStart_eq, profile]
  have period : v.profile.guardPeriod = p.guardPeriod := congrArg Profile.guardPeriod profile
  unfold State.writtenGuard HelmUnit.reprofiled
  rw [period, guard, start]
  simp only [active, Option.isNone_iff_eq_none]
  by_cases z : p.guardPeriod = 0
  · rw [if_pos z, if_pos z]
  · have : 0 < p.guardPeriod := by omega
    rw [if_neg z, if_neg z]
    simp only [this, true_and]

/-- A write of the profile in force: what changed, and that everything is formed under the new profile. -/
theorem State.takeMode_formed (s : State) (p : Profile) :
    Within .tow ({ s with helm := s.helm.reprofiled s.now p } : State).setForced (s.takeMode s.helm.mode p) ∧
      (s.takeMode s.helm.mode p).CeilingsFormed ∧ (s.takeMode s.helm.mode p).ForcedSound ∧
      (s.TargetsFormed → (s.takeMode s.helm.mode p).TargetsFormed) := by
  have w : Within .tow (s.modHelm fun h => h.withProfile s.helm.mode p).setForced (s.reprofiled p).formTow :=
    ((s.reprofiled_within p).mono (by decide)).trans (State.formTow_worked _).within
  have ceilings : (s.reprofiled p).formTow.CeilingsFormed := State.formTow_ceilings _
  have forced := w.forcedSound (State.setForced_forced _)
  have targets : s.TargetsFormed → (s.reprofiled p).formTow.TargetsFormed := fun h =>
    State.formTow_targets (State.reprofiled_targets h)
  rw [s.takeMode_inForce]
  have helm : (s.reprofiled p).formTow.helm = s.helm.withProfile s.helm.mode p := w.written.helm
  have now : (s.reprofiled p).formTow.now = s.now := w.now
  generalize (s.reprofiled p).formTow = v at *
  have guarded : v.guardWritten = { v with helm := s.helm.reprofiled s.now p } := by
    rw [← now, v.guardWritten_eq, State.writtenGuard_eq helm]
    unfold State.modHelm
    rw [helm]
    rfl
  have profile : (s.helm.reprofiled s.now p).modes[(s.helm.reprofiled s.now p).mode] = v.helm.modes[v.helm.mode] :=
    (congrArg (fun h : HelmUnit => h.modes[h.mode]) helm.symm :)
  rw [guarded]
  refine ⟨?_, ceilings.ofSame profile rfl, forced.ofSame profile rfl, fun h => ?_⟩
  · have base := (s.modHelm fun h => h.withProfile s.helm.mode p).setForced_withHelm (s.helm.reprofiled s.now p) rfl
    have k := w.withHelm (s.helm.reprofiled s.now p)
    rw [← base] at k
    exact k
  · exact (targets h).ofSame profile rfl rfl rfl rfl

/-- The fields of a mode entry hold one byte or two, so that the bounds of R1 at 255 hold of themselves. -/
theorem ModeRaw.inRange_iff {r : ModeRaw} {e : Profile} (h : ModeRaw.entry r = e) : e.inRange = true ↔
    e.aheadCeiling ≤ 1000 ∧ e.asternCeiling ≤ 1000 ∧ 1 ≤ e.stepSize ∧ e.stepSize ≤ 250 ∧ 2 ≤ e.stepInterval ∧
      e.guardPeriod ≠ 1 ∧ e.towAlertCeiling ≤ 1000 ∧ e.towOverloadCeiling ≤ 1000 ∧ 8 ≤ e.tensionScale ∧
      e.tensionScale ≤ 16 ∧ e.economyCeiling ≤ 1000 ∧ e.gain ≤ 127 ∧ 5 ≤ e.waitLimit ∧ -1000 ≤ e.fallback ∧
      e.fallback ≤ 1000 := by
  subst h
  have interval : (ModeRaw.entry r).stepInterval ≤ 255 := Nat.le_of_lt_succ r.stepInterval.isLt
  have dwell : (ModeRaw.entry r).reversalDwell ≤ 255 := Nat.le_of_lt_succ r.dwell.isLt
  have guard : (ModeRaw.entry r).guardPeriod ≤ 255 := Nat.le_of_lt_succ r.guardPeriod.isLt
  have hold : (ModeRaw.entry r).towHold ≤ 255 := Nat.le_of_lt_succ r.towHold.isLt
  have wait : (ModeRaw.entry r).waitLimit ≤ 255 := Nat.le_of_lt_succ r.waitLimit.isLt
  unfold Profile.inRange
  simp only [Bool.and_eq_true, decide_eq_true_eq, and_assoc]
  tauto

theorem State.writeMode_taken {s : State} {index : Byte} {r : ModeRaw} {m : Fin 8} (i : index.toNat = m.val)
    (f : (ModeRaw.entry r).inRange = true) : s.writeMode index r = (s.takeMode m (ModeRaw.entry r), .done) := by
  unfold State.writeMode
  rw [indexOf_some i]
  exact if_pos f

theorem State.writeMode_range {s : State} {index : Byte} {r : ModeRaw}
    (h : (ModeRaw.entry r).inRange = false ∨ 8 ≤ index.toNat) : s.writeMode index r = (s, .range) := by
  unfold State.writeMode
  split
  · next m i =>
    refine if_neg ?_
    obtain h | h := h
    · rw [h]; decide
    · rw [indexOf_none h] at i; cases i
  · rfl

end Sys2Proof.Machine

open Sys2Proof Sys2Proof.Machine

/-- Settles O55: a profile not in force is only stored; one in force is stored, what moves is formed again, the tow
ceilings are formed, and the guard follows the new period. -/
theorem modeWriteTaken : Obligations.ModeWriteTaken := by
  intro s o index r room b e stored reply base
  have run : exec (.tableWriteMode o index r) s = .next ((b.writeMode index r).1.reply o 3 (b.writeMode index r).2
      [5, index]) := congrArg Host.Outcome.next (State.tableWrite_eq room o 5 index _)
  refine ⟨ModeRaw.inRange_iff rfl, fun m i f n => ?_, fun m i f n => ?_, fun h => ?_⟩
  · rw [State.writeMode_taken i f] at run
    have only : b.takeMode m (ModeRaw.entry r) = { b with helm := { s.helm with modes := stored m } } := if_neg n
    rw [run, only]
    rfl
  · rw [State.writeMode_taken i f, n] at run
    obtain ⟨w, ceilings, forced, targets⟩ := b.takeMode_formed (ModeRaw.entry r)
    refine ⟨_, run, ?_, ceilings.ofSame rfl rfl, forced.ofSame rfl rfl, fun h => ?_⟩
    · rw [n]
      exact w.replied o 3 .done [5, index] s.link.own rfl
    · exact (targets (h.ofSame rfl rfl rfl rfl rfl)).ofSame rfl rfl rfl rfl rfl
  · rw [State.writeMode_range h] at run
    exact run

end

