-- ==== Sys2Proof/Proofs/Reset.lean ====
section
/-! PROOF. Proofs/Reset.lean: the state after power-on reset (R15, R47, R67, R96, R125, R145, R173, R182). Every table
holds one entry over and over, so that a statement about each of its entries is one about that entry. -/

namespace Sys2Proof.Machine

/-! ### The tables after reset -/

theorem State.reset_profile (m : Fin 8) : State.reset.helm.modes[m] = Profile.reset :=
  Vector.getElem_replicate m.isLt
theorem State.reset_station (i : Fin 2) : State.reset.helm.stations[i] = none :=
  Vector.getElem_replicate i.isLt
theorem State.reset_engine (i : Fin 6) : State.reset.prop.engines[i] = Engine.reset :=
  Vector.getElem_replicate i.isLt
theorem State.reset_actuator (i : Fin 5) : State.reset.steer.actuators[i] = Actuator.reset :=
  Vector.getElem_replicate i.isLt
theorem State.reset_coupling (c : Fin 48) : State.reset.tow.couplings[c] = Coupling.reset :=
  Vector.getElem_replicate c.isLt
theorem State.reset_meter (i : Fin 16) : State.reset.fuel.meters[i] = Meter.reset :=
  Vector.getElem_replicate i.isLt
theorem State.reset_tank (i : Fin 8) : State.reset.fuel.tanks[i] = Tank.reset :=
  Vector.getElem_replicate i.isLt
theorem State.reset_account (i : Fin 6) : State.reset.fuel.accounts[i] = { total := 0, leg := 0 } :=
  Vector.getElem_replicate i.isLt
theorem State.reset_node (n : Fin 32) : State.reset.nodes[n] = Node.reset :=
  Vector.getElem_replicate n.isLt
theorem State.reset_slot (i : Fin 16) : State.reset.trans.slots[i] = Slot.reset :=
  Vector.getElem_replicate i.isLt
theorem State.reset_passage (i : Fin 64) : State.reset.fwd.passage[i] = PassageEntry.reset :=
  Vector.getElem_replicate i.isLt
theorem State.reset_map (k : Fin 25) : State.reset.notices.map[k] = 0 :=
  Vector.getElem_replicate k.isLt
theorem State.reset_channel (c : Fin 8) : State.reset.notices.channels[c] =
    { armed := false, autoDisarm := false, overflow := false } :=
  Vector.getElem_replicate c.isLt

theorem DefaultEntry.reset_ports : (portSetOf DefaultEntry.reset.ports).isEmpty = true := by decide

/-- No passage entry is in use after reset: a frame has the default disposition of its port, which drops it. -/
theorem State.reset_disposition (p : Port) (f : Frame) : State.reset.fwd.disposition p f =
    (.drop, .propulsion, { w := false, m := false, t := false }) := by
  have unmatched : findTable State.reset.fwd.passage (fun e => e.matches p f) = none := by
    unfold findTable
    refine List.find?_eq_none.2 fun i _ => ?_
    rw [State.reset_passage]
    exact Bool.false_ne_true
  unfold Forwarding.disposition
  rw [unmatched]
  cases p <;> rfl

/-! ### What the state after reset has -/

theorem State.reset_slotsSound : State.reset.SlotsSound where
  oneFlight i _ h := by rw [State.reset_slot] at h; cases h
  oneWaiting i _ h := by rw [State.reset_slot] at h; cases h
  queuedIdle i _ h := by rw [State.reset_slot] at h; cases h
  lanes p i := by rw [State.reset_slot]; cases p <;> exact ⟨nofun, nofun⟩
  once p := by cases p <;> exact List.nodup_nil
  timed i h := by rw [State.reset_slot] at h; cases h

theorem State.reset_towSound : State.reset.tow.Sound where
  work c := by rw [State.reset_coupling]; exact ⟨nofun, nofun⟩
  prior c := by rw [State.reset_coupling]; rfl
  kinds c k h := by rw [State.reset_coupling] at h; cases h
  wait c := by rw [State.reset_coupling]; rfl
  phase c := by rw [State.reset_coupling]; exact ⟨nofun, nofun⟩

theorem State.reset_targets : State.reset.TargetsFormed where
  components i := by
    rw [State.reset_engine]
    exact ⟨rfl, rfl, rfl, by decide, rfl, rfl⟩
  composites i n := absurd (congrArg Engine.state (State.reset_engine i)) n
  shared := State.demandShared_of _ rfl rfl (fun i => by rw [State.reset_engine]; rfl) (by decide)

theorem State.reset_ceilings : State.reset.CeilingsFormed where
  top b := by cases b <;> decide
  bound b c _ := by rw [State.reset_coupling]; cases b <;> decide
  reached b := by cases b <;> exact .inl rfl
  applied b := by cases b <;> decide
  hold b := by cases b <;> decide

theorem State.reset_wash : State.reset.WashSound where
  wash b := by cases b <;> decide
  zero x := by
    refine iff_of_true (by cases x <;> rfl) fun i _ r => ?_
    rw [State.reset_engine] at r
    cases r
  ordered a n := absurd (congrArg Actuator.state (State.reset_actuator a)) n

theorem State.reset_forced : State.reset.ForcedSound :=
  iff_of_false Bool.false_ne_true fun ⟨_, gain⟩ => absurd gain (by decide)

end Sys2Proof.Machine

open Sys2Proof Sys2Proof.Machine

/-- Settles O4: every table entry is the one entry that its table is filled with, and the single fields compute. -/
theorem resetOfEveryBlock : Obligations.ResetOfEveryBlock := by
  refine ⟨fun s => ⟨_, rfl, fun m => ?_, rfl, rfl, rfl, rfl, rfl, State.reset_station, rfl, rfl, rfl, rfl, rfl⟩,
    fun s => ⟨_, rfl, State.reset_engine, rfl, rfl, rfl, rfl, rfl, rfl, rfl, ?_, ?_, rfl, fun i => ?_⟩,
    fun s => ⟨_, rfl, State.reset_actuator, rfl, rfl, rfl, rfl, State.reset_coupling, ?_, rfl, rfl, fun i => ?_⟩,
    fun s => ⟨_, rfl, State.reset_meter, State.reset_tank, State.reset_account, rfl, rfl, rfl, fun i => ?_⟩,
    fun s => ⟨_, rfl, State.reset_node, State.reset_slot, ?_, fun i => ?_, ?_, rfl, rfl, rfl, State.reset_disposition,
      State.reset_map, rfl, State.reset_channel, ?_, rfl⟩⟩
  · exact (State.reset_profile m).symm ▸ by decide
  · rintro (_ | _) <;> rfl
  · rintro (_ | _ | _) <;> rfl
  · exact congrArg Slot.state (State.reset_slot i)
  · rintro (_ | _) <;> exact ⟨rfl, rfl, rfl⟩
  · exact congrArg Slot.state (State.reset_slot i)
  · exact ⟨congrArg Engine.economyCeiling (State.reset_engine i), congrArg Engine.tankLowCeiling (State.reset_engine i)⟩
  · rintro (_ | _) <;> rfl
  · exact (State.reset_passage i).symm ▸ by decide
  · rintro (_ | _ | _) <;> exact ⟨rfl, rfl, DefaultEntry.reset_ports, rfl, rfl, rfl⟩
  · rintro (_ | _ | _) <;> exact ⟨rfl, rfl, rfl⟩

/-- Settles O5: no engine, actuator, coupling or slot is in use, so that what every step keeps holds of the empty
tables. -/
theorem resetIsSound : Obligations.ResetIsSound where
  allocated := by
    refine ⟨by decide, ?_, by decide, ?_, by decide⟩
    · rintro (_ | _ | _) <;> decide
    · rintro (_ | _ | _) n h <;> cases h
  answers := Nat.zero_le 4
  notices := ⟨by decide, List.nodup_nil⟩
  helm := State.reset_helmSound
  slots := State.reset_slotsSound
  engines i := by
    rw [State.reset_engine]
    exact ⟨by decide, by decide, fun _ => ⟨rfl, rfl⟩⟩
  forced := State.reset_forced
  tow := State.reset_towSound
  targets := State.reset_targets
  nominal := by unfold State.NominalFormed; decide
  wash := State.reset_wash
  ceilings := State.reset_ceilings

end

