-- ==== Sys2Proof/Proofs/TableWrites.lean ====
section
/-! PROOF. Proofs/TableWrites.lean: the writes of the station, passage, default, meter and notice map entries (R5, R98,
R99, R167, R177). Each decision has its equations for the write taken, for one outside MOORED and for one out of
range. -/

namespace Sys2Proof.Machine

/-- A table write with room draws the reply of its decision, on the state that the decision leaves. -/
theorem State.tableWrite_placed {s u : State} {act : State → State × Status} {status : Status} (r : s.hasRoom)
    (o : Origin) (t i : Byte) (e : act (s.frameEnd .W) = (u, status)) (answers : u.fwd.answers = s.fwd.answers)
    (own : u.link.own = s.link.own) :
    (.next (s.tableWrite o t i act) : Outcome) =
      .next (u.withAnswers (s.fwd.answers ++ [replyFrame s.link.own o 3 status.byte [t, i]])) := by
  rw [State.tableWrite_eq r, e]
  dsimp only
  rw [State.reply_eq, answers, own]

theorem State.moored_of {s : State} (h : s.helm.mode = 0) : s.moored = true :=
  (State.moored_iff s).2 h

theorem State.moored_not {s : State} (h : s.helm.mode ≠ 0) : ¬ s.moored = true :=
  mt (State.moored_iff s).1 h

/-- The entry that an index byte names, by the byte's value. -/
theorem indexOf_eq_some {n : Nat} {b : Byte} {i : Fin n} (h : indexOf n b = some i) : b.toNat = i.val := by
  unfold indexOf at h
  split at h
  · cases h; rfl
  · cases h

theorem othersMeet_iff {α : Type} {n : Nat} (t : Table α n) (i : Fin n) (p : α → Bool) :
    othersMeet t i p = true ↔ ∃ j : Fin n, j ≠ i ∧ p t[j] = true := by
  unfold othersMeet
  simp

/-! ### STATION (R5) -/

theorem HelmUnit.otherStation_eq (h : HelmUnit) {i j : Fin 2} (n : j ≠ i) : h.otherStation i = h.stations[j] := by
  unfold HelmUnit.otherStation
  obtain ⟨rfl, rfl⟩ | ⟨rfl, rfl⟩ : i = 0 ∧ j = 1 ∨ i = 1 ∧ j = 0 := by omega
  · exact if_pos rfl
  · exact if_neg (by decide)

theorem State.writeStation_closed {s : State} (m : s.helm.mode ≠ 0) (i a : Byte) :
    s.writeStation i a = (s, .closed) :=
  if_pos (State.moored_not m)

theorem State.writeStation_taken {s : State} (m : s.helm.mode = 0) {index a : Byte} {i : Fin 2}
    (e : index.toNat = i.val) (low : a.toNat < 128) (own : a ≠ s.link.own)
    (other : a ≠ 0 → s.helm.otherStation i ≠ some a) :
    s.writeStation index a = (s.modHelm fun h => h.withStation i a, .done) := by
  unfold State.writeStation
  rw [if_neg (not_not.2 (State.moored_of m)), indexOf_some e]
  refine if_neg ?_
  rintro (x | x | ⟨x, y⟩)
  · omega
  · exact own x
  · exact other x y

theorem State.writeStation_range {s : State} (m : s.helm.mode = 0) {index a : Byte}
    (h : 2 ≤ index.toNat ∨ 128 ≤ a.toNat ∨ a = s.link.own ∨
      (a ≠ 0 ∧ ∃ i j : Fin 2, index.toNat = i.val ∧ j ≠ i ∧ s.helm.stations[j] = some a)) :
    s.writeStation index a = (s, .range) := by
  unfold State.writeStation
  rw [if_neg (not_not.2 (State.moored_of m))]
  split
  · next i e =>
    have e := indexOf_eq_some e
    refine if_pos ?_
    obtain h | h | h | ⟨n, k, j, f, ne, st⟩ := h
    · omega
    · exact .inl h
    · exact .inr (.inl h)
    · obtain rfl : k = i := Fin.ext (by omega)
      exact .inr (.inr ⟨n, (s.helm.otherStation_eq ne).trans st⟩)
  · rfl

/-! ### PASSAGE and DEFAULT (R167) -/

theorem PassageRaw.inRange_iff (r : PassageRaw) : PassageRaw.inRange r = true ↔
    r.used.toNat < 2 ∧ (r.ingress.toNat < 3 ∨ r.ingress = 0xFF) ∧
      (r.source = 0xFF ∨ (1 ≤ r.source.toNat ∧ r.source.toNat ≤ 127)) ∧ isIndex 8 r.cls := by
  unfold PassageRaw.inRange isIndex coded
  simp only [Bool.and_eq_true, Bool.or_eq_true, decide_eq_true_eq, and_assoc]

theorem State.writePassage_closed {s : State} (m : s.helm.mode ≠ 0) (i : Byte) (r : PassageRaw) :
    s.writePassage i r = (s, .closed) :=
  if_pos (State.moored_not m)

theorem State.writePassage_taken {s : State} (m : s.helm.mode = 0) {index : Byte} {r : PassageRaw} {i : Fin 64}
    (e : index.toNat = i.val) (f : PassageRaw.inRange r = true)
    (g : (PassageRaw.entry r).action.passes = true → (PassageRaw.entry r).ports.isEmpty = false) :
    s.writePassage index r =
      ({ s with fwd := { s.fwd with passage := s.fwd.passage.set i (PassageRaw.entry r) } }, .done) := by
  unfold State.writePassage
  rw [if_neg (not_not.2 (State.moored_of m)), indexOf_some e]
  refine if_neg ?_
  rintro (x | ⟨x, y⟩)
  · exact x f
  · rw [g x] at y; cases y

theorem State.writePassage_range {s : State} (m : s.helm.mode = 0) {index : Byte} {r : PassageRaw}
    (h : 64 ≤ index.toNat ∨ ¬ PassageRaw.inRange r = true ∨
      ((PassageRaw.entry r).action.passes = true ∧ (PassageRaw.entry r).ports.isEmpty = true)) :
    s.writePassage index r = (s, .range) := by
  unfold State.writePassage
  rw [if_neg (not_not.2 (State.moored_of m))]
  split
  · next i e =>
    have := indexOf_eq_some e
    exact if_pos (h.resolve_left (by omega))
  · rfl

theorem portOf_number (p : Port) : portOf (portNumber p) = some p := by
  cases p <;> rfl

theorem portOf_none {b : Byte} (h : 2 < b.toNat) : portOf b = none := by
  unfold portOf
  rw [if_neg, if_neg, if_neg] <;> (rintro rfl; revert h; decide)

theorem State.writeDefault_closed {s : State} (m : s.helm.mode ≠ 0) (i : Byte) (r : DefaultRaw) :
    s.writeDefault i r = (s, .closed) :=
  if_pos (State.moored_not m)

theorem actionOf_passes {a : Byte} (h : a.toNat < 4) : (actionOf a).passes = true ↔ a = 1 ∨ a = 3 := by
  obtain ⟨n, l⟩ : ∃ n : Fin 4, a = BitVec.ofNat 8 n.val := ⟨⟨a.toNat, h⟩, by simp⟩
  subst l
  revert n
  decide

theorem State.writeDefault_taken {s : State} (m : s.helm.mode = 0) {index : Byte} {r : DefaultRaw} {p : Port}
    (e : index = portNumber p) (act : r.action.toNat < 4) (job : r.job.toNat < 4)
    (g : (r.action = 1 ∨ r.action = 3) → (portSetOf r.ports).isEmpty = false) :
    s.writeDefault index r =
      ({ s with fwd := { s.fwd with defaults := s.fwd.defaults.set p (DefaultRaw.entry r) } }, .done) := by
  unfold State.writeDefault
  rw [if_neg (not_not.2 (State.moored_of m)), e, portOf_number]
  refine if_neg ?_
  rintro (x | x | ⟨x, y⟩)
  · exact x (decide_eq_true act)
  · exact x (decide_eq_true job)
  · have z := g ((actionOf_passes act).1 x)
    have y : (portSetOf r.ports).isEmpty = true := y
    rw [z] at y; cases y

theorem State.writeDefault_range {s : State} (m : s.helm.mode = 0) {index : Byte} {r : DefaultRaw}
    (h : 2 < index.toNat ∨ 4 ≤ r.action.toNat ∨ 4 ≤ r.job.toNat ∨
      ((r.action = 1 ∨ r.action = 3) ∧ (portSetOf r.ports).isEmpty = true)) :
    s.writeDefault index r = (s, .range) := by
  unfold State.writeDefault
  rw [if_neg (not_not.2 (State.moored_of m))]
  split
  · next p e =>
    refine if_pos ?_
    unfold coded
    simp only [decide_eq_true_eq, not_lt]
    obtain h | h | h | ⟨h, k⟩ := h
    · rw [portOf_none h] at e; cases e
    · exact .inl h
    · exact .inr (.inl h)
    · by_cases low : r.action.toNat < 4
      · exact .inr (.inr ⟨(actionOf_passes low).2 h, k⟩)
      · exact .inl (by omega)
  · rfl

/-! ### METER (R98, R99) -/

theorem readIndex_isSome (n : Nat) (b : Byte) : (readIndex n b).isSome = true ↔ isIndex n b := by
  unfold readIndex isIndex
  by_cases any : b = 0xFF
  · simp [any]
  · rw [if_neg any, Option.isSome_map, or_iff_left any]
    unfold indexOf
    split <;> simp [*]

theorem MeterRaw.entry?_isSome (r : MeterRaw) : (MeterRaw.entry? r).isSome = true ↔
    isIndex 32 r.node ∧ r.channel.toNat ≤ 1 ∧ r.role.toNat ≤ 3 ∧
      (r.role.toNat ≤ 1 → r.firstObject.toNat ≤ 5) ∧
      (r.role = 2 → r.firstObject.toNat ≤ 7 ∧ r.toTank.toNat ≤ 7 ∧ r.firstObject ≠ r.toTank) ∧
      (r.role = 3 → r.toTank.toNat ≤ 7) ∧ 1 ≤ r.maxRate.toNat := by
  rw [← readIndex_isSome]
  unfold MeterRaw.entry?
  split
  · next node e =>
    rw [e]
    split
    · next h => exact iff_of_true rfl ⟨rfl, h⟩
    · next h => exact iff_of_false Bool.false_ne_true fun k => h k.2
  · next e =>
    rw [e]
    exact iff_of_false Bool.false_ne_true fun k => Bool.false_ne_true k.1

theorem State.writeMeter_closed {s : State} (m : s.helm.mode ≠ 0) (i : Byte) (r : MeterRaw) :
    s.writeMeter i r = (s, .closed) :=
  if_pos (State.moored_not m)

theorem State.writeMeter_taken {s : State} (m : s.helm.mode = 0) {index : Byte} {r : MeterRaw} {i : Fin 16}
    {e : MeterEntry} (f : index.toNat = i.val) (k : MeterRaw.entry? r = some e)
    (free : ∀ j : Fin 16, j ≠ i → e.node.isSome = true →
      s.fuel.meters[j].entry.node ≠ e.node ∨ s.fuel.meters[j].entry.channel ≠ e.channel) :
    s.writeMeter index r = (s.modMeter i fun _ => e.started, .done) := by
  unfold State.writeMeter
  rw [if_neg (not_not.2 (State.moored_of m)), indexOf_some f, k]
  refine if_neg ?_
  rintro ⟨node, x⟩
  obtain ⟨j, n, same⟩ := (othersMeet_iff _ _ _).1 x
  simp only [Bool.and_eq_true, decide_eq_true_eq] at same
  exact (free j n node).elim (fun h => h same.1) fun h => h same.2

theorem State.writeMeter_range {s : State} (m : s.helm.mode = 0) {index : Byte} {r : MeterRaw}
    (h : 16 ≤ index.toNat ∨ ¬ (MeterRaw.entry? r).isSome = true) : s.writeMeter index r = (s, .range) := by
  unfold State.writeMeter
  rw [if_neg (not_not.2 (State.moored_of m))]
  obtain h | h := h
  · rw [indexOf_none h]
  · rw [Option.not_isSome_iff_eq_none.1 h]
    split <;> rfl

theorem State.writeMeter_taken_elsewhere {s : State} (m : s.helm.mode = 0) {index : Byte} {r : MeterRaw} {i j : Fin 16}
    {e : MeterEntry} (k : MeterRaw.entry? r = some e) (f : index.toNat = i.val) (n : j ≠ i)
    (node : e.node.isSome = true) (same : s.fuel.meters[j].entry.node = e.node)
    (channel : s.fuel.meters[j].entry.channel = e.channel) : s.writeMeter index r = (s, .range) := by
  unfold State.writeMeter
  rw [if_neg (not_not.2 (State.moored_of m)), indexOf_some f, k]
  exact if_pos ⟨node, (othersMeet_iff _ _ _).2 ⟨j, n, by simp [same, channel, -Fin.getElem_fin]⟩⟩

/-! ### NOTICE_MAP (R177) -/

theorem mapIndex_number (k : NoticeKind) : mapIndex k.number = some k.index := by
  cases k <;> rfl

theorem mapIndex_none {b : Byte} (h : b = 0 ∨ 25 < b.toNat) : mapIndex b = none := by
  unfold mapIndex
  obtain rfl | h := h
  · rfl
  · rw [if_neg (by rintro rfl; revert h; decide)]
    exact indexOf_none (by bv_omega)

theorem State.writeMap_taken (s : State) {index ch : Byte} {k : NoticeKind} {c : Fin 8} (e : index = k.number)
    (f : ch.toNat = c.val) : s.writeMap index ch =
      ({ s with notices := { s.notices with map := s.notices.map.set k.index c } }, .done) := by
  unfold State.writeMap
  rw [e, mapIndex_number, indexOf_some f]

theorem State.writeMap_range (s : State) {index ch : Byte} (h : index = 0 ∨ 25 < index.toNat ∨ 8 ≤ ch.toNat) :
    s.writeMap index ch = (s, .range) := by
  unfold State.writeMap
  rw [← or_assoc] at h
  obtain h | h := h
  · rw [mapIndex_none h]
  · rw [indexOf_none h]
    cases mapIndex index <;> rfl

end Sys2Proof.Machine

open Sys2Proof Sys2Proof.Machine

/-- Settles O54: the reply follows the decision of each table, which is taken, CLOSED or RANGE by its own equations. -/
theorem plainTableWrites : Obligations.PlainTableWrites := by
  intro s o index room b placed
  refine ⟨?_, ?_, ?_, ?_, ?_, ?_, ?_, ?_, ?_, ?_, ?_⟩
  · intro i j a m e n low own other new
    refine State.tableWrite_placed room o 1 index (State.writeStation_taken (s := b) m e low own fun z => ?_) rfl rfl
    rw [HelmUnit.otherStation_eq _ n]
    exact other z
  · intro i r m e f g
    exact State.tableWrite_placed room o 3 index (State.writePassage_taken (s := b) m e f g) rfl rfl
  · intro p r m e act job g
    exact State.tableWrite_placed room o 4 index (State.writeDefault_taken (s := b) m e act job g) rfl rfl
  · intro i r e m f k free
    exact State.tableWrite_placed room o 10 index (State.writeMeter_taken (s := b) m f k free) rfl rfl
  · intro k ch c e f
    exact State.tableWrite_placed room o 11 index (State.writeMap_taken b e f) rfl rfl
  · intro m a r d k
    exact ⟨State.tableWrite_placed room o 1 index (State.writeStation_closed (s := b) m _ _) rfl rfl,
      State.tableWrite_placed room o 3 index (State.writePassage_closed (s := b) m _ _) rfl rfl,
      State.tableWrite_placed room o 4 index (State.writeDefault_closed (s := b) m _ _) rfl rfl,
      State.tableWrite_placed room o 10 index (State.writeMeter_closed (s := b) m _ _) rfl rfl⟩
  · intro m a h
    exact State.tableWrite_placed room o 1 index (State.writeStation_range (s := b) m h) rfl rfl
  · intro m r listed
    refine ⟨PassageRaw.inRange_iff r, fun h => ?_⟩
    refine State.tableWrite_placed room o 3 index (State.writePassage_range (s := b) m ?_) rfl rfl
    exact h.imp id (Or.imp (mt (PassageRaw.inRange_iff r).1) id)
  · intro m r h
    exact State.tableWrite_placed room o 4 index (State.writeDefault_range (s := b) m h) rfl rfl
  · intro m r listed
    refine ⟨MeterRaw.entry?_isSome r, fun h => ?_, fun e i j k f n node same channel => ?_⟩
    · refine State.tableWrite_placed room o 10 index (State.writeMeter_range (s := b) m ?_) rfl rfl
      exact h.imp id (mt (MeterRaw.entry?_isSome r).1)
    · exact State.tableWrite_placed room o 10 index
        (State.writeMeter_taken_elsewhere (s := b) m k f n node same channel) rfl rfl
  · intro ch h
    exact State.tableWrite_placed room o 11 index (State.writeMap_range b h) rfl rfl

end

