-- ==== Sys2Proof/Proofs/Identity.lean ====
section
/-! PROOF. Proofs/Identity.lean: IDENTIFY and SET_ADDRESS (R186), and the orders and requests that draw UNKNOWN (R6
check 1, R83, R183). -/

namespace Sys2Proof.Machine

/-! ### SET_ADDRESS (R186) -/

theorem State.takeAddress_closed {s : State} (m : s.helm.mode ≠ 0) (o : Origin) (a : Byte) :
    s.takeAddress o a = s.reply o 6 .closed [] :=
  if_pos (State.moored_not m)

theorem State.takeAddress_range {s : State} (m : s.helm.mode = 0) (o : Origin) {a : Byte}
    (h : a = 0 ∨ 127 < a.toNat ∨ ∃ i : Fin 2, s.helm.stations[i] = some a) :
    s.takeAddress o a = s.reply o 6 .range [] := by
  unfold State.takeAddress
  rw [if_neg (not_not.2 (State.moored_of m)), if_pos]
  rw [HelmUnit.lists_iff]
  exact h.imp id (Or.imp Nat.succ_le_of_lt id)

theorem State.takeAddress_taken {s : State} (m : s.helm.mode = 0) (o : Origin) {a : Byte} (n : a ≠ 0)
    (low : a.toNat ≤ 127) (other : ∀ i : Fin 2, s.helm.stations[i] ≠ some a) :
    s.takeAddress o a = { s with link := { s.link with own := a } }.reply o 6 .done [] := by
  unfold State.takeAddress
  rw [if_neg (not_not.2 (State.moored_of m)), if_neg]
  rw [HelmUnit.lists_iff]
  rintro (x | x | ⟨i, x⟩)
  · exact n x
  · omega
  · exact other i x

/-! ### Orders and requests of no known form -/

/-- An order of no known form that R83 does not decide is answered by R6 check 1. -/
theorem exec_orderUnknown_plain {s : State} (r : s.hasRoom) (o : Origin) {l : List Byte} (h : ¬ unknownCouple l = true) :
    exec (.orderUnknown o l) s =
      .next ((s.frameEnd .W).withAnswers (s.fwd.answers ++ [answerFrame s.link.own o (l.headD 0) 7])) := by
  rw [execOrderUnknown_plain o h, State.order_eq r]
  rfl

theorem unknownCouple_cons (k : Byte) (l : List Byte) : unknownCouple (k :: l) = true ↔ k = 4 ∧ l.length = 2 := by
  unfold unknownCouple
  simp

theorem exec_mgmtUnknown {s : State} (r : s.hasRoom) (o : Origin) (l : List Byte) :
    exec (.mgmtUnknown o l) s = .next ((s.frameEnd .W).takeUnknown o l) :=
  congrArg Host.Outcome.next (State.request_eq r o _)

/-- A request of no known form that is no TABLE_WRITE draws a reply with no body. -/
theorem State.takeUnknown_plain (s : State) (o : Origin) {k : Byte} (l : List Byte) (h : k ≠ 3) :
    s.takeUnknown o (k :: l) = s.reply o k (unknownStatus (k :: l)) [] :=
  if_neg h

theorem State.takeUnknown_write (s : State) (o : Origin) (l : List Byte) :
    s.takeUnknown o (3 :: l) = (s.writeBody l).2.reply o 3 (unknownStatus (3 :: l)) (s.writeBody l).1 := by
  unfold State.takeUnknown
  exact if_pos rfl

/-- The status of a table request of no known form: RANGE for a table id that names no table. -/
theorem unknownStatus_table {k t : Byte} (l : List Byte) (h : k = 2 ∨ k = 3) :
    (unknownStatus (k :: t :: l)).byte = if entryBytes t = none then 2 else 5 := by
  show (if (k = 2 ∨ k = 3) ∧ entryBytes t = none then Status.range else .unknown).byte = _
  simp only [h, true_and]
  split <;> rfl

theorem unknownStatus_other {k : Byte} (l : List Byte) (h : k ≠ 2) (g : k ≠ 3) :
    unknownStatus (k :: l) = .unknown := by
  unfold unknownStatus
  split
  · next e =>
    cases e
    exact if_neg fun ⟨c, _⟩ => c.elim h g
  · rfl

end Sys2Proof.Machine

open Sys2Proof Sys2Proof.Machine

/-- Settles O59: each request is handled at its frame end, and its reply follows the table id, the index and the address
that it carries. -/
theorem identityAndUnknownRequests : Obligations.IdentityAndUnknownRequests := by
  refine ⟨fun s o a room => ?_, fun s o kind rest room => ?_⟩
  · intro b placed
    have identify : exec (.identify o) s = .next (b.identity o) :=
      congrArg Host.Outcome.next (State.request_eq room o _)
    have address : exec (.setAddress o a) s = .next (b.takeAddress o a) :=
      congrArg Host.Outcome.next (State.request_eq room o _)
    refine ⟨identify, fun m => ?_, fun m h => ?_, fun m n low other => ?_⟩
    · rw [address, State.takeAddress_closed (s := b) m]; rfl
    · rw [address, State.takeAddress_range (s := b) m o h]; rfl
    · rw [address, State.takeAddress_taken (s := b) m o n low other]; rfl
  · intro placed
    refine ⟨exec_orderUnknown_plain room o (by decide), fun h => ?_, fun h l admitted => ?_, exec_mgmtUnknown room o [],
      fun two three => ?_, ?_, ?_, ?_, ?_, ?_⟩
    · refine exec_orderUnknown_plain room o ?_
      rw [unknownCouple_cons]
      tauto
    · rw [execOrderUnknown_couple o ((unknownCouple_cons kind rest).2 ⟨h, l⟩), admitted.commanded]
      rfl
    · rw [exec_mgmtUnknown room, State.takeUnknown_plain _ _ _ three, unknownStatus_other _ two three]
      rfl
    · rintro rfl rfl
      exact exec_mgmtUnknown room o [2]
    · rintro rfl rfl
      exact ⟨_, _, _, exec_mgmtUnknown room o [3], rfl⟩
    · rintro table tail rfl rfl
      rw [exec_mgmtUnknown room, State.takeUnknown_plain _ _ _ (by decide), State.reply_eq,
        unknownStatus_table _ (.inl rfl)]
      rfl
    · rintro table index tail rfl rfl
      rw [exec_mgmtUnknown room, State.takeUnknown_write, State.reply_eq, unknownStatus_table _ (.inr rfl)]
      rfl
    · rintro table rfl rfl
      refine ⟨_, (s.frameEnd .W).freeByte.1, exec_mgmtUnknown room o [3, table], ?_⟩
      rw [State.takeUnknown_write, State.reply_eq, unknownStatus_table _ (.inr rfl)]
      rfl

end

