-- ==== Sys2Proof/Proofs/Restart.lean ====
section
/-! PROOF. Proofs/Restart.lean: the warm restart (R188), block by block. With no engine RUNNING, no power ordered and the
rudder at 0, what a recompute would form is what R48 and R68 put there. -/

namespace Sys2Proof.Machine

/-! ### Propulsion and steering (R48, R68) -/

theorem State.warmRestart_engine (s : State) (i : Fin 6) : s.warmRestart.prop.engines[i] =
    s.restartedBlocks.reformEngine s.prop.engines[i].restarted :=
  mapTable_get _ _ i

theorem State.warmRestart_actuator (s : State) (i : Fin 5) : s.warmRestart.steer.actuators[i] =
    s.steer.actuators[i].restarted :=
  mapTable_get _ _ i

/-- What the forming of its ceilings leaves of an engine. -/
theorem State.reformEngine_keeps (s : State) (e : Engine) : ∃ a b c d f g x y, s.reformEngine e =
    { e with
      modeAhead := a, modeAstern := b, healthCeiling := c, towCeiling := d, economyCeiling := f, tankLowCeiling := g
      compositeAhead := x, compositeAstern := y } ∧
      (e.state = .absent → x = e.compositeAhead ∧ y = e.compositeAstern) := by
  unfold State.reformEngine
  split
  · exact ⟨_, _, _, _, _, _, _, _, rfl, fun _ => ⟨rfl, rfl⟩⟩
  · next n => exact ⟨_, _, _, _, _, _, _, _, rfl, fun a => absurd a n⟩

theorem State.warmRestart_engine_state (s : State) (i : Fin 6) : s.warmRestart.prop.engines[i].state =
    if s.prop.engines[i].entry.governor = none then .absent else .lost := by
  rw [State.warmRestart_engine, State.reformEngine_state]
  rfl

/-- No engine is RUNNING after a restart. -/
theorem State.warmRestart_stopped (s : State) (i : Fin 6) : s.warmRestart.prop.engines[i].state ≠ .running := by
  rw [State.warmRestart_engine_state]
  split <;> exact nofun

theorem State.warmRestart_target (s : State) (i : Fin 6) : s.warmRestart.prop.engines[i].target = 0 := by
  rw [State.warmRestart_engine]
  obtain ⟨_, _, _, _, _, _, _, _, e, _⟩ := s.restartedBlocks.reformEngine_keeps s.prop.engines[i].restarted
  rw [e]
  rfl

theorem sum6_zero {f : Fin 6 → Int} (h : ∀ i, f i = 0) : sum6 f = 0 := by
  rw [show f = fun _ => 0 from funext h]
  rfl

theorem State.warmRestart_weight (s : State) : availableWeight s.warmRestart.prop.engines = 0 := by
  unfold availableWeight
  rw [sumEngines_eq]
  exact sum6_zero fun i => if_neg (s.warmRestart_stopped i)

theorem State.warmRestart_diff (s : State) : s.warmRestart.diffInForce = 0 := by
  unfold State.diffInForce
  split
  · rfl
  · show clamp (-300) 300 ((0 * (s.warmRestart.profile.gain : Int)).tdiv 64) = 0
    rw [zero_mul]
    rfl

theorem State.warmRestart_targets (s : State) : s.warmRestart.TargetsFormed where
  components i := by
    rw [State.warmRestart_engine]
    obtain ⟨a, b, c, d, e, f⟩ := (s.restartedBlocks.reformEngine_formed s.prop.engines[i].restarted).1
    exact ⟨a, b, c, d, e, f⟩
  composites i n := by
    rw [State.warmRestart_engine] at n ⊢
    exact (s.restartedBlocks.reformEngine_formed _).2 (State.reformEngine_state _ _ ▸ n)
  shared := by
    refine State.demandShared_of _ ?_ s.warmRestart_diff.symm (fun i => ?_) ?_
    · show (0 : Int) = ((0 : Int) * _).tdiv 1000
      rw [zero_mul]
      rfl
    · rw [s.warmRestart_target]
      exact (if_neg (s.warmRestart_stopped i)).symm
    · unfold unmetDemand
      exact (if_pos s.warmRestart_weight).symm

theorem State.warmRestart_nominal (s : State) : s.warmRestart.NominalFormed := by
  show ((nominalPower s.warmRestart.prop.engines : Nat) : Int) = _
  unfold nominalPower
  rw [sumEngines_eq, sum6_natCast]
  intro i
  split
  · exact Int.natCast_nonneg _
  · exact le_rfl

theorem State.warmRestart_wash (s : State) : s.warmRestart.WashSound where
  wash b := by
    rw [sum6_zero fun i => if_neg fun h => s.warmRestart_stopped i h.1]
    cases b <;> rfl
  zero x := iff_of_true (by cases x <;> rfl) fun i _ r => absurd r (s.warmRestart_stopped i)
  ordered a _ := by
    rw [State.warmRestart_actuator]
    unfold State.mapped
    dsimp only
    rw [if_neg fun h => BowMode.noConfusion h.2]
    show (0 : Int) = max _ (min _ ((0 * _ : Int).tdiv 64))
    rw [zero_mul, Int.zero_tdiv]
    omega

/-! ### The coupling supervisor (R97) -/

theorem State.warmRestart_coupling (s : State) (c : Fin 48) : s.warmRestart.tow.couplings[c] =
    s.tow.couplings[c].restarted :=
  mapTable_get _ _ c

theorem State.warmRestart_ceilings (s : State) : s.warmRestart.CeilingsFormed := by
  have low := computedCeiling_lowest s.warmRestart.tow.couplings s.warmRestart.profile
  have computed : ∀ b, s.warmRestart.tow.computed.get b =
      computedCeiling s.warmRestart.tow.couplings s.warmRestart.profile b := by
    rintro (_ | _) <;> rfl
  have hold : ∀ b, s.warmRestart.tow.holdAt.get b = none := by rintro (_ | _) <;> rfl
  refine ⟨fun b => ?_, fun b c on => ?_, fun b => ?_, fun b => le_rfl, fun b => ?_⟩
  · rw [computed]; exact (low b).1
  · rw [computed]; exact (low b).2.1 c on
  · rw [computed]; exact (low b).2.2
  · rw [hold]
    exact iff_of_false Bool.false_ne_true (lt_irrefl _)

/-! ### Ports, queues and buffers (R151, R172, R174) -/

theorem Line.restarted_of_slot {l : Line} {x : Transmission} {i : Option (Fin 16)} (h : l.sending = some x)
    (e : x.source = .slot i) : l.restarted = { l with sending := some { x with source := .slot none } } := by
  obtain ⟨_, _, sending, _⟩ := l
  obtain ⟨source, _, _⟩ := x
  obtain rfl : sending = _ := h
  obtain rfl : source = _ := e
  rfl

theorem Line.restarted_of_none {l : Line} (h : ∀ x, l.sending = some x → ∀ i, x.source ≠ .slot i) :
    l.restarted = l := by
  obtain ⟨_, _, sending, _⟩ := l
  cases sending with
  | none => rfl
  | some x =>
    obtain ⟨source, _, _⟩ := x
    cases source with
    | slot i => exact absurd rfl (h _ rfl i)
    | frameQueue => rfl
    | answerLane => rfl

theorem State.warmRestart_port (s : State) (p : Port) :
    s.warmRestart.link.ports.get p = (s.link.ports.get p).restarted := by
  cases p <;> rfl

theorem State.warmRestart_queue (s : State) (p : Port) :
    s.warmRestart.fwd.queues.get p = keptFrames (s.link.ports.get p) .frameQueue (s.fwd.queues.get p) := by
  cases p <;> rfl

theorem State.warmRestart_reserved (s : State) (p : Port) : s.warmRestart.fwd.pendingDecrease.get p = none ∧
    s.warmRestart.fwd.reserved.get p = (s.fwd.pendingDecrease.get p).getD (s.fwd.reserved.get p) := by
  cases p <;> exact ⟨rfl, rfl⟩

theorem State.frameEnd_sending (s : State) (p q : Port) :
    ((s.frameEnd p).link.ports.get q).sending = (s.link.ports.get q).sending := by
  cases p <;> cases q <;> rfl

theorem keptFrames_sent {l : Line} {x : Transmission} {source : Source} (h : l.sending = some x) (e : x.source = source)
    (f : List Frame) : keptFrames l source f = f.take 1 := by
  unfold keptFrames
  rw [h]
  exact if_pos e

theorem keptFrames_other {l : Line} {source : Source} (h : ∀ x, l.sending = some x → x.source ≠ source)
    (f : List Frame) : keptFrames l source f = [] := by
  unfold keptFrames
  split
  · next x e => exact if_neg (h x e)
  · rfl

/-- A port's reservation and what a pending decrease of it gives up are what was reserved (R172). -/
theorem getD_add_givenUp {r : Nat} {d : Option Nat} (h : ∀ n, d = some n → n < r) : d.getD r + givenUp r d = r := by
  cases d with
  | none => rfl
  | some n =>
    have := h n rfl
    show n + (r - n) = r
    omega

theorem State.restartedForwarding_total {s : State} (h : s.fwd.Allocated) :
    s.restartedForwarding.pool + s.restartedForwarding.reserved.w + s.restartedForwarding.reserved.m +
      s.restartedForwarding.reserved.t = 48 := by
  have w := getD_add_givenUp fun n e => (h.decreases .W n e).2
  have m := getD_add_givenUp fun n e => (h.decreases .M n e).2
  have t := getD_add_givenUp fun n e => (h.decreases .T n e).2
  have total := h.total
  simp only [PerPort.get] at w m t
  unfold State.restartedForwarding
  dsimp only
  omega

/-- Port W is silent when a RESTART is heard: the answer lane keeps no frame (R174). -/
theorem State.warmRestart_answers {s : State} (h : s.listens .W) : s.warmRestart.fwd.answers = [] :=
  keptFrames_other (fun _ e => by rw [show s.link.ports.w.sending = none from h] at e; cases e) _

/-! ### The other blocks (R126, R146, R182) -/

theorem State.warmRestart_meter (s : State) (i : Fin 16) : s.warmRestart.fuel.meters[i] =
    if s.fuel.meters[i].state = .counting ∨ s.fuel.meters[i].state = .estimating then
      { s.fuel.meters[i] with
        state := .counting, tickAt := none
        silenceAt := match s.fuel.meters[i].entry.node with
          | some n => some (s.now + 100000 * s.nodes[n].entry.silence)
          | none => none }
    else s.fuel.meters[i] := by
  refine (mapTable_get s.restartedMeter s.fuel.meters i).trans ?_
  have period : ∀ n : Fin 32, s.meterSilence n = some (s.now + 100000 * s.nodes[n].entry.silence) := fun n => by
    unfold State.meterSilence State.after State.silencePeriod ms
    congr 1
    ring
  unfold State.restartedMeter
  split
  · cases s.fuel.meters[i].entry.node with
    | none => rfl
    | some n =>
      dsimp only
      rw [period]
  · rfl

theorem State.warmRestart_node (s : State) (n : Fin 32) : s.warmRestart.nodes[n] = s.nodes[n].restarted :=
  mapTable_get _ _ n

theorem State.warmRestart_slot (s : State) (i : Fin 16) :
    s.warmRestart.trans.slots[i] = { s.trans.slots[i] with state := .free, ackAt := none } :=
  mapTable_get _ _ i

theorem State.warmRestart_channel (s : State) (c : Fin 8) :
    s.warmRestart.notices.channels[c] = { s.notices.channels[c] with overflow := false } :=
  mapTable_get _ _ c

/-! ### RESTART decided -/

theorem State.takeRestart_closed {s : State} (m : s.helm.mode ≠ 0) (o : Origin) :
    s.takeRestart o = s.reply o 0x0E .closed [] :=
  if_neg (State.moored_not m)

theorem State.takeRestart_taken {s : State} (m : s.helm.mode = 0) (o : Origin) :
    s.takeRestart o = s.warmRestart.reply o 0x0E .done [] :=
  if_pos (State.moored_of m)

end Sys2Proof.Machine

open Sys2Proof Sys2Proof.Machine

/-- Settles O60: the blocks one after another, each by its own restart rule, and the reply after the lane is emptied. -/
theorem restartDecided : Obligations.RestartDecided := by
  intro s o room
  have run : exec (.restart o) s = .next ((s.frameEnd .W).takeRestart o) :=
    congrArg Host.Outcome.next (State.request_eq room o _)
  refine ⟨fun m => ?_, fun m => ?_⟩
  · rw [run, State.takeRestart_closed (s := s.frameEnd .W) m]
    rfl
  rw [State.takeRestart_taken (s := s.frameEnd .W) m] at run
  refine ⟨_, run, rfl, rfl, rfl, rfl, fun i => ?_, (s.frameEnd .W).warmRestart_targets.ofSame rfl rfl rfl rfl rfl,
    (s.frameEnd .W).warmRestart_nominal, ?_, rfl, rfl, rfl, rfl, rfl, rfl, ?_, ?_, (s.frameEnd .W).warmRestart_actuator,
    rfl, rfl, rfl, (State.setForced_forced _).ofSame rfl rfl, fun c => ?_, rfl,
    (s.frameEnd .W).warmRestart_ceilings.ofSame rfl rfl, rfl, ?_, rfl, rfl, rfl, rfl,
    (s.frameEnd .W).warmRestart_meter, (s.frameEnd .W).warmRestart_node, fun i => ?_, ?_, rfl, fun p => ?_, rfl, rfl,
    fun p => ?_, fun a => ?_, ?_, rfl, rfl, rfl, (s.frameEnd .W).warmRestart_channel⟩
  · obtain ⟨_, _, _, _, _, _, _, _, formed, absent⟩ :=
      (s.frameEnd .W).restartedBlocks.reformEngine_keeps s.prop.engines[i].restarted
    have engine : ((s.frameEnd .W).warmRestart.reply o 0x0E .done []).prop.engines[i] = _ :=
      ((s.frameEnd .W).warmRestart_engine i).trans formed
    rw [engine]
    exact ⟨rfl, rfl, rfl, rfl, rfl, rfl, rfl, rfl, rfl, rfl, fun g => absent (if_pos g)⟩
  · exact ⟨(s.frameEnd .W).warmRestart_wash.wash, (s.frameEnd .W).warmRestart_wash.zero,
      (s.frameEnd .W).warmRestart_wash.ordered⟩
  · rintro (_ | _) <;> rfl
  · rintro (_ | _ | _) <;> rfl
  · refine ((s.frameEnd .W).warmRestart_coupling c).trans ?_
    show s.tow.couplings[c].restarted = _
    unfold Coupling.restarted CouplingState.restarted
    cases s.tow.couplings[c].state <;> rfl
  · rintro (_ | _) <;> rfl
  · have k := (s.frameEnd .W).warmRestart_slot i
    exact ⟨congrArg Slot.state k, congrArg Slot.ackAt k⟩
  · rintro (_ | _) <;> rfl
  · intro l
    have port : _ = l.restarted := (s.frameEnd .W).warmRestart_port p
    exact ⟨fun x h ⟨i, e⟩ => port.trans (Line.restarted_of_slot h e), fun h => port.trans (Line.restarted_of_none h)⟩
  · obtain ⟨decrease, reserved⟩ := (s.frameEnd .W).warmRestart_reserved p
    have queue := (s.frameEnd .W).warmRestart_queue p
    have sending := s.frameEnd_sending .W p
    exact ⟨decrease, reserved, fun x h e => queue.trans (keptFrames_sent (sending.trans h) e _),
      fun h => queue.trans (keptFrames_other (fun x k => h x (sending.symm.trans k)) _)⟩
  · exact State.restartedForwarding_total (s := s.frameEnd .W) a
  · have lane := State.warmRestart_answers (s := s.frameEnd .W) (by exact room.1)
    rw [State.reply_eq, lane]
    rfl

end

