-- ==== Sys2Proof/Proofs/Slewing.lean ====
section
/-! PROOF. Proofs/Slewing.lean: what becomes of one engine, one actuator and the wash in a recompute (R29): the ceilings and
the shares are formed, the setpoint is cut, the slewing is brought up to date, and the wash directions, the ordered
values and the boat-at-zero conditions follow. -/

namespace Sys2Proof.Machine

/-! ### Work over a table, one entry after another -/

/-- Work that changes entry `i` of a table by `g`, done for each index of a list, changes the entries of the list. -/
theorem foldl_entries {α : Type} {n : Nat} (tab : State → Table α n) (f : State → Fin n → State) (g : α → α)
    (P : State → Prop) (keep : ∀ u i, P u → P (f u i))
    (one : ∀ u i, P u → ∀ j : Fin n, (tab (f u i))[j] = if i = j then g (tab u)[j] else (tab u)[j])
    (l : List (Fin n)) (d : l.Nodup) (s : State) (h : P s) (j : Fin n) :
    (tab (l.foldl f s))[j] = if j ∈ l then g (tab s)[j] else (tab s)[j] := by
  induction l generalizing s with
  | nil => rfl
  | cons i l ih =>
    obtain ⟨out, d⟩ := List.nodup_cons.1 d
    rw [List.foldl_cons, ih d _ (keep s i h), one s i h]
    by_cases e : i = j
    · subst e
      simp [out]
    · simp [e, Ne.symm e]

theorem foldl_keeps {α : Type} (f : State → α → State) (P : State → Prop) (keep : ∀ u i, P u → P (f u i)) (l : List α)
    (s : State) (h : P s) : P (l.foldl f s) := by
  induction l generalizing s with
  | nil => exact h
  | cons i l ih => exact ih _ (keep s i h)

/-! ### What the placing of an order leaves -/

theorem Slotted.prop {s t : State} (h : Slotted s t) : t.prop = s.prop := by rw [h.same]
theorem Slotted.steer {s t : State} (h : Slotted s t) : t.steer = s.steer := by rw [h.same]
theorem Slotted.helm {s t : State} (h : Slotted s t) : t.helm = s.helm := by rw [h.same]
theorem Slotted.now {s t : State} (h : Slotted s t) : t.now = s.now := by rw [h.same]
theorem Noted.prop {s t : State} (h : Noted s t) : t.prop = s.prop := by rw [h.same]
theorem Noted.steer {s t : State} (h : Noted s t) : t.steer = s.steer := by rw [h.same]
theorem Noted.helm {s t : State} (h : Noted s t) : t.helm = s.helm := by rw [h.same]
theorem Noted.now {s t : State} (h : Noted s t) : t.now = s.now := by rw [h.same]

theorem State.placeSetpoint_slotted (s : State) (i : Fin 6) : Slotted s (s.placeSetpoint i) := by
  unfold State.placeSetpoint
  split
  · exact s.place_slotted _ _ _ _ _
  · exact Slotted.refl s

theorem State.placeOrdered_slotted (s : State) (i : Fin 5) : Slotted s (s.placeOrdered i) := by
  unfold State.placeOrdered
  split
  · exact s.place_slotted _ _ _ _ _
  · exact Slotted.refl s

theorem State.modEngine_engine (s : State) (i j : Fin 6) (f : Engine → Engine) :
    (s.modEngine i f).prop.engines[j] = if i = j then f s.prop.engines[i] else s.prop.engines[j] :=
  modTable_get s.prop.engines i j f

/-! ### One engine: its slewing (2.6) -/

/-- The instant and the profile in force are the same: what an engine's timers are started from. -/
def State.Paced (s t : State) : Prop :=
  t.now = s.now ∧ t.profile = s.profile

theorem State.Paced.refl (s : State) : s.Paced s := ⟨rfl, rfl⟩

theorem State.Paced.trans {s t u : State} (h : s.Paced t) (k : t.Paced u) : s.Paced u :=
  ⟨k.1.trans h.1, k.2.trans h.2⟩

theorem State.profile_congr {s t : State} (h : t.helm = s.helm) : t.profile = s.profile :=
  (congrArg (fun g : HelmUnit => g.modes[g.mode]) h :)

theorem Within.paced {x : Level} {s t : State} (w : Within x s t) : s.Paced t :=
  ⟨w.now, State.profile_congr w.written.helm⟩

theorem Slotted.paced {s t : State} (h : Slotted s t) : s.Paced t :=
  ⟨h.now, State.profile_congr h.helm⟩

theorem State.Paced.zeroEngine {s t : State} (h : s.Paced t) : t.zeroEngine = s.zeroEngine := by
  funext e
  unfold State.zeroEngine State.startDwell State.cancelDwell State.endDwell State.stepStart State.after
  rw [h.1, h.2]

theorem State.Paced.moveTo {s t : State} (h : s.Paced t) : t.moveTo = s.moveTo := by
  funext e x
  unfold State.moveTo
  rw [h.zeroEngine]

theorem State.Paced.slewEngine {s t : State} (h : s.Paced t) : t.slewEngine = s.slewEngine := by
  funext d e
  unfold State.slewEngine State.startDwell State.cancelDwell State.endDwell State.stepStart State.after
  rw [h.1, h.2]

theorem State.endDwell_setpoint (s : State) (e : Engine) : (s.endDwell e).setpoint = e.setpoint := by
  unfold State.endDwell; split <;> rfl

theorem State.startDwell_setpoint (s : State) (e : Engine) : (s.startDwell e).setpoint = e.setpoint := by
  unfold State.startDwell
  split
  · exact s.endDwell_setpoint e
  · rfl

theorem State.zeroEngine_setpoint (s : State) (e : Engine) : (s.zeroEngine e).setpoint = 0 := by
  unfold State.zeroEngine
  dsimp only
  split
  · rfl
  · exact s.startDwell_setpoint _

theorem State.zeroEngine_basis (s : State) (e : Engine) : (s.zeroEngine e).basis = e.basis := by
  unfold State.zeroEngine
  dsimp only
  split
  · rfl
  · exact s.startDwell_basis _

theorem State.moveTo_setpoint (s : State) (e : Engine) (x : Int) : (s.moveTo e x).setpoint = x := by
  unfold State.moveTo
  split
  · next h => rw [h.1]; exact s.zeroEngine_setpoint e
  · rfl

theorem State.moveTo_self (s : State) (e : Engine) : s.moveTo e e.setpoint = e :=
  if_neg fun h => h.2 h.1

theorem State.slewEngine_setpoint (s : State) (d e : Engine) : (s.slewEngine d e).setpoint = e.setpoint := by
  unfold State.slewEngine
  split
  · split <;> rfl
  · split
    · exact s.startDwell_setpoint e
    · split
      · rfl
      · split
        · rfl
        · split <;> rfl

/-! ### One engine in a recompute -/

theorem State.cutEngine_paced (s : State) (i : Fin 6) : s.Paced (s.cutEngine i) :=
  (s.cutEngine_worked i).within.paced

theorem State.cutEngine_within {s : State} {i : Fin 6} (e : s.prop.engines[i].cutValue = s.prop.engines[i].setpoint) :
    s.cutEngine i = s :=
  if_pos e

theorem State.cutEngine_cut {s : State} {i : Fin 6} (e : s.prop.engines[i].cutValue ≠ s.prop.engines[i].setpoint) :
    s.cutEngine i = (s.modEngine i fun x => s.moveTo x x.cutValue).placeSetpoint i :=
  if_neg e

/-- The cut of one engine moves it to its cut value, and no other (R35). -/
theorem State.cutEngine_engine (s : State) (i j : Fin 6) : (s.cutEngine i).prop.engines[j] =
    if i = j then s.moveTo s.prop.engines[j] s.prop.engines[j].cutValue else s.prop.engines[j] := by
  by_cases e : s.prop.engines[i].cutValue = s.prop.engines[i].setpoint
  · rw [State.cutEngine_within e]
    split
    · next h => subst h; exact (s.moveTo_self _).symm.trans (congrArg _ e.symm)
    · rfl
  · rw [State.cutEngine_cut e, (State.placeSetpoint_slotted _ i).prop, State.modEngine_engine]
    split
    · next h => subst h; rfl
    · rfl

theorem State.cutEngines_engine (s : State) (i : Fin 6) :
    s.cutEngines.prop.engines[i] = s.moveTo s.prop.engines[i] s.prop.engines[i].cutValue := by
  unfold State.cutEngines
  rw [foldl_entries (fun u => u.prop.engines) State.cutEngine (fun e => s.moveTo e e.cutValue) s.Paced
    (fun u k p => p.trans (u.cutEngine_paced k)) (fun u k p j => by rw [u.cutEngine_engine k j, p.moveTo])
    _ (List.nodup_finRange 6) s (.refl s) i, if_pos (List.mem_finRange i)]

theorem State.slewEngines_engine (s : State) (old : Table Engine 6) (i : Fin 6) :
    (s.slewEngines old).prop.engines[i] = s.slewEngine old[i] s.prop.engines[i] :=
  ofTable_get _ i

theorem State.noteUnmet_noted (s : State) : Noted s s.noteUnmet := by
  unfold State.noteUnmet
  split
  · exact s.latch_noted _ _
  · exact Noted.refl s

/-- An engine with its ceilings and its target formed, as a recompute leaves it before the cuts. -/
def State.formedEngine (s : State) (i : Fin 6) : Engine :=
  s.formEngines.share.prop.engines[i]

/-- An engine formed and cut. -/
def State.cutFormed (s : State) (i : Fin 6) : Engine :=
  s.moveTo (s.formedEngine i) (s.formedEngine i).cutValue

/-! ### The mapping onto the actuators (R52 to R55) -/

/-- An actuator with its ordered value formed again; an ABSENT one is as it was. -/
def State.remapped (s : State) (a : Actuator) : Actuator :=
  if a.state = .absent then a else { a with ordered := s.orderedFor a.entry }

theorem State.remapped_of_idle {s : State} {a : Actuator} (h : a.state = .absent ∨ s.orderedFor a.entry = a.ordered) :
    s.remapped a = a := by
  by_cases n : a.state = .absent
  · exact if_pos n
  · refine (if_neg n).trans ?_
    rw [h.resolve_left n]

theorem State.modActuator_actuator (s : State) (i j : Fin 5) (f : Actuator → Actuator) :
    (s.modActuator i f).steer.actuators[j] = if i = j then f s.steer.actuators[i] else s.steer.actuators[j] :=
  modTable_get s.steer.actuators i j f

theorem State.remapActuator_idle {s : State} {i : Fin 5} (h : s.steer.actuators[i].state = .absent ∨
    s.orderedFor s.steer.actuators[i].entry = s.steer.actuators[i].ordered) : s.remapActuator i = s :=
  if_pos h

theorem State.remapActuator_moves {s : State} {i : Fin 5} (h : ¬ (s.steer.actuators[i].state = .absent ∨
    s.orderedFor s.steer.actuators[i].entry = s.steer.actuators[i].ordered)) :
    s.remapActuator i =
      (s.modActuator i fun x => { x with ordered := s.orderedFor s.steer.actuators[i].entry }).placeOrdered i :=
  if_neg h

/-- A remapping leaves propulsion and the demands, and forms the ordered value of its actuator (R52, R55). -/
theorem State.remapActuator_same (s : State) (i : Fin 5) : (s.remapActuator i).prop = s.prop ∧
    (s.remapActuator i).steer = { s.steer with actuators := (s.remapActuator i).steer.actuators } := by
  by_cases h : s.steer.actuators[i].state = .absent ∨
      s.orderedFor s.steer.actuators[i].entry = s.steer.actuators[i].ordered
  · rw [State.remapActuator_idle h]
    exact ⟨rfl, rfl⟩
  · rw [State.remapActuator_moves h, (State.placeOrdered_slotted _ i).prop, (State.placeOrdered_slotted _ i).steer]
    exact ⟨rfl, rfl⟩

theorem State.remapActuator_actuator (s : State) (i j : Fin 5) : (s.remapActuator i).steer.actuators[j] =
    if i = j then s.remapped s.steer.actuators[j] else s.steer.actuators[j] := by
  by_cases h : s.steer.actuators[i].state = .absent ∨
      s.orderedFor s.steer.actuators[i].entry = s.steer.actuators[i].ordered
  · rw [State.remapActuator_idle h]
    split
    · next e => subst e; exact (State.remapped_of_idle h).symm
    · rfl
  · rw [State.remapActuator_moves h, (State.placeOrdered_slotted _ i).steer, State.modActuator_actuator]
    split
    · next e => subst e; exact (if_neg (not_or.1 h).1).symm
    · rfl

/-- What the ordered values are formed from: the wash directions and the demands. -/
def State.Demanded (s t : State) : Prop :=
  t.prop = s.prop ∧ t.steer = { s.steer with actuators := t.steer.actuators }

theorem State.Demanded.trans {s t u : State} (h : s.Demanded t) (k : t.Demanded u) : s.Demanded u := by
  refine ⟨k.1.trans h.1, ?_⟩
  have a := h.2
  have b := k.2
  rw [a] at b
  exact b

theorem State.Demanded.orderedFor {s t : State} (h : s.Demanded t) : t.orderedFor = s.orderedFor := by
  funext e
  unfold State.orderedFor
  rw [h.1, h.2]
  rfl

/-- A remapping of the actuators that a test on the entry picks. -/
def State.remapWhere (p : ActuatorEntry → Bool) (s : State) : State :=
  (List.finRange 5).foldl (fun s i => if p s.steer.actuators[i].entry then s.remapActuator i else s) s

theorem State.remapWhere_demanded (p : ActuatorEntry → Bool) (s : State) : s.Demanded (s.remapWhere p) := by
  refine foldl_keeps _ s.Demanded (fun u i h => ?_) _ s ⟨rfl, rfl⟩
  split
  · exact h.trans (u.remapActuator_same i)
  · exact h

theorem State.remapWhere_actuator (p : ActuatorEntry → Bool) (s : State) (j : Fin 5) :
    (s.remapWhere p).steer.actuators[j] =
      if p s.steer.actuators[j].entry then s.remapped s.steer.actuators[j] else s.steer.actuators[j] := by
  unfold State.remapWhere
  rw [foldl_entries (fun u => u.steer.actuators) _ (fun a => if p a.entry then s.remapped a else a) s.Demanded
    (fun u i h => ?_) (fun u i h k => ?_) _ (List.nodup_finRange 5) s ⟨rfl, rfl⟩ j, if_pos (List.mem_finRange j)]
  · split
    · exact h.trans (u.remapActuator_same i)
    · exact h
  · have e : u.remapped = s.remapped := by
      funext a; unfold State.remapped; rw [h.orderedFor]
    split
    · next q =>
      rw [u.remapActuator_actuator, e]
      split
      · next m => subst m; exact (if_pos q).symm
      · rfl
    · next q =>
      split
      · next m => subst m; exact (if_neg q).symm
      · rfl

theorem State.remapBoat_eq (s : State) (b : Boat) : s.remapBoat b = s.remapWhere fun e => decide (e.washBoat = b) := by
  unfold State.remapBoat State.remapWhere
  simp only [decide_eq_true_eq]

theorem State.remapAll_eq (s : State) : s.remapAll = s.remapWhere fun _ => true := by
  unfold State.remapAll State.remapWhere
  simp only [if_true]

/-! ### The ordered values -/

/-- The ordered value of every actuator, not ABSENT, is as the demands and the wash directions have it (R52 to R55). -/
def State.Ordered (s : State) : Prop :=
  ∀ a : Fin 5, s.steer.actuators[a].state ≠ .absent → s.steer.actuators[a].ordered = s.mapped s.steer.actuators[a]

theorem State.mapped_eq (s : State) (a : Actuator) : s.mapped a = s.orderedFor a.entry := by
  unfold State.mapped State.orderedFor Steering.orderedFor mapRudder ActuatorEntry.gain ActuatorEntry.washBoat clamp
  dsimp only
  split
  · rfl
  · generalize s.prop.wash.get (if a.entry.kind = ActuatorKind.bowUnit then Boat.b1 else a.entry.boat) = w
    cases w <;> rfl

theorem State.ordered_iff (s : State) : s.Ordered ↔ ∀ a : Fin 5, s.remapped s.steer.actuators[a] = s.steer.actuators[a] := by
  refine forall_congr' fun a => ?_
  rw [State.mapped_eq]
  unfold State.remapped
  split
  · next h => exact iff_of_true (fun n => absurd h n) rfl
  · next h =>
    refine ⟨fun e => ?_, fun e _ => ?_⟩
    · rw [← e h]
    · exact (congrArg Actuator.ordered e).symm

theorem State.remapped_idem (s : State) (a : Actuator) : s.remapped (s.remapped a) = s.remapped a := by
  by_cases h : a.state = .absent
  · rw [State.remapped_of_idle (.inl h), State.remapped_of_idle (.inl h)]
  · exact State.remapped_of_idle (.inr (by unfold State.remapped; rw [if_neg h]))

theorem State.Demanded.remapped {s t : State} (h : s.Demanded t) : t.remapped = s.remapped := by
  funext a; unfold State.remapped; rw [h.orderedFor]

/-- A remapping of all actuators orders them, whatever they were (R52). -/
theorem State.remapAll_ordered (s : State) : s.remapAll.Ordered := by
  rw [State.remapAll_eq, State.ordered_iff]
  intro a
  rw [(s.remapWhere_demanded _).remapped, State.remapWhere_actuator, if_pos rfl, State.remapped_idem]

/-! ### The review of the wash directions and the boat-at-zero conditions (R45, R46) -/

theorem PerBoat.set_get_self {α : Type} (v : PerBoat α) (b : Boat) : v.set b (v.get b) = v := by
  cases b <;> rfl

/-- The review of a wash direction leaves all of propulsion but the direction of its boat, which is then by R45. -/
theorem State.reviewBoatWash_prop (s : State) (b : Boat) : (s.reviewBoatWash b).prop =
    { s.prop with wash := s.prop.wash.set b (washOf s.prop.engines b) } := by
  unfold State.reviewBoatWash
  split
  · next h => rw [h, PerBoat.set_get_self]
  · rw [State.remapBoat_eq, (State.remapWhere_demanded _ _).1]

theorem State.reviewBoatWash_steer (s : State) (b : Boat) : (s.reviewBoatWash b).steer =
    { s.steer with actuators := (s.reviewBoatWash b).steer.actuators } := by
  unfold State.reviewBoatWash
  split
  · rfl
  · rw [State.remapBoat_eq]
    exact (State.remapWhere_demanded _ _).2

/-- The actuators of the other boat answer another wash direction (R55). -/
theorem State.orderedFor_wash (s : State) (b : Boat) (w : Wash) {e : ActuatorEntry} (h : e.washBoat ≠ b) :
    ({ s with prop := { s.prop with wash := s.prop.wash.set b w } } : State).orderedFor e = s.orderedFor e := by
  unfold State.orderedFor
  dsimp only
  rw [PerBoat.get_set, if_neg h.symm]

theorem State.reviewBoatWash_ordered (s : State) (b : Boat) (h : s.Ordered) : (s.reviewBoatWash b).Ordered := by
  unfold State.reviewBoatWash
  split
  · exact h
  · generalize hu : ({ s with prop := { s.prop with wash := s.prop.wash.set b (washOf s.prop.engines b) } } : State) = u
    have other : ∀ a : Actuator, a.entry.washBoat ≠ b → u.remapped a = s.remapped a := fun a n => by
      subst hu
      unfold State.remapped
      rw [State.orderedFor_wash _ _ _ n]
    have same : u.steer.actuators = s.steer.actuators := by subst hu; rfl
    rw [State.ordered_iff] at h ⊢
    intro a
    rw [State.remapBoat_eq, (u.remapWhere_demanded _).remapped, State.remapWhere_actuator, same]
    by_cases q : s.steer.actuators[a].entry.washBoat = b
    · rw [if_pos (decide_eq_true q), State.remapped_idem]
    · rw [if_neg (by simpa using q), other _ q, h a]

theorem State.holdRelease_same (s : State) (b : BoatSet) :
    (s.holdRelease b).prop = s.prop ∧ (s.holdRelease b).steer = s.steer := by
  unfold State.holdRelease
  split
  · split
    · split
      · exact ⟨(s.holdSlot_slotted _).prop, (s.holdSlot_slotted _).steer⟩
      · exact ⟨rfl, rfl⟩
    · exact ⟨rfl, rfl⟩
  · exact ⟨rfl, rfl⟩

/-- The boat-at-zero condition of one set written. -/
def Propulsion.withZero (x : Propulsion) (set : BoatSet) (z : Bool) : Propulsion :=
  match set with
  | .boat1 => { x with zero := { x.zero with b1 := z } }
  | .boat2 => { x with zero := { x.zero with b2 := z } }
  | .all => { x with zeroAll := z }

theorem Propulsion.withZero_self (x : Propulsion) (set : BoatSet) : x.withZero set (x.zeroOf set) = x := by
  cases set <;> rfl

/-- The review of a boat-at-zero condition leaves all of propulsion but the condition, which is then by R46. -/
theorem State.reviewZeroOf_same (s : State) (b : BoatSet) :
    (s.reviewZeroOf b).prop = s.prop.withZero b (atZero s.prop.engines b) ∧ (s.reviewZeroOf b).steer = s.steer := by
  unfold State.reviewZeroOf
  dsimp only
  split
  · next h => rw [h, Propulsion.withZero_self]; exact ⟨rfl, rfl⟩
  · cases b
    all_goals
      split
      · exact ⟨rfl, rfl⟩
      · exact ⟨(State.holdRelease_same _ _).1, (State.holdRelease_same _ _).2⟩

theorem State.reviewZero_prop (s : State) : s.reviewZero.prop = { s.prop with
    zero := { b1 := atZero s.prop.engines .boat1, b2 := atZero s.prop.engines .boat2 }
    zeroAll := atZero s.prop.engines .all } := by
  unfold State.reviewZero
  rw [(State.reviewZeroOf_same _ _).1, (State.reviewZeroOf_same _ _).1, (State.reviewZeroOf_same _ _).1]
  rfl

theorem State.reviewZero_steer (s : State) : s.reviewZero.steer = s.steer := by
  unfold State.reviewZero
  rw [(State.reviewZeroOf_same _ _).2, (State.reviewZeroOf_same _ _).2, (State.reviewZeroOf_same _ _).2]

theorem State.reviewWash_prop (s : State) : s.reviewWash.prop = { s.prop with
    wash := { b1 := washOf s.prop.engines .b1, b2 := washOf s.prop.engines .b2 } } := by
  unfold State.reviewWash
  rw [State.reviewBoatWash_prop, State.reviewBoatWash_prop]
  rfl

theorem State.reviewWash_ordered (s : State) (h : s.Ordered) : s.reviewWash.Ordered :=
  State.reviewBoatWash_ordered _ _ (s.reviewBoatWash_ordered _ h)

/-- Neither review touches an engine. -/
theorem State.review_engines (s : State) : s.reviewWash.reviewZero.prop.engines = s.prop.engines := by
  rw [State.reviewZero_prop, State.reviewWash_prop]

theorem washOf_eq (t : Table Engine 6) (b : Boat) : washOf t b =
    if 0 ≤ sum6 (fun i => if t[i].state = .running ∧ t[i].entry.boat = b then t[i].setpoint else 0) then .ahead
    else .astern := by
  unfold washOf
  rw [sumEngines_eq]

theorem Engine.pulls_iff (e : Engine) (x : BoatSet) : (!(x.has e.entry.boat && e.pulls)) = true ↔
    (x.has e.entry.boat = true → e.state = .running → e.setpoint = 0 ∧ e.load.natAbs ≤ e.entry.idleBand) := by
  unfold Engine.pulls
  cases x.has e.entry.boat <;> simp [imp_iff_not_or]

theorem atZero_iff (t : Table Engine 6) (x : BoatSet) : atZero t x = true ↔
    ∀ i : Fin 6, x.has t[i].entry.boat = true → t[i].state = .running →
      t[i].setpoint = 0 ∧ t[i].load.natAbs ≤ t[i].entry.idleBand := by
  unfold atZero
  rw [toList_eq_finRange, List.all_map, List.all_eq_true]
  refine ⟨fun h i => (Engine.pulls_iff t[i] x).1 (h i (List.mem_finRange i)), fun h i _ => (Engine.pulls_iff t[i] x).2 (h i)⟩

/-- The wash directions and boat-at-zero conditions written from the engines are as R45 and R46 have them. -/
theorem State.washSound_of {s : State} (wash : ∀ b, s.prop.wash.get b = washOf s.prop.engines b)
    (zero : ∀ x, s.prop.zeroOf x = atZero s.prop.engines x) (h : s.Ordered) : s.WashSound where
  wash b := by rw [wash, washOf_eq]
  zero x := by rw [zero, atZero_iff]
  ordered := h

theorem State.WashSound.wash_eq {s : State} (h : s.WashSound) (b : Boat) :
    s.prop.wash.get b = washOf s.prop.engines b := by
  rw [h.wash, washOf_eq]

theorem State.WashSound.zero_eq {s : State} (h : s.WashSound) (x : BoatSet) :
    s.prop.zeroOf x = atZero s.prop.engines x :=
  Bool.eq_iff_iff.2 ((h.zero x).trans (atZero_iff _ x).symm)

/-- Ordered values are as the part of a state that they and their sources make up. -/
theorem State.Ordered.ofSame {s t : State} (h : s.Ordered) (wash : t.prop.wash = s.prop.wash)
    (steer : t.steer = s.steer) : t.Ordered := by
  have e : t.remapped = s.remapped := by
    funext a
    unfold State.remapped State.orderedFor
    rw [wash, steer]
  rw [State.ordered_iff, e, steer]
  exact s.ordered_iff.1 h

/-- After both reviews the wash directions, the boat-at-zero conditions and the ordered values are sound, where the
ordered values were (R45, R46, R55). -/
theorem State.review_washSound (s : State) (h : s.Ordered) : s.reviewWash.reviewZero.WashSound := by
  refine State.washSound_of (fun b => ?_) (fun x => ?_) ?_
  · rw [State.review_engines, State.reviewZero_prop, State.reviewWash_prop]
    cases b <;> rfl
  · rw [State.review_engines, State.reviewZero_prop, State.reviewWash_prop]
    cases x <;> rfl
  · exact (s.reviewWash_ordered h).ofSame (by rw [State.reviewZero_prop]) (State.reviewZero_steer _)

/-! ### The recompute -/

/-- A state after the forming, the cuts and the slewing of a recompute, before its reviews (R29). -/
def State.reslewed (s : State) : State :=
  s.formEngines.share.noteUnmet.cutEngines.slewEngines s.prop.engines

theorem State.recompute_eq (s : State) : s.recompute = s.reslewed.reviewWash.reviewZero := rfl

theorem State.reslewed_within (s : State) : Within .propulsion s s.reslewed :=
  ((((s.formEngines_worked.trans (State.share_worked _)).trans (State.noteUnmet_worked _ _)).trans
    (State.cutEngines_worked _)).trans (State.slewEngines_worked _ _)).within

/-- One engine in a recompute: formed, cut and slewed (R24 to R36). -/
theorem State.recompute_engine (s : State) (i : Fin 6) :
    s.recompute.prop.engines[i] = s.slewEngine s.prop.engines[i] (s.cutFormed i) := by
  have formed : s.Paced s.formEngines.share.noteUnmet :=
    ((s.formEngines_worked.trans (State.share_worked _)).trans (State.noteUnmet_worked _ _)).within.paced
  have cut : s.Paced s.formEngines.share.noteUnmet.cutEngines :=
    formed.trans (State.cutEngines_worked _).within.paced
  rw [State.recompute_eq, State.review_engines]
  unfold State.reslewed
  rw [State.slewEngines_engine, State.cutEngines_engine, formed.moveTo, cut.slewEngine, (State.noteUnmet_noted _).prop]
  rfl

theorem State.recompute_setpoint (s : State) (i : Fin 6) :
    s.recompute.prop.engines[i].setpoint = (s.formedEngine i).cutValue := by
  rw [State.recompute_engine, State.slewEngine_setpoint]
  exact s.moveTo_setpoint _ _

/-- But for its slewing an engine is left by a recompute as the forming leaves it. -/
theorem State.recompute_engine_basis (s : State) (i : Fin 6) :
    s.recompute.prop.engines[i].basis = (s.formedEngine i).basis := by
  rw [State.recompute_engine, State.slewEngine_basis]
  exact s.moveTo_basis _ _

theorem State.cutEngines_same (s : State) : s.cutEngines.steer = s.steer ∧ s.cutEngines.prop.wash = s.prop.wash := by
  unfold State.cutEngines
  refine foldl_keeps State.cutEngine (fun u => u.steer = s.steer ∧ u.prop.wash = s.prop.wash) (fun u i h => ?_) _ s
    ⟨rfl, rfl⟩
  by_cases e : u.prop.engines[i].cutValue = u.prop.engines[i].setpoint
  · rw [State.cutEngine_within e]
    exact h
  · rw [State.cutEngine_cut e, (State.placeSetpoint_slotted _ i).steer, (State.placeSetpoint_slotted _ i).prop]
    exact h

theorem State.reslewed_same (s : State) : s.reslewed.steer = s.steer ∧ s.reslewed.prop.wash = s.prop.wash := by
  obtain ⟨steer, wash⟩ := s.formEngines.share.noteUnmet.cutEngines_same
  rw [(State.noteUnmet_noted _).steer] at steer
  rw [(State.noteUnmet_noted _).prop] at wash
  unfold State.reslewed
  generalize s.formEngines.share.noteUnmet.cutEngines = u at steer wash ⊢
  exact ⟨steer, wash⟩

theorem State.recompute_washSound (s : State) (h : s.Ordered) : s.recompute.WashSound := by
  rw [State.recompute_eq]
  exact State.review_washSound _ (h.ofSame s.reslewed_same.2 s.reslewed_same.1)

/-! ### What the forming leaves of an engine -/

theorem State.formedEngine_eq (s : State) (i : Fin 6) : s.formedEngine i = { s.reformEngine s.prop.engines[i] with
    target := (s.reformEngine s.prop.engines[i]).targetFor s.formEngines.prop.engines
      ((s.prop.power * s.prop.nominal).tdiv 1000) s.diffInForce } := by
  unfold State.formedEngine
  rw [State.share_engine, State.formEngines_engine]
  rfl

/-- The forming of the ceilings and the target leaves the entry, state, health level, load and slewing of an engine. -/
theorem State.formedEngine_kept (s : State) (i : Fin 6) :
    s.prop.engines[i].Kept (s.formedEngine i) ∧ (s.formedEngine i).setpoint = s.prop.engines[i].setpoint ∧
      (s.formedEngine i).lastSign = s.prop.engines[i].lastSign ∧ (s.formedEngine i).slew = s.prop.engines[i].slew ∧
      (s.formedEngine i).stepAt = s.prop.engines[i].stepAt ∧ (s.formedEngine i).dwellAt = s.prop.engines[i].dwellAt := by
  rw [State.formedEngine_eq]
  obtain ⟨_, _, _, _, _, _, _, _, e, _⟩ := s.reformEngine_keeps s.prop.engines[i]
  rw [e]
  exact ⟨⟨rfl, rfl, rfl, rfl⟩, rfl, rfl, rfl, rfl, rfl⟩

theorem Engine.targetFor_bound (e : Engine) (t : Table Engine 6) (d k : Int) :
    -(e.compositeAstern : Int) ≤ e.targetFor t d k ∧ e.targetFor t d k ≤ e.compositeAhead := by
  unfold Engine.targetFor
  dsimp only
  split
  · unfold Engine.bound clamp; omega
  · omega

theorem State.formedEngine_target (s : State) (i : Fin 6) :
    -((s.formedEngine i).compositeAstern : Int) ≤ (s.formedEngine i).target ∧
      (s.formedEngine i).target ≤ (s.formedEngine i).compositeAhead ∧
      (s.prop.engines[i].state ≠ .running → (s.formedEngine i).target = 0) := by
  rw [State.formedEngine_eq]
  refine ⟨(Engine.targetFor_bound _ _ _ _).1, (Engine.targetFor_bound _ _ _ _).2, fun n => ?_⟩
  exact if_neg (by rw [State.reformEngine_state]; exact n)

/-- A cut value lies within the composite range, nearest to the setpoint (R35). -/
theorem Engine.cutValue_bound (e : Engine) :
    -(e.compositeAstern : Int) ≤ e.cutValue ∧ e.cutValue ≤ e.compositeAhead ∧
      (0 ≤ e.setpoint → e.cutValue = min e.setpoint e.compositeAhead) ∧
      (e.setpoint ≤ 0 → e.cutValue = max e.setpoint (-(e.compositeAstern : Int))) := by
  unfold Engine.cutValue
  split
  · omega
  · split <;> omega

/-- An engine that is not RUNNING has its issued setpoint at 0 (R22). -/
def State.Stopped (s : State) : Prop :=
  ∀ i : Fin 6, s.prop.engines[i].state ≠ .running → s.prop.engines[i].setpoint = 0

/-- A recompute brings targets and setpoints within the composite ranges (R23, R33, R35). -/
theorem State.recompute_enginesSound (s : State) (h : s.Stopped) : s.recompute.EnginesSound := by
  intro i
  have b := s.recompute_engine_basis i
  have target := Engine.basis_field b Engine.target
  have ahead := Engine.basis_field b Engine.compositeAhead
  have astern := Engine.basis_field b Engine.compositeAstern
  have state := Engine.basis_field b Engine.state
  obtain ⟨low, high, idle⟩ := s.formedEngine_target i
  obtain ⟨cutLow, cutHigh, cutAhead, _⟩ := (s.formedEngine i).cutValue_bound
  obtain ⟨kept, setpoint, _⟩ := s.formedEngine_kept i
  refine ⟨?_, ?_, fun n => ?_⟩
  · rw [target, ahead, astern]; exact ⟨low, high⟩
  · rw [s.recompute_setpoint, ahead, astern]; exact ⟨cutLow, cutHigh⟩
  · rw [state, kept.state] at n
    have zero := h i n
    rw [target, s.recompute_setpoint]
    refine ⟨idle n, ?_⟩
    rw [cutAhead (by omega), setpoint, zero]
    omega

end Sys2Proof.Machine

end


-- ==== Sys2Proof/Proofs/Coordination.lean ====
section
/-! PROOF. Proofs/Coordination.lean: that the engines stay in range, the forced steer-assist field, the wash with the ordered
values, the targets and N stay as their sources have them, through the work of every block (R23 to R33, R45, R46, R52
to R55, R65). `Coordinated s t` says so of the change from `s` to `t`; `Unforced` leaves the forced steer-assist field
open, up to its review; `Prepared` asks only what a recompute cannot form anew. -/

namespace Sys2Proof.Machine

/-! ### What the properties are about -/

/-- All that the properties of propulsion and steering are about. -/
structure Coordination where
  profile : Profile
  prop : Propulsion
  steer : Steering
  applied : PerBoat Nat
  reserve : Bool
  low : Fin 8 → Nat

def State.coordination (s : State) : Coordination where
  profile := s.profile
  prop := s.prop
  steer := s.steer
  applied := s.tow.applied
  reserve := s.fuel.leg.reserve
  low k := if s.fuel.tanks[k].low then s.fuel.tanks[k].entry.lowCeiling else 1000

theorem State.TargetsFormed.coordinated {s t : State} (h : s.TargetsFormed) (e : t.coordination = s.coordination) :
    t.TargetsFormed := by
  have profile : t.helm.modes[t.helm.mode] = s.helm.modes[s.helm.mode] := congrArg Coordination.profile e
  have prop : t.prop = s.prop := congrArg Coordination.prop e
  have steer : t.steer = s.steer := congrArg Coordination.steer e
  have applied : t.tow.applied = s.tow.applied := congrArg Coordination.applied e
  have reserve : t.fuel.leg.reserve = s.fuel.leg.reserve := congrArg Coordination.reserve e
  have low := congrArg Coordination.low e
  refine ⟨fun i => ?_, fun i n => ?_, ?_⟩
  · have k := h.components i
    rw [prop]
    refine ⟨?_, ?_, k.health, ?_, ?_, ?_⟩
    · rw [profile]; exact k.modeAhead
    · rw [profile]; exact k.modeAstern
    · rw [applied]; exact k.tow
    · rw [reserve, profile]; exact k.economy
    · rw [k.tankLow]
      cases s.prop.engines[i].entry.serviceTank with
      | none => rfl
      | some k => exact (congrFun low k).symm
  · rw [prop] at n ⊢
    exact h.composites i n
  · have k := h.shared
    unfold State.DemandShared at k ⊢
    simp only [prop, steer, profile]
    exact k

theorem State.NominalFormed.ofProp {s t : State} (h : s.NominalFormed) (prop : t.prop = s.prop) : t.NominalFormed := by
  unfold State.NominalFormed at h ⊢
  rw [prop]
  exact h

theorem State.WashSound.ofSame {s t : State} (h : s.WashSound) (prop : t.prop = s.prop) (steer : t.steer = s.steer) :
    t.WashSound := by
  refine State.washSound_of (fun b => ?_) (fun x => ?_) (State.Ordered.ofSame h.ordered (by rw [prop]) steer)
  · rw [prop]; exact h.wash_eq b
  · rw [prop]; exact h.zero_eq x

theorem State.EnginesSound.stopped {s : State} (h : s.EnginesSound) : s.Stopped :=
  fun i n => ((h i).stopped n).2

/-! ### Changes that keep them -/

/-- What a change keeps, the forced steer-assist field apart. -/
structure Unforced (s t : State) : Prop where
  engines : s.EnginesSound → t.EnginesSound
  wash : s.WashSound → t.WashSound
  targets : s.TargetsFormed → t.TargetsFormed
  nominal : s.NominalFormed → t.NominalFormed

/-- What a change keeps. -/
structure Coordinated (s t : State) : Prop extends Unforced s t where
  forced : s.ForcedSound → t.ForcedSound

/-- What a change keeps that a recompute does not form anew. -/
structure Prepared (s t : State) : Prop where
  stopped : s.Stopped → t.Stopped
  forced : s.ForcedSound → t.ForcedSound
  ordered : s.Ordered → t.Ordered
  nominal : s.NominalFormed → t.NominalFormed

theorem Unforced.trans {s t u : State} (h : Unforced s t) (k : Unforced t u) : Unforced s u :=
  ⟨k.engines ∘ h.engines, k.wash ∘ h.wash, k.targets ∘ h.targets, k.nominal ∘ h.nominal⟩

theorem Coordinated.trans {s t u : State} (h : Coordinated s t) (k : Coordinated t u) : Coordinated s u :=
  ⟨h.toUnforced.trans k.toUnforced, k.forced ∘ h.forced⟩

theorem Prepared.trans {s t u : State} (h : Prepared s t) (k : Prepared t u) : Prepared s u :=
  ⟨k.stopped ∘ h.stopped, k.forced ∘ h.forced, k.ordered ∘ h.ordered, k.nominal ∘ h.nominal⟩

/-- A change of other things keeps all of it. -/
theorem Coordinated.ofSame {s t : State} (e : t.coordination = s.coordination) : Coordinated s t := by
  have prop : t.prop = s.prop := congrArg Coordination.prop e
  have steer : t.steer = s.steer := congrArg Coordination.steer e
  refine ⟨⟨fun h => ?_, fun h => h.ofSame prop steer, fun h => h.coordinated e, fun h => h.ofProp prop⟩,
    fun h => h.ofSame (congrArg Coordination.profile e) steer⟩
  unfold State.EnginesSound
  rw [prop]
  exact h

/-- A change that keeps the engines, N, the wash directions and all that steering holds prepares a recompute. -/
theorem Prepared.ofEngines {s t : State} (profile : t.profile = s.profile)
    (engines : t.prop.engines = s.prop.engines) (nominal : t.prop.nominal = s.prop.nominal)
    (wash : t.prop.wash = s.prop.wash) (steer : t.steer = s.steer) : Prepared s t where
  stopped h := by unfold State.Stopped; rw [engines]; exact h
  forced h := h.ofSame profile steer
  ordered h := h.ofSame wash steer
  nominal h := by unfold State.NominalFormed at h ⊢; rw [engines, nominal]; exact h

/-- A change of the sources alone prepares a recompute. -/
theorem Prepared.ofSame {s t : State} (profile : t.profile = s.profile) (prop : t.prop = s.prop)
    (steer : t.steer = s.steer) : Prepared s t :=
  .ofEngines profile (by rw [prop]) (by rw [prop]) (by rw [prop]) steer

theorem Coordinated.refl (s : State) : Coordinated s s :=
  .ofSame rfl

theorem Prepared.foldl {α : Type} (f : State → α → State) (h : ∀ s a, Prepared s (f s a)) (l : List α) (s : State) :
    Prepared s (l.foldl f s) := by
  induction l generalizing s with
  | nil => exact .ofSame rfl rfl rfl
  | cons a l ih => exact (h s a).trans (ih _)

theorem Coordinated.foldl {α : Type} (f : State → α → State) (h : ∀ s a, Coordinated s (f s a)) (l : List α)
    (s : State) : Coordinated s (l.foldl f s) := by
  induction l generalizing s with
  | nil => exact .refl s
  | cons a l ih => exact (h s a).trans (ih _)

theorem Within.nominal {x : Level} {s t : State} (w : Within x s t) (h : s.NominalFormed)
    (l : x.rank < 3 := by decide) : t.NominalFormed := by
  unfold State.NominalFormed at h ⊢
  simp only [w.written.nominal, w.written.engines, ((w.units l).engines _).1]
  exact h

/-- A recompute forms the rest (R29). -/
theorem Prepared.recompute {s t : State} (h : Prepared s t) : Coordinated s t.recompute where
  engines k := t.recompute_enginesSound (h.stopped k.stopped)
  wash k := t.recompute_washSound (h.ordered k.ordered)
  targets _ := t.recompute_targets
  nominal k := t.recompute_worked.within.nominal (h.nominal k)
  forced k := t.recompute_worked.within.forcedSound (h.forced k)

theorem State.recompute_coordinated (s : State) : Coordinated s s.recompute :=
  (Prepared.ofSame rfl rfl rfl).recompute

theorem State.setForced_ordered {s : State} (h : s.Ordered) : s.setForced.Ordered := h

/-- The forced steer-assist field reviewed (R65). -/
theorem Unforced.reviewForced {s t : State} (h : Unforced s t) : Coordinated s t.reviewForced := by
  unfold State.reviewForced
  split
  · next e =>
    refine ⟨h, fun _ => ?_⟩
    unfold State.ForcedSound
    rw [← e]
    exact t.forcedHolds_iff
  · exact ⟨⟨fun k => State.recompute_enginesSound t.setForced (h.engines k).stopped,
      fun k => State.recompute_washSound _ (State.setForced_ordered (h.wash k).ordered), fun _ => State.recompute_targets _,
      fun k => (State.recompute_worked _).within.nominal (s := t.setForced) ((h.nominal k).ofProp rfl)⟩,
      fun _ => (State.recompute_worked _).within.forcedSound t.setForced_forced⟩

/-! ### Notices, slots, nodes and couplings -/

theorem Noted.coordinated {s t : State} (h : Noted s t) : Coordinated s t :=
  .ofSame (by rw [h.same]; rfl)

theorem Slotted.coordinated {s t : State} (h : Slotted s t) : Coordinated s t :=
  .ofSame (by rw [h.same]; rfl)

theorem Slotted.prepared {s t : State} (h : Slotted s t) : Prepared s t :=
  .ofSame (State.profile_congr h.helm) h.prop h.steer

theorem Noted.prepared {s t : State} (h : Noted s t) : Prepared s t :=
  .ofSame (State.profile_congr h.helm) h.prop h.steer

theorem State.latch_coordinated (s : State) (k : NoticeKind) (x : Byte) : Coordinated s (s.latch k x) :=
  (s.latch_noted k x).coordinated

theorem State.latchWhere_coordinated (s : State) (p : Prop) [Decidable p] (k : NoticeKind) (x : Byte) :
    Coordinated s (if p then s.latch k x else s) := by
  split
  · exact s.latch_coordinated k x
  · exact .refl s

theorem State.latchWhere_prepared (s : State) (p : Prop) [Decidable p] (k : NoticeKind) (x : Byte) :
    Prepared s (if p then s.latch k x else s) := by
  split
  · exact (s.latch_noted k x).prepared
  · exact .ofSame rfl rfl rfl

theorem State.modNode_coordinated (s : State) (n : Fin 32) (f : Node → Node) : Coordinated s (s.modNode n f) :=
  .ofSame rfl

theorem State.modCoupling_coordinated (s : State) (c : Fin 48) (f : Coupling → Coupling) :
    Coordinated s (s.modCoupling c f) :=
  .ofSame rfl

theorem State.queueSlot_coordinated (s : State) (i : Fin 16) : Coordinated s (s.queueSlot i) := by
  unfold State.queueSlot State.joinLane
  split <;> exact .ofSame rfl

theorem State.wakeSlot_coordinated (s : State) (n : Fin 32) : Coordinated s (s.wakeSlot n) := by
  unfold State.wakeSlot
  split
  · split
    · exact s.queueSlot_coordinated _
    · exact .refl s
  · exact .refl s

/-! ### The tow ceilings (R80, R81) -/

theorem State.applyCeiling_same (s : State) (b : Boat) :
    (s.applyCeiling b).coordination = { s.coordination with applied := (s.applyCeiling b).tow.applied } := by
  unfold State.applyCeiling
  dsimp only
  split
  · rfl
  · split
    · rfl
    · split <;> rfl

/-- The tow ceilings compared: propulsion hears of a changed applied ceiling by a recompute (R81). -/
theorem State.formTow_coordinated (s : State) : Coordinated s s.formTow := by
  have one := State.applyCeiling_same s.formCeilings .b1
  have two := State.applyCeiling_same (s.formCeilings.applyCeiling .b1) .b2
  have all : ((s.formCeilings.applyCeiling .b1).applyCeiling .b2).coordination =
      { s.coordination with applied := ((s.formCeilings.applyCeiling .b1).applyCeiling .b2).tow.applied } := by
    rw [two, one]
    rfl
  unfold State.formTow
  dsimp only
  generalize (s.formCeilings.applyCeiling .b1).applyCeiling .b2 = u at all ⊢
  split
  · next e =>
    refine .ofSame (all.trans ?_)
    rw [e]
    rfl
  · exact (Prepared.ofSame (congrArg Coordination.profile all) (congrArg Coordination.prop all)
      (congrArg Coordination.steer all)).recompute

theorem State.holdEnds_coordinated (s : State) (b : Boat) : Coordinated s (s.holdEnds b) := by
  unfold State.holdEnds
  dsimp only
  split
  · next e =>
    refine .ofSame ?_
    show ({ s.coordination with applied := s.tow.applied.set b (s.tow.computed.get b) } : Coordination) = _
    rw [e]
    rfl
  · refine Prepared.recompute ?_
    exact .ofSame rfl rfl rfl

/-! ### Coupling work and tension (chapter 4) -/

theorem State.noteState_coordinated (s : State) (c : Fin 48) : Coordinated s (s.noteState c) := by
  unfold State.noteState
  split
  · exact s.latch_coordinated _ _
  · exact .refl s

theorem State.dropRelease_coordinated (s : State) (c : Fin 48) : Coordinated s (s.dropRelease c) := by
  unfold State.dropRelease
  split
  · exact (s.withdrawSlot_slotted _).coordinated
  · exact .refl s

theorem State.endWork_coordinated (s : State) (c : Fin 48) (x : CouplingState) : Coordinated s (s.endWork c x) :=
  (s.dropRelease_coordinated c).trans (.ofSame rfl)

theorem State.abandonRelease_coordinated (s : State) (c : Fin 48) : Coordinated s (s.abandonRelease c) :=
  (((s.endWork_coordinated c _).trans (State.latch_coordinated _ _ _)).trans (State.noteState_coordinated _ c)).trans
    (State.formTow_coordinated _)

theorem State.abandonMakeup_coordinated (s : State) (c : Fin 48) : Coordinated s (s.abandonMakeup c) :=
  (((s.endWork_coordinated c _).trans (State.noteState_coordinated _ c)).trans (State.latch_coordinated _ _ _)).trans
    (State.formTow_coordinated _)

theorem State.releaseDone_coordinated (s : State) (c : Fin 48) : Coordinated s (s.releaseDone c) :=
  ((s.endWork_coordinated c _).trans (State.latch_coordinated _ _ _)).trans (State.formTow_coordinated _)

theorem State.partWork_coordinated (s : State) (c : Fin 48) : Coordinated s (s.partWork c) :=
  ((s.endWork_coordinated c _).trans (State.latch_coordinated _ _ _)).trans (State.formTow_coordinated _)

theorem State.orderRelease_coordinated (s : State) (c : Fin 48) : Coordinated s (s.orderRelease c) := by
  unfold State.orderRelease
  split
  · split
    · exact (s.releaseSlot_slotted _).coordinated.trans (State.modCoupling_coordinated _ _ _)
    · exact .refl s
  · exact .refl s

theorem State.orderEnded_coordinated (s : State) (x : Slot) : Coordinated s (s.orderEnded x) := by
  unfold State.orderEnded
  split
  · split
    · unfold State.winchEnded
      split
      · exact s.modCoupling_coordinated _ _
      · exact .refl s
    · exact .refl s
  · exact .refl s

theorem State.slotLost_coordinated (s : State) (x : Slot) : Coordinated s (s.slotLost x) := by
  unfold State.slotLost
  split
  · split
    · exact s.abandonRelease_coordinated _
    · exact .refl s
  · exact .refl s

theorem State.moveCoupling_coordinated (s : State) (c : Fin 48) (x : CouplingState) (m : Nat) :
    Coordinated s (s.moveCoupling c x m) := by
  have h := s.modCoupling_coordinated c fun k => { k with state := x, count := m }
  unfold State.moveCoupling
  dsimp only
  split
  · exact h
  · refine Coordinated.trans ?_ (State.formTow_coordinated _)
    split
    · exact h
    · exact h.trans (State.noteState_coordinated _ c)

theorem State.evaluateSample_coordinated (s : State) (c : Fin 48) (t : Nat) : Coordinated s (s.evaluateSample c t) := by
  unfold State.evaluateSample
  dsimp only
  split
  · split
    · split
      · split
        · exact s.partWork_coordinated c
        · exact s.modCoupling_coordinated c _
      · exact s.releaseDone_coordinated c
    · exact s.modCoupling_coordinated c _
  · split
    · exact ((s.endWork_coordinated c _).trans (State.modCoupling_coordinated _ c _)).trans (State.formTow_coordinated _)
    · exact .refl s
  · exact s.moveCoupling_coordinated c _ _

theorem State.tensionReading_coordinated (n : Fin 32) (s : State) (r : Byte × Half) :
    Coordinated s (State.tensionReading n s r) := by
  unfold State.tensionReading
  split
  · exact (s.evaluateSample_coordinated _ _).trans (State.modCoupling_coordinated _ _ _)
  · exact .refl s

theorem State.couplingUnheard_coordinated (s : State) (c : Fin 48) : Coordinated s (s.couplingUnheard c) := by
  have h := s.modCoupling_coordinated c fun k => { k with sampleAt := none }
  unfold State.couplingUnheard
  dsimp only
  split
  case h_5 => exact h.trans (State.modCoupling_coordinated _ c _)
  case h_6 => exact h.trans (State.modCoupling_coordinated _ c _)
  case h_7 => exact h
  all_goals exact h.trans (State.moveCoupling_coordinated _ c _ _)

theorem State.couplingsFollow_coordinated (s : State) (n : Fin 32) : Coordinated s (s.couplingsFollow n) := by
  unfold State.couplingsFollow
  split
  · exact .refl s
  · refine Coordinated.foldl _ (fun s c => ?_) _ s
    split
    · exact s.couplingUnheard_coordinated c
    · exact .refl s

theorem State.winchReport_coordinated (s : State) (n : Fin 32) (w : WinchCondition) :
    Coordinated s (s.winchReport n w) := by
  unfold State.winchReport
  split
  · dsimp only
    split
    · split
      · exact .refl s
      · split
        · exact s.partWork_coordinated _
        · exact s.moveCoupling_coordinated _ _ _
    · split
      · exact s.releaseDone_coordinated _
      · exact .refl s
    · exact .refl s
  · exact .refl s

/-! ### Fuel (chapter 5) -/

/-- A change of a tank that keeps its LOW flag and its entry. -/
theorem State.modTank_coordinated (s : State) (t : Fin 8) (f : Tank → Tank)
    (e : ∀ k, (f k).low = k.low ∧ (f k).entry = k.entry) : Coordinated s (s.modTank t f) := by
  have low : (s.modTank t f).coordination.low = s.coordination.low := by
    funext k
    show (if (modTable s.fuel.tanks t f)[k].low then (modTable s.fuel.tanks t f)[k].entry.lowCeiling else 1000) = _
    rw [modTable_keeps s.fuel.tanks t k f Tank.low fun x => (e x).1,
      modTable_keeps s.fuel.tanks t k f Tank.entry fun x => (e x).2]
    rfl
  exact .ofSame (congrArg (fun l => { s.coordination with low := l }) low)

theorem State.signed48_coordinated (s : State) (x : Int) : Coordinated s (s.signed48 x).2 := by
  unfold State.signed48
  split
  · exact .refl s
  · exact .ofSame rfl

theorem State.unsigned48_coordinated (s : State) (x : Nat) : Coordinated s (s.unsigned48 x).2 := by
  unfold State.unsigned48
  split
  · exact .refl s
  · exact .ofSame rfl

/-- The LOW flag tested: propulsion hears of a change by a recompute (R112). -/
theorem State.testLow_coordinated (s : State) (t : Fin 8) : Coordinated s (s.testLow t) := by
  unfold State.testLow
  dsimp only
  split
  · exact .refl s
  · have h : Prepared s (s.modTank t fun k => { k with low := s.fuel.tanks[t].isLow }) := .ofSame rfl rfl rfl
    exact (h.trans (State.latchWhere_prepared _ _ _ _)).recompute

theorem State.testDiscrepant_coordinated (s : State) (t : Fin 8) : Coordinated s (s.testDiscrepant t) := by
  have h := s.modTank_coordinated t (fun k => { k with discrepant := s.fuel.tanks[t].isDiscrepant })
    fun _ => ⟨rfl, rfl⟩
  exact h.trans (State.latchWhere_coordinated _ _ _ _)

theorem State.testLowWhere_coordinated (s : State) (p : Prop) [Decidable p] (t : Fin 8) :
    Coordinated s (if p then s else s.testLow t) := by
  split
  · exact .refl s
  · exact s.testLow_coordinated t

theorem State.deduct_coordinated (s : State) (t : Fin 8) (d : Nat) : Coordinated s (s.deduct t d) := by
  unfold State.deduct
  dsimp only
  generalize hr : s.unsigned48 (s.fuel.tanks[t].deductions + d) = r
  have first : Coordinated s r.2 := by rw [← hr]; exact s.unsigned48_coordinated _
  generalize hf : r.2.unsigned48 (s.fuel.tanks[t].shortfall + (d - s.fuel.tanks[t].quantity)) = f
  have second : Coordinated s f.2 := by rw [← hf]; exact first.trans (State.unsigned48_coordinated _ _)
  refine second.trans (Coordinated.trans ?_ (State.testLowWhere_coordinated _ _ t))
  exact State.modTank_coordinated _ t _ fun _ => ⟨rfl, rfl⟩

theorem State.addFuel_coordinated (s : State) (t : Fin 8) (a : Nat) : Coordinated s (s.addFuel t a) := by
  unfold State.addFuel
  dsimp only
  generalize hr : s.unsigned48 (s.fuel.tanks[t].additions + a) = r
  have first : Coordinated s r.2 := by rw [← hr]; exact s.unsigned48_coordinated _
  generalize hf : r.2.unsigned48 (s.fuel.tanks[t].overflow +
    (s.fuel.tanks[t].quantity + a - s.fuel.tanks[t].entry.capacity)) = f
  have second : Coordinated s f.2 := by rw [← hf]; exact first.trans (State.unsigned48_coordinated _ _)
  refine second.trans (Coordinated.trans ?_ (State.testLowWhere_coordinated _ _ t))
  exact State.modTank_coordinated _ t _ fun _ => ⟨rfl, rfl⟩

theorem State.takeFuel_coordinated (s : State) (t : Fin 8) (a : Int) : Coordinated s (s.takeFuel t a) := by
  unfold State.takeFuel
  split
  · exact s.deduct_coordinated t _
  · exact s.addFuel_coordinated t _

/-- The fuel reserve condition tested: propulsion hears of a change by a recompute (R116). -/
theorem State.testReserve_coordinated (s : State) : Coordinated s s.testReserve := by
  unfold State.testReserve
  dsimp only
  split
  · exact .refl s
  · have h : Prepared s { s with fuel := { s.fuel with leg := { s.fuel.leg with reserve := s.fuel.leg.holds } } } :=
      .ofSame rfl rfl rfl
    exact (h.trans (State.latchWhere_prepared _ _ _ _)).recompute

theorem State.burn_coordinated (s : State) (e : Fin 6) (a : Int) : Coordinated s (s.burn e a) := by
  unfold State.burn
  dsimp only
  refine Coordinated.trans ?_ (State.testReserve_coordinated _)
  refine Coordinated.trans (((s.signed48_coordinated (s.fuel.accounts[e].total + a)).trans
    (State.signed48_coordinated _ (s.fuel.accounts[e].leg + a))).trans
      (State.signed48_coordinated _ (s.fuel.leg.consumed + a))) ?_
  exact .ofSame rfl

theorem State.takeService_coordinated (s : State) (e : Fin 6) (a : Int) : Coordinated s (s.takeService e a) := by
  unfold State.takeService
  split
  · exact s.takeFuel_coordinated _ a
  · exact .refl s

theorem State.bunker_coordinated (s : State) (t : Fin 8) (a : Int) : Coordinated s (s.bunker t a) :=
  ((s.takeFuel_coordinated t (-a)).trans (State.signed48_coordinated _ _)).trans
    (State.modTank_coordinated _ t _ fun _ => ⟨rfl, rfl⟩)

theorem State.book_coordinated (s : State) (m : MeterEntry) (a : Int) : Coordinated s (s.book m a) := by
  unfold State.book
  split
  · exact .refl s
  · split
    · split
      · exact (s.burn_coordinated _ _).trans (State.takeService_coordinated _ _ _)
      · exact .refl s
    · split
      · exact (s.burn_coordinated _ _).trans (State.takeService_coordinated _ _ _)
      · exact .refl s
    · split
      · exact (s.takeFuel_coordinated _ _).trans (State.takeFuel_coordinated _ _ _)
      · exact .refl s
    · split
      · exact s.bunker_coordinated _ _
      · exact .refl s

theorem State.modMeter_coordinated (s : State) (i : Fin 16) (f : Meter → Meter) : Coordinated s (s.modMeter i f) :=
  .ofSame rfl

theorem State.flowReading_coordinated (n : Fin 32) (s : State) (r : Byte × Quad) :
    Coordinated s (State.flowReading n s r) := by
  unfold State.flowReading
  split
  · dsimp only
    split
    · exact .refl s
    · split
      · exact s.modMeter_coordinated _ _
      · split
        · exact (s.modMeter_coordinated _ _).trans (State.latch_coordinated _ _ _)
        · exact (s.book_coordinated _ _).trans (State.modMeter_coordinated _ _ _)
  · exact .refl s

theorem State.startEstimating_coordinated (s : State) (i : Fin 16) : Coordinated s (s.startEstimating i) :=
  (s.modMeter_coordinated i _).trans (State.latch_coordinated _ _ _)

theorem State.tick_coordinated (s : State) (i : Fin 16) : Coordinated s (s.tick i) :=
  (s.book_coordinated _ _).trans (State.modMeter_coordinated _ _ _)

theorem State.metersFollow_coordinated (s : State) (n : Fin 32) : Coordinated s (s.metersFollow n) := by
  unfold State.metersFollow
  split
  · exact .refl s
  · refine Coordinated.foldl _ (fun s i => ?_) _ s
    split
    · exact s.startEstimating_coordinated i
    · exact .refl s

theorem State.levelReading_coordinated (n : Fin 32) (s : State) (r : Byte × Quad) :
    Coordinated s (State.levelReading n s r) := by
  unfold State.levelReading
  split
  · refine Coordinated.trans ?_ (State.testDiscrepant_coordinated _ _)
    exact s.modTank_coordinated _ _ fun _ => ⟨rfl, rfl⟩
  · exact .refl s

/-! ### Engines (chapter 2) -/

/-- N counts the same engines at the same ratings where no engine becomes ABSENT or ceases to be so (R30). -/
theorem State.NominalFormed.ofEngines {s t : State} (h : s.NominalFormed) (nominal : t.prop.nominal = s.prop.nominal)
    (e : ∀ i : Fin 6, t.prop.engines[i].entry = s.prop.engines[i].entry ∧
      (t.prop.engines[i].state = .absent ↔ s.prop.engines[i].state = .absent)) : t.NominalFormed := by
  unfold State.NominalFormed at h ⊢
  rw [nominal, h]
  exact congrArg sum6 (funext fun i => by simp only [(e i).1, ne_eq, (e i).2])

/-- A change of one engine that keeps its entry, does not make it ABSENT or cease to be so, and leaves it at 0 where it is
not RUNNING, prepares a recompute. -/
theorem State.modEngine_prepared (s : State) (i : Fin 6) (f : Engine → Engine)
    (entry : (f s.prop.engines[i]).entry = s.prop.engines[i].entry)
    (absent : (f s.prop.engines[i]).state = .absent ↔ s.prop.engines[i].state = .absent)
    (stopped : s.Stopped → (f s.prop.engines[i]).state ≠ .running → (f s.prop.engines[i]).setpoint = 0) :
    Prepared s (s.modEngine i f) where
  stopped h j := by
    rw [State.modEngine_engine]
    split
    · exact stopped h
    · exact h j
  forced h := h.ofSame rfl rfl
  ordered h := h.ofSame rfl rfl
  nominal h := h.ofEngines rfl fun j => by
    rw [State.modEngine_engine]
    split
    · next e => subst e; exact ⟨entry, absent⟩
    · exact ⟨rfl, Iff.rfl⟩

/-- What R22 makes of an engine that leaves RUNNING. -/
def State.halted (s : State) (e : Engine) : Engine :=
  if e.setpoint = 0 then { e with target := 0, stepAt := none } else s.zeroEngine { e with target := 0, stepAt := none }

theorem State.leaveRunning_eq (s : State) (i : Fin 6) : s.leaveRunning i = (s.modEngine i s.halted).placeSetpoint i :=
  rfl

theorem State.halted_kept (s : State) (e : Engine) : e.Kept (s.halted e) := by
  unfold State.halted
  split
  · exact ⟨rfl, rfl, rfl, rfl⟩
  · have k := s.zeroEngine_kept { e with target := 0, stepAt := none }
    exact ⟨k.entry, k.state, k.health, k.load⟩

theorem State.halted_setpoint (s : State) (e : Engine) : (s.halted e).setpoint = 0 := by
  unfold State.halted
  split
  · next h => exact h
  · exact s.zeroEngine_setpoint _

/-- An engine with a new state, and halted where it leaves RUNNING (R22). -/
def State.withState (s : State) (i : Fin 6) (x : EngineState) : State :=
  let s1 := s.modEngine i fun e => { e with state := x }
  if s.prop.engines[i].state = .running ∧ x ≠ .running then s1.leaveRunning i else s1

theorem State.moveEngine_eq (s : State) (i : Fin 6) (x : EngineState) :
    s.moveEngine i x = (s.withState i x).recompute := rfl

theorem State.withState_prepared (s : State) (i : Fin 6) (x : EngineState)
    (absent : x = .absent ↔ s.prop.engines[i].state = .absent) : Prepared s (s.withState i x) := by
  unfold State.withState
  dsimp only
  split
  · rw [State.leaveRunning_eq]
    have h : Prepared s (s.modEngine i fun e => s.halted { e with state := x }) := by
      refine s.modEngine_prepared i _ (State.halted_kept _ _).entry ?_ fun _ _ => State.halted_setpoint _ _
      rw [(State.halted_kept _ _).state]
      exact absent
    have e : (s.modEngine i fun e => { e with state := x }).modEngine i s.halted =
        s.modEngine i fun e => s.halted { e with state := x } := by
      unfold State.modEngine modTable
      simp
    have k := h.trans (State.placeSetpoint_slotted _ i).prepared
    rw [← e] at k
    exact k
  · next n =>
    refine s.modEngine_prepared i _ rfl absent fun h k => h i fun r => ?_
    exact n ⟨r, k⟩

/-- An engine moved to a state, ABSENT only from ABSENT (R21, R22, R29). -/
theorem State.moveEngine_coordinated (s : State) (i : Fin 6) (x : EngineState)
    (absent : x = .absent ↔ s.prop.engines[i].state = .absent) : Coordinated s (s.moveEngine i x) :=
  (s.withState_prepared i x absent).recompute

theorem State.engineFollows_coordinated (s : State) (n : Fin 32) : Coordinated s (s.engineFollows n) := by
  unfold State.engineFollows
  split
  · next i _ =>
    split
    · split
      · next h => exact s.moveEngine_coordinated i _ (iff_of_false nofun (by rw [h]; nofun))
      · exact .refl s
    · split
      · exact .refl s
      · next h =>
        refine (s.latch_coordinated _ _).trans (State.moveEngine_coordinated _ i _ (iff_of_false nofun ?_))
        rw [(s.latch_noted _ _).prop]
        exact fun a => h (.inr a)
  · exact .refl s

theorem EngineState.reported_absent (x : EngineState) (r : RunState) (a : AlarmLevel) :
    x.reported r a = .absent ↔ x = .absent := by
  unfold EngineState.reported
  split
  · exact Iff.rfl
  · exact iff_of_false nofun nofun
  · refine iff_of_false ?_ nofun
    repeat' split
    all_goals nofun
  · next h _ _ =>
    refine iff_of_false ?_ h
    repeat' split
    all_goals nofun

/-- A status that changes neither state nor health level: the load may end or begin a boat-at-zero condition (R46). -/
theorem State.loaded_coordinated (s : State) (i : Fin 6) (l : Int) (h : Health) (e : h = s.prop.engines[i].health) :
    Coordinated s (s.modEngine i fun x => { x with load := l, health := h }).reviewZero := by
  generalize hu : (s.modEngine i fun x => { x with load := l, health := h }) = u
  have wash : u.prop.wash = s.prop.wash := by subst hu; rfl
  have steer : u.steer = s.steer := by subst hu; rfl
  have engine : ∀ j : Fin 6, u.prop.engines[j] =
      if i = j then { s.prop.engines[i] with load := l } else s.prop.engines[j] := fun j => by
    subst hu
    rw [State.modEngine_engine, e]
  have all : ∀ {α : Type} (g : Engine → α), (∀ x k, g { x with load := k } = g x) →
      ∀ j : Fin 6, g u.prop.engines[j] = g s.prop.engines[j] := fun g k j => by
    rw [engine]
    split
    · next m => subst m; exact k _ _
    · rfl
  have same : u.reviewZero.prop.engines = u.prop.engines := by rw [State.reviewZero_prop]
  have washes : ∀ b, washOf u.prop.engines b = washOf s.prop.engines b := fun b => by
    rw [washOf_eq, washOf_eq]
    refine congrArg (fun x : Int => if 0 ≤ x then Wash.ahead else Wash.astern) (congrArg sum6 (funext fun j => ?_))
    exact all (fun x : Engine => if x.state = .running ∧ x.entry.boat = b then x.setpoint else 0) (fun _ _ => rfl) j
  refine ⟨⟨fun k j => ?_, fun k => ?_, fun k => ?_, fun k => ?_⟩, fun k => ?_⟩
  · rw [same]
    have sound := k j
    rw [engine]
    split
    · next m => subst m; exact ⟨sound.target, sound.setpoint, sound.stopped⟩
    · exact sound
  · refine State.washSound_of (fun b => ?_) (fun x => ?_) ?_
    · rw [same, washes, State.reviewZero_prop, ← k.wash_eq b]
      exact congrArg (fun w : PerBoat Wash => w.get b) wash
    · rw [same, State.reviewZero_prop]
      cases x <;> rfl
    · exact State.Ordered.ofSame (s := s) k.ordered (by rw [State.reviewZero_prop]; exact wash)
        ((State.reviewZero_steer u).trans steer)
  · have p := k.shared
    have basis : u.reviewZero.basis = u.basis := by
      unfold State.reviewZero
      rw [State.reviewZeroOf_basis, State.reviewZeroOf_basis, State.reviewZeroOf_basis]
    refine State.TargetsFormed.congr (s := u) ⟨fun j => ?_, fun j n => ?_, ?_⟩ basis
    · have c := k.components j
      rw [engine]
      subst hu
      split
      · next m => subst m; exact ⟨c.modeAhead, c.modeAstern, c.health, c.tow, c.economy, c.tankLow⟩
      · exact ⟨c.modeAhead, c.modeAstern, c.health, c.tow, c.economy, c.tankLow⟩
    · rw [all Engine.state fun _ _ => rfl] at n
      have c := k.composites j n
      rw [engine]
      split
      · next m => subst m; exact ⟨c.ahead, c.astern⟩
      · exact c
    · unfold State.DemandShared at p ⊢
      simp only [all Engine.entry fun _ _ => rfl, all Engine.state fun _ _ => rfl, all Engine.target fun _ _ => rfl,
        all Engine.compositeAhead fun _ _ => rfl, all Engine.compositeAstern fun _ _ => rfl]
      subst hu
      exact p
  · refine State.NominalFormed.ofEngines k ?_ fun j => ?_
    · rw [State.reviewZero_prop]; subst hu; rfl
    · rw [same, all Engine.entry fun _ _ => rfl, all Engine.state fun _ _ => rfl]
      exact ⟨rfl, Iff.rfl⟩
  · refine k.ofSame ?_ ((State.reviewZero_steer u).trans steer)
    rw [State.profile_congr (State.reviewZero_worked u).within.written.helm]
    subst hu
    rfl

/-- Work that forms the wash and the targets keeps all with a review of the boat-at-zero conditions after it. -/
theorem State.reviewZero_coordinated (s : State) : Coordinated s s.reviewZero := by
  have basis : s.reviewZero.basis = s.basis := by
    unfold State.reviewZero
    rw [State.reviewZeroOf_basis, State.reviewZeroOf_basis, State.reviewZeroOf_basis]
  have w := (State.reviewZero_worked s).within
  refine ⟨⟨fun h => ?_, fun h => ?_, fun h => h.congr basis, w.nominal⟩, w.forcedSound⟩
  · unfold State.EnginesSound
    rw [State.reviewZero_prop]
    exact h
  · refine State.washSound_of (fun b => ?_) (fun x => ?_) (State.Ordered.ofSame h.ordered ?_ s.reviewZero_steer)
    · rw [State.reviewZero_prop]; exact h.wash_eq b
    · rw [State.reviewZero_prop]; cases x <;> rfl
    · rw [State.reviewZero_prop]

theorem State.engineReport_coordinated (s : State) (n : Fin 32) (r : RunState) (l : Half) (a : AlarmLevel) :
    Coordinated s (s.engineReport n r l a) := by
  unfold State.engineReport
  split
  · next i _ =>
    dsimp only
    have told : Prepared s (s.modEngine i fun e => { e with load := l.toInt, health := healthOf a }) :=
      s.modEngine_prepared i _ rfl Iff.rfl fun h => h i
    have noted : ∀ p : Prop, [Decidable p] →
        Noted (s.modEngine i fun e => { e with load := l.toInt, health := healthOf a })
          (if p then (s.modEngine i fun e => { e with load := l.toInt, health := healthOf a }).latch .engineTrip
              (subjectOf i)
            else s.modEngine i fun e => { e with load := l.toInt, health := healthOf a }) := by
      intro p _
      split
      · exact State.latch_noted _ _ _
      · exact Noted.refl _
    split
    · refine Coordinated.trans (Prepared.recompute (told.trans ((noted _).prepared.trans
        (State.withState_prepared _ i _ ?_)))) (State.reviewZero_coordinated _)
      rw [(noted _).prop, State.modEngine_engine, if_pos rfl]
      exact EngineState.reported_absent _ r a
    · next same =>
      have idle : ¬ (s.prop.engines[i].state.reported r a = .tripped ∧ s.prop.engines[i].state ≠ .tripped) := by
        rw [not_not.1 same]
        exact fun h => h.2 h.1
      rw [if_neg idle]
      split
      · exact told.recompute.trans (State.reviewZero_coordinated _)
      · next h => exact s.loaded_coordinated i _ _ (not_not.1 h)
  · exact .refl s

/-! ### Actuators (chapter 3) -/

/-- A change of one actuator that keeps its ordered value, or forms it, keeps all but the forced steer-assist field. -/
theorem State.modActuator_unforced (s : State) (i : Fin 5) (f : Actuator → Actuator)
    (ordered : s.Ordered → (f s.steer.actuators[i]).state ≠ .absent →
      (f s.steer.actuators[i]).ordered = s.orderedFor (f s.steer.actuators[i]).entry) :
    Unforced s (s.modActuator i f) where
  engines h := h
  wash h := by
    refine State.washSound_of h.wash_eq h.zero_eq fun j => ?_
    rw [State.mapped_eq, State.modActuator_actuator]
    split
    · exact ordered h.ordered
    · intro n
      exact (h.ordered j n).trans (s.mapped_eq _)
  targets h := h.congr rfl
  nominal h := h

/-- A change of the state, the report and the divergence timer of an actuator that does not begin one. -/
theorem State.moveActuator_unforced (s : State) (i : Fin 5) (f : Actuator → Actuator)
    (k : ∀ a, (f a).entry = a.entry ∧ (f a).ordered = a.ordered)
    (absent : (f s.steer.actuators[i]).state ≠ .absent → s.steer.actuators[i].state ≠ .absent) :
    Unforced s (s.modActuator i f) := by
  refine s.modActuator_unforced i f fun h n => ?_
  rw [(k _).1, (k _).2, ← State.mapped_eq]
  exact h i (absent n)

/-- The forced steer-assist condition sees an actuator's kind and state (R65). -/
theorem State.modActuator_forced {s : State} (h : s.ForcedSound) (i : Fin 5) (f : Actuator → Actuator)
    (k : (f s.steer.actuators[i]).entry = s.steer.actuators[i].entry ∧
      (f s.steer.actuators[i]).state = s.steer.actuators[i].state) : (s.modActuator i f).ForcedSound := by
  have e : ∀ j : Fin 5, (s.modActuator i f).steer.actuators[j].entry = s.steer.actuators[j].entry ∧
      (s.modActuator i f).steer.actuators[j].state = s.steer.actuators[j].state := fun j => by
    rw [State.modActuator_actuator]
    split
    · next m => subst m; exact k
    · exact ⟨rfl, rfl⟩
  unfold State.ForcedSound at h ⊢
  simp only [(e _).1, (e _).2]
  exact h

theorem State.reported_unforced (s : State) (i : Fin 5) (x : Int) :
    Coordinated s (s.modActuator i fun a => { a with reported := x }) :=
  ⟨s.moveActuator_unforced i _ (fun _ => ⟨rfl, rfl⟩) id, fun h => State.modActuator_forced h i _ ⟨rfl, rfl⟩⟩

theorem State.faultActuator_unforced (s : State) (i : Fin 5) (n : s.steer.actuators[i].state ≠ .absent) :
    Unforced s (s.faultActuator i) := by
  refine Unforced.trans ?_ (State.latch_coordinated _ _ _).toUnforced
  exact s.moveActuator_unforced i _ (fun _ => ⟨rfl, rfl⟩) fun _ => n

theorem State.readyActuator_unforced (s : State) (i : Fin 5) (n : s.steer.actuators[i].state ≠ .absent) :
    Unforced s (s.readyActuator i) := by
  refine Unforced.trans ?_ (State.placeOrdered_slotted _ i).coordinated.toUnforced
  exact s.moveActuator_unforced i _ (fun _ => ⟨rfl, rfl⟩) fun _ => n

/-- The divergence test leaves the entry and the ordered value, and READY as it is; it makes nothing ABSENT (R62). -/
theorem State.testActuator_same (s : State) (a : Actuator) : (s.testActuator a).entry = a.entry ∧
    (s.testActuator a).ordered = a.ordered ∧ (a.state = .ready → (s.testActuator a).state = .ready) ∧
    (a.state = .absent → (s.testActuator a).state = .absent) := by
  unfold State.testActuator
  split
  · next h =>
    repeat' split
    all_goals exact ⟨rfl, rfl, id, id⟩
  · next h =>
    split
    · exact ⟨rfl, rfl, id, id⟩
    · exact ⟨rfl, rfl, fun e => absurd (h.symm.trans e) nofun,
        fun e => absurd (h.symm.trans e) nofun⟩
  · exact ⟨rfl, rfl, id, id⟩

theorem State.testActuator_unforced (s : State) (i : Fin 5) (n : s.steer.actuators[i].state ≠ .absent) :
    Unforced s (s.modActuator i s.testActuator) :=
  s.moveActuator_unforced i _ (fun a => ⟨(s.testActuator_same a).1, (s.testActuator_same a).2.1⟩) fun _ => n

theorem State.actuatorFollows_coordinated (s : State) (n : Fin 32) : Coordinated s (s.actuatorFollows n) := by
  unfold State.actuatorFollows
  split
  · next i _ =>
    dsimp only
    split
    · exact .refl s
    · next present =>
      split
      · split
        · exact (s.readyActuator_unforced i present).reviewForced
        · exact .refl s
      · split
        · exact .refl s
        · exact (s.faultActuator_unforced i present).reviewForced
      · refine Unforced.reviewForced ?_
        exact s.moveActuator_unforced i _ (fun _ => ⟨rfl, rfl⟩) fun _ => present
  · exact .refl s

theorem State.reported_state (s : State) (i : Fin 5) (x : Int) :
    (s.modActuator i fun a => { a with reported := x }).steer.actuators[i].state = s.steer.actuators[i].state := by
  rw [State.modActuator_actuator, if_pos rfl]

theorem State.readyActuator_state (s : State) (i : Fin 5) : (s.readyActuator i).steer.actuators[i].state = .ready := by
  unfold State.readyActuator
  rw [(State.placeOrdered_slotted _ i).steer, State.modActuator_actuator, if_pos rfl]

theorem State.actuatorReport_coordinated (s : State) (n : Fin 32) (p : Half) (g : Option FaultFlag) :
    Coordinated s (s.actuatorReport n p g) := by
  unfold State.actuatorReport
  split
  · next i _ =>
    dsimp only
    have told := s.reported_unforced i p.toInt
    have state := s.reported_state i p.toInt
    generalize (s.modActuator i fun a => { a with reported := p.toInt }) = u at told state ⊢
    split
    · next h => exact told.trans (u.faultActuator_unforced i (by rw [state, h]; nofun)).reviewForced
    · next h => exact told.trans (u.faultActuator_unforced i (by rw [state, h]; nofun)).reviewForced
    · next h _ =>
      have ready := state.trans h
      refine told.trans ⟨u.testActuator_unforced i (by rw [ready]; nofun), fun k => ?_⟩
      exact State.modActuator_forced k i _ ⟨(u.testActuator_same _).1,
        ((u.testActuator_same _).2.2.1 ready).trans ready.symm⟩
    · next h _ => exact told.trans (u.testActuator_unforced i (by rw [state, h]; nofun)).reviewForced
    · next h =>
      refine told.trans (Unforced.reviewForced ?_)
      refine (u.readyActuator_unforced i (by rw [state, h]; nofun)).trans (State.testActuator_unforced _ i ?_)
      rw [State.readyActuator_state]
      nofun
    · exact told
  · exact .refl s

theorem State.diverge_coordinated (s : State) (i : Fin 5) : Coordinated s (s.diverge i) := by
  unfold State.diverge
  split
  · next h =>
    refine Unforced.reviewForced (Unforced.trans ?_ (State.latch_coordinated _ _ _).toUnforced)
    exact s.moveActuator_unforced i _ (fun _ => ⟨rfl, rfl⟩) fun _ => by rw [h]; nofun
  · exact ⟨s.moveActuator_unforced i _ (fun _ => ⟨rfl, rfl⟩) id, fun h => State.modActuator_forced h i _ ⟨rfl, rfl⟩⟩

end Sys2Proof.Machine

end


-- ==== Sys2Proof/Proofs/StepCoordination.lean ====
section
/-! PROOF. Proofs/StepCoordination.lean: the orders, requests, expiries and frames one after another, and from them that
every step keeps the engines in range, the forced steer-assist field, the wash with the ordered values, the targets
and N as their sources have them. -/

namespace Sys2Proof.Machine

/-! ### Engines: steps, dwells and the crash stop (2.6) -/

/-- An issued setpoint one step on stays in a range that holds 0, the setpoint and the target (R37). -/
theorem stepped_bound {a b : Nat} {x t : Int} (k : Nat) (low : -(a : Int) ≤ x) (high : x ≤ b) (targetLow : -(a : Int) ≤ t)
    (targetHigh : t ≤ b) : -(a : Int) ≤ stepped x t k ∧ stepped x t k ≤ b := by
  unfold stepped
  repeat' split
  all_goals omega

theorem State.stepEngine_setpoint (s : State) (e : Engine) :
    (s.stepEngine e).setpoint = stepped e.setpoint e.target s.profile.stepSize := by
  unfold State.stepEngine
  dsimp only
  split
  · next h => exact (s.zeroEngine_setpoint e).trans h.1.symm
  · split <;> rfl

theorem State.stepEngine_basis (s : State) (e : Engine) : (s.stepEngine e).basis = e.basis := by
  unfold State.stepEngine
  dsimp only
  split
  · exact s.zeroEngine_basis e
  · split <;> rfl

theorem Engine.Sound.stepEngine {s : State} {e : Engine} (h : e.Sound) : (s.stepEngine e).Sound := by
  have b := s.stepEngine_basis e
  have target := Engine.basis_field b Engine.target
  have ahead := Engine.basis_field b Engine.compositeAhead
  have astern := Engine.basis_field b Engine.compositeAstern
  have state := Engine.basis_field b Engine.state
  refine ⟨?_, ?_, fun n => ?_⟩
  · rw [target, ahead, astern]; exact h.target
  · rw [s.stepEngine_setpoint, ahead, astern]
    exact stepped_bound _ h.setpoint.1 h.setpoint.2 h.target.1 h.target.2
  · rw [state] at n
    obtain ⟨targetZero, setpointZero⟩ := h.stopped n
    rw [target, s.stepEngine_setpoint, targetZero, setpointZero]
    exact ⟨rfl, rfl⟩

theorem State.takeStep_coordinated (s : State) (i : Fin 6) : Coordinated s (s.takeStep i) where
  engines h j := by
    unfold State.takeStep
    rw [State.review_engines, (State.placeSetpoint_slotted _ i).prop, State.modEngine_engine]
    split
    · exact (h i).stepEngine
    · exact h j
  wash h := by
    refine State.review_washSound _ (State.Ordered.ofSame (s := s) h.ordered ?_ ?_)
    · rw [(State.placeSetpoint_slotted _ i).prop]; rfl
    · rw [(State.placeSetpoint_slotted _ i).steer]; rfl
  targets h := by
    refine h.congr ?_
    unfold State.takeStep State.reviewWash State.reviewZero
    rw [State.reviewZeroOf_basis, State.reviewZeroOf_basis, State.reviewZeroOf_basis, State.reviewBoatWash_basis,
      State.reviewBoatWash_basis, State.placeSetpoint_basis]
    exact s.modEngine_basis i _ s.stepEngine_basis
  nominal h := (s.takeStep_worked i).within.nominal h
  forced h := (s.takeStep_worked i).within.forcedSound h

/-- The wash, the boat-at-zero conditions and the ordered values follow from these figures of the engines. -/
theorem State.WashSound.ofEngines {s t : State} (h : s.WashSound) (wash : t.prop.wash = s.prop.wash)
    (zero : ∀ x, t.prop.zeroOf x = s.prop.zeroOf x) (steer : t.steer = s.steer)
    (e : ∀ i : Fin 6, t.prop.engines[i].entry = s.prop.engines[i].entry ∧
      t.prop.engines[i].state = s.prop.engines[i].state ∧ t.prop.engines[i].load = s.prop.engines[i].load ∧
      t.prop.engines[i].setpoint = s.prop.engines[i].setpoint) : t.WashSound where
  wash b := by
    simp only [wash, (e _).1, (e _).2.1, (e _).2.2.2]
    exact h.wash b
  zero x := by
    simp only [zero, (e _).1, (e _).2.1, (e _).2.2.1, (e _).2.2.2]
    exact h.zero x
  ordered := State.Ordered.ofSame h.ordered wash steer

/-- A change of one engine's slewing alone. -/
theorem State.modSlewing_coordinated (s : State) (i : Fin 6) (f : Engine → Engine) (basis : ∀ e, (f e).basis = e.basis)
    (setpoint : ∀ e, (f e).setpoint = e.setpoint) : Coordinated s (s.modEngine i f) := by
  have keeps : ∀ {α : Type} (g : Engine → α), (∀ e, g (f e) = g e) →
      ∀ j : Fin 6, g (s.modEngine i f).prop.engines[j] = g s.prop.engines[j] := fun g k j =>
    modTable_keeps s.prop.engines i j f g k
  have field : ∀ {α : Type} (g : Engine → α), (∀ e : Engine, g e.basis = g e) →
      ∀ j : Fin 6, g (s.modEngine i f).prop.engines[j] = g s.prop.engines[j] := fun g k =>
    keeps g fun e => Engine.basis_field (basis e) g k
  have entry := field Engine.entry fun _ => rfl
  have state := field Engine.state fun _ => rfl
  refine ⟨⟨fun h j => ?_, fun h => ?_, fun h => h.congr (s.modEngine_basis i f basis), fun h => ?_⟩, fun h => ?_⟩
  · have k := h j
    refine ⟨?_, ?_, ?_⟩
    · rw [field Engine.target fun _ => rfl, field Engine.compositeAhead fun _ => rfl,
        field Engine.compositeAstern fun _ => rfl]
      exact k.target
    · rw [keeps Engine.setpoint setpoint, field Engine.compositeAhead fun _ => rfl,
        field Engine.compositeAstern fun _ => rfl]
      exact k.setpoint
    · rw [state, field Engine.target fun _ => rfl, keeps Engine.setpoint setpoint]
      exact k.stopped
  · exact h.ofEngines rfl (fun x => by cases x <;> rfl) rfl fun j =>
      ⟨entry j, state j, field Engine.load (fun _ => rfl) j, keeps Engine.setpoint setpoint j⟩
  · exact h.ofEngines rfl fun j => ⟨entry j, by rw [state]⟩
  · exact h.ofSame rfl rfl

theorem State.crashEngine_prepared (s : State) (i : Fin 6) : Prepared s (s.crashEngine i) := by
  unfold State.crashEngine
  split
  · exact .ofSame rfl rfl rfl
  · refine Prepared.trans ?_ (State.placeSetpoint_slotted _ i).prepared
    refine s.modEngine_prepared i _ (s.zeroEngine_kept _).entry ?_ fun _ _ => s.zeroEngine_setpoint _
    rw [(s.zeroEngine_kept _).state]

theorem State.crashStop_prepared (s : State) : Prepared s s.crashStop :=
  Prepared.foldl _ State.crashEngine_prepared _ s

/-! ### The helm guard and the modes (chapter 1) -/

theorem State.modHelm_coordinated (s : State) (f : HelmUnit → HelmUnit)
    (h : (f s.helm).modes[(f s.helm).mode] = s.helm.modes[s.helm.mode]) : Coordinated s (s.modHelm f) :=
  .ofSame (congrArg (fun p : Profile => { s.coordination with profile := p }) h)

theorem State.restartGuard_coordinated (s : State) : Coordinated s s.restartGuard := by
  unfold State.restartGuard
  split
  · exact s.modHelm_coordinated _ rfl
  · exact .refl s

theorem State.resetGuard_coordinated (s : State) : Coordinated s s.resetGuard :=
  s.modHelm_coordinated _ rfl

theorem State.transferTo_coordinated (s : State) (a : Byte) : Coordinated s (s.transferTo a) := by
  unfold State.transferTo
  split
  · exact .refl s
  · exact (s.modHelm_coordinated _ rfl).trans (State.latch_coordinated _ _ _)

/-- A mode that comes into force forms all again, whatever else of P and the helm has changed (R8). -/
theorem State.enterMode_coordinated {s t u : State} (noted : Noted t u) (engines : t.prop.engines = s.prop.engines)
    (nominal : t.prop.nominal = s.prop.nominal) (wash : t.prop.wash = s.prop.wash) (steer : t.steer = s.steer) :
    Coordinated s u.enterMode := by
  rw [← noted.prop] at engines nominal wash
  rw [← noted.steer] at steer
  unfold State.enterMode
  refine Coordinated.trans ?_ (State.formTow_coordinated _)
  refine ⟨⟨fun h => ?_, fun h => ?_, fun _ => State.recompute_targets _, fun h => ?_⟩, fun _ => ?_⟩
  · refine State.recompute_enginesSound _ ?_
    show State.Stopped u
    unfold State.Stopped
    rw [engines]
    exact h.stopped
  · refine State.recompute_washSound _ (State.setForced_ordered ?_)
    exact State.Ordered.ofSame h.ordered wash steer
  · refine (State.recompute_worked _).within.nominal (s := u.setForced) ?_
    unfold State.NominalFormed at h ⊢
    show ((u.prop.nominal : Nat) : Int) = _
    rw [nominal, h]
    show _ = sum6 fun i => if u.prop.engines[i].state ≠ _ ∧ _ < u.prop.engines[i].entry.weight then
      ((u.prop.engines[i].entry.rating : Nat) : Int) else 0
    rw [engines]
  · exact (State.recompute_worked _).within.forcedSound u.setForced_forced

theorem State.loseHelm_coordinated (s : State) : Coordinated s s.loseHelm := by
  unfold State.loseHelm
  dsimp only
  exact State.enterMode_coordinated (State.latch_noted _ _ _) rfl rfl rfl rfl

theorem State.resumeHelm_coordinated (s : State) (a : Byte) : Coordinated s (s.resumeHelm a) := by
  unfold State.resumeHelm
  refine Coordinated.trans ?_ (State.resetGuard_coordinated _)
  refine Coordinated.trans ?_ (State.transferTo_coordinated _ a)
  exact State.enterMode_coordinated (Noted.refl _) rfl rfl rfl rfl

end Sys2Proof.Machine

end

