-- ==== Sys2Proof/Proofs/OrderCoordination.lean ====
section
/-! PROOF. Proofs/OrderCoordination.lean: every wheelhouse order keeps the engines in range, the forced steer-assist field,
the wash with the ordered values, the targets and N as their sources have them. -/

namespace Sys2Proof.Machine

/-! ### The shared shapes of commands -/

theorem State.order_coordinated {s : State} {o : Origin} {k : Byte} {act : State → State × Answer}
    (h : ∀ u, Coordinated u (act u).1) : Coordinated s (s.order o k act) := by
  obtain ⟨_, e⟩ | ⟨_, _, e⟩ | ⟨_, e⟩ := s.order_cases o k act <;> rw [e]
  · exact .refl s
  · exact .ofSame rfl
  · have ended : Coordinated s (s.frameEnd .W) := .ofSame rfl
    exact (ended.trans (h _)).trans (.ofSame rfl)

theorem State.commanded_coordinated {s : State} {o : Origin} {k : Byte} {act : State → State × Answer}
    (h : ∀ u, Coordinated u (act u).1) : Coordinated s (s.commanded o k act) := by
  refine State.order_coordinated fun u => ?_
  split
  · exact .refl u
  · exact h u

theorem State.request_coordinated {s : State} {o : Origin} {act : State → State} (h : ∀ u, Coordinated u (act u)) :
    Coordinated s (s.request o act) := by
  obtain ⟨_, e⟩ | ⟨_, _, e⟩ | ⟨_, e⟩ := s.request_cases o act <;> rw [e]
  · exact .refl s
  · exact .ofSame rfl
  · have ended : Coordinated s (s.frameEnd .W) := .ofSame rfl
    exact ended.trans (h _)

theorem State.reply_coordinated {s u : State} (h : Coordinated s u) (o : Origin) (k : Byte) (a : Status) (l : List Byte) :
    Coordinated s (u.reply o k a l) :=
  h.trans (.ofSame rfl)

theorem State.tableWrite_coordinated {s : State} {o : Origin} {t i : Byte} {act : State → State × Status}
    (h : ∀ u, Coordinated u (act u).1) : Coordinated s (s.tableWrite o t i act) :=
  State.request_coordinated fun u => State.reply_coordinated (h u) _ _ _ _

theorem State.receive_coordinated {s : State} {p : Port} {act : State → State} (h : Coordinated s (act s)) :
    Coordinated s (s.receive p act) := by
  unfold State.receive
  split
  · exact h
  · exact .refl s

theorem State.expire_coordinated {s : State} {t : Timer} {act : State → State} (h : ∀ u, Coordinated u (act u)) :
    Coordinated s (s.expire t act) := by
  cases t with
  | none => exact .refl s
  | some n =>
    have reached : Coordinated s (s.reach n) := .ofSame rfl
    exact reached.trans (h _)

/-! ### PROPEL, STEER and CONVOY -/

theorem State.takePropel_coordinated (s : State) (p : Half) (m : Byte) (d : Half) (f : Byte) :
    Coordinated s (s.takePropel p m d f) := by
  have crashed : Prepared s (if f.getLsbD 0 then s.crashStop else s) := by
    split
    · exact s.crashStop_prepared
    · exact .ofSame rfl rfl rfl
  unfold State.takePropel
  dsimp only
  generalize (if f.getLsbD 0 then s.crashStop else s) = u at crashed ⊢
  refine Coordinated.trans ?_ (State.restartGuard_coordinated _)
  refine Prepared.recompute (crashed.trans ?_)
  exact .ofEngines rfl rfl rfl rfl rfl

theorem State.decidePropel_coordinated (p : Half) (m : Byte) (d : Half) (f : Byte) (s : State) :
    Coordinated s (s.decidePropel p m d f).1 := by
  unfold State.decidePropel
  split
  · exact .refl s
  · dsimp only
    exact s.takePropel_coordinated p m d f

/-- The targets are formed from the rudder only under AUTO or forced steer assist (R28). -/
theorem State.TargetsFormed.ofRudder {s t : State} (h : s.TargetsFormed) (profile : t.profile = s.profile)
    (prop : t.prop = s.prop) (applied : t.tow.applied = s.tow.applied) (fuel : t.fuel = s.fuel) (forced : t.steer.forced = s.steer.forced)
    (n : ¬ (s.prop.diffMode = .auto ∨ s.steer.forced = true)) : t.TargetsFormed := by
  have inForce : t.helm.modes[t.helm.mode] = s.helm.modes[s.helm.mode] := profile
  have fixed : s.prop.diffMode = .fixed ∧ s.steer.forced = false := by
    refine ⟨?_, Bool.eq_false_iff.2 fun f => n (.inr f)⟩
    cases e : s.prop.diffMode with
    | fixed => rfl
    | auto => exact absurd (.inl e) n
  refine ⟨fun i => ?_, fun i k => ?_, ?_⟩
  · rw [prop]
    exact (h.components i).congr inForce applied fuel rfl
  · rw [prop] at k ⊢
    exact h.composites i k
  · have k := h.shared
    unfold State.DemandShared at k ⊢
    simp only [prop, forced, if_pos fixed] at k ⊢
    exact k

theorem State.remapAll_same (s : State) : s.Demanded s.remapAll := by
  rw [State.remapAll_eq]
  exact s.remapWhere_demanded _

/-- The ordered values follow the demands of a STEER, and a recompute where the targets depend on the rudder (R52). -/
theorem State.takeSteer_coordinated (s : State) (r : Half) (m : Byte) (b : Half) : Coordinated s (s.takeSteer r m b) := by
  unfold State.takeSteer
  dsimp only
  generalize hu : ({ s with steer := { s.steer with
    rudder := clamp (-450) 450 r.toInt
    bowMode := if m = 0 then .follow else .explicit
    bowDemand := if m = 0 then s.steer.bowDemand else clamp (-1000) 1000 b.toInt } } : State) = u
  have worked := u.remapAll_worked.within
  obtain ⟨prop, steer⟩ := u.remapAll_same
  have propSame : u.remapAll.prop = s.prop := by rw [prop, ← hu]
  have forcedSame : u.remapAll.steer.forced = s.steer.forced := by rw [steer, ← hu]
  have forced : s.ForcedSound → u.remapAll.ForcedSound := fun h => worked.forcedSound (by subst hu; exact h)
  have nominal : s.NominalFormed → u.remapAll.NominalFormed := fun h => h.ofProp propSame
  refine Coordinated.trans ?_ (State.restartGuard_coordinated _)
  split
  · refine Prepared.recompute ⟨fun h => ?_, forced, fun _ => u.remapAll_ordered, nominal⟩
    unfold State.Stopped
    rw [propSame]
    exact h
  · next still =>
    rw [propSame, forcedSame] at still
    refine ⟨⟨fun h => ?_, fun h => ?_, fun h => ?_, nominal⟩, forced⟩
    · unfold State.EnginesSound
      rw [propSame]
      exact h
    · refine State.washSound_of (fun x => ?_) (fun x => ?_) u.remapAll_ordered
      · rw [propSame]; exact h.wash_eq x
      · rw [propSame]; exact h.zero_eq x
    · refine h.ofRudder ?_ propSame ?_ ?_ forcedSame still
      · exact (State.profile_congr worked.written.helm).trans (by subst hu; rfl)
      · rw [(worked.ceilings (by decide)).2.1, ← hu]
      · rw [(worked.fuel (by decide)).1, ← hu]

theorem State.decideSteer_coordinated (r : Half) (m : Byte) (b : Half) (s : State) :
    Coordinated s (s.decideSteer r m b).1 := by
  unfold State.decideSteer
  split
  · exact .refl s
  · dsimp only
    exact s.takeSteer_coordinated r m b

theorem State.decideMode_coordinated (x : Byte) (s : State) : Coordinated s (s.decideMode x).1 := by
  unfold State.decideMode
  split
  · split
    · exact .refl s
    · dsimp only
      refine Coordinated.trans ?_ (State.resetGuard_coordinated _)
      exact State.enterMode_coordinated (Noted.refl _) rfl rfl rfl rfl
  · exact .refl s

theorem State.decideTakeCommand_coordinated (o : Origin) (s : State) : Coordinated s (s.decideTakeCommand o).1 := by
  unfold State.decideTakeCommand
  split
  · exact .refl s
  · split
    · exact .refl s
    · dsimp only
      split
      · exact (s.transferTo_coordinated _).trans (State.modHelm_coordinated _ _ rfl)
      · exact s.transferTo_coordinated _

theorem State.decideHelmResume_coordinated (o : Origin) (s : State) : Coordinated s (s.decideHelmResume o).1 := by
  unfold State.decideHelmResume
  split
  · exact .refl s
  · split
    · exact s.resumeHelm_coordinated _
    · exact .refl s

/-! ### COUPLE -/

theorem State.decideCouple_coordinated (x : Byte) {act : State → Fin 48 → State × Answer}
    (h : ∀ s c, Coordinated s (act s c).1) (s : State) : Coordinated s (s.decideCouple x act).1 := by
  unfold State.decideCouple
  split
  · split
    · exact .refl s
    · exact h s _
  · exact .refl s

theorem State.beginWork_coordinated (s : State) (c : Fin 48) (x : CouplingState) (p : Option ReleasePhase) (n : Nat) :
    Coordinated s (s.beginWork c x p n) :=
  .ofSame rfl

theorem State.decideRelease_coordinated (s : State) (c : Fin 48) : Coordinated s (s.decideRelease c).1 := by
  unfold State.decideRelease
  dsimp only
  split
  · split
    · split
      · exact .refl s
      · split
        · dsimp only
          refine Coordinated.trans ?_ (State.orderRelease_coordinated _ _)
          refine Coordinated.trans ?_ (State.formTow_coordinated _)
          exact (s.place_slotted _ _ _ _ _).coordinated.trans (State.beginWork_coordinated _ _ _ _ _)
        · exact .refl s
    · exact .refl s
  · exact .refl s

theorem State.decideCancel_coordinated (s : State) (c : Fin 48) : Coordinated s (s.decideCancel c).1 := by
  unfold State.decideCancel
  dsimp only
  split
  · dsimp only
    exact ((s.endWork_coordinated c _).trans (State.noteState_coordinated _ c)).trans (State.formTow_coordinated _)
  · exact .refl s

theorem State.decideMakeUp_coordinated (s : State) (c : Fin 48) : Coordinated s (s.decideMakeUp c).1 := by
  unfold State.decideMakeUp
  dsimp only
  split
  · split
    · split
      · exact .refl s
      · split
        · dsimp only
          refine Coordinated.trans ?_ (State.formTow_coordinated _)
          exact (s.place_slotted _ _ _ _ _).coordinated.trans (State.beginWork_coordinated _ _ _ _ _)
        · exact .refl s
    · exact .refl s
  · exact .refl s

theorem State.decideAccept_coordinated (s : State) (c : Fin 48) : Coordinated s (s.decideAccept c).1 := by
  unfold State.decideAccept
  dsimp only
  split
  · exact s.moveCoupling_coordinated c _ _
  · exact .refl s

/-- An order of no known form changes nothing but the answer lane (R83, R157). -/
theorem execOrderUnknown_coordinated (o : Origin) (l : List Byte) (s : State) :
    ∃ t, exec (.orderUnknown o l) s = .next t ∧ Coordinated s t := by
  by_cases h : unknownCouple l = true
  · exact ⟨_, execOrderUnknown_couple o h s, State.commanded_coordinated .refl⟩
  · exact ⟨_, execOrderUnknown_plain o h s, State.order_coordinated .refl⟩

end Sys2Proof.Machine

end

