-- ==== Sys2Proof/Proofs/RequestCoordination.lean ====
section
/-! PROOF. Proofs/RequestCoordination.lean: every management request keeps the engines in range, the forced steer-assist
field, the wash with the ordered values, the targets and N as their sources have them. -/

namespace Sys2Proof.Machine

/-! ### Nodes and their units (6.2) -/

theorem State.handOver_coordinated (s : State) (n : Fin 32) : Coordinated s (s.handOver n) :=
  (((s.engineFollows_coordinated n).trans (State.actuatorFollows_coordinated _ n)).trans
    (State.couplingsFollow_coordinated _ n)).trans (State.metersFollow_coordinated _ n)

/-! ### Table writes -/

theorem State.writeStation_coordinated (i a : Byte) (s : State) : Coordinated s (s.writeStation i a).1 := by
  unfold State.writeStation
  split
  · exact .refl s
  · split
    · split
      · exact .refl s
      · dsimp only
        exact s.modHelm_coordinated _ rfl
    · exact .refl s

theorem State.takeRoster_coordinated (s : State) (n : Fin 32) (e : NodeEntry) : Coordinated s (s.takeRoster n e) := by
  unfold State.takeRoster
  split
  · dsimp only
    split
    · exact s.modNode_coordinated _ _
    · exact (s.modNode_coordinated _ _).trans (State.handOver_coordinated _ n)
  · exact s.modNode_coordinated _ _

theorem State.writeRoster_coordinated (i : Byte) (r : RosterRaw) (s : State) : Coordinated s (s.writeRoster i r).1 := by
  unfold State.writeRoster
  split
  · exact .refl s
  · split
    · dsimp only
      split
      · exact .refl s
      · split
        · exact .refl s
        · split
          · exact .refl s
          · exact s.takeRoster_coordinated _ _
    · exact .refl s

theorem State.writePassage_coordinated (i : Byte) (r : PassageRaw) (s : State) :
    Coordinated s (s.writePassage i r).1 := by
  unfold State.writePassage
  repeat' split
  all_goals exact .ofSame rfl

theorem State.writeDefault_coordinated (i : Byte) (r : DefaultRaw) (s : State) :
    Coordinated s (s.writeDefault i r).1 := by
  unfold State.writeDefault
  repeat' split
  all_goals exact .ofSame rfl

theorem State.guardWritten_coordinated (s : State) : Coordinated s s.guardWritten := by
  unfold State.guardWritten
  split
  · exact s.modHelm_coordinated _ rfl
  · split
    · exact s.restartGuard_coordinated
    · exact .refl s

/-- A write of a profile forms again what it moves (R2, R26, R28, R65). -/
theorem State.takeMode_coordinated (s : State) (m : Fin 8) (p : Profile) : Coordinated s (s.takeMode m p) := by
  by_cases inForce : m = s.helm.mode
  · subst inForce
    rw [s.takeMode_inForce]
    refine Coordinated.trans ?_ ((State.formTow_coordinated _).trans (State.guardWritten_coordinated _))
    have within := s.reprofiled_within p
    refine ⟨⟨fun h => ?_, fun h => ?_, fun h => State.reprofiled_targets h, fun h => ?_⟩,
      fun _ => within.forcedSound (State.setForced_forced _)⟩
    · unfold State.reprofiled
      dsimp only
      split
      · exact State.recompute_enginesSound _ (State.EnginesSound.stopped (s := s) h)
      · exact h
    · unfold State.reprofiled
      dsimp only
      split
      · refine State.recompute_washSound _ (State.setForced_ordered ?_)
        exact State.Ordered.ofSame (s := s) h.ordered rfl rfl
      · exact h.ofSame rfl rfl
    · exact within.nominal (State.NominalFormed.ofProp h rfl)
  · unfold State.takeMode
    rw [if_neg inForce]
    refine s.modHelm_coordinated _ ?_
    show (s.helm.modes.set m p)[s.helm.mode] = _
    rw [set_get, if_neg inForce]

theorem State.writeMode_coordinated (i : Byte) (r : ModeRaw) (s : State) : Coordinated s (s.writeMode i r).1 := by
  unfold State.writeMode
  split
  · split
    · exact s.takeMode_coordinated _ _
    · exact .refl s
  · exact .refl s

theorem nominalPower_eq (t : Table Engine 6) : ((nominalPower t : Nat) : Int) = sum6 fun i =>
    if t[i].state ≠ .absent ∧ 0 < t[i].entry.weight then (t[i].entry.rating : Int) else 0 := by
  unfold nominalPower
  rw [sumEngines_eq, sum6_natCast]
  intro i
  split
  · exact Int.natCast_nonneg _
  · exact le_rfl

/-- N is formed from the engines as they are (R30). -/
theorem State.formNominal_formed (s : State) : s.formNominal.NominalFormed :=
  nominalPower_eq s.prop.engines

theorem State.startedEngine_setpoint (s : State) (e : EngineEntry) (x : Engine) :
    (s.startedEngine e x).setpoint = 0 := rfl

theorem State.takeEngine_coordinated (s : State) (i : Fin 6) (e : EngineEntry) (b : Bool) :
    Coordinated s (s.takeEngine i e b) := by
  unfold State.takeEngine
  refine Prepared.recompute ⟨fun h j => ?_, fun h => h.ofSame rfl rfl, fun h => h.ofSame rfl rfl,
    fun _ => State.formNominal_formed _⟩
  show (s.modEngine i _).prop.engines[j].state ≠ _ → (s.modEngine i _).prop.engines[j].setpoint = 0
  rw [State.modEngine_engine]
  split
  · split
    · exact fun _ => rfl
    · exact h i
  · exact h j

theorem State.writeEngine_coordinated (i : Byte) (r : EngineRaw) (s : State) : Coordinated s (s.writeEngine i r).1 := by
  unfold State.writeEngine
  split
  · dsimp only
    split
    · exact .refl s
    · split
      · split
        · exact .refl s
        · split
          · exact .refl s
          · dsimp only
            exact s.takeEngine_coordinated _ _ _
      · exact .refl s
  · exact .refl s

theorem State.takeActuator_coordinated (s : State) (i : Fin 5) (e : ActuatorEntry) :
    Coordinated s (s.takeActuator i e) := by
  unfold State.takeActuator
  dsimp only
  refine Unforced.reviewForced (Unforced.trans ?_ (State.placeOrdered_slotted _ i).coordinated.toUnforced)
  refine Unforced.trans ?_ (State.latchWhere_coordinated _ _ _ _).toUnforced
  refine s.modActuator_unforced i _ fun _ present => ?_
  exact if_neg present

theorem State.writeActuator_coordinated (i : Byte) (r : ActuatorRaw) (s : State) :
    Coordinated s (s.writeActuator i r).1 := by
  unfold State.writeActuator
  split
  · exact .refl s
  · split
    · split
      · split
        · exact .refl s
        · exact s.takeActuator_coordinated _ _
      · exact .refl s
    · exact .refl s

theorem State.takeCoupling_coordinated (s : State) (c : Fin 48) (e : CouplingEntry) (b : Bool) :
    Coordinated s (s.takeCoupling c e b) := by
  unfold State.takeCoupling
  split
  · exact (s.modCoupling_coordinated c _).trans (State.formTow_coordinated _)
  · exact s.modCoupling_coordinated c _

theorem State.writeCoupling_coordinated (i : Byte) (r : CouplingRaw) (s : State) :
    Coordinated s (s.writeCoupling i r).1 := by
  unfold State.writeCoupling
  split
  · dsimp only
    split
    · exact .refl s
    · split
      · split
        · exact .refl s
        · split
          · exact .refl s
          · exact s.takeCoupling_coordinated _ _ _
      · exact .refl s
  · exact .refl s

/-! ### Tanks: the LOW flag and the ceiling it calls for (R112) -/

theorem TankEntry.written_low (e : TankEntry) (k : Tank) : (e.written k).low = k.low ∧ (e.written k).entry = e := by
  unfold TankEntry.written
  split <;> exact ⟨rfl, rfl⟩

/-- A tank changed so that its tank-low ceiling contribution is as it was. -/
theorem State.modTank_ceiling (s : State) (t : Fin 8) (f : Tank → Tank)
    (e : (if (f s.fuel.tanks[t]).low then (f s.fuel.tanks[t]).entry.lowCeiling else 1000) =
      if s.fuel.tanks[t].low then s.fuel.tanks[t].entry.lowCeiling else 1000) : Coordinated s (s.modTank t f) := by
  have low : (s.modTank t f).coordination.low = s.coordination.low := by
    funext k
    show (if (modTable s.fuel.tanks t f)[k].low then (modTable s.fuel.tanks t f)[k].entry.lowCeiling else 1000) = _
    rw [modTable_get]
    split
    · next h => subst h; exact e
    · rfl
  exact .ofSame (congrArg (fun l => { s.coordination with low := l }) low)

theorem State.testLow_idle {s : State} {t : Fin 8} (h : s.fuel.tanks[t].isLow = s.fuel.tanks[t].low) : s.testLow t = s :=
  if_pos h

theorem State.testLow_prepared {s : State} {t : Fin 8} (h : s.fuel.tanks[t].isLow ≠ s.fuel.tanks[t].low) :
    ∃ u, s.testLow t = u.recompute ∧ Prepared s u := by
  unfold State.testLow
  dsimp only
  rw [if_neg h]
  have flagged : Prepared s (s.modTank t fun k => { k with low := s.fuel.tanks[t].isLow }) := .ofSame rfl rfl rfl
  exact ⟨_, rfl, flagged.trans (State.latchWhere_prepared _ _ _ _)⟩

/-- A tank write leaves the ceiling that its tank calls for, or brings a recompute (R26, R112). -/
theorem State.takeTank_coordinated (s : State) (t : Fin 8) (e : TankEntry) : Coordinated s (s.takeTank t e) := by
  have written : (s.modTank t e.written).fuel.tanks[t] = e.written s.fuel.tanks[t] := by
    show (modTable s.fuel.tanks t e.written)[t] = _
    rw [modTable_get, if_pos rfl]
  have prepared : Prepared s (s.modTank t e.written) := .ofSame rfl rfl rfl
  unfold State.takeTank
  dsimp only
  by_cases idle : (s.modTank t e.written).fuel.tanks[t].isLow = (s.modTank t e.written).fuel.tanks[t].low
  · rw [State.testLow_idle idle]
    split
    · exact prepared.recompute
    · next same =>
      refine s.modTank_ceiling t _ ?_
      rw [written] at same
      obtain ⟨low, entry⟩ := e.written_low s.fuel.tanks[t]
      rw [low] at same ⊢
      rw [entry]
      by_cases l : s.fuel.tanks[t].low = true
      · rw [if_pos l, if_pos l]
        by_contra n
        exact same ⟨l, l, fun q => n q.symm⟩
      · rw [if_neg l, if_neg l]
  · obtain ⟨u, tested, ready⟩ := State.testLow_prepared idle
    rw [tested]
    have formed := (prepared.trans ready).recompute
    split
    · exact formed.trans (State.recompute_coordinated _)
    · exact formed

theorem State.writeTank_coordinated (i : Byte) (r : TankRaw) (s : State) : Coordinated s (s.writeTank i r).1 := by
  unfold State.writeTank
  split
  · dsimp only
    split
    · exact .refl s
    · split
      · split
        · exact .refl s
        · split
          · exact .refl s
          · exact s.takeTank_coordinated _ _
      · exact .refl s
  · exact .refl s

theorem State.writeMeter_coordinated (i : Byte) (r : MeterRaw) (s : State) : Coordinated s (s.writeMeter i r).1 := by
  unfold State.writeMeter
  split
  · exact .refl s
  · split
    · split
      · split
        · exact .refl s
        · exact s.modMeter_coordinated _ _
      · exact .refl s
    · exact .refl s

theorem State.writeMap_coordinated (k c : Byte) (s : State) : Coordinated s (s.writeMap k c).1 := by
  unfold State.writeMap
  split <;> exact .ofSame rfl

/-! ### Notices -/

theorem State.reportNew_coordinated (s : State) (c : Fin 8) : Coordinated s (s.reportNew c) := by
  unfold State.reportNew
  split
  · exact (s.buildReport_noted c).coordinated
  · exact .refl s

theorem foldl_relatch_noted (l : List Notice) (r : State × Bool) : Noted r.1 (l.foldl relatch r).1 := by
  induction l generalizing r with
  | nil => exact Noted.refl _
  | cons n l ih => exact (relatch_noted r n).trans (ih _)

theorem State.clearNotices_coordinated (s : State) (ns : List Notice) : Coordinated s (s.clearNotices ns) := by
  have removed : Coordinated s (s.removeNotices ns) := .ofSame rfl
  exact removed.trans ((foldl_relatch_noted ns (s.removeNotices ns, false)).trans (lossNoted_noted _)).coordinated

theorem State.decideSetup_coordinated (o : Origin) (m c a d : Byte) (s : State) :
    Coordinated s (s.decideSetup o m c a d) := by
  unfold State.decideSetup
  split
  · next x _ =>
    have set : Coordinated s (s.setUp x m a d) := .ofSame rfl
    exact State.reply_coordinated (set.trans (Coordinated.foldl _ State.reportNew_coordinated _ _)) _ _ _ _
  · exact .ofSame rfl

theorem State.readNotices_coordinated (o : Origin) (c x : Byte) (s : State) : Coordinated s (s.readNotices o c x) := by
  unfold State.readNotices
  split
  · next k _ =>
    dsimp only
    refine State.reply_coordinated ?_ _ _ _ _
    split
    · exact .refl s
    · have cleared : Coordinated s (s.clearOverflow k) := .ofSame rfl
      exact cleared.trans (State.clearNotices_coordinated _ _)
  · exact .ofSame rfl

theorem State.takeClear_coordinated (o : Origin) (k x y : Byte) (s : State) : Coordinated s (s.takeClear o k x y) := by
  unfold State.takeClear
  split
  · exact State.reply_coordinated (s.clearNotices_coordinated _) _ _ _ _
  · exact .ofSame rfl

/-! ### Fuel -/

theorem State.takePreset_coordinated (o : Origin) (t : Byte) (q : Quad) (s : State) :
    Coordinated s (s.takePreset o t q) := by
  unfold State.takePreset
  split
  · next k _ =>
    split
    · exact .ofSame rfl
    · have preset : Coordinated s (s.modTank k fun x => x.preset q.toNat) :=
        s.modTank_coordinated k _ fun _ => ⟨rfl, rfl⟩
      refine State.reply_coordinated ?_ _ _ _ _
      exact (preset.trans (State.testLow_coordinated _ k)).trans (State.testDiscrepant_coordinated _ k)
  · exact .ofSame rfl

theorem State.openLeg_coordinated (s : State) (b m : Nat) : Coordinated s (s.openLeg b m) := by
  unfold State.openLeg
  refine Coordinated.trans ?_ (State.testReserve_coordinated _)
  exact .ofSame rfl

theorem State.takeLeg_coordinated (o : Origin) (b m : Quad) (s : State) : Coordinated s (s.takeLeg o b m) := by
  unfold State.takeLeg
  split
  · exact .ofSame rfl
  · exact State.reply_coordinated (s.openLeg_coordinated _ _) _ _ _ _

theorem State.modStatement_coordinated (s : State) (f : Statement → Statement) : Coordinated s (s.modStatement f) :=
  .ofSame rfl

theorem State.endStatement_coordinated (s : State) (b : Byte) : Coordinated s (s.endStatement b) :=
  (s.modStatement_coordinated _).trans (State.latch_coordinated _ _ _)

theorem State.placeBlocks_coordinated (l : List Block) (s : State) : Coordinated s (s.placeBlocks l) := by
  induction l generalizing s with
  | nil => exact s.endStatement_coordinated 0
  | cons b l ih =>
    unfold State.placeBlocks
    split
    · refine Coordinated.trans ?_ (ih _)
      exact .ofSame rfl
    · exact s.modStatement_coordinated _

theorem State.sendStatement_coordinated (s : State) : Coordinated s s.sendStatement :=
  (s.modStatement_coordinated _).trans (State.placeBlocks_coordinated _ _)

theorem State.takeStatement_coordinated (o : Origin) (s : State) : Coordinated s (s.takeStatement o) := by
  unfold State.takeStatement
  split
  · exact .ofSame rfl
  · dsimp only
    refine State.reply_coordinated ?_ _ _ _ _
    exact (s.modStatement_coordinated _).trans (State.sendStatement_coordinated _)

theorem State.takeAbort_coordinated (o : Origin) (s : State) : Coordinated s (s.takeAbort o) := by
  unfold State.takeAbort
  split
  · exact State.reply_coordinated (s.modStatement_coordinated _) _ _ _ _
  · exact .ofSame rfl

/-! ### The other requests -/

theorem State.readTable_coordinated (o : Origin) (t i : Byte) (s : State) : Coordinated s (s.readTable o t i) := by
  unfold State.readTable
  split <;> exact .ofSame rfl

theorem State.readState_coordinated (o : Origin) (r i p : Byte) (s : State) : Coordinated s (s.readState o r i p) := by
  unfold State.readState
  repeat' split
  all_goals exact .ofSame rfl

theorem State.takeAllocate_coordinated (o : Origin) (w m t : Byte) (s : State) :
    Coordinated s (s.takeAllocate o w m t) := by
  unfold State.takeAllocate
  repeat' split
  all_goals exact .ofSame rfl

theorem State.takeAddress_coordinated (o : Origin) (a : Byte) (s : State) : Coordinated s (s.takeAddress o a) := by
  unfold State.takeAddress
  repeat' split
  all_goals exact .ofSame rfl

theorem State.writeBody_coordinated (s : State) (l : List Byte) : Coordinated s (s.writeBody l).2 := by
  unfold State.writeBody
  split <;> exact .ofSame rfl

theorem State.takeUnknown_coordinated (o : Origin) (l : List Byte) (s : State) : Coordinated s (s.takeUnknown o l) := by
  unfold State.takeUnknown
  split
  · exact .ofSame rfl
  · split
    · exact State.reply_coordinated (s.writeBody_coordinated _) _ _ _ _
    · exact .ofSame rfl

/-- A state that has all of it, whatever was before. -/
theorem Coordinated.ofHolds {s t : State} (engines : t.EnginesSound) (wash : t.WashSound) (targets : t.TargetsFormed)
    (nominal : t.NominalFormed) (forced : t.ForcedSound) : Coordinated s t :=
  ⟨⟨fun _ => engines, fun _ => wash, fun _ => targets, fun _ => nominal⟩, fun _ => forced⟩

theorem State.warmRestart_engines (s : State) : s.warmRestart.EnginesSound := fun i => by
  rw [State.warmRestart_engine]
  obtain ⟨_, _, _, _, _, _, _, _, e, _⟩ := s.restartedBlocks.reformEngine_keeps s.prop.engines[i].restarted
  rw [e]
  have range : ∀ a b : Nat, -(a : Int) ≤ 0 ∧ (0 : Int) ≤ b := fun a b => by omega
  exact ⟨range _ _, range _ _, fun _ => ⟨rfl, rfl⟩⟩

theorem State.takeRestart_coordinated (o : Origin) (s : State) : Coordinated s (s.takeRestart o) := by
  unfold State.takeRestart
  split
  · refine State.reply_coordinated (.ofHolds s.warmRestart_engines s.warmRestart_wash s.warmRestart_targets
      s.warmRestart_nominal ?_) _ _ _ _
    exact State.setForced_forced _
  · exact .ofSame rfl

end Sys2Proof.Machine

end

