-- ==== Sys2Proof/Proofs/StepKept.lean ====
section
/-! PROOF. Proofs/StepKept.lean: the roster, the frames, the link ports and the expiries keep the engines in range, the
forced steer-assist field, the wash with the ordered values, the targets and N as their sources have them; so every
command does, and every step. -/

namespace Sys2Proof.Machine

/-! ### The roster (6.2) -/

theorem State.hear_coordinated (s : State) (n : Fin 32) : Coordinated s (s.hear n) := by
  unfold State.hear
  split
  · exact s.modNode_coordinated n _
  · exact (s.modNode_coordinated n _).trans (State.handOver_coordinated _ n)
  · exact .refl s

theorem State.heard_coordinated (s : State) (p : Port) (a : Byte) : Coordinated s (s.heard p a) := by
  unfold State.heard
  split
  · exact s.hear_coordinated _
  · exact .refl s

theorem State.frameEnd_coordinated (s : State) (p : Port) : Coordinated s (s.frameEnd p) :=
  .ofSame rfl

theorem State.arrive_coordinated (s : State) (p : Port) (a : Byte) : Coordinated s (s.arrive p a) :=
  (s.frameEnd_coordinated p).trans (State.heard_coordinated _ p a)

theorem State.enrolNode_coordinated (s : State) (n : Fin 32) : Coordinated s (s.enrolNode n) := by
  unfold State.enrolNode
  split
  · exact .refl s
  · exact (s.modNode_coordinated n _).trans (State.latch_coordinated _ _ _)
  · exact ((s.modNode_coordinated n _).trans (State.latch_coordinated _ _ _)).trans (State.handOver_coordinated _ n)
  · exact ((s.modNode_coordinated n _).trans (State.latch_coordinated _ _ _)).trans (State.handOver_coordinated _ n)

theorem State.enrolMismatch_coordinated (s : State) (n : Fin 32) : Coordinated s (s.enrolMismatch n) := by
  unfold State.enrolMismatch
  refine Coordinated.trans ?_ (State.latch_coordinated _ _ _)
  split
  · exact s.modNode_coordinated n _
  · exact .refl s

theorem State.takeEnrol_coordinated (s : State) (p : Port) (a : Byte) (b : List Byte) :
    Coordinated s (s.takeEnrol p a b) := by
  unfold State.takeEnrol
  split
  · split
    · exact s.enrolNode_coordinated _
    · exact s.enrolMismatch_coordinated _
  · exact .refl s

theorem State.silenceNode_coordinated (s : State) (n : Fin 32) : Coordinated s (s.silenceNode n) :=
  s.modNode_coordinated n _

theorem State.nodeSilent_coordinated (s : State) (n : Fin 32) : Coordinated s (s.nodeSilent n) :=
  ((s.silenceNode_coordinated n).trans (State.latch_coordinated _ _ _)).trans (State.handOver_coordinated _ n)

theorem State.silencePort_coordinated (s : State) (p : Port) : Coordinated s (s.silencePort p) :=
  (Coordinated.foldl _ State.silenceNode_coordinated _ s).trans
    (Coordinated.foldl _ (fun s n => (s.latch_coordinated _ _).trans (State.handOver_coordinated _ n)) _ _)

theorem State.endSlot_coordinated (s : State) (i : Fin 16) : Coordinated s (s.endSlot i) :=
  (s.endSlot_slotted i).coordinated

theorem State.failNode_coordinated (s : State) (n : Fin 32) : Coordinated s (s.failNode n) := by
  unfold State.failNode
  dsimp only
  refine Coordinated.trans ?_ (State.handOver_coordinated _ n)
  refine Coordinated.trans ((s.modNode_coordinated n fun x =>
    { x with state := .failed, silenceAt := none, refreshAt := none }).trans
      (State.latch_coordinated _ .nodeFailed (subjectOf n))) ?_
  split
  · exact (State.endSlot_coordinated _ _).trans (State.slotLost_coordinated _ _)
  · exact .refl _

theorem State.slotTimeout_coordinated (s : State) (i : Fin 16) : Coordinated s (s.slotTimeout i) := by
  unfold State.slotTimeout
  dsimp only
  refine Coordinated.trans (((s.endSlot_coordinated i).trans (State.modNode_coordinated _ s.trans.slots[i].target
    fun n => { n with timeouts := n.timeouts + 1 })).trans (State.orderEnded_coordinated _ s.trans.slots[i])) ?_
  split
  · exact State.failNode_coordinated _ _
  · exact State.wakeSlot_coordinated _ _

/-- The refresh of the engine, not ABSENT, that a node governs (R44). -/
def State.refreshEngine (s : State) (n : Fin 32) : State :=
  match s.engineOf n with
  | some i => if s.prop.engines[i].state = .absent then s else s.placeSetpoint i
  | none => s

/-- The refresh of the actuator, not ABSENT, of a node (R58). -/
def State.refreshActuator (s : State) (n : Fin 32) : State :=
  match s.actuatorOf n with
  | some i => if s.steer.actuators[i].state = .absent then s else s.placeOrdered i
  | none => s

theorem State.refresh_eq (s : State) (n : Fin 32) : s.refresh n = (s.refreshEngine n).refreshActuator n := by
  unfold State.refresh State.refreshEngine State.refreshActuator
  rfl

theorem State.refreshEngine_slotted (s : State) (n : Fin 32) : Slotted s (s.refreshEngine n) := by
  unfold State.refreshEngine
  split
  · split
    · exact Slotted.refl s
    · exact s.placeSetpoint_slotted _
  · exact Slotted.refl s

theorem State.refreshActuator_slotted (s : State) (n : Fin 32) : Slotted s (s.refreshActuator n) := by
  unfold State.refreshActuator
  split
  · split
    · exact Slotted.refl s
    · exact s.placeOrdered_slotted _
  · exact Slotted.refl s

theorem State.refresh_slotted (s : State) (n : Fin 32) : Slotted s (s.refresh n) := by
  rw [State.refresh_eq]
  exact (s.refreshEngine_slotted n).trans (State.refreshActuator_slotted _ n)

/-! ### Frames (chapters 7 and 8) -/

theorem State.jobReads_coordinated (s : State) (j : Job) (n : Fin 32) (c : Content) : Coordinated s (s.jobReads j n c) := by
  unfold State.jobReads
  split
  · exact s.engineReport_coordinated _ _ _ _
  · exact s.actuatorReport_coordinated _ _ _
  · exact Coordinated.foldl _ (State.tensionReading_coordinated n) _ s
  · exact s.winchReport_coordinated _ _
  · exact Coordinated.foldl _ (State.flowReading_coordinated n) _ s
  · exact Coordinated.foldl _ (State.levelReading_coordinated n) _ s
  · exact .refl s

theorem State.deliver_coordinated (s : State) (p : Port) (a : Byte) (c : Content) (j : Job) :
    Coordinated s (s.deliver p a c j) := by
  unfold State.deliver
  split
  · exact s.jobReads_coordinated _ _ _
  · exact .refl s

theorem State.forwardCopy_coordinated (s : State) (p : Port) (f : Frame) : Coordinated s (s.forwardCopy p f) := by
  unfold State.forwardCopy
  split
  · next e => rw [State.placeFrame_eq e]; exact .ofSame rfl
  · exact s.latch_coordinated _ _

theorem State.passOn_coordinated (s : State) (p : Port) (f : Frame) (x : PortSet) : Coordinated s (s.passOn p f x) := by
  refine Coordinated.foldl _ (fun u q => ?_) allPorts s
  unfold State.copyTo
  split
  · exact u.forwardCopy_coordinated q f
  · exact .refl u

theorem State.dispose_coordinated (s : State) (p : Port) (f : Frame) (c : Content) : Coordinated s (s.dispose p f c) := by
  have taken : Coordinated s
      (if (s.fwd.disposition p f).1.takes then s.deliver p f.src c (s.fwd.disposition p f).2.1 else s) := by
    split
    · exact s.deliver_coordinated p f.src c _
    · exact .refl s
  unfold State.dispose
  dsimp only
  split
  · exact taken.trans (State.passOn_coordinated _ _ _ _)
  · exact taken

theorem State.passage_coordinated (s : State) (p : Port) (f : Frame) (c : Content) : Coordinated s (s.passage p f c) :=
  State.receive_coordinated ((s.arrive_coordinated p f.src).trans (State.dispose_coordinated _ p f c))

theorem State.complete_coordinated (s : State) (n : Fin 32) (i : Fin 16) : Coordinated s (s.complete n i) :=
  ((s.endSlot_coordinated i).trans (State.modNode_coordinated _ n _)).trans (State.orderEnded_coordinated _ _)

theorem State.readEcho_coordinated (s : State) (n : Fin 32) (x : Half) : Coordinated s (s.readEcho n x) := by
  unfold State.readEcho
  split
  · exact s.actuatorReport_coordinated n x none
  · exact .refl s

theorem State.readFull_coordinated (s : State) (n : Fin 32) (r : RunState) (l : Half) (a : AlarmLevel) :
    Coordinated s (s.readFull n r l a) := by
  unfold State.readFull
  split
  · exact s.engineReport_coordinated n r l a
  · exact .refl s

theorem State.echoOwner_coordinated (s : State) (n : Fin 32) (x : Slot) (h : Half) : Coordinated s (s.echoOwner n x h) := by
  unfold State.echoOwner
  split
  · exact s.readEcho_coordinated n h
  · exact .refl s

theorem State.fullOwner_coordinated (s : State) (n : Fin 32) (x : Slot) (r : RunState) (l : Half) (a : AlarmLevel) :
    Coordinated s (s.fullOwner n x r l a) := by
  unfold State.fullOwner
  split
  · exact s.readFull_coordinated n r l a
  · exact .refl s

theorem State.takeEcho_coordinated (s : State) (p : Port) (o : Origin) (x : Half) : Coordinated s (s.takeEcho p o x) := by
  unfold State.takeEcho
  split
  · split
    · exact .refl s
    · split
      · exact ((s.complete_coordinated _ _).trans (State.echoOwner_coordinated _ _ _ _)).trans
          (State.wakeSlot_coordinated _ _)
      · exact s.readEcho_coordinated _ _
  · exact .refl s

theorem State.takeFull_coordinated (s : State) (p : Port) (o : Origin) (r : RunState) (l : Half) (a : AlarmLevel) :
    Coordinated s (s.takeFull p o r l a) := by
  unfold State.takeFull
  split
  · split
    · exact .refl s
    · split
      · exact ((s.complete_coordinated _ _).trans (State.fullOwner_coordinated _ _ _ _ _ _)).trans
          (State.wakeSlot_coordinated _ _)
      · exact s.readFull_coordinated _ _ _ _
  · exact .refl s

/-! ### The link ports (chapter 7) -/

theorem State.startSending_coordinated (s : State) (p : Port) : Coordinated s (s.startSending p) := by
  have source : ∀ (u : State) (x : Source), Coordinated u (u.takeSource x) := fun u x => by
    unfold State.takeSource
    split <;> exact .ofSame rfl
  have begun : ∀ (u : State) (x : Source × Frame), Coordinated u (u.beginSending p x) := fun u x =>
    (source u x.1).trans (.ofSame rfl)
  have reached : ∀ n, Coordinated s (s.reach n) := fun n => .ofSame rfl
  unfold State.startSending
  split
  · split
    · exact (reached _).trans (begun _ _)
    · exact .refl s
  · exact .refl s

theorem State.endSending_coordinated (s : State) (p : Port) : Coordinated s (s.endSending p) := by
  have completed : ∀ (u : State) (x : Source), Coordinated u (u.completeSource p x) := fun u x => by
    unfold State.completeSource
    split <;> exact .ofSame rfl
  unfold State.endSending
  split
  · refine Coordinated.trans ?_ (completed _ _)
    exact .ofSame rfl
  · exact .refl s

theorem State.breakLine_coordinated (s : State) (p : Port) : Coordinated s (s.breakLine p) := by
  unfold State.breakLine
  split
  · have down : Coordinated s (s.modLine p fun x => { x with line := .down, assembly := Assembly.empty }) := .ofSame rfl
    exact (down.trans (State.silencePort_coordinated _ p)).trans (.ofSame rfl)
  · exact .refl s

theorem State.raiseLine_coordinated (s : State) (p : Port) (b : Byte) : Coordinated s (s.raiseLine p b) := by
  unfold State.raiseLine
  split <;> exact .ofSame rfl

theorem State.resumeStatement_coordinated (s : State) : Coordinated s s.resumeStatement := by
  unfold State.resumeStatement
  split
  · exact s.sendStatement_coordinated
  · exact .refl s

theorem State.frameDiscard_coordinated (s : State) (p : Port) : Coordinated s
    (s.receive p fun s => if (s.link.ports.get p).line = .up then s.frameEnd p else s) := by
  refine State.receive_coordinated ?_
  split
  · exact s.frameEnd_coordinated p
  · exact .refl s

theorem State.powerOnReset_coordinated (s : State) :
    Coordinated s { State.reset with free := s.free, pending := s.pending } := by
  have reset : State.reset.Sound := resetIsSound
  have same : Coordinated State.reset { State.reset with free := s.free, pending := s.pending } := .ofSame rfl
  exact .ofHolds (same.engines reset.engines) (same.wash reset.wash) (same.targets reset.targets)
    (same.nominal reset.nominal) (same.forced reset.forced)

/-! ### Every command -/

/-- What a command does keeps it all. -/
def KeepsCoordination (c : Instr) (s : State) : Prop :=
  ∃ t, exec c s = .next t ∧ Coordinated s t

theorem expiry_keepsCoordination {c : Instr} {s : State} {t : Timer} {act : State → State}
    (e : exec c s = .next (s.expire t act)) (h : ∀ u, Coordinated u (act u)) : KeepsCoordination c s :=
  ⟨_, e, State.expire_coordinated h⟩

/-- Every command but a PASSAGE_FRAME keeps it all. -/
theorem exec_keepsCoordination_plain (c : Instr) (s : State) (n : ∀ p f, c ≠ .passageFrame p f) :
    KeepsCoordination c s := by
  cases c with
  | passageFrame p f => exact absurd rfl (n p f)
  | powerOnReset => exact ⟨_, rfl, s.powerOnReset_coordinated⟩
  | frameDiscard p => exact ⟨_, rfl, s.frameDiscard_coordinated p⟩
  | lineBreak p => exact ⟨_, rfl, s.breakLine_coordinated p⟩
  | lineUp p b => exact ⟨_, rfl, s.raiseLine_coordinated p b⟩
  | transmitStart p => exact ⟨_, rfl, s.startSending_coordinated p⟩
  | transmitCompletion p => exact ⟨_, rfl, s.endSending_coordinated p⟩
  | statementResume => exact ⟨_, rfl, s.resumeStatement_coordinated⟩
  | propel o p m d f => exact ⟨_, rfl, State.commanded_coordinated (State.decidePropel_coordinated p m d f)⟩
  | steer o r m b => exact ⟨_, rfl, State.commanded_coordinated (State.decideSteer_coordinated r m b)⟩
  | convoyMode o x => exact ⟨_, rfl, State.commanded_coordinated (State.decideMode_coordinated x)⟩
  | takeCommand o x => exact ⟨_, rfl, State.order_coordinated (State.decideTakeCommand_coordinated o)⟩
  | helmResume o x => exact ⟨_, rfl, State.order_coordinated (State.decideHelmResume_coordinated o)⟩
  | orderUnknown o l => exact execOrderUnknown_coordinated o l s
  | coupleRelease o x =>
    exact ⟨_, rfl, State.commanded_coordinated (State.decideCouple_coordinated x State.decideRelease_coordinated)⟩
  | coupleCancel o x =>
    exact ⟨_, rfl, State.commanded_coordinated (State.decideCouple_coordinated x State.decideCancel_coordinated)⟩
  | coupleMakeUp o x =>
    exact ⟨_, rfl, State.commanded_coordinated (State.decideCouple_coordinated x State.decideMakeUp_coordinated)⟩
  | acceptParted o x =>
    exact ⟨_, rfl, State.commanded_coordinated (State.decideCouple_coordinated x State.decideAccept_coordinated)⟩
  | enrol p h l =>
    exact ⟨_, rfl, State.receive_coordinated ((s.frameEnd_coordinated p).trans (State.takeEnrol_coordinated _ p h.src l))⟩
  | echo p o x =>
    exact ⟨_, rfl, State.receive_coordinated ((s.arrive_coordinated p o.src).trans (State.takeEcho_coordinated _ p o x))⟩
  | full p o r l a =>
    exact ⟨_, rfl,
      State.receive_coordinated ((s.arrive_coordinated p o.src).trans (State.takeFull_coordinated _ p o r l a))⟩
  | ackOfNoKind p o l => exact ⟨_, rfl, State.receive_coordinated (s.arrive_coordinated p o.src)⟩
  | engineStatus p h r l a => exact ⟨_, rfl, s.passage_coordinated p _ _⟩
  | actuatorStatus p h x g => exact ⟨_, rfl, s.passage_coordinated p _ _⟩
  | winchStatus p h w => exact ⟨_, rfl, s.passage_coordinated p _ _⟩
  | tension p h rs => exact ⟨_, rfl, s.passage_coordinated p _ _⟩
  | flow p h rs => exact ⟨_, rfl, s.passage_coordinated p _ _⟩
  | level p h rs => exact ⟨_, rfl, s.passage_coordinated p _ _⟩
  | slotRelease k => exact ⟨_, rfl, s.orderRelease_coordinated k⟩
  | identify o => exact ⟨_, rfl, State.request_coordinated fun u => State.reply_coordinated (.refl u) _ _ _ _⟩
  | tableRead o t i => exact ⟨_, rfl, State.request_coordinated (State.readTable_coordinated o t i)⟩
  | tableWriteStation o i a => exact ⟨_, rfl, State.tableWrite_coordinated (State.writeStation_coordinated i a)⟩
  | tableWriteRoster o i r => exact ⟨_, rfl, State.tableWrite_coordinated (State.writeRoster_coordinated i r)⟩
  | tableWritePassage o i r => exact ⟨_, rfl, State.tableWrite_coordinated (State.writePassage_coordinated i r)⟩
  | tableWriteDefault o i r => exact ⟨_, rfl, State.tableWrite_coordinated (State.writeDefault_coordinated i r)⟩
  | tableWriteMode o i r => exact ⟨_, rfl, State.tableWrite_coordinated (State.writeMode_coordinated i r)⟩
  | tableWriteEngine o i r => exact ⟨_, rfl, State.tableWrite_coordinated (State.writeEngine_coordinated i r)⟩
  | tableWriteActuator o i r => exact ⟨_, rfl, State.tableWrite_coordinated (State.writeActuator_coordinated i r)⟩
  | tableWriteCoupling o i r => exact ⟨_, rfl, State.tableWrite_coordinated (State.writeCoupling_coordinated i r)⟩
  | tableWriteTank o i r => exact ⟨_, rfl, State.tableWrite_coordinated (State.writeTank_coordinated i r)⟩
  | tableWriteMeter o i r => exact ⟨_, rfl, State.tableWrite_coordinated (State.writeMeter_coordinated i r)⟩
  | tableWriteNoticeMap o k x => exact ⟨_, rfl, State.tableWrite_coordinated (State.writeMap_coordinated k x)⟩
  | stateRead o r i p => exact ⟨_, rfl, State.request_coordinated (State.readState_coordinated o r i p)⟩
  | allocate o w m t => exact ⟨_, rfl, State.request_coordinated (State.takeAllocate_coordinated o w m t)⟩
  | setAddress o a => exact ⟨_, rfl, State.request_coordinated (State.takeAddress_coordinated o a)⟩
  | noticeSetup o m x a d => exact ⟨_, rfl, State.request_coordinated (State.decideSetup_coordinated o m x a d)⟩
  | noticeRead o x y => exact ⟨_, rfl, State.request_coordinated (State.readNotices_coordinated o x y)⟩
  | noticeClear o k x y => exact ⟨_, rfl, State.request_coordinated (State.takeClear_coordinated o k x y)⟩
  | fuelPreset o t q => exact ⟨_, rfl, State.request_coordinated (State.takePreset_coordinated o t q)⟩
  | legStart o b m => exact ⟨_, rfl, State.request_coordinated (State.takeLeg_coordinated o b m)⟩
  | statementStart o => exact ⟨_, rfl, State.request_coordinated (State.takeStatement_coordinated o)⟩
  | statementAbort o => exact ⟨_, rfl, State.request_coordinated (State.takeAbort_coordinated o)⟩
  | restart o => exact ⟨_, rfl, State.request_coordinated (State.takeRestart_coordinated o)⟩
  | mgmtUnknown o l => exact ⟨_, rfl, State.request_coordinated (State.takeUnknown_coordinated o l)⟩
  | guardExpiry => exact expiry_keepsCoordination rfl State.loseHelm_coordinated
  | stepExpiry i => exact expiry_keepsCoordination rfl fun u => u.takeStep_coordinated i
  | dwellExpiry i =>
    exact expiry_keepsCoordination rfl fun u => u.modSlewing_coordinated i _ u.endDwell_basis u.endDwell_setpoint
  | divergenceExpiry i => exact expiry_keepsCoordination rfl fun u => u.diverge_coordinated i
  | sampleSilenceExpiry k => exact expiry_keepsCoordination rfl fun u => u.couplingUnheard_coordinated k
  | holdExpiry b => exact expiry_keepsCoordination rfl fun u => u.holdEnds_coordinated b
  | releaseWaitExpiry k =>
    refine ⟨_, rfl, ?_⟩
    split
    · exact State.expire_coordinated fun u => u.abandonRelease_coordinated k
    · exact .refl s
  | makeupWaitExpiry k =>
    refine ⟨_, rfl, ?_⟩
    split
    · exact State.expire_coordinated fun u => u.abandonMakeup_coordinated k
    · exact .refl s
  | meterSilenceExpiry i => exact expiry_keepsCoordination rfl fun u => u.startEstimating_coordinated i
  | estimateTick i => exact expiry_keepsCoordination rfl fun u => u.tick_coordinated i
  | stallExpiry => exact expiry_keepsCoordination rfl fun u => u.endStatement_coordinated 1
  | silenceExpiry m => exact expiry_keepsCoordination rfl fun u => u.nodeSilent_coordinated m
  | refreshExpiry m =>
    exact expiry_keepsCoordination rfl fun u => (u.modNode_coordinated m _).trans (State.refresh_slotted _ m).coordinated
  | ackTimeout i => exact expiry_keepsCoordination rfl fun u => u.slotTimeout_coordinated i

/-- Every command keeps it all, a frame as the command that fixed intake finds in it (R162). -/
theorem exec_keepsCoordination (c : Instr) (s : State) : KeepsCoordination c s := by
  unfold KeepsCoordination
  rw [exec_actual]
  unfold Instr.actual
  split
  · next p f =>
    split
    · next h =>
      refine exec_keepsCoordination_plain _ s fun q g e => ?_
      have := classify_isTaken h
      rw [e] at this
      cases this
    · next h => exact ⟨_, if_neg h, s.passage_coordinated p f _⟩
  · next h => exact exec_keepsCoordination_plain c s h

theorem step_coordinated {s t : State} (h : step s = .next t) : Coordinated s t := by
  obtain ⟨c, rest, e⟩ | rfl := step_cases h
  · obtain ⟨u, run, k⟩ := exec_keepsCoordination c { s with pending := rest }
    rw [run] at e
    cases e
    have queued : Coordinated s { s with pending := rest } := .ofSame rfl
    exact queued.trans k
  · exact .ofSame rfl

end Sys2Proof.Machine

open Sys2Proof Sys2Proof.Machine

/-- Settles O9: a recompute brings the engines into range and the reviews after it form the wash, the ordered values and
the forced steer-assist field; what brings no recompute moves none of their sources. -/
theorem stepKeepsEnginesWashAndForcedAssist : Obligations.StepKeepsEnginesWashAndForcedAssist :=
  ⟨fun _ _ h e => (step_coordinated e).engines h, fun _ _ h e => (step_coordinated e).forced h,
    fun _ _ h e => (step_coordinated e).wash h⟩

/-- Settles O10: each command that changes a source of the targets recomputes, and each that changes a rating, a weight or
which engines are ABSENT forms N. -/
theorem stepKeepsTargets : Obligations.StepKeepsTargets :=
  ⟨fun _ _ h e => (step_coordinated e).targets h, fun _ _ h e => (step_coordinated e).nominal h⟩

end

