-- ==== Sys2Proof/Proofs/Recomputes.lean ====
section
/-! PROOF. Proofs/Recomputes.lean: what one recompute makes of the demand, of each engine's ceilings and of its slewing
(R24 to R36, R40, R41). -/

namespace Sys2Proof.Machine

/-! ### Signs, steps and dwells as the statements have them (2.6) -/

theorem sameSign_iff (t : Int) (x : LastSign) : sameSign t x = true ↔ x.agrees t := by
  cases x <;> simp [sameSign, LastSign.agrees]

theorem State.stepStart_eq (s : State) : s.stepStart = s.fullStep := by
  unfold State.stepStart State.fullStep State.after State.profile ms
  congr 1
  ring

theorem State.dwellStart_eq (s : State) : s.after (ms (s.profile.reversalDwell * 100)) =
    some (s.now + 100000 * s.helm.modes[s.helm.mode].reversalDwell) := by
  unfold State.after State.profile ms
  congr 1
  ring

theorem State.Paced.fullStep {s t : State} (h : s.Paced t) : t.fullStep = s.fullStep := by
  rw [← State.stepStart_eq, ← State.stepStart_eq]
  unfold State.stepStart State.after
  rw [h.1, h.2]

theorem State.Paced.halted {s t : State} (h : s.Paced t) {x : LastSign} {y : Engine} :
    t.Halted x y ↔ s.Halted x y := by
  have profile : t.helm.modes[t.helm.mode] = s.helm.modes[s.helm.mode] := h.2
  unfold State.Halted
  rw [h.fullStep, h.1, profile]

theorem State.Paced.slewed {s t : State} (h : s.Paced t) {x y : Engine} (k : t.Slewed x y) : s.Slewed x y where
  cut a b := h.halted.1 (k.cut a b)
  cancelled a b c := by
    rw [← h.fullStep]
    exact k.cancelled a b c
  dwells := k.dwells
  returns a b c d e := h.halted.1 (k.returns a b c d e)
  follows a b c := by
    rw [← h.fullStep]
    exact k.follows a b c

/-- The reversal dwell of the mode in force is 0. -/
theorem State.endDwell_ended (s : State) (e : Engine) : (s.endDwell e).lastSign = .unset ∧
    (s.endDwell e).dwellAt = none ∧ (s.endDwell e).target = e.target ∧
    (e.target = 0 → (s.endDwell e).slew = .steady ∧ (s.endDwell e).stepAt = none) ∧
    (e.target ≠ 0 → (s.endDwell e).slew = .slewing ∧ (s.endDwell e).stepAt = s.fullStep) := by
  unfold State.endDwell
  split
  · next h => exact ⟨rfl, rfl, rfl, fun _ => ⟨rfl, rfl⟩, fun n => absurd h n⟩
  · next h => exact ⟨rfl, rfl, rfl, fun n => absurd n h, fun _ => ⟨rfl, s.stepStart_eq⟩⟩

/-- An engine that begins a dwell is halted (R40). -/
theorem State.startDwell_halted (s : State) (e : Engine) : s.Halted e.lastSign (s.startDwell e) := by
  unfold State.Halted State.startDwell
  by_cases z : s.helm.modes[s.helm.mode].reversalDwell = 0
  · have z' : s.profile.reversalDwell = 0 := z
    rw [if_pos z, if_pos z']
    obtain ⟨sign, dwell, target, steady, slewing⟩ := s.endDwell_ended e
    rw [target]
    exact ⟨sign, dwell, steady, slewing⟩
  · have z' : ¬ s.profile.reversalDwell = 0 := z
    rw [if_neg z, if_neg z']
    exact ⟨rfl, rfl, rfl, s.dwellStart_eq⟩

theorem State.slewEngine_target (s : State) (d e : Engine) : (s.slewEngine d e).target = e.target :=
  Engine.basis_field (s.slewEngine_basis d e) Engine.target

/-! ### The branches of the slewing (R36, R41) -/

theorem State.slewEngine_cancels {s : State} {d e : Engine} (h : e.slew = .dwelling) (k : e.lastSign.agrees e.target) :
    s.slewEngine d e = s.cancelDwell e := by
  unfold State.slewEngine
  rw [if_pos h, if_pos ((sameSign_iff _ _).2 k)]

theorem State.slewEngine_dwells {s : State} {d e : Engine} (h : e.slew = .dwelling) (k : ¬ e.lastSign.agrees e.target) :
    s.slewEngine d e = e := by
  unfold State.slewEngine
  rw [if_pos h, if_neg fun q => k ((sameSign_iff _ _).1 q)]

theorem State.slewEngine_returns {s : State} {d e : Engine} (h : e.slew = .slewing) (z : e.setpoint = 0)
    (l : e.lastSign ≠ .unset) (k : ¬ e.lastSign.agrees e.target) : s.slewEngine d e = s.startDwell e := by
  unfold State.slewEngine
  rw [if_neg (by rw [h]; nofun), if_pos ⟨h, z, l, fun q => k ((sameSign_iff _ _).1 q)⟩]

/-- An engine that neither dwells nor returns to a dwell follows its target. -/
theorem State.slewEngine_follows {s : State} {d e : Engine} (h : e.slew ≠ .dwelling)
    (k : e.slew = .slewing → e.setpoint ≠ 0 ∨ e.lastSign = .unset ∨ e.lastSign.agrees e.target) :
    s.slewEngine d e =
      if e.target = e.setpoint then { e with slew := .steady, stepAt := none }
      else if e.slew = .steady then { e with slew := .slewing, stepAt := s.fullStep }
      else if e.direction = d.direction then e
      else { e with stepAt := s.fullStep } := by
  unfold State.slewEngine
  rw [if_neg h, if_neg, s.stepStart_eq]
  rintro ⟨slewing, zero, sign, other⟩
  obtain moving | unset | agrees := k slewing
  · exact moving zero
  · exact sign unset
  · exact other ((sameSign_iff _ _).2 agrees)

theorem EngineSlew_cases (x : Slew) (dwelling : x ≠ .dwelling) (steady : x ≠ .steady) : x = .slewing := by
  cases x
  · exact absurd rfl steady
  · rfl
  · exact absurd rfl dwelling

/-- The needed direction is the same where target and setpoint stand in the same order, unequal on either side. -/
theorem Engine.direction_eq_iff {d e : Engine} (n : d.target ≠ d.setpoint) (m : e.target ≠ e.setpoint) :
    e.direction = d.direction ↔ (d.setpoint < d.target ↔ e.setpoint < e.target) := by
  unfold Engine.direction
  obtain up | down := lt_or_gt_of_ne n <;> obtain up' | down' := lt_or_gt_of_ne m
  · rw [Int.sign_eq_neg_one_of_neg (by omega), Int.sign_eq_neg_one_of_neg (by omega)]
    exact iff_of_true rfl (by omega)
  · rw [Int.sign_eq_one_of_pos (by omega), Int.sign_eq_neg_one_of_neg (by omega)]
    exact iff_of_false (by decide) (by omega)
  · rw [Int.sign_eq_neg_one_of_neg (by omega), Int.sign_eq_one_of_pos (by omega)]
    exact iff_of_false (by decide) (by omega)
  · rw [Int.sign_eq_one_of_pos (by omega), Int.sign_eq_one_of_pos (by omega)]
    exact iff_of_true rfl (by omega)

/-- An engine that keeps its slewing through the forming and the cut. -/
structure Engine.Slews (x f : Engine) : Prop where
  setpoint : f.setpoint = x.setpoint
  lastSign : f.lastSign = x.lastSign
  slew : f.slew = x.slew
  stepAt : f.stepAt = x.stepAt
  dwellAt : f.dwellAt = x.dwellAt

/-- The slewing of an engine whose setpoint is not cut to 0 (R36, R41). -/
theorem State.slewEngine_slewed {s : State} {x e : Engine} (lastSign : e.lastSign = x.lastSign) (slew : e.slew = x.slew)
    (stepAt : e.stepAt = x.stepAt) (dwellAt : e.dwellAt = x.dwellAt) (n : x.setpoint = 0 ∨ e.setpoint ≠ 0) :
    s.Slewed x (s.slewEngine x e) where
  cut a b := by
    rw [s.slewEngine_setpoint] at b
    exact absurd b (n.resolve_left a)
  cancelled _ h k := by
    rw [s.slewEngine_target, ← lastSign] at k
    rw [State.slewEngine_cancels (slew.trans h) k]
    exact ⟨rfl, s.stepStart_eq, rfl, lastSign⟩
  dwells _ h k := by
    rw [s.slewEngine_target, ← lastSign] at k
    rw [State.slewEngine_dwells (slew.trans h) k]
    exact ⟨slew.trans h, dwellAt, lastSign, fun q => stepAt.trans q⟩
  returns _ z h l k := by
    rw [s.slewEngine_target, ← lastSign] at k
    rw [s.slewEngine_setpoint] at z
    rw [← lastSign] at l ⊢
    rw [State.slewEngine_returns (slew.trans h) z l k]
    exact s.startDwell_halted e
  follows _ h k := by
    rw [s.slewEngine_target, s.slewEngine_setpoint, ← slew, ← lastSign] at k
    rw [s.slewEngine_target, s.slewEngine_setpoint, State.slewEngine_follows (slew ▸ h) k]
    by_cases same : e.target = e.setpoint
    · rw [if_pos same]
      exact ⟨lastSign, dwellAt, fun _ => ⟨rfl, rfl⟩, fun m => absurd same m⟩
    rw [if_neg same]
    by_cases steady : e.slew = .steady
    · rw [if_pos steady]
      refine ⟨lastSign, dwellAt, fun m => absurd m same, fun _ => ⟨rfl, fun _ => rfl, fun q => ?_⟩⟩
      rw [← slew, steady] at q
      cases q
    have slewing := EngineSlew_cases _ (slew ▸ h) steady
    rw [if_neg steady]
    split
    · next along =>
      refine ⟨lastSign, dwellAt, fun m => absurd m same, fun _ => ⟨slewing, fun q => absurd (slew.trans q) steady,
        fun _ m => ?_⟩⟩
      rw [if_pos ((Engine.direction_eq_iff m same).1 along)]
      exact stepAt
    · next turned =>
      refine ⟨lastSign, dwellAt, fun m => absurd m same, fun _ => ⟨slewing, fun q => absurd (slew.trans q) steady,
        fun _ m => ?_⟩⟩
      rw [if_neg fun q => turned ((Engine.direction_eq_iff m same).2 q)]

/-- An engine that has been halted stays so through the slewing (R40, R41). -/
theorem State.Halted.slewEngine {s : State} {x : LastSign} {d e : Engine} (h : s.Halted x e) (z : e.setpoint = 0)
    (k : ¬ x.agrees e.target) : s.Halted x (s.slewEngine d e) := by
  unfold State.Halted at h ⊢
  rw [s.slewEngine_target]
  split at h
  · next dwell =>
    rw [if_pos dwell]
    obtain ⟨sign, dwellAt, steady, slewing⟩ := h
    by_cases t : e.target = 0
    · obtain ⟨slew, stepAt⟩ := steady t
      rw [State.slewEngine_follows (by rw [slew]; nofun) (by rw [slew]; nofun), if_pos (t.trans z.symm)]
      exact ⟨sign, dwellAt, fun _ => ⟨rfl, rfl⟩, fun n => absurd t n⟩
    · obtain ⟨slew, stepAt⟩ := slewing t
      rw [State.slewEngine_follows (by rw [slew]; nofun) (fun _ => .inr (.inl sign)), if_neg (by rw [z]; exact t),
        if_neg (by rw [slew]; nofun)]
      split
      · exact ⟨sign, dwellAt, fun n => absurd n t, fun _ => ⟨slew, stepAt⟩⟩
      · exact ⟨sign, dwellAt, fun n => absurd n t, fun _ => ⟨slew, rfl⟩⟩
  · next dwell =>
    rw [if_neg dwell]
    obtain ⟨slew, sign, stepAt, dwellAt⟩ := h
    rw [State.slewEngine_dwells slew (by rw [sign]; exact k)]
    exact ⟨slew, sign, stepAt, dwellAt⟩

/-- An engine brought to 0 against a target of no such sign is halted (R40). -/
theorem State.zeroEngine_halted {s : State} {e : Engine} (k : ¬ (sideOf e.setpoint).agrees e.target) :
    s.Halted (sideOf e.setpoint) (s.zeroEngine e) := by
  have against : ¬ sameSign e.target (signOf e.setpoint) = true := fun q => k ((sameSign_iff _ _).1 q)
  unfold State.zeroEngine
  dsimp only
  rw [if_neg against]
  exact s.startDwell_halted _

theorem State.zeroEngine_target (s : State) (e : Engine) : (s.zeroEngine e).target = e.target :=
  Engine.basis_field (s.zeroEngine_basis e) Engine.target

/-- The slewing of an engine in a recompute, whether or not its setpoint is cut to 0 (R35, R36, R40, R41). -/
theorem State.slewEngine_moveTo {s : State} {x f : Engine} {v : Int} (h : x.Slews f)
    (cut : x.setpoint ≠ 0 → v = 0 → ¬ (sideOf x.setpoint).agrees f.target) :
    s.Slewed x (s.slewEngine x (s.moveTo f v)) := by
  by_cases q : v = 0 ∧ f.setpoint ≠ 0
  · obtain ⟨zero, n⟩ := q
    have against := cut (h.setpoint ▸ n) zero
    have moved : s.moveTo f v = s.zeroEngine f := if_pos ⟨zero, n⟩
    have m : x.setpoint ≠ 0 := h.setpoint ▸ n
    have y : (s.slewEngine x (s.zeroEngine f)).setpoint = 0 :=
      (s.slewEngine_setpoint _ _).trans (s.zeroEngine_setpoint f)
    rw [moved]
    refine ⟨fun _ _ => ?_, fun a => ?_, fun a => ?_, fun a => absurd a m, fun a => ?_⟩
    · have halted : s.Halted (sideOf x.setpoint) (s.zeroEngine f) := by
        rw [← h.setpoint] at against ⊢
        exact State.zeroEngine_halted against
      exact halted.slewEngine (s.zeroEngine_setpoint f) (by rw [s.zeroEngine_target]; exact against)
    all_goals exact absurd (a.resolve_left m) (not_not.2 y)
  · have moved : s.moveTo f v = { f with setpoint := v } := if_neg q
    rw [moved]
    refine State.slewEngine_slewed h.lastSign h.slew h.stepAt h.dwellAt ?_
    by_contra n
    obtain ⟨a, b⟩ := not_or.1 n
    exact q ⟨not_not.1 b, h.setpoint ▸ a⟩

/-! ### One engine in a recompute -/

theorem State.formedEngine_slews (s : State) (i : Fin 6) : s.prop.engines[i].Slews (s.formedEngine i) := by
  obtain ⟨_, setpoint, lastSign, slew, stepAt, dwellAt⟩ := s.formedEngine_kept i
  exact ⟨setpoint, lastSign, slew, stepAt, dwellAt⟩

theorem Engine.cutValue_zero {e : Engine} (h : e.setpoint = 0) : e.cutValue = 0 := by
  unfold Engine.cutValue
  rw [h]
  simp

/-- A cut to 0 leaves no room for a target on the side that the setpoint stood on (R33, R35). -/
theorem State.formedEngine_against (s : State) (i : Fin 6) (n : (s.formedEngine i).setpoint ≠ 0)
    (z : (s.formedEngine i).cutValue = 0) : ¬ (sideOf (s.formedEngine i).setpoint).agrees (s.formedEngine i).target := by
  obtain ⟨low, high, _⟩ := s.formedEngine_target i
  obtain ⟨_, _, ahead, astern⟩ := (s.formedEngine i).cutValue_bound
  unfold sideOf LastSign.agrees
  by_cases p : 0 < (s.formedEngine i).setpoint
  · have := ahead p.le
    rw [if_pos p]
    rintro (⟨_, t⟩ | ⟨e, _⟩)
    · omega
    · cases e
  · have := astern (by omega)
    rw [if_neg p]
    rintro (⟨e, _⟩ | ⟨_, t⟩)
    · cases e
    · omega

/-- A recompute brings the slewing of every engine up to date (R36, R40, R41). -/
theorem State.recompute_slewed (s : State) (i : Fin 6) : s.Slewed s.prop.engines[i] s.recompute.prop.engines[i] := by
  have slews := s.formedEngine_slews i
  rw [s.recompute_engine]
  refine State.slewEngine_moveTo slews fun n z => ?_
  rw [← slews.setpoint] at n ⊢
  exact s.formedEngine_against i n z

theorem State.recompute_within (s : State) : Within .propulsion s s.recompute :=
  s.recompute_worked.within

theorem State.basis_unmet (s : State) : s.basis.unmet = s.prop.unmet := rfl

/-- Unmet demand that a recompute leaves has been latched by it (R34). -/
theorem State.recompute_notes (s : State) (h : 0 < s.recompute.prop.unmet) : s.recompute.hasNotice .unmetDemand 0 := by
  rw [← s.recompute.basis_unmet, s.recompute_basis, State.basis_unmet] at h
  have noted : s.formEngines.share.noteUnmet.hasNotice .unmetDemand 0 := by
    unfold State.noteUnmet
    rw [if_pos h]
    exact State.latch_hasNotice _ _ _
  have later : ∀ u : State, Within .propulsion u (u.cutEngines.slewEngines s.prop.engines).reviewWash.reviewZero :=
    fun u => ((((State.cutEngines_worked u).trans (State.slewEngines_worked _ s.prop.engines)).trans
      (State.reviewWash_worked _)).trans (State.reviewZero_worked _)).within
  rw [State.recompute_eq]
  unfold State.reslewed
  generalize s.formEngines.share.noteUnmet = u at noted ⊢
  exact noted.mono (later u).list

/-- The composite ceilings of an ABSENT engine stay as they are (R25; log entry 11). -/
theorem State.formedEngine_absent (s : State) (i : Fin 6) (h : s.prop.engines[i].state = .absent) :
    (s.formedEngine i).compositeAhead = s.prop.engines[i].compositeAhead ∧
      (s.formedEngine i).compositeAstern = s.prop.engines[i].compositeAstern := by
  rw [State.formedEngine_eq]
  obtain ⟨_, _, _, _, _, _, _, _, e, kept⟩ := s.reformEngine_keeps s.prop.engines[i]
  rw [e]
  exact kept h

end Sys2Proof.Machine

open Sys2Proof Sys2Proof.Machine

/-- Settles O23: the demand as the recomputed state shares it, over entries, states and settings that it keeps. -/
theorem recomputeSharesTheDemand : Obligations.RecomputeSharesTheDemand := by
  intro s
  have w := s.recompute_within
  have shared := s.recompute_targets.shared
  have notes := s.recompute_notes
  generalize s.recompute = t at w shared notes ⊢
  have units := w.units (by decide)
  unfold State.DemandShared at shared
  simp only [w.written.engines, w.written.power, w.written.nominal, w.written.diffMode, w.written.fixedDiff,
    w.written.rudder, w.written.helm, units.forced, (units.engines _).1] at shared
  obtain ⟨demand, diff, running, stopped, none, all, short, shares⟩ := shared
  exact ⟨demand, diff, running, stopped, none, all, short, shares, notes⟩

/-- Settles O24: components and composites as the recomputed state has them from sources that it keeps; the cut and the
slewing of one engine. -/
theorem recomputeFormsTheCeilings : Obligations.RecomputeFormsTheCeilings := by
  intro s i
  have w := s.recompute_within
  have basis := s.recompute_engine_basis i
  have ahead := Engine.basis_field basis Engine.compositeAhead
  have astern := Engine.basis_field basis Engine.compositeAstern
  obtain ⟨_, _, cutAhead, cutAstern⟩ := (s.formedEngine i).cutValue_bound
  rw [(s.formedEngine_kept i).2.1, ← s.recompute_setpoint, ← ahead] at cutAhead
  rw [(s.formedEngine_kept i).2.1, ← s.recompute_setpoint, ← astern] at cutAstern
  have absent := s.formedEngine_absent i
  rw [← ahead, ← astern] at absent
  have slewed := s.recompute_slewed i
  have targets := s.recompute_targets
  clear basis ahead astern
  generalize s.recompute = t at w cutAhead cutAstern absent slewed targets ⊢
  obtain ⟨state, health, _⟩ := (w.units (by decide)).engines i
  have entry := w.written.engines i
  have applied := (w.ceilings (by decide)).2.1
  have fuel := (w.fuel (by decide)).1
  obtain ⟨modeAhead, modeAstern, healthCeiling, towCeiling, economy, tankLow⟩ := targets.components i
  simp only [w.written.helm, entry, health, applied, fuel] at modeAhead modeAstern healthCeiling towCeiling economy tankLow
  refine ⟨modeAhead, modeAstern, fun h => ?_, fun h => ?_, fun h => ?_, towCeiling, economy, fun h => ?_, fun k h => ?_,
    absent, fun h => ?_, cutAhead, cutAstern, slewed⟩
  · rw [h] at healthCeiling; exact healthCeiling
  · rw [h] at healthCeiling; exact healthCeiling
  · rw [h] at healthCeiling; exact healthCeiling
  · rw [h] at tankLow; exact tankLow
  · rw [h] at tankLow; exact tankLow
  · have composed := targets.composites i (by rw [state]; exact h)
    exact ⟨composed.ahead, composed.astern⟩

end

