-- ==== Sys2Proof/Proofs/Timers.lean ====
section
/-! PROOF. Proofs/Timers.lean: a step expiry and a dwell expiry (R37, R40, R41). -/

namespace Sys2Proof.Machine

/-- The issued setpoint one step on, as R37 has it. -/
theorem stepped_eq (x t : Int) (k : Nat) : stepped x t k =
    if 0 < x ∧ t < 0 then max 0 (x - k)
    else if x < 0 ∧ 0 < t then min 0 (x + k)
    else if (t - x).natAbs ≤ k then t
    else if x < t then x + k
    else x - k := by
  unfold stepped
  repeat' split
  all_goals omega

/-- A step reaches 0 only against a target of no such sign (R37, R40). -/
theorem stepped_against {x t : Int} {k : Nat} (n : x ≠ 0) (z : stepped x t k = 0) : ¬ (sideOf x).agrees t := by
  have h : ¬ (0 < x ∧ 0 < t) ∧ ¬ (x < 0 ∧ t < 0) := by
    unfold stepped at z
    repeat' split at z
    all_goals omega
  unfold sideOf LastSign.agrees
  split
  · rintro (⟨_, p⟩ | ⟨e, _⟩)
    · omega
    · cases e
  · rintro (⟨e, _⟩ | ⟨_, p⟩)
    · cases e
    · omega

theorem State.stepEngine_zeroed {s : State} {e : Engine} (z : stepped e.setpoint e.target s.profile.stepSize = 0)
    (n : e.setpoint ≠ 0) : s.stepEngine e = s.zeroEngine e := by
  unfold State.stepEngine
  exact if_pos ⟨z, n⟩

/-- A step that does not come to 0 from another setpoint (R37). -/
theorem State.stepEngine_moved {s : State} {e : Engine} {x : Int} (k : stepped e.setpoint e.target s.profile.stepSize = x)
    (n : x ≠ 0 ∨ e.setpoint = 0) : s.stepEngine e =
      { e with
        setpoint := x
        lastSign := if e.setpoint = 0 ∧ x ≠ 0 then .unset else e.lastSign
        slew := if x = e.target then .steady else .slewing
        stepAt := if x = e.target then none else s.fullStep } := by
  unfold State.stepEngine
  dsimp only
  rw [k, if_neg fun h => h.2 (n.resolve_left (not_not.2 h.1)), s.stepStart_eq]
  split <;> rfl

theorem State.takeStep_engine (s : State) (i j : Fin 6) : (s.takeStep i).prop.engines[j] =
    if i = j then s.stepEngine s.prop.engines[i] else s.prop.engines[j] := by
  unfold State.takeStep
  rw [State.review_engines, (State.placeSetpoint_slotted _ i).prop, State.modEngine_engine]

theorem State.endDwell_eq (s : State) (e : Engine) : s.endDwell e =
    { e with
      lastSign := .unset, dwellAt := none
      slew := if e.target = 0 then .steady else .slewing
      stepAt := if e.target = 0 then none else s.fullStep } := by
  unfold State.endDwell
  rw [s.stepStart_eq]
  split <;> rfl

end Sys2Proof.Machine

open Sys2Proof Sys2Proof.Machine

/-- Settles O26: the engine of the timer takes one step, and the reviews after it touch no engine; a dwell's expiry is
its end. -/
theorem stepAndDwellExpiry : Obligations.StepAndDwellExpiry := by
  refine ⟨fun s i => ⟨fun h => ?_, fun at_ h => ?_⟩, fun s i => ⟨fun h => ?_, fun at_ h => ?_⟩⟩
  · show Host.Outcome.next (s.expire s.prop.engines[i].stepAt _) = _
    rw [h]
    rfl
  · intro now p e step x
    have run : exec (.stepExpiry i) s = .next ((s.reach at_).takeStep i) := by
      show Host.Outcome.next (s.expire s.prop.engines[i].stepAt _) = _
      rw [h]
      rfl
    have moved : stepped e.setpoint e.target (s.reach at_).profile.stepSize = x := stepped_eq _ _ _
    have engine : ((s.reach at_).takeStep i).prop.engines[i] = (s.reach at_).stepEngine e :=
      ((s.reach at_).takeStep_engine i i).trans (if_pos rfl)
    have full : (s.reach at_).fullStep = some (now + 10000 * p.stepInterval) := rfl
    refine ⟨_, run, ((s.reach at_).takeStep_worked i).within, ?_, ?_, fun j n => ?_, ?_⟩
    · rw [engine, State.stepEngine_setpoint]
      exact moved
    · rw [engine]
      exact Engine.basis_field ((s.reach at_).stepEngine_basis e) Engine.target
    · exact ((s.reach at_).takeStep_engine i j).trans (if_neg n.symm)
    rw [engine]
    refine ⟨fun z n d => ?_, fun z n d => ?_, fun n t => ?_, fun n t => ?_, fun n z => ?_⟩
    · have halted := State.zeroEngine_halted (s := s.reach at_) (stepped_against n (moved.trans z))
      rw [State.stepEngine_zeroed (moved.trans z) n]
      unfold State.Halted at halted
      rw [if_neg (by exact Nat.pos_iff_ne_zero.1 d)] at halted
      obtain ⟨slew, sign, stepAt, dwellAt⟩ := halted
      exact ⟨slew, stepAt, dwellAt, sign⟩
    · have halted := State.zeroEngine_halted (s := s.reach at_) (stepped_against n (moved.trans z))
      rw [State.stepEngine_zeroed (moved.trans z) n]
      unfold State.Halted at halted
      rw [if_pos (by exact d), State.zeroEngine_target, full] at halted
      obtain ⟨sign, dwellAt, steady, slewing⟩ := halted
      refine ⟨sign, dwellAt, ?_⟩
      by_cases t : e.target = 0
      · rw [if_pos t, if_pos t]
        exact steady t
      · rw [if_neg t, if_neg t]
        exact slewing t
    · rw [State.stepEngine_moved moved n]
      exact ⟨if_pos t, if_pos t⟩
    · rw [State.stepEngine_moved moved n]
      exact ⟨if_neg t, (if_neg t).trans full⟩
    · rw [State.stepEngine_moved moved (.inl n)]
      exact if_pos ⟨z, n⟩
  · show Host.Outcome.next (s.expire s.prop.engines[i].dwellAt _) = _
    rw [h]
    rfl
  · show Host.Outcome.next (s.expire s.prop.engines[i].dwellAt _) = _
    rw [h]
    have ended : (s.reach at_).endDwell = fun e => { e with
        lastSign := .unset, dwellAt := none
        slew := if e.target = 0 then .steady else .slewing
        stepAt := if e.target = 0 then none
          else some (max s.now at_ + 10000 * s.helm.modes[s.helm.mode].stepInterval) } :=
      funext (s.reach at_).endDwell_eq
    exact congrArg (fun f => Host.Outcome.next ((s.reach at_).modEngine i f)) ended

end

