-- ==== Sys2Proof/Proofs/Propels.lean ====
section
/-! PROOF. Proofs/Propels.lean: a PROPEL taken (R27, R39): P and the differential stored, with CRASH every setpoint brought
to 0 first, and the recompute that follows. -/

namespace Sys2Proof.Machine

/-! ### P and the differential written -/

/-- The state with P and the differential written. -/
def State.propelled (s : State) (p : Int) (m : DiffMode) (d : Int) : State :=
  { s with prop := { s.prop with power := p, diffMode := m, fixedDiff := d } }

/-- P and the differential written on both sides of a change. -/
theorem Within.propelled {x : Level} {b u : State} (w : Within x b u) (p : Int) (m : DiffMode) (d : Int) :
    Within x (b.propelled p m d) (u.propelled p m d) := by
  obtain ⟨wr, now, link, pending, allocation, answers, qm, qt, qw, list, quiet, ceilings, units, fuel, nodes⟩ := w
  refine ⟨⟨wr.helm, wr.engines, rfl, rfl, rfl, wr.nominal, wr.actuators, wr.rudder, wr.bowMode, wr.bowDemand,
    wr.couplings, wr.meters, wr.tanks, wr.bases, wr.statement, wr.nodes, wr.passage, wr.defaults, wr.map, wr.master⟩,
    now, link, pending, allocation, answers, qm, qt, qw, list, fun l => ?_, ceilings, fun l => ?_, fuel, nodes⟩
  · obtain ⟨prop, rest⟩ := quiet l
    exact ⟨congrArg (fun q : Propulsion => { q with power := p, diffMode := m, fixedDiff := d }) prop, rest⟩
  · have k := units l
    exact ⟨k.engines, k.actuators, k.forced, k.couplings, k.work⟩

/-- The helm record with an active guard restarted (R10). -/
def HelmUnit.guarded (h : HelmUnit) (now : Nat) : HelmUnit :=
  { h with
    guardAt :=
      if h.mode = 0 ∨ h.modes[h.mode].guardPeriod = 0 then h.guardAt
      else some (now + 100000 * h.modes[h.mode].guardPeriod) }

theorem State.restartGuard_eq {s : State} {h : HelmUnit} {now : Nat} (e : s.helm = h) (n : h.helm = .normal)
    (q : s.now = now) : s.restartGuard = { s with helm := h.guarded now } := by
  subst e q
  have active : s.guardActive = true ↔ ¬ (s.helm.mode = 0 ∨ s.helm.modes[s.helm.mode].guardPeriod = 0) := by
    rw [s.guardActive_iff, not_or]
    unfold State.profile
    constructor
    · rintro ⟨period, mode, _⟩
      exact ⟨mode, by omega⟩
    · rintro ⟨mode, period⟩
      exact ⟨by omega, mode, n⟩
  unfold State.restartGuard
  split
  · next h =>
    unfold HelmUnit.guarded
    rw [if_neg (active.1 h), s.guardStart_eq]
    rfl
  · next h =>
    unfold HelmUnit.guarded
    rw [if_pos (not_not.1 fun q => h (active.2 q))]

/-! ### The crash stop (R39) -/

/-- An engine after a crash stop. -/
def State.crashed (s : State) (e : Engine) : Engine :=
  if e.setpoint = 0 then e else s.zeroEngine e

theorem State.crashEngine_within (s : State) (i : Fin 6) : Within .propulsion s (s.crashEngine i) :=
  (s.crashEngine_worked i).within

theorem State.crashEngine_engine (s : State) (i j : Fin 6) : (s.crashEngine i).prop.engines[j] =
    if i = j then s.crashed s.prop.engines[j] else s.prop.engines[j] := by
  by_cases z : s.prop.engines[i].setpoint = 0
  · have same : s.crashEngine i = s := if_pos z
    rw [same]
    split
    · next e => subst e; exact (if_pos z).symm
    · rfl
  · have moved : s.crashEngine i = (s.modEngine i s.zeroEngine).placeSetpoint i := if_neg z
    rw [moved, (State.placeSetpoint_slotted _ i).prop, State.modEngine_engine]
    split
    · next e => subst e; exact (if_neg z).symm
    · rfl

theorem State.crashStop_engine (s : State) (i : Fin 6) :
    s.crashStop.prop.engines[i] = s.crashed s.prop.engines[i] := by
  unfold State.crashStop
  rw [foldl_entries (fun u => u.prop.engines) State.crashEngine s.crashed s.Paced
    (fun u k p => p.trans (u.crashEngine_within k).paced)
    (fun u k p j => by
      rw [u.crashEngine_engine k j]
      unfold State.crashed
      rw [p.zeroEngine]) _ (List.nodup_finRange 6) s (.refl s) i, if_pos (List.mem_finRange i)]

theorem State.crashed_setpoint (s : State) (e : Engine) : (s.crashed e).setpoint = 0 := by
  unfold State.crashed
  split
  · assumption
  · exact s.zeroEngine_setpoint e

/-- An engine at 0 that slews freely: it is STEADY or has a full step interval, and no last sign stands against its
target. -/
theorem State.slewEngine_free {s : State} {d e : Engine} (z : e.setpoint = 0)
    (slew : e.slew = .steady ∨ e.slew = .slewing ∧ e.stepAt = s.fullStep)
    (sign : e.lastSign = .unset ∨ e.lastSign.agrees e.target) :
    (s.slewEngine d e).lastSign = e.lastSign ∧ (s.slewEngine d e).dwellAt = e.dwellAt ∧
      (e.target = 0 → (s.slewEngine d e).slew = .steady ∧ (s.slewEngine d e).stepAt = none) ∧
      (e.target ≠ 0 → (s.slewEngine d e).slew = .slewing ∧ (s.slewEngine d e).stepAt = s.fullStep) := by
  have idle : e.slew ≠ .dwelling := by
    obtain h | ⟨h, _⟩ := slew <;> rw [h] <;> nofun
  rw [State.slewEngine_follows idle fun _ => .inr sign]
  by_cases t : e.target = 0
  · rw [if_pos (t.trans z.symm)]
    exact ⟨rfl, rfl, fun _ => ⟨rfl, rfl⟩, fun n => absurd t n⟩
  · rw [if_neg (by rw [z]; exact t)]
    by_cases steady : e.slew = .steady
    · rw [if_pos steady]
      exact ⟨rfl, rfl, fun n => absurd n t, fun _ => ⟨rfl, rfl⟩⟩
    · obtain ⟨slewing, full⟩ := slew.resolve_left steady
      rw [if_neg steady]
      split
      · exact ⟨rfl, rfl, fun n => absurd n t, fun _ => ⟨slewing, full⟩⟩
      · exact ⟨rfl, rfl, fun n => absurd n t, fun _ => ⟨slewing, rfl⟩⟩

/-- What becomes of an engine brought to 0 under one target and slewed under another (R40, R41). -/
structure State.Stops (s : State) (side : LastSign) (y : Engine) : Prop where
  agrees : side.agrees y.target → y.slew = .slewing ∧ y.stepAt = s.fullStep ∧ y.dwellAt = none ∧
    (0 < s.helm.modes[s.helm.mode].reversalDwell → y.lastSign = side)
  against : ¬ side.agrees y.target → s.Halted side y

theorem State.Paced.stops {s t : State} (h : s.Paced t) {x : LastSign} {y : Engine} (k : t.Stops x y) : s.Stops x y := by
  have profile : t.helm.modes[t.helm.mode] = s.helm.modes[s.helm.mode] := h.2
  refine ⟨fun a => ?_, fun a => h.halted.1 (k.against a)⟩
  rw [← h.fullStep, ← profile]
  exact k.agrees a

theorem State.frameEnd_paced (s : State) (p : Port) : s.Paced (s.frameEnd p) := ⟨rfl, rfl⟩

theorem LastSign.agrees_ne {x : LastSign} {t : Int} (h : x.agrees t) : t ≠ 0 := by
  obtain ⟨_, p⟩ | ⟨_, p⟩ := h <;> omega

theorem State.zeroEngine_stops {s : State} {x f : Engine} (h : (s.zeroEngine x).Slews f) :
    s.Stops (sideOf x.setpoint) (s.slewEngine (s.zeroEngine x) f) := by
  have z : f.setpoint = 0 := h.setpoint.trans (s.zeroEngine_setpoint x)
  have target := s.slewEngine_target (s.zeroEngine x) f
  by_cases k : (sideOf x.setpoint).agrees x.target
  · have cancelled : s.zeroEngine x = s.cancelDwell { x with setpoint := 0, lastSign := sideOf x.setpoint } := by
      have q : sameSign x.target (signOf x.setpoint) = true := (sameSign_iff _ _).2 k
      exact if_pos q
    have slew : f.slew = .slewing := h.slew.trans (by rw [cancelled]; rfl)
    have stepAt : f.stepAt = s.fullStep := h.stepAt.trans (by rw [cancelled]; exact s.stepStart_eq)
    have dwellAt : f.dwellAt = none := h.dwellAt.trans (by rw [cancelled]; rfl)
    have sign : f.lastSign = sideOf x.setpoint := h.lastSign.trans (by rw [cancelled]; rfl)
    have side : sideOf x.setpoint ≠ .unset := by unfold sideOf; split <;> nofun
    refine ⟨fun a => ?_, fun a => ?_⟩ <;> rw [target] at a
    · obtain ⟨keptSign, keptDwell, _, slewing⟩ := State.slewEngine_free (d := s.zeroEngine x) z (.inr ⟨slew, stepAt⟩)
        (.inr (sign ▸ a))
      obtain ⟨ySlew, yStep⟩ := slewing (LastSign.agrees_ne a)
      exact ⟨ySlew, yStep, keptDwell.trans dwellAt, fun _ => keptSign.trans sign⟩
    · rw [State.slewEngine_returns slew z (sign ▸ side) (sign ▸ a), ← sign]
      exact s.startDwell_halted f
  have halted := State.zeroEngine_halted (s := s) k
  unfold State.Halted at halted
  split at halted
  · next dwell =>
    obtain ⟨zSign, zDwell, zSteady, zSlewing⟩ := halted
    have sign : f.lastSign = .unset := h.lastSign.trans zSign
    have slew : f.slew = .steady ∨ f.slew = .slewing ∧ f.stepAt = s.fullStep := by
      rw [h.slew, h.stepAt]
      by_cases t : (s.zeroEngine x).target = 0
      · exact .inl (zSteady t).1
      · exact .inr (zSlewing t)
    obtain ⟨keptSign, keptDwell, steady, slewing⟩ := State.slewEngine_free (d := s.zeroEngine x) z slew (.inl sign)
    have dwellAt := keptDwell.trans (h.dwellAt.trans zDwell)
    refine ⟨fun a => ?_, fun a => ?_⟩
    · rw [target] at a
      obtain ⟨ySlew, yStep⟩ := slewing (LastSign.agrees_ne a)
      exact ⟨ySlew, yStep, dwellAt, fun q => absurd dwell (Nat.pos_iff_ne_zero.1 q)⟩
    · unfold State.Halted
      rw [if_pos dwell, target]
      exact ⟨keptSign.trans sign, dwellAt, steady, slewing⟩
  · next dwell =>
    obtain ⟨zSlew, zSign, zStep, zDwell⟩ := halted
    have slew : f.slew = .dwelling := h.slew.trans zSlew
    have sign : f.lastSign = sideOf x.setpoint := h.lastSign.trans zSign
    refine ⟨fun a => ?_, fun a => ?_⟩ <;> rw [target, ← sign] at a
    · rw [State.slewEngine_cancels slew a]
      exact ⟨rfl, s.stepStart_eq, rfl, fun _ => sign⟩
    · rw [State.slewEngine_dwells slew a]
      unfold State.Halted
      rw [if_neg dwell]
      exact ⟨slew, sign, h.stepAt.trans zStep, h.dwellAt.trans zDwell⟩

/-- An engine at 0 in a recompute: only its slewing moves. -/
theorem State.recompute_engine_zero {s : State} {i : Fin 6} (z : s.prop.engines[i].setpoint = 0) :
    s.recompute.prop.engines[i] = s.slewEngine s.prop.engines[i] (s.formedEngine i) := by
  have setpoint : (s.formedEngine i).setpoint = 0 := (s.formedEngine_slews i).setpoint.trans z
  rw [s.recompute_engine]
  unfold State.cutFormed
  rw [Engine.cutValue_zero setpoint]
  have still := s.moveTo_self (s.formedEngine i)
  rw [setpoint] at still
  rw [still]

theorem State.DemandShared.demand {s : State} (h : s.DemandShared) :
    s.prop.demand = (s.prop.power * s.prop.nominal).tdiv 1000 := h.1

/-! ### PROPEL decided -/

/-- The state that a PROPEL recomputes, with its CRASH flag. -/
def State.propelStart (s : State) (p : Int) (m : DiffMode) (d : Int) (crash : Bool) : State :=
  (if crash then s.crashStop else s).propelled p m d

theorem State.propelStart_within (s : State) (p : Int) (m : DiffMode) (d : Int) (crash : Bool) :
    Within .propulsion (s.propelled p m d) (s.propelStart p m d crash) := by
  unfold State.propelStart
  split
  · exact s.crashStop_worked.within.propelled p m d
  · exact Within.refl _ _

theorem State.takePropel_eq (s : State) (p : Half) (m : Byte) (d : Half) (f : Byte) : s.takePropel p m d f =
    (s.propelStart (clamp (-1000) 1000 p.toInt) (if m = 0 then .fixed else .auto) (clamp (-300) 300 d.toInt)
      (f.getLsbD 0)).recompute.restartGuard := rfl

theorem State.decidePropel_taken {s : State} {m : Byte} (h : m.toNat ≤ 1) (p d : Half) (f : Byte) :
    s.decidePropel p m d f = (s.takePropel p m d f,
      if clamp (-1000) 1000 p.toInt = p.toInt ∧ clamp (-300) 300 d.toInt = d.toInt then .taken else .clamped) :=
  if_neg (by omega)

theorem State.decidePropel_unknown {s : State} {m : Byte} (h : 1 < m.toNat) (p d : Half) (f : Byte) :
    s.decidePropel p m d f = (s, .unknown) :=
  if_pos h

/-- The answer to a PROPEL tells whether P and the differential were in range (R27). -/
theorem propel_answer (p d : Int) : (if clamp (-1000) 1000 p = p ∧ clamp (-300) 300 d = d then Answer.taken
    else Answer.clamped).byte = if (decide (-1000 ≤ p) && decide (p ≤ 1000) && decide (-300 ≤ d) && decide (d ≤ 300)) = true
      then 0 else 1 := by
  have kept : (clamp (-1000) 1000 p = p ∧ clamp (-300) 300 d = d) ↔
      (decide (-1000 ≤ p) && decide (p ≤ 1000) && decide (-300 ≤ d) && decide (d ≤ 300)) = true := by
    simp only [Bool.and_eq_true, decide_eq_true_eq]
    unfold clamp
    omega
  by_cases h : clamp (-1000) 1000 p = p ∧ clamp (-300) 300 d = d
  · rw [if_pos h, if_pos (kept.1 h)]; rfl
  · rw [if_neg h, if_neg fun k => h (kept.2 k)]; rfl

theorem State.propelStart_engine (s : State) (p : Int) (m : DiffMode) (d : Int) (i : Fin 6) :
    (s.propelStart p m d true).prop.engines[i] = s.crashed s.prop.engines[i] := by
  have start : s.propelStart p m d true = s.crashStop.propelled p m d := by
    unfold State.propelStart
    rw [if_pos rfl]
  have kept : ∀ u : State, (u.propelled p m d).prop.engines = u.prop.engines := fun _ => rfl
  rw [start, kept, s.crashStop_engine]

/-- The engines after a PROPEL (R36, R39 to R41). -/
theorem State.propelStart_engines (s : State) (p : Int) (m : DiffMode) (d : Int) (crash : Bool) (i : Fin 6) :
    let x := s.prop.engines[i]
    let y := (s.propelStart p m d crash).recompute.prop.engines[i]
    (crash = false → s.Slewed x y) ∧
      (crash = true → y.setpoint = 0 ∧ (x.setpoint = 0 → s.Slewed x y) ∧
        (x.setpoint ≠ 0 → s.Stops (sideOf x.setpoint) y)) := by
  intro x y
  have written : s.Paced (s.propelled p m d) := ⟨rfl, rfl⟩
  have paced := State.Paced.trans written (s.propelStart_within p m d crash).paced
  have slewed := paced.slewed ((s.propelStart p m d crash).recompute_slewed i)
  refine ⟨fun c => ?_, fun c => ?_⟩
  · subst c
    exact slewed
  · subst c
    have engine := s.propelStart_engine p m d i
    have zero : (s.propelStart p m d true).prop.engines[i].setpoint = 0 := by
      rw [engine]; exact s.crashed_setpoint x
    have recomputed := State.recompute_engine_zero zero
    have slews := (s.propelStart p m d true).formedEngine_slews i
    refine ⟨?_, fun z => ?_, fun n => ?_⟩
    · show (s.propelStart p m d true).recompute.prop.engines[i].setpoint = 0
      rw [recomputed, State.slewEngine_setpoint]
      exact slews.setpoint.trans zero
    · have same : s.crashed x = x := if_pos z
      rw [engine, same] at slewed
      exact slewed
    · have zeroed : s.crashed x = s.zeroEngine x := if_neg n
      rw [engine, zeroed] at recomputed slews
      show s.Stops _ (s.propelStart p m d true).recompute.prop.engines[i]
      rw [recomputed, paced.slewEngine]
      exact State.zeroEngine_stops slews

end Sys2Proof.Machine

open Sys2Proof Sys2Proof.Machine

/-- Settles O22: the crash stop, the two fields, one recompute and the guard, in this order. -/
theorem propelTaken : Obligations.PropelTaken := by
  intro s o p mode d flags h
  have run : exec (.propel o p mode d flags) s = .next (((s.frameEnd .W).decidePropel p mode d flags).1.answer o 1
      ((s.frameEnd .W).decidePropel p mode d flags).2) := congrArg Host.Outcome.next (h.commanded 1 _)
  refine ⟨fun m => ?_, fun m => ?_⟩
  · intro base kept
    rw [State.decidePropel_taken m, State.takePropel_eq] at run
    dsimp only at run
    generalize hm : (if mode = 0 then DiffMode.fixed else DiffMode.auto) = dm at run
    have pc : clamp (-1000) 1000 p.toInt = max (-1000) (min 1000 p.toInt) := by unfold clamp; omega
    have dc : clamp (-300) 300 d.toInt = max (-300) (min 300 d.toInt) := by unfold clamp; omega
    have started := (s.frameEnd .W).propelStart_within (clamp (-1000) 1000 p.toInt) dm (clamp (-300) 300 d.toInt)
      (flags.getLsbD 0)
    have engines := (s.frameEnd .W).propelStart_engines (clamp (-1000) 1000 p.toInt) dm (clamp (-300) 300 d.toInt)
      (flags.getLsbD 0)
    generalize (s.frameEnd .W).propelStart (clamp (-1000) 1000 p.toInt) dm (clamp (-300) 300 d.toInt)
      (flags.getLsbD 0) = v at run started engines
    have within := started.trans v.recompute_within
    have targets := v.recompute_targets
    generalize v.recompute = u at run within targets engines
    have helm : u.helm = s.helm := within.written.helm
    have now : u.now = s.now := within.now
    rw [State.restartGuard_eq helm h.normal now] at run
    have power : u.prop.power = clamp (-1000) 1000 p.toInt := within.written.power
    have nominal : u.prop.nominal = s.prop.nominal := within.written.nominal
    have demand := targets.shared.demand
    rw [power, nominal] at demand
    refine ⟨_, run, ?_, ?_, ?_, fun f i => ?_, fun f i => ?_⟩
    · have w := (within.withHelm base.helm).answered o 1 (if clamp (-1000) 1000 p.toInt = p.toInt ∧
        clamp (-300) 300 d.toInt = d.toInt then .taken else .clamped) s.link.own rfl
      rw [propel_answer] at w
      have b : ({ (s.frameEnd .W).propelled (clamp (-1000) 1000 p.toInt) dm (clamp (-300) 300 d.toInt) with
          helm := base.helm } : State) = base := by
        rw [pc, dc, ← hm]
        rfl
      rw [b] at w
      exact w
    · refine targets.ofSame ?_ rfl rfl rfl rfl
      exact (congrArg (fun g : HelmUnit => g.modes[g.mode]) helm.symm :)
    · exact demand.trans (by rw [pc])
    · exact (s.frameEnd_paced .W).slewed ((engines i).1 f)
    · obtain ⟨zero, still, stops⟩ := (engines i).2 f
      have paced := s.frameEnd_paced .W
      exact ⟨zero, fun z => paced.slewed (still z), fun n => (paced.stops (stops n)).agrees,
        fun n => (paced.stops (stops n)).against⟩
  · rw [State.decidePropel_unknown m] at run
    exact run

end

