-- ==== Sys2Proof/Proofs/EngineReports.lean ====
section
/-! PROOF. Proofs/EngineReports.lean: a status from a governor (R20 to R22): what it leaves of its engine, and the recompute
that a change of state or health level brings. -/

namespace Sys2Proof.Machine

/-! ### A frame delivered to a job (R130, R165, R166) -/

theorem findTable_congr {α β : Type} {n : Nat} {t : Table α n} {u : Table β n} {p : α → Bool} {q : β → Bool}
    (h : ∀ i : Fin n, p t[i] = q u[i]) : findTable t p = findTable u q := by
  unfold findTable
  exact congrArg (fun f => (List.finRange n).find? f) (funext h)

/-- A change of a node that leaves its entry and whether it is UNUSED is not seen by the search for a source. -/
theorem State.nodeOf_modNode (s : State) (n : Fin 32) (f : Node → Node)
    (h : (f s.nodes[n]).entry = s.nodes[n].entry ∧ ((f s.nodes[n]).state = .unused ↔ s.nodes[n].state = .unused))
    (p : Port) (a : Byte) : (s.modNode n f).nodeOf p a = s.nodeOf p a := by
  refine findTable_congr fun m => ?_
  rw [State.modNode_node]
  split
  · next e => subst e; rw [h.1]; simp only [ne_eq, h.2]
  · rfl

theorem State.nodeSilence_eq (s : State) (n : Fin 32) : s.nodeSilence n = some (s.now + 100000 * s.nodes[n].entry.silence) := by
  unfold State.nodeSilence State.silencePeriod State.after ms
  congr 1
  ring

theorem State.modNode_congr {s : State} {n : Fin 32} {f g : Node → Node} (h : f s.nodes[n] = g s.nodes[n]) :
    s.modNode n f = s.modNode n g := by
  unfold State.modNode modTable
  rw [show f s.nodes[n] = g s.nodes[n] from h]

/-- A frame from an ENROLLED node restarts its silence timer (R130). -/
theorem State.arrive_enrolled {s : State} {p : Port} {a : Byte} {n : Fin 32} (source : s.nodeOf p a = some n)
    (enrolled : s.nodes[n].state = .enrolled) : s.arrive p a = s.heardFrom p n := by
  have found : (s.frameEnd p).nodeOf p a = some n := source
  have state : (s.frameEnd p).nodes[n].state = .enrolled := enrolled
  unfold State.arrive State.heard
  rw [found]
  dsimp only
  unfold State.hear State.heardFrom
  rw [state, (s.frameEnd p).nodeSilence_eq]
  exact State.modNode_congr rfl

theorem State.heardFrom_nodeOf (s : State) (p q : Port) (n : Fin 32) (a : Byte) :
    (s.heardFrom p n).nodeOf q a = s.nodeOf q a :=
  State.nodeOf_modNode (s.frameEnd p) n
    (fun x => { x with silenceAt := some (s.now + 100000 * x.entry.silence) }) ⟨rfl, Iff.rfl⟩ q a

theorem State.heardFrom_state (s : State) (p : Port) (n m : Fin 32) : (s.heardFrom p n).nodes[m].state = s.nodes[m].state :=
  (modTable_keeps s.nodes n m (fun x => { x with silenceAt := some (s.now + 100000 * x.entry.silence) }) Node.state
    fun _ => rfl :)

theorem content_frame_src (c : Content) (h : Header) : (c.frame h).src = h.src := by
  cases c <;> rfl

/-- A frame delivered: the job reads it, and the copies that the action calls for follow. -/
theorem State.Delivers.passage {s : State} {p : Port} {h : Header} {c : Content} {j : Job} {n : Fin 32}
    (d : s.Delivers p h c j n) :
    s.passage p (c.frame h) c = s.andPass ((s.heardFrom p n).jobReads j n c) p (c.frame h) := by
  have disposed : (s.heardFrom p n).fwd.disposition p (c.frame h) = s.fwd.disposition p (c.frame h) := rfl
  have gate : (s.heardFrom p n).gate p h.src = some n := by
    unfold State.gate
    rw [s.heardFrom_nodeOf, d.source]
    exact if_pos (.inl ((s.heardFrom_state p n n).trans d.enrolled))
  unfold State.passage
  rw [State.receive_eq d.hears, content_frame_src, State.arrive_enrolled d.source d.enrolled]
  unfold State.dispose State.deliver State.andPass
  dsimp only
  rw [disposed, d.takes, d.job, content_frame_src, gate, if_pos rfl]

/-! ### One engine written, and read again -/

theorem State.modEngine_congr {s : State} {i : Fin 6} {f g : Engine → Engine}
    (h : f s.prop.engines[i] = g s.prop.engines[i]) : s.modEngine i f = s.modEngine i g := by
  unfold State.modEngine modTable
  rw [show f s.prop.engines[i] = g s.prop.engines[i] from h]

theorem State.modEngine_modEngine (s : State) (i : Fin 6) (f g : Engine → Engine) :
    (s.modEngine i f).modEngine i g = s.modEngine i fun e => g (f e) := by
  unfold State.modEngine modTable
  simp

theorem Noted.modEngine {s t : State} (h : Noted s t) (i : Fin 6) (f : Engine → Engine) :
    Noted (s.modEngine i f) (t.modEngine i f) := by
  refine ⟨?_, h.list, h.queue, h.allocated, h.fits⟩
  rw [h.same]
  rfl

/-! ### The slewing of an engine that leaves RUNNING (R22, R40) -/

/-- Slewing is told of an engine by these fields of it. -/
theorem State.Slewed.ofSame {s : State} {x z y : Engine} (k : s.Slewed z y) (h : x.Slews z) (target : z.target = x.target) :
    s.Slewed x y := by
  obtain ⟨cut, cancelled, dwells, returns, follows⟩ := k
  rw [h.setpoint, h.lastSign, h.slew, h.stepAt, h.dwellAt, target] at follows
  rw [h.setpoint, h.lastSign, h.slew] at returns
  rw [h.setpoint, h.lastSign, h.slew, h.stepAt, h.dwellAt] at dwells
  rw [h.setpoint, h.lastSign, h.slew] at cancelled
  rw [h.setpoint] at cut
  exact ⟨cut, cancelled, dwells, returns, follows⟩

theorem LastSign.not_agrees_zero {x : LastSign} {t : Int} (h : t = 0) : ¬ x.agrees t :=
  fun a => LastSign.agrees_ne a h

theorem State.halted_target (s : State) (e : Engine) : (s.halted e).target = 0 := by
  unfold State.halted
  split
  · rfl
  · exact s.zeroEngine_target _

/-- An engine that stands at 0 and loses its target and its step timer. -/
theorem State.Slewed.ofStopped {s : State} {x z y : Engine} (k : s.Slewed z y) (stopped : z = { x with target := 0, stepAt := none })
    (zero : x.setpoint = 0) (target : y.target = 0) (setpoint : y.setpoint = 0) : s.Slewed x y := by
  subst stopped
  have against : ∀ l : LastSign, ¬ l.agrees y.target := fun l => LastSign.not_agrees_zero target
  refine ⟨fun n => absurd zero n, fun _ _ a => absurd a (against _), fun a b c => ?_, k.returns, fun a b c => ?_⟩
  · obtain ⟨slew, dwellAt, sign, stepAt⟩ := k.dwells a b c
    exact ⟨slew, dwellAt, sign, fun _ => stepAt rfl⟩
  · obtain ⟨sign, dwellAt, steady, _⟩ := k.follows a b c
    exact ⟨sign, dwellAt, steady, fun n => absurd (target.trans setpoint.symm) n⟩

theorem State.Halted.ofSlews {s : State} {l : LastSign} {e f : Engine} (k : s.Halted l e) (h : e.Slews f)
    (target : f.target = e.target) : s.Halted l f := by
  unfold State.Halted at k ⊢
  rw [h.lastSign, h.slew, h.stepAt, h.dwellAt, target]
  exact k

/-- The slewing of an engine halted as R22 has it, under the target 0 that the recompute gives it. -/
theorem State.halted_slewed {s : State} {x f : Engine} (h : (s.halted x).Slews f) (target : f.target = 0) :
    s.Slewed x (s.slewEngine (s.halted x) f) := by
  have z : f.setpoint = 0 := h.setpoint.trans (s.halted_setpoint x)
  have y : (s.slewEngine (s.halted x) f).setpoint = 0 := (s.slewEngine_setpoint _ _).trans z
  have t : (s.slewEngine (s.halted x) f).target = 0 := (s.slewEngine_target _ _).trans target
  by_cases zero : x.setpoint = 0
  · have slewed := State.slewEngine_slewed (s := s) h.lastSign h.slew h.stepAt h.dwellAt (.inl (s.halted_setpoint x))
    exact slewed.ofStopped (if_pos zero) zero t y
  · have zeroed : s.halted x = s.zeroEngine { x with target := 0, stepAt := none } := if_neg zero
    have against : ¬ (sideOf x.setpoint).agrees 0 := LastSign.not_agrees_zero rfl
    have halted : s.Halted (sideOf x.setpoint) (s.halted x) := by
      rw [zeroed]
      exact State.zeroEngine_halted (e := { x with target := 0, stepAt := none }) against
    have still := (halted.ofSlews h (target.trans (s.halted_target x).symm)).slewEngine (d := s.halted x) z
      (LastSign.not_agrees_zero target)
    refine ⟨fun _ _ => still, fun a => ?_, fun a => ?_, fun a => absurd a zero, fun a => ?_⟩
    all_goals exact absurd (a.resolve_left zero) (not_not.2 y)

/-! ### An engine moved to a state (R21, R22, R29) -/

theorem State.withState_leaving {s : State} {i : Fin 6} {x : EngineState}
    (h : s.prop.engines[i].state = .running ∧ x ≠ .running) :
    s.withState i x = (s.modEngine i fun e => { e with state := x }).leaveRunning i :=
  if_pos h

theorem State.withState_staying {s : State} {i : Fin 6} {x : EngineState}
    (h : ¬ (s.prop.engines[i].state = .running ∧ x ≠ .running)) :
    s.withState i x = s.modEngine i fun e => { e with state := x } :=
  if_neg h

theorem State.leaveRunning_within (s : State) (i : Fin 6) : Within .propulsion s (s.leaveRunning i) := by
  rw [s.leaveRunning_eq]
  have halted : Worked .propulsion s (s.modEngine i s.halted) := Engine.Kept.worked (s.halted_kept _)
  exact halted.within.trans (State.placeSetpoint_worked _ i).within

theorem State.leaveRunning_engine (s : State) (i j : Fin 6) : (s.leaveRunning i).prop.engines[j] =
    if i = j then s.halted s.prop.engines[i] else s.prop.engines[j] := by
  rw [s.leaveRunning_eq, (State.placeSetpoint_slotted _ i).prop, State.modEngine_engine]

theorem State.withState_within (s : State) (i : Fin 6) (x : EngineState) :
    Within .propulsion (s.modEngine i fun e => { e with state := x }) (s.withState i x) := by
  by_cases h : s.prop.engines[i].state = .running ∧ x ≠ .running
  · rw [State.withState_leaving h]
    exact State.leaveRunning_within _ i
  · rw [State.withState_staying h]
    exact Within.refl _ _

theorem State.withState_other (s : State) (i j : Fin 6) (x : EngineState) (n : i ≠ j) :
    (s.withState i x).prop.engines[j] = s.prop.engines[j] := by
  by_cases h : s.prop.engines[i].state = .running ∧ x ≠ .running
  · rw [State.withState_leaving h, State.leaveRunning_engine, if_neg n, State.modEngine_engine, if_neg n]
  · rw [State.withState_staying h, State.modEngine_engine, if_neg n]

theorem State.withState_leaves {s : State} {i : Fin 6} {x : EngineState} (h : s.prop.engines[i].state = .running)
    (n : x ≠ .running) : (s.withState i x).prop.engines[i] = s.halted { s.prop.engines[i] with state := x } := by
  rw [State.withState_leaving ⟨h, n⟩, State.leaveRunning_engine, if_pos rfl, State.modEngine_engine, if_pos rfl]
  rfl

theorem State.withState_stays {s : State} {i : Fin 6} {x : EngineState}
    (h : ¬ (s.prop.engines[i].state = .running ∧ x ≠ .running)) :
    (s.withState i x).prop.engines[i] = { s.prop.engines[i] with state := x } := by
  rw [State.withState_staying h, State.modEngine_engine, if_pos rfl]

/-- An engine that is not RUNNING and stands at 0 has target and issued setpoint 0 after a recompute (R22, R33). -/
theorem State.recompute_idle {s : State} {i : Fin 6} (n : s.prop.engines[i].state ≠ .running)
    (z : s.prop.engines[i].setpoint = 0) :
    s.recompute.prop.engines[i].target = 0 ∧ s.recompute.prop.engines[i].setpoint = 0 := by
  rw [Engine.basis_field (s.recompute_engine_basis i) Engine.target, s.recompute_setpoint]
  exact ⟨(s.formedEngine_target i).2.2 n, Engine.cutValue_zero ((s.formedEngine_slews i).setpoint.trans z)⟩

/-- The slewing of every engine where one is moved to a state (R22, R36, R40, R41). -/
theorem State.moveEngine_slewed (s : State) (i j : Fin 6) (x : EngineState) :
    s.Slewed s.prop.engines[j] (s.moveEngine i x).prop.engines[j] := by
  have paced : s.Paced (s.withState i x) := (s.withState_within i x).paced
  have slewed := paced.slewed ((s.withState i x).recompute_slewed j)
  rw [State.moveEngine_eq]
  by_cases e : i = j
  · subst e
    by_cases leaves : s.prop.engines[i].state = .running ∧ x ≠ .running
    · have engine := State.withState_leaves leaves.1 leaves.2
      have zero : (s.withState i x).prop.engines[i].setpoint = 0 := by rw [engine]; exact s.halted_setpoint _
      have idle : (s.withState i x).prop.engines[i].state ≠ .running := by
        rw [engine, (s.halted_kept _).state]
        exact leaves.2
      have slews := (s.withState i x).formedEngine_slews i
      rw [State.recompute_engine_zero zero, paced.slewEngine]
      rw [engine] at slews ⊢
      refine State.Slewed.ofSame (State.halted_slewed slews (((s.withState i x).formedEngine_target i).2.2 idle))
        ⟨rfl, rfl, rfl, rfl, rfl⟩ rfl
    · rw [State.withState_stays leaves] at slewed
      exact slewed.ofSame ⟨rfl, rfl, rfl, rfl, rfl⟩ rfl
  · rw [s.withState_other i j x e] at slewed
    exact slewed

theorem State.moveEngine_stops {s : State} {i : Fin 6} {x : EngineState} (h : s.prop.engines[i].state = .running)
    (n : x ≠ .running) :
    (s.moveEngine i x).prop.engines[i].target = 0 ∧ (s.moveEngine i x).prop.engines[i].setpoint = 0 := by
  have engine := State.withState_leaves h n
  rw [State.moveEngine_eq]
  refine State.recompute_idle ?_ ?_
  · rw [engine, (s.halted_kept _).state]
    exact n
  · rw [engine]
    exact s.halted_setpoint _

/-! ### A status read (R20, R21) -/

theorem EngineState.reported_eq (x : EngineState) (r : RunState) (a : AlarmLevel) : x.reported r a =
    if x = .absent ∨ x = .lost then x
    else if a = .trip then .tripped
    else if r = .stopped then .standby
    else if x = .tripped then .tripped
    else .running := by
  cases x <;> simp [EngineState.reported]

theorem healthOf_eq (a : AlarmLevel) : healthOf a = match a with
    | .noAlarm => .sound
    | .alert => .alert
    | .alarm => .alarm
    | .trip => .alarm := by
  cases a <;> rfl

theorem Engine.told_eq (e : Engine) (r : RunState) (l : Half) (a : AlarmLevel) : e.told r l a =
    { e with load := l.toInt, health := healthOf a, state := e.state.reported r a } := by
  rw [EngineState.reported_eq, healthOf_eq]
  rfl

/-- The state in which a status has been noted, before its engine is moved: load, health level and a trip. -/
def State.informed (s : State) (i : Fin 6) (r : RunState) (l : Half) (a : AlarmLevel) : State :=
  let s1 := s.modEngine i fun e => { e with load := l.toInt, health := healthOf a }
  if s.prop.engines[i].state.reported r a = .tripped ∧ s.prop.engines[i].state ≠ .tripped then
    s1.latch .engineTrip (subjectOf i)
  else s1

theorem State.informed_noted (s : State) (i : Fin 6) (r : RunState) (l : Half) (a : AlarmLevel) :
    Noted (s.modEngine i fun e => { e with load := l.toInt, health := healthOf a }) (s.informed i r l a) := by
  unfold State.informed
  dsimp only
  split
  · exact State.latch_noted _ _ _
  · exact Noted.refl _

theorem State.informed_engine (s : State) (i j : Fin 6) (r : RunState) (l : Half) (a : AlarmLevel) :
    (s.informed i r l a).prop.engines[j] =
      if i = j then { s.prop.engines[i] with load := l.toInt, health := healthOf a } else s.prop.engines[j] := by
  rw [(s.informed_noted i r l a).prop, State.modEngine_engine]

theorem State.informed_trip {s : State} {i : Fin 6} {r : RunState} {a : AlarmLevel} (l : Half)
    (h : s.prop.engines[i].state.reported r a = .tripped) (n : s.prop.engines[i].state ≠ .tripped) :
    (s.informed i r l a).hasNotice .engineTrip (subjectOf i) := by
  unfold State.informed
  dsimp only
  rw [if_pos ⟨h, n⟩]
  exact State.latch_hasNotice _ _ _

/-- A status moved on to the state of its engine: the recompute that it brings (R21, R29). -/
def State.followed (s : State) (i : Fin 6) (r : RunState) (l : Half) (a : AlarmLevel) : State :=
  if s.prop.engines[i].state.reported r a ≠ s.prop.engines[i].state then
    (s.informed i r l a).moveEngine i (s.prop.engines[i].state.reported r a)
  else if healthOf a ≠ s.prop.engines[i].health then (s.informed i r l a).recompute
  else s.informed i r l a

theorem State.engineReport_some {s : State} {n : Fin 32} {i : Fin 6} (h : s.engineOf n = some i) (r : RunState) (l : Half)
    (a : AlarmLevel) : s.engineReport n r l a = (s.followed i r l a).reviewZero := by
  unfold State.engineReport
  rw [h]
  rfl

theorem State.engineReport_none {s : State} {n : Fin 32} (h : s.engineOf n = none) (r : RunState) (l : Half)
    (a : AlarmLevel) : s.engineReport n r l a = s := by
  unfold State.engineReport
  rw [h]

theorem State.reviewZero_engines (s : State) : s.reviewZero.prop.engines = s.prop.engines := by
  rw [State.reviewZero_prop]

/-- What a status leaves of all but its engine's figures, and of the notices. -/
theorem State.followed_within (s : State) (i : Fin 6) (r : RunState) (l : Half) (a : AlarmLevel) :
    Within .propulsion (s.modEngine i fun e => e.told r l a) (s.followed i r l a) ∧
      Within .units (s.informed i r l a) (s.followed i r l a) := by
  have told : s.modEngine i (fun e => e.told r l a) = (s.modEngine i fun e =>
      { e with load := l.toInt, health := healthOf a }).modEngine i fun e =>
        { e with state := s.prop.engines[i].state.reported r a } := by
    rw [State.modEngine_modEngine]
    exact State.modEngine_congr (Engine.told_eq _ r l a)
  have noted := s.informed_noted i r l a
  have stays : s.prop.engines[i].state.reported r a = s.prop.engines[i].state →
      Within .propulsion (s.modEngine i fun e => e.told r l a) (s.informed i r l a) := fun same => by
    have still : s.modEngine i (fun e => e.told r l a) = s.modEngine i fun e =>
        { e with load := l.toInt, health := healthOf a } := by
      refine State.modEngine_congr ?_
      rw [Engine.told_eq, same]
    rw [still]
    exact noted.worked.within.mono (by decide)
  unfold State.followed
  split
  · refine ⟨?_, (State.moveEngine_worked _ i _).within⟩
    rw [told, State.moveEngine_eq]
    exact (((noted.modEngine i _).worked.within.mono (by decide)).trans (State.withState_within _ i _)).trans (State.recompute_within _)
  · next same =>
    split
    · exact ⟨(stays (not_not.1 same)).trans (State.recompute_within _), (State.recompute_within _).mono (by decide)⟩
    · exact ⟨stays (not_not.1 same), Within.refl _ _⟩

theorem State.informed_slews (s : State) (i j : Fin 6) (r : RunState) (l : Half) (a : AlarmLevel) :
    s.prop.engines[j].Slews (s.informed i r l a).prop.engines[j] ∧
      (s.informed i r l a).prop.engines[j].target = s.prop.engines[j].target ∧
      (s.informed i r l a).prop.engines[j].state = s.prop.engines[j].state := by
  rw [State.informed_engine]
  split
  · next e => subst e; exact ⟨⟨rfl, rfl, rfl, rfl, rfl⟩, rfl, rfl⟩
  · exact ⟨⟨rfl, rfl, rfl, rfl, rfl⟩, rfl, rfl⟩

theorem State.informed_paced (s : State) (i : Fin 6) (r : RunState) (l : Half) (a : AlarmLevel) :
    s.Paced (s.informed i r l a) :=
  (s.informed_noted i r l a).worked.within.paced

/-- A status from a governor: what it leaves, the notice of a trip, the stop of an engine that leaves RUNNING, and the
slewing that follows a change of state or health level (R20 to R22, R36, R40, R41). -/
structure State.Reports (s : State) (i : Fin 6) (r : RunState) (l : Half) (a : AlarmLevel) (u : State) : Prop where
  within : Within .propulsion (s.modEngine i fun e => e.told r l a) u
  trip : s.prop.engines[i].state.reported r a = .tripped → s.prop.engines[i].state ≠ .tripped →
    u.hasNotice .engineTrip (subjectOf i)
  stops : s.prop.engines[i].state = .running → s.prop.engines[i].state.reported r a ≠ .running →
    u.prop.engines[i].target = 0 ∧ u.prop.engines[i].setpoint = 0
  slewed : s.prop.engines[i].state.reported r a ≠ s.prop.engines[i].state ∨ healthOf a ≠ s.prop.engines[i].health →
    ∀ j : Fin 6, s.Slewed s.prop.engines[j] u.prop.engines[j]
  still : s.prop.engines[i].state.reported r a = s.prop.engines[i].state → healthOf a = s.prop.engines[i].health →
    u.prop.engines = (s.modEngine i fun e => e.told r l a).prop.engines

theorem State.engineReport_reports {s : State} {n : Fin 32} {i : Fin 6} (h : s.engineOf n = some i) (r : RunState) (l : Half)
    (a : AlarmLevel) : s.Reports i r l a (s.engineReport n r l a) := by
  rw [State.engineReport_some h]
  obtain ⟨within, later⟩ := s.followed_within i r l a
  have zero := (State.reviewZero_worked (s.followed i r l a)).within
  have paced := s.informed_paced i r l a
  refine ⟨within.trans zero, fun x n => ?_, fun x n => ?_, fun c j => ?_, fun x y => ?_⟩
  · exact ((State.informed_trip l x n).mono later.list).mono zero.list
  · rw [State.reviewZero_engines]
    unfold State.followed
    rw [if_pos (by rw [x]; rw [x] at n; exact n)]
    exact State.moveEngine_stops ((s.informed_slews i i r l a).2.2.trans x) n
  · rw [State.reviewZero_engines]
    obtain ⟨slews, target, _⟩ := s.informed_slews i j r l a
    refine State.Slewed.ofSame ?_ slews target
    refine paced.slewed ?_
    unfold State.followed
    by_cases moves : s.prop.engines[i].state.reported r a ≠ s.prop.engines[i].state
    · rw [if_pos moves]
      exact State.moveEngine_slewed _ i j _
    · rw [if_neg moves, if_pos (c.resolve_left moves)]
      exact State.recompute_slewed _ j
  · rw [State.reviewZero_engines]
    unfold State.followed
    rw [if_neg (not_not.2 x), if_neg (not_not.2 y), (s.informed_noted i r l a).prop]
    refine congrArg (fun u : State => u.prop.engines) (State.modEngine_congr ?_)
    rw [Engine.told_eq, x]

end Sys2Proof.Machine

open Sys2Proof Sys2Proof.Machine

/-- Settles O25: the frame's end restarts the silence timer of the governor, and propulsion reads the status. -/
theorem engineStatusRead : Obligations.EngineStatusRead := by
  intro s p h run load lvl n i d found e x health base
  have reports := State.engineReport_reports (s := s.heardFrom p n) (n := n) (i := i) found run load lvl
  have state : (s.heardFrom p n).prop.engines[i].state.reported run lvl = x := EngineState.reported_eq _ _ _
  have level : healthOf lvl = health := healthOf_eq lvl
  have told : (s.heardFrom p n).modEngine i (fun y => y.told run load lvl) = base := by
    refine State.modEngine_congr ?_
    rw [Engine.told_eq, state, level]
  obtain ⟨within, trip, stops, slewed, still⟩ := reports
  rw [told] at within still
  rw [state] at trip stops slewed still
  rw [level] at slewed still
  refine ⟨_, congrArg Host.Outcome.next d.passage, within, trip, stops, fun c j => ?_, still⟩
  have heard : s.Paced (s.heardFrom p n) := ⟨rfl, rfl⟩
  exact heard.slewed (slewed c j)

end

