-- ==== Sys2Proof/Proofs/Placements.lean ====
section
/-! PROOF. Proofs/Placements.lean: the placing of an order with the transaction unit (R136, R137): the slot that it takes or
supersedes, the orders of other nodes that it spares, and that a changed setpoint is placed (R43). -/

namespace Sys2Proof.Machine

/-! ### One placement (R136, R137) -/

theorem findTable_unique {α : Type} {n : Nat} {t : Table α n} {p : α → Bool} {i : Fin n} (h : p t[i] = true)
    (u : ∀ j : Fin n, p t[j] = true → j = i) : findTable t p = some i := by
  cases e : findTable t p with
  | some j => rw [u j (findTable_meets e)]
  | none => rw [findTable_none e i] at h; cases h

theorem State.place_dead {s : State} {n : Fin 32} (h : s.nodes[n].state = .failed ∨ s.nodes[n].state = .unused)
    (k : OrderKind) (v : OrderValue) (w : Owner) (c : Option BoatSet) : (s.place n k v w c).1 = s := by
  unfold State.place
  rw [if_pos h]

theorem State.place_busy {s : State} {n : Fin 32} {i : Fin 16} {k : OrderKind} (h : s.waitingSlot n = some i)
    (e : s.trans.slots[i].kind ≠ k) (v : OrderValue) (w : Owner) (c : Option BoatSet) : (s.place n k v w c).1 = s := by
  unfold State.place
  split
  · rfl
  · rw [h]
    dsimp only
    rw [if_neg fun x => e x.1]

theorem State.place_supersedes {s : State} {n : Fin 32} {i : Fin 16} {k : OrderKind}
    (alive : s.nodes[n].state ≠ .failed ∧ s.nodes[n].state ≠ .unused) (h : s.waitingSlot n = some i)
    (e : s.trans.slots[i].kind = k) (l : k.supersedable = true) (v : OrderValue) (w : Owner) (c : Option BoatSet) :
    (s.place n k v w c).1 = s.supersede i n v w := by
  unfold State.place
  rw [if_neg (not_or.2 alive), h]
  dsimp only
  rw [if_pos ⟨e, l⟩]

theorem State.place_fills {s : State} {n : Fin 32} {i : Fin 16}
    (alive : s.nodes[n].state ≠ .failed ∧ s.nodes[n].state ≠ .unused) (h : s.waitingSlot n = none)
    (f : s.freeSlot = some i) (k : OrderKind) (v : OrderValue) (w : Owner) (c : Option BoatSet) :
    (s.place n k v w c).1 = s.fillSlot i n k v w c := by
  unfold State.place
  rw [if_neg (not_or.2 alive), h, f]

theorem State.freeSlot_isSome {s : State} (h : s.hasFree) : ∃ i, s.freeSlot = some i := by
  obtain ⟨j, free⟩ := h
  cases e : s.freeSlot with
  | some i => exact ⟨i, rfl⟩
  | none =>
    have := findTable_none e j
    simp [-Fin.getElem_fin, free] at this

theorem State.place_full {s : State} {n : Fin 32} (h : s.waitingSlot n = none) (f : ¬ s.hasFree) (k : OrderKind)
    (v : OrderValue) (w : Owner) (c : Option BoatSet) : (s.place n k v w c).1 = s := by
  unfold State.place
  split
  · rfl
  · rw [h]
    dsimp only
    split
    · next i e => exact absurd ⟨i, State.freeSlot_meets e⟩ f
    · rfl

/-- The three things that a placement can do. -/
theorem State.place_forms (s : State) (n : Fin 32) (k : OrderKind) (v : OrderValue) (w : Owner) (c : Option BoatSet) :
    (s.place n k v w c).1 = s ∨
      (∃ i, s.waitingSlot n = some i ∧ s.trans.slots[i].kind = k ∧ (s.place n k v w c).1 = s.supersede i n v w) ∨
      ∃ i, s.waitingSlot n = none ∧ s.trans.slots[i].state = .free ∧ (s.place n k v w c).1 = s.fillSlot i n k v w c := by
  unfold State.place
  split
  · exact .inl rfl
  · split
    · next i e =>
      split
      · next h => exact .inr (.inl ⟨i, e, h.1, rfl⟩)
      · exact .inl rfl
    · next e =>
      split
      · next i f => exact .inr (.inr ⟨i, e, State.freeSlot_meets f, rfl⟩)
      · exact .inl rfl

theorem State.supersede_slot (s : State) (i j : Fin 16) (n : Fin 32) (v : OrderValue) (w : Owner) :
    (s.supersede i n v w).trans.slots[j] =
      if i = j then { s.trans.slots[j] with value := v, owner := some w, tag := s.nodes[n].nextTag }
      else s.trans.slots[j] :=
  State.modSlot_slot s i j _

theorem State.queueSlot_slot (s : State) (i j : Fin 16) : (s.queueSlot i).trans.slots[j] =
    if i = j then { s.trans.slots[j] with state := .queued } else s.trans.slots[j] := by
  unfold State.queueSlot
  rw [State.joinLane_slots]
  exact State.modSlot_slot s i j _

theorem State.queueSlot_nodes (s : State) (i : Fin 16) : (s.queueSlot i).nodes = s.nodes := by
  unfold State.queueSlot
  rw [State.joinLane_nodes]
  rfl

theorem State.queueSlot_lane (s : State) (i : Fin 16) (p : PlantPort) : (s.queueSlot i).trans.lane p =
    if s.nodes[s.trans.slots[i].target].entry.port = p then s.trans.lane p ++ [i] else s.trans.lane p := by
  unfold State.queueSlot
  rw [State.joinLane_lane, State.modSlot_lane]

/-- The slot of an order placed: HELD under a condition, WAITING behind an order in flight, else QUEUED (R136). -/
def State.placedSlot (s : State) (n : Fin 32) (k : OrderKind) (v : OrderValue) (w : Owner) (c : Option BoatSet) : Slot :=
  { target := n, kind := k, value := v, tag := s.nodes[n].nextTag, owner := some w, condition := c, ackAt := none,
    state := if c.isSome then .held else if (s.flightSlot n).isSome = true then .waiting else .queued }

theorem State.fillSlot_slot (s : State) (i j : Fin 16) (n : Fin 32) (k : OrderKind) (v : OrderValue) (w : Owner)
    (c : Option BoatSet) : (s.fillSlot i n k v w c).trans.slots[j] =
      if i = j then s.placedSlot n k v w c else s.trans.slots[j] := by
  have filled : ∀ x : Slot, ((s.modSlot i fun _ => x).useTag n).trans.slots[j] = if i = j then x else s.trans.slots[j] :=
    fun x => State.modSlot_slot s i j fun _ => x
  unfold State.fillSlot State.placedSlot
  dsimp only
  split
  · next h =>
    rw [filled]
    cases c with
    | some => rfl
    | none => rw [if_pos (h.resolve_left (by simp))]
  · next h =>
    obtain ⟨bare, still⟩ := not_or.1 h
    rw [State.queueSlot_slot, filled]
    split
    · rfl
    · rfl

/-- The state of a node is not that of its next TAG. -/
theorem State.useTag_node (s : State) (n m : Fin 32) : (s.useTag n).nodes[m] =
    if n = m then { s.nodes[m] with nextTag := s.nodes[m].nextTag + 1 } else s.nodes[m] :=
  State.modNode_node s n m _

theorem State.fillSlot_nodes (s : State) (i : Fin 16) (n : Fin 32) (k : OrderKind) (v : OrderValue) (w : Owner)
    (c : Option BoatSet) : (s.fillSlot i n k v w c).nodes = (s.useTag n).nodes := by
  unfold State.fillSlot
  dsimp only
  split
  · rfl
  · rw [State.queueSlot_nodes]
    rfl

/-! ### The orders of other nodes -/

/-- A slot that carries the waiting order of a node. -/
def Slot.waitsFor (x : Slot) (n : Fin 32) : Bool :=
  x.isWaiting && decide (x.target = n)

theorem State.waitingSlot_eq (s : State) (n : Fin 32) :
    s.waitingSlot n = findTable s.trans.slots fun x => x.waitsFor n := rfl

theorem Slot.waitsFor_iff (x : Slot) (n : Fin 32) : x.waitsFor n = true ↔ x.isWaiting = true ∧ x.target = n := by
  simp [Slot.waitsFor]

/-- From `s` to `t` no slot becomes FREE, and the waiting order of a node stays the same order in the same slot. -/
structure Apart (n : Fin 32) (s t : State) : Prop where
  free : t.hasFree → s.hasFree
  node : t.nodes[n].state = s.nodes[n].state
  waits : ∀ j : Fin 16, t.trans.slots[j].waitsFor n = s.trans.slots[j].waitsFor n
  order : ∀ j : Fin 16, s.trans.slots[j].waitsFor n = true → t.trans.slots[j].kind = s.trans.slots[j].kind ∧
    t.trans.slots[j].value = s.trans.slots[j].value ∧ t.trans.slots[j].owner = s.trans.slots[j].owner

theorem Apart.refl (n : Fin 32) (s : State) : Apart n s s :=
  ⟨id, rfl, fun _ => rfl, fun _ _ => ⟨rfl, rfl, rfl⟩⟩

theorem Apart.trans {n : Fin 32} {s t u : State} (h : Apart n s t) (k : Apart n t u) : Apart n s u where
  free x := h.free (k.free x)
  node := k.node.trans h.node
  waits j := (k.waits j).trans (h.waits j)
  order j x := by
    obtain ⟨kind, value, owner⟩ := h.order j x
    obtain ⟨kind', value', owner'⟩ := k.order j ((h.waits j).trans x)
    exact ⟨kind'.trans kind, value'.trans value, owner'.trans owner⟩

theorem Apart.ofSame (n : Fin 32) {s t : State} (slots : t.trans.slots = s.trans.slots)
    (node : t.nodes[n].state = s.nodes[n].state) : Apart n s t := by
  refine ⟨fun h => ?_, node, fun j => by rw [slots], fun j _ => by rw [slots]; exact ⟨rfl, rfl, rfl⟩⟩
  obtain ⟨j, e⟩ := h
  exact ⟨j, by rw [← slots]; exact e⟩

theorem Apart.waitingSlot {n : Fin 32} {s t : State} (h : Apart n s t) : t.waitingSlot n = s.waitingSlot n :=
  findTable_congr h.waits

/-- No slot that becomes FREE, and none that waits for the node, where each slot stays or is of another node. -/
theorem Apart.ofSlots {n : Fin 32} {s t : State} (node : t.nodes[n].state = s.nodes[n].state)
    (free : ∀ j : Fin 16, t.trans.slots[j].state = .free → s.trans.slots[j].state = .free)
    (slots : ∀ j : Fin 16, t.trans.slots[j] = s.trans.slots[j] ∨
      (t.trans.slots[j].waitsFor n = false ∧ s.trans.slots[j].waitsFor n = false)) : Apart n s t := by
  refine ⟨fun ⟨j, e⟩ => ⟨j, free j e⟩, node, fun j => ?_, fun j x => ?_⟩
  · rcases slots j with e | e
    · rw [e]
    · rw [e.1, e.2]
  · rcases slots j with e | e
    · rw [e]; exact ⟨rfl, rfl, rfl⟩
    · rw [e.2] at x; cases x

theorem Slot.waitsFor_other {x : Slot} {n m : Fin 32} (h : x.target = m) (k : m ≠ n) : x.waitsFor n = false := by
  simp [Slot.waitsFor, h, k]

theorem Slot.waitsFor_free {x : Slot} (h : x.state = .free) (n : Fin 32) : x.waitsFor n = false := by
  simp [Slot.waitsFor, Slot.isWaiting, h]

theorem State.placedSlot_waits (s : State) (n : Fin 32) (k : OrderKind) (v : OrderValue) (w : Owner)
    (c : Option BoatSet) : (s.placedSlot n k v w c).isWaiting = true := by
  rw [Slot.isWaiting_iff]
  unfold State.placedSlot
  dsimp only
  split
  · exact .inl rfl
  · split
    · exact .inr (.inl rfl)
    · exact .inr (.inr rfl)

theorem State.placedSlot_state (s : State) (n : Fin 32) (k : OrderKind) (v : OrderValue) (w : Owner)
    (c : Option BoatSet) : (s.placedSlot n k v w c).state ≠ .free := fun e => by
  have waits := s.placedSlot_waits n k v w c
  rw [Slot.isWaiting_iff, e] at waits
  simp at waits

theorem State.supersede_free {s : State} {i j : Fin 16} {n : Fin 32} {v : OrderValue} {w : Owner}
    (h : (s.supersede i n v w).trans.slots[j].state = .free) : s.trans.slots[j].state = .free := by
  rw [State.supersede_slot] at h
  split at h
  · exact h
  · exact h

theorem State.fillSlot_free {s : State} {i j : Fin 16} {n : Fin 32} {k : OrderKind} {v : OrderValue} {w : Owner}
    {c : Option BoatSet} (h : (s.fillSlot i n k v w c).trans.slots[j].state = .free) : s.trans.slots[j].state = .free := by
  rw [State.fillSlot_slot] at h
  split at h
  · exact absurd h (s.placedSlot_state _ _ _ _ _)
  · exact h

theorem State.useTag_state (s : State) (n m : Fin 32) : (s.useTag n).nodes[m].state = s.nodes[m].state := by
  rw [State.useTag_node]
  split <;> rfl

/-- A placement for another node. -/
theorem State.place_apart {s : State} {n m : Fin 32} (h : m ≠ n) (k : OrderKind) (v : OrderValue) (w : Owner)
    (c : Option BoatSet) : Apart n s (s.place m k v w c).1 := by
  rcases s.place_forms m k v w c with e | ⟨i, waits, _, e⟩ | ⟨i, _, free, e⟩
  · rw [e]; exact Apart.refl n s
  · rw [e]
    refine Apart.ofSlots (s.useTag_state m n) (fun j => State.supersede_free) fun j => ?_
    rw [State.supersede_slot]
    split
    · next l =>
      subst l
      have target := (State.waitingSlot_meets waits).2
      exact .inr ⟨Slot.waitsFor_other target h, Slot.waitsFor_other target h⟩
    · exact .inl rfl
  · rw [e]
    refine Apart.ofSlots (by rw [State.fillSlot_nodes, State.useTag_state]) (fun j => State.fillSlot_free) fun j => ?_
    rw [State.fillSlot_slot]
    split
    · next l => subst l; exact .inr ⟨Slot.waitsFor_other rfl h, Slot.waitsFor_free free n⟩
    · exact .inl rfl

/-! ### An order that waits for a node -/

/-- The waiting slot of a node carries an order of a kind with a value and an owner. -/
def State.Bears (s : State) (n : Fin 32) (k : OrderKind) (v : OrderValue) (w : Owner) : Prop :=
  ∃ j : Fin 16, s.waitingSlot n = some j ∧ s.trans.slots[j].kind = k ∧ s.trans.slots[j].value = v ∧
    s.trans.slots[j].owner = some w

/-- An order of a kind for a node finds the node taking orders, and no waiting order of another kind (R136). -/
structure State.Open (s : State) (n : Fin 32) (k : OrderKind) : Prop where
  alive : s.nodes[n].state ≠ .failed ∧ s.nodes[n].state ≠ .unused
  kind : ∀ j : Fin 16, s.waitingSlot n = some j → s.trans.slots[j].kind = k

theorem Apart.open {n : Fin 32} {k : OrderKind} {s t : State} (h : Apart n s t) (o : s.Open n k) : t.Open n k := by
  refine ⟨by rw [h.node]; exact o.alive, fun j e => ?_⟩
  rw [h.waitingSlot] at e
  rw [(h.order j (findTable_meets e)).1]
  exact o.kind j e

/-- A placement in the way of which nothing stands is taken (R136). -/
theorem State.place_bears {s : State} {n : Fin 32} {k : OrderKind} (o : s.Open n k) (l : k.supersedable = true)
    (free : s.hasFree) (v : OrderValue) (w : Owner) : (s.place n k v w none).1.Bears n k v w := by
  cases e : s.waitingSlot n with
  | some i =>
    rw [State.place_supersedes o.alive e (o.kind i e) l]
    refine ⟨i, Eq.trans (findTable_congr fun j => ?_) e, ?_⟩
    · rw [State.supersede_slot]
      split <;> rfl
    · rw [State.supersede_slot, if_pos rfl]
      exact ⟨o.kind i e, rfl, rfl⟩
  | none =>
    obtain ⟨i, f⟩ := State.freeSlot_isSome free
    rw [State.place_fills o.alive e f]
    refine ⟨i, findTable_unique ?_ fun j waits => ?_, ?_⟩
    · rw [State.fillSlot_slot, if_pos rfl]
      exact (Slot.waitsFor_iff _ n).2 ⟨s.placedSlot_waits _ _ _ _ _, rfl⟩
    · rw [State.fillSlot_slot] at waits
      split at waits
      · next h => exact h.symm
      · have := findTable_none e j
        rw [show (s.trans.slots[j].isWaiting && decide (s.trans.slots[j].target = n)) = true from waits] at this
        cases this
    · rw [State.fillSlot_slot, if_pos rfl]
      exact ⟨rfl, rfl, rfl⟩

/-- From `s` to `t` no slot becomes FREE, and an order of a kind that waits for a node goes on waiting. -/
structure Spares (n : Fin 32) (k : OrderKind) (s t : State) : Prop where
  free : t.hasFree → s.hasFree
  bears : ∀ v w, s.Bears n k v w → t.Bears n k v w

theorem Spares.refl (n : Fin 32) (k : OrderKind) (s : State) : Spares n k s s := ⟨id, fun _ _ => id⟩

theorem Spares.trans {n : Fin 32} {k : OrderKind} {s t u : State} (h : Spares n k s t) (g : Spares n k t u) :
    Spares n k s u :=
  ⟨fun x => h.free (g.free x), fun v w x => g.bears v w (h.bears v w x)⟩

theorem Spares.foldl {α : Type} {n : Fin 32} {k : OrderKind} (f : State → α → State)
    (h : ∀ s a, Spares n k s (f s a)) (l : List α) (s : State) : Spares n k s (l.foldl f s) :=
  foldl_keeps f (Spares n k s) (fun u a x => x.trans (h u a)) l s (Spares.refl n k s)

theorem Apart.spares {n : Fin 32} {s t : State} (h : Apart n s t) (k : OrderKind) : Spares n k s t := by
  refine ⟨h.free, fun v w ⟨j, e, kind, value, owner⟩ => ⟨j, h.waitingSlot.trans e, ?_⟩⟩
  obtain ⟨a, b, c⟩ := h.order j (findTable_meets e)
  exact ⟨a.trans kind, b.trans value, c.trans owner⟩

theorem Spares.ofSame (n : Fin 32) (k : OrderKind) {s t : State} (trans : t.trans = s.trans) : Spares n k s t := by
  refine ⟨fun ⟨j, e⟩ => ⟨j, by rw [← trans]; exact e⟩, fun v w ⟨j, e, h⟩ => ⟨j, ?_, by rw [trans]; exact h⟩⟩
  unfold State.waitingSlot
  rw [trans]
  exact e

/-- A placement frees no slot. -/
theorem State.place_free {s : State} {n : Fin 32} {k : OrderKind} {v : OrderValue} {w : Owner} {c : Option BoatSet}
    (h : (s.place n k v w c).1.hasFree) : s.hasFree := by
  obtain ⟨j, x⟩ := h
  refine ⟨j, ?_⟩
  rcases s.place_forms n k v w c with e | ⟨i, _, _, e⟩ | ⟨i, _, _, e⟩ <;> rw [e] at x
  · exact x
  · exact State.supersede_free x
  · exact State.fillSlot_free x

/-- A placement of another kind, or for another node. -/
theorem State.place_spares {s : State} {n m : Fin 32} {k l : OrderKind} (h : m ≠ n ∨ l ≠ k) (v : OrderValue) (w : Owner)
    (c : Option BoatSet) : Spares n k s (s.place m l v w c).1 := by
  by_cases e : m = n
  · subst e
    refine ⟨State.place_free, fun v' w' x => ?_⟩
    obtain ⟨j, waits, kind, _⟩ := id x
    rw [State.place_busy waits (by rw [kind]; exact (h.resolve_left (not_not.2 rfl)).symm)]
    exact x
  · exact (State.place_apart e l v w c).spares k

/-! ### The orders of the units -/

theorem State.placeSetpoint_none {s : State} {i : Fin 6} (h : s.prop.engines[i].entry.governor = none) :
    s.placeSetpoint i = s := by
  unfold State.placeSetpoint
  rw [h]

theorem State.placeSetpoint_some {s : State} {i : Fin 6} {g : Fin 32} (h : s.prop.engines[i].entry.governor = some g) :
    s.placeSetpoint i = (s.place g .setpoint (.amount s.prop.engines[i].setpoint) (.propulsion i) none).1 := by
  unfold State.placeSetpoint
  rw [h]

theorem State.placeOrdered_none {s : State} {i : Fin 5} (h : s.steer.actuators[i].entry.node = none) :
    s.placeOrdered i = s := by
  unfold State.placeOrdered
  rw [h]

theorem State.placeOrdered_some {s : State} {i : Fin 5} {n : Fin 32} (h : s.steer.actuators[i].entry.node = some n) :
    s.placeOrdered i = (s.place n s.steer.actuators[i].entry.kind.order (.amount s.steer.actuators[i].ordered)
      (.steering i) none).1 := by
  unfold State.placeOrdered
  rw [h]

theorem ActuatorKind.order_eq (k : ActuatorKind) : k.order = if k = .bowUnit then .bow else .angle := by
  cases k <;> rfl

theorem ActuatorKind.order_supersedable (k : ActuatorKind) : k.order.supersedable = true := by
  cases k <;> rfl

theorem ActuatorKind.order_ne (k : ActuatorKind) : k.order ≠ .setpoint := by
  cases k <;> nofun

theorem State.placeSetpoint_apart {s : State} {i : Fin 6} {n : Fin 32} (h : s.prop.engines[i].entry.governor ≠ some n) :
    Apart n s (s.placeSetpoint i) := by
  cases e : s.prop.engines[i].entry.governor with
  | none => rw [State.placeSetpoint_none e]; exact Apart.refl n s
  | some g =>
    rw [State.placeSetpoint_some e]
    exact State.place_apart (fun x => h (by rw [e, x])) _ _ _ _

/-- Orders of other kinds are spared by a SETPOINT, and by one for another governor. -/
theorem State.placeSetpoint_spares {s : State} {i : Fin 6} {n : Fin 32} {k : OrderKind} (h : k ≠ .setpoint) :
    Spares n k s (s.placeSetpoint i) := by
  cases e : s.prop.engines[i].entry.governor with
  | none => rw [State.placeSetpoint_none e]; exact Spares.refl n k s
  | some g => rw [State.placeSetpoint_some e]; exact State.place_spares (.inr h.symm) _ _ _

theorem State.placeSetpoint_free {s : State} {i : Fin 6} (h : (s.placeSetpoint i).hasFree) : s.hasFree := by
  cases e : s.prop.engines[i].entry.governor with
  | none => rw [State.placeSetpoint_none e] at h; exact h
  | some g => rw [State.placeSetpoint_some e] at h; exact State.place_free h

theorem State.placeOrdered_spares {s : State} {i : Fin 5} {n : Fin 32} {k : OrderKind}
    (h : s.steer.actuators[i].entry.node ≠ some n ∨ s.steer.actuators[i].entry.kind.order ≠ k) :
    Spares n k s (s.placeOrdered i) := by
  cases e : s.steer.actuators[i].entry.node with
  | none => rw [State.placeOrdered_none e]; exact Spares.refl n k s
  | some m =>
    rw [State.placeOrdered_some e]
    exact State.place_spares (h.imp_left fun x y => x (by rw [e, y])) _ _ _

theorem State.placeSetpoint_bears {s : State} {i : Fin 6} {g : Fin 32} (h : s.prop.engines[i].entry.governor = some g)
    (o : s.Open g .setpoint) (free : s.hasFree) :
    (s.placeSetpoint i).Bears g .setpoint (.amount s.prop.engines[i].setpoint) (.propulsion i) := by
  rw [State.placeSetpoint_some h]
  exact State.place_bears o rfl free _ _

theorem State.placeOrdered_bears {s : State} {i : Fin 5} {n : Fin 32} (h : s.steer.actuators[i].entry.node = some n)
    (o : s.Open n s.steer.actuators[i].entry.kind.order) (free : s.hasFree) :
    (s.placeOrdered i).Bears n s.steer.actuators[i].entry.kind.order (.amount s.steer.actuators[i].ordered)
      (.steering i) := by
  rw [State.placeOrdered_some h]
  exact State.place_bears o (ActuatorKind.order_supersedable _) free _ _

theorem State.Bears.carriesSetpoint {s : State} {i : Fin 6} {g : Fin 32}
    (h : s.Bears g .setpoint (.amount s.prop.engines[i].setpoint) (.propulsion i)) : s.carriesSetpoint i g := by
  obtain ⟨j, waits, kind, value, owner⟩ := h
  obtain ⟨waiting, target⟩ := State.waitingSlot_meets waits
  exact ⟨j, waiting, target, kind, value, owner⟩

theorem State.maySetpoint.open {s : State} {i : Fin 6} {g : Fin 32} (h : s.maySetpoint i g) : s.Open g .setpoint :=
  ⟨h.alive, h.open_⟩

/-! ### What a recompute spares -/

theorem State.holdSlot_apart (s : State) (i : Fin 16) (n : Fin 32) : Apart n s (s.holdSlot i) := by
  unfold State.holdSlot
  split
  · next h =>
    have slot : ∀ j : Fin 16, ((s.modSlot i fun x => { x with state := .held }).leaveLane i).trans.slots[j] =
        if i = j then { s.trans.slots[j] with state := .held } else s.trans.slots[j] :=
      fun j => State.modSlot_slot s i j fun x => { x with state := .held }
    have waiting : s.trans.slots[i].isWaiting = true := (Slot.isWaiting_iff _).2 (.inr h)
    refine ⟨fun ⟨j, e⟩ => ⟨j, ?_⟩, rfl, fun j => ?_, fun j _ => ?_⟩
    · rw [slot] at e
      split at e
      · cases e
      · exact e
    · rw [slot]
      split
      · next e => subst e; simp only [Slot.waitsFor, waiting]; rfl
      · rfl
    · rw [slot]
      split <;> exact ⟨rfl, rfl, rfl⟩
  · exact Apart.refl n s

theorem State.holdRelease_apart (s : State) (b : BoatSet) (n : Fin 32) : Apart n s (s.holdRelease b) := by
  unfold State.holdRelease
  split
  · split
    · split
      · exact (s.holdSlot_apart _ n).trans (Apart.ofSame n rfl rfl)
      · exact Apart.refl n s
    · exact Apart.refl n s
  · exact Apart.refl n s

theorem State.reviewZeroOf_apart (s : State) (b : BoatSet) (n : Fin 32) : Apart n s (s.reviewZeroOf b) := by
  unfold State.reviewZeroOf
  dsimp only
  split
  · exact Apart.refl n s
  · split
    · exact Apart.ofSame n rfl rfl
    · refine Apart.trans ?_ (State.holdRelease_apart _ b n)
      exact Apart.ofSame n rfl rfl

theorem State.reviewZero_apart (s : State) (n : Fin 32) : Apart n s s.reviewZero :=
  ((s.reviewZeroOf_apart _ n).trans (State.reviewZeroOf_apart _ _ n)).trans (State.reviewZeroOf_apart _ _ n)

theorem State.remapActuator_spares {s : State} {i : Fin 5} {n : Fin 32} {k : OrderKind}
    (h : s.steer.actuators[i].entry.node ≠ some n ∨ s.steer.actuators[i].entry.kind.order ≠ k) :
    Spares n k s (s.remapActuator i) := by
  by_cases e : s.steer.actuators[i].state = .absent ∨
      s.orderedFor s.steer.actuators[i].entry = s.steer.actuators[i].ordered
  · rw [State.remapActuator_idle e]
    exact Spares.refl n k s
  · rw [State.remapActuator_moves e]
    refine Spares.trans ?_ (State.placeOrdered_spares ?_)
    · exact Spares.ofSame n k rfl
    · rw [State.modActuator_actuator, if_pos rfl]
      exact h

/-- The remapping of the actuators leaves a SETPOINT that waits. -/
theorem State.remapBoat_spares (s : State) (b : Boat) (n : Fin 32) : Spares n .setpoint s (s.remapBoat b) := by
  unfold State.remapBoat
  refine Spares.foldl _ (fun u i => ?_) _ s
  split
  · exact State.remapActuator_spares (.inr (ActuatorKind.order_ne _))
  · exact Spares.refl n _ u

theorem State.reviewBoatWash_spares (s : State) (b : Boat) (n : Fin 32) : Spares n .setpoint s (s.reviewBoatWash b) := by
  unfold State.reviewBoatWash
  split
  · exact Spares.refl n _ s
  · refine Spares.trans ?_ (State.remapBoat_spares _ b n)
    exact Spares.ofSame n _ rfl

theorem State.reviewWash_spares (s : State) (n : Fin 32) : Spares n .setpoint s s.reviewWash :=
  (s.reviewBoatWash_spares .b1 n).trans (State.reviewBoatWash_spares _ .b2 n)

theorem State.review_spares (s : State) (n : Fin 32) : Spares n .setpoint s s.reviewWash.reviewZero :=
  (s.reviewWash_spares n).trans ((State.reviewZero_apart _ n).spares _)

/-! ### Setpoints placed engine by engine (R35, R39) -/

/-- One engine's work done: its issued setpoint is written and placed. -/
def State.Issued (s : State) (i : Fin 6) (t : State) : Prop :=
  ∃ g : Engine → Engine, (g s.prop.engines[i]).entry = s.prop.engines[i].entry ∧ t = (s.modEngine i g).placeSetpoint i

/-- Work that for each engine does nothing, or writes the engine and places its issued setpoint. -/
structure Issues (f : State → Fin 6 → State) : Prop where
  forms : ∀ s i, f s i = s ∨ s.Issued i (f s i)

theorem State.Issued.engine {s t : State} {i : Fin 6} (h : s.Issued i t) (j : Fin 6) :
    (i ≠ j → t.prop.engines[j] = s.prop.engines[j]) ∧ t.prop.engines[j].entry = s.prop.engines[j].entry := by
  obtain ⟨g, entry, e⟩ := h
  rw [e, (State.placeSetpoint_slotted _ i).prop, State.modEngine_engine]
  refine ⟨fun n => if_neg n, ?_⟩
  split
  · next x => subst x; exact entry
  · rfl

theorem State.Issued.apart {s t : State} {i : Fin 6} {n : Fin 32} (h : s.Issued i t)
    (governor : s.prop.engines[i].entry.governor ≠ some n) : Apart n s t := by
  obtain ⟨g, entry, e⟩ := h
  rw [e]
  refine Apart.trans ?_ (State.placeSetpoint_apart ?_)
  · exact Apart.ofSame n rfl rfl
  · rw [State.modEngine_engine, if_pos rfl, entry]
    exact governor

theorem State.Issued.free {s t : State} {i : Fin 6} (h : s.Issued i t) (free : t.hasFree) : s.hasFree := by
  obtain ⟨g, _, e⟩ := h
  rw [e] at free
  have placed : (s.modEngine i g).hasFree := State.placeSetpoint_free free
  exact placed

theorem State.Issued.bears {s t : State} {i : Fin 6} {n : Fin 32} (h : s.Issued i t)
    (governor : s.prop.engines[i].entry.governor = some n) (o : s.Open n .setpoint) (free : s.hasFree) :
    t.Bears n .setpoint (.amount t.prop.engines[i].setpoint) (.propulsion i) := by
  obtain ⟨g, entry, e⟩ := h
  rw [e, (State.placeSetpoint_slotted _ i).prop]
  refine State.placeSetpoint_bears ?_ ⟨o.alive, o.kind⟩ free
  rw [State.modEngine_engine, if_pos rfl, entry]
  exact governor

theorem Issues.engine {f : State → Fin 6 → State} (h : Issues f) (s : State) (i j : Fin 6) :
    (i ≠ j → (f s i).prop.engines[j] = s.prop.engines[j]) ∧ (f s i).prop.engines[j].entry = s.prop.engines[j].entry := by
  rcases h.forms s i with e | e
  · rw [e]; exact ⟨fun _ => rfl, rfl⟩
  · exact State.Issued.engine e j

theorem Issues.apart {f : State → Fin 6 → State} (h : Issues f) {s : State} {i : Fin 6} {n : Fin 32}
    (governor : s.prop.engines[i].entry.governor ≠ some n) : Apart n s (f s i) := by
  rcases h.forms s i with e | e
  · rw [e]; exact Apart.refl n s
  · exact State.Issued.apart e governor

/-- Work over engines that a governor does not belong to leaves the governor's orders. -/
theorem Issues.foldl_apart {f : State → Fin 6 → State} (h : Issues f) {n : Fin 32} (l : List (Fin 6)) (s : State)
    (own : ∀ j ∈ l, s.prop.engines[j].entry.governor ≠ some n) : Apart n s (l.foldl f s) := by
  induction l generalizing s with
  | nil => exact Apart.refl n s
  | cons k l ih =>
    refine (h.apart (own k (List.mem_cons_self ..))).trans (ih (f s k) fun j m => ?_)
    rw [(h.engine s k j).2]
    exact own j (List.mem_cons_of_mem k m)

theorem Issues.foldl_engine {f : State → Fin 6 → State} (h : Issues f) {i : Fin 6} (l : List (Fin 6)) (s : State)
    (out : i ∉ l) : (l.foldl f s).prop.engines[i] = s.prop.engines[i] := by
  induction l generalizing s with
  | nil => rfl
  | cons k l ih =>
    obtain ⟨n, out⟩ := not_or.1 (List.mem_cons.not.1 out)
    exact (ih (f s k) out).trans ((h.engine s k i).1 (Ne.symm n))

/-- Work over the engines leaves the setpoint that it issues in a waiting order of its governor, where nothing stands in
its way and a slot is FREE afterwards (R43). -/
theorem Issues.foldl_bears {f : State → Fin 6 → State} (h : Issues f) {i : Fin 6} {g : Fin 32} {e : Engine}
    (governor : e.entry.governor = some g) (issued : ∀ u : State, u.prop.engines[i] = e → u.Issued i (f u i))
    (l : List (Fin 6)) (d : l.Nodup) (m : i ∈ l) (s : State) (engine : s.prop.engines[i] = e)
    (own : ∀ j : Fin 6, j ≠ i → s.prop.engines[j].entry.governor ≠ some g) (o : s.Open g .setpoint)
    (free : (l.foldl f s).hasFree) :
    (l.foldl f s).Bears g .setpoint (.amount (l.foldl f s).prop.engines[i].setpoint) (.propulsion i) := by
  induction l generalizing s with
  | nil => cases m
  | cons k l ih =>
    obtain ⟨out, d⟩ := List.nodup_cons.1 d
    rw [List.foldl_cons] at free ⊢
    have kept : ∀ j : Fin 6, j ≠ i → (f s k).prop.engines[j].entry.governor ≠ some g := fun j n => by
      rw [(h.engine s k j).2]; exact own j n
    by_cases x : k = i
    · subst x
      have rest : Apart g (f s k) (l.foldl f (f s k)) := h.foldl_apart l _ fun j m => kept j fun x => out (x ▸ m)
      have one := issued s engine
      rw [h.foldl_engine l _ out]
      exact (rest.spares _).bears _ _ (one.bears (by rw [engine]; exact governor) o (one.free (rest.free free)))
    · have apart : Apart g s (f s k) := h.apart (own k x)
      exact ih d ((List.mem_cons.1 m).resolve_left (Ne.symm x)) (f s k) (((h.engine s k i).1 x).trans engine) kept
        (apart.open o) free

end Sys2Proof.Machine

end

