-- ==== Sys2Proof/Proofs/SetpointOrders.lean ====
section
/-! PROOF. Proofs/SetpointOrders.lean: every event that moves an issued setpoint places it (R22, R35, R37, R39, R43), and a
recompute that finds all it forms already formed changes nothing of it (R29). -/

namespace Sys2Proof.Machine

/-! ### A recompute as work over the engines -/

theorem State.cutEngine_issued {s : State} {i : Fin 6} (h : s.prop.engines[i].cutValue ≠ s.prop.engines[i].setpoint) :
    s.Issued i (s.cutEngine i) :=
  ⟨fun x => s.moveTo x x.cutValue, (s.moveTo_kept _ _).entry, State.cutEngine_cut h⟩

theorem State.crashEngine_issued {s : State} {i : Fin 6} (h : s.prop.engines[i].setpoint ≠ 0) :
    s.Issued i (s.crashEngine i) :=
  ⟨s.zeroEngine, (s.zeroEngine_kept _).entry, if_neg h⟩

theorem State.cutEngine_issues : Issues State.cutEngine where
  forms s i := by
    by_cases e : s.prop.engines[i].cutValue = s.prop.engines[i].setpoint
    · exact .inl (State.cutEngine_within e)
    · exact .inr (State.cutEngine_issued e)

theorem State.crashEngine_issues : Issues State.crashEngine where
  forms s i := by
    by_cases z : s.prop.engines[i].setpoint = 0
    · exact .inl (if_pos z)
    · exact .inr (State.crashEngine_issued z)

/-- Work over the engines leaves the orders of a governor whose engine it leaves. -/
theorem Issues.foldl_idle {f : State → Fin 6 → State} (h : Issues f) {i : Fin 6} {g : Fin 32} {e : Engine}
    (idle : ∀ u : State, u.prop.engines[i] = e → f u i = u) (l : List (Fin 6)) (s : State) (engine : s.prop.engines[i] = e)
    (own : ∀ j : Fin 6, j ≠ i → s.prop.engines[j].entry.governor ≠ some g) : Apart g s (l.foldl f s) := by
  induction l generalizing s with
  | nil => exact Apart.refl g s
  | cons k l ih =>
    by_cases x : k = i
    · subst x
      rw [List.foldl_cons, idle s engine]
      exact ih s engine own
    · refine (h.apart (own k x)).trans (ih (f s k) (((h.engine s k i).1 x).trans engine) fun j n => ?_)
      rw [(h.engine s k j).2]
      exact own j n

/-- A state with its ceilings and targets formed and the unmet demand noted, before the cuts (R29). -/
def State.shared (s : State) : State :=
  s.formEngines.share.noteUnmet

theorem State.reslewed_eq (s : State) : s.reslewed = s.shared.cutEngines.slewEngines s.prop.engines := rfl

theorem State.shared_noted (s : State) : Noted s.formEngines.share s.shared :=
  State.noteUnmet_noted _

theorem State.shared_engine (s : State) (i : Fin 6) : s.shared.prop.engines[i] = s.formedEngine i := by
  rw [s.shared_noted.prop]
  rfl

/-- The forming of the ceilings and the targets places nothing. -/
theorem State.shared_apart (s : State) (n : Fin 32) : Apart n s s.shared := by
  refine Apart.ofSame n ?_ ?_ <;> rw [s.shared_noted.same] <;> rfl

theorem State.formedEngine_entry (s : State) (i : Fin 6) : (s.formedEngine i).entry = s.prop.engines[i].entry :=
  (s.formedEngine_kept i).1.entry

theorem State.shared_entry (s : State) (i : Fin 6) : s.shared.prop.engines[i].entry = s.prop.engines[i].entry := by
  rw [s.shared_engine, s.formedEngine_entry]

/-- From the cuts of a recompute on only the slewing and the reviews follow. -/
theorem State.afterCuts_spares (s : State) (n : Fin 32) : Spares n .setpoint s.shared.cutEngines s.recompute := by
  have slewed : Spares n .setpoint s.shared.cutEngines s.reslewed := by
    rw [State.reslewed_eq]
    exact Spares.ofSame n _ (State.slewEngines_trans _ _)
  rw [State.recompute_eq]
  exact slewed.trans (s.reslewed.review_spares n)

/-- The cuts place the setpoint of an engine that they cut (R35). -/
theorem State.cutEngines_bears {s : State} {i : Fin 6} {g : Fin 32} (governor : s.prop.engines[i].entry.governor = some g)
    (own : ∀ j : Fin 6, j ≠ i → s.prop.engines[j].entry.governor ≠ some g) (o : s.Open g .setpoint)
    (moves : s.prop.engines[i].cutValue ≠ s.prop.engines[i].setpoint) (free : s.cutEngines.hasFree) :
    s.cutEngines.Bears g .setpoint (.amount s.prop.engines[i].cutValue) (.propulsion i) := by
  have setpoint : s.cutEngines.prop.engines[i].setpoint = s.prop.engines[i].cutValue := by
    rw [State.cutEngines_engine, State.moveTo_setpoint]
  rw [← setpoint]
  unfold State.cutEngines at free ⊢
  exact State.cutEngine_issues.foldl_bears governor (fun u e => State.cutEngine_issued (by rw [e]; exact moves))
    (List.finRange 6) (List.nodup_finRange 6) (List.mem_finRange i) s rfl own o free

/-- The cuts leave the orders of a governor whose engine they do not cut. -/
theorem State.cutEngines_apart {s : State} {i : Fin 6} {g : Fin 32}
    (still : s.prop.engines[i].cutValue = s.prop.engines[i].setpoint)
    (own : ∀ j : Fin 6, j ≠ i → s.prop.engines[j].entry.governor ≠ some g) : Apart g s s.cutEngines :=
  State.cutEngine_issues.foldl_idle (fun _ e => State.cutEngine_within (by rw [e]; exact still)) _ s rfl own

/-- A recompute that cuts an issued setpoint places it (R35, R43). -/
theorem State.recompute_bears {s : State} {i : Fin 6} {g : Fin 32} (h : s.maySetpoint i g)
    (cut : s.recompute.prop.engines[i].setpoint ≠ s.prop.engines[i].setpoint) (free : s.recompute.hasFree) :
    s.recompute.Bears g .setpoint (.amount s.recompute.prop.engines[i].setpoint) (.propulsion i) := by
  have after := s.afterCuts_spares g
  rw [s.recompute_setpoint] at cut ⊢
  rw [← s.shared_engine] at cut ⊢
  refine after.bears _ _ (State.cutEngines_bears ?_ (fun j n => ?_) ((s.shared_apart g).open h.open) ?_ (after.free free))
  · rw [s.shared_entry]; exact h.governor
  · rw [s.shared_entry]; exact h.own j n
  · have setpoint : s.shared.prop.engines[i].setpoint = s.prop.engines[i].setpoint := by
      rw [s.shared_engine]; exact (s.formedEngine_slews i).setpoint
    rw [setpoint]
    exact cut

/-- A recompute spares the SETPOINT of a governor whose engine stands at 0. -/
theorem State.recompute_spares {s : State} {i : Fin 6} {g : Fin 32} (zero : s.prop.engines[i].setpoint = 0)
    (own : ∀ j : Fin 6, j ≠ i → s.prop.engines[j].entry.governor ≠ some g) : Spares g .setpoint s s.recompute := by
  have still : s.shared.prop.engines[i].cutValue = s.shared.prop.engines[i].setpoint := by
    rw [s.shared_engine]
    have z : (s.formedEngine i).setpoint = 0 := (s.formedEngine_slews i).setpoint.trans zero
    rw [Engine.cutValue_zero z, z]
  have cuts : Apart g s.shared s.shared.cutEngines := State.cutEngines_apart still fun j n => by
    rw [s.shared_entry]; exact own j n
  exact (((s.shared_apart g).trans cuts).spares _).trans (s.afterCuts_spares g)

theorem State.recompute_zero {s : State} {i : Fin 6} (zero : s.prop.engines[i].setpoint = 0) :
    s.recompute.prop.engines[i].setpoint = 0 := by
  rw [State.recompute_engine_zero zero, State.slewEngine_setpoint]
  exact (s.formedEngine_slews i).setpoint.trans zero

theorem Spares.bears_at {n : Fin 32} {s t : State} {i : Fin 6} (h : Spares n .setpoint s t)
    (b : s.Bears n .setpoint (.amount s.prop.engines[i].setpoint) (.propulsion i))
    (e : t.prop.engines[i].setpoint = s.prop.engines[i].setpoint) : t.carriesSetpoint i n := by
  have k := h.bears _ _ b
  rw [← e] at k
  exact k.carriesSetpoint

/-- A recompute of a state in which an engine stands at 0 and its SETPOINT waits. -/
theorem State.recompute_carries {s : State} {i : Fin 6} {g : Fin 32} (zero : s.prop.engines[i].setpoint = 0)
    (own : ∀ j : Fin 6, j ≠ i → s.prop.engines[j].entry.governor ≠ some g)
    (placed : s.hasFree → s.Bears g .setpoint (.amount s.prop.engines[i].setpoint) (.propulsion i))
    (free : s.recompute.hasFree) : s.recompute.carriesSetpoint i g := by
  have spares : Spares g .setpoint s s.recompute := State.recompute_spares zero own
  exact spares.bears_at (placed (spares.free free)) ((State.recompute_zero zero).trans zero.symm)

/-! ### A recompute of what is formed -/

/-- An engine whose ceilings are formed is as a recompute forms it (R26). -/
theorem State.reformEngine_same {s : State} {e : Engine} (h : s.ComponentsFormed e)
    (k : e.state ≠ .absent → e.Composed) : s.reformEngine e = e := by
  have formed : s.formComponents e = e := by
    have k : s.ComponentsFormed (s.formComponents e) := ⟨rfl, rfl, rfl, rfl, rfl, rfl⟩
    have ahead : (s.formComponents e).modeAhead = e.modeAhead := k.modeAhead.trans h.modeAhead.symm
    have astern : (s.formComponents e).modeAstern = e.modeAstern := k.modeAstern.trans h.modeAstern.symm
    have health : (s.formComponents e).healthCeiling = e.healthCeiling := k.health.trans h.health.symm
    have tow : (s.formComponents e).towCeiling = e.towCeiling := k.tow.trans h.tow.symm
    have economy : (s.formComponents e).economyCeiling = e.economyCeiling := k.economy.trans h.economy.symm
    have tankLow : (s.formComponents e).tankLowCeiling = e.tankLowCeiling := k.tankLow.trans h.tankLow.symm
    have q : s.formComponents e = { e with
        modeAhead := (s.formComponents e).modeAhead, modeAstern := (s.formComponents e).modeAstern
        healthCeiling := (s.formComponents e).healthCeiling, towCeiling := (s.formComponents e).towCeiling
        economyCeiling := (s.formComponents e).economyCeiling
        tankLowCeiling := (s.formComponents e).tankLowCeiling } := rfl
    rw [q, ahead, astern, health, tow, economy, tankLow]
  unfold State.reformEngine State.formEngine
  rw [formed]
  split
  · rfl
  · next n =>
    have composed : e.composed.Composed := ⟨rfl, rfl⟩
    have ahead : e.composed.compositeAhead = e.compositeAhead := composed.ahead.trans (k n).ahead.symm
    have astern : e.composed.compositeAstern = e.compositeAstern := composed.astern.trans (k n).astern.symm
    have q : e.composed = { e with
      compositeAhead := e.composed.compositeAhead, compositeAstern := e.composed.compositeAstern } := rfl
    rw [q, ahead, astern]

theorem State.formEngines_same {s : State} (h : s.TargetsFormed) : s.formEngines = s := by
  have engines : mapTable s.reformEngine s.prop.engines = s.prop.engines := by
    refine Vector.ext fun k l => ?_
    have e := mapTable_get s.reformEngine s.prop.engines ⟨k, l⟩
    exact e.trans (State.reformEngine_same (h.components ⟨k, l⟩) (h.composites ⟨k, l⟩))
  unfold State.formEngines
  rw [engines]

/-- The sharing gives the targets that stand, where they are as the demand has them (R31 to R33). -/
theorem State.share_target {s : State} (h : s.DemandShared) (i : Fin 6) :
    s.share.prop.engines[i].target = s.prop.engines[i].target := by
  have k := s.share_shared
  have power : s.share.prop.power = s.prop.power := rfl
  have nominal : s.share.prop.nominal = s.prop.nominal := rfl
  have mode : s.share.prop.diffMode = s.prop.diffMode := rfl
  have fixed : s.share.prop.fixedDiff = s.prop.fixedDiff := rfl
  have steer : s.share.steer = s.steer := rfl
  have helm : s.share.helm = s.helm := rfl
  unfold State.DemandShared at h k
  simp only [State.share_engine, power, nominal, mode, fixed, steer, helm] at k
  obtain ⟨_, _, run, idle, _⟩ := h
  obtain ⟨_, _, run', idle', _⟩ := k
  rw [State.share_engine]
  by_cases r : s.prop.engines[i].state = .running
  · exact (run' i r).trans (run i r).symm
  · exact (idle' i r).trans (idle i r).symm

theorem State.formedEngine_same {s : State} (h : s.TargetsFormed) (i : Fin 6) : s.formedEngine i = s.prop.engines[i] := by
  have target := State.share_target h.shared i
  unfold State.formedEngine
  rw [State.formEngines_same h]
  rw [State.share_engine] at target ⊢
  dsimp only at target
  rw [target]

theorem Engine.Sound.uncut {e : Engine} (h : e.Sound) : e.cutValue = e.setpoint := by
  obtain ⟨low, high⟩ := h.setpoint
  unfold Engine.cutValue
  rw [if_neg (by omega), if_neg (by omega)]

/-- The reviews change nothing where the wash directions and the boat-at-zero conditions are as the engines have them. -/
theorem State.reviewWash_idle {s : State} (h : ∀ b, s.prop.wash.get b = washOf s.prop.engines b) : s.reviewWash = s := by
  unfold State.reviewWash State.reviewBoatWash
  rw [if_pos (h .b1).symm, if_pos (h .b2).symm]

theorem State.reviewZero_idle {s : State} (h : ∀ x, s.prop.zeroOf x = atZero s.prop.engines x) : s.reviewZero = s := by
  have one : ∀ x, s.reviewZeroOf x = s := fun x => if_pos (h x).symm
  unfold State.reviewZero
  rw [one, one, one]

theorem State.cutEngines_idle {s : State} (h : ∀ i : Fin 6, s.prop.engines[i].cutValue = s.prop.engines[i].setpoint) :
    s.cutEngines = s := by
  unfold State.cutEngines
  exact foldl_keeps State.cutEngine (· = s) (fun u i e => by rw [e]; exact State.cutEngine_within (h i)) _ s rfl

/-- But for its slewing and the notices, a recompute of what is formed and sound leaves the state as it is. -/
theorem State.reslewed_still {s : State} (h : s.TargetsFormed) (k : s.EnginesSound) :
    s.reslewed.trans = s.trans ∧ s.reslewed.prop.wash = s.prop.wash ∧ s.reslewed.prop.zero = s.prop.zero ∧
      s.reslewed.prop.zeroAll = s.prop.zeroAll ∧
      ∀ i : Fin 6, s.prop.engines[i].Kept s.reslewed.prop.engines[i] ∧
        s.reslewed.prop.engines[i].target = s.prop.engines[i].target ∧
        s.reslewed.prop.engines[i].setpoint = s.prop.engines[i].setpoint := by
  have engine : ∀ i : Fin 6, s.shared.prop.engines[i] = s.prop.engines[i] := fun i =>
    (s.shared_engine i).trans (State.formedEngine_same h i)
  have cuts : s.shared.cutEngines = s.shared := State.cutEngines_idle fun i => by rw [engine]; exact (k i).uncut
  have noted := s.shared_noted
  rw [State.reslewed_eq, cuts]
  generalize s.shared = u at engine noted
  refine ⟨?_, ?_, ?_, ?_, fun i => ?_⟩
  · show u.trans = s.trans
    rw [noted.same]; rfl
  · show u.prop.wash = s.prop.wash
    rw [noted.prop]; rfl
  · show u.prop.zero = s.prop.zero
    rw [noted.prop]; rfl
  · show u.prop.zeroAll = s.prop.zeroAll
    rw [noted.prop]; rfl
  · rw [State.slewEngines_engine, engine]
    exact ⟨u.slewEngine_kept _ _, u.slewEngine_target _ _, u.slewEngine_setpoint _ _⟩

theorem washOf_congr {t u : Table Engine 6} (h : ∀ i : Fin 6, u[i].state = t[i].state ∧ u[i].entry = t[i].entry ∧
    u[i].setpoint = t[i].setpoint) (b : Boat) : washOf u b = washOf t b := by
  rw [washOf_eq, washOf_eq]
  simp only [(h _).1, (h _).2.1, (h _).2.2]

theorem atZero_congr {t u : Table Engine 6} (h : ∀ i : Fin 6, u[i].state = t[i].state ∧ u[i].entry = t[i].entry ∧
    u[i].setpoint = t[i].setpoint ∧ u[i].load = t[i].load) (x : BoatSet) : atZero u x = atZero t x := by
  refine Bool.eq_iff_iff.2 ?_
  rw [atZero_iff, atZero_iff]
  simp only [(h _).1, (h _).2.1, (h _).2.2.1, (h _).2.2.2]

/-- A recompute that finds all it forms already formed (R29). -/
theorem State.recompute_still {s : State} (h : s.TargetsFormed) (k : s.EnginesSound) (w : s.WashSound) :
    s.recompute = s.reslewed := by
  obtain ⟨_, wash, zero, zeroAll, engines⟩ := State.reslewed_still h k
  have same : ∀ i : Fin 6, s.reslewed.prop.engines[i].state = s.prop.engines[i].state ∧
      s.reslewed.prop.engines[i].entry = s.prop.engines[i].entry ∧
      s.reslewed.prop.engines[i].setpoint = s.prop.engines[i].setpoint ∧
      s.reslewed.prop.engines[i].load = s.prop.engines[i].load := fun i =>
    ⟨(engines i).1.state, (engines i).1.entry, (engines i).2.2, (engines i).1.load⟩
  rw [State.recompute_eq]
  rw [State.reviewWash_idle, State.reviewZero_idle]
  · intro x
    rw [atZero_congr same, ← w.zero_eq x]
    cases x
    · exact congrArg PerBoat.b1 zero
    · exact congrArg PerBoat.b2 zero
    · exact zeroAll
  · intro b
    rw [washOf_congr fun i => ⟨(same i).1, (same i).2.1, (same i).2.2.1⟩, ← w.wash_eq b, wash]

/-! ### Frames sent on -/

theorem State.forwardCopy_trans (s : State) (p : Port) (f : Frame) : (s.forwardCopy p f).trans = s.trans := by
  unfold State.forwardCopy
  split
  · next e => rw [State.placeFrame_eq e]; rfl
  · rw [(s.latch_noted _ _).same]

theorem State.forwardCopy_prop (s : State) (p : Port) (f : Frame) : (s.forwardCopy p f).prop = s.prop := by
  unfold State.forwardCopy
  split
  · next e => rw [State.placeFrame_eq e]; rfl
  · rw [(s.latch_noted _ _).same]

/-- The copies of a frame leave propulsion and the slots. -/
theorem State.andPass_same (s u : State) (p : Port) (f : Frame) :
    (s.andPass u p f).trans = u.trans ∧ (s.andPass u p f).prop = u.prop := by
  unfold State.andPass
  split
  · unfold State.passOn
    refine foldl_keeps _ (fun v => v.trans = u.trans ∧ v.prop = u.prop) (fun v q h => ?_) _ u ⟨rfl, rfl⟩
    unfold State.copyTo
    split
    · rw [State.forwardCopy_trans, State.forwardCopy_prop]; exact h
    · exact h
  · exact ⟨rfl, rfl⟩

/-! ### The events -/

theorem State.takeStep_carries {s : State} {i : Fin 6} {g : Fin 32} (h : s.maySetpoint i g) (free : s.hasFree) :
    (s.takeStep i).carriesSetpoint i g := by
  have issued : s.Issued i ((s.modEngine i s.stepEngine).placeSetpoint i) := ⟨_, (s.stepEngine_kept _).entry, rfl⟩
  refine (State.review_spares _ g).bears_at (issued.bears h.governor h.open free) ?_
  rw [State.review_engines]

theorem State.crashed_entry (s : State) (e : Engine) : (s.crashed e).entry = e.entry := by
  unfold State.crashed
  split
  · rfl
  · exact (s.zeroEngine_kept e).entry

theorem State.crashStop_bears {s : State} {i : Fin 6} {g : Fin 32} (h : s.maySetpoint i g)
    (moving : s.prop.engines[i].setpoint ≠ 0) (free : s.crashStop.hasFree) :
    s.crashStop.Bears g .setpoint (.amount s.crashStop.prop.engines[i].setpoint) (.propulsion i) := by
  unfold State.crashStop at free ⊢
  exact State.crashEngine_issues.foldl_bears h.governor (fun u e => State.crashEngine_issued (by rw [e]; exact moving))
    (List.finRange 6) (List.nodup_finRange 6) (List.mem_finRange i) s rfl h.own h.open free

/-- P and the differential written on a state in which an engine stands at 0 and its SETPOINT waits. -/
theorem State.propelled_carries {s : State} {i : Fin 6} {g : Fin 32} (p : Int) (m : DiffMode) (d : Int)
    (zero : s.prop.engines[i].setpoint = 0) (own : ∀ j : Fin 6, j ≠ i → s.prop.engines[j].entry.governor ≠ some g)
    (placed : s.hasFree → s.Bears g .setpoint (.amount s.prop.engines[i].setpoint) (.propulsion i))
    (free : (s.propelled p m d).recompute.hasFree) : (s.propelled p m d).recompute.carriesSetpoint i g :=
  State.recompute_carries (s := s.propelled p m d) zero own placed free

theorem State.propelStart_carries {s : State} {i : Fin 6} {g : Fin 32} (h : s.maySetpoint i g)
    (moving : s.prop.engines[i].setpoint ≠ 0) (p : Int) (m : DiffMode) (d : Int)
    (free : (s.propelStart p m d true).recompute.hasFree) :
    (s.propelStart p m d true).recompute.carriesSetpoint i g := by
  have crash : s.propelStart p m d true = s.crashStop.propelled p m d := by
    unfold State.propelStart
    rw [if_pos rfl]
  have zero : s.crashStop.prop.engines[i].setpoint = 0 := by
    rw [s.crashStop_engine]
    exact s.crashed_setpoint _
  have own : ∀ j : Fin 6, j ≠ i → s.crashStop.prop.engines[j].entry.governor ≠ some g := fun j n => by
    rw [s.crashStop_engine, s.crashed_entry]
    exact h.own j n
  have placed : s.crashStop.hasFree → s.crashStop.Bears g .setpoint (.amount s.crashStop.prop.engines[i].setpoint)
      (.propulsion i) := State.crashStop_bears h moving
  rw [crash] at free ⊢
  generalize s.crashStop = u at zero own placed free ⊢
  exact State.propelled_carries p m d zero own placed free

theorem EngineState.reported_stops {x : EngineState} {r : RunState} {a : AlarmLevel} (h : x = .running)
    (k : r = .stopped ∨ a = .trip) : x.reported r a ≠ .running := by
  subst h
  rw [EngineState.reported_eq, if_neg (by simp)]
  obtain k | k := k
  · subst k
    split
    · nofun
    · nofun
  · rw [if_pos k]
    nofun

/-- An engine that leaves RUNNING has its setpoint of 0 placed (R22, R43). -/
theorem State.moveEngine_carries {s : State} {i : Fin 6} {g : Fin 32} {x : EngineState} (h : s.maySetpoint i g)
    (run : s.prop.engines[i].state = .running) (n : x ≠ .running) (free : (s.moveEngine i x).hasFree) :
    (s.moveEngine i x).carriesSetpoint i g := by
  have issued : (s.modEngine i fun e => { e with state := x }).Issued i (s.withState i x) := by
    rw [State.withState_leaving ⟨run, n⟩, State.leaveRunning_eq]
    exact ⟨_, (State.halted_kept _ _).entry, rfl⟩
  have entry : ∀ j : Fin 6, (s.modEngine i fun e => { e with state := x }).prop.engines[j].entry =
      s.prop.engines[j].entry := fun j => by
    rw [State.modEngine_engine]
    split
    · next e => subst e; rfl
    · rfl
  have zero : (s.withState i x).prop.engines[i].setpoint = 0 := by
    rw [State.withState_leaves run n]
    exact s.halted_setpoint _
  rw [State.moveEngine_eq] at free ⊢
  have own : ∀ j : Fin 6, j ≠ i → (s.withState i x).prop.engines[j].entry.governor ≠ some g := fun j m => by
    rw [(issued.engine j).2, entry]
    exact h.own j m
  have governor : (s.modEngine i fun e => { e with state := x }).prop.engines[i].entry.governor = some g := by
    rw [entry]
    exact h.governor
  exact State.recompute_carries zero own (fun before => issued.bears governor ⟨h.alive, h.open_⟩ (issued.free before)) free

theorem State.maySetpoint.ofSame {s t : State} {i : Fin 6} {g : Fin 32} (h : s.maySetpoint i g)
    (entry : ∀ j : Fin 6, t.prop.engines[j].entry = s.prop.engines[j].entry) (trans : t.trans = s.trans)
    (node : t.nodes[g].state = s.nodes[g].state) : t.maySetpoint i g := by
  have waits : t.waitingSlot g = s.waitingSlot g := by unfold State.waitingSlot; rw [trans]
  exact ⟨(entry i).symm ▸ h.governor, fun j n => (entry j).symm ▸ h.own j n, by rw [node]; exact h.alive,
    fun j e => by rw [trans]; exact h.open_ j (waits ▸ e)⟩

/-- A status by which an engine leaves RUNNING (R20, R22). -/
theorem State.engineReport_carries {s : State} {n : Fin 32} {i : Fin 6} (found : s.engineOf n = some i) {r : RunState}
    {a : AlarmLevel} (run : s.prop.engines[i].state = .running) (stops : r = .stopped ∨ a = .trip)
    (h : s.maySetpoint i n) (l : Half) (free : (s.engineReport n r l a).hasFree) :
    (s.engineReport n r l a).carriesSetpoint i n := by
  have leaves := EngineState.reported_stops run stops
  have followed : s.followed i r l a = (s.informed i r l a).moveEngine i (s.prop.engines[i].state.reported r a) :=
    if_pos (by rw [run] at leaves ⊢; exact leaves)
  rw [State.engineReport_some found, followed] at free ⊢
  have noted := s.informed_noted i r l a
  have informed : (s.informed i r l a).maySetpoint i n := by
    refine h.ofSame (fun j => ?_) (by rw [noted.same]; rfl) (by rw [noted.same]; rfl)
    rw [State.informed_engine]
    split
    · next e => subst e; rfl
    · rfl
  have zero := State.reviewZero_apart ((s.informed i r l a).moveEngine i (s.prop.engines[i].state.reported r a)) n
  have carries := State.moveEngine_carries informed ((s.informed_slews i i r l a).2.2.trans run) leaves (zero.free free)
  obtain ⟨j, waits, target, order⟩ := carries
  have w : Slot.waitsFor _ n = true := (Slot.waitsFor_iff _ n).2 ⟨waits, target⟩
  obtain ⟨kind, value, owner⟩ := zero.order j w
  obtain ⟨waits', target'⟩ := (Slot.waitsFor_iff _ n).1 ((zero.waits j).trans w)
  refine ⟨j, waits', target', ?_⟩
  rw [kind, value, owner, State.reviewZero_engines]
  exact order

end Sys2Proof.Machine

open Sys2Proof Sys2Proof.Machine

/-- Settles O27: each event writes the setpoint and places it, and what follows spares the order. -/
theorem setpointChangesPlaceOrders : Obligations.SetpointChangesPlaceOrders := by
  refine ⟨fun s i g at_ h free timer => ?_, fun s i g h cut free => ?_, fun s o p mode d flags i g a m crash moving h => ?_,
    fun s p h run load lvl n i d found running stops may => ?_, fun s h k w => ?_⟩
  · have run : exec (.stepExpiry i) s = .next ((s.reach at_).takeStep i) := by
      show Host.Outcome.next (s.expire s.prop.engines[i].stepAt _) = _
      rw [timer]
      rfl
    exact ⟨_, run, State.takeStep_carries (s := s.reach at_) ⟨h.governor, h.own, h.alive, h.open_⟩ free⟩
  · exact (State.recompute_bears h cut free).carriesSetpoint
  · have run : exec (.propel o p mode d flags) s = .next (((s.frameEnd .W).decidePropel p mode d flags).1.answer o 1
        ((s.frameEnd .W).decidePropel p mode d flags).2) := congrArg Host.Outcome.next (a.commanded 1 _)
    rw [State.decidePropel_taken m, State.takePropel_eq, crash] at run
    refine ⟨_, run, fun free => ?_⟩
    have restart : ∀ u : State, u.restartGuard.trans = u.trans ∧ u.restartGuard.prop = u.prop := fun u => by
      unfold State.restartGuard
      split
      · exact ⟨rfl, rfl⟩
      · exact ⟨rfl, rfl⟩
    have may : (s.frameEnd .W).maySetpoint i g := ⟨h.governor, h.own, h.alive, h.open_⟩
    have start := State.propelStart_carries may moving (clamp (-1000) 1000 p.toInt)
      (if mode = 0 then DiffMode.fixed else DiffMode.auto) (clamp (-300) 300 d.toInt)
    generalize ((s.frameEnd .W).propelStart (clamp (-1000) 1000 p.toInt)
      (if mode = 0 then DiffMode.fixed else DiffMode.auto) (clamp (-300) 300 d.toInt) true).recompute = u at free start ⊢
    unfold State.answer State.hasFree at free
    unfold State.answer State.carriesSetpoint
    rw [State.placeAnswer_trans, (restart u).1] at free ⊢
    rw [State.placeAnswer_prop, (restart u).2]
    exact start free
  · refine ⟨_, congrArg Host.Outcome.next d.passage, fun free => ?_⟩
    obtain ⟨trans, prop⟩ := s.andPass_same ((s.heardFrom p n).jobReads .propulsion n (.engineStatus run load lvl)) p
      ((Content.engineStatus run load lvl).frame h)
    have heard : (s.heardFrom p n).maySetpoint i n :=
      may.ofSame (fun _ => rfl) rfl (s.heardFrom_state p n n)
    have carries := State.engineReport_carries (s := s.heardFrom p n) found running stops heard load
    unfold State.hasFree at free
    unfold State.carriesSetpoint
    rw [trans] at free ⊢
    rw [prop]
    exact carries free
  · obtain ⟨trans, _, _, _, engines⟩ := State.reslewed_still h k
    rw [State.recompute_still h k w]
    exact ⟨trans, s.reslewed_same.1, fun i => (engines i).2⟩

end

