-- ==== Sys2Proof/Proofs/UnitWrites.lean ====
section
/-! PROOF. Proofs/UnitWrites.lean: the writes of the engine and actuator entries (R17, R18, R49, R50), and what the review of
forced steer assist leaves of an actuator and its order (R57, R65). -/

namespace Sys2Proof.Machine

/-! ### One actuator in a recompute (R52 to R55) -/

/-- The ordered value of one actuator, not ABSENT, is as the demands and the wash directions have it. -/
def State.OrderedAt (s : State) (a : Fin 5) : Prop :=
  s.remapped s.steer.actuators[a] = s.steer.actuators[a]

theorem State.OrderedAt.mapped {s : State} {a : Fin 5} (h : s.OrderedAt a) (n : s.steer.actuators[a].state ≠ .absent) :
    s.steer.actuators[a].ordered = s.mapped s.steer.actuators[a] := by
  unfold State.OrderedAt State.remapped at h
  rw [if_neg n] at h
  rw [State.mapped_eq]
  exact (congrArg Actuator.ordered h).symm

theorem State.OrderedAt.ofSame {s t : State} {a : Fin 5} (h : s.OrderedAt a) (wash : t.prop.wash = s.prop.wash)
    (steer : t.steer = s.steer) : t.OrderedAt a := by
  unfold State.OrderedAt State.remapped State.orderedFor at h ⊢
  rw [wash, steer]
  exact h

theorem State.reviewBoatWash_orderedAt {s : State} {a : Fin 5} (b : Boat) (h : s.OrderedAt a) :
    (s.reviewBoatWash b).OrderedAt a := by
  unfold State.reviewBoatWash
  split
  · exact h
  · generalize hu : ({ s with prop := { s.prop with wash := s.prop.wash.set b (washOf s.prop.engines b) } } : State) = u
    have same : u.steer.actuators = s.steer.actuators := by subst hu; rfl
    unfold State.OrderedAt at h ⊢
    rw [State.remapBoat_eq, (u.remapWhere_demanded _).remapped, State.remapWhere_actuator, same]
    by_cases q : s.steer.actuators[a].entry.washBoat = b
    · rw [if_pos (decide_eq_true q), State.remapped_idem]
    · have other : u.remapped s.steer.actuators[a] = s.remapped s.steer.actuators[a] := by
        subst hu
        unfold State.remapped
        rw [State.orderedFor_wash _ _ _ q]
      rw [if_neg (by simpa using q), other, h]

theorem State.recompute_orderedAt {s : State} {a : Fin 5} (h : s.OrderedAt a) : s.recompute.OrderedAt a := by
  have reslewed : s.reslewed.OrderedAt a := h.ofSame s.reslewed_same.2 s.reslewed_same.1
  have washed : s.reslewed.reviewWash.OrderedAt a :=
    State.reviewBoatWash_orderedAt .b2 (State.reviewBoatWash_orderedAt .b1 reslewed)
  rw [State.recompute_eq]
  exact washed.ofSame (by rw [State.reviewZero_prop]) (State.reviewZero_steer _)

/-- An ABSENT actuator is as it was after a review of the wash directions. -/
theorem State.reviewBoatWash_absent {s : State} {a : Fin 5} {x : Actuator} (n : x.state = .absent)
    (h : s.steer.actuators[a] = x) (b : Boat) : (s.reviewBoatWash b).steer.actuators[a] = x := by
  unfold State.reviewBoatWash
  split
  · exact h
  · generalize hu : ({ s with prop := { s.prop with wash := s.prop.wash.set b (washOf s.prop.engines b) } } : State) = u
    have same : u.steer.actuators[a] = x := by subst hu; exact h
    rw [State.remapBoat_eq, State.remapWhere_actuator, same]
    split
    · exact State.remapped_of_idle (.inl n)
    · rfl

theorem State.reviewWash_absent {s : State} {a : Fin 5} {x : Actuator} (n : x.state = .absent)
    (h : s.steer.actuators[a] = x) : s.reviewWash.steer.actuators[a] = x := by
  unfold State.reviewWash
  exact State.reviewBoatWash_absent n (State.reviewBoatWash_absent n h .b1) .b2

theorem State.recompute_absent {s : State} {a : Fin 5} {x : Actuator} (n : x.state = .absent)
    (h : s.steer.actuators[a] = x) : s.recompute.steer.actuators[a] = x := by
  have reslewed : s.reslewed.steer.actuators[a] = x := by rw [s.reslewed_same.1]; exact h
  rw [State.recompute_eq, State.reviewZero_steer]
  exact State.reviewWash_absent n reslewed

/-! ### The order of one actuator in a recompute (R55, R57) -/

/-- The order of an actuator stands in the waiting slot of its node, which takes orders and which no other actuator
names, where a slot is FREE. -/
structure State.Steers (s : State) (a : Fin 5) (n : Fin 32) : Prop where
  node : s.steer.actuators[a].entry.node = some n
  own : ∀ b : Fin 5, b ≠ a → s.steer.actuators[b].entry.node ≠ some n
  alive : s.nodes[n].state ≠ .failed ∧ s.nodes[n].state ≠ .unused
  placed : s.hasFree → s.Bears n s.steer.actuators[a].entry.kind.order (.amount s.steer.actuators[a].ordered) (.steering a)

theorem State.Steers.ofSpares {s t : State} {a : Fin 5} {n : Fin 32} (h : s.Steers a n)
    (spares : Spares n s.steer.actuators[a].entry.kind.order s t) (steer : t.steer = s.steer)
    (node : t.nodes[n].state = s.nodes[n].state) : t.Steers a n := by
  refine ⟨?_, ?_, by rw [node]; exact h.alive, fun free => ?_⟩ <;> rw [steer]
  · exact h.node
  · exact h.own
  · exact spares.bears _ _ (h.placed (spares.free free))

theorem State.Steers.carries {s : State} {a : Fin 5} {n : Fin 32} (h : s.Steers a n) (free : s.hasFree) :
    s.carriesOrdered a n := by
  obtain ⟨j, waits, kind, value, owner⟩ := h.placed free
  obtain ⟨waiting, target⟩ := State.waitingSlot_meets waits
  exact ⟨j, waiting, target, kind.trans (ActuatorKind.order_eq _), value, owner⟩

theorem State.placeOrdered_free {s : State} {i : Fin 5} (h : (s.placeOrdered i).hasFree) : s.hasFree := by
  cases e : s.steer.actuators[i].entry.node with
  | none => rw [State.placeOrdered_none e] at h; exact h
  | some g => rw [State.placeOrdered_some e] at h; exact State.place_free h

theorem Slotted.state {s t : State} (h : Slotted s t) (n : Fin 32) : t.nodes[n].state = s.nodes[n].state :=
  (congrArg Node.state (h.nodes n) :)

/-- The order placed, where nothing stands in its way. -/
theorem State.placeOrdered_steers {s : State} {a : Fin 5} {n : Fin 32} (node : s.steer.actuators[a].entry.node = some n)
    (own : ∀ b : Fin 5, b ≠ a → s.steer.actuators[b].entry.node ≠ some n)
    (alive : s.nodes[n].state ≠ .failed ∧ s.nodes[n].state ≠ .unused)
    (o : s.hasFree → s.Open n s.steer.actuators[a].entry.kind.order) : (s.placeOrdered a).Steers a n := by
  have slotted := s.placeOrdered_slotted a
  refine ⟨?_, ?_, by rw [slotted.state]; exact alive, fun free => ?_⟩ <;> rw [slotted.steer]
  · exact node
  · exact own
  · have before := State.placeOrdered_free free
    exact State.placeOrdered_bears node (o before) before

theorem State.Bears.open {s : State} {n : Fin 32} {k : OrderKind} {v : OrderValue} {w : Owner} (h : s.Bears n k v w)
    (alive : s.nodes[n].state ≠ .failed ∧ s.nodes[n].state ≠ .unused) : s.Open n k := by
  obtain ⟨j, waits, kind, _⟩ := h
  refine ⟨alive, fun i e => ?_⟩
  rw [waits] at e
  cases e
  exact kind

theorem State.remapActuator_steers {s : State} {a : Fin 5} {n : Fin 32} (h : s.Steers a n) (i : Fin 5) :
    (s.remapActuator i).Steers a n := by
  by_cases idle : s.steer.actuators[i].state = .absent ∨
      s.orderedFor s.steer.actuators[i].entry = s.steer.actuators[i].ordered
  · rw [State.remapActuator_idle idle]
    exact h
  rw [State.remapActuator_moves idle]
  generalize hu : (s.modActuator i fun x => { x with ordered := s.orderedFor s.steer.actuators[i].entry }) = u
  have entry : ∀ j : Fin 5, u.steer.actuators[j].entry = s.steer.actuators[j].entry := fun j => by
    rw [← hu, State.modActuator_actuator]
    split
    · next e => subst e; rfl
    · rfl
  have spares : Spares n s.steer.actuators[a].entry.kind.order s u := by
    subst hu
    exact Spares.ofSame _ _ rfl
  have alive : u.nodes[n].state ≠ .failed ∧ u.nodes[n].state ≠ .unused := by
    subst hu
    exact h.alive
  have node : u.steer.actuators[a].entry.node = some n := by rw [entry]; exact h.node
  have own : ∀ b : Fin 5, b ≠ a → u.steer.actuators[b].entry.node ≠ some n := fun b m => by rw [entry]; exact h.own b m
  by_cases e : i = a
  · subst e
    refine State.placeOrdered_steers node own alive fun free => ?_
    rw [entry]
    exact (spares.bears _ _ (h.placed (spares.free free))).open alive
  · have ordered : u.steer.actuators[a].ordered = s.steer.actuators[a].ordered := by
      rw [← hu, State.modActuator_actuator, if_neg e]
    have steers : u.Steers a n := ⟨node, own, alive, fun free => by
      rw [entry, ordered]
      exact spares.bears _ _ (h.placed (spares.free free))⟩
    exact steers.ofSpares (State.placeOrdered_spares (.inl (own i e))) (State.placeOrdered_slotted _ i).steer
      ((State.placeOrdered_slotted _ i).state n)

theorem State.remapBoat_steers {s : State} {a : Fin 5} {n : Fin 32} (h : s.Steers a n) (b : Boat) :
    (s.remapBoat b).Steers a n := by
  unfold State.remapBoat
  refine foldl_keeps _ (fun u => u.Steers a n) (fun u i k => ?_) _ s h
  split
  · exact State.remapActuator_steers k i
  · exact k

theorem State.reviewBoatWash_steers {s : State} {a : Fin 5} {n : Fin 32} (h : s.Steers a n) (b : Boat) :
    (s.reviewBoatWash b).Steers a n := by
  unfold State.reviewBoatWash
  split
  · exact h
  · refine State.remapBoat_steers ?_ b
    exact ⟨h.node, h.own, h.alive, h.placed⟩

/-- The cuts of a recompute leave the orders of the other kinds. -/
theorem State.cutEngines_spares (s : State) (n : Fin 32) {k : OrderKind} (h : k ≠ .setpoint) :
    Spares n k s s.cutEngines := by
  unfold State.cutEngines
  refine Spares.foldl _ (fun u i => ?_) _ s
  by_cases e : u.prop.engines[i].cutValue = u.prop.engines[i].setpoint
  · rw [State.cutEngine_within e]
    exact Spares.refl n k u
  · rw [State.cutEngine_cut e]
    refine Spares.trans ?_ (State.placeSetpoint_spares h)
    exact Spares.ofSame n k rfl

theorem State.reslewed_spares (s : State) (n : Fin 32) {k : OrderKind} (h : k ≠ .setpoint) : Spares n k s s.reslewed := by
  rw [State.reslewed_eq]
  refine (((s.shared_apart n).spares k).trans (s.shared.cutEngines_spares n h)).trans ?_
  exact Spares.ofSame n k (State.slewEngines_trans _ _)

theorem Within.nodeState {x : Level} {s t : State} (w : Within x s t) (n : Fin 32) (l : x.rank < 5 := by decide) :
    t.nodes[n].state = s.nodes[n].state :=
  (congrArg Node.state (w.nodes l n) :)

theorem State.recompute_steers {s : State} {a : Fin 5} {n : Fin 32} (h : s.Steers a n) : s.recompute.Steers a n := by
  have reslewed : s.reslewed.Steers a n := h.ofSpares (s.reslewed_spares n (ActuatorKind.order_ne _)) s.reslewed_same.1
    (s.reslewed_within.nodeState n)
  have washed : s.reslewed.reviewWash.Steers a n :=
    State.reviewBoatWash_steers (State.reviewBoatWash_steers reslewed .b1) .b2
  have zero := State.reviewZero_apart s.reslewed.reviewWash n
  rw [State.recompute_eq]
  exact washed.ofSpares (zero.spares _) (State.reviewZero_steer _) zero.node

/-! ### The review of forced steer assist (R65) -/

theorem State.setForced_same {s : State} (h : s.forcedHolds = s.steer.forced) : s.setForced = s := by
  unfold State.setForced
  rw [h]

/-- The review sets the field, and a recompute follows a change. -/
theorem State.reviewForced_cases (s : State) : s.reviewForced = s.setForced ∨ s.reviewForced = s.setForced.recompute := by
  by_cases h : s.forcedHolds = s.steer.forced
  · exact .inl ((if_pos h).trans (State.setForced_same h).symm)
  · exact .inr (if_neg h)

theorem State.forcedHolds_congr {s t : State} (actuators : ∀ i : Fin 5,
    t.steer.actuators[i].entry = s.steer.actuators[i].entry ∧ t.steer.actuators[i].state = s.steer.actuators[i].state)
    (profile : t.profile = s.profile) : t.forcedHolds = s.forcedHolds := by
  have p : t.helm.modes[t.helm.mode] = s.helm.modes[s.helm.mode] := profile
  refine Bool.eq_iff_iff.2 ?_
  rw [State.forcedHolds_iff, State.forcedHolds_iff, p]
  simp only [(actuators _).1, (actuators _).2]

theorem Within.forcedHolds {s t : State} (w : Within .propulsion s t) : t.forcedHolds = s.forcedHolds :=
  State.forcedHolds_congr (fun i => ⟨w.written.actuators i, ((w.units (by decide)).actuators i).1⟩) w.paced.2

/-- The field written on both sides of a change. -/
theorem Within.setForced {s t : State} (w : Within .propulsion s t) : Within .propulsion s.setForced t.setForced := by
  have holds := w.forcedHolds
  obtain ⟨wr, now, link, pending, allocation, answers, qm, qt, qw, list, _, ceilings, units, fuel, nodes⟩ := w
  refine ⟨⟨wr.helm, wr.engines, wr.power, wr.diffMode, wr.fixedDiff, wr.nominal, wr.actuators, wr.rudder, wr.bowMode,
    wr.bowDemand, wr.couplings, wr.meters, wr.tanks, wr.bases, wr.statement, wr.nodes, wr.passage, wr.defaults, wr.map,
    wr.master⟩, now, link, pending, allocation, answers, qm, qt, qw, list, fun l => absurd l (by decide), ceilings,
    fun l => ?_, fuel, nodes⟩
  have k := units l
  exact ⟨k.engines, k.actuators, holds, k.couplings, k.work⟩

/-- A change and the review of forced steer assist after it. -/
theorem Within.reviewForced {s t : State} (w : Within .propulsion s t) :
    Within .propulsion s.setForced t.reviewForced := by
  rcases t.reviewForced_cases with e | e <;> rw [e]
  · exact w.setForced
  · exact w.setForced.trans (State.recompute_within _)

/-- What the review of forced steer assist keeps: all that a recompute keeps and that the field is no part of. -/
theorem State.reviewForced_keeps {P : State → Prop} (forced : ∀ u : State, P u → P u.setForced)
    (recompute : ∀ u : State, P u → P u.recompute) {s : State} (h : P s) : P s.reviewForced := by
  rcases s.reviewForced_cases with e | e <;> rw [e]
  · exact forced s h
  · exact recompute _ (forced s h)

theorem State.reviewForced_orderedAt {s : State} {a : Fin 5} (h : s.OrderedAt a) : s.reviewForced.OrderedAt a :=
  State.reviewForced_keeps (P := fun u => u.OrderedAt a) (fun _ k => k) (fun _ => State.recompute_orderedAt) h

theorem State.reviewForced_steers {s : State} {a : Fin 5} {n : Fin 32} (h : s.Steers a n) : s.reviewForced.Steers a n :=
  State.reviewForced_keeps (P := fun u => u.Steers a n) (fun _ k => ⟨k.node, k.own, k.alive, k.placed⟩)
    (fun _ => State.recompute_steers) h

theorem State.reviewForced_absent {s : State} {a : Fin 5} {x : Actuator} (n : x.state = .absent)
    (h : s.steer.actuators[a] = x) : s.reviewForced.steer.actuators[a] = x :=
  State.reviewForced_keeps (P := fun u => u.steer.actuators[a] = x) (fun _ k => k) (fun _ => State.recompute_absent n) h

theorem State.reviewForced_list (s : State) : s.notices.list <+: s.reviewForced.notices.list :=
  (State.reviewForced_worked s).within.list

theorem State.reviewForced_sound (s : State) : s.reviewForced.ForcedSound := by
  rcases s.reviewForced_cases with e | e <;> rw [e]
  · exact State.setForced_forced s
  · exact (State.recompute_within _).forcedSound (State.setForced_forced s)

/-! ### ENGINE (R17, R18) -/

theorem EngineRaw.entry?_isSome (r : EngineRaw) : (EngineRaw.entry? r).isSome = true ↔
    isIndex 32 r.governor ∧ (r.boat = 1 ∨ r.boat = 2) ∧ r.side.toNat ≤ 2 ∧ 50 ≤ r.rating.toNat ∧ r.rating.toNat ≤ 6000 ∧
      r.weight.toNat ≤ 15 ∧ isIndex 8 r.serviceTank ∧ isIndex 16 r.supplyMeter ∧ isIndex 16 r.returnMeter ∧
      r.idleBand.toNat ≤ 100 ∧ r.alertCeiling.toNat ≤ 1000 ∧ r.alarmCeiling.toNat ≤ 1000 := by
  rw [← readIndex_isSome, ← readIndex_isSome, ← readIndex_isSome, ← readIndex_isSome]
  unfold EngineRaw.entry?
  cases readIndex 32 r.governor with
  | none => simp
  | some g =>
    cases readIndex 8 r.serviceTank with
    | none => simp
    | some t =>
      cases readIndex 16 r.supplyMeter with
      | none => simp
      | some u =>
        cases readIndex 16 r.returnMeter with
        | none => simp
        | some v =>
          dsimp only
          split
          · next h =>
            obtain ⟨boat, side, low, high, weight, idle, alert, alarm⟩ := h
            exact iff_of_true rfl ⟨rfl, boat, side, low, high, weight, rfl, rfl, rfl, idle, alert, alarm⟩
          · next h =>
            refine iff_of_false Bool.false_ne_true ?_
            rintro ⟨_, boat, side, low, high, weight, _, _, _, idle, alert, alarm⟩
            exact h ⟨boat, side, low, high, weight, idle, alert, alarm⟩

theorem Engine.engaged_iff (x : Engine) :
    x.engaged = true ↔ x.setpoint ≠ 0 ∨ x.slew = .dwelling ∨ x.lastSign ≠ .unset := by
  unfold Engine.engaged
  simp only [Bool.or_eq_true, decide_eq_true_eq, or_assoc]

section
variable {s : State} {index : Byte} {r : EngineRaw} {i : Fin 6} {e : EngineEntry}

theorem State.writeEngine_beyond (h : 6 ≤ index.toNat) : s.writeEngine index r = (s, .range) := by
  unfold State.writeEngine
  rw [indexOf_none h]

theorem State.writeEngine_closed (f : index.toNat = i.val)
    (structural : EngineRaw.changesStructure r s.prop.engines[i].entry = true) (m : s.helm.mode ≠ 0) :
    s.writeEngine index r = (s, .closed) := by
  unfold State.writeEngine
  rw [indexOf_some f]
  exact if_pos ⟨structural, State.moored_not m⟩

/-- A write that the mode does not stand against. -/
theorem State.writeEngine_open (f : index.toNat = i.val)
    (o : EngineRaw.changesStructure r s.prop.engines[i].entry = false ∨ s.helm.mode = 0) :
    s.writeEngine index r = match EngineRaw.entry? r with
      | some e =>
        if e.governor.isSome ∧ othersMeet s.prop.engines i fun y => decide (y.entry.governor = e.governor) then (s, .range)
        else if EngineRaw.changesStructure r s.prop.engines[i].entry ∧ s.prop.engines[i].engaged then (s, .state)
        else (s.takeEngine i e (EngineRaw.changesStructure r s.prop.engines[i].entry), .done)
      | none => (s, .range) := by
  unfold State.writeEngine
  rw [indexOf_some f]
  refine if_neg ?_
  rintro ⟨x, y⟩
  exact o.elim (fun q => by rw [q] at x; cases x) fun q => y (State.moored_of q)

/-- Another engine has the governor of an entry. -/
theorem EngineEntry.clash_iff : (e.governor.isSome = true ∧ othersMeet s.prop.engines i (fun y =>
    decide (y.entry.governor = e.governor)) = true) ↔
      e.governor.isSome = true ∧ ∃ j : Fin 6, j ≠ i ∧ s.prop.engines[j].entry.governor = e.governor := by
  rw [othersMeet_iff]
  simp only [decide_eq_true_eq]

end

/-- The engine of a taken write, its composites and runtime fields aside (R18). -/
def State.writtenEngine (s : State) (e : EngineEntry) (structural : Bool) (x : Engine) : Engine :=
  if structural then { x with entry := e, state := s.engineStart e, health := .sound, load := 0 } else { x with entry := e }

/-- The state of a taken write before its recompute. -/
def State.rewritten (s : State) (i : Fin 6) (e : EngineEntry) (structural : Bool) : State :=
  (s.modEngine i fun x => if structural then s.startedEngine e x else { x with entry := e }).formNominal

theorem State.takeEngine_eq (s : State) (i : Fin 6) (e : EngineEntry) (structural : Bool) :
    s.takeEngine i e structural = (s.rewritten i e structural).recompute := rfl

/-- The composites and the runtime fields that a structure write starts are no part of what a propulsion event leaves. -/
theorem State.rewritten_within (s : State) (i : Fin 6) (e : EngineEntry) (structural : Bool) :
    Within .propulsion { s with prop := { s.prop with
      engines := modTable s.prop.engines i (s.writtenEngine e structural)
      nominal := nominalPower (modTable s.prop.engines i (s.writtenEngine e structural)) } }
      (s.rewritten i e structural) := by
  have same : ∀ j : Fin 6, (s.rewritten i e structural).prop.engines[j].entry =
        (modTable s.prop.engines i (s.writtenEngine e structural))[j].entry ∧
      (s.rewritten i e structural).prop.engines[j].state =
        (modTable s.prop.engines i (s.writtenEngine e structural))[j].state ∧
      (s.rewritten i e structural).prop.engines[j].health =
        (modTable s.prop.engines i (s.writtenEngine e structural))[j].health ∧
      (s.rewritten i e structural).prop.engines[j].load =
        (modTable s.prop.engines i (s.writtenEngine e structural))[j].load := fun j => by
    show (s.modEngine i _).prop.engines[j].entry = _ ∧ (s.modEngine i _).prop.engines[j].state = _ ∧
      (s.modEngine i _).prop.engines[j].health = _ ∧ (s.modEngine i _).prop.engines[j].load = _
    rw [State.modEngine_engine, modTable_get]
    unfold State.writtenEngine
    split
    · split <;> exact ⟨rfl, rfl, rfl, rfl⟩
    · exact ⟨rfl, rfl, rfl, rfl⟩
  have nominal : (s.rewritten i e structural).prop.nominal =
      nominalPower (modTable s.prop.engines i (s.writtenEngine e structural)) := by
    refine Int.natCast_inj.1 ?_
    refine (nominalPower_eq (s.rewritten i e structural).prop.engines).trans ?_
    rw [nominalPower_eq]
    simp only [(same _).1, (same _).2.1]
  exact (Worked.prop { s with prop := { s.prop with
      engines := modTable s.prop.engines i (s.writtenEngine e structural)
      nominal := nominalPower (modTable s.prop.engines i (s.writtenEngine e structural)) } }
    (s.rewritten i e structural).prop (by decide) (fun j => (same j).1) ⟨rfl, rfl, rfl, nominal⟩
    fun _ j => (same j).2).within

theorem State.engineStart_idle (s : State) (e : EngineEntry) : s.engineStart e ≠ .running := by
  unfold State.engineStart
  split
  · nofun
  · split <;> nofun

theorem State.takeEngine_within (s : State) (i : Fin 6) (e : EngineEntry) (structural : Bool) :
    Within .propulsion { s with prop := { s.prop with
      engines := modTable s.prop.engines i (s.writtenEngine e structural)
      nominal := nominalPower (modTable s.prop.engines i (s.writtenEngine e structural)) } }
      (s.takeEngine i e structural) :=
  (s.rewritten_within i e structural).trans (State.recompute_within _)

theorem State.takeEngine_nominal (s : State) (i : Fin 6) (e : EngineEntry) (structural : Bool) :
    (s.takeEngine i e structural).NominalFormed :=
  (State.recompute_within (s.rewritten i e structural)).nominal (State.formNominal_formed _)

theorem State.takeEngine_targets (s : State) (i : Fin 6) (e : EngineEntry) (structural : Bool) :
    (s.takeEngine i e structural).TargetsFormed :=
  (s.rewritten i e structural).recompute_targets

/-- A structure write leaves its engine at rest (R18). -/
theorem State.takeEngine_rests (s : State) (i : Fin 6) (e : EngineEntry) :
    (s.takeEngine i e true).prop.engines[i].target = 0 ∧ (s.takeEngine i e true).prop.engines[i].setpoint = 0 := by
  have engine : (s.rewritten i e true).prop.engines[i] = s.startedEngine e s.prop.engines[i] :=
    (s.modEngine_engine i i _).trans (if_pos rfl)
  rw [State.takeEngine_eq]
  refine State.recompute_idle ?_ ?_ <;> rw [engine]
  · exact s.engineStart_idle e
  · exact s.startedEngine_setpoint e _

/-! ### ACTUATOR (R49, R50) -/

theorem ActuatorRaw.entry?_isSome (r : ActuatorRaw) : (ActuatorRaw.entry? r).isSome = true ↔
    isIndex 32 r.node ∧ r.kind.toNat ≤ 2 ∧ (r.boat = 1 ∨ r.boat = 2) ∧ (r.kind = 2 → r.boat = 1) ∧ 1 ≤ r.time.toNat ∧
      r.limit.toNat ≤ (if r.kind = 2 then 1000 else 450) ∧ r.band.toNat ≤ (if r.kind = 2 then 1000 else 450) := by
  rw [← readIndex_isSome]
  unfold ActuatorRaw.entry?
  cases readIndex 32 r.node with
  | none => simp
  | some n =>
    generalize (if r.kind = 2 then 1000 else 450) = w
    dsimp only
    split
    · next h => exact iff_of_true rfl ⟨rfl, h⟩
    · next h => exact iff_of_false Bool.false_ne_true fun k => h k.2

section
variable {s : State} {index : Byte} {r : ActuatorRaw} {i : Fin 5} {e : ActuatorEntry}

theorem State.writeActuator_closed (m : s.helm.mode ≠ 0) : s.writeActuator index r = (s, .closed) :=
  if_pos (State.moored_not m)

theorem State.writeActuator_range (m : s.helm.mode = 0) (h : 5 ≤ index.toNat ∨ ActuatorRaw.entry? r = none) :
    s.writeActuator index r = (s, .range) := by
  unfold State.writeActuator
  rw [if_neg (not_not.2 (State.moored_of m))]
  obtain h | h := h
  · rw [indexOf_none h]
  · rw [h]
    split <;> rfl

theorem State.writeActuator_named (m : s.helm.mode = 0) (f : index.toNat = i.val) (k : ActuatorRaw.entry? r = some e)
    (node : e.node.isSome = true) (clash : ∃ j : Fin 5, j ≠ i ∧ s.steer.actuators[j].entry.node = e.node) :
    s.writeActuator index r = (s, .range) := by
  unfold State.writeActuator
  rw [if_neg (not_not.2 (State.moored_of m)), indexOf_some f, k]
  obtain ⟨j, n, same⟩ := clash
  exact if_pos ⟨node, (othersMeet_iff _ _ _).2 ⟨j, n, decide_eq_true same⟩⟩

theorem State.writeActuator_taken (m : s.helm.mode = 0) (f : index.toNat = i.val) (k : ActuatorRaw.entry? r = some e)
    (own : ¬ (e.node.isSome = true ∧ ∃ j : Fin 5, j ≠ i ∧ s.steer.actuators[j].entry.node = e.node)) :
    s.writeActuator index r = (s.takeActuator i e, .done) := by
  unfold State.writeActuator
  rw [if_neg (not_not.2 (State.moored_of m)), indexOf_some f, k]
  refine if_neg ?_
  rintro ⟨node, x⟩
  obtain ⟨j, n, same⟩ := (othersMeet_iff _ _ _).1 x
  exact own ⟨node, j, n, of_decide_eq_true same⟩

end

/-- A written actuator before its order is placed (R50). -/
def State.restarted (s : State) (i : Fin 5) (e : ActuatorEntry) : State :=
  s.modActuator i fun _ =>
    { entry := e, state := s.actuatorStart e, reported := 0, divergeAt := none
      ordered := if s.actuatorStart e = .absent then 0 else s.orderedFor e }

/-- A written actuator that starts in FAULT is noted (R60). -/
def State.restartNoted (s : State) (i : Fin 5) (e : ActuatorEntry) : State :=
  if s.actuatorStart e = .fault then (s.restarted i e).latch .actuatorFault (subjectOf i) else s.restarted i e

theorem State.takeActuator_eq (s : State) (i : Fin 5) (e : ActuatorEntry) :
    s.takeActuator i e = ((s.restartNoted i e).placeOrdered i).reviewForced := rfl

theorem State.restartNoted_noted (s : State) (i : Fin 5) (e : ActuatorEntry) :
    Noted (s.restarted i e) (s.restartNoted i e) := by
  unfold State.restartNoted
  split
  · exact State.latch_noted _ _ _
  · exact Noted.refl _

theorem State.restartNoted_actuator (s : State) (i : Fin 5) (e : ActuatorEntry) (j : Fin 5) :
    (s.restartNoted i e).steer.actuators[j] = if i = j then
      { entry := e, state := s.actuatorStart e, reported := 0, divergeAt := none
        ordered := if s.actuatorStart e = .absent then 0 else s.orderedFor e } else s.steer.actuators[j] := by
  rw [(s.restartNoted_noted i e).steer]
  exact s.modActuator_actuator i j _

theorem State.restartNoted_orderedFor (s : State) (i : Fin 5) (e : ActuatorEntry) :
    (s.restartNoted i e).orderedFor = s.orderedFor := by
  have noted := s.restartNoted_noted i e
  funext x
  unfold State.orderedFor
  rw [noted.prop, noted.steer]
  rfl

/-- The ordered value of a written actuator is as the demands have it. -/
theorem State.restartNoted_orderedAt (s : State) (i : Fin 5) (e : ActuatorEntry) : (s.restartNoted i e).OrderedAt i := by
  unfold State.OrderedAt
  rw [State.restartNoted_actuator, if_pos rfl]
  by_cases absent : s.actuatorStart e = .absent
  · exact State.remapped_of_idle (.inl absent)
  · refine State.remapped_of_idle (.inr ?_)
    rw [State.restartNoted_orderedFor]
    exact (if_neg absent).symm

/-- What an actuator write leaves (R50). -/
theorem State.takeActuator_within (s : State) (i : Fin 5) (e : ActuatorEntry) :
    Within .propulsion (s.modActuator i fun x =>
      { x with entry := e, state := s.actuatorStart e, reported := 0, divergeAt := none }).setForced (s.takeActuator i e) := by
  have restarted : s.restarted i e = (s.modActuator i fun x =>
      { x with entry := e, state := s.actuatorStart e, reported := 0, divergeAt := none }).modActuator i fun x =>
        { x with ordered := if s.actuatorStart e = .absent then 0 else s.orderedFor e } := by
    unfold State.restarted State.modActuator modTable
    simp
  have ordered : Within .propulsion (s.modActuator i fun x =>
      { x with entry := e, state := s.actuatorStart e, reported := 0, divergeAt := none }) (s.restarted i e) := by
    rw [restarted]
    exact (Worked.actuator _ i _ (by decide) rfl fun _ => ⟨rfl, rfl, rfl⟩).within
  rw [State.takeActuator_eq]
  exact ((ordered.trans ((s.restartNoted_noted i e).worked.within.mono (by decide))).trans
    (State.placeOrdered_worked _ i).within).reviewForced

theorem State.takeActuator_fault {s : State} (i : Fin 5) {e : ActuatorEntry} (h : s.actuatorStart e = .fault) :
    (s.takeActuator i e).hasNotice .actuatorFault (subjectOf i) := by
  have latched : (s.restartNoted i e).hasNotice .actuatorFault (subjectOf i) := by
    unfold State.restartNoted
    rw [if_pos h]
    exact State.latch_hasNotice _ _ _
  rw [State.takeActuator_eq]
  exact (latched.mono (State.placeOrdered_worked (x := .propulsion) _ i).within.list).mono (State.reviewForced_list _)

theorem State.takeActuator_state (s : State) (i : Fin 5) (e : ActuatorEntry) :
    (s.takeActuator i e).steer.actuators[i].state = s.actuatorStart e := by
  refine (((s.takeActuator_within i e).units (by decide)).actuators i).1.trans ?_
  show (s.modActuator i _).steer.actuators[i].state = _
  rw [State.modActuator_actuator, if_pos rfl]

theorem State.takeActuator_absent {s : State} (i : Fin 5) {e : ActuatorEntry} (h : s.actuatorStart e = .absent) :
    (s.takeActuator i e).steer.actuators[i].ordered = 0 := by
  have slotted := State.placeOrdered_slotted (s.restartNoted i e) i
  have actuator := s.restartNoted_actuator i e i
  rw [if_pos rfl, if_pos h] at actuator
  rw [← slotted.steer] at actuator
  have absent := State.reviewForced_absent h actuator
  rw [State.takeActuator_eq, absent]

theorem State.takeActuator_mapped {s : State} (i : Fin 5) {e : ActuatorEntry} (h : s.actuatorStart e ≠ .absent) :
    (s.takeActuator i e).steer.actuators[i].ordered =
      (s.takeActuator i e).mapped (s.takeActuator i e).steer.actuators[i] := by
  refine State.OrderedAt.mapped ?_ (by rw [State.takeActuator_state]; exact h)
  have slotted := State.placeOrdered_slotted (s.restartNoted i e) i
  rw [State.takeActuator_eq]
  exact State.reviewForced_orderedAt ((s.restartNoted_orderedAt i e).ofSame (by rw [slotted.prop]) slotted.steer)

theorem State.takeActuator_steers {s : State} {i : Fin 5} {e : ActuatorEntry} {n : Fin 32}
    (h : (s.modActuator i fun x =>
      { x with entry := e, state := s.actuatorStart e, reported := 0, divergeAt := none }).mayOrder i n) :
    (s.takeActuator i e).Steers i n := by
  have noted := s.restartNoted_noted i e
  have entry : ∀ j : Fin 5, (s.restartNoted i e).steer.actuators[j].entry = (s.modActuator i fun x =>
      { x with entry := e, state := s.actuatorStart e, reported := 0, divergeAt := none }).steer.actuators[j].entry :=
    fun j => by
      rw [State.restartNoted_actuator, State.modActuator_actuator]
      split <;> rfl
  have trans : (s.restartNoted i e).trans = s.trans := by rw [noted.same]; rfl
  have nodes : (s.restartNoted i e).nodes = s.nodes := by rw [noted.same]; rfl
  have alive : (s.restartNoted i e).nodes[n].state ≠ .failed ∧ (s.restartNoted i e).nodes[n].state ≠ .unused := by
    rw [nodes]
    exact h.alive
  rw [State.takeActuator_eq]
  refine State.reviewForced_steers (State.placeOrdered_steers ?_ (fun b m => ?_) alive fun _ => ⟨alive, fun j w => ?_⟩)
  · rw [entry]; exact h.node
  · rw [entry]; exact h.own b m
  · rw [trans, entry, ActuatorKind.order_eq]
    refine h.open_ j ?_
    unfold State.waitingSlot at w ⊢
    rw [trans] at w
    exact w

end Sys2Proof.Machine

open Sys2Proof Sys2Proof.Machine

/-- Settles O56: the decisions in their order, and the recompute or the review that a taken write brings. -/
theorem engineAndActuatorWrites : Obligations.EngineAndActuatorWrites := by
  intro s o index room b reply refused
  refine ⟨fun i r f => ?_, fun i r f => ?_, fun h r => ?_, fun h r => ?_⟩
  · intro x structural clash engaged
    refine ⟨EngineRaw.entry?_isSome r, fun c m => ?_, fun open_ => ?_⟩
    · exact State.tableWrite_placed room o 6 index (State.writeEngine_closed (s := b) f c m) rfl rfl
    have decided := State.writeEngine_open (s := b) f open_
    rw [show EngineRaw.changesStructure r b.prop.engines[i].entry = structural from rfl] at decided
    refine ⟨fun bad => ?_, fun e read => ⟨fun c => ?_, fun c t g => ?_, fun c t => ?_⟩⟩
    · rw [bad] at decided
      exact State.tableWrite_placed room o 6 index decided rfl rfl
    · rw [read] at decided
      dsimp only at decided
      rw [if_pos ((EngineEntry.clash_iff (s := b)).2 c)] at decided
      exact State.tableWrite_placed room o 6 index decided rfl rfl
    · rw [read] at decided
      dsimp only at decided
      rw [if_neg (mt (EngineEntry.clash_iff (s := b)).1 c), if_pos ⟨t, (Engine.engaged_iff _).2 g⟩] at decided
      exact State.tableWrite_placed room o 6 index decided rfl rfl
    · intro start engines
      rw [read] at decided
      dsimp only at decided
      rw [if_neg (mt (EngineEntry.clash_iff (s := b)).1 c), if_neg fun h => t h.1 ((Engine.engaged_iff _).1 h.2)] at decided
      have run : exec (.tableWriteEngine o index r) s = .next ((b.takeEngine i e structural).reply o 3 .done [6, index]) :=
        congrArg Host.Outcome.next ((State.tableWrite_eq room o 6 index _).trans (by rw [decided]))
      have written : engines = modTable b.prop.engines i (b.writtenEngine e structural) := by
        have start_eq : b.engineStart e = start := by
          show b.engineStart e = match e.governor with
            | none => EngineState.absent
            | some g => if s.nodes[g].state = .enrolled then EngineState.standby else EngineState.lost
          unfold State.engineStart
          cases e.governor <;> rfl
        unfold State.writtenEngine
        rw [start_eq]
        rfl
      have within := b.takeEngine_within i e structural
      have nominal := b.takeEngine_nominal i e structural
      have targets := b.takeEngine_targets i e structural
      have rests : structural = true → (b.takeEngine i e structural).prop.engines[i].target = 0 ∧
          (b.takeEngine i e structural).prop.engines[i].setpoint = 0 := fun q => by
        rw [q]
        exact b.takeEngine_rests i e
      rw [← written] at within
      generalize b.takeEngine i e structural = u at run within nominal targets rests
      exact ⟨_, run, within.replied o 3 .done [6, index] s.link.own rfl, targets.ofSame rfl rfl rfl rfl rfl,
        nominal.ofProp rfl, rests⟩
  · intro clash widest
    refine ⟨ActuatorRaw.entry?_isSome r, fun m => ?_, fun m => ⟨fun bad => ?_, fun e read => ⟨fun c => ?_, fun c => ?_⟩⟩⟩
    · exact State.tableWrite_placed room o 7 index (State.writeActuator_closed (s := b) m) rfl rfl
    · exact State.tableWrite_placed room o 7 index (State.writeActuator_range (s := b) m (.inr bad)) rfl rfl
    · exact State.tableWrite_placed room o 7 index (State.writeActuator_named (s := b) m f read c.1 c.2) rfl rfl
    · intro start base
      have decided := State.writeActuator_taken (s := b) m f read c
      have run : exec (.tableWriteActuator o index r) s = .next ((b.takeActuator i e).reply o 3 .done [7, index]) :=
        congrArg Host.Outcome.next ((State.tableWrite_eq room o 7 index _).trans (by rw [decided]))
      have start_eq : b.actuatorStart e = start := by
        show b.actuatorStart e = match e.node with
          | none => ActuatorState.absent
          | some n =>
            if s.nodes[n].state = .enrolled then ActuatorState.ready
            else if s.nodes[n].state = .failed then ActuatorState.fault
            else ActuatorState.lost
        unfold State.actuatorStart
        cases e.node <;> rfl
      have within := b.takeActuator_within i e
      have steers : ∀ n, base.mayOrder i n → (b.takeActuator i e).Steers i n := fun n may => by
        refine State.takeActuator_steers ?_
        rw [start_eq]
        exact may
      have forced : (b.takeActuator i e).ForcedSound := State.reviewForced_sound _
      have targets := (b.takeActuator_coordinated i e).targets
      have fault := State.takeActuator_fault (s := b) i (e := e)
      have absent := State.takeActuator_absent (s := b) i (e := e)
      have mapped := State.takeActuator_mapped (s := b) i (e := e)
      rw [start_eq] at within fault absent mapped
      generalize b.takeActuator i e = u at run within steers forced targets fault absent mapped
      refine ⟨_, run, within.replied o 3 .done [7, index] s.link.own rfl, forced, fun h => ?_, fault, absent, mapped,
        fun n may free => ?_⟩
      · exact (targets (h.ofSame rfl rfl rfl rfl rfl)).ofSame rfl rfl rfl rfl rfl
      · exact (steers n may).carries free
  · exact State.tableWrite_placed room o 6 index (State.writeEngine_beyond (s := b) h) rfl rfl
  · by_cases m : s.helm.mode = 0
    · have status : (if s.helm.mode = 0 then (2 : Byte) else 1) = 2 := if_pos m
      show _ = Host.Outcome.next (b.withAnswers (s.fwd.answers ++ [replyFrame s.link.own o 3 _ [7, index]]))
      rw [status]
      exact State.tableWrite_placed room o 7 index (State.writeActuator_range (s := b) m (.inl h)) rfl rfl
    · have status : (if s.helm.mode = 0 then (2 : Byte) else 1) = 1 := if_neg m
      show _ = Host.Outcome.next (b.withAnswers (s.fwd.answers ++ [replyFrame s.link.own o 3 _ [7, index]]))
      rw [status]
      exact State.tableWrite_placed room o 7 index (State.writeActuator_closed (s := b) m) rfl rfl

end

