-- ==== Sys2Proof/Proofs/HandOver.lean ====
section
/-! PROOF. Proofs/HandOver.lean: what a change of node state handed on (R134) leaves, and what it does to the units that name
the node: the engine (R19), the actuator (R60), the couplings (R76) and the meters (R104). -/

namespace Sys2Proof.Machine

/-! ### Properties that the work of the units keeps -/

/-- A property that a recompute, a notice, the tow ceilings and the forced steer-assist field do not touch. -/
structure Steady (P : State → Prop) : Prop where
  recompute : ∀ s, P s → P s.recompute
  noted : ∀ s t, Noted s t → P s → P t
  ceilings : ∀ (s : State) (a b : PerBoat Nat) (h : PerBoat Timer), P s →
    P { s with tow := { s.tow with computed := a, applied := b, holdAt := h } }
  forced : ∀ s, P s → P s.setForced

namespace Steady

variable {P : State → Prop} (h : Steady P)
include h

theorem latch (s : State) (k : NoticeKind) (x : Byte) (p : P s) : P (s.latch k x) :=
  h.noted _ _ (s.latch_noted k x) p

theorem applyCeiling (s : State) (b : Boat) (p : P s) : P (s.applyCeiling b) := by
  unfold State.applyCeiling
  dsimp only
  split
  · exact h.ceilings s _ _ _ p
  · split
    · exact p
    · split
      · exact h.ceilings s _ _ _ p
      · exact h.ceilings s _ _ _ p

theorem formTow (s : State) (p : P s) : P s.formTow := by
  have formed : P ((s.formCeilings.applyCeiling .b1).applyCeiling .b2) :=
    h.applyCeiling _ _ (h.applyCeiling _ _ (h.ceilings s _ _ _ p))
  unfold State.formTow
  dsimp only
  split
  · exact formed
  · exact h.recompute _ formed

theorem reviewForced (s : State) (p : P s) : P s.reviewForced :=
  State.reviewForced_keeps h.forced h.recompute p

theorem noteState (s : State) (c : Fin 48) (p : P s) : P (s.noteState c) := by
  unfold State.noteState
  split
  · exact h.latch s _ _ p
  · exact p

/-- The engine of a node that is not ENROLLED follows it (R19). -/
theorem engineFollows {s : State} {n : Fin 32} (gone : s.nodes[n].state ≠ .enrolled)
    (engine : ∀ (u : State) (i : Fin 6), u.prop = s.prop → s.engineOf n = some i → P u → P (u.moveEngine i .lost)) (p : P s) :
    P (s.engineFollows n) := by
  unfold State.engineFollows
  split
  · next i found =>
    rw [if_neg gone]
    split
    · exact p
    · exact engine _ i (s.latch_noted _ _).prop found (h.latch s _ _ p)
  · exact p

/-- The actuator of a node that is not ENROLLED follows it (R60). -/
theorem actuatorFollows {s : State} {n : Fin 32} (gone : s.nodes[n].state ≠ .enrolled)
    (actuator : ∀ (i : Fin 5) (f : Actuator → Actuator), s.actuatorOf n = some i → P (s.modActuator i f)) (p : P s) :
    P (s.actuatorFollows n) := by
  unfold State.actuatorFollows
  split
  · next i found =>
    dsimp only
    split
    · exact p
    · split
      · next e => exact absurd e gone
      · split
        · exact p
        · exact h.reviewForced _ (h.latch _ _ _ (actuator i _ found))
      · exact h.reviewForced _ (actuator i _ found)
  · exact p

/-- A coupling no longer heard (R76). -/
theorem couplingUnheard {s : State} {c : Fin 48}
    (coupling : ∀ (u : State) (f : Coupling → Coupling), (∀ k, (f k).entry = k.entry) → P u → P (u.modCoupling c f))
    (p : P s) : P (s.couplingUnheard c) := by
  have unheard : P (s.modCoupling c fun k => { k with sampleAt := none }) := coupling s _ (fun _ => rfl) p
  have moved : ∀ (u : State) (x : CouplingState) (m : Nat), P u → P (u.moveCoupling c x m) := fun u x m q => by
    have set : P (u.modCoupling c fun k => { k with state := x, count := m }) := coupling u _ (fun _ => rfl) q
    unfold State.moveCoupling
    dsimp only
    split
    · exact set
    · refine h.formTow _ ?_
      split
      · exact set
      · exact h.noteState _ c set
  unfold State.couplingUnheard
  dsimp only
  split
  · exact moved _ _ _ unheard
  · exact moved _ _ _ unheard
  · exact moved _ _ _ unheard
  · exact moved _ _ _ unheard
  · exact coupling _ _ (fun _ => rfl) unheard
  · exact coupling _ _ (fun _ => rfl) unheard
  · exact unheard

/-- The couplings of a node that is not ENROLLED follow it (R76). -/
theorem couplingsFollow {s : State} {n : Fin 32} (coupling : ∀ (u : State) (c : Fin 48) (f : Coupling → Coupling),
    u.tow.couplings[c].entry.sensor = some n → (∀ k, (f k).entry = k.entry) → P u → P (u.modCoupling c f)) (p : P s) :
    P (s.couplingsFollow n) := by
  unfold State.couplingsFollow
  split
  · exact p
  · refine foldl_keeps _ P (fun u c q => ?_) _ s p
    split
    · next sensor =>
      have kept : ∀ (v : State) (f : Coupling → Coupling), (∀ k, (f k).entry = k.entry) →
          P v ∧ v.tow.couplings[c].entry.sensor = some n →
          P (v.modCoupling c f) ∧ (v.modCoupling c f).tow.couplings[c].entry.sensor = some n := fun v f e w => by
        refine ⟨coupling v c f w.2 e w.1, ?_⟩
        rw [State.modCoupling_coupling, if_pos rfl, e]
        exact w.2
      have both : Steady fun v => P v ∧ v.tow.couplings[c].entry.sensor = some n := by
        refine ⟨fun v w => ⟨h.recompute v w.1, ?_⟩, fun v t m w => ⟨h.noted v t m w.1, ?_⟩,
          fun v a b g w => ⟨h.ceilings v a b g w.1, w.2⟩, fun v w => ⟨h.forced v w.1, w.2⟩⟩
        · rw [v.recompute_within.written.couplings]; exact w.2
        · rw [m.same]; exact w.2
      exact (both.couplingUnheard kept ⟨q, sensor⟩).1
    · exact q

/-- The meters of a node that is not ENROLLED follow it (R104). -/
theorem metersFollow {s : State} {n : Fin 32} (meter : ∀ (u : State) (i : Fin 16) (f : Meter → Meter),
    u.fuel.meters[i].entry.node = some n → P u → P (u.modMeter i f)) (p : P s) : P (s.metersFollow n) := by
  unfold State.metersFollow
  split
  · exact p
  · refine foldl_keeps _ P (fun u i q => ?_) _ s p
    split
    · next counting => exact h.latch _ _ _ (meter u i _ counting.1 q)
    · exact q

end Steady

/-! ### The same of the slots -/

/-- A property of the slots and the nodes alone that the orders of the units, and the hold of a release, keep. -/
structure Orderly (P : State → Prop) : Prop where
  same : ∀ s t : State, t.trans = s.trans → t.nodes = s.nodes → P s → P t
  place : ∀ (s : State) (n : Fin 32) (k : OrderKind) (x : Int) (w : Owner), P s → P (s.place n k (.amount x) w none).1
  hold : ∀ (s : State) (c : Fin 48) (i : Fin 16), s.releaseSlotOf c = some i → P s → P (s.holdSlot i)

namespace Orderly

variable {P : State → Prop} (h : Orderly P)
include h

theorem noted (s t : State) (m : Noted s t) (p : P s) : P t :=
  h.same s t (by rw [m.same]) (by rw [m.same]) p

theorem placeSetpoint (s : State) (i : Fin 6) (p : P s) : P (s.placeSetpoint i) := by
  unfold State.placeSetpoint
  split
  · exact h.place s _ _ _ _ p
  · exact p

theorem placeOrdered (s : State) (i : Fin 5) (p : P s) : P (s.placeOrdered i) := by
  unfold State.placeOrdered
  split
  · exact h.place s _ _ _ _ p
  · exact p

theorem modEngine (s : State) (i : Fin 6) (f : Engine → Engine) (p : P s) : P (s.modEngine i f) :=
  h.same s _ rfl rfl p

theorem modActuator (s : State) (i : Fin 5) (f : Actuator → Actuator) (p : P s) : P (s.modActuator i f) :=
  h.same s _ rfl rfl p

theorem modCoupling (s : State) (c : Fin 48) (f : Coupling → Coupling) (p : P s) : P (s.modCoupling c f) :=
  h.same s _ rfl rfl p

theorem remapActuator (s : State) (i : Fin 5) (p : P s) : P (s.remapActuator i) := by
  unfold State.remapActuator
  dsimp only
  split
  · exact p
  · exact h.placeOrdered _ i (h.modActuator s i _ p)

theorem remapBoat (s : State) (b : Boat) (p : P s) : P (s.remapBoat b) := by
  unfold State.remapBoat
  refine foldl_keeps _ P (fun u i q => ?_) _ s p
  split
  · exact h.remapActuator u i q
  · exact q

theorem reviewBoatWash (s : State) (b : Boat) (p : P s) : P (s.reviewBoatWash b) := by
  unfold State.reviewBoatWash
  split
  · exact p
  · exact h.remapBoat _ b (h.same s _ rfl rfl p)

theorem holdRelease (s : State) (b : BoatSet) (p : P s) : P (s.holdRelease b) := by
  unfold State.holdRelease
  split
  · split
    · split
      · next i e => exact h.modCoupling _ _ _ (h.hold s _ i e p)
      · exact p
    · exact p
  · exact p

theorem reviewZeroOf (s : State) (b : BoatSet) (p : P s) : P (s.reviewZeroOf b) := by
  unfold State.reviewZeroOf
  dsimp only
  split
  · exact p
  · split
    · exact h.same s _ rfl rfl p
    · exact h.holdRelease _ b (h.same s _ rfl rfl p)

theorem reviewZero (s : State) (p : P s) : P s.reviewZero :=
  h.reviewZeroOf _ _ (h.reviewZeroOf _ _ (h.reviewZeroOf s _ p))

theorem cutEngines (s : State) (p : P s) : P s.cutEngines := by
  unfold State.cutEngines
  refine foldl_keeps _ P (fun u i q => ?_) _ s p
  unfold State.cutEngine
  dsimp only
  split
  · exact q
  · exact h.placeSetpoint _ i (h.modEngine u i _ q)

theorem slewEngines (s : State) (old : Table Engine 6) (p : P s) : P (s.slewEngines old) :=
  h.same s _ (State.slewEngines_trans _ _) rfl p

theorem shared (s : State) (p : P s) : P s.shared := by
  have formed : P s.formEngines.share := h.same s _ rfl rfl p
  unfold State.shared
  exact h.noted _ _ (State.noteUnmet_noted _) formed

theorem reviewWash (s : State) (p : P s) : P s.reviewWash := by
  unfold State.reviewWash
  exact h.reviewBoatWash _ _ (h.reviewBoatWash _ _ p)

theorem reslewed (s : State) (p : P s) : P s.reslewed := by
  have shared := h.shared s p
  rw [State.reslewed_eq]
  generalize s.shared = u at shared ⊢
  have cut := h.cutEngines u shared
  generalize u.cutEngines = v at cut ⊢
  exact h.slewEngines v _ cut

theorem recompute (s : State) (p : P s) : P s.recompute := by
  have reslewed := h.reslewed s p
  rw [State.recompute_eq]
  generalize s.reslewed = u at reslewed ⊢
  have washed := h.reviewWash u reslewed
  generalize u.reviewWash = v at washed ⊢
  exact h.reviewZero v washed

theorem steady : Steady P :=
  ⟨h.recompute, h.noted, fun s _ _ _ p => h.same s _ rfl rfl p, fun s p => h.same s _ rfl rfl p⟩

theorem withState (s : State) (i : Fin 6) (x : EngineState) (p : P s) : P (s.withState i x) := by
  have moved := h.modEngine s i (fun e => { e with state := x }) p
  by_cases e : s.prop.engines[i].state = .running ∧ x ≠ .running
  · rw [State.withState_leaving e, State.leaveRunning_eq]
    exact h.placeSetpoint _ i (h.modEngine _ i _ moved)
  · rw [State.withState_staying e]
    exact moved

theorem moveEngine (s : State) (i : Fin 6) (x : EngineState) (p : P s) : P (s.moveEngine i x) := by
  rw [State.moveEngine_eq]
  exact h.recompute _ (h.withState s i x p)

/-- All of a hand-over of a node that is not ENROLLED keeps such a property. -/
theorem handOver {s : State} {n : Fin 32} (gone : s.nodes[n].state ≠ .enrolled) (p : P s) : P (s.handOver n) := by
  have first : P (s.engineFollows n) := h.steady.engineFollows gone (fun u i _ _ => h.moveEngine u i _) p
  have still : (s.engineFollows n).nodes[n].state ≠ .enrolled := by
    rw [(s.engineFollows_worked n).within.nodeState n]
    exact gone
  have second : P ((s.engineFollows n).actuatorFollows n) :=
    h.steady.actuatorFollows still (fun i f _ => h.modActuator _ i f first) first
  have third := h.steady.couplingsFollow (n := n) (fun u c f _ _ => h.modCoupling u c f) second
  exact h.steady.metersFollow (fun u i f _ => h.same u _ rfl rfl) third

end Orderly

/-! ### Work done entry by entry, one entry's turn -/

/-- Work over a list that in one entry's turn makes `Post` of `Pre`, and else keeps either. -/
theorem foldl_turns {α : Type} [DecidableEq α] {f : State → α → State} {Pre Post : State → Prop} {a : α} {l : List α}
    (pre : ∀ u b, b ∈ l → b ≠ a → Pre u → Pre (f u b)) (turn : ∀ u, Pre u → Post (f u a))
    (post : ∀ u b, b ∈ l → b ≠ a → Post u → Post (f u b)) (d : l.Nodup) (m : a ∈ l) {s : State} (p : Pre s) :
    Post (l.foldl f s) := by
  have rest : ∀ (k : List α) (u : State), (∀ b, b ∈ k → b ∈ l) → a ∉ k → Post u → Post (k.foldl f u) := by
    intro k
    induction k with
    | nil => exact fun _ _ _ q => q
    | cons b k ih =>
      intro u sub out q
      obtain ⟨n, out⟩ := not_or.1 (List.mem_cons.not.1 out)
      exact ih _ (fun c h => sub c (List.mem_cons_of_mem b h)) out
        (post u b (sub b (List.mem_cons_self ..)) (Ne.symm n) q)
  have all : ∀ (k : List α) (u : State), (∀ b, b ∈ k → b ∈ l) → k.Nodup → a ∈ k → Pre u → Post (k.foldl f u) := by
    intro k
    induction k with
    | nil => exact fun _ _ _ h => nomatch h
    | cons b k ih =>
      intro u sub d m p
      obtain ⟨out, d⟩ := List.nodup_cons.1 d
      have tail : ∀ c, c ∈ k → c ∈ l := fun c h => sub c (List.mem_cons_of_mem b h)
      by_cases e : b = a
      · subst e
        exact rest k _ tail out (turn u p)
      · exact ih _ tail d ((List.mem_cons.1 m).resolve_left (Ne.symm e)) (pre u b (sub b (List.mem_cons_self ..)) e p)
  exact all l s (fun _ => id) d m p

end Sys2Proof.Machine

end

