-- ==== Sys2Proof/Proofs/Refreshes.lean ====
section
/-! PROOF. Proofs/Refreshes.lean: a refresh expiry (R44, R58, R133): at most one placement, the engine's before the
actuator's, and what it does to the slots. -/

namespace Sys2Proof.Machine

/-! ### What stands in the way of a placement -/

/-- No placement of a kind for a node is taken (R136): the node takes no orders, an order of another kind waits for it, or
no slot is FREE. -/
def State.Shut (s : State) (n : Fin 32) (k : OrderKind) : Prop :=
  (s.nodes[n].state = .failed ∨ s.nodes[n].state = .unused) ∨
    (∃ j : Fin 16, s.waitingSlot n = some j ∧ s.trans.slots[j].kind ≠ k) ∨ s.waitingSlot n = none ∧ ¬ s.hasFree

theorem State.place_shut {s : State} {n : Fin 32} {k : OrderKind} (h : s.Shut n k) (v : OrderValue) (w : Owner)
    (c : Option BoatSet) : (s.place n k v w c).1 = s := by
  rcases h with dead | ⟨j, waits, kind⟩ | ⟨bare, full⟩
  · exact State.place_dead dead k v w c
  · exact State.place_busy waits kind v w c
  · exact State.place_full bare full k v w c

theorem State.supersede_waitingSlot (s : State) (i : Fin 16) (n m : Fin 32) (v : OrderValue) (w : Owner) :
    (s.supersede i n v w).waitingSlot m = s.waitingSlot m := by
  refine findTable_congr fun j => ?_
  rw [State.supersede_slot]
  split <;> rfl

theorem State.placeSetpoint_eq {s : State} {i : Fin 6} {n : Fin 32} (h : s.engineOf n = some i) :
    s.placeSetpoint i = (s.place n .setpoint (.amount s.prop.engines[i].setpoint) (.propulsion i) none).1 := by
  have governor := findTable_meets h
  exact State.placeSetpoint_some (of_decide_eq_true governor)

theorem State.placeOrdered_eq {s : State} {a : Fin 5} {n : Fin 32} (h : s.actuatorOf n = some a) :
    s.placeOrdered a = (s.place n s.steer.actuators[a].entry.kind.order (.amount s.steer.actuators[a].ordered)
      (.steering a) none).1 := by
  have node := findTable_meets h
  exact State.placeOrdered_some (of_decide_eq_true node)

/-- A SETPOINT that was placed, or could not be, leaves no room for an order of another kind. -/
theorem State.placeSetpoint_shuts {s : State} {i : Fin 6} {n : Fin 32} {k : OrderKind} (h : s.engineOf n = some i)
    (o : ∀ j : Fin 16, s.waitingSlot n = some j → s.trans.slots[j].kind = .setpoint) (d : .setpoint ≠ k) :
    (s.placeSetpoint i).Shut n k := by
  by_cases dead : s.nodes[n].state = .failed ∨ s.nodes[n].state = .unused
  · refine .inl ?_
    rw [(s.placeSetpoint_slotted i).state]
    exact dead
  · rw [State.placeSetpoint_eq h]
    cases e : s.waitingSlot n with
    | some j =>
      rw [State.place_supersedes (not_or.1 dead) e (o j e) rfl]
      refine .inr (.inl ⟨j, (s.supersede_waitingSlot ..).trans e, ?_⟩)
      rw [State.supersede_slot, if_pos rfl]
      dsimp only
      rw [o j e]
      exact d
    | none =>
      by_cases free : s.hasFree
      · obtain ⟨j, waits, kind, _⟩ := State.place_bears (k := .setpoint) ⟨not_or.1 dead, o⟩ rfl free
          (.amount s.prop.engines[i].setpoint) (.propulsion i)
        exact .inr (.inl ⟨j, waits, by rw [kind]; exact d⟩)
      · rw [State.place_full e free]
        exact .inr (.inr ⟨e, free⟩)

/-! ### The refresh of a node -/

/-- The engine, not ABSENT, that a node governs. -/
def State.Governs (s : State) (n : Fin 32) (i : Fin 6) : Prop :=
  s.engineOf n = some i ∧ s.prop.engines[i].state ≠ .absent

/-- The actuator, not ABSENT, of a node. -/
def State.Moves (s : State) (n : Fin 32) (a : Fin 5) : Prop :=
  s.actuatorOf n = some a ∧ s.steer.actuators[a].state ≠ .absent

theorem State.refreshEngine_governs {s : State} {n : Fin 32} {i : Fin 6} (h : s.Governs n i) :
    s.refreshEngine n = s.placeSetpoint i := by
  unfold State.refreshEngine
  rw [h.1]
  exact if_neg h.2

theorem State.refreshEngine_shut {s : State} {n : Fin 32} (h : ∀ i, s.Governs n i → s.Shut n .setpoint) :
    s.refreshEngine n = s := by
  by_cases engine : ∃ i, s.Governs n i
  · obtain ⟨i, governs⟩ := engine
    rw [State.refreshEngine_governs governs, State.placeSetpoint_eq governs.1, State.place_shut (h i governs)]
  · unfold State.refreshEngine
    split
    · next i e => exact if_pos (by_contra fun x => engine ⟨i, e, x⟩)
    · rfl

theorem State.refreshActuator_moves {s : State} {n : Fin 32} {a : Fin 5} (h : s.Moves n a) :
    s.refreshActuator n = s.placeOrdered a := by
  unfold State.refreshActuator
  rw [h.1]
  exact if_neg h.2

theorem State.refreshActuator_shut {s : State} {n : Fin 32}
    (h : ∀ a, s.Moves n a → s.Shut n s.steer.actuators[a].entry.kind.order) : s.refreshActuator n = s := by
  by_cases actuator : ∃ a, s.Moves n a
  · obtain ⟨a, moves⟩ := actuator
    rw [State.refreshActuator_moves moves, State.placeOrdered_eq moves.1, State.place_shut (h a moves)]
  · unfold State.refreshActuator
    split
    · next a e => exact if_pos (by_contra fun x => actuator ⟨a, e, x⟩)
    · rfl

/-- Where no order of another kind waits, the engine's SETPOINT is placed and leaves no room for the actuator's order. -/
theorem State.refresh_engine {s : State} {n : Fin 32} {i : Fin 6} (h : s.Governs n i)
    (o : ∀ j : Fin 16, s.waitingSlot n = some j → s.trans.slots[j].kind = .setpoint) :
    s.refresh n = (s.place n .setpoint (.amount s.prop.engines[i].setpoint) (.propulsion i) none).1 := by
  rw [State.refresh_eq, State.refreshEngine_governs h,
    State.refreshActuator_shut fun a _ => State.placeSetpoint_shuts h.1 o (ActuatorKind.order_ne _).symm,
    State.placeSetpoint_eq h.1]

/-- Where no SETPOINT can be placed, the actuator's order is. -/
theorem State.refresh_actuator {s : State} {n : Fin 32} {a : Fin 5} (h : s.Moves n a)
    (o : ∀ i, s.Governs n i → s.Shut n .setpoint) :
    s.refresh n = (s.place n s.steer.actuators[a].entry.kind.order (.amount s.steer.actuators[a].ordered)
      (.steering a) none).1 := by
  rw [State.refresh_eq, State.refreshEngine_shut o, State.refreshActuator_moves h, State.placeOrdered_eq h.1]

/-- Where nothing can be placed, nothing is. -/
theorem State.refresh_shut {s : State} {n : Fin 32} (e : ∀ i, s.Governs n i → s.Shut n .setpoint)
    (a : ∀ a, s.Moves n a → s.Shut n s.steer.actuators[a].entry.kind.order) : s.refresh n = s := by
  rw [State.refresh_eq, State.refreshEngine_shut e, State.refreshActuator_shut a]

/-- A refresh is at most one placement for the node. -/
theorem State.refresh_forms (s : State) (n : Fin 32) :
    s.refresh n = s ∨ ∃ k v w, s.refresh n = (s.place n k v w none).1 := by
  by_cases engine : ∃ i, s.Governs n i ∧ ∀ j : Fin 16, s.waitingSlot n = some j → s.trans.slots[j].kind = .setpoint
  · obtain ⟨i, governs, o⟩ := engine
    exact .inr ⟨_, _, _, State.refresh_engine governs o⟩
  · have shut : ∀ i, s.Governs n i → s.Shut n .setpoint := fun i governs => by
      by_contra open_
      exact engine ⟨i, governs, fun j waits => by_contra fun kind => open_ (.inr (.inl ⟨j, waits, kind⟩))⟩
    by_cases actuator : ∃ a, s.Moves n a
    · obtain ⟨a, moves⟩ := actuator
      exact .inr ⟨_, _, _, State.refresh_actuator moves shut⟩
    · exact .inl (State.refresh_shut shut fun a moves => absurd ⟨a, moves⟩ actuator)

/-! ### The slots after one placement -/

theorem State.place_keeps {s : State} {n : Fin 32} {j : Fin 16} (used : s.trans.slots[j].state ≠ .free)
    (other : s.waitingSlot n ≠ some j) (k : OrderKind) (v : OrderValue) (w : Owner) (c : Option BoatSet) :
    (s.place n k v w c).1.trans.slots[j] = s.trans.slots[j] := by
  rcases s.place_forms n k v w c with e | ⟨i, waits, _, e⟩ | ⟨i, _, free, e⟩ <;> rw [e]
  · rw [State.supersede_slot, if_neg fun x => other (by rw [← x]; exact waits)]
  · rw [State.fillSlot_slot, if_neg fun x => used (by rw [← x]; exact free)]

theorem State.refresh_keeps {s : State} {n : Fin 32} {j : Fin 16} (used : s.trans.slots[j].state ≠ .free)
    (other : s.waitingSlot n ≠ some j) : (s.refresh n).trans.slots[j] = s.trans.slots[j] := by
  rcases s.refresh_forms n with e | ⟨k, v, w, e⟩ <;> rw [e]
  exact State.place_keeps used other k v w none

theorem State.useTag_nextTag (s : State) (n : Fin 32) : (s.useTag n).nodes[n].nextTag = s.nodes[n].nextTag + 1 := by
  rw [State.useTag_node, if_pos rfl]

/-- A waiting order of the kind is superseded in its slot with the next TAG (R137). -/
theorem State.place_superseded {s : State} {n : Fin 32} {j : Fin 16} {k : OrderKind}
    (alive : s.nodes[n].state ≠ .failed ∧ s.nodes[n].state ≠ .unused) (h : s.waitingSlot n = some j)
    (e : s.trans.slots[j].kind = k) (l : k.supersedable = true) (v : OrderValue) (w : Owner) :
    (s.place n k v w none).1.nodes[n].nextTag = s.nodes[n].nextTag + 1 ∧
      (s.place n k v w none).1.trans.slots[j] =
        { s.trans.slots[j] with value := v, owner := some w, tag := s.nodes[n].nextTag } := by
  rw [State.place_supersedes alive h e l, State.supersede_slot, if_pos rfl]
  exact ⟨State.useTag_nextTag _ n, rfl⟩

theorem State.queueSlot_joins {s : State} {i : Fin 16} {n : Fin 32} (h : s.trans.slots[i].target = n) :
    (s.queueSlot i).trans.lane s.nodes[n].entry.port = s.trans.lane s.nodes[n].entry.port ++ [i] := by
  subst h
  rw [State.queueSlot_lane, if_pos rfl]

/-- The lane of the node's port takes the slot of an order that is QUEUED at once (R139). -/
theorem State.fillSlot_lane (s : State) (i : Fin 16) (n : Fin 32) (k : OrderKind) (v : OrderValue) (w : Owner) :
    (s.fillSlot i n k v w none).trans.lane s.nodes[n].entry.port =
      s.trans.lane s.nodes[n].entry.port ++ (if (s.flightSlot n).isSome = true then [] else [i]) := by
  unfold State.fillSlot
  dsimp only
  by_cases h : (s.flightSlot n).isSome = true
  · rw [if_pos (.inr h), if_pos h, List.append_nil]
    rfl
  · rw [if_neg (not_or.2 ⟨by simp, h⟩), if_neg h]
    have filled : ∀ x : Slot, x.target = n → (((s.modSlot i fun _ => x).useTag n).queueSlot i).trans.lane
        s.nodes[n].entry.port = s.trans.lane s.nodes[n].entry.port ++ [i] := fun x target => by
      have taken : ((s.modSlot i fun _ => x).useTag n).trans.slots[i] = x :=
        (State.modSlot_slot s i i fun _ => x).trans (if_pos rfl)
      have port : ((s.modSlot i fun _ => x).useTag n).nodes[n].entry.port = s.nodes[n].entry.port := by
        rw [State.useTag_node, if_pos rfl]
        rfl
      have joined := State.queueSlot_joins ((congrArg Slot.target taken).trans target)
      rw [port] at joined
      exact joined
    exact filled _ rfl

/-- With nothing waiting, an order takes a FREE slot with the next TAG, WAITING behind an order in flight and else QUEUED
(R136). -/
theorem State.place_placed {s : State} {n : Fin 32} (alive : s.nodes[n].state ≠ .failed ∧ s.nodes[n].state ≠ .unused)
    (h : s.waitingSlot n = none) (free : s.hasFree) (k : OrderKind) (v : OrderValue) (w : Owner) :
    (s.place n k v w none).1.nodes[n].nextTag = s.nodes[n].nextTag + 1 ∧
      ∃ j : Fin 16, s.trans.slots[j].state = .free ∧
        (s.place n k v w none).1.trans.slots[j] =
          { target := n, kind := k, value := v, tag := s.nodes[n].nextTag, owner := some w, condition := none,
            ackAt := none, state := if (s.flightSlot n).isSome = true then .waiting else .queued } ∧
        (s.place n k v w none).1.trans.lane s.nodes[n].entry.port =
          s.trans.lane s.nodes[n].entry.port ++ (if (s.flightSlot n).isSome = true then [] else [j]) := by
  obtain ⟨j, found⟩ := State.freeSlot_isSome free
  rw [State.place_fills alive h found]
  refine ⟨by rw [State.fillSlot_nodes, State.useTag_nextTag], j, State.freeSlot_meets found, ?_,
    s.fillSlot_lane j n k v w⟩
  rw [State.fillSlot_slot, if_pos rfl]
  rfl

theorem Slotted.tow {s t : State} (h : Slotted s t) : t.tow = s.tow := by rw [h.same]
theorem Slotted.notices {s t : State} (h : Slotted s t) : t.notices = s.notices := by rw [h.same]
theorem Slotted.fwd {s t : State} (h : Slotted s t) : t.fwd = s.fwd := by rw [h.same]

end Sys2Proof.Machine

end

