-- ==== Sys2Proof/Proofs/UnitsFollow.lean ====
section
/-! PROOF. Proofs/UnitsFollow.lean: what a hand-over of a node that is not ENROLLED makes of each unit that names the node:
the engine (R19), the actuator (R60), the couplings (R76) and the meters (R104). -/

namespace Sys2Proof.Machine

/-! ### What a recompute leaves of the couplings -/

theorem State.cutEngines_tow (s : State) : s.cutEngines.tow = s.tow := by
  unfold State.cutEngines
  refine foldl_keeps _ (fun u => u.tow = s.tow) (fun u i e => ?_) _ s rfl
  by_cases same : u.prop.engines[i].cutValue = u.prop.engines[i].setpoint
  · rw [show u.cutEngine i = u from if_pos same]
    exact e
  · rw [State.cutEngine_cut same, (State.placeSetpoint_slotted _ i).tow]
    exact e

theorem State.reslewed_tow (s : State) : s.reslewed.tow = s.tow := by
  have shared : s.shared.tow = s.tow := by rw [s.shared_noted.same]; rfl
  rw [State.reslewed_eq, State.slewEngines_tow, State.cutEngines_tow, shared]

theorem State.remapActuator_tow (s : State) (i : Fin 5) : (s.remapActuator i).tow = s.tow := by
  unfold State.remapActuator
  dsimp only
  split
  · rfl
  · rw [(State.placeOrdered_slotted _ i).tow]
    rfl

theorem State.reviewBoatWash_tow (s : State) (b : Boat) : (s.reviewBoatWash b).tow = s.tow := by
  unfold State.reviewBoatWash
  split
  · rfl
  · unfold State.remapBoat
    refine foldl_keeps _ (fun u => u.tow = s.tow) (fun u i e => ?_) _ _ rfl
    split
    · exact (u.remapActuator_tow i).trans e
    · exact e

theorem State.reviewWash_tow (s : State) : s.reviewWash.tow = s.tow := by
  unfold State.reviewWash
  rw [State.reviewBoatWash_tow, State.reviewBoatWash_tow]

/-- The return of a release to HELD moves a coupling in ORDERED alone (R85). -/
theorem State.holdRelease_coupling {s : State} {c : Fin 48} (h : s.tow.couplings[c].phase ≠ some .ordered) (b : BoatSet) :
    (s.holdRelease b).tow.couplings[c] = s.tow.couplings[c] := by
  unfold State.holdRelease
  split
  · next d _ =>
    split
    · next ordered =>
      split
      · next i _ =>
        have other : d ≠ c := fun e => h (by rw [← e]; exact ordered.2.1)
        rw [State.modCoupling_coupling, if_neg other, (s.holdSlot_slotted i).tow]
      · rfl
    · rfl
  · rfl

theorem State.reviewZeroOf_coupling {s : State} {c : Fin 48} (h : s.tow.couplings[c].phase ≠ some .ordered) (b : BoatSet) :
    (s.reviewZeroOf b).tow.couplings[c] = s.tow.couplings[c] := by
  unfold State.reviewZeroOf
  dsimp only
  split
  · rfl
  · split
    · rfl
    · refine State.holdRelease_coupling ?_ b
      exact h

theorem State.reviewZero_coupling {s : State} {c : Fin 48} (h : s.tow.couplings[c].phase ≠ some .ordered) :
    s.reviewZero.tow.couplings[c] = s.tow.couplings[c] := by
  have first := State.reviewZeroOf_coupling h .boat1
  have second := (State.reviewZeroOf_coupling (by rw [first]; exact h) .boat2).trans first
  exact (State.reviewZeroOf_coupling (by rw [second]; exact h) .all).trans second

theorem State.recompute_coupling {s : State} {c : Fin 48} (h : s.tow.couplings[c].phase ≠ some .ordered) :
    s.recompute.tow.couplings[c] = s.tow.couplings[c] := by
  have tow : s.reslewed.reviewWash.tow = s.tow := by rw [State.reviewWash_tow, State.reslewed_tow]
  rw [State.recompute_eq]
  generalize s.reslewed.reviewWash = u at tow ⊢
  rw [State.reviewZero_coupling (by rw [tow]; exact h), tow]

/-- A coupling that other blocks' work may have taken from ORDERED back to WAIT_ZERO (R85), and nothing else. -/
structure Coupling.Stands (k x : Coupling) : Prop where
  rest : { x with phase := k.phase } = k
  same : k.phase ≠ some .ordered → x = k

theorem Coupling.Stands.refl (k : Coupling) : k.Stands k := ⟨rfl, fun _ => rfl⟩

theorem Coupling.Stands.entry {k x : Coupling} (h : k.Stands x) : x.entry = k.entry :=
  (congrArg Coupling.entry h.rest :)

theorem Coupling.Stands.state {k x : Coupling} (h : k.Stands x) : x.state = k.state :=
  (congrArg Coupling.state h.rest :)

theorem Coupling.Stands.sampleAt {k x : Coupling} (h : k.Stands x) : x.sampleAt = k.sampleAt :=
  (congrArg Coupling.sampleAt h.rest :)

theorem Coupling.Stands.count {k x : Coupling} (h : k.Stands x) : x.count = k.count :=
  (congrArg Coupling.count h.rest :)

theorem Coupling.Stands.prior {k x : Coupling} (h : k.Stands x) : x.prior = k.prior :=
  (congrArg Coupling.prior h.rest :)

theorem Coupling.Stands.trans {k x y : Coupling} (h : k.Stands x) (g : x.Stands y) : k.Stands y where
  rest := by rw [← h.rest, ← g.rest]
  same n := by
    have e := h.same n
    rw [g.same (by rw [e]; exact n), e]

theorem State.recompute_stands (s : State) (c : Fin 48) :
    s.tow.couplings[c].Stands s.recompute.tow.couplings[c] :=
  ⟨(s.recompute_within.units (by decide)).couplings c, State.recompute_coupling⟩

/-- A coupling that its sensor or its sample silence expiry leaves unheard (R76). -/
def Coupling.unheard (k : Coupling) : Coupling :=
  if k.state = .slack ∨ k.state = .madeUp ∨ k.state = .alert ∨ k.state = .overload then
    { k with sampleAt := none, state := .silent, count := 0 }
  else if k.state = .releasing ∨ k.state = .makingUp then { k with sampleAt := none, prior := some .silent }
  else { k with sampleAt := none }

theorem Coupling.unheard_phase (k : Coupling) : k.unheard.phase = k.phase := by
  unfold Coupling.unheard
  split
  · rfl
  · split <;> rfl

theorem Coupling.Stands.unheard {k x : Coupling} (h : k.Stands x) : k.unheard.Stands x.unheard := by
  refine ⟨?_, fun n => by rw [h.same (by rw [← k.unheard_phase]; exact n)]⟩
  have rephased : ∀ p, { Coupling.unheard { k with phase := p } with phase := k.phase } = k.unheard := fun p => by
    unfold Coupling.unheard
    dsimp only
    split
    · rfl
    · split <;> rfl
  have moved : x = { k with phase := x.phase } := by rw [← h.rest]
  rw [k.unheard_phase, moved]
  exact rephased _

theorem State.modCoupling_congr {s : State} {c : Fin 48} {f g : Coupling → Coupling}
    (h : f s.tow.couplings[c] = g s.tow.couplings[c]) : s.modCoupling c f = s.modCoupling c g := by
  unfold State.modCoupling modTable
  rw [show f s.tow.couplings[c] = g s.tow.couplings[c] from h]

theorem State.modCoupling_modCoupling (s : State) (c : Fin 48) (f g : Coupling → Coupling) :
    (s.modCoupling c f).modCoupling c g = s.modCoupling c fun k => g (f k) := by
  unfold State.modCoupling modTable
  simp

/-! ### Properties of the units that the work of other units keeps -/

theorem Steady.and {P Q : State → Prop} (h : Steady P) (k : Steady Q) : Steady fun s => P s ∧ Q s :=
  ⟨fun s p => ⟨h.recompute s p.1, k.recompute s p.2⟩, fun s t m p => ⟨h.noted s t m p.1, k.noted s t m p.2⟩,
    fun s a b g p => ⟨h.ceilings s a b g p.1, k.ceilings s a b g p.2⟩, fun s p => ⟨h.forced s p.1, k.forced s p.2⟩⟩

theorem Noted.tow {s t : State} (h : Noted s t) : t.tow = s.tow := by rw [h.same]
theorem Noted.fuel {s t : State} (h : Noted s t) : t.fuel = s.fuel := by rw [h.same]

theorem Steady.hasNotice (k : NoticeKind) (x : Byte) : Steady fun s => s.hasNotice k x :=
  ⟨fun s p => State.hasNotice.mono p s.recompute_within.list, fun _ _ m p => State.hasNotice.mono p m.list, fun _ _ _ _ p => p,
    fun _ p => p⟩

theorem Steady.stands (k : Coupling) (c : Fin 48) : Steady fun s => k.Stands s.tow.couplings[c] :=
  ⟨fun s p => p.trans (s.recompute_stands c), fun s t m p => by rw [m.tow]; exact p, fun _ _ _ _ p => p, fun _ p => p⟩

theorem Steady.work (w : Option (Fin 48)) : Steady fun s => s.tow.work = w :=
  ⟨fun s p => (s.recompute_within.units (by decide)).work.trans p, fun s t m p => by rw [m.tow]; exact p,
    fun _ _ _ _ p => p, fun _ p => p⟩

theorem Steady.engineState (i : Fin 6) (x : EngineState) : Steady fun s => s.prop.engines[i].state = x :=
  ⟨fun s p => ((s.recompute_within.units (by decide)).engines i).1.trans p, fun s t m p => by rw [m.prop]; exact p,
    fun _ _ _ _ p => p, fun _ p => p⟩

theorem Steady.actuatorState (i : Fin 5) (x : ActuatorState) : Steady fun s => s.steer.actuators[i].state = x :=
  ⟨fun s p => ((s.recompute_within.units (by decide)).actuators i).1.trans p, fun s t m p => by rw [m.steer]; exact p,
    fun _ _ _ _ p => p, fun _ p => p⟩

theorem Steady.divergeAt (i : Fin 5) (x : Timer) : Steady fun s => s.steer.actuators[i].divergeAt = x :=
  ⟨fun s p => ((s.recompute_within.units (by decide)).actuators i).2.2.trans p, fun s t m p => by rw [m.steer]; exact p,
    fun _ _ _ _ p => p, fun _ p => p⟩

theorem Steady.meterState (i : Fin 16) (x : MeterState) : Steady fun s => s.fuel.meters[i].state = x :=
  ⟨fun s p => by rw [(s.recompute_within.fuel (by decide)).1]; exact p, fun s t m p => by rw [m.fuel]; exact p,
    fun _ _ _ _ p => p, fun _ p => p⟩

/-! ### The four parts of a hand-over (R134) -/

theorem State.couplingUnheard_eq (s : State) (c : Fin 48) : s.couplingUnheard c =
    if s.tow.couplings[c].state = .slack ∨ s.tow.couplings[c].state = .madeUp ∨ s.tow.couplings[c].state = .alert ∨
        s.tow.couplings[c].state = .overload then ((s.modCoupling c Coupling.unheard).noteState c).formTow
    else s.modCoupling c Coupling.unheard := by
  have moved : ∀ x : CouplingState, s.tow.couplings[c].state = x → x ≠ .silent →
      (x = .slack ∨ x = .madeUp ∨ x = .alert ∨ x = .overload) →
      (s.modCoupling c fun k => { k with sampleAt := none }).moveCoupling c .silent 0 =
        ((s.modCoupling c Coupling.unheard).noteState c).formTow := fun x e n four => by
    have unheard : (s.modCoupling c fun k => { k with sampleAt := none }).modCoupling c
        (fun k => { k with state := .silent, count := 0 }) = s.modCoupling c Coupling.unheard := by
      rw [State.modCoupling_modCoupling]
      refine State.modCoupling_congr ?_
      unfold Coupling.unheard
      rw [if_pos (by rw [e]; exact four)]
    have state : (s.modCoupling c fun k => { k with sampleAt := none }).tow.couplings[c].state = x := by
      rw [State.modCoupling_coupling, if_pos rfl, ← e]
    unfold State.moveCoupling
    dsimp only
    rw [unheard, state, if_neg n.symm, if_neg fun h => nomatch h.2]
  have held : ∀ f : Coupling → Coupling, f s.tow.couplings[c] = Coupling.unheard s.tow.couplings[c] →
      s.modCoupling c f = s.modCoupling c Coupling.unheard := fun f e => State.modCoupling_congr e
  unfold State.couplingUnheard
  dsimp only
  split
  case h_1 e => rw [if_pos (by rw [e]; decide)]; exact moved _ e (by decide) (by decide)
  case h_2 e => rw [if_pos (by rw [e]; decide)]; exact moved _ e (by decide) (by decide)
  case h_3 e => rw [if_pos (by rw [e]; decide)]; exact moved _ e (by decide) (by decide)
  case h_4 e => rw [if_pos (by rw [e]; decide)]; exact moved _ e (by decide) (by decide)
  case h_5 e =>
    rw [if_neg (by rw [e]; decide), State.modCoupling_modCoupling]
    refine held _ ?_
    unfold Coupling.unheard
    rw [if_neg (by rw [e]; decide), if_pos (by rw [e]; decide)]
  case h_6 e =>
    rw [if_neg (by rw [e]; decide), State.modCoupling_modCoupling]
    refine held _ ?_
    unfold Coupling.unheard
    rw [if_neg (by rw [e]; decide), if_pos (by rw [e]; decide)]
  case h_7 a b c' d e f =>
    have four := not_or.2 ⟨a, not_or.2 ⟨b, not_or.2 ⟨c', d⟩⟩⟩
    rw [if_neg four]
    refine held _ ?_
    unfold Coupling.unheard
    rw [if_neg four, if_neg (not_or.2 ⟨e, f⟩)]

/-- A coupling's own turn (R76). -/
theorem State.couplingUnheard_stands {s : State} {c : Fin 48} {k : Coupling} (h : k.Stands s.tow.couplings[c]) :
    k.unheard.Stands (s.couplingUnheard c).tow.couplings[c] := by
  have set : k.unheard.Stands (s.modCoupling c Coupling.unheard).tow.couplings[c] := by
    rw [State.modCoupling_coupling, if_pos rfl]
    exact h.unheard
  rw [State.couplingUnheard_eq]
  split
  · exact (Steady.stands _ c).formTow _ ((Steady.stands _ c).noteState _ c set)
  · exact set

theorem State.couplingUnheard_notes {s : State} {c : Fin 48} (h : s.tow.couplings[c].state = .slack ∨
    s.tow.couplings[c].state = .madeUp ∨ s.tow.couplings[c].state = .alert ∨ s.tow.couplings[c].state = .overload) :
    (s.couplingUnheard c).hasNotice .couplingSilent (subjectOf c) := by
  rw [State.couplingUnheard_eq, if_pos h]
  refine (Steady.hasNotice _ _).formTow _ ?_
  have silent : (s.modCoupling c Coupling.unheard).tow.couplings[c].state.notice = some .couplingSilent := by
    rw [State.modCoupling_coupling, if_pos rfl]
    unfold Coupling.unheard
    rw [if_pos h]
    rfl
  unfold State.noteState
  rw [silent]
  exact State.latch_hasNotice _ _ _

/-- A property that slots, lanes and next TAGs do not touch either. -/
structure Settled (P : State → Prop) : Prop extends Steady P where
  slotted : ∀ s t, Slotted s t → P s → P t

theorem Settled.moveEngine {P : State → Prop} (h : Settled P) {i : Fin 6}
    (engine : ∀ (u : State) (g : Engine → Engine), P u → P (u.modEngine i g)) (s : State) (x : EngineState) (p : P s) :
    P (s.moveEngine i x) := by
  have moved := engine s (fun e => { e with state := x }) p
  rw [State.moveEngine_eq]
  by_cases leaves : s.prop.engines[i].state = .running ∧ x ≠ .running
  · rw [State.withState_leaving leaves, State.leaveRunning_eq]
    exact h.recompute _ (h.slotted _ _ (State.placeSetpoint_slotted _ i) (engine _ _ moved))
  · rw [State.withState_staying leaves]
    exact h.recompute _ moved

section HandOver
variable {P : State → Prop} {s : State} {n : Fin 32}

/-- The parts of the couplings and of the meters. -/
theorem Steady.afterActuator (h : Steady P)
    (coupling : ∀ (u : State) (c : Fin 48) (f : Coupling → Coupling), u.tow.couplings[c].entry.sensor = some n →
      (∀ k, (f k).entry = k.entry) → P u → P (u.modCoupling c f))
    (meter : ∀ (u : State) (i : Fin 16) (f : Meter → Meter), u.fuel.meters[i].entry.node = some n → P u → P (u.modMeter i f))
    (p : P ((s.engineFollows n).actuatorFollows n)) : P (s.handOver n) :=
  h.metersFollow meter (h.couplingsFollow coupling p)

theorem State.engineFollows_actuatorOf : (s.engineFollows n).actuatorOf n = s.actuatorOf n :=
  findTable_congr fun i => by rw [(s.engineFollows_worked n).within.written.actuators i]

theorem State.engineFollows_gone (h : s.nodes[n].state ≠ .enrolled) : (s.engineFollows n).nodes[n].state ≠ .enrolled := by
  rw [(s.engineFollows_worked n).within.nodeState n]
  exact h

/-- The parts of the actuator, the couplings and the meters. -/
theorem Steady.afterEngine (h : Steady P) (gone : s.nodes[n].state ≠ .enrolled)
    (actuator : ∀ (u : State) (i : Fin 5) (f : Actuator → Actuator), s.actuatorOf n = some i → P u → P (u.modActuator i f))
    (coupling : ∀ (u : State) (c : Fin 48) (f : Coupling → Coupling), u.tow.couplings[c].entry.sensor = some n →
      (∀ k, (f k).entry = k.entry) → P u → P (u.modCoupling c f))
    (meter : ∀ (u : State) (i : Fin 16) (f : Meter → Meter), u.fuel.meters[i].entry.node = some n → P u → P (u.modMeter i f))
    (p : P (s.engineFollows n)) : P (s.handOver n) := by
  refine h.afterActuator coupling meter (h.actuatorFollows (State.engineFollows_gone gone) (fun i f found => ?_) p)
  rw [State.engineFollows_actuatorOf] at found
  exact actuator _ i f found p

/-- The parts of the engine and of the actuator. -/
theorem Settled.beforeCouplings (h : Settled P) (gone : s.nodes[n].state ≠ .enrolled)
    (engine : ∀ (u : State) (i : Fin 6) (g : Engine → Engine), s.engineOf n = some i → P u → P (u.modEngine i g))
    (actuator : ∀ (u : State) (i : Fin 5) (f : Actuator → Actuator), s.actuatorOf n = some i → P u → P (u.modActuator i f))
    (p : P s) : P ((s.engineFollows n).actuatorFollows n) := by
  have first : P (s.engineFollows n) :=
    h.engineFollows gone (fun u i _ found => h.moveEngine (fun v g => engine v i g found) u .lost) p
  refine h.actuatorFollows (State.engineFollows_gone gone) (fun i f found => ?_) first
  rw [State.engineFollows_actuatorOf] at found
  exact actuator _ i f found first

/-- A whole hand-over. -/
theorem Settled.handOver (h : Settled P) (gone : s.nodes[n].state ≠ .enrolled)
    (engine : ∀ (u : State) (i : Fin 6) (g : Engine → Engine), s.engineOf n = some i → P u → P (u.modEngine i g))
    (actuator : ∀ (u : State) (i : Fin 5) (f : Actuator → Actuator), s.actuatorOf n = some i → P u → P (u.modActuator i f))
    (coupling : ∀ (u : State) (c : Fin 48) (f : Coupling → Coupling), u.tow.couplings[c].entry.sensor = some n →
      (∀ k, (f k).entry = k.entry) → P u → P (u.modCoupling c f))
    (meter : ∀ (u : State) (i : Fin 16) (f : Meter → Meter), u.fuel.meters[i].entry.node = some n → P u → P (u.modMeter i f))
    (p : P s) : P (s.handOver n) :=
  h.afterActuator coupling meter (h.beforeCouplings gone engine actuator p)

end HandOver

/-! ### The units of the node -/

theorem Settled.stands (k : Coupling) (c : Fin 48) : Settled fun s => k.Stands s.tow.couplings[c] :=
  ⟨Steady.stands k c, fun s t m p => by rw [m.tow]; exact p⟩

theorem Settled.engineState (i : Fin 6) (x : EngineState) : Settled fun s => s.prop.engines[i].state = x :=
  ⟨Steady.engineState i x, fun s t m p => by rw [m.prop]; exact p⟩

theorem Settled.actuatorState (i : Fin 5) (x : ActuatorState) : Settled fun s => s.steer.actuators[i].state = x :=
  ⟨Steady.actuatorState i x, fun s t m p => by rw [m.steer]; exact p⟩

theorem Settled.meterState (i : Fin 16) (x : MeterState) : Settled fun s => s.fuel.meters[i].state = x :=
  ⟨Steady.meterState i x, fun s t m p => by rw [m.same]; exact p⟩

theorem State.withState_state (s : State) (i : Fin 6) (x : EngineState) : (s.withState i x).prop.engines[i].state = x := by
  by_cases leaves : s.prop.engines[i].state = .running ∧ x ≠ .running
  · rw [State.withState_leaves leaves.1 leaves.2, (s.halted_kept _).state]
  · rw [State.withState_stays leaves]

theorem State.handOver_notice {s : State} {n : Fin 32} {k : NoticeKind} {x : Byte} (h : s.hasNotice k x) : (s.handOver n).hasNotice k x :=
  State.hasNotice.mono h (s.handOver_worked n).within.list

section Units
variable {s : State} {n : Fin 32} (gone : s.nodes[n].state ≠ .enrolled)
include gone

/-- The coupling of a sensor, up to a return from ORDERED to WAIT_ZERO (R76, R85). -/
theorem State.handOver_coupling {c : Fin 48} {k : Coupling} (stands : k.Stands s.tow.couplings[c])
    (sensor : s.tow.couplings[c].entry.sensor = some n) : k.unheard.Stands (s.handOver n).tow.couplings[c] ∧
      (k.state = .slack ∨ k.state = .madeUp ∨ k.state = .alert ∨ k.state = .overload →
        (s.handOver n).hasNotice .couplingSilent (subjectOf c)) := by
  have before : k.Stands ((s.engineFollows n).actuatorFollows n).tow.couplings[c] ∧
      ((s.engineFollows n).actuatorFollows n).nodes[n].state ≠ .enrolled := by
    refine ⟨(Settled.stands k c).beforeCouplings gone (fun _ _ _ _ p => p) (fun _ _ _ _ p => p) stands, ?_⟩
    rw [(State.actuatorFollows_worked _ n).within.nodeState n]
    exact State.engineFollows_gone gone
  have named : k.entry.sensor = some n := by
    rw [← stands.entry]
    exact sensor
  have turned : k.unheard.Stands (((s.engineFollows n).actuatorFollows n).couplingsFollow n).tow.couplings[c] ∧
      (k.state = .slack ∨ k.state = .madeUp ∨ k.state = .alert ∨ k.state = .overload →
        (((s.engineFollows n).actuatorFollows n).couplingsFollow n).hasNotice .couplingSilent (subjectOf c)) := by
    generalize (s.engineFollows n).actuatorFollows n = t at before ⊢
    unfold State.couplingsFollow
    rw [if_neg before.2]
    have other : ∀ (u : State) (d : Fin 48) (x : Coupling), d ≠ c → x.Stands u.tow.couplings[c] →
        x.Stands (u.couplingUnheard d).tow.couplings[c] := fun u d x e p =>
      (Steady.stands x c).couplingUnheard (fun v f _ q => by rw [State.modCoupling_coupling, if_neg e]; exact q) p
    refine foldl_turns (Pre := fun u => k.Stands u.tow.couplings[c])
      (Post := fun u => k.unheard.Stands u.tow.couplings[c] ∧ (k.state = .slack ∨ k.state = .madeUp ∨ k.state = .alert ∨
        k.state = .overload → u.hasNotice .couplingSilent (subjectOf c)))
      (fun u d _ e p => ?_) (fun u p => ?_) (fun u d _ e p => ?_) (List.nodup_finRange 48) (List.mem_finRange c) before.1
    · split
      · exact other u d k e p
      · exact p
    · have state : u.tow.couplings[c].state = k.state := p.state
      have entry : u.tow.couplings[c].entry = k.entry := p.entry
      rw [if_pos (by rw [entry]; exact named)]
      exact ⟨State.couplingUnheard_stands p, fun four => State.couplingUnheard_notes (by rw [state]; exact four)⟩
    · split
      · refine ⟨other u d _ e p.1, fun four => ?_⟩
        exact (Steady.hasNotice _ _).couplingUnheard (fun _ _ _ q => q) (p.2 four)
      · exact p
  have both : Steady fun u => k.unheard.Stands u.tow.couplings[c] ∧ (k.state = .slack ∨ k.state = .madeUp ∨
      k.state = .alert ∨ k.state = .overload → u.hasNotice .couplingSilent (subjectOf c)) := by
    by_cases four : k.state = .slack ∨ k.state = .madeUp ∨ k.state = .alert ∨ k.state = .overload
    · simp only [four, true_implies]
      exact (Steady.stands _ c).and (Steady.hasNotice _ _)
    · simp only [four, false_implies, and_true]
      exact Steady.stands _ c
  exact both.metersFollow (fun _ _ _ _ q => q) turned

/-- A coupling of another sensor (R85). -/
theorem State.handOver_coupling_other {c : Fin 48} {k : Coupling} (stands : k.Stands s.tow.couplings[c])
    (sensor : k.entry.sensor ≠ some n) : k.Stands (s.handOver n).tow.couplings[c] := by
  refine (Settled.stands k c).handOver gone (fun _ _ _ _ p => p) (fun _ _ _ _ p => p) (fun u d f named _ p => ?_)
    (fun _ _ _ _ p => p) stands
  have other : d ≠ c := fun e => by
    rw [e, p.entry] at named
    exact sensor named
  rw [State.modCoupling_coupling, if_neg other]
  exact p

theorem State.handOver_work : (s.handOver n).tow.work = s.tow.work := by
  have settled : Settled fun u => u.tow.work = s.tow.work :=
    ⟨Steady.work _, fun u t m p => by rw [m.tow]; exact p⟩
  exact settled.handOver gone (fun _ _ _ _ p => p) (fun _ _ _ _ p => p) (fun _ _ _ _ _ p => p) (fun _ _ _ _ p => p) rfl

/-- The actuator of the node (R60). -/
theorem State.handOver_actuator {a : Fin 5} (found : s.actuatorOf n = some a) (present : s.steer.actuators[a].state ≠ .absent) :
    (s.handOver n).steer.actuators[a].state = (if s.nodes[n].state = .failed then .fault else .lost) ∧
      (s.nodes[n].state ≠ .failed → (s.handOver n).steer.actuators[a].divergeAt = none) := by
  have state : (s.engineFollows n).steer.actuators[a].state = s.steer.actuators[a].state :=
    (Settled.actuatorState a _).engineFollows gone
      (fun u i _ _ => (Settled.actuatorState a _).moveEngine (fun _ _ p => p) u .lost) rfl
  have node : (s.engineFollows n).nodes[n].state = s.nodes[n].state := (s.engineFollows_worked n).within.nodeState n
  have owner : (s.engineFollows n).actuatorOf n = some a := State.engineFollows_actuatorOf.trans found
  have kept : ∀ x : ActuatorState, ((s.engineFollows n).actuatorFollows n).steer.actuators[a].state = x →
      (s.handOver n).steer.actuators[a].state = x := fun x =>
    (Steady.actuatorState a x).afterActuator (fun _ _ _ _ _ p => p) (fun _ _ _ _ p => p)
  have timer : ((s.engineFollows n).actuatorFollows n).steer.actuators[a].divergeAt = none →
      (s.handOver n).steer.actuators[a].divergeAt = none :=
    (Steady.divergeAt a none).afterActuator (fun _ _ _ _ _ p => p) (fun _ _ _ _ p => p)
  generalize s.engineFollows n = u at state node owner kept timer
  have faulted : (u.faultActuator a).reviewForced.steer.actuators[a].state = .fault := by
    refine (Steady.actuatorState a .fault).reviewForced _ ?_
    unfold State.faultActuator
    rw [(State.latch_noted _ _ _).steer, State.modActuator_actuator, if_pos rfl]
  have lost : (u.modActuator a fun x => { x with state := .lost, divergeAt := none }).steer.actuators[a] =
      { u.steer.actuators[a] with state := .lost, divergeAt := none } := by
    rw [State.modActuator_actuator, if_pos rfl]
  rw [← state] at present
  have follows : u.actuatorFollows n = match u.nodes[n].state with
      | .enrolled => if u.steer.actuators[a].state = .fault ∨ u.steer.actuators[a].state = .lost then
          (u.readyActuator a).reviewForced else u
      | .failed => if u.steer.actuators[a].state = .fault then u else (u.faultActuator a).reviewForced
      | _ => (u.modActuator a fun x => { x with state := .lost, divergeAt := none }).reviewForced := by
    unfold State.actuatorFollows
    rw [owner]
    exact if_neg present
  by_cases failed : s.nodes[n].state = .failed
  · rw [if_pos failed]
    refine ⟨kept _ ?_, fun x => absurd failed x⟩
    rw [follows, node, failed]
    dsimp only
    split
    · next e => exact e
    · exact faulted
  · rw [if_neg failed]
    have silenced : u.actuatorFollows n =
        (u.modActuator a fun x => { x with state := .lost, divergeAt := none }).reviewForced := by
      rw [follows, node]
      split
      · next e => exact absurd e gone
      · next e => exact absurd e failed
      · rfl
    refine ⟨kept _ ?_, fun _ => timer ?_⟩ <;> rw [silenced]
    · exact (Steady.actuatorState a .lost).reviewForced _ (by rw [lost])
    · exact (Steady.divergeAt a none).reviewForced _ (by rw [lost])

/-- The meters of the node (R104). -/
theorem State.handOver_meter {i : Fin 16} (node : s.fuel.meters[i].entry.node = some n)
    (counting : s.fuel.meters[i].state = .counting) : (s.handOver n).fuel.meters[i].state = .estimating := by
  have before : (((s.engineFollows n).actuatorFollows n).couplingsFollow n).fuel.meters[i].state = .counting := by
    refine (Settled.meterState i .counting).couplingsFollow (fun _ _ _ _ _ p => p) ?_
    exact (Settled.meterState i .counting).beforeCouplings gone (fun _ _ _ _ p => p) (fun _ _ _ _ p => p) counting
  have worked := (((s.engineFollows_worked n).within.mono (y := .fuel) (by decide)).trans
    ((State.actuatorFollows_worked _ n).within.mono (by decide))).trans
      ((State.couplingsFollow_worked _ n).within.mono (by decide))
  have entry := worked.written.meters i
  have gone' := worked.nodeState n
  unfold State.handOver
  generalize ((s.engineFollows n).actuatorFollows n).couplingsFollow n = t at before entry gone' ⊢
  unfold State.metersFollow
  rw [if_neg (by rw [gone']; exact gone)]
  have estimates : ∀ (u : State) (j k : Fin 16), (u.startEstimating j).fuel.meters[k] =
      if j = k then { u.fuel.meters[j] with state := .estimating, silenceAt := none, tickAt := u.after (ms 1000) }
      else u.fuel.meters[k] := fun u j k => by
    unfold State.startEstimating
    rw [(State.latch_noted _ _ _).fuel]
    exact modTable_get u.fuel.meters j k _
  have named : t.fuel.meters[i].entry.node = some n := by rw [entry]; exact node
  refine foldl_turns (Pre := fun u => u.fuel.meters[i].entry.node = some n ∧ u.fuel.meters[i].state = .counting)
    (Post := fun u => u.fuel.meters[i].state = .estimating)
    (fun u j _ e p => ?_) (fun u p => ?_) (fun u j _ e p => ?_) (List.nodup_finRange 16) (List.mem_finRange i) ⟨named, before⟩
  · split
    · rw [estimates, if_neg e]
      exact p
    · exact p
  · rw [if_pos p, estimates, if_pos rfl]
  · split
    · rw [estimates, if_neg e]
      exact p
    · exact p

/-- The engine that the node governs (R19, R22). -/
theorem State.engineFollows_takes {e : Fin 6} (found : s.engineOf n = some e) (present : s.prop.engines[e].state ≠ .absent) :
    (s.engineFollows n).prop.engines[e].state = .lost ∧
      (s.prop.engines[e].state ≠ .lost → (s.engineFollows n).hasNotice .engineLost (subjectOf e)) ∧
      (s.prop.engines[e].state = .running →
        (s.engineFollows n).prop.engines[e].target = 0 ∧ (s.engineFollows n).prop.engines[e].setpoint = 0 ∧
          s.Slewed s.prop.engines[e] (s.engineFollows n).prop.engines[e]) := by
  by_cases lost : s.prop.engines[e].state = .lost
  · have idle : s.engineFollows n = s := by
      unfold State.engineFollows
      rw [found]
      dsimp only
      rw [if_neg gone, if_pos (.inl lost)]
    rw [idle]
    exact ⟨lost, fun x => absurd lost x, fun x => by rw [lost] at x; cases x⟩
  · have moves : s.engineFollows n = (s.latch .engineLost (subjectOf e)).moveEngine e .lost := by
      unfold State.engineFollows
      rw [found]
      dsimp only
      rw [if_neg gone, if_neg (not_or.2 ⟨lost, present⟩)]
    have noted := s.latch_noted .engineLost (subjectOf e)
    have notice := s.latch_hasNotice .engineLost (subjectOf e)
    have paced : s.Paced (s.latch .engineLost (subjectOf e)) := ⟨noted.now, State.profile_congr noted.helm⟩
    have prop := noted.prop
    rw [moves]
    generalize s.latch .engineLost (subjectOf e) = u at notice paced prop ⊢
    refine ⟨?_, fun _ => ?_, fun running => ?_⟩
    · rw [State.moveEngine_eq, ((State.recompute_within _).units (by decide)).engines e |>.1]
      exact u.withState_state e .lost
    · rw [State.moveEngine_eq]
      refine State.hasNotice.mono notice (List.IsPrefix.trans ?_ (State.recompute_within _).list)
      exact (u.withState_within e .lost).list
    · rw [← prop] at running ⊢
      obtain ⟨target, setpoint⟩ := State.moveEngine_stops (x := .lost) running (by decide)
      exact ⟨target, setpoint, paced.slewed (u.moveEngine_slewed e e .lost)⟩

theorem State.handOver_engine {e : Fin 6} (found : s.engineOf n = some e) (present : s.prop.engines[e].state ≠ .absent) :
    (s.handOver n).prop.engines[e].state = .lost :=
  (Steady.engineState e .lost).afterEngine gone (fun _ _ _ _ p => p) (fun _ _ _ _ _ p => p) (fun _ _ _ _ p => p)
    (State.engineFollows_takes gone found present).1

end Units

end Sys2Proof.Machine

end

