-- ==== Sys2Proof/Proofs/AckTimeouts.lean ====
section
/-! PROOF. Proofs/AckTimeouts.lean: a refresh expiry on a running timer (R44, R58, R133), and an ack
timeout up to the third in a row (R142). -/

namespace Sys2Proof.Machine

/-- The state in which a refresh expiry places: the time base stands at the expiry and the timer runs again (R133). -/
def State.rearmed (s : State) (n : Fin 32) (at_ : Nat) : State :=
  (s.reach at_).modNode n fun x =>
    { x with refreshAt := if x.entry.refresh = 0 then none else some (max s.now at_ + 100000 * x.entry.refresh) }

theorem State.nodeRefresh_eq (s : State) (n : Fin 32) : s.nodeRefresh n =
    if s.nodes[n].entry.refresh = 0 then none else some (s.now + 100000 * s.nodes[n].entry.refresh) := by
  unfold State.nodeRefresh State.after ms
  split
  · rfl
  · congr 1
    ring

theorem State.refreshExpiry_eq {s : State} {n : Fin 32} {at_ : Nat} (h : s.nodes[n].refreshAt = some at_) :
    exec (.refreshExpiry n) s = .next ((s.rearmed n at_).refresh n) := by
  show Host.Outcome.next (s.expire s.nodes[n].refreshAt _) = _
  rw [h]
  refine congrArg (fun u : State => Host.Outcome.next (u.refresh n)) (State.modNode_congr ?_)
  rw [State.nodeRefresh_eq]
  rfl

theorem State.rearmed_node (s : State) (n : Fin 32) (at_ : Nat) : (s.rearmed n at_).nodes[n].state = s.nodes[n].state ∧
    (s.rearmed n at_).nodes[n].nextTag = s.nodes[n].nextTag ∧
    (s.rearmed n at_).nodes[n].entry.port = s.nodes[n].entry.port := by
  unfold State.rearmed
  rw [State.modNode_node, if_pos rfl]
  exact ⟨rfl, rfl, rfl⟩

/-- What a placement for a node leaves of its waiting order, of a kind with a value and an owner. -/
def State.SupersededIn (s : State) (n : Fin 32) (t : State) (k : OrderKind) (x : Int) (w : Owner) : Prop :=
  ∀ j : Fin 16, s.waitingSlot n = some j → s.trans.slots[j].kind = k →
    t.nodes[n].nextTag = s.nodes[n].nextTag + 1 ∧
    t.trans.slots[j] = { s.trans.slots[j] with value := .amount x, owner := some w, tag := s.nodes[n].nextTag }

/-- What a placement for a node with nothing waiting makes of a FREE slot. -/
def State.PlacedIn (s : State) (n : Fin 32) (t : State) (k : OrderKind) (x : Int) (w : Owner) : Prop :=
  s.waitingSlot n = none → s.hasFree → t.nodes[n].nextTag = s.nodes[n].nextTag + 1 ∧
    ∃ j : Fin 16, s.trans.slots[j].state = .free ∧
      t.trans.slots[j] =
        { target := n, kind := k, value := .amount x, tag := s.nodes[n].nextTag, owner := some w, condition := none,
          ackAt := none, state := if (s.flightSlot n).isSome = true then .waiting else .queued } ∧
      t.trans.lane s.nodes[n].entry.port =
        s.trans.lane s.nodes[n].entry.port ++ (if (s.flightSlot n).isSome = true then [] else [j])

section
variable {s : State} {n : Fin 32} {at_ : Nat} (alive : s.nodes[n].state ≠ .failed ∧ s.nodes[n].state ≠ .unused)
include alive

theorem State.rearmed_superseded {k : OrderKind} {x : Int} {w : Owner} (l : k.supersedable = true)
    (h : ∀ j : Fin 16, s.waitingSlot n = some j → s.trans.slots[j].kind = k →
      (s.rearmed n at_).refresh n = ((s.rearmed n at_).place n k (.amount x) w none).1) :
    s.SupersededIn n ((s.rearmed n at_).refresh n) k x w := by
  obtain ⟨state, tag, _⟩ := s.rearmed_node n at_
  intro j waits kind
  have placed := State.place_superseded (s := s.rearmed n at_) (by rw [state]; exact alive) waits kind l (.amount x) w
  rw [tag] at placed
  rw [h j waits kind]
  exact placed

theorem State.rearmed_placed {k : OrderKind} {x : Int} {w : Owner} (h : s.waitingSlot n = none →
      (s.rearmed n at_).refresh n = ((s.rearmed n at_).place n k (.amount x) w none).1) :
    s.PlacedIn n ((s.rearmed n at_).refresh n) k x w := by
  obtain ⟨state, tag, port⟩ := s.rearmed_node n at_
  intro bare free
  have placed := State.place_placed (s := s.rearmed n at_) (by rw [state]; exact alive) bare free k (.amount x) w
  rw [tag, port] at placed
  rw [h bare]
  exact placed

end

theorem State.rearmed_shut {s : State} {n : Fin 32} {at_ : Nat} {k : OrderKind} (h : s.Shut n k) :
    (s.rearmed n at_).Shut n k := by
  refine h.imp_left fun dead => ?_
  rw [(s.rearmed_node n at_).1]
  exact dead

/-- A refresh expiry on a running timer. -/
theorem State.refreshExpiry_places {s : State} {n : Fin 32} {at_ : Nat} (h : s.nodes[n].refreshAt = some at_) :
    ∃ t, exec (.refreshExpiry n) s = .next t ∧ Within .propulsion (s.rearmed n at_) t ∧
      t.prop = s.prop ∧ t.steer = s.steer ∧ t.tow = s.tow ∧ t.notices = s.notices ∧ t.fwd = s.fwd ∧
      (∀ j : Fin 16, s.trans.slots[j].state ≠ .free → s.waitingSlot n ≠ some j →
        t.trans.slots[j] = s.trans.slots[j]) ∧
      (∀ i, s.Governs n i → s.nodes[n].state ≠ .failed ∧ s.nodes[n].state ≠ .unused →
        s.SupersededIn n t .setpoint s.prop.engines[i].setpoint (.propulsion i) ∧
        s.PlacedIn n t .setpoint s.prop.engines[i].setpoint (.propulsion i)) ∧
      (∀ a, s.Moves n a → s.nodes[n].state ≠ .failed ∧ s.nodes[n].state ≠ .unused →
        s.SupersededIn n t s.steer.actuators[a].entry.kind.order s.steer.actuators[a].ordered (.steering a) ∧
        ((∀ i, ¬ s.Governs n i) →
          s.PlacedIn n t s.steer.actuators[a].entry.kind.order s.steer.actuators[a].ordered (.steering a))) ∧
      ((∀ i, s.Governs n i → s.Shut n .setpoint) →
        (∀ a, s.Moves n a → s.Shut n s.steer.actuators[a].entry.kind.order) → t = s.rearmed n at_) := by
  have slotted := (s.rearmed n at_).refresh_slotted n
  refine ⟨_, State.refreshExpiry_eq h, ((s.rearmed n at_).refresh_worked n).within, slotted.prop, slotted.steer,
    slotted.tow, slotted.notices, slotted.fwd, fun j used other => ?_, fun i governs alive => ⟨?_, ?_⟩,
    fun a moves alive => ⟨?_, fun bare => ?_⟩, fun e a => ?_⟩
  · exact State.refresh_keeps (s := s.rearmed n at_) used other
  · refine State.rearmed_superseded alive rfl fun j waits kind => ?_
    refine State.refresh_engine (s := s.rearmed n at_) governs fun j' waits' => ?_
    have same : j = j' := Option.some.inj (waits.symm.trans waits')
    rw [← same]
    exact kind
  · refine State.rearmed_placed alive fun bare => ?_
    refine State.refresh_engine (s := s.rearmed n at_) governs fun j' waits' => ?_
    have found : s.waitingSlot n = some j' := waits'
    rw [bare] at found
    cases found
  · refine State.rearmed_superseded alive (ActuatorKind.order_supersedable _) fun j waits kind => ?_
    refine State.refresh_actuator (s := s.rearmed n at_) moves fun i _ => .inr (.inl ⟨j, waits, ?_⟩)
    intro setpoint
    exact ActuatorKind.order_ne _ (kind.symm.trans setpoint)
  · refine State.rearmed_placed alive fun _ => ?_
    exact State.refresh_actuator (s := s.rearmed n at_) moves fun i governs => absurd governs (bare i)
  · exact State.refresh_shut (s := s.rearmed n at_) (fun i governs => State.rearmed_shut (e i governs))
      fun i moves => State.rearmed_shut (a i moves)

/-! ### The end of a slot (R140, R142) -/

theorem State.endSlot_slot (s : State) (i j : Fin 16) : (s.endSlot i).trans.slots[j] =
    if i = j then { s.trans.slots[j] with state := .free, ackAt := none } else s.trans.slots[j] :=
  State.modSlot_slot s i j _

/-- The end of a slot that no lane holds leaves the lanes. -/
theorem State.endSlot_lane {s : State} {i : Fin 16} (sound : s.SlotsSound) (h : s.trans.slots[i].state ≠ .queued)
    (p : PlantPort) : (s.endSlot i).trans.lane p = s.trans.lane p := by
  unfold State.endSlot
  rw [State.leaveLane_lane, State.modSlot_lane]
  refine List.filter_eq_self.2 fun j m => decide_eq_true fun e => h ?_
  rw [← e]
  exact ((sound.lanes p j).1 m).1

section
variable {s : State} {i : Fin 16} (h : s.trans.slots[i].isWaiting = false)
include h

theorem State.endSlot_waiting (j : Fin 16) :
    (s.endSlot i).trans.slots[j].isWaiting = s.trans.slots[j].isWaiting ∧
      (s.trans.slots[j].isWaiting = true → (s.endSlot i).trans.slots[j] = s.trans.slots[j]) := by
  rw [State.endSlot_slot]
  split
  · next e =>
    subst e
    rw [h]
    exact ⟨rfl, fun x => nomatch x⟩
  · exact ⟨rfl, fun _ => rfl⟩

theorem State.endSlot_waitingSlot (n : Fin 32) : (s.endSlot i).waitingSlot n = s.waitingSlot n := by
  refine findTable_congr fun j => ?_
  obtain ⟨waiting, same⟩ := State.endSlot_waiting h j
  cases e : s.trans.slots[j].isWaiting with
  | true => rw [same e, e]
  | false => rw [waiting, e]; rfl

theorem State.endSlot_releaseSlotOf (c : Fin 48) : (s.endSlot i).releaseSlotOf c = s.releaseSlotOf c := by
  refine findTable_congr fun j => ?_
  obtain ⟨waiting, same⟩ := State.endSlot_waiting h j
  cases e : s.trans.slots[j].isWaiting with
  | true => rw [same e, e]
  | false => rw [waiting, e]; rfl

end

theorem State.SlotsSound.waitingSlot {s : State} (h : s.SlotsSound) {j : Fin 16} {n : Fin 32}
    (waiting : s.trans.slots[j].isWaiting = true) (target : s.trans.slots[j].target = n) : s.waitingSlot n = some j := by
  refine findTable_unique ((Slot.waitsFor_iff _ n).2 ⟨waiting, target⟩) fun k found => ?_
  obtain ⟨waiting', target'⟩ := (Slot.waitsFor_iff _ n).1 found
  exact h.oneWaiting k j waiting' waiting (target'.trans target.symm)

/-! ### The end of a slot handed to its owner (R86) -/

theorem State.orderEnded_same (s : State) (x : Slot) : s.orderEnded x = { s with tow := (s.orderEnded x).tow } := by
  unfold State.orderEnded
  split
  · split
    · unfold State.winchEnded
      split <;> rfl
    · rfl
  · rfl

/-- The end of an ORDERED release with no slot of it unsent. -/
structure State.ReleaseEnds (s : State) (x : Slot) (c : Fin 48) : Prop where
  owner : x.owner = some (.tow c)
  value : x.value = .release
  state : s.tow.couplings[c].state = .releasing
  phase : s.tow.couplings[c].phase = some .ordered
  sent : s.releaseSlotOf c = none

theorem State.orderEnded_release {s : State} {x : Slot} {c : Fin 48} (h : s.ReleaseEnds x c) :
    (s.orderEnded x).tow.couplings[c] = { s.tow.couplings[c] with phase := some .awaitSlack } := by
  unfold State.orderEnded State.winchEnded
  rw [h.owner]
  dsimp only
  rw [if_pos h.value, if_pos ⟨h.state, h.phase, h.sent⟩, State.modCoupling_coupling, if_pos rfl]

theorem State.orderEnded_coupling {s : State} {x : Slot} {c : Fin 48} (h : ¬ s.ReleaseEnds x c) :
    (s.orderEnded x).tow.couplings[c] = s.tow.couplings[c] := by
  unfold State.orderEnded
  split
  · next d owner =>
    split
    · next value =>
      unfold State.winchEnded
      split
      · next ends =>
        have other : d ≠ c := fun e => by
          subst e
          exact h ⟨owner, value, ends.1, ends.2.1, ends.2.2⟩
        rw [State.modCoupling_coupling, if_neg other]
      · rfl
    · rfl
  · rfl

theorem State.orderEnded_modNode (s : State) (x : Slot) (n : Fin 32) (f : Node → Node) :
    (s.modNode n f).orderEnded x = (s.orderEnded x).modNode n f := by
  unfold State.orderEnded
  split
  · split
    · next c _ _ =>
      unfold State.winchEnded
      have same : (s.modNode n f).releaseSlotOf c = s.releaseSlotOf c := rfl
      rw [same]
      by_cases ends : s.tow.couplings[c].state = .releasing ∧ s.tow.couplings[c].phase = some .ordered ∧
          s.releaseSlotOf c = none
      · rw [if_pos ends, if_pos (by exact ends)]
        rfl
      · rw [if_neg ends, if_neg (by exact ends)]
    · rfl
  · rfl

/-! ### Awakening (R142) -/

theorem State.wakeSlot_keeps {s : State} {n : Fin 32} {j : Fin 16}
    (h : s.trans.slots[j].state ≠ .waiting ∨ s.trans.slots[j].target ≠ n) :
    (s.wakeSlot n).trans.slots[j] = s.trans.slots[j] := by
  unfold State.wakeSlot
  split
  · next i found =>
    split
    · next waiting =>
      rw [State.queueSlot_slot, if_neg]
      intro e
      subst e
      exact h.elim (fun n => n waiting) fun n => n (State.waitingSlot_meets found).2
    · rfl
  · rfl

theorem State.wakeSlot_wakes {s : State} {n : Fin 32} {j : Fin 16} (h : s.waitingSlot n = some j)
    (waiting : s.trans.slots[j].state = .waiting) :
    (s.wakeSlot n).trans.slots[j] = { s.trans.slots[j] with state := .queued } ∧
      (s.wakeSlot n).trans.lane s.nodes[n].entry.port = s.trans.lane s.nodes[n].entry.port ++ [j] := by
  have wakes : s.wakeSlot n = s.queueSlot j := by
    unfold State.wakeSlot
    rw [h]
    exact if_pos waiting
  rw [wakes, State.queueSlot_slot, if_pos rfl]
  exact ⟨rfl, State.queueSlot_joins (State.waitingSlot_meets h).2⟩

/-! ### An ack timeout (R142) -/

/-- The slot of an ack timeout ended, its timeout counted and its owner told (R142). -/
def State.timedOut (s : State) (i : Fin 16) : State :=
  ((s.endSlot i).modNode s.trans.slots[i].target fun n => { n with timeouts := n.timeouts + 1 }).orderEnded s.trans.slots[i]

theorem State.timedOut_nodes (s : State) (i : Fin 16) : (s.timedOut i).nodes =
    (s.modNode s.trans.slots[i].target fun n => { n with timeouts := n.timeouts + 1 }).nodes := by
  unfold State.timedOut
  rw [State.orderEnded_same]
  rfl

theorem State.timedOut_trans (s : State) (i : Fin 16) : (s.timedOut i).trans = (s.endSlot i).trans := by
  unfold State.timedOut
  rw [State.orderEnded_same]
  rfl

theorem State.timedOut_count (s : State) (i : Fin 16) : (s.timedOut i).nodes[s.trans.slots[i].target].timeouts =
    s.nodes[s.trans.slots[i].target].timeouts + 1 := by
  have node : (s.timedOut i).nodes[s.trans.slots[i].target] = _ :=
    (congrArg (fun t : Table Node 32 => t[s.trans.slots[i].target]) (s.timedOut_nodes i)).trans (s.modNode_node _ _ _)
  rw [node, if_pos rfl]

theorem State.slotTimeout_wakes {s : State} {i : Fin 16} (h : s.nodes[s.trans.slots[i].target].timeouts + 1 < 3) :
    s.slotTimeout i = (s.timedOut i).wakeSlot s.trans.slots[i].target := by
  refine if_neg ?_
  rw [← State.timedOut_count] at h
  exact Nat.not_le.2 h

theorem State.slotTimeout_fails {s : State} {i : Fin 16} (h : 3 ≤ s.nodes[s.trans.slots[i].target].timeouts + 1) :
    s.slotTimeout i = (s.timedOut i).failNode s.trans.slots[i].target := by
  refine if_pos ?_
  rw [← State.timedOut_count] at h
  exact h

theorem State.timedOut_idle {s : State} {i : Fin 16} (sound : s.SlotsSound) (h : s.trans.slots[i].inFlight = true) :
    (s.timedOut i).idle? s.trans.slots[i].target :=
  (State.orderEnded_worked _ _).idle _ (State.endSlot_idle sound h)

/-- A change of nodes carried back over the end of the slot. -/
theorem State.timedOut_modNode (s : State) (i : Fin 16) (f : Node → Node) :
    (s.timedOut i).modNode s.trans.slots[i].target f = ((s.modNode s.trans.slots[i].target fun n =>
      f { n with timeouts := n.timeouts + 1 }).endSlot i).orderEnded s.trans.slots[i] := by
  have both : ((s.endSlot i).modNode s.trans.slots[i].target fun n => { n with timeouts := n.timeouts + 1 }).modNode
      s.trans.slots[i].target f = (s.modNode s.trans.slots[i].target fun n =>
        f { n with timeouts := n.timeouts + 1 }).endSlot i := by
    unfold State.modNode modTable
    simp only [Fin.getElem_fin, Vector.getElem_set_self, Vector.set_set]
    rfl
  unfold State.timedOut
  rw [← State.orderEnded_modNode, both]

theorem State.timedOut_within (s : State) (i : Fin 16) : Within .propulsion (s.modNode s.trans.slots[i].target fun n =>
    { n with timeouts := n.timeouts + 1 }) (s.timedOut i) :=
  ((State.endSlot_slotted _ i).worked.trans (State.orderEnded_worked _ s.trans.slots[i])).within

/-- The coupling whose release ended awaits slack; the other couplings stay (R86). -/
theorem State.timedOut_coupling {s : State} {i : Fin 16} (h : s.trans.slots[i].isWaiting = false) (c : Fin 48) :
    (s.ReleaseEnds s.trans.slots[i] c →
      (s.timedOut i).tow.couplings[c] = { s.tow.couplings[c] with phase := some .awaitSlack }) ∧
    (¬ s.ReleaseEnds s.trans.slots[i] c → (s.timedOut i).tow.couplings[c] = s.tow.couplings[c]) := by
  have same : ((s.endSlot i).modNode s.trans.slots[i].target fun n =>
      { n with timeouts := n.timeouts + 1 }).releaseSlotOf c = s.releaseSlotOf c := State.endSlot_releaseSlotOf h c
  unfold State.timedOut
  refine ⟨fun e => State.orderEnded_release ⟨e.owner, e.value, e.state, e.phase, same.trans e.sent⟩,
    fun e => State.orderEnded_coupling fun x => e ⟨x.owner, x.value, x.state, x.phase, same.symm.trans x.sent⟩⟩

/-- Below the third timeout in a row the node's WAITING order is QUEUED, and the other slots stay. -/
theorem State.slotTimeout_below {s : State} {i : Fin 16} (sound : s.SlotsSound) (awaiting : s.trans.slots[i].state = .awaiting)
    (h : s.nodes[s.trans.slots[i].target].timeouts + 1 < 3) :
    Slotted (s.timedOut i) (s.slotTimeout i) ∧
      (s.slotTimeout i).trans.slots[i] = { s.trans.slots[i] with state := .free, ackAt := none } ∧
      (∀ j : Fin 16, s.trans.slots[j].state = .waiting → s.trans.slots[j].target = s.trans.slots[i].target →
        (s.slotTimeout i).trans.slots[j] = { s.trans.slots[j] with state := .queued } ∧
          (s.slotTimeout i).trans.lane s.nodes[s.trans.slots[i].target].entry.port =
            s.trans.lane s.nodes[s.trans.slots[i].target].entry.port ++ [j]) ∧
      ∀ j : Fin 16, j ≠ i → s.trans.slots[j].state ≠ .waiting ∨ s.trans.slots[j].target ≠ s.trans.slots[i].target →
        (s.slotTimeout i).trans.slots[j] = s.trans.slots[j] := by
  have flight : s.trans.slots[i].inFlight = true := (Slot.inFlight_iff _).2 (.inr awaiting)
  have waits : s.trans.slots[i].isWaiting = false := by simp [-Fin.getElem_fin, Slot.isWaiting, awaiting]
  have slot : ∀ j : Fin 16, (s.timedOut i).trans.slots[j] =
      if i = j then { s.trans.slots[j] with state := .free, ackAt := none } else s.trans.slots[j] := fun j => by
    rw [State.timedOut_trans, State.endSlot_slot]
  have ended := slot i
  rw [if_pos rfl] at ended
  rw [State.slotTimeout_wakes h]
  refine ⟨State.wakeSlot_slotted _ _ (State.timedOut_idle sound flight), ?_, fun j waiting target => ?_, fun j other quiet => ?_⟩
  · rw [State.wakeSlot_keeps (.inl (by rw [ended]; exact nofun)), ended]
  · have other : i ≠ j := fun e => by
      rw [← e, awaiting] at waiting
      cases waiting
    have same := slot j
    rw [if_neg other] at same
    have found : (s.timedOut i).waitingSlot s.trans.slots[i].target = some j := by
      have ended : (s.timedOut i).waitingSlot s.trans.slots[i].target = (s.endSlot i).waitingSlot s.trans.slots[i].target := by
        unfold State.waitingSlot
        rw [State.timedOut_trans]
      rw [ended, State.endSlot_waitingSlot waits]
      exact sound.waitingSlot ((Slot.isWaiting_iff _).2 (.inr (.inl waiting))) target
    obtain ⟨queued, lane⟩ := State.wakeSlot_wakes found (by rw [same]; exact waiting)
    have port : (s.timedOut i).nodes[s.trans.slots[i].target].entry.port = s.nodes[s.trans.slots[i].target].entry.port :=
      congrArg NodeEntry.port (((s.timedOut_within i).written.nodes _).trans
        (by rw [State.modNode_node, if_pos rfl]))
    rw [port, State.timedOut_trans, State.endSlot_lane sound (by rw [awaiting]; exact nofun)] at lane
    rw [queued, same]
    exact ⟨rfl, lane⟩
  · have same := slot j
    rw [if_neg other.symm] at same
    rw [State.wakeSlot_keeps (by rw [same]; exact quiet), same]

end Sys2Proof.Machine

end

