-- ==== Sys2Proof/Proofs/NodeFailures.lean ====
section
/-! PROOF. Proofs/NodeFailures.lean: the third ack timeout in a row (R143): the node FAILED, its waiting order freed, a
release on it abandoned (R89), and the change handed on (R134). -/

namespace Sys2Proof.Machine

/-! ### A waiting order lost (R89, R143) -/

/-- The waiting order of a failed node freed, and its owner told. -/
def State.dropWaiting (s : State) (n : Fin 32) : State :=
  match s.waitingSlot n with
  | some i => (s.endSlot i).slotLost s.trans.slots[i]
  | none => s

/-- A node marked FAILED, its timers stopped (R143). -/
def Node.failed (x : Node) : Node :=
  { x with state := .failed, silenceAt := none, refreshAt := none }

theorem State.failNode_eq (s : State) (n : Fin 32) : s.failNode n =
    ((((s.modNode n Node.failed).latch .nodeFailed (subjectOf n)).dropWaiting n).handOver n) := rfl

theorem State.dropWaiting_worked (s : State) (n : Fin 32) : Worked .units s (s.dropWaiting n) := by
  unfold State.dropWaiting
  split
  · exact (s.endSlot_slotted _).worked.mono.trans (State.slotLost_worked _ _)
  · exact Worked.refl _ s

theorem State.dropRelease_slotted (s : State) (c : Fin 48) : Slotted s (s.dropRelease c) := by
  unfold State.dropRelease
  split
  · exact s.withdrawSlot_slotted _
  · exact Slotted.refl s

theorem State.endWork_coupling (s : State) (c d : Fin 48) (x : CouplingState) : (s.endWork c x).tow.couplings[d] =
    if c = d then { s.tow.couplings[d] with state := x, phase := none, prior := none, waitAt := none }
    else s.tow.couplings[d] := by
  have ended : (s.endWork c x).tow.couplings[d] = _ := (s.dropRelease c).modCoupling_coupling c d
    fun k => { k with state := x, phase := none, prior := none, waitAt := none }
  rw [ended, State.dropRelease_tow]
  split
  · next e => subst e; rfl
  · rfl

theorem State.slotLost_cases (s : State) (x : Slot) : s.slotLost x = s ∨ ∃ c : Fin 48,
    s.tow.couplings[c].state = .releasing ∧ s.tow.couplings[c].phase ≠ some .awaitSlack ∧ s.slotLost x = s.abandonRelease c := by
  unfold State.slotLost
  split
  · next c _ =>
    split
    · next h => exact .inr ⟨c, h.2.1, h.2.2, rfl⟩
    · exact .inl rfl
  · exact .inl rfl

theorem Settled.dropWaiting {P : State → Prop} (h : Settled P) (work : ∀ (u : State) (c : Fin 48) (x : CouplingState),
      u.tow.couplings[c].state = .releasing → u.tow.couplings[c].phase ≠ some .awaitSlack → P u → P (u.endWork c x))
    {s : State} {n : Fin 32} (p : P s) : P (s.dropWaiting n) := by
  unfold State.dropWaiting
  split
  · next i _ =>
    have ended : P (s.endSlot i) := h.slotted _ _ (s.endSlot_slotted i) p
    rcases (s.endSlot i).slotLost_cases s.trans.slots[i] with e | ⟨c, releasing, phase, e⟩ <;> rw [e]
    · exact ended
    · unfold State.abandonRelease
      exact h.formTow _ (h.noteState _ c (h.latch _ _ _ (work _ c _ releasing phase ended)))
  · exact p

/-- A release abandoned (R88, R89): its coupling, the work and the notice. -/
theorem State.abandonRelease_abandons (s : State) (c : Fin 48) :
    (s.abandonRelease c).tow.couplings[c] = { s.tow.couplings[c] with
      state := s.tow.couplings[c].returnState, phase := none, prior := none, waitAt := none } ∧
    (s.abandonRelease c).tow.work = none ∧ (s.abandonRelease c).hasNotice .releaseAbandoned (subjectOf c) := by
  have ended := s.endWork_coupling c c s.tow.couplings[c].returnState
  rw [if_pos rfl] at ended
  have work : (s.endWork c s.tow.couplings[c].returnState).tow.work = none := rfl
  unfold State.abandonRelease
  generalize s.endWork c s.tow.couplings[c].returnState = u at ended work ⊢
  have stands := Coupling.Stands.refl u.tow.couplings[c]
  have coupling := (Steady.stands _ c).formTow _ ((Steady.stands _ c).noteState _ c
    ((Steady.stands _ c).latch u .releaseAbandoned (subjectOf c) stands))
  refine ⟨?_, ?_, ?_⟩
  · rw [← ended]
    exact coupling.same (by rw [ended]; exact nofun)
  · exact (Steady.work none).formTow _ ((Steady.work none).noteState _ c ((Steady.work none).latch u _ _ work))
  · exact (Steady.hasNotice _ _).formTow _ ((Steady.hasNotice _ _).noteState _ c (u.latch_hasNotice _ _))

/-- The waiting order of a failed node that carries an unsent release: the release is abandoned (R89). -/
theorem State.dropWaiting_abandons {s : State} {n : Fin 32} {j : Fin 16} {c : Fin 48} (waits : s.waitingSlot n = some j)
    (owner : s.trans.slots[j].owner = some (.tow c)) (value : s.trans.slots[j].value = .release)
    (releasing : s.tow.couplings[c].state = .releasing) (phase : s.tow.couplings[c].phase ≠ some .awaitSlack) :
    s.dropWaiting n = (s.endSlot j).abandonRelease c := by
  unfold State.dropWaiting
  rw [waits]
  unfold State.slotLost
  dsimp only
  rw [owner]
  exact if_pos ⟨value, releasing, phase⟩

/-! ### A failed node takes no orders -/

/-- A FAILED node with no order waiting. -/
def State.Barren (s : State) (n : Fin 32) : Prop :=
  s.nodes[n].state = .failed ∧ s.waitingSlot n = none

theorem Apart.barren {s t : State} {n : Fin 32} (h : Apart n s t) (b : s.Barren n) : t.Barren n :=
  ⟨h.node.trans b.1, h.waitingSlot.trans b.2⟩

theorem Orderly.barren (n : Fin 32) : Orderly fun s => s.Barren n where
  same s t trans nodes b := Apart.barren (Apart.ofSame n (by rw [trans]) (by rw [nodes])) b
  place s m k x w b := by
    by_cases e : m = n
    · subst e
      rw [State.place_dead (.inl b.1)]
      exact b
    · exact Apart.barren (State.place_apart e _ _ _ _) b
  hold s c i _ b := Apart.barren (s.holdSlot_apart i n) b

/-- The end of a slot leaves a node bare where no other slot waited for it. -/
theorem State.endSlot_bare {s : State} {n : Fin 32} {i : Fin 16}
    (h : ∀ j : Fin 16, i ≠ j → s.trans.slots[j].isWaiting = true → s.trans.slots[j].target ≠ n) :
    (s.endSlot i).waitingSlot n = none := by
  cases e : (s.endSlot i).waitingSlot n with
  | none => rfl
  | some j =>
    obtain ⟨waiting, target⟩ := State.waitingSlot_meets e
    rw [State.endSlot_slot] at waiting target
    split at waiting
    · simp [Slot.isWaiting] at waiting
    · next other =>
      rw [if_neg other] at target
      exact absurd target (h j other waiting)

theorem State.endSlot_barren {s : State} {n : Fin 32} (b : s.Barren n) (i : Fin 16) : (s.endSlot i).Barren n :=
  ⟨b.1, State.endSlot_bare fun j _ => State.waitingSlot_none b.2 j⟩

theorem State.withdrawSlot_barren {s : State} {n : Fin 32} (b : s.Barren n) (i : Fin 16) : (s.withdrawSlot i).Barren n := by
  unfold State.withdrawSlot
  split
  · exact State.endSlot_barren b i
  · exact b

theorem State.endWork_barren {s : State} {n : Fin 32} (b : s.Barren n) (c : Fin 48) (x : CouplingState) :
    (s.endWork c x).Barren n := by
  have dropped : (s.dropRelease c).Barren n := by
    unfold State.dropRelease
    split
    · exact State.withdrawSlot_barren b _
    · exact b
  exact (Orderly.barren n).same _ _ rfl rfl dropped

theorem State.dropWaiting_barren {s : State} {n : Fin 32} (sound : s.SlotsSound) (failed : s.nodes[n].state = .failed) :
    (s.dropWaiting n).Barren n := by
  have steady := (Orderly.barren n).steady
  unfold State.dropWaiting
  split
  · next i found =>
    have ended : (s.endSlot i).Barren n := by
      refine ⟨failed, State.endSlot_bare fun j other waiting target => other ?_⟩
      exact Option.some.inj (found.symm.trans (sound.waitingSlot waiting target))
    rcases (s.endSlot i).slotLost_cases s.trans.slots[i] with e | ⟨c, _, _, e⟩ <;> rw [e]
    · exact ended
    · unfold State.abandonRelease
      exact steady.formTow _ (steady.noteState _ c (steady.latch _ _ _ (State.endWork_barren ended c _)))
  · next found => exact ⟨failed, found⟩

/-- A node with no order waiting and none in flight has FREE slots only. -/
theorem State.SlotsSound.cleared {s : State} (sound : s.SlotsSound) {n : Fin 32} (idle : s.idle? n) (bare : s.waitingSlot n = none)
    {j : Fin 16} (target : s.trans.slots[j].target = n) : s.trans.slots[j].state = .free ∧ s.trans.slots[j].ackAt = none := by
  have quiet : ¬ s.trans.slots[j].inFlight = true := fun h => idle j h target
  have spent : ¬ s.trans.slots[j].isWaiting = true := fun h => State.waitingSlot_none bare j h target
  rw [Slot.inFlight_iff] at quiet
  rw [Slot.isWaiting_iff] at spent
  have free : s.trans.slots[j].state = .free := by
    cases e : s.trans.slots[j].state with
    | free => rfl
    | held => exact absurd (.inl e) spent
    | waiting => exact absurd (.inr (.inl e)) spent
    | queued => exact absurd (.inr (.inr e)) spent
    | sending => exact absurd (.inl e) quiet
    | awaiting => exact absurd (.inr e) quiet
  refine ⟨free, ?_⟩
  cases e : s.trans.slots[j].ackAt with
  | none => rfl
  | some x =>
    have awaiting := sound.timed j (by rw [e]; rfl)
    rw [free] at awaiting
    cases awaiting

/-! ### The third timeout (R143) -/

/-- The state in which a node is marked FAILED at an ack timeout, before its orders and its units are dealt with. -/
def State.failing (s : State) (i : Fin 16) : State :=
  ((s.timedOut i).modNode s.trans.slots[i].target Node.failed).latch .nodeFailed (subjectOf s.trans.slots[i].target)

theorem State.slotTimeout_third {s : State} {i : Fin 16} (h : 3 ≤ s.nodes[s.trans.slots[i].target].timeouts + 1) :
    s.slotTimeout i = ((s.failing i).dropWaiting s.trans.slots[i].target).handOver s.trans.slots[i].target := by
  rw [State.slotTimeout_fails h, State.failNode_eq]
  rfl

/-- The node's entry at its third timeout. -/
def State.failedNode (s : State) (n : Fin 32) : State :=
  s.modNode n fun x => { x with state := .failed, timeouts := s.nodes[n].timeouts + 1, silenceAt := none, refreshAt := none }

theorem State.failing_worked (s : State) (i : Fin 16) :
    Worked .propulsion (s.failedNode s.trans.slots[i].target) (s.failing i) := by
  have marked : s.modNode s.trans.slots[i].target (fun n => Node.failed { n with timeouts := n.timeouts + 1 }) =
      s.failedNode s.trans.slots[i].target := State.modNode_congr rfl
  unfold State.failing
  rw [State.timedOut_modNode, marked]
  exact ((State.endSlot_slotted _ i).worked.trans (State.orderEnded_worked _ _)).trans (State.latch_worked _ _ _ _)

theorem State.failing_state (s : State) (i : Fin 16) : (s.failing i).nodes[s.trans.slots[i].target].state = .failed := by
  rw [(s.failing_worked i).within.nodeState]
  unfold State.failedNode
  rw [State.modNode_node, if_pos rfl]

theorem State.failing_sound {s : State} {i : Fin 16} (sound : s.SlotsSound) : (s.failing i).SlotsSound := by
  refine (s.failing_worked i).slots ?_
  unfold State.failedNode
  refine (s.modNode_worked s.trans.slots[i].target _ fun x => ?_).slots sound
  rfl

theorem State.failing_idle {s : State} {i : Fin 16} (sound : s.SlotsSound) (h : s.trans.slots[i].inFlight = true) :
    (s.failing i).idle? s.trans.slots[i].target := by
  have idle := State.timedOut_idle sound h
  exact (State.latch_worked .propulsion _ .nodeFailed (subjectOf s.trans.slots[i].target)).idle _ idle

/-- What the marking of a node leaves alone. -/
theorem State.failing_same (s : State) (i : Fin 16) : (s.failing i).prop = s.prop ∧ (s.failing i).steer = s.steer ∧
    (s.failing i).fuel = s.fuel ∧ (s.failing i).tow = (s.timedOut i).tow ∧ (s.failing i).trans = (s.endSlot i).trans := by
  have noted := ((s.timedOut i).modNode s.trans.slots[i].target Node.failed).latch_noted .nodeFailed
    (subjectOf s.trans.slots[i].target)
  have ended : ((s.timedOut i).prop = s.prop ∧ (s.timedOut i).steer = s.steer) ∧ (s.timedOut i).fuel = s.fuel := by
    unfold State.timedOut
    rw [State.orderEnded_same]
    exact ⟨⟨rfl, rfl⟩, rfl⟩
  refine ⟨noted.prop.trans ended.1.1, noted.steer.trans ended.1.2, noted.fuel.trans ended.2, noted.tow, ?_⟩
  rw [← State.timedOut_trans]
  exact (congrArg State.trans noted.same :)

theorem State.failing_gone (s : State) (i : Fin 16) :
    ((s.failing i).dropWaiting s.trans.slots[i].target).nodes[s.trans.slots[i].target].state = .failed := by
  rw [(State.dropWaiting_worked _ _).within.nodeState, State.failing_state]

section Third
variable {s : State} {i : Fin 16} (sound : s.SlotsSound) (awaiting : s.trans.slots[i].state = .awaiting)
  (third : 3 ≤ s.nodes[s.trans.slots[i].target].timeouts + 1)

include awaiting in
theorem State.awaiting_idle : s.trans.slots[i].isWaiting = false ∧ s.trans.slots[i].inFlight = true := by
  simp [-Fin.getElem_fin, Slot.isWaiting, Slot.inFlight, awaiting]

include awaiting in
theorem State.failing_waitingSlot (n : Fin 32) : (s.failing i).waitingSlot n = s.waitingSlot n := by
  rw [← State.endSlot_waitingSlot (State.awaiting_idle awaiting).1]
  unfold State.waitingSlot
  rw [(s.failing_same i).2.2.2.2]

include sound awaiting third

/-- The failed node's slots are FREE (R143). -/
theorem State.slotTimeout_cleared {j : Fin 16} (target : (s.slotTimeout i).trans.slots[j].target = s.trans.slots[i].target) :
    (s.slotTimeout i).trans.slots[j].state = .free ∧ (s.slotTimeout i).trans.slots[j].ackAt = none := by
  have flight := (State.awaiting_idle awaiting).2
  have barren := State.dropWaiting_barren (State.failing_sound (i := i) sound) (s.failing_state i)
  have gone := s.failing_gone i
  have sound' := State.slotTimeout_slots sound flight
  have idle := (State.handOver_worked _ s.trans.slots[i].target).idle _ ((State.dropWaiting_worked _ s.trans.slots[i].target).idle _
    (State.failing_idle sound flight))
  rw [State.slotTimeout_third third] at sound' target ⊢
  have bare := (Orderly.barren _).handOver (by rw [gone]; exact nofun) barren
  exact sound'.cleared idle bare.2 target

/-- The slots of the failed node stand in no lane (R143). -/
theorem State.slotTimeout_unlaned {j : Fin 16} : ((s.slotTimeout i).trans.slots[j].state = .free ∧
    ∀ p : PlantPort, j ∉ (s.slotTimeout i).trans.lane p) ∨
      (s.slotTimeout i).trans.slots[j].target ≠ s.trans.slots[i].target := by
  by_cases target : (s.slotTimeout i).trans.slots[j].target = s.trans.slots[i].target
  · have free := (State.slotTimeout_cleared sound awaiting third target).1
    refine .inl ⟨free, fun p m => ?_⟩
    have queued := (((State.slotTimeout_slots sound (State.awaiting_idle awaiting).2).lanes p j).1 m).1
    rw [free] at queued
    cases queued
  · exact .inr target

end Third

/-! ### The couplings at the third timeout -/

/-- A coupling whose release the lost order does not carry stays through the loss. -/
theorem State.dropWaiting_stands {s : State} {c : Fin 48} (n : Fin 32) (h : s.tow.couplings[c].state ≠ .releasing ∨
    s.tow.couplings[c].phase = some .awaitSlack) : s.tow.couplings[c].Stands (s.dropWaiting n).tow.couplings[c] := by
  refine (Settled.stands s.tow.couplings[c] c).dropWaiting (fun u d x releasing phase p => ?_) (Coupling.Stands.refl _)
  have other : d ≠ c := fun e => by
    subst e
    rcases h with state | slack
    · exact state (p.state.symm.trans releasing)
    · rw [p.same (by rw [slack]; exact nofun)] at phase
      exact phase slack
  rw [State.endWork_coupling, if_neg other]
  exact p

/-- A coupling that is not in ORDERED, at a hand-over (R76). -/
theorem State.handOver_coupling_eq {s : State} {n : Fin 32} {c : Fin 48} (gone : s.nodes[n].state ≠ .enrolled)
    (h : s.tow.couplings[c].phase ≠ some .ordered) : (s.handOver n).tow.couplings[c] =
      if s.tow.couplings[c].entry.sensor = some n then s.tow.couplings[c].unheard else s.tow.couplings[c] := by
  have stands := Coupling.Stands.refl s.tow.couplings[c]
  split
  · next sensor =>
    exact (State.handOver_coupling gone stands sensor).1.same (by rw [Coupling.unheard_phase]; exact h)
  · next sensor => exact (State.handOver_coupling_other gone stands sensor).same h

theorem State.handOver_phase {s : State} {n : Fin 32} {c : Fin 48} (gone : s.nodes[n].state ≠ .enrolled)
    (h : s.tow.couplings[c].phase ≠ some .ordered) : (s.handOver n).tow.couplings[c].phase = s.tow.couplings[c].phase := by
  rw [State.handOver_coupling_eq gone h]
  split
  · exact Coupling.unheard_phase _
  · rfl

theorem Coupling.unheard_states (k : Coupling) : k.unheard.state = (if k.state = .slack ∨ k.state = .madeUp ∨
    k.state = .alert ∨ k.state = .overload then .silent else k.state) ∧ k.unheard.waitAt = k.waitAt := by
  unfold Coupling.unheard
  split
  · exact ⟨rfl, rfl⟩
  · split <;> exact ⟨rfl, rfl⟩

section Third
variable {s : State} {i : Fin 16} (awaiting : s.trans.slots[i].state = .awaiting)
  (third : 3 ≤ s.nodes[s.trans.slots[i].target].timeouts + 1)
include awaiting third

/-- A release that ended by the timeout awaits slack, its node FAILED or not (R86). -/
theorem State.slotTimeout_third_awaitSlack {c : Fin 48} (ends : s.ReleaseEnds s.trans.slots[i] c) :
    (s.slotTimeout i).tow.couplings[c].phase = some .awaitSlack := by
  have slack : (s.failing i).tow.couplings[c].phase = some .awaitSlack := by
    rw [(s.failing_same i).2.2.2.1, (State.timedOut_coupling (State.awaiting_idle awaiting).1 c).1 ends]
  have kept := (State.dropWaiting_stands s.trans.slots[i].target (.inr slack)).same (by rw [slack]; exact nofun)
  rw [State.slotTimeout_third third, State.handOver_phase (by rw [State.failing_gone]; exact nofun) (by rw [kept, slack]; exact nofun),
    kept, slack]

/-- A coupling of the failed node is SILENT (R76). -/
theorem State.slotTimeout_third_silent {c : Fin 48} (sensor : s.tow.couplings[c].entry.sensor = some s.trans.slots[i].target)
    (four : s.tow.couplings[c].state = .slack ∨ s.tow.couplings[c].state = .madeUp ∨ s.tow.couplings[c].state = .alert ∨
      s.tow.couplings[c].state = .overload) :
    (s.slotTimeout i).tow.couplings[c].state = .silent ∧ (s.slotTimeout i).tow.couplings[c].sampleAt = none := by
  have idle : s.tow.couplings[c].state ≠ .releasing := fun e => by rw [e] at four; revert four; decide
  have same : (s.failing i).tow.couplings[c] = s.tow.couplings[c] := by
    rw [(s.failing_same i).2.2.2.1, (State.timedOut_coupling (State.awaiting_idle awaiting).1 c).2 fun e => idle e.state]
  have stands := State.dropWaiting_stands (s := s.failing i) (c := c) s.trans.slots[i].target (.inl (by rw [same]; exact idle))
  rw [same] at stands
  have gone := s.failing_gone i
  rw [State.slotTimeout_third third]
  generalize (s.failing i).dropWaiting s.trans.slots[i].target = t at stands gone ⊢
  have silent := (State.handOver_coupling (by rw [gone]; exact nofun) stands (by rw [stands.entry]; exact sensor)).1
  have unheard : s.tow.couplings[c].unheard =
      { s.tow.couplings[c] with sampleAt := none, state := .silent, count := 0 } := if_pos four
  rw [silent.state, silent.sampleAt, unheard]
  exact ⟨rfl, rfl⟩

/-- A release that the failed node still waited to send is abandoned (R89), and its coupling SILENT where the node is its
sensor (R76). -/
theorem State.slotTimeout_third_abandons {j : Fin 16} {c : Fin 48} (waits : s.waitingSlot s.trans.slots[i].target = some j)
    (owner : s.trans.slots[j].owner = some (.tow c)) (value : s.trans.slots[j].value = .release)
    (releasing : s.tow.couplings[c].state = .releasing) (phase : s.tow.couplings[c].phase ≠ some .awaitSlack) :
    (s.slotTimeout i).tow.couplings[c].state =
        (if s.tow.couplings[c].entry.sensor = some s.trans.slots[i].target ∧
            (s.tow.couplings[c].returnState = .slack ∨ s.tow.couplings[c].returnState = .madeUp ∨
              s.tow.couplings[c].returnState = .alert ∨ s.tow.couplings[c].returnState = .overload) then .silent
          else s.tow.couplings[c].returnState) ∧
      (s.slotTimeout i).tow.couplings[c].phase = none ∧ (s.slotTimeout i).tow.couplings[c].waitAt = none ∧
      (s.slotTimeout i).tow.work = none ∧ (s.slotTimeout i).hasNotice .releaseAbandoned (subjectOf c) := by
  obtain ⟨quiet, _⟩ := State.awaiting_idle awaiting
  obtain ⟨waiting, _⟩ := State.waitingSlot_meets waits
  have unsent : s.releaseSlotOf c ≠ none := fun e => by
    have := findTable_none e j
    simp [-Fin.getElem_fin, waiting, owner, value] at this
  have coupling : (s.failing i).tow.couplings[c] = s.tow.couplings[c] := by
    rw [(s.failing_same i).2.2.2.1, (State.timedOut_coupling quiet c).2 fun e => unsent e.sent]
  have slot : (s.failing i).trans.slots[j] = s.trans.slots[j] := by
    rw [(s.failing_same i).2.2.2.2, (State.endSlot_waiting quiet j).2 waiting]
  have drops : (s.failing i).dropWaiting s.trans.slots[i].target = ((s.failing i).endSlot j).abandonRelease c :=
    State.dropWaiting_abandons ((State.failing_waitingSlot awaiting _).trans waits) (by rw [slot]; exact owner)
      (by rw [slot]; exact value) (by rw [coupling]; exact releasing) (by rw [coupling]; exact phase)
  have gone := s.failing_gone i
  obtain ⟨ended, work, notice⟩ := ((s.failing i).endSlot j).abandonRelease_abandons c
  have same : ((s.failing i).endSlot j).tow.couplings[c] = s.tow.couplings[c] := coupling
  rw [same] at ended
  rw [State.slotTimeout_third third]
  rw [drops] at gone ⊢
  generalize ((s.failing i).endSlot j).abandonRelease c = t at gone ended work notice ⊢
  have left : t.nodes[s.trans.slots[i].target].state ≠ .enrolled := by rw [gone]; exact nofun
  rw [State.handOver_coupling_eq left (by rw [ended]; exact nofun), State.handOver_work left, ended]
  have unheard := Coupling.unheard_states { s.tow.couplings[c] with
    state := s.tow.couplings[c].returnState, phase := none, prior := none, waitAt := none }
  refine ⟨?_, ?_, ?_, work, State.handOver_notice notice⟩
  · by_cases sensor : s.tow.couplings[c].entry.sensor = some s.trans.slots[i].target
    · rw [if_pos sensor, unheard.1]
      simp only [sensor, true_and]
    · rw [if_neg sensor, if_neg fun x => sensor x.1]
  · split
    · exact Coupling.unheard_phase _
    · rfl
  · split
    · exact unheard.2
    · rfl

end Third

theorem Coupling.returnState_eq {k : Coupling} (h : k.phase ≠ some .awaitSlack) : k.returnState =
    if k.phase = some .ordered ∧ k.last < k.entry.slack then .slack else k.prior.getD .slack := by
  unfold Coupling.returnState
  dsimp only
  split
  · next e => simp [e]
  · next e => exact absurd e h
  · next e _ => rw [if_neg fun x => e x.1]

/-! ### The units at the third timeout -/

theorem State.endWork_same (s : State) (c : Fin 48) (x : CouplingState) :
    (s.endWork c x).prop = s.prop ∧ (s.endWork c x).steer = s.steer ∧ (s.endWork c x).fuel = s.fuel := by
  have slotted := s.dropRelease_slotted c
  exact ⟨slotted.prop, slotted.steer, (by rw [slotted.same] : (s.dropRelease c).fuel = s.fuel)⟩

section Third
variable {s : State} {i : Fin 16} (third : 3 ≤ s.nodes[s.trans.slots[i].target].timeouts + 1)
include third

theorem State.slotTimeout_third_engine {e : Fin 6} (found : s.engineOf s.trans.slots[i].target = some e)
    (present : s.prop.engines[e].state ≠ .absent) : (s.slotTimeout i).prop.engines[e].state = .lost := by
  have gone := s.failing_gone i
  have prop := (s.failing_same i).1
  have state : ((s.failing i).dropWaiting s.trans.slots[i].target).prop.engines[e].state = s.prop.engines[e].state :=
    (Settled.engineState e _).dropWaiting (fun u c x _ _ p => by rw [(u.endWork_same c x).1]; exact p) (by rw [prop])
  have entry := ((s.failing i).dropWaiting_worked s.trans.slots[i].target).within.written.engines
  rw [State.slotTimeout_third third]
  generalize (s.failing i).dropWaiting s.trans.slots[i].target = t at gone state entry ⊢
  have governs : t.engineOf s.trans.slots[i].target = some e := by
    rw [← found]
    exact findTable_congr fun k => by rw [entry, prop]
  exact State.handOver_engine (by rw [gone]; exact nofun) governs (by rw [state]; exact present)

theorem State.slotTimeout_third_actuator {a : Fin 5} (found : s.actuatorOf s.trans.slots[i].target = some a)
    (present : s.steer.actuators[a].state ≠ .absent) : (s.slotTimeout i).steer.actuators[a].state = .fault := by
  have gone := s.failing_gone i
  have steer := (s.failing_same i).2.1
  have state : ((s.failing i).dropWaiting s.trans.slots[i].target).steer.actuators[a].state = s.steer.actuators[a].state :=
    (Settled.actuatorState a _).dropWaiting (fun u c x _ _ p => by rw [(u.endWork_same c x).2.1]; exact p) (by rw [steer])
  have entry := ((s.failing i).dropWaiting_worked s.trans.slots[i].target).within.written.actuators
  rw [State.slotTimeout_third third]
  generalize (s.failing i).dropWaiting s.trans.slots[i].target = t at gone state entry ⊢
  have moves : t.actuatorOf s.trans.slots[i].target = some a := by
    rw [← found]
    exact findTable_congr fun k => by rw [entry, steer]
  rw [(State.handOver_actuator (by rw [gone]; exact nofun) moves (by rw [state]; exact present)).1, if_pos gone]

theorem State.slotTimeout_third_meter {m : Fin 16} (node : s.fuel.meters[m].entry.node = some s.trans.slots[i].target)
    (counting : s.fuel.meters[m].state = .counting) : (s.slotTimeout i).fuel.meters[m].state = .estimating := by
  have gone := s.failing_gone i
  have fuel : ((s.failing i).dropWaiting s.trans.slots[i].target).fuel = s.fuel :=
    (((s.failing i).dropWaiting_worked s.trans.slots[i].target).within.fuel (by decide)).1.trans (s.failing_same i).2.2.1
  rw [State.slotTimeout_third third]
  generalize (s.failing i).dropWaiting s.trans.slots[i].target = t at gone fuel ⊢
  exact State.handOver_meter (by rw [gone]; exact nofun) (by rw [fuel]; exact node) (by rw [fuel]; exact counting)

theorem State.slotTimeout_third_within : Within .fuel (s.failedNode s.trans.slots[i].target) (s.slotTimeout i) ∧
    (s.slotTimeout i).hasNotice .nodeFailed (subjectOf s.trans.slots[i].target) := by
  have latched : (s.failing i).hasNotice .nodeFailed (subjectOf s.trans.slots[i].target) := State.latch_hasNotice _ _ _
  have dropped := ((s.failing i).dropWaiting_worked s.trans.slots[i].target).within
  have within := (s.failing_worked i).within.mono (y := .fuel) (by decide)
  rw [State.slotTimeout_third third]
  generalize s.failing i = u at within latched dropped ⊢
  exact ⟨(within.trans (dropped.mono (by decide))).trans (State.handOver_worked _ _).within,
    State.handOver_notice (latched.mono dropped.list)⟩

end Third

/-- An ack timeout on a running timer. -/
theorem State.ackTimeout_eq {s : State} {i : Fin 16} {at_ : Nat} (h : s.trans.slots[i].ackAt = some at_) :
    exec (.ackTimeout i) s = .next ((s.reach at_).slotTimeout i) := by
  show Host.Outcome.next (s.expire s.trans.slots[i].ackAt _) = _
  rw [h]
  rfl

theorem State.slotTimeout_idle {s : State} {i : Fin 16} (sound : s.SlotsSound) (flight : s.trans.slots[i].inFlight = true) :
    (s.slotTimeout i).idle? s.trans.slots[i].target := by
  by_cases third : 3 ≤ s.nodes[s.trans.slots[i].target].timeouts + 1
  · rw [State.slotTimeout_third third]
    exact (State.handOver_worked _ _).idle _ ((State.dropWaiting_worked _ _).idle _ (State.failing_idle sound flight))
  · have idle := State.timedOut_idle sound flight
    rw [State.slotTimeout_wakes (Nat.not_le.1 third)]
    exact (State.wakeSlot_slotted _ _ idle).idle _ idle

theorem State.slotTimeout_awaitSlack {s : State} {i : Fin 16} (sound : s.SlotsSound)
    (awaiting : s.trans.slots[i].state = .awaiting) {c : Fin 48} (ends : s.ReleaseEnds s.trans.slots[i] c) :
    (s.slotTimeout i).tow.couplings[c].phase = some .awaitSlack := by
  by_cases third : 3 ≤ s.nodes[s.trans.slots[i].target].timeouts + 1
  · exact State.slotTimeout_third_awaitSlack awaiting third ends
  · rw [(State.slotTimeout_below sound awaiting (Nat.not_le.1 third)).1.tow,
      (State.timedOut_coupling (State.awaiting_idle awaiting).1 c).1 ends]

/-- What the end of the slot leaves alone below the third timeout. -/
theorem State.timedOut_same (s : State) (i : Fin 16) : (s.timedOut i).prop = s.prop ∧ (s.timedOut i).steer = s.steer ∧
    (s.timedOut i).notices = s.notices ∧ (s.timedOut i).fwd = s.fwd := by
  unfold State.timedOut
  rw [State.orderEnded_same]
  exact ⟨rfl, rfl, rfl, rfl⟩

end Sys2Proof.Machine

open Sys2Proof Sys2Proof.Machine

/-- Settles O46: a refresh is at most one placement for the node, the engine's first; an ack timeout ends its slot, and then
wakes the next one or, the third in a row, fails the node, whose units follow as the node is handed on. -/
theorem refreshAndAckTimeout : Obligations.RefreshAndAckTimeout := by
  intro s
  refine ⟨fun n h => ?_, fun i h => ?_, fun n at_ h => ?_, fun i at_ sound h a => ?_⟩
  · show Host.Outcome.next (s.expire s.nodes[n].refreshAt _) = _
    rw [h]
    rfl
  · show Host.Outcome.next (s.expire s.trans.slots[i].ackAt _) = _
    rw [h]
    rfl
  · obtain ⟨t, run, within, prop, steer, tow, notices, fwd, slots, engine, actuator, shut⟩ := State.refreshExpiry_places h
    refine ⟨t, run, within, prop, steer, tow, notices, fwd, slots, engine, fun a moves alive => ?_, ?_⟩
    · have placed := actuator a moves alive
      rw [ActuatorKind.order_eq] at placed
      exact placed
    · intro idle
      refine shut (fun i governs => ?_) fun a moves => ?_
      · rcases idle with dead | ⟨bare, _⟩ | full | ⟨j, waits, other, _⟩
        · exact .inl (by rwa [← not_or, not_not] at dead)
        · exact absurd governs (bare i)
        · exact .inr (.inr full)
        · exact .inr (.inl ⟨j, waits, other i governs⟩)
      · rcases idle with dead | ⟨_, bare⟩ | full | ⟨j, waits, _, other⟩
        · exact .inl (by rwa [← not_or, not_not] at dead)
        · exact absurd moves (bare a)
        · exact .inr (.inr full)
        · refine .inr (.inl ⟨j, waits, ?_⟩)
          rw [ActuatorKind.order_eq]
          exact other a moves
  · have sound' : (s.reach at_).SlotsSound := (State.slots_of_same (s := s) (t := s.reach at_) rfl rfl).1 sound
    have flight := (State.awaiting_idle h).2
    refine ⟨_, State.ackTimeout_eq a, State.slotTimeout_idle sound' flight, fun c owner value state phase sent => ?_,
      fun below => ?_, fun third => ?_⟩
    · exact State.slotTimeout_awaitSlack sound' h ⟨owner, value, state, phase, sent⟩
    · obtain ⟨slotted, slot, woken, kept⟩ := State.slotTimeout_below sound' h below
      obtain ⟨prop, steer, notices, fwd⟩ := (s.reach at_).timedOut_same i
      exact ⟨((s.reach at_).timedOut_within i).trans slotted.worked.within, slotted.prop.trans prop,
        slotted.steer.trans steer, slotted.notices.trans notices, slotted.fwd.trans fwd, slot, woken, kept⟩
    · obtain ⟨within, notice⟩ := State.slotTimeout_third_within (s := s.reach at_) third
      refine ⟨within, notice, fun j target => State.slotTimeout_cleared sound' h third target,
        fun j _ => State.slotTimeout_unlaned sound' h third, fun j c waits owner value releasing phase => ?_,
        fun e found present => State.slotTimeout_third_engine (s := s.reach at_) third found present,
        fun b found present => State.slotTimeout_third_actuator (s := s.reach at_) third found present,
        fun c sensor four => State.slotTimeout_third_silent (s := s.reach at_) h third sensor four,
        fun m node counting => State.slotTimeout_third_meter (s := s.reach at_) third node counting⟩
      have abandons := State.slotTimeout_third_abandons (s := s.reach at_) h third waits owner value releasing phase
      have back : (s.reach at_).tow.couplings[c].returnState =
          if s.tow.couplings[c].phase = some .ordered ∧ s.tow.couplings[c].last < s.tow.couplings[c].entry.slack then .slack
          else s.tow.couplings[c].prior.getD .slack := Coupling.returnState_eq phase
      rw [back] at abandons
      exact abandons

end

