-- ==== Sys2Proof/Proofs/Silences.lean ====
section
/-! PROOF. Proofs/Silences.lean: nodes that become SILENT, one at its silence expiry (R131) or all of a port at a line break
(R132, R150, R171), and the units that follow each of them while the changes of the others are handed on. -/

namespace Sys2Proof.Machine

/-! ### An engine on its way to a halt (R40, R41) -/

/-- An engine that has come to 0 from a side: halted there, or slewing again under a target of the sign of that side. -/
def State.Reined (s : State) (side : LastSign) (y : Engine) : Prop :=
  s.Halted side y ∨ s.helm.modes[s.helm.mode].reversalDwell ≠ 0 ∧ y.slew = .slewing ∧ y.lastSign = side

/-- A recompute leaves such an engine so, and halted under a target of 0. -/
theorem State.Slewed.reined {s : State} {side : LastSign} {x y : Engine} (h : s.Slewed x y) (n : side ≠ .unset)
    (before : x.setpoint = 0) (after : y.setpoint = 0) (r : s.Reined side x) :
    s.Reined side y ∧ (y.target = 0 → s.Halted side y) := by
  have against : y.target = 0 → ∀ z : LastSign, ¬ z.agrees y.target := fun e z => LastSign.not_agrees_zero e
  rcases r with halted | ⟨dwell, slewing, sign⟩
  · unfold State.Halted at halted
    split at halted
    · next zero =>
      obtain ⟨sign, dwellAt, steady, slewing⟩ := halted
      have kept : s.Halted side y := by
        have free : x.slew ≠ .dwelling := by
          by_cases t : x.target = 0
          · rw [(steady t).1]; exact nofun
          · rw [(slewing t).1]; exact nofun
        obtain ⟨sign', dwellAt', steady', slewing'⟩ := h.follows (.inl before) free fun _ => .inr (.inl sign)
        unfold State.Halted
        rw [if_pos zero]
        refine ⟨sign'.trans sign, dwellAt'.trans dwellAt, fun t => steady' (t.trans after.symm), fun t => ?_⟩
        obtain ⟨slew, fromSteady, fromSlewing⟩ := slewing' (by rw [after]; exact t)
        refine ⟨slew, ?_⟩
        by_cases u : x.target = 0
        · exact fromSteady (steady u).1
        · rw [fromSlewing (slewing u).1 (by rw [before]; exact u), (slewing u).2]
          split <;> rfl
      exact ⟨.inl kept, fun _ => kept⟩
    · next dwell =>
      obtain ⟨slew, sign, stepAt, dwellAt⟩ := halted
      by_cases agrees : x.lastSign.agrees y.target
      · obtain ⟨slew', _, _, sign'⟩ := h.cancelled (.inl before) slew agrees
        exact ⟨.inr ⟨dwell, slew', sign'.trans sign⟩, fun t => absurd agrees (against t _)⟩
      · obtain ⟨slew', dwellAt', sign', stepAt'⟩ := h.dwells (.inl before) slew agrees
        have kept : s.Halted side y := by
          unfold State.Halted
          rw [if_neg dwell]
          exact ⟨slew', sign'.trans sign, stepAt' stepAt, dwellAt'.trans dwellAt⟩
        exact ⟨.inl kept, fun _ => kept⟩
  · by_cases agrees : x.lastSign.agrees y.target
    · have target : y.target ≠ y.setpoint := fun t => against (t.trans after) _ agrees
      obtain ⟨sign', _, _, slewing'⟩ := h.follows (.inl before) (by rw [slewing]; exact nofun) fun _ => .inr (.inr agrees)
      exact ⟨.inr ⟨dwell, (slewing' target).1, sign'.trans sign⟩, fun t => absurd agrees (against t _)⟩
    · have kept := h.returns before after slewing (by rw [sign]; exact n) agrees
      rw [sign] at kept
      exact ⟨.inl kept, fun _ => kept⟩

/-- An engine that stands on a side of 0, or has come to 0 from there. -/
def State.Nearing (s : State) (side : LastSign) (y : Engine) : Prop :=
  (y.setpoint ≠ 0 ∧ sideOf y.setpoint = side) ∨ (y.setpoint = 0 ∧ s.Reined side y)

theorem sideOf_set (x : Int) : sideOf x ≠ .unset := by
  unfold sideOf
  split <;> exact nofun

theorem State.Slewed.nearing {s : State} {side : LastSign} {x y : Engine} (h : s.Slewed x y) (n : side ≠ .unset)
    (stays : x.setpoint = 0 → y.setpoint = 0) (keeps : y.setpoint ≠ 0 → sideOf y.setpoint = sideOf x.setpoint)
    (near : s.Nearing side x) : s.Nearing side y ∧ (y.setpoint = 0 → y.target = 0 → s.Halted side y) := by
  rcases near with ⟨running, sign⟩ | ⟨zero, reined⟩
  · by_cases cut : y.setpoint = 0
    · have halted := h.cut running cut
      rw [sign] at halted
      exact ⟨.inr ⟨cut, .inl halted⟩, fun _ _ => halted⟩
    · exact ⟨.inl ⟨cut, (keeps cut).trans sign⟩, fun z => absurd z cut⟩
  · obtain ⟨kept, stopped⟩ := h.reined n zero (stays zero) reined
    exact ⟨.inr ⟨stays zero, kept⟩, fun _ => stopped⟩

/-- A cut keeps the side of a setpoint (R35). -/
theorem Engine.cutValue_side {e : Engine} (h : e.cutValue ≠ 0) : sideOf e.cutValue = sideOf e.setpoint := by
  obtain ⟨_, _, ahead, astern⟩ := e.cutValue_bound
  unfold sideOf
  by_cases pos : 0 ≤ e.setpoint
  · rw [ahead pos] at h ⊢
    rw [if_pos (by omega), if_pos (by omega)]
  · rw [astern (by omega)] at h ⊢
    rw [if_neg (by omega), if_neg (by omega)]

theorem State.recompute_nearing {b s : State} {i : Fin 6} {side : LastSign} (paced : b.Paced s) (n : side ≠ .unset)
    (h : b.Nearing side s.prop.engines[i]) : b.Nearing side s.recompute.prop.engines[i] := by
  have formed := (s.formedEngine_slews i).setpoint
  have setpoint := s.recompute_setpoint i
  refine ((paced.slewed (s.recompute_slewed i)).nearing n (fun z => ?_) (fun z => ?_) h).1
  · rw [setpoint]
    exact Engine.cutValue_zero (formed.trans z)
  · rw [setpoint] at z ⊢
    rw [Engine.cutValue_side z, formed]

/-- A RUNNING engine whose node is still to be handed on; `d` says that it stood at other than 0. -/
theorem Settled.nearing (b : State) (i : Fin 6) {side : LastSign} (n : side ≠ .unset) (d : Prop) : Settled fun s =>
    b.Paced s ∧ s.prop.engines[i].state = .running ∧ (d → b.Nearing side s.prop.engines[i]) where
  recompute s p := by
    refine ⟨p.1.trans s.recompute_within.paced, (Steady.engineState i _).recompute s p.2.1, fun x => ?_⟩
    exact State.recompute_nearing p.1 n (p.2.2 x)
  noted s t m p := ⟨p.1.trans ⟨m.now, State.profile_congr m.helm⟩, by rw [m.prop]; exact p.2⟩
  ceilings _ _ _ _ p := p
  forced _ p := p
  slotted s t m p := ⟨p.1.trans m.paced, by rw [m.prop]; exact p.2⟩

/-- An engine that its node's hand-over has stopped. -/
theorem Settled.stopped (b : State) (i : Fin 6) {side : LastSign} (n : side ≠ .unset) (d : Prop) : Settled fun s =>
    b.Paced s ∧ s.prop.engines[i].state = .lost ∧ s.prop.engines[i].target = 0 ∧ s.prop.engines[i].setpoint = 0 ∧
      (d → b.Halted side s.prop.engines[i]) where
  recompute s p := by
    obtain ⟨paced, lost, _, zero, halted⟩ := p
    obtain ⟨target, setpoint⟩ := State.recompute_idle (by rw [lost]; exact nofun) zero
    refine ⟨paced.trans s.recompute_within.paced, (Steady.engineState i _).recompute s lost, target, setpoint, fun x => ?_⟩
    exact ((paced.slewed (s.recompute_slewed i)).reined n zero setpoint (.inl (halted x))).2 target
  noted s t m p := ⟨p.1.trans ⟨m.now, State.profile_congr m.helm⟩, by rw [m.prop]; exact p.2⟩
  ceilings _ _ _ _ p := p
  forced _ p := p
  slotted s t m p := ⟨p.1.trans m.paced, by rw [m.prop]; exact p.2⟩

/-! ### Units of other nodes -/

theorem State.engineOf_governor {s : State} {n : Fin 32} {i : Fin 6} (h : s.engineOf n = some i) :
    s.prop.engines[i].entry.governor = some n := by
  have found := findTable_meets h
  exact of_decide_eq_true found

theorem State.actuatorOf_node {s : State} {n : Fin 32} {a : Fin 5} (h : s.actuatorOf n = some a) :
    s.steer.actuators[a].entry.node = some n := by
  have found := findTable_meets h
  exact of_decide_eq_true found

section Other
variable {s u : State} (w : WrittenKept s u) {k n : Fin 32} (e : k ≠ n)
include w

theorem WrittenKept.engineOf (n : Fin 32) : u.engineOf n = s.engineOf n :=
  findTable_congr fun i => by rw [w.engines i]

theorem WrittenKept.actuatorOf (n : Fin 32) : u.actuatorOf n = s.actuatorOf n :=
  findTable_congr fun i => by rw [w.actuators i]

include e

theorem WrittenKept.otherEngine {i j : Fin 6} (mine : s.engineOf n = some i) (its : u.engineOf k = some j) : j ≠ i :=
  fun same => by
    have governor := State.engineOf_governor its
    rw [w.engines, same, State.engineOf_governor mine] at governor
    exact e (Option.some.inj governor).symm

theorem WrittenKept.otherActuator {i j : Fin 5} (mine : s.actuatorOf n = some i) (its : u.actuatorOf k = some j) : j ≠ i :=
  fun same => by
    have node := State.actuatorOf_node its
    rw [w.actuators, same, State.actuatorOf_node mine] at node
    exact e (Option.some.inj node).symm

end Other

/-! ### The changes of several nodes handed on, one after another (log entry 14) -/

/-- NODE_SILENT latched for a node, and its change handed on (R131, R134). -/
def State.announce (s : State) (n : Fin 32) : State :=
  (s.latch .nodeSilent (subjectOf n)).handOver n

theorem State.announce_within (s : State) (n : Fin 32) : Within .fuel s (s.announce n) :=
  ((s.latch_worked .fuel .nodeSilent (subjectOf n)).trans (State.handOver_worked _ n)).within

/-- A property of a unit of node `n` while the changes of SILENT nodes are handed on: `Pre` up to `n`'s turn, then `Post`. -/
theorem State.announced {start : State} {l : List (Fin 32)} {n : Fin 32} (d : l.Nodup) (m : n ∈ l)
    (quiet : ∀ k ∈ l, start.nodes[k].state = .silent) {Pre Post : State → Prop}
    (noted : ∀ u t, Noted u t → Pre u → Pre t) (noted' : ∀ u t, Noted u t → Post u → Post t)
    (pre : ∀ u k, k ≠ n → WrittenKept start u → u.nodes[k].state ≠ .enrolled → Pre u → Pre (u.handOver k))
    (turn : ∀ u, WrittenKept start u → u.nodes[n].state = .silent → u.hasNotice .nodeSilent (subjectOf n) → Pre u →
      Post (u.handOver n))
    (post : ∀ u k, k ≠ n → WrittenKept start u → u.nodes[k].state ≠ .enrolled → Post u → Post (u.handOver k))
    (p : Pre start) : Post (l.foldl State.announce start) := by
  have steps : ∀ (u : State) (k : Fin 32), WrittenKept start u ∧ (∀ j ∈ l, u.nodes[j].state = .silent) →
      WrittenKept start (u.announce k) ∧ ∀ j ∈ l, (u.announce k).nodes[j].state = .silent := fun u k w =>
    ⟨w.1.trans (u.announce_within k).written, fun j h => ((u.announce_within k).nodeState j).trans (w.2 j h)⟩
  have latched : ∀ (u : State) (k : Fin 32), k ∈ l → WrittenKept start u ∧ (∀ j ∈ l, u.nodes[j].state = .silent) →
      WrittenKept start (u.latch .nodeSilent (subjectOf k)) ∧
        (u.latch .nodeSilent (subjectOf k)).nodes[k].state = .silent := fun u k h w => by
    have within := (u.latch_worked .propulsion .nodeSilent (subjectOf k)).within
    exact ⟨w.1.trans within.written, (within.nodeState k).trans (w.2 k h)⟩
  refine (foldl_turns (Pre := fun u => (WrittenKept start u ∧ ∀ j ∈ l, u.nodes[j].state = .silent) ∧ Pre u)
    (Post := fun u => (WrittenKept start u ∧ ∀ j ∈ l, u.nodes[j].state = .silent) ∧ Post u)
    (fun u k h e p => ⟨steps u k p.1, ?_⟩) (fun u p => ⟨steps u n p.1, ?_⟩) (fun u k h e p => ⟨steps u k p.1, ?_⟩) d m
    ⟨⟨WrittenKept.refl start, quiet⟩, p⟩).2
  · obtain ⟨written, silent⟩ := latched u k h p.1
    exact pre _ k e written (by rw [silent]; exact nofun) (noted _ _ (u.latch_noted _ _) p.2)
  · obtain ⟨written, silent⟩ := latched u n m p.1
    exact turn _ written silent (u.latch_hasNotice _ _) (noted _ _ (u.latch_noted _ _) p.2)
  · obtain ⟨written, silent⟩ := latched u k h p.1
    exact post _ k e written (by rw [silent]; exact nofun) (noted' _ _ (u.latch_noted _ _) p.2)

theorem Coupling.unheard_sampleAt (k : Coupling) : k.unheard.sampleAt = none := by
  unfold Coupling.unheard
  split
  · rfl
  · split <;> rfl

theorem Coupling.unheard_entry (k : Coupling) : k.unheard.entry = k.entry := by
  unfold Coupling.unheard
  split
  · rfl
  · split <;> rfl

section Announced
variable {start : State} {l : List (Fin 32)} {n : Fin 32} (d : l.Nodup) (m : n ∈ l)
  (quiet : ∀ k ∈ l, start.nodes[k].state = .silent)
include d m quiet

theorem State.announced_notice : (l.foldl State.announce start).hasNotice .nodeSilent (subjectOf n) :=
  State.announced d m quiet (Pre := fun _ => True) (fun _ _ _ p => p) (Steady.hasNotice _ _).noted (fun _ _ _ _ _ p => p)
    (fun _ _ _ h _ => State.handOver_notice h) (fun _ _ _ _ _ => State.handOver_notice) trivial

/-- The engine that a SILENT node governs (R19, R22, R40). -/
theorem State.announced_engine {i : Fin 6} (found : start.engineOf n = some i)
    (present : start.prop.engines[i].state ≠ .absent) :
    (l.foldl State.announce start).prop.engines[i].state = .lost ∧
      (start.prop.engines[i].state ≠ .lost → (l.foldl State.announce start).hasNotice .engineLost (subjectOf i)) := by
  have other : ∀ (x : EngineState) (u : State) (k : Fin 32), k ≠ n → WrittenKept start u → u.nodes[k].state ≠ .enrolled →
      u.prop.engines[i].state = x → (u.handOver k).prop.engines[i].state = x := fun x u k e w gone =>
    (Settled.engineState i x).handOver gone (fun v j g its p => by
      rw [State.modEngine_engine, if_neg (w.otherEngine e found its)]
      exact p) (fun _ _ _ _ p => p) (fun _ _ _ _ _ p => p) (fun _ _ _ _ p => p)
  refine State.announced d m quiet (Pre := fun u => u.prop.engines[i].state = start.prop.engines[i].state)
    (Post := fun u => u.prop.engines[i].state = .lost ∧
      (start.prop.engines[i].state ≠ .lost → u.hasNotice .engineLost (subjectOf i)))
    (Steady.engineState i _).noted
    (fun u t k p => ⟨(Steady.engineState i _).noted u t k p.1, fun x => (p.2 x).mono k.list⟩) (other _) (fun u w silent _ p => ?_)
    (fun u k e w gone p => ⟨other _ u k e w gone p.1, fun x => State.handOver_notice (p.2 x)⟩) rfl
  have gone : u.nodes[n].state ≠ .enrolled := by rw [silent]; exact nofun
  have mine : u.engineOf n = some i := (w.engineOf n).trans found
  rw [← p] at present ⊢
  refine ⟨State.handOver_engine gone mine present, fun x => ?_⟩
  have notice := (State.engineFollows_takes gone mine present).2.1 x
  exact (Steady.hasNotice _ _).afterEngine gone (fun _ _ _ _ p => p) (fun _ _ _ _ _ p => p) (fun _ _ _ _ p => p) notice

/-- A RUNNING engine that a SILENT node governs comes to 0 and dwells (R22, R40). -/
theorem State.announced_stops {b : State} (paced : b.Paced start) {i : Fin 6} (found : start.engineOf n = some i)
    (running : start.prop.engines[i].state = .running) :
    (l.foldl State.announce start).prop.engines[i].target = 0 ∧
      (l.foldl State.announce start).prop.engines[i].setpoint = 0 ∧
      (start.prop.engines[i].setpoint ≠ 0 →
        b.Halted (sideOf start.prop.engines[i].setpoint) (l.foldl State.announce start).prop.engines[i]) := by
  have side := sideOf_set start.prop.engines[i].setpoint
  have near := Settled.nearing b i side (start.prop.engines[i].setpoint ≠ 0)
  have stopped := Settled.stopped b i side (start.prop.engines[i].setpoint ≠ 0)
  have final := State.announced d m quiet near.noted stopped.noted
    (fun u k e w gone => near.handOver gone (fun v j g its p => by
      rw [State.modEngine_engine, if_neg (w.otherEngine e found its)]
      exact p) (fun _ _ _ _ p => p) (fun _ _ _ _ _ p => p) (fun _ _ _ _ p => p))
    (fun u w silent _ p => ?_)
    (fun u k e w gone => stopped.handOver gone (fun v j g its p => by
      rw [State.modEngine_engine, if_neg (w.otherEngine e found its)]
      exact p) (fun _ _ _ _ p => p) (fun _ _ _ _ _ p => p) (fun _ _ _ _ p => p))
    ⟨paced, running, fun x => .inl ⟨x, rfl⟩⟩
  · obtain ⟨_, _, target, setpoint, halted⟩ := final
    exact ⟨target, setpoint, halted⟩
  · have gone : u.nodes[n].state ≠ .enrolled := by rw [silent]; exact nofun
    have mine : u.engineOf n = some i := (w.engineOf n).trans found
    obtain ⟨paced, running, nearing⟩ := p
    obtain ⟨lost, _, stops⟩ := State.engineFollows_takes gone mine (by rw [running]; exact nofun)
    obtain ⟨target, setpoint, slewed⟩ := stops running
    refine stopped.afterEngine gone (fun _ _ _ _ p => p) (fun _ _ _ _ _ p => p) (fun _ _ _ _ p => p)
      ⟨paced.trans (u.engineFollows_worked n).within.paced, lost, target, setpoint, fun x => ?_⟩
    exact ((paced.slewed slewed).nearing side (fun _ => setpoint) (fun y => absurd setpoint y) (nearing x)).2 setpoint target

/-- The actuator of a SILENT node (R60). -/
theorem State.announced_actuator {a : Fin 5} (found : start.actuatorOf n = some a)
    (present : start.steer.actuators[a].state ≠ .absent) :
    (l.foldl State.announce start).steer.actuators[a].state = .lost ∧
      (l.foldl State.announce start).steer.actuators[a].divergeAt = none := by
  have settled : Settled fun u : State => u.steer.actuators[a].state = .lost ∧ u.steer.actuators[a].divergeAt = none :=
    ⟨(Steady.actuatorState a .lost).and (Steady.divergeAt a none), fun s t m p => by rw [m.steer]; exact p⟩
  have before := Settled.actuatorState a start.steer.actuators[a].state
  refine State.announced d m quiet before.noted settled.noted
    (fun u k e w gone => before.handOver gone (fun _ _ _ _ p => p) (fun v j g its p => by
      rw [State.modActuator_actuator, if_neg (w.otherActuator e found its)]
      exact p) (fun _ _ _ _ _ p => p) (fun _ _ _ _ p => p))
    (fun u w silent _ p => ?_)
    (fun u k e w gone => settled.handOver gone (fun _ _ _ _ p => p) (fun v j g its p => by
      rw [State.modActuator_actuator, if_neg (w.otherActuator e found its)]
      exact p) (fun _ _ _ _ _ p => p) (fun _ _ _ _ p => p)) rfl
  have follows := State.handOver_actuator (by rw [silent]; exact nofun) ((w.actuatorOf n).trans found)
    (by rw [p]; exact present)
  rw [silent] at follows
  exact ⟨follows.1, follows.2 nofun⟩

/-- A coupling whose sensor is a SILENT node (R76). -/
theorem State.announced_coupling {c : Fin 48} {k : Coupling} (stands : k.Stands start.tow.couplings[c])
    (sensor : k.entry.sensor = some n) : k.unheard.Stands (l.foldl State.announce start).tow.couplings[c] ∧
      (k.state = .slack ∨ k.state = .madeUp ∨ k.state = .alert ∨ k.state = .overload →
        (l.foldl State.announce start).hasNotice .couplingSilent (subjectOf c)) := by
  have other : ∀ (x : Coupling) (u : State) (j : Fin 32), x.entry = k.entry → j ≠ n → u.nodes[j].state ≠ .enrolled →
      x.Stands u.tow.couplings[c] → x.Stands (u.handOver j).tow.couplings[c] :=
    fun x u j same e gone p => State.handOver_coupling_other gone p fun its => by
      rw [same, sensor] at its
      exact e (Option.some.inj its).symm
  have final : ∀ Q : State → Prop, (∀ u t, Noted u t → Q u → Q t) → (∀ u j, Q u → Q (u.handOver j)) →
      (∀ u : State, k.Stands u.tow.couplings[c] → u.nodes[n].state = .silent → Q (u.handOver n)) →
      k.unheard.Stands (l.foldl State.announce start).tow.couplings[c] ∧ Q (l.foldl State.announce start) :=
    fun Q noted keeps turn => State.announced d m quiet (Pre := fun u => k.Stands u.tow.couplings[c])
      (Post := fun u => k.unheard.Stands u.tow.couplings[c] ∧ Q u) (Steady.stands k c).noted
      (fun u t h p => ⟨(Steady.stands _ c).noted u t h p.1, noted u t h p.2⟩)
      (fun u j e _ gone => other k u j rfl e gone)
      (fun u w silent _ p =>
        ⟨(State.handOver_coupling (by rw [silent]; exact nofun) p (by rw [p.entry]; exact sensor)).1, turn u p silent⟩)
      (fun u j e _ gone p => ⟨other _ u j k.unheard_entry e gone p.1, keeps u j p.2⟩) stands
  refine ⟨(final (fun _ => True) (fun _ _ _ p => p) (fun _ _ p => p) fun _ _ _ => trivial).1, fun four => ?_⟩
  refine (final (fun u => u.hasNotice .couplingSilent (subjectOf c)) (Steady.hasNotice _ _).noted
    (fun _ _ => State.handOver_notice) fun u p silent => ?_).2
  exact (State.handOver_coupling (by rw [silent]; exact nofun) p (by rw [p.entry]; exact sensor)).2 four

/-- A counting meter of a SILENT node (R104). -/
theorem State.announced_meter {i : Fin 16} (node : start.fuel.meters[i].entry.node = some n)
    (counting : start.fuel.meters[i].state = .counting) :
    (l.foldl State.announce start).fuel.meters[i].state = .estimating := by
  have other : ∀ (x : MeterState) (u : State) (k : Fin 32), k ≠ n → u.nodes[k].state ≠ .enrolled →
      u.fuel.meters[i].entry.node = some n ∧ u.fuel.meters[i].state = x →
      (u.handOver k).fuel.meters[i].state = x := fun x u k e gone p => by
    have settled : Settled fun v : State => v.fuel.meters[i].entry.node = some n ∧ v.fuel.meters[i].state = x := by
      refine ⟨⟨fun v q => ?_, fun v t h q => by rw [h.fuel]; exact q, fun _ _ _ _ q => q, fun _ q => q⟩,
        fun v t h q => by rw [h.same]; exact q⟩
      rw [(v.recompute_within.fuel (by decide)).1]
      exact q
    refine (settled.handOver gone (fun _ _ _ _ q => q) (fun _ _ _ _ q => q) (fun _ _ _ _ _ q => q) (fun v j f its q => ?_) p).2
    have apart : j ≠ i := fun same => by
      rw [same, q.1] at its
      exact e (Option.some.inj its).symm
    have meter : (v.modMeter j f).fuel.meters[i] = v.fuel.meters[i] := (modTable_get _ _ _ _).trans (if_neg apart)
    rw [meter]
    exact q
  have named : ∀ u, WrittenKept start u → u.fuel.meters[i].entry.node = some n := fun u w => by rw [w.meters]; exact node
  exact State.announced d m quiet (Steady.meterState i .counting).noted (Steady.meterState i .estimating).noted
    (fun u k e w gone p => other _ u k e gone ⟨named u w, p⟩)
    (fun u w silent _ p => State.handOver_meter (by rw [silent]; exact nofun) (named u w) p)
    (fun u k e w gone p => other _ u k e gone ⟨named u w, p⟩) counting

end Announced

/-- What is made of the units of a node that has become SILENT, from `s` to `t`; the instant and the profile in force are
those of `b`. -/
structure State.Loses (s b t : State) (n : Fin 32) : Prop where
  engines : ∀ i : Fin 6, s.engineOf n = some i → s.prop.engines[i].state ≠ .absent →
    t.prop.engines[i].state = .lost ∧
    (s.prop.engines[i].state ≠ .lost → t.hasNotice .engineLost (subjectOf i)) ∧
    (s.prop.engines[i].state = .running → t.prop.engines[i].target = 0 ∧ t.prop.engines[i].setpoint = 0 ∧
      (s.prop.engines[i].setpoint ≠ 0 → b.Halted (sideOf s.prop.engines[i].setpoint) t.prop.engines[i]))
  actuators : ∀ a : Fin 5, s.actuatorOf n = some a → s.steer.actuators[a].state ≠ .absent →
    t.steer.actuators[a].state = .lost ∧ t.steer.actuators[a].divergeAt = none
  couplings : ∀ c : Fin 48, s.tow.couplings[c].entry.sensor = some n →
    t.tow.couplings[c].sampleAt = none ∧
    (s.tow.couplings[c].state = .slack ∨ s.tow.couplings[c].state = .madeUp ∨ s.tow.couplings[c].state = .alert ∨
        s.tow.couplings[c].state = .overload →
      t.tow.couplings[c].state = .silent ∧ t.tow.couplings[c].count = 0 ∧ t.hasNotice .couplingSilent (subjectOf c)) ∧
    (s.tow.couplings[c].state = .releasing ∨ s.tow.couplings[c].state = .makingUp →
      t.tow.couplings[c].state = s.tow.couplings[c].state ∧ t.tow.couplings[c].prior = some .silent)
  meters : ∀ i : Fin 16, s.fuel.meters[i].entry.node = some n → s.fuel.meters[i].state = .counting →
    t.fuel.meters[i].state = .estimating

/-- The units of each node of a list of SILENT ones. -/
theorem State.announced_loses {b start : State} {l : List (Fin 32)} {n : Fin 32} (d : l.Nodup) (m : n ∈ l)
    (quiet : ∀ k ∈ l, start.nodes[k].state = .silent) (paced : b.Paced start) :
    start.Loses b (l.foldl State.announce start) n where
  engines i found present := by
    obtain ⟨lost, notice⟩ := State.announced_engine d m quiet found present
    exact ⟨lost, notice, State.announced_stops d m quiet paced found⟩
  actuators _ := State.announced_actuator d m quiet
  couplings c sensor := by
    obtain ⟨stands, notice⟩ := State.announced_coupling d m quiet (Coupling.Stands.refl _) sensor
    rw [stands.sampleAt, stands.state, stands.count, stands.prior]
    refine ⟨Coupling.unheard_sampleAt _, fun four => ?_, fun work => ?_⟩
    · rw [Coupling.unheard, if_pos four]
      exact ⟨rfl, rfl, notice four⟩
    · have idle : ¬ (start.tow.couplings[c].state = .slack ∨ start.tow.couplings[c].state = .madeUp ∨
          start.tow.couplings[c].state = .alert ∨ start.tow.couplings[c].state = .overload) := by
        rcases work with e | e <;> rw [e] <;> decide
      rw [Coupling.unheard, if_neg idle, if_pos work]
      exact ⟨rfl, rfl⟩
  meters _ := State.announced_meter d m quiet

/-- The node states before the changes are handed on (R131, R132). -/
theorem State.silenceNodes_node (l : List (Fin 32)) (s : State) (n : Fin 32) :
    (l.foldl State.silenceNode s).nodes[n] =
      if n ∈ l then { s.nodes[n] with state := .silent, silenceAt := none } else s.nodes[n] := by
  have one : ∀ (u : State) (m : Fin 32), (u.silenceNode m).nodes[n] =
      if m = n then { u.nodes[n] with state := .silent, silenceAt := none } else u.nodes[n] := fun u m =>
    State.modNode_node u m n _
  induction l generalizing s with
  | nil => rfl
  | cons m l ih =>
    rw [List.foldl_cons, ih, one]
    by_cases e : m = n
    · subst e
      rw [if_pos rfl, if_pos (List.mem_cons_self ..)]
      split <;> rfl
    · rw [if_neg e]
      by_cases h : n ∈ l
      · rw [if_pos h, if_pos (List.mem_cons_of_mem m h)]
      · rw [if_neg h, if_neg fun x => h ((List.mem_cons.1 x).resolve_left (Ne.symm e))]

/-- The marking of nodes as SILENT touches nothing but the nodes. -/
theorem State.silenceNodes_same (l : List (Fin 32)) (s : State) :
    l.foldl State.silenceNode s = { s with nodes := (l.foldl State.silenceNode s).nodes } :=
  foldl_keeps State.silenceNode (fun u => u = { s with nodes := u.nodes })
    (fun u n e => by
      have marked : u.silenceNode n = { u with nodes := (u.silenceNode n).nodes } := rfl
      rw [marked, e]) l s rfl

theorem State.announceAll_within (l : List (Fin 32)) (s : State) : Within .fuel s (l.foldl State.announce s) :=
  foldl_keeps State.announce (fun u => Within .fuel s u) (fun u n h => h.trans (u.announce_within n)) l s (Within.refl _ s)

/-- The same units as at `s`. -/
theorem State.Loses.congr {r s b t : State} {n : Fin 32} (h : r.Loses b t n) (prop : r.prop = s.prop)
    (steer : r.steer = s.steer) (tow : r.tow = s.tow) (fuel : r.fuel = s.fuel) : s.Loses b t n := by
  have engineOf : r.engineOf n = s.engineOf n := by unfold State.engineOf; rw [prop]
  have actuatorOf : r.actuatorOf n = s.actuatorOf n := by unfold State.actuatorOf; rw [steer]
  obtain ⟨engines, actuators, couplings, meters⟩ := h
  rw [engineOf, prop] at engines
  rw [actuatorOf, steer] at actuators
  rw [tow] at couplings
  rw [fuel] at meters
  exact ⟨engines, actuators, couplings, meters⟩

theorem State.Loses.ofQueues {s b t : State} {n : Fin 32} (h : s.Loses b t n) (q : PerPort (List Frame)) :
    s.Loses b { t with fwd := { t.fwd with queues := q } } n :=
  ⟨h.engines, h.actuators, h.couplings, h.meters⟩

theorem State.nodeSilent_eq (s : State) (n : Fin 32) :
    s.nodeSilent n = [n].foldl State.announce ([n].foldl State.silenceNode s) := by
  simp only [List.foldl_cons, List.foldl_nil]
  rfl

/-- A silence expiry on a running timer (R131). -/
theorem State.silenceExpiry_eq {s : State} {n : Fin 32} {at_ : Nat} (h : s.nodes[n].silenceAt = some at_) :
    exec (.silenceExpiry n) s = .next ([n].foldl State.announce ([n].foldl State.silenceNode (s.reach at_))) := by
  show Host.Outcome.next (s.expire s.nodes[n].silenceAt _) = _
  rw [h]
  show Host.Outcome.next ((s.reach at_).nodeSilent n) = _
  rw [State.nodeSilent_eq]

/-- The nodes that a line break silences (R132). -/
theorem State.mem_enrolledOn (s : State) (p : Port) (n : Fin 32) : n ∈ s.enrolledOn p ↔
    s.nodes[n].state = .enrolled ∧ s.nodes[n].entry.port.port = p := by
  unfold State.enrolledOn
  simp [-Fin.getElem_fin, List.mem_filter, List.mem_finRange]

theorem State.silencePort_eq (s : State) (p : Port) : s.silencePort p =
    (s.enrolledOn p).foldl State.announce ((s.enrolledOn p).foldl State.silenceNode s) := rfl

/-- Nodes of a list silenced and handed on: what becomes of each and of its units. -/
theorem State.silences {s b : State} {l : List (Fin 32)} (d : l.Nodup) (paced : b.Paced s) (n : Fin 32) :
    (n ∈ l → (l.foldl State.announce (l.foldl State.silenceNode s)).nodes[n].state = .silent ∧
      (l.foldl State.announce (l.foldl State.silenceNode s)).nodes[n].silenceAt = none ∧
      (l.foldl State.announce (l.foldl State.silenceNode s)).hasNotice .nodeSilent (subjectOf n) ∧
      s.Loses b (l.foldl State.announce (l.foldl State.silenceNode s)) n) ∧
    (n ∉ l → { (l.foldl State.announce (l.foldl State.silenceNode s)).nodes[n] with nextTag := s.nodes[n].nextTag } =
      s.nodes[n]) := by
  have same := State.silenceNodes_same l s
  have node := State.silenceNodes_node l s
  generalize l.foldl State.silenceNode s = u at same node ⊢
  have kept := (State.announceAll_within l u).nodes (by decide) n
  have quiet : ∀ k ∈ l, u.nodes[k].state = .silent := fun k h => by rw [node k, if_pos h]
  have paced' : b.Paced u := by
    rw [same]
    exact paced
  refine ⟨fun m => ⟨?_, ?_, State.announced_notice d m quiet, (State.announced_loses d m quiet paced').congr
    (by rw [same]) (by rw [same]) (by rw [same]) (by rw [same])⟩,
    fun out => ?_⟩
  · have mine := node n
    rw [if_pos m] at mine
    exact (congrArg Node.state kept).trans (by rw [mine])
  · have mine := node n
    rw [if_pos m] at mine
    exact (congrArg Node.silenceAt kept).trans (by rw [mine])
  · have mine := node n
    rw [if_neg out] at mine
    rw [mine] at kept
    exact kept

/-- The nodes of a port silenced (R132). -/
theorem State.silencePort_silences {s b : State} (p : Port) (paced : b.Paced s) (n : Fin 32) :
    (s.nodes[n].state = .enrolled ∧ s.nodes[n].entry.port.port = p →
      (s.silencePort p).nodes[n].state = .silent ∧ (s.silencePort p).nodes[n].silenceAt = none ∧
        (s.silencePort p).hasNotice .nodeSilent (subjectOf n) ∧ s.Loses b (s.silencePort p) n) ∧
    (¬ (s.nodes[n].state = .enrolled ∧ s.nodes[n].entry.port.port = p) →
      { (s.silencePort p).nodes[n] with nextTag := s.nodes[n].nextTag } = s.nodes[n]) := by
  rw [← State.mem_enrolledOn, State.silencePort_eq]
  exact State.silences ((List.nodup_finRange 32).filter _) paced n

theorem State.breakLine_breaks {s : State} {p : Port} (up : (s.link.ports.get p).line = .up)
    (idle : (s.link.ports.get p).sending = none) : exec (.lineBreak p) s = .next (((s.modLine p fun x =>
      { x with line := .down, assembly := Assembly.empty }).silencePort p).discardQueue p) := by
  show Host.Outcome.next (s.breakLine p) = _
  exact congrArg Host.Outcome.next (if_pos ⟨up, by rw [idle]; rfl⟩)

end Sys2Proof.Machine

open Sys2Proof Sys2Proof.Machine

/-- Settles O45: the nodes silenced are marked first, and then the change of each is handed on; while the units of the other
nodes follow, an engine that comes to 0 stays reined to the side it came from, so that its own turn halts it there. -/
theorem silenceAndLineBreak : Obligations.SilenceAndLineBreak := by
  refine fun s => ⟨fun n at_ h => ?_, fun p up idle => ?_, fun p h => ?_⟩
  · obtain ⟨silent, _⟩ := State.silences (s := s.reach at_) (b := s.reach at_) (List.nodup_singleton n) (.refl _) n
    obtain ⟨_, _, notice, loses⟩ := silent (List.mem_singleton.2 rfl)
    have lost := loses.congr (s := s) rfl rfl rfl rfl
    exact ⟨_, State.silenceExpiry_eq h, State.announceAll_within [n] _, notice, lost.engines, lost.actuators, lost.couplings,
      lost.meters⟩
  · have breaks := State.breakLine_breaks up idle
    have same : ∀ f : Line → Line, s.Paced (s.modLine p f) := fun _ => ⟨rfl, rfl⟩
    have silences := fun n => State.silencePort_silences p (same fun x => { x with line := .down, assembly := Assembly.empty }) n
    have within := ((s.modLine p fun x => { x with line := .down, assembly := Assembly.empty }).silencePort_worked p).within
    generalize (s.modLine p fun x => { x with line := .down, assembly := Assembly.empty }).silencePort p = u
      at breaks silences within
    refine ⟨_, u, breaks, within, rfl, fun n => ⟨fun enrolled port => ?_, fun out => ?_⟩⟩
    · obtain ⟨state, timer, notice, loses⟩ := (silences n).1 ⟨enrolled, port⟩
      have lost := (loses.congr (s := s) rfl rfl rfl rfl).ofQueues (u.fwd.queues.set p [])
      exact ⟨state, timer, notice, lost.engines, lost.actuators, lost.couplings, lost.meters⟩
    · exact (silences n).2 fun x => out.elim (fun e => e x.1) fun e => e x.2
  · show Host.Outcome.next (s.breakLine p) = _
    refine congrArg Host.Outcome.next (if_neg fun x => ?_)
    rcases h with down | sending
    · rw [down] at x
      cases x.1
    · rw [Option.isSome_iff_ne_none] at sending
      exact sending (Option.isNone_iff_eq_none.1 x.2)

end

