-- ==== Sys2Proof/Proofs/Acknowledgements.lean ====
section
/-! PROOF. Proofs/Acknowledgements.lean: the ACKs (R140, R141): the slot that an ACK completes, the order that it wakes, and
the content read as status by the owner of the slot, or by the block that names the node. -/

namespace Sys2Proof.Machine

/-! ### The slot that an ACK completes (R140) -/

/-- A slot that an ACK of a kind and TAG from a node completes. -/
structure State.Awaited (s : State) (n : Fin 32) (tag : Nibble) (full : Bool) (i : Fin 16) : Prop where
  target : s.trans.slots[i].target = n
  state : s.trans.slots[i].state = .awaiting
  tag : s.trans.slots[i].tag = tag
  kind : s.trans.slots[i].kind = .setpoint ↔ full = true

theorem State.SlotsSound.flightSlot {s : State} (h : s.SlotsSound) {i : Fin 16} {n : Fin 32}
    (flight : s.trans.slots[i].inFlight = true) (target : s.trans.slots[i].target = n) : s.flightSlot n = some i := by
  refine findTable_unique (by rw [flight, target]; simp) fun k found => ?_
  simp only [Bool.and_eq_true, decide_eq_true_eq] at found
  exact h.oneFlight k i found.1 flight (found.2.trans target.symm)

theorem State.completes_awaited {s : State} (h : s.SlotsSound) {n : Fin 32} {tag : Nibble} {full : Bool} {i : Fin 16}
    (a : s.Awaited n tag full i) : s.completes n tag full = some i := by
  unfold State.completes
  rw [h.flightSlot ((Slot.inFlight_iff _).2 (.inr a.state)) a.target]
  exact if_pos ⟨a.state, a.tag, a.kind⟩

theorem State.completes_none {s : State} {n : Fin 32} {tag : Nibble} {full : Bool}
    (h : ∀ i, ¬ s.Awaited n tag full i) : s.completes n tag full = none := by
  unfold State.completes
  split
  · next i found =>
    refine if_neg fun x => h i ⟨(State.flightSlot_meets found).2, x.1, x.2.1, x.2.2⟩
  · rfl

/-! ### A slot completed (R140) -/

/-- The consecutive timeouts of a node brought to 0. -/
def State.answered (s : State) (n : Fin 32) : State :=
  s.modNode n fun x => { x with timeouts := 0 }

theorem State.complete_eq (s : State) (n : Fin 32) (i : Fin 16) :
    s.complete n i = ((s.answered n).endSlot i).orderEnded s.trans.slots[i] := rfl

theorem State.complete_worked (s : State) (n : Fin 32) (i : Fin 16) : Worked .propulsion (s.answered n) (s.complete n i) := by
  rw [State.complete_eq]
  exact (State.endSlot_slotted _ i).worked.trans (State.orderEnded_worked _ _)

/-- The owner of an ANGLE, BOW or SETPOINT is told nothing but the content. -/
theorem State.complete_plain {s : State} {n : Fin 32} {i : Fin 16}
    (h : ∀ c, s.trans.slots[i].owner ≠ some (.tow c)) : s.complete n i = (s.answered n).endSlot i := by
  rw [State.complete_eq]
  unfold State.orderEnded
  split
  · next c owner => exact absurd owner (h c)
  · rfl

theorem State.complete_same (s : State) (n : Fin 32) (i : Fin 16) : (s.complete n i).trans = (s.endSlot i).trans ∧
    (s.complete n i).prop = s.prop ∧ (s.complete n i).steer = s.steer := by
  rw [State.complete_eq, State.orderEnded_same]
  exact ⟨rfl, rfl, rfl⟩

section Completed
variable {s : State} {n : Fin 32} {i : Fin 16} (sound : s.SlotsSound) (awaiting : s.trans.slots[i].state = .awaiting)
  (target : s.trans.slots[i].target = n)
include sound

theorem State.complete_sound : (s.complete n i).SlotsSound := by
  refine (s.complete_worked n i).slots ?_
  refine (s.modNode_worked n (fun x => { x with timeouts := 0 }) fun x => ?_).slots sound
  rfl

include awaiting target

theorem State.complete_idle : (s.complete n i).idle? n := by
  have idle := State.endSlot_idle sound (State.awaiting_idle awaiting).2
  rw [target] at idle
  rw [State.complete_eq]
  exact (State.orderEnded_worked _ _).idle n idle

omit sound target in
theorem State.complete_awaitSlack {c : Fin 48} (ends : s.ReleaseEnds s.trans.slots[i] c) :
    (s.complete n i).tow.couplings[c].phase = some .awaitSlack := by
  have sent : ((s.answered n).endSlot i).releaseSlotOf c = none :=
    (State.endSlot_releaseSlotOf (State.awaiting_idle awaiting).1 c).trans ends.sent
  have ended : ((s.answered n).endSlot i).ReleaseEnds s.trans.slots[i] c :=
    ⟨ends.owner, ends.value, ends.state, ends.phase, sent⟩
  rw [State.complete_eq, State.orderEnded_release ended]

end Completed

/-- The node's WAITING order, where its slot is woken (R140). -/
theorem State.wakeSlot_woken {s : State} (sound : s.SlotsSound) {n : Fin 32} {j : Fin 16}
    (waiting : s.trans.slots[j].state = .waiting) (target : s.trans.slots[j].target = n) :
    (s.wakeSlot n).trans.slots[j].state = .queued ∧ j ∈ (s.wakeSlot n).trans.lane s.nodes[n].entry.port := by
  have found := sound.waitingSlot ((Slot.isWaiting_iff _).2 (.inr (.inl waiting))) target
  obtain ⟨queued, lane⟩ := State.wakeSlot_wakes found waiting
  rw [queued, lane]
  exact ⟨rfl, List.mem_append_right _ (List.mem_singleton.2 rfl)⟩

/-! ### Slots that the reading of a content leaves (R136, R137, R138) -/

/-- The work of the units leaves an order in flight. -/
theorem Orderly.inFlight {x : Slot} (h : x.inFlight = true) (j : Fin 16) : Orderly fun s => s.trans.slots[j] = x where
  same s t trans _ p := by rw [trans]; exact p
  place s n k y w p := by
    have used : s.trans.slots[j].state ≠ .free := fun e => by
      rw [p] at e
      rw [Slot.inFlight_iff, e] at h
      simp at h
    refine (State.place_keeps used (fun e => ?_) k _ w none).trans p
    have waiting := (State.waitingSlot_meets e).1
    rw [p, Slot.isWaiting_iff] at waiting
    rw [Slot.inFlight_iff] at h
    rcases h with h | h <;> rw [h] at waiting <;> simp at waiting
  hold s c i found p := by
    unfold State.holdSlot
    split
    · next waiting =>
      have slot : ((s.modSlot i fun x => { x with state := .held }).leaveLane i).trans.slots[j] =
          if i = j then { s.trans.slots[j] with state := .held } else s.trans.slots[j] :=
        State.modSlot_slot s i j fun x => { x with state := .held }
      rw [slot, if_neg, p]
      intro e
      subst e
      rw [p] at waiting
      rw [Slot.inFlight_iff] at h
      rcases h with h | h <;> rw [h] at waiting <;> simp at waiting
    · exact p

/-- A WAITING order of a node in a slot, other than a release. -/
structure Slot.Behind (x : Slot) (n : Fin 32) : Prop where
  state : x.state = .waiting
  target : x.target = n
  value : x.value ≠ .release

/-- The work of the units leaves a WAITING order, but for its value. -/
theorem Orderly.behind (n : Fin 32) (j : Fin 16) : Orderly fun s => s.trans.slots[j].Behind n where
  same s t trans _ p := by rw [trans]; exact p
  place s m k y w p := by
    rcases s.place_forms m k (.amount y) w none with e | ⟨i, _, _, e⟩ | ⟨i, _, free, e⟩ <;> rw [e]
    · exact p
    · rw [State.supersede_slot]
      split
      · exact ⟨p.state, p.target, nofun⟩
      · exact p
    · rw [State.fillSlot_slot, if_neg]
      · exact p
      · intro same
        subst same
        rw [p.state] at free
        cases free
  hold s c i found p := by
    unfold State.holdSlot
    split
    · have slot : ((s.modSlot i fun x => { x with state := .held }).leaveLane i).trans.slots[j] =
          if i = j then { s.trans.slots[j] with state := .held } else s.trans.slots[j] :=
        State.modSlot_slot s i j fun x => { x with state := .held }
      rw [slot, if_neg]
      · exact p
      · intro e
        subst e
        have release := findTable_meets found
        simp only [Bool.and_eq_true, decide_eq_true_eq] at release
        exact p.value release.2
    · exact p

section Readings
variable {P : State → Prop} (h : Orderly P)
include h

theorem Orderly.actuatorReport (s : State) (n : Fin 32) (v : Half) (g : Option FaultFlag) (p : P s) :
    P (s.actuatorReport n v g) := by
  have told : ∀ i, P (s.modActuator i fun a => { a with reported := v.toInt }) := fun i => h.modActuator s i _ p
  have faulted : ∀ (u : State) (i : Fin 5), P u → P (u.faultActuator i).reviewForced := fun u i q =>
    h.steady.reviewForced _ (h.steady.latch _ _ _ (h.modActuator u i _ q))
  unfold State.actuatorReport
  split
  · next i _ =>
    dsimp only
    split
    · exact faulted _ i (told i)
    · exact faulted _ i (told i)
    · exact h.modActuator _ i _ (told i)
    · exact h.steady.reviewForced _ (h.modActuator _ i _ (told i))
    · exact h.steady.reviewForced _ (h.modActuator _ i _ (h.placeOrdered _ i (h.modActuator _ i _ (told i))))
    · exact told i
  · exact p

theorem Orderly.engineReport (s : State) (n : Fin 32) (r : RunState) (l : Half) (a : AlarmLevel) (p : P s) :
    P (s.engineReport n r l a) := by
  cases found : s.engineOf n with
  | none =>
    rw [State.engineReport_none found]
    exact p
  | some i =>
    rw [State.engineReport_some found]
    refine h.reviewZero _ ?_
    have informed : P (s.informed i r l a) := h.noted _ _ (s.informed_noted i r l a) (h.modEngine s i _ p)
    unfold State.followed
    split
    · exact h.moveEngine _ i _ informed
    · split
      · exact h.recompute _ informed
      · exact informed

end Readings

/-! ### An ECHO read by steering (R61, R62, R65) -/

theorem State.ForcedSound.holds {s : State} (h : s.ForcedSound) : s.forcedHolds = s.steer.forced :=
  Bool.eq_iff_iff.2 (s.forcedHolds_iff.trans h.symm)

theorem Actuator.outside_reported (a : Actuator) (v : Half) : Actuator.outside { a with reported := v.toInt } =
    decide (a.entry.band < (v.toInt - a.ordered).natAbs) := by
  unfold Actuator.outside
  simp only [Nat.cast_lt]

/-- The divergence test after an ECHO, READY (R62). -/
theorem Actuator.told_ready (s : State) (a : Actuator) (v : Half) (h : a.state = .ready) :
    s.testActuator { a with reported := v.toInt } = a.told s.now v := by
  have timer : s.after (ms (a.entry.time * 100)) = some (s.now + 100000 * a.entry.time) := by
    unfold State.after ms
    congr 1
    ring
  unfold State.testActuator Actuator.told
  dsimp only
  rw [Actuator.outside_reported, h]
  dsimp only
  generalize decide (a.entry.band < (v.toInt - a.ordered).natAbs) = out
  cases out with
  | false => simp
  | true =>
    rw [timer]
    cases a.divergeAt with
    | none => simp
    | some x => simp

/-- The divergence test after an ECHO, DIVERGED (R62). -/
theorem Actuator.told_diverged (s : State) (a : Actuator) (v : Half) (h : a.state = .diverged) :
    s.testActuator { a with reported := v.toInt } = a.told s.now v := by
  unfold State.testActuator Actuator.told
  dsimp only
  rw [Actuator.outside_reported, h]
  dsimp only
  generalize decide (a.entry.band < (v.toInt - a.ordered).natAbs) = out
  cases out with
  | false => simp
  | true => simp

/-- No divergence test in the other states. -/
theorem Actuator.told_idle (a : Actuator) (now : Nat) (v : Half) (h : a.state ≠ .ready) (k : a.state ≠ .diverged) :
    a.told now v = { a with reported := v.toInt } := by
  unfold Actuator.told
  simp [h, k]

theorem State.modActuator_congr {s : State} {i : Fin 5} {f g : Actuator → Actuator}
    (h : f s.steer.actuators[i] = g s.steer.actuators[i]) : s.modActuator i f = s.modActuator i g := by
  unfold State.modActuator modTable
  rw [show f s.steer.actuators[i] = g s.steer.actuators[i] from h]

theorem State.modActuator_modActuator (s : State) (i : Fin 5) (f g : Actuator → Actuator) :
    (s.modActuator i f).modActuator i g = s.modActuator i fun a => g (f a) := by
  unfold State.modActuator modTable
  simp

/-- An ECHO read by steering: the actuator is told, and the forced steer-assist field follows a return to READY. -/
theorem State.echoReport_within {s : State} {n : Fin 32} {a : Fin 5} (forced : s.ForcedSound)
    (found : s.actuatorOf n = some a) (v : Half) :
    Within .propulsion (s.modActuator a fun x => x.told s.now v).setForced (s.actuatorReport n v none) := by
  have still : ∀ u, u = s.modActuator a (fun x => x.told s.now v) →
      (s.steer.actuators[a].told s.now v).state = s.steer.actuators[a].state →
      Within .propulsion (s.modActuator a fun x => x.told s.now v).setForced u := fun u e same => by
    have sound := State.modActuator_forced forced a (fun x => x.told s.now v) ⟨rfl, same⟩
    rw [e, State.setForced_same sound.holds]
    exact Within.refl _ _
  have tested : ∀ f : Actuator → Actuator, f { s.steer.actuators[a] with reported := v.toInt } = s.steer.actuators[a].told s.now v →
      (s.modActuator a fun x => { x with reported := v.toInt }).modActuator a f = s.modActuator a fun x => x.told s.now v :=
    fun f e => by
      rw [State.modActuator_modActuator]
      exact State.modActuator_congr e
  have reports : s.actuatorReport n v none =
      match s.steer.actuators[a].state with
      | .ready => (s.modActuator a fun x => { x with reported := v.toInt }).modActuator a s.testActuator
      | .diverged => ((s.modActuator a fun x => { x with reported := v.toInt }).modActuator a s.testActuator).reviewForced
      | _ => s.modActuator a fun x => { x with reported := v.toInt } := by
    unfold State.actuatorReport
    rw [found]
    cases e : s.steer.actuators[a].state <;> simp only [e] <;> rfl
  rw [reports]
  cases e : s.steer.actuators[a].state with
  | ready =>
    refine still _ (tested _ (Actuator.told_ready s _ v e)) ?_
    rw [← Actuator.told_ready s _ v e]
    exact ((s.testActuator_same { s.steer.actuators[a] with reported := v.toInt }).2.2.1 e).trans e.symm
  | diverged =>
    dsimp only
    rw [tested _ (Actuator.told_diverged s _ v e)]
    exact (Within.refl .propulsion (s.modActuator a fun x => x.told s.now v)).reviewForced
  | _ =>
    have idle : s.steer.actuators[a].told s.now v = { s.steer.actuators[a] with reported := v.toInt } :=
      Actuator.told_idle _ _ v (by rw [e]; exact nofun) (by rw [e]; exact nofun)
    exact still _ (State.modActuator_congr idle.symm) (by rw [idle])

/-! ### What follows a slot completed -/

section Acked
variable {s z : State} {n : Fin 32} {i : Fin 16} (sound : s.SlotsSound) (awaiting : s.trans.slots[i].state = .awaiting)
  (target : s.trans.slots[i].target = n) (worked : Worked .units (s.complete n i) z)
include sound awaiting target worked

/-- The waking of the node's next order after a slot completed and its content read. -/
theorem State.acked_slotted : Slotted z (z.wakeSlot n) ∧ (z.wakeSlot n).idle? n := by
  have idle := worked.idle n (State.complete_idle sound awaiting target)
  have slotted := z.wakeSlot_slotted n idle
  exact ⟨slotted, slotted.idle n idle⟩

/-- A WAITING order of the node is woken, where it is no release or the content was read by no unit (R140). -/
theorem State.acked_woken (keeps : ∀ P : State → Prop, Orderly P → P (s.complete n i) → P z) {alone : Prop}
    (same : alone → z.trans = (s.complete n i).trans) {j : Fin 16} (waiting : s.trans.slots[j].state = .waiting)
    (behind : s.trans.slots[j].target = n) (plain : s.trans.slots[j].value ≠ .release ∨ alone) :
    (z.wakeSlot n).trans.slots[j].state = .queued ∧ j ∈ (z.wakeSlot n).trans.lane s.nodes[n].entry.port := by
  have other : i ≠ j := fun e => by
    rw [← e, awaiting] at waiting
    cases waiting
  have slot : (s.complete n i).trans.slots[j] = s.trans.slots[j] := by
    rw [(s.complete_same n i).1, State.endSlot_slot, if_neg other]
  have still : z.trans.slots[j].state = .waiting ∧ z.trans.slots[j].target = n := by
    rcases plain with value | bare
    · have kept := keeps _ (Orderly.behind n j) (by rw [slot]; exact ⟨waiting, behind, value⟩)
      exact ⟨kept.state, kept.target⟩
    · rw [same bare, slot]
      exact ⟨waiting, behind⟩
  have port : z.nodes[n].entry.port = s.nodes[n].entry.port := by
    have answered : (s.answered n).nodes[n].entry = s.nodes[n].entry := by
      unfold State.answered
      rw [State.modNode_node, if_pos rfl]
    rw [worked.within.written.nodes, (s.complete_worked n i).within.written.nodes, answered]
  rw [← port]
  exact State.wakeSlot_woken (worked.slots (State.complete_sound sound)) still.1 still.2

end Acked

/-! ### ECHO -/

/-- The position of an ECHO from a node read as status, from `b` to `t`; `s` names the actuator. -/
structure State.Positioned (s b t : State) (n : Fin 32) (v : Half) : Prop where
  bare : s.actuatorOf n = none → Within .propulsion b t ∧ t.prop = s.prop ∧ t.steer = s.steer
  told : ∀ a : Fin 5, s.actuatorOf n = some a → Within .propulsion (b.modActuator a fun y => y.told s.now v).setForced t

theorem State.Positioned.slotted {s b t u : State} {n : Fin 32} {v : Half} (h : s.Positioned b t n v) (k : Slotted t u) :
    s.Positioned b u n v where
  bare found := by
    obtain ⟨within, prop, steer⟩ := h.bare found
    exact ⟨within.trans k.worked.within, k.prop.trans prop, k.steer.trans steer⟩
  told a found := (h.told a found).trans k.worked.within

theorem State.actuatorReport_none {s : State} {n : Fin 32} (h : s.actuatorOf n = none) (v : Half) (g : Option FaultFlag) :
    s.actuatorReport n v g = s := by
  unfold State.actuatorReport
  rw [h]

theorem State.echoReport_positions {s : State} (forced : s.ForcedSound) (n : Fin 32) (v : Half) :
    s.Positioned s (s.actuatorReport n v none) n v where
  bare found := by
    rw [State.actuatorReport_none found]
    exact ⟨Within.refl _ s, rfl, rfl⟩
  told _ found := State.echoReport_within forced found v

/-- The same where a slot ended before. -/
theorem State.echoReport_endSlot {s : State} (forced : s.ForcedSound) (n : Fin 32) (i : Fin 16) (v : Half) :
    s.Positioned s ((s.endSlot i).actuatorReport n v none) n v where
  bare found := by
    rw [State.actuatorReport_none (s := s.endSlot i) found]
    exact ⟨(s.endSlot_slotted i).worked.within, rfl, rfl⟩
  told a found := by
    have ended := ((s.modActuator a fun y => y.told s.now v).endSlot_slotted i).worked.within.setForced
    exact ended.trans (State.echoReport_within (s := s.endSlot i) forced found v)

theorem State.echoOwner_steering {s : State} {n : Fin 32} {x : Slot} {a : Fin 5} (h : x.owner = some (.steering a))
    (enrolled : s.nodes[n].state = .enrolled) (v : Half) : s.echoOwner n x v = s.actuatorReport n v none := by
  unfold State.echoOwner
  rw [h]
  exact if_pos enrolled

theorem State.echoOwner_other {s : State} {n : Fin 32} {x : Slot} (h : ∀ a, x.owner ≠ some (.steering a)) (v : Half) :
    s.echoOwner n x v = s := by
  unfold State.echoOwner
  split
  · next a owner => exact absurd owner (h a)
  · rfl

theorem State.echoOwner_cases (s : State) (n : Fin 32) (x : Slot) (v : Half) :
    s.echoOwner n x v = s ∨ s.echoOwner n x v = s.actuatorReport n v none := by
  unfold State.echoOwner
  split
  · unfold State.readEcho
    split
    · exact .inr rfl
    · exact .inl rfl
  · exact .inl rfl

section Echo
variable {s : State} {p : Port} {o : Origin} {n : Fin 32} (source : s.nodeOf p o.src = some n)
  (enrolled : s.nodes[n].state = .enrolled)
include source enrolled

theorem State.takeEcho_status (h : ∀ i, ¬ s.Awaited n o.tag false i) (v : Half) :
    s.takeEcho p o v = s.actuatorReport n v none := by
  unfold State.takeEcho
  rw [source]
  dsimp only
  rw [if_neg (by rw [enrolled]; exact nofun), State.completes_none h]
  exact if_pos enrolled

theorem State.takeEcho_completes (sound : s.SlotsSound) {i : Fin 16} (h : s.Awaited n o.tag false i) (v : Half) :
    s.takeEcho p o v = ((s.complete n i).echoOwner n s.trans.slots[i] v).wakeSlot n := by
  unfold State.takeEcho
  rw [source]
  dsimp only
  rw [if_neg (by rw [enrolled]; exact nofun), State.completes_awaited sound h]

end Echo

/-! ### FULL -/

/-- The content of a FULL from a node read as status, from `b` to `t`; `s` names the engine. -/
structure State.Fulled (s b t : State) (n : Fin 32) (r : RunState) (l : Half) (a : AlarmLevel) : Prop where
  bare : s.engineOf n = none → Within .propulsion b t ∧ t.prop = s.prop ∧ t.steer = s.steer
  told : ∀ e : Fin 6, s.engineOf n = some e →
    Within .propulsion (b.modEngine e fun y => y.told r l a) t ∧
    ((s.prop.engines[e].told r l a).state = .tripped → s.prop.engines[e].state ≠ .tripped →
      t.hasNotice .engineTrip (subjectOf e)) ∧
    (s.prop.engines[e].state = .running → (s.prop.engines[e].told r l a).state ≠ .running →
      t.prop.engines[e].target = 0 ∧ t.prop.engines[e].setpoint = 0)

section Full
variable {s : State} {n : Fin 32} {r : RunState} {l : Half} {a : AlarmLevel}

theorem State.Fulled.slotted {b t u : State} (h : s.Fulled b t n r l a) (k : Slotted t u) : s.Fulled b u n r l a where
  bare found := by
    obtain ⟨within, prop, steer⟩ := h.bare found
    exact ⟨within.trans k.worked.within, k.prop.trans prop, k.steer.trans steer⟩
  told e found := by
    obtain ⟨within, trip, stops⟩ := h.told e found
    refine ⟨within.trans k.worked.within, fun x y => (trip x y).mono k.worked.within.list, fun x y => ?_⟩
    rw [k.prop]
    exact stops x y

theorem State.engineReport_fulled (s : State) (n : Fin 32) (r : RunState) (l : Half) (a : AlarmLevel) :
    s.Fulled s (s.engineReport n r l a) n r l a where
  bare found := by
    rw [State.engineReport_none found]
    exact ⟨Within.refl _ s, rfl, rfl⟩
  told e found := by
    have reports := State.engineReport_reports found r l a
    rw [Engine.told_eq]
    exact ⟨reports.within, reports.trip, reports.stops⟩

/-- The same where a slot ended before. -/
theorem State.engineReport_endSlot (s : State) (n : Fin 32) (i : Fin 16) (r : RunState) (l : Half) (a : AlarmLevel) :
    s.Fulled s ((s.endSlot i).engineReport n r l a) n r l a where
  bare found := by
    rw [State.engineReport_none (s := s.endSlot i) found]
    exact ⟨(s.endSlot_slotted i).worked.within, rfl, rfl⟩
  told e found := by
    have ended := ((s.modEngine e fun y => y.told r l a).endSlot_slotted i).worked.within
    have reports := ((s.endSlot i).engineReport_fulled n r l a).told e found
    exact ⟨ended.trans reports.1, reports.2⟩

theorem State.fullOwner_propulsion {x : Slot} {e : Fin 6} (h : x.owner = some (.propulsion e))
    (enrolled : s.nodes[n].state = .enrolled) (r : RunState) (l : Half) (a : AlarmLevel) :
    s.fullOwner n x r l a = s.engineReport n r l a := by
  unfold State.fullOwner
  rw [h]
  exact if_pos enrolled

theorem State.fullOwner_other {x : Slot} (h : ∀ e, x.owner ≠ some (.propulsion e)) (r : RunState) (l : Half)
    (a : AlarmLevel) : s.fullOwner n x r l a = s := by
  unfold State.fullOwner
  split
  · next e owner => exact absurd owner (h e)
  · rfl

theorem State.fullOwner_cases (s : State) (n : Fin 32) (x : Slot) (r : RunState) (l : Half) (a : AlarmLevel) :
    s.fullOwner n x r l a = s ∨ s.fullOwner n x r l a = s.engineReport n r l a := by
  unfold State.fullOwner
  split
  · unfold State.readFull
    split
    · exact .inr rfl
    · exact .inl rfl
  · exact .inl rfl

variable {p : Port} {o : Origin} (source : s.nodeOf p o.src = some n) (enrolled : s.nodes[n].state = .enrolled)
include source enrolled

theorem State.takeFull_status (h : ∀ i, ¬ s.Awaited n o.tag true i) (r : RunState) (l : Half) (a : AlarmLevel) :
    s.takeFull p o r l a = s.engineReport n r l a := by
  unfold State.takeFull
  rw [source]
  dsimp only
  rw [if_neg (by rw [enrolled]; exact nofun), State.completes_none h]
  exact if_pos enrolled

theorem State.takeFull_completes (sound : s.SlotsSound) {i : Fin 16} (h : s.Awaited n o.tag true i) (r : RunState) (l : Half)
    (a : AlarmLevel) :
    s.takeFull p o r l a = ((s.complete n i).fullOwner n s.trans.slots[i] r l a).wakeSlot n := by
  unfold State.takeFull
  rw [source]
  dsimp only
  rw [if_neg (by rw [enrolled]; exact nofun), State.completes_awaited sound h]

end Full

/-! ### The frame of an ACK -/

section Heard
variable {s : State} {p : Port} {n : Fin 32}

theorem State.heardFrom_sound (h : s.SlotsSound) : (s.heardFrom p n).SlotsSound := by
  have ended : (s.frameEnd p).SlotsSound := (State.slots_of_same (s := s) (t := s.frameEnd p) rfl rfl).1 h
  unfold State.heardFrom
  refine (State.modNode_worked _ n _ fun x => ?_).slots ended
  rfl

theorem State.heardFrom_port : (s.heardFrom p n).nodes[n].entry.port = s.nodes[n].entry.port := by
  unfold State.heardFrom
  rw [State.modNode_node, if_pos rfl]
  rfl

variable {o : Origin} (listens : s.listens p) (source : s.nodeOf p o.src = some n) (enrolled : s.nodes[n].state = .enrolled)
include listens source enrolled

theorem State.echo_arrives (v : Half) : exec (.echo p o v) s = .next ((s.heardFrom p n).takeEcho p o v) := by
  have hears : s.hears p = true := Option.isNone_iff_eq_none.2 listens
  have received : exec (.echo p o v) s = .next ((s.arrive p o.src).takeEcho p o v) :=
    congrArg Host.Outcome.next (if_pos hears)
  rw [received, State.arrive_enrolled source enrolled]

theorem State.full_arrives (r : RunState) (l : Half) (a : AlarmLevel) :
    exec (.full p o r l a) s = .next ((s.heardFrom p n).takeFull p o r l a) := by
  have hears : s.hears p = true := Option.isNone_iff_eq_none.2 listens
  have received : exec (.full p o r l a) s = .next ((s.arrive p o.src).takeFull p o r l a) :=
    congrArg Host.Outcome.next (if_pos hears)
  rw [received, State.arrive_enrolled source enrolled]

end Heard

/-- What a completing ACK leaves of the node's orders, `alone` where no unit read its content (R140). -/
def State.Wakes (s t : State) (n : Fin 32) (alone : Prop) : Prop :=
  (∀ j : Fin 16, t.trans.slots[j].inFlight = true → t.trans.slots[j].target ≠ n) ∧
    ∀ j : Fin 16, s.trans.slots[j].state = .waiting → s.trans.slots[j].target = n →
      s.trans.slots[j].value ≠ .release ∨ alone →
      t.trans.slots[j].state = .queued ∧ j ∈ t.trans.lane s.nodes[n].entry.port

/-- A slot completed by an ACK, the content read or not, and the next order woken. -/
theorem State.complete_wakes {s z : State} {n : Fin 32} {tag : Nibble} {full : Bool} {i : Fin 16} (sound : s.SlotsSound)
    (h : s.Awaited n tag full i) {alone : Prop} {read : State → State} (forms : z = s.complete n i ∨ z = read (s.complete n i))
    (worked : ∀ u, Worked .units u (read u)) (keeps : ∀ P : State → Prop, Orderly P → ∀ u, P u → P (read u))
    (idle : alone → read (s.complete n i) = s.complete n i) : s.Wakes (z.wakeSlot n) n alone ∧ Slotted z (z.wakeSlot n) := by
  have works : Worked .units (s.complete n i) z := by
    rcases forms with e | e <;> rw [e]
    · exact Worked.refl _ _
    · exact worked _
  obtain ⟨slotted, bare⟩ := State.acked_slotted sound h.state h.target works
  refine ⟨⟨bare, fun j waiting behind plain => ?_⟩, slotted⟩
  refine State.acked_woken sound h.state h.target works (fun P orderly p => ?_) (alone := alone) (fun x => ?_) waiting behind plain
  · rcases forms with e | e <;> rw [e]
    · exact p
    · exact keeps P orderly _ p
  · rcases forms with e | e <;> rw [e]
    rw [idle x]

section Completing
variable {s : State} {p : Port} {o : Origin} {n : Fin 32} {i : Fin 16} (sound : s.SlotsSound)

theorem State.complete_enrolled (s : State) (n : Fin 32) (i : Fin 16) :
    (s.complete n i).nodes[n].state = s.nodes[n].state := by
  rw [(s.complete_worked n i).within.nodeState]
  unfold State.answered
  rw [State.modNode_node, if_pos rfl]

include sound

/-- An ECHO that completes a slot (R140). -/
theorem State.echo_completes (forced : s.ForcedSound) (h : s.Awaited n o.tag false i) (v : Half) (t : State)
    (e : t = ((s.complete n i).echoOwner n s.trans.slots[i] v).wakeSlot n) :
    s.Wakes t n (s.actuatorOf n = none) ∧
      (∀ a, s.trans.slots[i].owner = some (.steering a) → s.nodes[n].state = .enrolled →
        (s.answered n).Positioned (s.answered n) t n v) ∧
      ((∀ a, s.trans.slots[i].owner ≠ some (.steering a)) →
        Within .propulsion (s.answered n) t ∧ t.prop = s.prop ∧ t.steer = s.steer) ∧
      ∀ c : Fin 48, s.ReleaseEnds s.trans.slots[i] c → t.tow.couplings[c].phase = some .awaitSlack := by
  obtain ⟨same, prop, steer⟩ := s.complete_same n i
  have named : (s.complete n i).actuatorOf n = s.actuatorOf n := by unfold State.actuatorOf; rw [steer]
  obtain ⟨wakes, slotted⟩ := State.complete_wakes sound h (alone := s.actuatorOf n = none)
    (read := fun u => u.actuatorReport n v none) ((s.complete n i).echoOwner_cases n s.trans.slots[i] v)
    (fun u => u.actuatorReport_worked n v none) (fun P orderly u => orderly.actuatorReport u n v none)
    (fun bare => State.actuatorReport_none (named.trans bare) v none)
  rw [← e] at wakes slotted
  refine ⟨wakes, fun a owner enrolled => ?_, fun other => ?_, fun c ends => ?_⟩
  · have read := State.echoOwner_steering owner ((s.complete_enrolled n i).trans enrolled) v
    rw [read, State.complete_plain fun c x => by rw [owner] at x; cases x] at slotted
    have forced' : (s.answered n).ForcedSound := forced
    exact (State.echoReport_endSlot forced' n i v).slotted slotted
  · rw [State.echoOwner_other other] at slotted
    exact ⟨((s.complete_worked n i).within).trans slotted.worked.within, slotted.prop.trans prop, slotted.steer.trans steer⟩
  · rw [State.echoOwner_other fun a x => by rw [ends.owner] at x; cases x] at slotted
    rw [slotted.tow]
    exact State.complete_awaitSlack h.state ends

/-- A FULL that completes a slot (R140). -/
theorem State.full_completes (h : s.Awaited n o.tag true i) (r : RunState) (l : Half) (a : AlarmLevel) (t : State)
    (e : t = ((s.complete n i).fullOwner n s.trans.slots[i] r l a).wakeSlot n) :
    s.Wakes t n (s.engineOf n = none) ∧
      (∀ k, s.trans.slots[i].owner = some (.propulsion k) → s.nodes[n].state = .enrolled →
        (s.answered n).Fulled (s.answered n) t n r l a) ∧
      ((∀ k, s.trans.slots[i].owner ≠ some (.propulsion k)) →
        Within .propulsion (s.answered n) t ∧ t.prop = s.prop ∧ t.steer = s.steer) := by
  obtain ⟨same, prop, steer⟩ := s.complete_same n i
  have named : (s.complete n i).engineOf n = s.engineOf n := by unfold State.engineOf; rw [prop]
  obtain ⟨wakes, slotted⟩ := State.complete_wakes sound h (alone := s.engineOf n = none)
    (read := fun u => u.engineReport n r l a) ((s.complete n i).fullOwner_cases n s.trans.slots[i] r l a)
    (fun u => u.engineReport_worked n r l a) (fun P orderly u => orderly.engineReport u n r l a)
    (fun bare => State.engineReport_none (named.trans bare) r l a)
  rw [← e] at wakes slotted
  refine ⟨wakes, fun k owner enrolled => ?_, fun other => ?_⟩
  · have read := State.fullOwner_propulsion owner ((s.complete_enrolled n i).trans enrolled) r l a
    rw [read, State.complete_plain fun c x => by rw [owner] at x; cases x] at slotted
    exact ((s.answered n).engineReport_endSlot n i r l a).slotted slotted
  · rw [State.fullOwner_other other] at slotted
    exact ⟨((s.complete_worked n i).within).trans slotted.worked.within, slotted.prop.trans prop, slotted.steer.trans steer⟩

end Completing

end Sys2Proof.Machine

open Sys2Proof Sys2Proof.Machine

/-- Settles O44: an ACK that carries the TAG in flight ends that slot, which the node has no other of; the content is read by
the owner's block, or where no slot ends by the block that names the node, and leaves the slots in flight. -/
theorem acksCompleteSlots : Obligations.AcksCompleteSlots := by
  intro s p o n listens sound forced source enrolled heard quit awaited late woken
  have sound' : (s.heardFrom p n).SlotsSound := State.heardFrom_sound sound
  have forced' : (s.heardFrom p n).ForcedSound := forced
  have source' : (s.heardFrom p n).nodeOf p o.src = some n := (s.heardFrom_nodeOf p p n o.src).trans source
  have enrolled' : (s.heardFrom p n).nodes[n].state = .enrolled := (s.heardFrom_state p n n).trans enrolled
  refine ⟨fun v => ⟨fun no => ?_, fun i h => ?_⟩, fun run load lvl => ⟨fun no => ?_, fun i h => ?_⟩⟩
  · have run := State.echo_arrives listens source enrolled v
    rw [State.takeEcho_status source' enrolled' (fun i x => no i ⟨x.target, x.state, x.tag, x.kind⟩) v] at run
    have read := State.echoReport_positions forced' n v
    refine ⟨_, run, fun j flight => ?_, ⟨read.bare, read.told⟩, fun bare => ?_⟩
    · exact (Orderly.inFlight flight j).actuatorReport (s.heardFrom p n) n v none rfl
    · exact State.actuatorReport_none (s := s.heardFrom p n) bare v none
  · obtain ⟨target, state, tag, kind⟩ := h
    have ended : (s.heardFrom p n).Awaited n o.tag false i := ⟨target, state, tag, kind⟩
    have run := State.echo_arrives listens source enrolled v
    rw [State.takeEcho_completes source' enrolled' sound' ended v] at run
    obtain ⟨wakes, steering, other, slack⟩ := State.echo_completes sound' forced' ended v _ rfl
    refine ⟨_, run, ⟨wakes.1, fun j waiting behind plain => ?_⟩, fun a owner => ?_, other,
      fun c owner value releasing phase sent => slack c ⟨owner, value, releasing, phase, sent⟩⟩
    · have queued := wakes.2 j waiting behind plain
      rw [State.heardFrom_port] at queued
      exact queued
    · have read := steering a owner enrolled'
      exact ⟨read.bare, read.told⟩
  · have taken := State.full_arrives listens source enrolled run load lvl
    rw [State.takeFull_status source' enrolled' (fun i x => no i ⟨x.target, x.state, x.tag, x.kind⟩) run load lvl] at taken
    have read := (s.heardFrom p n).engineReport_fulled n run load lvl
    refine ⟨_, taken, fun j flight => ?_, ⟨read.bare, read.told⟩, fun bare => ?_⟩
    · exact (Orderly.inFlight flight j).engineReport (s.heardFrom p n) n run load lvl rfl
    · exact State.engineReport_none (s := s.heardFrom p n) bare run load lvl
  · obtain ⟨target, state, tag, kind⟩ := h
    have ended : (s.heardFrom p n).Awaited n o.tag true i := ⟨target, state, tag, kind⟩
    have taken := State.full_arrives listens source enrolled run load lvl
    rw [State.takeFull_completes source' enrolled' sound' ended run load lvl] at taken
    obtain ⟨wakes, propulsion, other⟩ := State.full_completes sound' ended run load lvl _ rfl
    refine ⟨_, taken, ⟨wakes.1, fun j waiting behind plain => ?_⟩, fun e owner => ?_, other⟩
    · have queued := wakes.2 j waiting behind plain
      rw [State.heardFrom_port] at queued
      exact queued
    · have read := propulsion e owner enrolled'
      exact ⟨read.bare, read.told⟩

end

