-- ==== Sys2Proof/Proofs/Returns.lean ====
section
/-! PROOF. Proofs/Returns.lean: nodes that are ENROLLED again, by an ENROL (R129) or by any other frame while SILENT (R130), and
what the change handed on brings the engine and the actuator that name the node (R19, R57, R60). -/

namespace Sys2Proof.Machine

/-! ### Forms that a return to ENROLLED gives the hand-over (R134) -/

/-- The couplings and the meters do not answer a return. -/
theorem State.handOver_back {s : State} {n : Fin 32} (back : s.nodes[n].state = .enrolled) :
    s.handOver n = (s.engineFollows n).actuatorFollows n := by
  have state : ((s.engineFollows n).actuatorFollows n).nodes[n].state = .enrolled :=
    (((s.engineFollows_worked n).trans (State.actuatorFollows_worked _ n)).within.nodeState n).trans back
  unfold State.handOver
  rw [show State.couplingsFollow _ n = _ from if_pos state]
  exact if_pos state

theorem State.handOver_back_within {s : State} {n : Fin 32} (back : s.nodes[n].state = .enrolled) :
    Within .units s (s.handOver n) := by
  rw [State.handOver_back back]
  exact ((s.engineFollows_worked n).trans (State.actuatorFollows_worked _ n)).within

theorem State.engineFollows_lost {s : State} {n : Fin 32} {i : Fin 6} (back : s.nodes[n].state = .enrolled)
    (found : s.engineOf n = some i) (lost : s.prop.engines[i].state = .lost) :
    s.engineFollows n = s.moveEngine i .standby := by
  unfold State.engineFollows
  rw [found]
  exact (if_pos back).trans (if_pos lost)

/-- The engine's part of a return is a move to STANDBY or nothing (R19). -/
theorem State.engineFollows_back {s : State} {n : Fin 32} (back : s.nodes[n].state = .enrolled) :
    s.engineFollows n = s ∨ ∃ i, s.engineFollows n = s.moveEngine i .standby := by
  cases found : s.engineOf n with
  | none =>
    left
    unfold State.engineFollows
    rw [found]
  | some i =>
    by_cases lost : s.prop.engines[i].state = .lost
    · exact .inr ⟨i, State.engineFollows_lost back found lost⟩
    · left
      unfold State.engineFollows
      rw [found]
      exact (if_pos back).trans (if_neg lost)

theorem State.actuatorFollows_gone {s : State} {n : Fin 32} {i : Fin 5} (back : s.nodes[n].state = .enrolled)
    (found : s.actuatorOf n = some i)
    (gone : s.steer.actuators[i].state = .fault ∨ s.steer.actuators[i].state = .lost) :
    s.actuatorFollows n = (s.readyActuator i).reviewForced := by
  have present : s.steer.actuators[i].state ≠ .absent := fun e => by
    rw [e] at gone
    exact gone.elim nofun nofun
  unfold State.actuatorFollows
  rw [found]
  dsimp only
  rw [if_neg present, back]
  exact if_pos gone

/-- The actuator's part of a return is a return to READY or nothing (R60). -/
theorem State.actuatorFollows_back {s : State} {n : Fin 32} (back : s.nodes[n].state = .enrolled) :
    s.actuatorFollows n = s ∨ ∃ i, s.actuatorFollows n = (s.readyActuator i).reviewForced := by
  cases found : s.actuatorOf n with
  | none =>
    left
    unfold State.actuatorFollows
    rw [found]
  | some i =>
    by_cases gone : s.steer.actuators[i].state = .fault ∨ s.steer.actuators[i].state = .lost
    · exact .inr ⟨i, State.actuatorFollows_gone back found gone⟩
    · left
      unfold State.actuatorFollows
      rw [found]
      dsimp only
      rw [back]
      exact ite_eq_left_iff.2 fun _ => if_neg gone

/-! ### The engine and the actuator of a node that returns (R19, R57, R60) -/

theorem State.moveEngine_state (s : State) (i : Fin 6) (x : EngineState) : (s.moveEngine i x).prop.engines[i].state = x := by
  rw [State.moveEngine_eq]
  exact (Steady.engineState i x).recompute _ (s.withState_state i x)

theorem State.readyActuator_prop (s : State) (i : Fin 5) : (s.readyActuator i).prop = s.prop :=
  (State.placeOrdered_slotted _ i).prop

theorem State.modActuator_entry (s : State) (i b : Fin 5) {f : Actuator → Actuator} (h : ∀ y, (f y).entry = y.entry) :
    (s.modActuator i f).steer.actuators[b].entry = s.steer.actuators[b].entry :=
  modTable_keeps s.steer.actuators i b f Actuator.entry h

/-- What may be placed depends on the entries of the units, the slots and whether the node takes orders. -/
theorem State.mayOrder.ofSame {s t : State} {a : Fin 5} {n : Fin 32} (h : s.mayOrder a n)
    (actuators : ∀ b : Fin 5, t.steer.actuators[b].entry = s.steer.actuators[b].entry)
    (engines : ∀ i : Fin 6, t.prop.engines[i].entry = s.prop.engines[i].entry)
    (trans : t.trans = s.trans) (alive : t.nodes[n].state ≠ .failed ∧ t.nodes[n].state ≠ .unused) : t.mayOrder a n := by
  refine ⟨by rw [actuators]; exact h.node, fun b m => by rw [actuators]; exact h.own b m,
    fun i => by rw [engines]; exact h.engines i, alive, fun j waits => ?_⟩
  rw [trans, actuators]
  unfold State.waitingSlot at waits
  rw [trans] at waits
  exact h.open_ j waits

theorem State.mayOrder.modActuator {s : State} {a : Fin 5} {n : Fin 32} (h : s.mayOrder a n) (i : Fin 5)
    {f : Actuator → Actuator} (entry : ∀ y, (f y).entry = y.entry) : (s.modActuator i f).mayOrder a n :=
  h.ofSame (fun b => s.modActuator_entry i b entry) (fun _ => rfl) rfl h.alive

/-- Nothing stands in the way of the order of the actuator (R136). -/
theorem State.mayOrder.open {s : State} {a : Fin 5} {n : Fin 32} (h : s.mayOrder a n) :
    s.Open n s.steer.actuators[a].entry.kind.order :=
  ⟨h.alive, fun j waits => (h.open_ j waits).trans (ActuatorKind.order_eq _).symm⟩

/-- No engine follows the node of an actuator that alone names it. -/
theorem State.mayOrder.noEngine {s : State} {a : Fin 5} {n : Fin 32} (h : s.mayOrder a n) : s.engineFollows n = s := by
  have none : s.engineOf n = none := by
    cases found : s.engineOf n with
    | none => rfl
    | some i => exact absurd (State.engineOf_governor found) (h.engines i)
  unfold State.engineFollows
  rw [none]

/-- A return to READY places the ordered value (R57). -/
theorem State.mayOrder.readyActuator {s : State} {a : Fin 5} {n : Fin 32} (h : s.mayOrder a n) :
    (s.readyActuator a).Steers a n := by
  have may : (s.modActuator a fun x => { x with state := .ready, divergeAt := none }).mayOrder a n :=
    h.modActuator a fun _ => rfl
  exact State.placeOrdered_steers may.node may.own may.alive fun _ => may.open

/-- What a node that is ENROLLED again brings the engine and the actuator that name it, from `s` to `t`. -/
structure State.Restores (s t : State) (n : Fin 32) : Prop where
  engines : ∀ i : Fin 6, s.engineOf n = some i → s.prop.engines[i].state = .lost → t.prop.engines[i].state = .standby
  actuators : ∀ i : Fin 5, s.actuatorOf n = some i →
    s.steer.actuators[i].state = .fault ∨ s.steer.actuators[i].state = .lost →
    t.steer.actuators[i].state = .ready ∧ (s.mayOrder i n → t.hasFree → t.carriesOrdered i n)

/-- The engine's part leaves the states of the actuators. -/
theorem State.engineFollows_actuator {s : State} {n : Fin 32} {a : Fin 5} {x : ActuatorState} (back : s.nodes[n].state = .enrolled)
    (h : s.steer.actuators[a].state = x) : (s.engineFollows n).steer.actuators[a].state = x := by
  rcases State.engineFollows_back back with e | ⟨i, e⟩ <;> rw [e]
  · exact h
  · exact (Settled.actuatorState a x).moveEngine (fun _ _ p => p) s .standby h

/-- The actuator's part leaves the states of the engines. -/
theorem State.actuatorFollows_engine {s : State} {n : Fin 32} {i : Fin 6} {x : EngineState} (back : s.nodes[n].state = .enrolled)
    (h : s.prop.engines[i].state = x) : (s.actuatorFollows n).prop.engines[i].state = x := by
  rcases State.actuatorFollows_back back with e | ⟨a, e⟩ <;> rw [e]
  · exact h
  · refine (Steady.engineState i x).reviewForced _ ?_
    rw [State.readyActuator_prop]
    exact h

theorem State.handOver_restores {s : State} {n : Fin 32} (back : s.nodes[n].state = .enrolled) :
    s.Restores (s.handOver n) n := by
  have followed : (s.engineFollows n).nodes[n].state = .enrolled :=
    ((s.engineFollows_worked n).within.nodeState n).trans back
  rw [State.handOver_back back]
  refine ⟨fun i found lost => ?_, fun i found gone => ?_⟩
  · refine State.actuatorFollows_engine followed ?_
    rw [State.engineFollows_lost back found lost]
    exact s.moveEngine_state i .standby
  · have gone' : (s.engineFollows n).steer.actuators[i].state = .fault ∨
        (s.engineFollows n).steer.actuators[i].state = .lost :=
      gone.imp (State.engineFollows_actuator back) (State.engineFollows_actuator back)
    rw [State.actuatorFollows_gone followed (State.engineFollows_actuatorOf.trans found) gone']
    refine ⟨(Steady.actuatorState i .ready).reviewForced _ (State.readyActuator_state _ i), fun may free => ?_⟩
    rw [may.noEngine] at free ⊢
    exact (State.reviewForced_steers may.readyActuator).carries free

/-- A notice latched before the change is handed on does not touch what is restored. -/
theorem State.Restores.ofNoted {s u t : State} {n : Fin 32} (m : Noted s u) (h : u.Restores t n) : s.Restores t n := by
  have engineOf : u.engineOf n = s.engineOf n := m.worked.within.written.engineOf n
  have actuatorOf : u.actuatorOf n = s.actuatorOf n := m.worked.within.written.actuatorOf n
  have nodes : u.nodes = s.nodes := by rw [m.same]
  refine ⟨fun i found lost => h.engines i (engineOf.trans found) (by rw [m.prop]; exact lost), fun i found gone => ?_⟩
  obtain ⟨ready, carries⟩ := h.actuators i (actuatorOf.trans found) (by rw [m.steer]; exact gone)
  refine ⟨ready, fun may => carries (may.ofSame (fun b => ?_) (fun j => ?_) ?_ ?_)⟩
  · rw [m.steer]
  · rw [m.prop]
  · rw [m.same]
  · rw [nodes]; exact may.alive

/-! ### ENROL (R129) -/

/-- The node found for a source is not UNUSED (R129, R130). -/
theorem State.nodeOf_used {s : State} {p : Port} {a : Byte} {n : Fin 32} (h : s.nodeOf p a = some n) :
    s.nodes[n].state ≠ .unused := by
  have found := findTable_meets h
  simp only [Bool.and_eq_true, decide_eq_true_eq] at found
  exact found.1.1

/-- The roster entry after an ENROL of the right kind (R129). -/
def State.enrolling (s : State) (n : Fin 32) : State :=
  s.modNode n fun x =>
    { x with
      state := .enrolled, timeouts := 0
      silenceAt := some (s.now + 100000 * x.entry.silence)
      refreshAt :=
        if decide (s.nodes[n].state = .expected) || decide (s.nodes[n].state = .failed) then
          if x.entry.refresh = 0 then none else some (s.now + 100000 * x.entry.refresh)
        else x.refreshAt }

theorem State.enrolling_state (s : State) (n : Fin 32) : (s.enrolling n).nodes[n].state = .enrolled := by
  unfold State.enrolling
  rw [State.modNode_node, if_pos rfl]

/-- An enrolment: the entry written, NODE_ENROLLED latched, and a change of state handed on (R129, R134). -/
theorem State.enrolNode_eq {s : State} {n : Fin 32} (used : s.nodes[n].state ≠ .unused) : s.enrolNode n =
    if s.nodes[n].state = .enrolled then (s.enrolling n).latch .nodeEnrolled (subjectOf n)
    else ((s.enrolling n).latch .nodeEnrolled (subjectOf n)).handOver n := by
  have written : ∀ f : Node → Node, f s.nodes[n] = { s.nodes[n] with
        state := .enrolled, timeouts := 0, silenceAt := s.nodeSilence n
        refreshAt := if decide (s.nodes[n].state = .expected) || decide (s.nodes[n].state = .failed) then s.nodeRefresh n
          else s.nodes[n].refreshAt } → s.modNode n f = s.enrolling n := fun f e => by
    rw [State.nodeSilence_eq, State.nodeRefresh_eq] at e
    exact State.modNode_congr e
  unfold State.enrolNode
  cases state : s.nodes[n].state with
  | unused => exact absurd state used
  | enrolled => dsimp only; rw [if_pos rfl, written _ (by simp [-Fin.getElem_fin, state])]
  | silent => dsimp only; rw [if_neg nofun, written _ (by simp [-Fin.getElem_fin, state])]
  | expected => dsimp only; rw [if_neg nofun, written _ (by simp [-Fin.getElem_fin, state])]
  | failed => dsimp only; rw [if_neg nofun, written _ (by simp [-Fin.getElem_fin, state])]

theorem State.enrol_arrives {s : State} {p : Port} (listens : s.listens p) (h : Header) (payload : List Byte) :
    exec (.enrol p h payload) s = .next ((s.frameEnd p).takeEnrol p h.src payload) :=
  congrArg Host.Outcome.next (State.receive_eq listens _)

/-- An ENROL of another kind latches ENROL_MISMATCH, and is a frame from the node as any other (R129). -/
theorem State.enrolMismatch_noted (s : State) (p : Port) (n : Fin 32) :
    (s.nodes[n].state = .enrolled → Noted (s.heardFrom p n) ((s.frameEnd p).enrolMismatch n)) ∧
      (s.nodes[n].state ≠ .enrolled → Noted (s.frameEnd p) ((s.frameEnd p).enrolMismatch n)) := by
  unfold State.enrolMismatch
  refine ⟨fun enrolled => ?_, fun other => ?_⟩
  · have heard : (s.frameEnd p).modNode n (fun x => { x with silenceAt := (s.frameEnd p).nodeSilence n }) = s.heardFrom p n := by
      rw [State.nodeSilence_eq]
      exact State.modNode_congr rfl
    rw [if_pos (by exact enrolled), heard]
    exact State.latch_noted _ _ _
  · rw [if_neg (by exact other)]
    exact State.latch_noted _ _ _

end Sys2Proof.Machine

open Sys2Proof Sys2Proof.Machine

/-- Settles O42: the entry is written and NODE_ENROLLED latched before a change of state is handed on. -/
theorem enrolTaken : Obligations.EnrolTaken := by
  intro s p h payload listens
  have run := State.enrol_arrives listens h payload
  unfold State.takeEnrol at run
  refine ⟨fun n source right => ?_, fun n source wrong => ?_, fun source => ?_⟩
  · intro x fresh base
    have found : (s.frameEnd p).nodeOf p h.src = some n := source
    rw [found] at run
    dsimp only at run
    rw [if_pos (by exact right), State.enrolNode_eq (by exact State.nodeOf_used source)] at run
    have written : (s.frameEnd p).enrolling n = base := rfl
    rw [written] at run
    have noted := base.latch_noted .nodeEnrolled (subjectOf n)
    have notice := base.latch_hasNotice .nodeEnrolled (subjectOf n)
    by_cases enrolled : x.state = .enrolled
    · rw [if_pos (by exact enrolled)] at run
      exact ⟨_, run, noted.worked.within.mono (by decide), notice, fun _ => noted.worked.within,
        fun other => absurd enrolled other, fun other => absurd enrolled other⟩
    · rw [if_neg (by exact enrolled)] at run
      have back : (base.latch .nodeEnrolled (subjectOf n)).nodes[n].state = .enrolled :=
        (noted.worked.within.nodeState n).trans ((s.frameEnd p).enrolling_state n)
      have restores := (State.handOver_restores back).ofNoted noted
      exact ⟨_, run, (noted.worked.within.mono (by decide)).trans (State.handOver_back_within back),
        State.handOver_notice notice, fun same => absurd same enrolled, fun _ => restores.engines,
        fun _ => restores.actuators⟩
  · have found : (s.frameEnd p).nodeOf p h.src = some n := source
    rw [found] at run
    dsimp only at run
    rw [if_neg (by exact wrong)] at run
    obtain ⟨known, other⟩ := s.enrolMismatch_noted p n
    exact ⟨_, run, fun e => (known e).worked.within, fun e => (other e).worked.within, State.latch_hasNotice _ _ _⟩
  · have found : (s.frameEnd p).nodeOf p h.src = none := source
    rw [found] at run
    exact run

end

