-- ==== Sys2Proof/Proofs/SilentNodes.lean ====
section
/-! PROOF. Proofs/SilentNodes.lean: frames from nodes that are not ENROLLED (R130, R140, R166). One from a SILENT node enrols it
again, and is then a frame as any other that the node sends at that instant; one from an EXPECTED or FAILED node is passed on at
most, or completes a slot. -/

namespace Sys2Proof.Machine

/-! ### A frame read by the roster (R130) -/

/-- The roster entry of a SILENT node after a frame from it. -/
def State.backFrom (s : State) (p : Port) (n : Fin 32) : State :=
  (s.frameEnd p).modNode n fun x => { x with state := .enrolled, silenceAt := some (s.now + 100000 * x.entry.silence) }

theorem State.backFrom_state (s : State) (p : Port) (n : Fin 32) : (s.backFrom p n).nodes[n].state = .enrolled := by
  unfold State.backFrom
  rw [State.modNode_node, if_pos rfl]

theorem State.arrive_silent {s : State} {p : Port} {a : Byte} {n : Fin 32} (source : s.nodeOf p a = some n)
    (silent : s.nodes[n].state = .silent) : s.arrive p a = (s.backFrom p n).handOver n := by
  have found : (s.frameEnd p).nodeOf p a = some n := source
  have state : (s.frameEnd p).nodes[n].state = .silent := silent
  unfold State.arrive State.heard
  rw [found]
  dsimp only
  unfold State.hear
  rw [state, (s.frameEnd p).nodeSilence_eq]
  exact congrArg (fun u : State => u.handOver n) (State.modNode_congr rfl)

/-- The roster does not answer a frame from an EXPECTED or a FAILED node. -/
theorem State.arrive_idle {s : State} {p : Port} {a : Byte} {n : Fin 32} (source : s.nodeOf p a = some n)
    (idle : s.nodes[n].state = .expected ∨ s.nodes[n].state = .failed) : s.arrive p a = s.frameEnd p := by
  have found : (s.frameEnd p).nodeOf p a = some n := source
  unfold State.arrive State.heard
  rw [found]
  dsimp only
  unfold State.hear
  rcases idle with state | state
  · rw [show (s.frameEnd p).nodes[n].state = .expected from state]
  · rw [show (s.frameEnd p).nodes[n].state = .failed from state]

theorem State.modNode_self {s : State} {n : Fin 32} {f : Node → Node} (h : f s.nodes[n] = s.nodes[n]) : s.modNode n f = s := by
  unfold State.modNode modTable
  rw [show f s.nodes[n] = s.nodes[n] from h]
  simp

/-- A second frame end of a port at one instant leaves the port as it is. -/
theorem State.frameEnd_twice {s t : State} {p : Port} (link : t.link = (s.frameEnd p).link) (now : t.now = s.now) :
    t.frameEnd p = t := by
  have line : t.link.ports.get p =
      { s.link.ports.get p with line := .up, assembly := Assembly.empty, gapAt := s.now } := by
    rw [link]
    exact PerPort.get_set_same _ _ _
  have again : t.link.ports.set p { t.link.ports.get p with line := .up, assembly := Assembly.empty, gapAt := t.now } =
      t.link.ports := by
    rw [line, now]
    dsimp only
    rw [← line]
    cases p <;> rfl
  unfold State.frameEnd State.modLine
  rw [again]

/-- A node that has been heard at this instant is heard again without effect. -/
theorem State.arrive_again {t : State} {p : Port} {a : Byte} {n : Fin 32} (ended : t.frameEnd p = t)
    (source : t.nodeOf p a = some n) (enrolled : t.nodes[n].state = .enrolled)
    (timer : t.nodes[n].silenceAt = some (t.now + 100000 * t.nodes[n].entry.silence)) : t.arrive p a = t := by
  rw [State.arrive_enrolled source enrolled]
  unfold State.heardFrom
  rw [ended]
  refine State.modNode_self ?_
  rw [← timer]

theorem Within.silenceAt {x : Level} {s t : State} (w : Within x s t) (n : Fin 32) (l : x.rank < 5 := by decide) :
    t.nodes[n].silenceAt = s.nodes[n].silenceAt :=
  (congrArg Node.silenceAt (w.nodes l n) :)

/-! ### A SILENT node heard -/

section Silent
variable {s : State} {p : Port} {a : Byte} {n : Fin 32}

theorem State.heardBack_within : Within .units (s.backFrom p n) ((s.backFrom p n).handOver n) :=
  State.handOver_back_within (s.backFrom_state p n)

/-- The node found again after the change is handed on. -/
theorem State.heardBack_nodeOf (source : s.nodeOf p a = some n) : ((s.backFrom p n).handOver n).nodeOf p a = some n := by
  have used := State.nodeOf_used source
  have back : (s.backFrom p n).nodeOf p a = s.nodeOf p a :=
    State.nodeOf_modNode (s.frameEnd p) n
      (fun x => { x with state := .enrolled, silenceAt := some (s.now + 100000 * x.entry.silence) })
      ⟨rfl, iff_of_false nofun used⟩ p a
  have within := State.heardBack_within (s := s) (p := p) (n := n)
  have handed : ((s.backFrom p n).handOver n).nodeOf p a = (s.backFrom p n).nodeOf p a :=
    findTable_congr fun m => by rw [within.nodeState m, within.written.nodes m]
  rw [handed, back, source]

/-- The same frame once more finds the node ENROLLED, and nothing left for the roster to do. -/
theorem State.heardBack_arrive (source : s.nodeOf p a = some n) :
    ((s.backFrom p n).handOver n).arrive p a = (s.backFrom p n).handOver n := by
  have within := State.heardBack_within (s := s) (p := p) (n := n)
  have entry := within.written.nodes n
  have link : ((s.backFrom p n).handOver n).link = (s.frameEnd p).link := within.link
  have now : ((s.backFrom p n).handOver n).now = s.now := within.now
  refine State.arrive_again (State.frameEnd_twice link now) (State.heardBack_nodeOf source)
    ((within.nodeState n).trans (s.backFrom_state p n)) ?_
  rw [within.silenceAt n, entry, now]
  unfold State.backFrom
  rw [State.modNode_node, if_pos rfl]

theorem State.heardBack_listens (listens : s.listens p) : ((s.backFrom p n).handOver n).listens p := by
  have link : ((s.backFrom p n).handOver n).link = (s.frameEnd p).link :=
    (State.heardBack_within (s := s) (p := p) (n := n)).link
  unfold State.listens
  rw [link]
  exact (s.frameEnd_listens p p).2 listens

/-- What follows a frame once the roster has read it is the same whether the node was SILENT or is ENROLLED already. -/
theorem State.receive_back (listens : s.listens p) (source : s.nodeOf p a = some n) (silent : s.nodes[n].state = .silent)
    (act : State → State) : s.receive p (fun u => act (u.arrive p a)) =
      ((s.backFrom p n).handOver n).receive p (fun u => act (u.arrive p a)) := by
  rw [State.receive_eq listens, State.receive_eq (State.heardBack_listens listens), State.arrive_silent source silent,
    State.heardBack_arrive source]

/-- The units that name a SILENT node are restored (R19, R57, R60). -/
theorem State.heardBack_restores : (s.backFrom p n).Restores ((s.backFrom p n).handOver n) n :=
  State.handOver_restores (s.backFrom_state p n)

theorem State.mayOrder.backFrom {i : Fin 5} (h : s.mayOrder i n) : (s.backFrom p n).mayOrder i n := by
  refine h.ofSame (fun _ => rfl) (fun _ => rfl) rfl ?_
  rw [State.backFrom_state]
  exact ⟨nofun, nofun⟩

end Silent

/-! ### The frames of the statuses and samples, and those that no block reads (R159, R165) -/

theorem Content.command_passage {x : Content} {p : Port} {h : Header} {c : Instr} (e : x.command p h = some c) (s : State) :
    exec c s = .next (s.passage p (x.frame h) x) := by
  cases x with
  | other => cases e
  | _ => cases e; rfl

theorem State.passageFrame_passed {s : State} {p : Port} {f : Frame} (h : fixedIntake s.link.own p f = false) :
    exec (.passageFrame p f) s = .next (s.passage p f (contentOf f)) :=
  if_neg (by rw [h]; exact nofun)

/-- The gate of a TAKE is shut for a node that is neither ENROLLED nor SILENT: the frame is passed on at most (R166). -/
theorem State.passage_shut {s : State} {p : Port} {f : Frame} {n : Fin 32} (listens : s.listens p)
    (source : s.nodeOf p f.src = some n) (idle : s.nodes[n].state = .expected ∨ s.nodes[n].state = .failed) (c : Content) :
    s.passage p f c = s.andPass (s.frameEnd p) p f := by
  have shut : (s.frameEnd p).gate p f.src = none := by
    unfold State.gate
    rw [show (s.frameEnd p).nodeOf p f.src = some n from source]
    refine if_neg fun e => ?_
    rw [show (s.frameEnd p).nodes[n].state = s.nodes[n].state from rfl] at e
    rcases idle with state | state <;> rw [state] at e <;> exact e.elim nofun nofun
  unfold State.passage
  rw [State.receive_eq listens, State.arrive_idle source idle]
  unfold State.dispose State.deliver
  dsimp only
  rw [shut, ite_self]
  rfl

/-! ### An ACK from an EXPECTED or a FAILED node (R140) -/

section Ack
variable {s : State} {p : Port} {o : Origin} {n : Fin 32}

theorem State.readEcho_idle (h : s.nodes[n].state ≠ .enrolled) (v : Half) : s.readEcho n v = s :=
  if_neg h

theorem State.readFull_idle (h : s.nodes[n].state ≠ .enrolled) (r : RunState) (l : Half) (a : AlarmLevel) :
    s.readFull n r l a = s :=
  if_neg h

theorem State.echoOwner_idle (h : s.nodes[n].state ≠ .enrolled) (x : Slot) (v : Half) : s.echoOwner n x v = s := by
  unfold State.echoOwner
  split
  · exact State.readEcho_idle h v
  · rfl

theorem State.fullOwner_idle (h : s.nodes[n].state ≠ .enrolled) (x : Slot) (r : RunState) (l : Half) (a : AlarmLevel) :
    s.fullOwner n x r l a = s := by
  unfold State.fullOwner
  split
  · exact State.readFull_idle h r l a
  · rfl

theorem State.takeEcho_idle (source : s.nodeOf p o.src = some n) (idle : s.nodes[n].state ≠ .enrolled)
    (h : s.nodes[n].state = .failed ∨ ∀ i, ¬ s.Awaited n o.tag false i) (v : Half) : s.takeEcho p o v = s := by
  unfold State.takeEcho
  rw [source]
  dsimp only
  by_cases failed : s.nodes[n].state = .failed
  · exact if_pos failed
  · rw [if_neg failed, State.completes_none (h.resolve_left failed)]
    exact State.readEcho_idle idle v

theorem State.takeFull_idle (source : s.nodeOf p o.src = some n) (idle : s.nodes[n].state ≠ .enrolled)
    (h : s.nodes[n].state = .failed ∨ ∀ i, ¬ s.Awaited n o.tag true i) (r : RunState) (l : Half) (a : AlarmLevel) :
    s.takeFull p o r l a = s := by
  unfold State.takeFull
  rw [source]
  dsimp only
  by_cases failed : s.nodes[n].state = .failed
  · exact if_pos failed
  · rw [if_neg failed, State.completes_none (h.resolve_left failed)]
    exact State.readFull_idle idle r l a

variable (source : s.nodeOf p o.src = some n) (expected : s.nodes[n].state = .expected) (sound : s.SlotsSound) {i : Fin 16}
include source expected sound

theorem State.takeEcho_expected (h : s.Awaited n o.tag false i) (v : Half) :
    s.takeEcho p o v = (s.complete n i).wakeSlot n := by
  unfold State.takeEcho
  rw [source]
  dsimp only
  rw [if_neg (by rw [expected]; exact nofun), State.completes_awaited sound h]
  dsimp only
  rw [State.echoOwner_idle (by rw [State.complete_enrolled, expected]; exact nofun)]

theorem State.takeFull_expected (h : s.Awaited n o.tag true i) (r : RunState) (l : Half) (a : AlarmLevel) :
    s.takeFull p o r l a = (s.complete n i).wakeSlot n := by
  unfold State.takeFull
  rw [source]
  dsimp only
  rw [if_neg (by rw [expected]; exact nofun), State.completes_awaited sound h]
  dsimp only
  rw [State.fullOwner_idle (by rw [State.complete_enrolled, expected]; exact nofun)]

end Ack

/-! ### A slot completed whose content no block reads (R140) -/

theorem State.complete_kept (s : State) (n : Fin 32) (i : Fin 16) :
    (s.complete n i).notices = s.notices ∧ (s.complete n i).fwd = s.fwd := by
  rw [State.complete_eq, State.orderEnded_same]
  exact ⟨rfl, rfl⟩

/-- The slots and the lane of the node after a completion: the slot in flight ended, the WAITING order at the tail of the lane,
the others as they were. -/
structure State.Completed (s t : State) (n : Fin 32) (i : Fin 16) : Prop where
  slot : t.trans.slots[i] = { s.trans.slots[i] with state := .free, ackAt := none }
  woken : ∀ j : Fin 16, s.trans.slots[j].state = .waiting → s.trans.slots[j].target = n →
    t.trans.slots[j] = { s.trans.slots[j] with state := .queued } ∧
      t.trans.lane s.nodes[n].entry.port = s.trans.lane s.nodes[n].entry.port ++ [j]
  others : ∀ j : Fin 16, j ≠ i → s.trans.slots[j].state ≠ .waiting ∨ s.trans.slots[j].target ≠ n →
    t.trans.slots[j] = s.trans.slots[j]

theorem State.complete_completed {s : State} {n : Fin 32} {i : Fin 16} (sound : s.SlotsSound)
    (awaiting : s.trans.slots[i].state = .awaiting) : s.Completed ((s.complete n i).wakeSlot n) n i := by
  have trans := (s.complete_same n i).1
  have slot : ∀ j : Fin 16, (s.complete n i).trans.slots[j] =
      if i = j then { s.trans.slots[j] with state := .free, ackAt := none } else s.trans.slots[j] := fun j => by
    rw [trans, State.endSlot_slot]
  have ended := slot i
  rw [if_pos rfl] at ended
  refine ⟨?_, fun j waiting target => ?_, fun j other quiet => ?_⟩
  · rw [State.wakeSlot_keeps (.inl (by rw [ended]; exact nofun)), ended]
  · have same := slot j
    rw [if_neg fun e => by rw [← e, awaiting] at waiting; cases waiting] at same
    have found : (s.complete n i).waitingSlot n = some j := by
      have before : (s.complete n i).waitingSlot n = (s.endSlot i).waitingSlot n := by
        unfold State.waitingSlot
        rw [trans]
      rw [before, State.endSlot_waitingSlot (State.awaiting_idle awaiting).1]
      exact sound.waitingSlot ((Slot.isWaiting_iff _).2 (.inr (.inl waiting))) target
    have entry : (s.complete n i).nodes[n].entry = (s.answered n).nodes[n].entry :=
      (s.complete_worked n i).within.written.nodes n
    have port : (s.complete n i).nodes[n].entry.port = s.nodes[n].entry.port := by
      rw [entry]
      unfold State.answered
      rw [State.modNode_node, if_pos rfl]
    obtain ⟨queued, lane⟩ := State.wakeSlot_wakes found (by rw [same]; exact waiting)
    rw [port, trans, State.endSlot_lane sound (by rw [awaiting]; exact nofun)] at lane
    rw [queued, same]
    exact ⟨rfl, lane⟩
  · have same := slot j
    rw [if_neg other.symm] at same
    rw [State.wakeSlot_keeps (by rw [same]; exact quiet), same]

end Sys2Proof.Machine

open Sys2Proof Sys2Proof.Machine

/-- Settles O43: the state that a SILENT node's frame leaves to the frame's own reading is one on which the same frame has
nothing left for the roster; a node that is neither ENROLLED nor SILENT finds the gate shut, and no content read. -/
theorem silentNodeHeard : Obligations.SilentNodeHeard := by
  intro s p src n listens source ack noKind gives awaited ended
  refine ⟨fun silent => ?_, fun idle => ?_, fun expected sound o i from_ => ?_⟩
  · have restores := State.heardBack_restores (s := s) (p := p) (n := n)
    have again := State.receive_back listens source silent
    refine ⟨(s.backFrom p n).handOver n, State.heardBack_within, restores.engines, fun i found gone => ?_, ?_, ?_⟩
    · obtain ⟨ready, carries⟩ := restores.actuators i found gone
      exact ⟨ready, fun may => carries may.backFrom⟩
    · rintro c ⟨o, l, rfl, rfl⟩
      exact congrArg Host.Outcome.next ((State.receive_eq listens _).trans (State.arrive_silent source silent))
    · rintro c ((⟨o, v, rfl, rfl⟩ | ⟨o, r, l, a, rfl, rfl⟩) | ⟨f, ⟨h, x, rfl, command, rfl⟩ | ⟨rfl, passed, rfl⟩⟩)
      · exact congrArg Host.Outcome.next (again fun u => u.takeEcho p o v)
      · exact congrArg Host.Outcome.next (again fun u => u.takeFull p o r l a)
      · rw [Content.command_passage command, Content.command_passage command]
        rw [← content_frame_src x h] at again
        exact congrArg Host.Outcome.next (again fun u => u.dispose p (x.frame h) x)
      · have link : ((s.backFrom p n).handOver n).link = (s.frameEnd p).link :=
          (State.heardBack_within (s := s) (p := p) (n := n)).link
        have own : ((s.backFrom p n).handOver n).link.own = s.link.own := (congrArg Link.own link).trans (s.frameEnd_own p)
        rw [State.passageFrame_passed passed, State.passageFrame_passed (by rw [own]; exact passed)]
        exact congrArg Host.Outcome.next (again fun u => u.dispose p f (contentOf f))
  · have arrives := State.arrive_idle source idle
    have gone : s.nodes[n].state ≠ .enrolled := fun e => by
      rw [e] at idle
      exact idle.elim nofun nofun
    refine ⟨?_, ?_, fun o v from_ no => ?_, fun o r l a from_ no => ?_⟩
    · rintro c ⟨o, l, rfl, rfl⟩
      exact congrArg Host.Outcome.next ((State.receive_eq listens _).trans arrives)
    · rintro c f (⟨h, x, rfl, command, rfl⟩ | ⟨rfl, passed, rfl⟩)
      · rw [← content_frame_src x h] at source
        rw [Content.command_passage command, State.passage_shut listens source idle]
      · rw [State.passageFrame_passed passed, State.passage_shut listens source idle]
    · subst from_
      have none : s.nodes[n].state = .failed ∨ ∀ i, ¬ (s.frameEnd p).Awaited n o.tag false i :=
        no.imp_right fun h i x => h i ⟨x.target, x.state, x.tag, x.kind⟩
      refine congrArg Host.Outcome.next ((State.receive_eq listens _).trans ?_)
      rw [arrives]
      exact State.takeEcho_idle (s := s.frameEnd p) source gone none v
    · subst from_
      have none : s.nodes[n].state = .failed ∨ ∀ i, ¬ (s.frameEnd p).Awaited n o.tag true i :=
        no.imp_right fun h i x => h i ⟨x.target, x.state, x.tag, x.kind⟩
      refine congrArg Host.Outcome.next ((State.receive_eq listens _).trans ?_)
      rw [arrives]
      exact State.takeFull_idle (s := s.frameEnd p) source gone none r l a
  · subst from_
    have arrives := State.arrive_idle source (.inl expected)
    have sound' : (s.frameEnd p).SlotsSound := (State.slots_of_same (s := s) (t := s.frameEnd p) rfl rfl).1 sound
    have done : ∀ full, awaited o i full → ended i (((s.frameEnd p).complete n i).wakeSlot n) := fun full h => by
      obtain ⟨target, awaiting, _, _⟩ := h
      have wakes := State.wakeSlot_slotted _ n (State.complete_idle sound' awaiting target)
      have completed := State.complete_completed (n := n) sound' awaiting
      obtain ⟨_, prop, steer⟩ := (s.frameEnd p).complete_same n i
      obtain ⟨notices, fwd⟩ := (s.frameEnd p).complete_kept n i
      refine ⟨(((s.frameEnd p).complete_worked n i).trans wakes.worked).within, wakes.prop.trans prop, wakes.steer.trans steer,
        wakes.notices.trans notices, wakes.fwd.trans fwd, ?_, ?_, completed.woken, completed.others,
        fun c owner value releasing phase sent => ?_⟩
      · rw [completed.slot]
      · rw [completed.slot]
      · rw [wakes.tow]
        exact State.complete_awaitSlack (s := s.frameEnd p) awaiting ⟨owner, value, releasing, phase, sent⟩
    refine ⟨fun h v => ⟨_, ?_, done false h⟩, fun h r l a => ⟨_, ?_, done true h⟩⟩
    · obtain ⟨target, state, tag, kind⟩ := h
      refine congrArg Host.Outcome.next ((State.receive_eq listens _).trans ?_)
      rw [arrives]
      exact State.takeEcho_expected (s := s.frameEnd p) source expected sound' ⟨target, state, tag, kind⟩ v
    · obtain ⟨target, state, tag, kind⟩ := h
      refine congrArg Host.Outcome.next ((State.receive_eq listens _).trans ?_)
      rw [arrives]
      exact State.takeFull_expected (s := s.frameEnd p) source expected sound' ⟨target, state, tag, kind⟩ r l a

end

