-- ==== Sys2Proof/Proofs/ActuatorReports.lean ====
section
/-! PROOF. Proofs/ActuatorReports.lean: a status from the node of an actuator (R61): a fault, a return from FAULT, and in every
other case the reading of an ECHO; and the expiry of a divergence timer (R62). -/

namespace Sys2Proof.Machine

/-! ### What a status tells an actuator (R61, R62) -/

/-- State and divergence timer of an actuator after a status from its node. -/
def Actuator.reading (a : Actuator) (now : Nat) (v : Half) (flag : FaultFlag) : ActuatorState × Timer :=
  let out : Bool := decide (a.entry.band < (v.toInt - a.ordered).natAbs)
  let started : Timer := if out then some (now + 100000 * a.entry.time) else none
  match a.state, flag with
  | .ready, .fault => (.fault, none)
  | .diverged, .fault => (.fault, none)
  | .ready, .noFault => (.ready, if out then a.divergeAt.or started else none)
  | .diverged, .noFault => if out then (.diverged, a.divergeAt) else (.ready, none)
  | .fault, .noFault => (.ready, started)
  | y, _ => (y, a.divergeAt)

/-- An actuator after a status from its node. -/
def Actuator.read (a : Actuator) (now : Nat) (v : Half) (flag : FaultFlag) : Actuator :=
  { a with reported := v.toInt, state := (a.reading now v flag).1, divergeAt := (a.reading now v flag).2 }

/-- The status takes an actuator to FAULT. -/
def Actuator.Fails (a : Actuator) (flag : FaultFlag) : Prop :=
  flag = .fault ∧ (a.state = .ready ∨ a.state = .diverged)

/-- The status takes an actuator out of FAULT. -/
def Actuator.Recovers (a : Actuator) (flag : FaultFlag) : Prop :=
  flag = .noFault ∧ a.state = .fault

section Read
variable {a : Actuator} {flag : FaultFlag} (now : Nat) (v : Half)

theorem Actuator.read_fails (h : a.Fails flag) :
    a.read now v flag = { a with reported := v.toInt, state := .fault, divergeAt := none } := by
  obtain ⟨rfl, state⟩ := h
  have told : a.reading now v .fault = (.fault, none) := by
    unfold Actuator.reading
    rcases state with e | e <;> rw [e]
  unfold Actuator.read
  rw [told]

/-- Out of FAULT the divergence test is that of an ECHO to an actuator READY with its timer stopped. -/
theorem Actuator.read_recovers (h : a.Recovers flag) :
    a.read now v flag = Actuator.told { a with state := .ready, divergeAt := none } now v := by
  obtain ⟨rfl, state⟩ := h
  unfold Actuator.read Actuator.reading Actuator.told
  dsimp only
  rw [state]
  generalize decide (a.entry.band < (v.toInt - a.ordered).natAbs) = out
  cases out <;> rfl

/-- In the other cases a status tells what an ECHO tells. -/
theorem Actuator.read_told (stays : ¬ a.Fails flag) (remains : ¬ a.Recovers flag) : a.read now v flag = a.told now v := by
  by_cases tested : a.state = .ready ∨ a.state = .diverged
  · cases flag with
    | fault => exact absurd ⟨rfl, tested⟩ stays
    | noFault =>
      unfold Actuator.read Actuator.reading Actuator.told
      dsimp only
      generalize decide (a.entry.band < (v.toInt - a.ordered).natAbs) = out
      rcases tested with e | e <;> rw [e] <;> cases out <;> rfl
  · obtain ⟨ready, diverged⟩ := not_or.1 tested
    rw [Actuator.told_idle a now v ready diverged]
    unfold Actuator.read Actuator.reading
    cases state : a.state with
    | ready => exact absurd state ready
    | diverged => exact absurd state diverged
    | fault =>
      cases flag with
      | fault => rfl
      | noFault => exact absurd ⟨rfl, state⟩ remains
    | _ => rfl

end Read

/-! ### The reading of a status by steering -/

theorem Slotted.modActuator {s t : State} (h : Slotted s t) (i : Fin 5) (f : Actuator → Actuator) :
    Slotted (s.modActuator i f) (t.modActuator i f) := by
  have before := State.slots_of_same (s := s.modActuator i f) (t := s) rfl rfl
  have after := State.slots_of_same (s := t) (t := t.modActuator i f) rfl rfl
  refine ⟨?_, h.nodes, fun sound => after.1 (h.sound (before.1 sound)), fun n idle => after.2 n (h.idle n (before.2 n idle))⟩
  have steer : (t.modActuator i f).steer = (s.modActuator i f).steer := by
    rw [State.modActuator_steer, State.modActuator_steer, h.steer]
  calc t.modActuator i f = { t with steer := (t.modActuator i f).steer } := rfl
    _ = { t with steer := (s.modActuator i f).steer } := by rw [steer]
    _ = { s.modActuator i f with trans := t.trans, nodes := t.nodes } := congrArg
      (fun u : State => { u with steer := (s.modActuator i f).steer }) h.same

/-- The order of an actuator still stands after a change of it that leaves its entry and its ordered value. -/
theorem State.Steers.modActuator {s : State} {a : Fin 5} {n : Fin 32} (h : s.Steers a n) {f : Actuator → Actuator}
    (same : (f s.steer.actuators[a]).entry = s.steer.actuators[a].entry ∧
      (f s.steer.actuators[a]).ordered = s.steer.actuators[a].ordered) : (s.modActuator a f).Steers a n := by
  have own := State.modActuator_actuator s a a f
  rw [if_pos rfl] at own
  refine ⟨by rw [own, same.1]; exact h.node, fun b m => ?_, h.alive, fun free => ?_⟩
  · rw [State.modActuator_actuator, if_neg m.symm]
    exact h.own b m
  · rw [own, same.1, same.2]
    exact h.placed free

section Reports
variable {s : State} {n : Fin 32} {i : Fin 5} (found : s.actuatorOf n = some i) (v : Half)
include found

/-- A fault flag, READY or DIVERGED (R61). -/
theorem State.actuatorReport_fails {flag : FaultFlag} (h : s.steer.actuators[i].Fails flag) :
    s.actuatorReport n v (some flag) =
      ((s.modActuator i fun a => { a with reported := v.toInt }).faultActuator i).reviewForced := by
  obtain ⟨rfl, state⟩ := h
  unfold State.actuatorReport
  rw [found]
  dsimp only
  rcases state with e | e <;> rw [e]

/-- The fault flag clear, in FAULT (R61). -/
theorem State.actuatorReport_recovers {flag : FaultFlag} (h : s.steer.actuators[i].Recovers flag) :
    s.actuatorReport n v (some flag) =
      (((s.modActuator i fun a => { a with reported := v.toInt }).readyActuator i).modActuator i
        ((s.modActuator i fun a => { a with reported := v.toInt }).readyActuator i).testActuator).reviewForced := by
  obtain ⟨rfl, state⟩ := h
  unfold State.actuatorReport
  rw [found]
  dsimp only
  rw [state]

/-- In the other cases steering reads the position as that of an ECHO. -/
theorem State.actuatorReport_echo {flag : FaultFlag} (stays : ¬ s.steer.actuators[i].Fails flag)
    (remains : ¬ s.steer.actuators[i].Recovers flag) : s.actuatorReport n v (some flag) = s.actuatorReport n v none := by
  unfold State.actuatorReport
  rw [found]
  dsimp only
  cases state : s.steer.actuators[i].state with
  | ready =>
    cases flag with
    | fault => exact absurd ⟨rfl, .inl state⟩ stays
    | noFault => rfl
  | diverged =>
    cases flag with
    | fault => exact absurd ⟨rfl, .inr state⟩ stays
    | noFault => rfl
  | fault =>
    cases flag with
    | fault => rfl
    | noFault => exact absurd ⟨rfl, state⟩ remains
  | _ => rfl

/-- A return to READY from FAULT: the order placed, and the divergence test after it. -/
theorem State.actuatorReport_recovered {flag : FaultFlag} (h : s.steer.actuators[i].Recovers flag) :
    ∃ u, Slotted (s.modActuator i fun a => a.read s.now v flag) u ∧ s.actuatorReport n v (some flag) = u.reviewForced ∧
      (s.mayOrder i n → u.Steers i n) := by
  generalize ready : (s.modActuator i fun a => { a with reported := v.toInt }).readyActuator i = w
  have placed : Slotted (s.modActuator i fun a => { a with reported := v.toInt, state := .ready, divergeAt := none }) w := by
    rw [← ready]
    unfold State.readyActuator
    rw [State.modActuator_modActuator]
    exact State.placeOrdered_slotted _ i
  have now : w.now = s.now := placed.now
  have actuator : w.steer.actuators[i] =
      { s.steer.actuators[i] with reported := v.toInt, state := .ready, divergeAt := none } := by
    rw [placed.steer, State.modActuator_actuator, if_pos rfl]
  have tested : w.testActuator w.steer.actuators[i] = s.steer.actuators[i].read s.now v flag := by
    rw [actuator, Actuator.read_recovers s.now v h, ← now]
    exact Actuator.told_ready w { s.steer.actuators[i] with state := .ready, divergeAt := none } v rfl
  refine ⟨w.modActuator i w.testActuator, ?_, ?_, fun may => ?_⟩
  · have test := placed.modActuator i fun _ => s.steer.actuators[i].read s.now v flag
    rw [State.modActuator_modActuator] at test
    have before : (s.modActuator i fun _ => s.steer.actuators[i].read s.now v flag) =
        s.modActuator i fun a => a.read s.now v flag := State.modActuator_congr rfl
    have after : (w.modActuator i fun _ => s.steer.actuators[i].read s.now v flag) = w.modActuator i w.testActuator :=
      State.modActuator_congr tested.symm
    rw [before, after] at test
    exact test
  · rw [State.actuatorReport_recovers found v h, ready]
  · have reported : (s.modActuator i fun a => { a with reported := v.toInt }).mayOrder i n := may.modActuator i fun _ => rfl
    have steers := reported.readyActuator
    rw [ready] at steers
    have same := w.testActuator_same w.steer.actuators[i]
    exact steers.modActuator ⟨same.1, same.2.1⟩

/-- The actuator is read, and forced steer assist follows (R61, R65). -/
theorem State.actuatorReport_within (forced : s.ForcedSound) (flag : FaultFlag) :
    Within .propulsion (s.modActuator i fun a => a.read s.now v flag).setForced (s.actuatorReport n v (some flag)) := by
  by_cases fails : s.steer.actuators[i].Fails flag
  · rw [State.actuatorReport_fails found v fails]
    have faulted : (s.modActuator i fun a => { a with reported := v.toInt }).faultActuator i =
        (s.modActuator i fun a => a.read s.now v flag).latch .actuatorFault (subjectOf i) := by
      unfold State.faultActuator
      rw [State.modActuator_modActuator]
      refine congrArg (fun u : State => u.latch .actuatorFault (subjectOf i)) (State.modActuator_congr ?_)
      exact (Actuator.read_fails s.now v fails).symm
    rw [faulted]
    exact ((State.latch_noted _ _ _).worked.within.mono (by decide)).reviewForced
  by_cases recovers : s.steer.actuators[i].Recovers flag
  · obtain ⟨u, slotted, report, _⟩ := State.actuatorReport_recovered found v recovers
    rw [report]
    exact slotted.worked.within.reviewForced
  · have told : (s.modActuator i fun a => a.read s.now v flag) = s.modActuator i fun a => a.told s.now v :=
      State.modActuator_congr (Actuator.read_told s.now v fails recovers)
    rw [State.actuatorReport_echo found v fails recovers, told]
    exact State.echoReport_within forced found v

/-- The entry to FAULT latches ACTUATOR_FAULT (R61). -/
theorem State.actuatorReport_notes {flag : FaultFlag} (h : s.steer.actuators[i].Fails flag) :
    (s.actuatorReport n v (some flag)).hasNotice .actuatorFault (subjectOf i) := by
  rw [State.actuatorReport_fails found v h]
  exact State.hasNotice.mono (State.latch_hasNotice _ _ _) (State.reviewForced_list _)

/-- The return to READY places the ordered value (R57). -/
theorem State.actuatorReport_carries {flag : FaultFlag} (h : s.steer.actuators[i].Recovers flag) (may : s.mayOrder i n)
    (free : (s.actuatorReport n v (some flag)).hasFree) : (s.actuatorReport n v (some flag)).carriesOrdered i n := by
  obtain ⟨u, _, report, steers⟩ := State.actuatorReport_recovered found v h
  rw [report] at free ⊢
  exact (State.reviewForced_steers (steers may)).carries free

end Reports

/-- Only the entry to FAULT brings an actuator there. -/
theorem Actuator.fails_of_reading {a : Actuator} {now : Nat} {v : Half} {flag : FaultFlag}
    (fault : (a.reading now v flag).1 = .fault) (other : a.state ≠ .fault) : a.Fails flag := by
  by_contra stays
  have told := Actuator.read_told now v stays fun recovers => other recovers.2
  have state : (a.told now v).state = .fault := by
    rw [← told]
    exact fault
  unfold Actuator.told at state
  dsimp only at state
  split at state
  · cases state
  · exact other state

/-! ### The divergence timer (R62) -/

theorem State.divergenceExpiry_ready {s : State} {i : Fin 5} {at_ : Nat} (h : s.steer.actuators[i].divergeAt = some at_)
    (ready : s.steer.actuators[i].state = .ready) : exec (.divergenceExpiry i) s =
      .next ((((s.reach at_).modActuator i fun a => { a with state := .diverged, divergeAt := none }).latch .actuatorDiverged
        (subjectOf i)).reviewForced) := by
  have diverges : exec (.divergenceExpiry i) s = .next ((s.reach at_).diverge i) := by
    show Host.Outcome.next (s.expire s.steer.actuators[i].divergeAt fun u => u.diverge i) = _
    rw [h]
    rfl
  rw [diverges]
  exact congrArg Host.Outcome.next (if_pos ready)

end Sys2Proof.Machine

open Sys2Proof Sys2Proof.Machine

/-- Settles O29: the frame's end restarts the silence timer of the node, and steering reads the status; at divergence expiry the
review of forced steer assist comes after the latch. -/
theorem actuatorStatusAndDivergence : Obligations.ActuatorStatusAndDivergence := by
  refine ⟨?_, fun s i => ⟨fun stopped => ?_, fun at_ running ready => ?_⟩⟩
  · intro s p h position flag n i d found forced a out started x base
    have found' : (s.heardFrom p n).actuatorOf n = some i := found
    have forced' : (s.heardFrom p n).ForcedSound := forced
    have reading : a.reading s.now position flag = x := rfl
    have read : (s.heardFrom p n).modActuator i (fun y => y.read (s.heardFrom p n).now position flag) = base :=
      State.modActuator_congr rfl
    have within := State.actuatorReport_within found' position forced' flag
    rw [read] at within
    refine ⟨_, congrArg Host.Outcome.next d.passage, within, fun fault other => ?_, fun fault clear may free => ?_⟩
    · rw [← reading] at fault
      exact State.actuatorReport_notes found' position (Actuator.fails_of_reading fault other)
    · have may' : (s.heardFrom p n).mayOrder i n := by
        refine may.ofSame (fun _ => rfl) (fun _ => rfl) rfl ?_
        rw [State.heardFrom_state]
        exact may.alive
      exact State.actuatorReport_carries found' position ⟨clear, fault⟩ may' free
  · show Host.Outcome.next (s.expire s.steer.actuators[i].divergeAt fun u => u.diverge i) = _
    rw [stopped]
    rfl
  · intro base
    have noted := base.latch_noted .actuatorDiverged (subjectOf i)
    have within : Within .propulsion base.setForced (base.latch .actuatorDiverged (subjectOf i)).reviewForced :=
      (noted.worked.within.mono (by decide)).reviewForced
    have notice := State.hasNotice.mono (base.latch_hasNotice .actuatorDiverged (subjectOf i)) (State.reviewForced_list _)
    have sound := State.reviewForced_sound (base.latch .actuatorDiverged (subjectOf i))
    have run := State.divergenceExpiry_ready running ready
    generalize (base.latch .actuatorDiverged (subjectOf i)).reviewForced = t at run within notice sound
    have profile : t.helm.modes[t.helm.mode] = s.helm.modes[s.helm.mode] := within.paced.2
    unfold State.ForcedSound at sound
    rw [profile] at sound
    exact ⟨t, run, within, notice, sound⟩

end

