-- ==== Sys2Proof/Proofs/Steering.lean ====
section
/-! PROOF. Proofs/Steering.lean: a STEER taken (R51 to R55, R57), and what a change of a wash direction makes of the ordered values
(R55). `Turns x s a n` follows one actuator whose node no other unit names: its order stands in the waiting slot once its ordered
value has left `x`. -/

namespace Sys2Proof.Machine

/-! ### Placements at a node that one actuator alone names (R57, R136) -/

/-- A placement for another node. -/
theorem State.placeOrdered_apart {s : State} {i : Fin 5} {n : Fin 32} (h : s.steer.actuators[i].entry.node ≠ some n) :
    Apart n s (s.placeOrdered i) := by
  cases e : s.steer.actuators[i].entry.node with
  | none => rw [State.placeOrdered_none e]; exact Apart.refl n s
  | some m =>
    rw [State.placeOrdered_some e]
    exact State.place_apart (fun same => h (by rw [e, same])) _ _ _ _

/-- After a placement the waiting order of the node is still none of another kind. -/
theorem State.place_open {s : State} {n : Fin 32} {k : OrderKind} (o : s.Open n k) (l : k.supersedable = true)
    (v : OrderValue) (w : Owner) : (s.place n k v w none).1.Open n k := by
  by_cases free : s.hasFree
  · refine (State.place_bears o l free v w).open ?_
    rw [(s.place_slotted n k v w none).state]
    exact o.alive
  cases waits : s.waitingSlot n with
  | none => rw [State.place_full waits free]; exact o
  | some j =>
    rw [State.place_supersedes o.alive waits (o.kind j waits) l]
    refine ⟨by rw [show (s.supersede j n v w).nodes[n].state = _ from s.useTag_state n n]; exact o.alive, fun i e => ?_⟩
    rw [State.supersede_waitingSlot] at e
    rw [State.supersede_slot]
    split
    · exact o.kind i e
    · exact o.kind i e

/-- An order for the actuator may be placed, and is placed if its ordered value is no longer `x` and a slot is FREE. -/
structure State.Turns (s : State) (x : Int) (a : Fin 5) (n : Fin 32) : Prop where
  may : s.mayOrder a n
  placed : s.steer.actuators[a].ordered ≠ x → s.hasFree →
    s.Bears n s.steer.actuators[a].entry.kind.order (.amount s.steer.actuators[a].ordered) (.steering a)

theorem State.mayOrder.turns {s : State} {a : Fin 5} {n : Fin 32} (h : s.mayOrder a n) :
    s.Turns s.steer.actuators[a].ordered a n :=
  ⟨h, fun moved => absurd rfl moved⟩

theorem State.Turns.carries {s : State} {x : Int} {a : Fin 5} {n : Fin 32} (h : s.Turns x a n)
    (moved : s.steer.actuators[a].ordered ≠ x) (free : s.hasFree) : s.carriesOrdered a n :=
  State.Steers.carries ⟨h.may.node, h.may.own, h.may.alive, h.placed moved⟩ free

section Turns
variable {s t : State} {x : Int} {a : Fin 5} {n : Fin 32}

/-- Work that places nothing for the node. -/
theorem State.Turns.ofApart (h : s.Turns x a n) (apart : Apart n s t)
    (actuators : ∀ b : Fin 5, t.steer.actuators[b].entry = s.steer.actuators[b].entry)
    (engines : ∀ i : Fin 6, t.prop.engines[i].entry = s.prop.engines[i].entry)
    (ordered : t.steer.actuators[a].ordered = s.steer.actuators[a].ordered) : t.Turns x a n := by
  have open_ := apart.open h.may.open
  refine ⟨⟨by rw [actuators]; exact h.may.node, fun b m => by rw [actuators]; exact h.may.own b m,
    fun i => by rw [engines]; exact h.may.engines i, open_.alive, fun j waits => ?_⟩, fun moved free => ?_⟩
  · rw [actuators]
    exact (open_.kind j waits).trans (ActuatorKind.order_eq _)
  · rw [ordered] at moved
    rw [actuators, ordered]
    exact (apart.spares _).bears _ _ (h.placed moved (apart.free free))

theorem State.mayOrder.placeOrdered (h : s.mayOrder a n) : (s.placeOrdered a).Turns x a n := by
  have slotted := s.placeOrdered_slotted a
  have open_ : (s.placeOrdered a).Open n s.steer.actuators[a].entry.kind.order := by
    rw [State.placeOrdered_some h.node]
    exact State.place_open h.open (ActuatorKind.order_supersedable _) _ _
  refine ⟨⟨?_, ?_, ?_, open_.alive, fun j waits => ?_⟩, fun _ free => ?_⟩
  · rw [slotted.steer]; exact h.node
  · rw [slotted.steer]; exact h.own
  · rw [slotted.prop]; exact h.engines
  · rw [slotted.steer]
    exact (open_.kind j waits).trans (ActuatorKind.order_eq _)
  · rw [slotted.steer]
    exact State.placeOrdered_bears h.node h.open (State.placeOrdered_free free)

/-- The ordered value of an actuator formed again: its own is placed where it moves, another one's has another node. -/
theorem State.Turns.remapActuator (h : s.Turns x a n) (i : Fin 5) : (s.remapActuator i).Turns x a n := by
  by_cases idle : s.steer.actuators[i].state = .absent ∨
      s.orderedFor s.steer.actuators[i].entry = s.steer.actuators[i].ordered
  · rw [State.remapActuator_idle idle]
    exact h
  rw [State.remapActuator_moves idle]
  by_cases e : i = a
  · subst e
    exact State.mayOrder.placeOrdered (State.mayOrder.modActuator h.may i (by exact fun _ => rfl))
  · generalize hu : (s.modActuator i fun y => { y with ordered := s.orderedFor s.steer.actuators[i].entry }) = u
    have turns : u.Turns x a n := by
      rw [← hu]
      exact h.ofApart (Apart.ofSame n rfl rfl) (fun b => s.modActuator_entry i b fun _ => rfl) (fun _ => rfl)
        (by rw [State.modActuator_actuator, if_neg e])
    have slotted := u.placeOrdered_slotted i
    exact turns.ofApart (State.placeOrdered_apart (turns.may.own i e)) (fun b => by rw [slotted.steer])
      (fun j => by rw [slotted.prop]) (by rw [slotted.steer])

theorem State.Turns.remapAll (h : s.Turns x a n) : s.remapAll.Turns x a n :=
  foldl_keeps State.remapActuator (fun u => u.Turns x a n) (fun _ i k => k.remapActuator i) _ s h

theorem State.Turns.remapBoat (h : s.Turns x a n) (b : Boat) : (s.remapBoat b).Turns x a n := by
  unfold State.remapBoat
  refine foldl_keeps _ (fun u => u.Turns x a n) (fun u i k => ?_) _ s h
  split
  · exact k.remapActuator i
  · exact k

theorem State.Turns.reviewBoatWash (h : s.Turns x a n) (b : Boat) : (s.reviewBoatWash b).Turns x a n := by
  unfold State.reviewBoatWash
  split
  · exact h
  · have written : ({ s with prop := { s.prop with wash := s.prop.wash.set b (washOf s.prop.engines b) } } : State).Turns x a n :=
      ⟨⟨h.may.node, h.may.own, h.may.engines, h.may.alive, h.may.open_⟩, h.placed⟩
    exact written.remapBoat b

/-- Both reviews that end a recompute and a step. -/
theorem State.Turns.review (h : s.Turns x a n) : s.reviewWash.reviewZero.Turns x a n := by
  have washed : s.reviewWash.Turns x a n := (h.reviewBoatWash .b1).reviewBoatWash .b2
  exact washed.ofApart (State.reviewZero_apart _ n) (fun b => by rw [State.reviewZero_steer])
    (fun i => by rw [State.reviewZero_engines]) (by rw [State.reviewZero_steer])

theorem State.slewEngines_apart (s : State) (old : Table Engine 6) (n : Fin 32) : Apart n s (s.slewEngines old) :=
  Apart.ofSame n rfl rfl

/-- The setpoints that a recompute cuts go to other nodes. -/
theorem State.Turns.recompute (h : s.Turns x a n) : s.recompute.Turns x a n := by
  have cut : Apart n s.shared s.shared.cutEngines := by
    refine State.cutEngine_issues.foldl_apart _ _ fun i _ => ?_
    rw [State.shared_entry]
    exact h.may.engines i
  have slewed : Apart n s.shared.cutEngines s.reslewed := by
    rw [State.reslewed_eq]
    exact State.slewEngines_apart _ _ n
  have steer := s.reslewed_same.1
  have reslewed : s.reslewed.Turns x a n := h.ofApart (((s.shared_apart n).trans cut).trans slewed)
    (fun b => by rw [steer]) s.reslewed_within.written.engines (by rw [steer])
  rw [State.recompute_eq]
  exact reslewed.review

/-- The setpoint that a step places goes to another node. -/
theorem State.Turns.takeStep (h : s.Turns x a n) (i : Fin 6) : (s.takeStep i).Turns x a n := by
  have entry : ∀ j : Fin 6, (s.modEngine i s.stepEngine).prop.engines[j].entry = s.prop.engines[j].entry := fun j => by
    rw [State.modEngine_engine]
    split
    · next e => subst e; exact (s.stepEngine_kept _).entry
    · rfl
  have stepped : (s.modEngine i s.stepEngine).Turns x a n :=
    h.ofApart (Apart.ofSame n rfl rfl) (fun _ => rfl) entry rfl
  have slotted := (s.modEngine i s.stepEngine).placeSetpoint_slotted i
  exact State.Turns.review (stepped.ofApart (State.placeSetpoint_apart (stepped.may.engines i))
    (fun b => by rw [slotted.steer]) (fun j => by rw [slotted.prop]) (by rw [slotted.steer]))

end Turns

/-! ### The ordered values that a change of a wash direction forms again (R55) -/

/-- An actuator after its boat's wash direction has gone from one to another under the demands. -/
def Actuator.turned (y : Actuator) (demands : Steering) (old new : Wash) : Actuator :=
  if y.state = .absent ∨ new = old then y else { y with ordered := demands.orderedFor new y.entry }

theorem Actuator.turned_entry (y : Actuator) (demands : Steering) (old new : Wash) :
    (y.turned demands old new).entry = y.entry := by
  unfold Actuator.turned
  split <;> rfl

/-- The demands are all of steering that an ordered value is formed from. -/
theorem Steering.orderedFor_congr {d e : Steering} (h : e = { d with actuators := e.actuators, forced := e.forced }) :
    e.orderedFor = d.orderedFor := by
  funext w y
  rw [h]
  rfl

theorem State.reviewBoatWash_actuator (s : State) (b : Boat) (a : Fin 5) : (s.reviewBoatWash b).steer.actuators[a] =
    if s.steer.actuators[a].entry.washBoat = b then
      s.steer.actuators[a].turned s.steer (s.prop.wash.get b) (washOf s.prop.engines b)
    else s.steer.actuators[a] := by
  unfold State.reviewBoatWash
  by_cases same : washOf s.prop.engines b = s.prop.wash.get b
  · have idle : s.steer.actuators[a].turned s.steer (s.prop.wash.get b) (washOf s.prop.engines b) = s.steer.actuators[a] :=
      if_pos (.inr same)
    rw [if_pos same, idle, ite_self]
  · rw [if_neg same, State.remapBoat_eq, State.remapWhere_actuator]
    dsimp only
    by_cases mine : s.steer.actuators[a].entry.washBoat = b
    · rw [if_pos mine, if_pos (decide_eq_true mine)]
      unfold State.remapped Actuator.turned State.orderedFor
      dsimp only
      rw [mine, PerBoat.get_set_same]
      simp only [same, or_false]
    · rw [if_neg mine, if_neg (by simpa using mine)]

theorem State.reviewWash_actuator (s : State) (a : Fin 5) : s.reviewWash.steer.actuators[a] =
    s.steer.actuators[a].turned s.steer (s.prop.wash.get s.steer.actuators[a].entry.washBoat)
      (washOf s.prop.engines s.steer.actuators[a].entry.washBoat) := by
  have first := s.reviewBoatWash_actuator .b1 a
  have second := (s.reviewBoatWash .b1).reviewBoatWash_actuator .b2 a
  have demands : (s.reviewBoatWash .b1).steer.orderedFor = s.steer.orderedFor := Steering.orderedFor_congr (by
    rw [s.reviewBoatWash_steer .b1])
  unfold State.reviewWash
  rw [second]
  cases mine : s.steer.actuators[a].entry.washBoat with
  | b1 =>
    rw [if_pos mine] at first
    rw [first, Actuator.turned_entry, mine, if_neg nofun]
  | b2 =>
    rw [if_neg (by rw [mine]; exact nofun)] at first
    rw [first, mine, if_pos rfl, State.reviewBoatWash_prop]
    unfold Actuator.turned
    rw [demands]
    rfl

/-- The ordered value of an actuator follows its boat's wash direction from `s` to `t` (R55). -/
structure State.Remaps (s t : State) (a : Fin 5) : Prop where
  moves : s.steer.actuators[a].state ≠ .absent →
    t.prop.wash.get s.steer.actuators[a].entry.washBoat ≠ s.prop.wash.get s.steer.actuators[a].entry.washBoat →
    t.steer.actuators[a].ordered = t.mapped s.steer.actuators[a]
  stays : s.steer.actuators[a].state = .absent ∨
    t.prop.wash.get s.steer.actuators[a].entry.washBoat = s.prop.wash.get s.steer.actuators[a].entry.washBoat →
    t.steer.actuators[a].ordered = s.steer.actuators[a].ordered

/-- Both reviews after work that has left steering and the wash directions. -/
theorem State.review_remaps {s u : State} (steer : u.steer = s.steer) (wash : u.prop.wash = s.prop.wash) (a : Fin 5) :
    s.Remaps u.reviewWash.reviewZero a := by
  have turned := u.reviewWash_actuator a
  have direction : ∀ b, u.reviewWash.reviewZero.prop.wash.get b = washOf u.prop.engines b := fun b => by
    rw [State.reviewZero_prop, State.reviewWash_prop]
    cases b <;> rfl
  have demands : u.reviewWash.reviewZero.steer.orderedFor = s.steer.orderedFor := by
    rw [State.reviewZero_steer, ← steer]
    have first : (u.reviewBoatWash .b1).steer.orderedFor = u.steer.orderedFor :=
      Steering.orderedFor_congr (by rw [u.reviewBoatWash_steer .b1])
    have second : ((u.reviewBoatWash .b1).reviewBoatWash .b2).steer.orderedFor = (u.reviewBoatWash .b1).steer.orderedFor :=
      Steering.orderedFor_congr (by rw [(u.reviewBoatWash .b1).reviewBoatWash_steer .b2])
    exact second.trans first
  rw [steer, wash] at turned
  refine ⟨fun present changed => ?_, fun still => ?_⟩
  · rw [direction] at changed
    rw [State.mapped_eq]
    unfold State.orderedFor
    rw [demands, direction, State.reviewZero_steer, turned]
    unfold Actuator.turned
    rw [if_neg (not_or.2 ⟨present, changed⟩)]
  · rw [direction] at still
    rw [State.reviewZero_steer, turned]
    unfold Actuator.turned
    rw [if_pos still]

theorem State.recompute_remaps (s : State) (a : Fin 5) : s.Remaps s.recompute a := by
  rw [State.recompute_eq]
  exact State.review_remaps s.reslewed_same.1 s.reslewed_same.2 a

theorem State.takeStep_remaps (s : State) (i : Fin 6) (a : Fin 5) : s.Remaps (s.takeStep i) a := by
  have slotted := (s.modEngine i s.stepEngine).placeSetpoint_slotted i
  have wash : ((s.modEngine i s.stepEngine).placeSetpoint i).prop.wash = s.prop.wash := by
    rw [slotted.prop]
    rfl
  exact State.review_remaps (s := s) slotted.steer wash a

/-! ### A STEER taken (R51, R52) -/

/-- The state with the demands written. -/
def State.demanding (s : State) (rudder : Int) (mode : BowMode) (bow : Int) : State :=
  { s with steer := { s.steer with rudder := rudder, bowMode := mode, bowDemand := bow } }

/-- The actuators remapped, and a recompute where the differential follows the rudder (R28, R52). -/
def State.steered (s : State) : State :=
  if s.remapAll.prop.diffMode = .auto ∨ s.remapAll.steer.forced then s.remapAll.recompute else s.remapAll

theorem State.takeSteer_eq (s : State) (r : Half) (m : Byte) (b : Half) : s.takeSteer r m b =
    (s.demanding (clamp (-450) 450 r.toInt) (if m = 0 then .follow else .explicit)
      (if m = 0 then s.steer.bowDemand else clamp (-1000) 1000 b.toInt)).steered.restartGuard := by
  unfold State.takeSteer State.steered State.demanding
  dsimp only

theorem State.decideSteer_taken {s : State} {m : Byte} (h : m.toNat ≤ 1) (r b : Half) :
    s.decideSteer r m b = (s.takeSteer r m b,
      if clamp (-450) 450 r.toInt = r.toInt ∧ (m = 0 ∨ clamp (-1000) 1000 b.toInt = b.toInt) then .taken else .clamped) :=
  if_neg (by omega)

theorem State.decideSteer_unknown {s : State} {m : Byte} (h : 1 < m.toNat) (r b : Half) :
    s.decideSteer r m b = (s, .unknown) :=
  if_pos h

/-- The answer to a STEER tells whether the demands that it stores were in range (R51). -/
theorem steer_answer (r b : Int) (m : Byte) : (if clamp (-450) 450 r = r ∧ (m = 0 ∨ clamp (-1000) 1000 b = b) then Answer.taken
    else Answer.clamped).byte = if (decide (-450 ≤ r) && decide (r ≤ 450) &&
      (decide (m = 0) || (decide (-1000 ≤ b) && decide (b ≤ 1000)))) = true then 0 else 1 := by
  have rudder : clamp (-450) 450 r = r ↔ -450 ≤ r ∧ r ≤ 450 := by unfold clamp; omega
  have bow : clamp (-1000) 1000 b = b ↔ -1000 ≤ b ∧ b ≤ 1000 := by unfold clamp; omega
  have kept : (clamp (-450) 450 r = r ∧ (m = 0 ∨ clamp (-1000) 1000 b = b)) ↔ (decide (-450 ≤ r) && decide (r ≤ 450) &&
      (decide (m = 0) || (decide (-1000 ≤ b) && decide (b ≤ 1000)))) = true := by
    simp only [rudder, bow, Bool.and_eq_true, Bool.or_eq_true, decide_eq_true_eq]
  by_cases h : clamp (-450) 450 r = r ∧ (m = 0 ∨ clamp (-1000) 1000 b = b)
  · rw [if_pos h, if_pos (kept.1 h)]; rfl
  · rw [if_neg h, if_neg fun k => h (kept.2 k)]; rfl

theorem State.remapAll_demanded (s : State) : s.Demanded s.remapAll := by
  rw [State.remapAll_eq]
  exact s.remapWhere_demanded _

/-- Where no ordered value changes nothing is placed (R52). -/
theorem State.remapAll_still {s : State} (h : ∀ a : Fin 5, s.remapAll.steer.actuators[a].ordered = s.steer.actuators[a].ordered) :
    s.remapAll = s := by
  have idle : ∀ a : Fin 5, s.remapActuator a = s := fun a => by
    refine State.remapActuator_idle ?_
    have ordered := h a
    rw [State.remapAll_eq, State.remapWhere_actuator, if_pos rfl] at ordered
    unfold State.remapped at ordered
    by_cases absent : s.steer.actuators[a].state = .absent
    · exact .inl absent
    · rw [if_neg absent] at ordered
      exact .inr ordered
  exact foldl_keeps State.remapActuator (fun u => u = s) (fun u a e => by rw [e, idle a]) _ s rfl

theorem State.steered_within (s : State) : Within .propulsion s s.steered := by
  unfold State.steered
  split
  · exact (s.remapAll_worked.trans (State.recompute_worked _)).within
  · exact s.remapAll_worked.within

theorem State.steered_ordered (s : State) : s.steered.Ordered := by
  unfold State.steered
  split
  · exact (State.recompute_washSound _ s.remapAll_ordered).ordered
  · exact s.remapAll_ordered

theorem State.Turns.steered {s : State} {x : Int} {a : Fin 5} {n : Fin 32} (h : s.Turns x a n) : s.steered.Turns x a n := by
  unfold State.steered
  split
  · exact h.remapAll.recompute
  · exact h.remapAll

/-- Under FIXED without forced steer assist the remapping is all (R52). -/
theorem State.steered_fixed {s : State} (fixed : s.prop.diffMode = .fixed) (free : s.steer.forced = false) :
    s.steered = s.remapAll := by
  obtain ⟨prop, steer⟩ := s.remapAll_demanded
  have forced : s.remapAll.steer.forced = s.steer.forced := by rw [steer]
  unfold State.steered
  rw [prop, forced, fixed, free]
  exact if_neg fun h => h.elim nofun nofun

theorem State.steered_rests {s : State} (fixed : s.prop.diffMode = .fixed) (free : s.steer.forced = false) :
    s.steered.prop = s.prop ∧
      ((∀ a : Fin 5, s.steered.steer.actuators[a].ordered = s.steer.actuators[a].ordered) →
        s.steered.trans = s.trans ∧ s.steered.nodes = s.nodes) := by
  rw [State.steered_fixed fixed free]
  refine ⟨s.remapAll_demanded.1, fun still => ?_⟩
  rw [State.remapAll_still still]
  exact ⟨rfl, rfl⟩

theorem State.steered_auto {s : State} (h : s.prop.diffMode = .auto ∨ s.steer.forced = true) :
    s.steered = s.remapAll.recompute := by
  obtain ⟨prop, steer⟩ := s.remapAll_demanded
  have forced : s.remapAll.steer.forced = s.steer.forced := by rw [steer]
  unfold State.steered
  rw [prop, forced]
  exact if_pos h

/-- The recompute of a STEER forms the targets and brings the slewing up to date (R29). -/
theorem State.steered_recomputes {s : State} (h : s.prop.diffMode = .auto ∨ s.steer.forced = true) :
    s.steered.TargetsFormed ∧ ∀ i : Fin 6, s.Slewed s.prop.engines[i] s.steered.prop.engines[i] := by
  rw [State.steered_auto h]
  refine ⟨State.recompute_targets _, fun i => ?_⟩
  have slewed := s.remapAll.recompute_slewed i
  rw [s.remapAll_demanded.1] at slewed
  exact s.remapAll_worked.within.paced.slewed slewed

/-- What the demands written, the remapping and the recompute leave, from `s` to `u` (R28, R29, R52). -/
structure State.Obeys (s : State) (rudder : Int) (mode : BowMode) (bow : Int) (u : State) : Prop where
  within : Within .propulsion (s.demanding rudder mode bow) u
  ordered : u.Ordered
  turns : ∀ (a : Fin 5) (n : Fin 32), s.mayOrder a n → u.Turns s.steer.actuators[a].ordered a n
  rests : s.prop.diffMode = .fixed → s.steer.forced = false → u.prop = s.prop ∧
    ((∀ a : Fin 5, u.steer.actuators[a].ordered = s.steer.actuators[a].ordered) → u.trans = s.trans ∧ u.nodes = s.nodes)
  recomputes : s.prop.diffMode = .auto ∨ s.steer.forced = true →
    u.TargetsFormed ∧ ∀ i : Fin 6, s.Slewed s.prop.engines[i] u.prop.engines[i]

theorem State.demanding_obeys (s : State) (rudder : Int) (mode : BowMode) (bow : Int) :
    s.Obeys rudder mode bow (s.demanding rudder mode bow).steered where
  within := State.steered_within _
  ordered := State.steered_ordered _
  turns a n may := by
    have written : (s.demanding rudder mode bow).mayOrder a n := ⟨may.node, may.own, may.engines, may.alive, may.open_⟩
    exact written.turns.steered
  rests fixed free := State.steered_rests (s := s.demanding rudder mode bow) fixed free
  recomputes h := by
    obtain ⟨targets, slewed⟩ := State.steered_recomputes (s := s.demanding rudder mode bow) h
    have paced : s.Paced (s.demanding rudder mode bow) := ⟨rfl, rfl⟩
    exact ⟨targets, fun i => paced.slewed (slewed i)⟩

theorem State.stepExpiry_eq {s : State} {i : Fin 6} {at_ : Nat} (h : s.prop.engines[i].stepAt = some at_) :
    exec (.stepExpiry i) s = .next ((s.reach at_).takeStep i) := by
  show Host.Outcome.next (s.expire s.prop.engines[i].stepAt fun u => u.takeStep i) = _
  rw [h]
  rfl

end Sys2Proof.Machine

open Sys2Proof Sys2Proof.Machine

/-- Settles O28: the demands, the remapping, the recompute and the guard, in this order; each actuator whose node no other unit
names is followed through all of them. -/
theorem steerTaken : Obligations.SteerTaken := by
  refine ⟨fun s o r mode bow h => ?_, ?_⟩
  · have run : exec (.steer o r mode bow) s = .next (((s.frameEnd .W).decideSteer r mode bow).1.answer o 2
        ((s.frameEnd .W).decideSteer r mode bow).2) := congrArg Host.Outcome.next (h.commanded 2 _)
    refine ⟨fun m => ?_, fun m => ?_⟩
    · intro base kept
      rw [State.decideSteer_taken m, State.takeSteer_eq] at run
      dsimp only at run
      have obeys := (s.frameEnd .W).demanding_obeys (clamp (-450) 450 r.toInt) (if mode = 0 then .follow else .explicit)
        (if mode = 0 then (s.frameEnd .W).steer.bowDemand else clamp (-1000) 1000 bow.toInt)
      generalize State.steered _ = u at run obeys
      obtain ⟨within, ordered, turns, rests, recomputes⟩ := obeys
      have helm : u.helm = s.helm := within.written.helm
      have now : u.now = s.now := within.now
      rw [State.restartGuard_eq helm h.normal now] at run
      refine ⟨_, run, ?_, ordered, fun a n may moved free => ?_, rests, fun f => ?_⟩
      · have w := (within.withHelm base.helm).answered o 2 (if clamp (-450) 450 r.toInt = r.toInt ∧
          (mode = 0 ∨ clamp (-1000) 1000 bow.toInt = bow.toInt) then .taken else .clamped) s.link.own rfl
        rw [steer_answer] at w
        exact w
      · exact (turns a n ⟨may.node, may.own, may.engines, may.alive, may.open_⟩).carries moved free
      · obtain ⟨targets, slewed⟩ := recomputes f
        have profile : s.profile = u.profile := (State.profile_congr helm).symm
        exact ⟨targets.ofSame profile rfl rfl rfl rfl, fun i => (s.frameEnd_paced .W).slewed (slewed i)⟩
    · rw [State.decideSteer_unknown m] at run
      exact run
  · intro remapped
    refine ⟨fun s => ⟨fun a => ?_, fun a n may moved free => ?_⟩, fun s i at_ running => ?_⟩
    · have remaps := s.recompute_remaps a
      exact ⟨remaps.moves, remaps.stays⟩
    · exact may.turns.recompute.carries moved free
    · refine ⟨_, State.stepExpiry_eq running, fun a => ?_, fun a n may moved free => ?_⟩
      · have remaps := (s.reach at_).takeStep_remaps i a
        exact ⟨remaps.moves, remaps.stays⟩
      · have reached : (s.reach at_).mayOrder a n := may.ofSame (fun _ => rfl) (fun _ => rfl) rfl may.alive
        exact (reached.turns.takeStep i).carries moved free

end

