-- ==== Sys2Proof/Proofs/Towing.lean ====
section
/-! PROOF. Proofs/Towing.lean: what keeps coupling work in agreement with the couplings, and the tow ceilings with their
contributions (R79, R80, R84, R89, R93): the work of the coupling supervisor, which forms the ceilings after each move of a
coupling, and the work of the other blocks, which leaves both alone.
A table index gives its bound itself (`'c.isLt`): the default bound tactic would run at each one. -/

-- The whole text is compiled in one process under a memory limit: proofs one after another, and no linters.
set_option Elab.async false
set_option linter.all false

namespace Sys2Proof.Machine

/-! ### Changes that keep coupling work and the tow ceilings -/

/-- A change that keeps coupling work sound, and the tow ceilings formed. -/
structure Towed (s t : State) : Prop where
  sound : s.tow.Sound → t.tow.Sound
  ceilings : s.CeilingsFormed → t.CeilingsFormed

theorem Towed.same {s t : State} (tow : t.tow = s.tow) (profile : t.profile = s.profile) : Towed s t :=
  ⟨fun h => by rw [tow]; exact h, fun h => h.ofSame profile tow⟩

theorem Towed.refl (s : State) : Towed s s :=
  ⟨id, id⟩

theorem Towed.trans {s t u : State} (h : Towed s t) (k : Towed t u) : Towed s u :=
  ⟨k.sound ∘ h.sound, k.ceilings ∘ h.ceilings⟩

theorem Towed.foldl {α : Type} (f : State → α → State) (h : ∀ s a, Towed s (f s a)) (l : List α) (s : State) :
    Towed s (l.foldl f s) :=
  foldl_keeps f (Towed s) (fun u a k => k.trans (h u a)) l s (.refl s)

/-- A change that comes nowhere near the couplings or the profile in force. -/
theorem Towed.also {s t u : State} (h : Towed s t) (tow : u.tow = t.tow) (profile : u.profile = t.profile) : Towed s u :=
  h.trans (.same tow profile)

theorem Towed.after {s t u : State} (h : Towed t u) (tow : t.tow = s.tow) (profile : t.profile = s.profile) : Towed s u :=
  .trans (.same tow profile) h

/-- Work below the level of the tow ceilings. -/
theorem Worked.towed {x : Level} {s t : State} (w : Worked x s t) (l : x.rank < 2 := by decide) : Towed s t :=
  ⟨w.tow, fun h => w.within.ceilingsFormed h l⟩

theorem Noted.towed {s t : State} (h : Noted s t) : Towed s t := h.worked.towed

theorem Slotted.towed {s t : State} (h : Slotted s t) : Towed s t := h.worked.towed

theorem Towed.recompute {s t : State} (h : Towed s t) : Towed s t.recompute := h.trans t.recompute_worked.towed

theorem Towed.latch {s t : State} (h : Towed s t) (k : NoticeKind) (x : Byte) : Towed s (t.latch k x) :=
  h.trans (t.latch_noted k x).towed

theorem State.latch_towed (s : State) (k : NoticeKind) (x : Byte) : Towed s (s.latch k x) := (s.latch_noted k x).towed

theorem State.latchWhere_towed (s : State) (p : Prop) [Decidable p] (k : NoticeKind) (x : Byte) :
    Towed s (if p then s.latch k x else s) := by
  split
  · exact s.latch_towed k x
  · exact .refl s

/-- What forms the tow ceilings need only keep coupling work sound. -/
theorem Towed.formTow {s t : State} (h : s.tow.Sound → t.tow.Sound) : Towed s t.formTow :=
  ⟨fun k => t.formTow_worked.tow (h k), fun _ => t.formTow_ceilings⟩

theorem Towed.enterMode {s t : State} (h : s.tow.Sound → t.tow.Sound) : Towed s t.enterMode :=
  .formTow fun k => (State.recompute_worked t.setForced).tow (h k)

/-! ### The coupling supervisor (chapter 4) -/

/-- A coupling that keeps its state and what it bears on keeps its contribution. -/
theorem State.CeilingsFormed.modCoupling {s : State} (h : s.CeilingsFormed) (c : Fin 48) (f : Coupling → Coupling)
    (bears : (f (s.tow.couplings[c]'c.isLt)).entry.bearsOn = (s.tow.couplings[c]'c.isLt).entry.bearsOn)
    (state : (f (s.tow.couplings[c]'c.isLt)).state = (s.tow.couplings[c]'c.isLt).state) :
      (s.modCoupling c f).CeilingsFormed := by
  have each : ∀ d : Fin 48, (∀ b, ((s.modCoupling c f).tow.couplings[d]'d.isLt).on b ↔ (s.tow.couplings[d]'d.isLt).on b) ∧
      ∀ p, ((s.modCoupling c f).tow.couplings[d]'d.isLt).share p = (s.tow.couplings[d]'d.isLt).share p := fun d => by
    rw [State.modCoupling_coupling]
    split
    · next e =>
      subst e
      exact ⟨fun b => by unfold Coupling.on; rw [bears], fun p => by unfold Coupling.share; rw [state]⟩
    · exact ⟨fun _ => Iff.rfl, fun _ => rfl⟩
  refine ⟨h.top, fun b d on => ?_, fun b => ?_, h.applied, h.hold⟩
  · rw [(each d).2]
    exact h.bound b d (((each d).1 b).1 on)
  · obtain top | ⟨d, on, lowest⟩ := h.reached b
    · exact .inl top
    · exact .inr ⟨d, ((each d).1 b).2 on, by rw [(each d).2]; exact lowest⟩

theorem State.moveCoupling_formed {s : State} (h : s.CeilingsFormed) (c : Fin 48) (x : CouplingState) (m : Nat) :
    (s.moveCoupling c x m).CeilingsFormed := by
  unfold State.moveCoupling
  dsimp only
  split
  · next same => exact h.modCoupling c _ rfl same
  · exact State.formTow_ceilings _

theorem State.evaluateSample_towed (s : State) (c : Fin 48) (t : Nat) : Towed s (s.evaluateSample c t) := by
  refine ⟨(s.evaluateSample_worked c t).tow, fun h => ?_⟩
  unfold State.evaluateSample
  dsimp only
  split
  · split
    · split
      · split
        · exact State.formTow_ceilings _
        · exact h.modCoupling c _ rfl rfl
      · exact State.formTow_ceilings _
    · exact h.modCoupling c _ rfl rfl
  · split
    · exact State.formTow_ceilings _
    · exact h
  · exact State.moveCoupling_formed h c _ _

theorem State.tensionReading_towed (n : Fin 32) (s : State) (r : Byte × Half) : Towed s (State.tensionReading n s r) := by
  refine ⟨(State.tensionReading_worked n s r).tow, fun h => ?_⟩
  unfold State.tensionReading
  split
  · next c _ => exact ((s.evaluateSample_towed c r.2.toNat).ceilings h).modCoupling c _ rfl rfl
  · exact h

theorem Coupling.unheard_resting {k : Coupling}
    (h : ¬ (k.state = .slack ∨ k.state = .madeUp ∨ k.state = .alert ∨ k.state = .overload)) :
    k.unheard.entry = k.entry ∧ k.unheard.state = k.state := by
  unfold Coupling.unheard
  rw [if_neg h]
  split <;> exact ⟨rfl, rfl⟩

theorem State.couplingUnheard_towed (s : State) (c : Fin 48) : Towed s (s.couplingUnheard c) := by
  refine ⟨(s.couplingUnheard_worked c).tow, fun h => ?_⟩
  rw [State.couplingUnheard_eq]
  split
  · exact State.formTow_ceilings _
  · next resting =>
    obtain ⟨entry, state⟩ := Coupling.unheard_resting resting
    exact h.modCoupling c _ (by rw [entry]) state

theorem State.couplingsFollow_towed (s : State) (n : Fin 32) : Towed s (s.couplingsFollow n) := by
  unfold State.couplingsFollow
  split
  · exact .refl s
  · refine Towed.foldl _ (fun s c => ?_) _ s
    split
    · exact s.couplingUnheard_towed c
    · exact .refl s

theorem State.winchReport_towed (s : State) (n : Fin 32) (w : WinchCondition) : Towed s (s.winchReport n w) := by
  refine ⟨(s.winchReport_worked n w).tow, fun h => ?_⟩
  unfold State.winchReport
  split
  · dsimp only
    split
    · split
      · exact h
      · split
        · exact State.formTow_ceilings _
        · exact State.moveCoupling_formed h _ _ _
    · split
      · exact State.formTow_ceilings _
      · exact h
    · exact h
  · exact h

theorem State.abandonRelease_towed {s : State} {c : Fin 48} (h : (s.tow.couplings[c]'c.isLt).state = .releasing) :
    Towed s (s.abandonRelease c) :=
  ⟨(s.abandonRelease_worked c ((Coupling.working_iff _).2 (.inl h))).tow, fun _ => State.formTow_ceilings _⟩

theorem State.abandonMakeup_towed {s : State} {c : Fin 48} (h : (s.tow.couplings[c]'c.isLt).state = .makingUp) :
    Towed s (s.abandonMakeup c) :=
  ⟨(s.abandonMakeup_worked c ((Coupling.working_iff _).2 (.inr h))).tow, fun _ => State.formTow_ceilings _⟩

theorem State.slotLost_towed (s : State) (x : Slot) : Towed s (s.slotLost x) := by
  refine ⟨(s.slotLost_worked x).tow, fun h => ?_⟩
  unfold State.slotLost
  split
  · split
    · exact State.formTow_ceilings _
    · exact h
  · exact h

/-- At a hold expiry the applied ceiling of the boat rises to the computed one, and the timer stops (R80). -/
theorem State.holdEnds_towed (s : State) (b : Boat) : Towed s (s.holdEnds b) := by
  refine ⟨(s.holdEnds_worked b).tow, fun h => ?_⟩
  have raised : ({ s with tow := { s.tow with
      applied := s.tow.applied.set b (s.tow.computed.get b), holdAt := s.tow.holdAt.set b none } } : State).CeilingsFormed := by
    refine ⟨h.top, h.bound, h.reached, fun d => ?_, fun d => ?_⟩ <;> dsimp only
    · rw [PerBoat.get_set]
      split
      · next e => rw [e]
      · exact h.applied d
    · rw [PerBoat.get_set, PerBoat.get_set]
      split
      · next e => rw [e]; simp
      · exact h.hold d
  unfold State.holdEnds
  dsimp only
  split
  · exact raised
  · exact (State.recompute_worked _).towed.ceilings raised

/-! ### COUPLE (R84, R91, R93, R95) -/

/-- Work begun on a coupling where no other is in work, from a state that may be a prior one (R84, R93). -/
theorem State.beginWork_sound {s : State} (h : s.tow.Sound) {c : Fin 48} {x : CouplingState} {phase : Option ReleasePhase}
    (m : Nat) (free : s.busyWith c = false) (prior : (s.tow.couplings[c]'c.isLt).state.isPrior = true)
    (work : x = .releasing ∧ phase.isSome = true ∨ x = .makingUp ∧ phase = none) : (s.beginWork c x phase m).tow.Sound := by
  have idle : ∀ d : Fin 48, (s.tow.couplings[d]'d.isLt).working = false := fun d => by
    cases w : (s.tow.couplings[d]'d.isLt).working with
    | false => rfl
    | true =>
      have named := (h.work d).1 w
      unfold State.busyWith at free
      rw [named] at free
      have same : d = c := by simpa using free
      rw [same, Coupling.working_iff] at w
      obtain ⟨releasing, making⟩ := CouplingState.isPrior_idle prior
      exact (w.elim releasing making).elim
  have each : ∀ d : Fin 48, ((s.beginWork c x phase m).tow.couplings[d]'d.isLt) = if c = d then
      { s.tow.couplings[c]'c.isLt with
        prior := some (s.tow.couplings[c]'c.isLt).state, state := x, phase := phase, count := m, waitAt := s.waitStart }
      else s.tow.couplings[d]'d.isLt := fun d => State.modCoupling_coupling s c d _
  have begun : ({ s.tow.couplings[c]'c.isLt with
      prior := some (s.tow.couplings[c]'c.isLt).state, state := x, phase := phase, count := m,
      waitAt := s.waitStart } : Coupling).working = true := by
    rw [Coupling.working_iff]
    exact work.imp And.left And.left
  refine ⟨fun d => ?_, fun d => ?_, fun d k => ?_, fun d => ?_, fun d => ?_⟩ <;> rw [each] <;> split
  · next e => rw [begun, e]; exact ⟨fun _ => rfl, fun _ => rfl⟩
  · next n => exact ⟨fun w => (by rw [idle d] at w; cases w), fun w => absurd (Option.some.inj w) n⟩
  · rw [begun]; rfl
  · exact h.prior d
  · intro k'
    rw [← Option.some.inj k']
    exact prior
  · exact h.kinds d k
  · rw [begun]; rfl
  · exact h.wait d
  · obtain ⟨rfl, some⟩ | ⟨rfl, rfl⟩ := work
    · exact ⟨fun _ => rfl, fun _ => some⟩
    · exact ⟨fun k => (by cases k), fun k => (by cases k)⟩
  · exact h.phase d

theorem State.beginWork_formTow {s t : State} (k : Slotted s t) {c : Fin 48} {x : CouplingState}
    {phase : Option ReleasePhase} (m : Nat) (free : s.busyWith c = false)
    (prior : (s.tow.couplings[c]'c.isLt).state.isPrior = true)
    (work : x = .releasing ∧ phase.isSome = true ∨ x = .makingUp ∧ phase = none) :
    Towed s (t.beginWork c x phase m).formTow := by
  refine .formTow fun h => ?_
  have tow := k.tow
  refine State.beginWork_sound (k.towed.sound h) m ?_ ?_ work
  · unfold State.busyWith at free ⊢
    rw [tow]
    exact free
  · rw [tow]
    exact prior

theorem State.decideRelease_towed (s : State) (c : Fin 48) : Towed s (s.decideRelease c).1 := by
  unfold State.decideRelease
  dsimp only
  split
  · split
    · next state =>
      split
      · exact .refl s
      · next free =>
        split
        · dsimp only
          refine Towed.trans ?_ (State.orderRelease_worked _ c).towed
          refine State.beginWork_formTow (State.place_slotted _ _ _ _ _ _) _ (eq_false_of_ne_true free) ?_ (.inl ⟨rfl, rfl⟩)
          obtain e | e | e := state <;> rw [e] <;> rfl
        · exact .refl s
    · exact .refl s
  · exact .refl s

theorem State.decideMakeUp_towed (s : State) (c : Fin 48) : Towed s (s.decideMakeUp c).1 := by
  unfold State.decideMakeUp
  dsimp only
  split
  · split
    · next state =>
      split
      · exact .refl s
      · next free =>
        split
        · dsimp only
          refine State.beginWork_formTow (State.place_slotted _ _ _ _ _ _) _ (eq_false_of_ne_true free) ?_ (.inr ⟨rfl, rfl⟩)
          obtain e | e := state <;> rw [e] <;> rfl
        · exact .refl s
    · exact .refl s
  · exact .refl s

theorem State.decideCancel_towed (s : State) (c : Fin 48) : Towed s (s.decideCancel c).1 := by
  unfold State.decideCancel
  dsimp only
  split
  · next releasing =>
    dsimp only
    have ended := (s.endWork_worked c _ ((Coupling.working_iff _).2 (.inl releasing.1))
      fun h => Coupling.returnState_idle h c).trans (State.noteState_worked _ _ c)
    exact .formTow ended.tow
  · exact .refl s

theorem State.decideAccept_towed (s : State) (c : Fin 48) : Towed s (s.decideAccept c).1 := by
  unfold State.decideAccept
  dsimp only
  split
  · next parted =>
    refine ⟨(s.moveCoupling_worked c _ _ ?_ ⟨by decide, by decide⟩).tow, fun h => State.moveCoupling_formed h c _ _⟩
    unfold Coupling.working
    rw [parted]
    rfl
  · exact .refl s

theorem State.decideCouple_towed (x : Byte) {act : State → Fin 48 → State × Answer} (h : ∀ s c, Towed s (act s c).1)
    (s : State) : Towed s (s.decideCouple x act).1 := by
  unfold State.decideCouple
  split
  · split
    · exact .refl s
    · exact h s _
  · exact .refl s

/-! ### Engines and actuators (chapters 2 and 3) -/

theorem State.moveEngine_towed (s : State) (i : Fin 6) (x : EngineState) : Towed s (s.moveEngine i x) := by
  rw [State.moveEngine_eq]
  refine Towed.recompute ?_
  unfold State.withState
  dsimp only
  split
  · rw [State.leaveRunning_eq]
    exact (State.placeSetpoint_slotted _ i).towed.after rfl rfl
  · exact .same rfl rfl

theorem State.engineFollows_towed (s : State) (n : Fin 32) : Towed s (s.engineFollows n) := by
  unfold State.engineFollows
  split
  · split
    · split
      · exact s.moveEngine_towed _ _
      · exact .refl s
    · split
      · exact .refl s
      · exact ((Towed.refl s).latch _ _).trans (State.moveEngine_towed _ _ _)
  · exact .refl s

theorem State.engineReport_towed (s : State) (n : Fin 32) (r : RunState) (l : Half) (a : AlarmLevel) :
    Towed s (s.engineReport n r l a) := by
  unfold State.engineReport
  split
  · next i _ =>
    dsimp only
    have read : Towed s (s.modEngine i fun e => { e with load := l.toInt, health := healthOf a }) := .same rfl rfl
    refine Towed.trans ?_ (State.reviewZero_worked _).towed
    split
    · exact (read.trans (State.latchWhere_towed _ _ _ _)).trans (State.moveEngine_towed _ _ _)
    · split
      · exact (read.trans (State.latchWhere_towed _ _ _ _)).recompute
      · exact read.trans (State.latchWhere_towed _ _ _ _)
  · exact .refl s

theorem State.reviewForced_towed (s : State) : Towed s s.reviewForced :=
  State.reviewForced_keeps (P := Towed s) (fun _ k => k.also rfl rfl) (fun _ k => k.recompute) (.refl s)

theorem State.readyActuator_towed (s : State) (i : Fin 5) : Towed s (s.readyActuator i) :=
  (State.placeOrdered_slotted _ i).towed.after rfl rfl

theorem State.faultActuator_towed (s : State) (i : Fin 5) : Towed s (s.faultActuator i) :=
  (State.latch_towed _ _ _).after rfl rfl

theorem State.actuatorFollows_towed (s : State) (n : Fin 32) : Towed s (s.actuatorFollows n) := by
  unfold State.actuatorFollows
  split
  · next i _ =>
    dsimp only
    split
    · exact .refl s
    · split
      · split
        · exact (s.readyActuator_towed i).trans (State.reviewForced_towed _)
        · exact .refl s
      · split
        · exact .refl s
        · exact (s.faultActuator_towed i).trans (State.reviewForced_towed _)
      · exact (State.reviewForced_towed _).after rfl rfl
  · exact .refl s

theorem State.actuatorReport_towed (s : State) (n : Fin 32) (p : Half) (g : Option FaultFlag) :
    Towed s (s.actuatorReport n p g) := by
  unfold State.actuatorReport
  split
  · next i _ =>
    dsimp only
    have told : Towed s (s.modActuator i fun a => { a with reported := p.toInt }) := .same rfl rfl
    split
    · exact (told.trans (State.faultActuator_towed _ i)).trans (State.reviewForced_towed _)
    · exact (told.trans (State.faultActuator_towed _ i)).trans (State.reviewForced_towed _)
    · exact told.also rfl rfl
    · exact told.trans ((State.reviewForced_towed _).after rfl rfl)
    · exact (told.trans (State.readyActuator_towed _ i)).trans ((State.reviewForced_towed _).after rfl rfl)
    · exact told
  · exact .refl s

theorem State.diverge_towed (s : State) (i : Fin 5) : Towed s (s.diverge i) := by
  unfold State.diverge
  split
  · exact ((State.latch_towed _ _ _).trans (State.reviewForced_towed _)).after rfl rfl
  · exact .same rfl rfl

/-! ### Fuel (chapter 5) -/

theorem State.testLow_towed (s : State) (t : Fin 8) : Towed s (s.testLow t) := by
  unfold State.testLow
  dsimp only
  split
  · exact .refl s
  · exact ((State.latchWhere_towed _ _ _ _).recompute).after rfl rfl

theorem State.testReserve_towed (s : State) : Towed s s.testReserve := by
  unfold State.testReserve
  dsimp only
  split
  · exact .refl s
  · exact ((State.latchWhere_towed _ _ _ _).recompute).after rfl rfl

theorem State.testDiscrepant_towed (s : State) (t : Fin 8) : Towed s (s.testDiscrepant t) :=
  (State.latchWhere_towed _ _ _ _).after rfl rfl

theorem Towed.signed48 {s t : State} (h : Towed s t) (x : Int) : Towed s (t.signed48 x).2 := by
  unfold State.signed48
  split
  · exact h
  · exact h.also rfl rfl

theorem Towed.unsigned48 {s t : State} (h : Towed s t) (x : Nat) : Towed s (t.unsigned48 x).2 := by
  unfold State.unsigned48
  split
  · exact h
  · exact h.also rfl rfl

/-- A tank whose figures have been written, LOW tested where its quantity has changed (R112). -/
theorem Towed.tank {s t : State} (h : Towed s t) (i : Fin 8) (f : Tank → Tank) (p : Prop) [Decidable p] :
    Towed s (if p then t.modTank i f else (t.modTank i f).testLow i) := by
  split
  · exact h.also rfl rfl
  · exact h.trans ((State.testLow_towed _ i).after rfl rfl)

theorem State.takeFuel_towed (s : State) (t : Fin 8) (a : Int) : Towed s (s.takeFuel t a) := by
  unfold State.takeFuel
  split
  · exact (((Towed.refl s).unsigned48 _).unsigned48 _).tank t _ _
  · exact (((Towed.refl s).unsigned48 _).unsigned48 _).tank t _ _

theorem State.burn_towed (s : State) (e : Fin 6) (a : Int) : Towed s (s.burn e a) :=
  ((((Towed.refl s).signed48 _).signed48 _).signed48 _).trans ((State.testReserve_towed _).after rfl rfl)

theorem State.takeService_towed (s : State) (e : Fin 6) (a : Int) : Towed s (s.takeService e a) := by
  unfold State.takeService
  split
  · exact s.takeFuel_towed _ a
  · exact .refl s

theorem State.book_towed (s : State) (m : MeterEntry) (a : Int) : Towed s (s.book m a) := by
  unfold State.book
  split
  · exact .refl s
  · split
    · split
      · exact (s.burn_towed _ _).trans (State.takeService_towed _ _ _)
      · exact .refl s
    · split
      · exact (s.burn_towed _ _).trans (State.takeService_towed _ _ _)
      · exact .refl s
    · split
      · exact (s.takeFuel_towed _ _).trans (State.takeFuel_towed _ _ _)
      · exact .refl s
    · split
      · exact ((s.takeFuel_towed _ _).signed48 _).also rfl rfl
      · exact .refl s

theorem State.flowReading_towed (n : Fin 32) (s : State) (r : Byte × Quad) : Towed s (State.flowReading n s r) := by
  unfold State.flowReading
  split
  · dsimp only
    split
    · exact .refl s
    · split
      · exact .same rfl rfl
      · split
        · exact (State.latch_towed _ _ _).after rfl rfl
        · exact (s.book_towed _ _).also rfl rfl
  · exact .refl s

theorem State.levelReading_towed (n : Fin 32) (s : State) (r : Byte × Quad) : Towed s (State.levelReading n s r) := by
  unfold State.levelReading
  split
  · exact (State.testDiscrepant_towed _ _).after rfl rfl
  · exact .refl s

theorem State.startEstimating_towed (s : State) (i : Fin 16) : Towed s (s.startEstimating i) :=
  (State.latch_towed _ _ _).after rfl rfl

theorem State.tick_towed (s : State) (i : Fin 16) : Towed s (s.tick i) :=
  (s.book_towed _ _).also rfl rfl

theorem State.metersFollow_towed (s : State) (n : Fin 32) : Towed s (s.metersFollow n) := by
  unfold State.metersFollow
  split
  · exact .refl s
  · refine Towed.foldl _ (fun s i => ?_) _ s
    split
    · exact s.startEstimating_towed i
    · exact .refl s

theorem State.placeBlocks_towed (l : List Block) (s : State) : Towed s (s.placeBlocks l) := by
  induction l generalizing s with
  | nil => exact (State.latch_towed _ _ _).after rfl rfl
  | cons b l ih =>
    unfold State.placeBlocks
    split
    · exact (ih _).after rfl rfl
    · exact .same rfl rfl

theorem State.sendStatement_towed (s : State) : Towed s s.sendStatement :=
  (State.placeBlocks_towed _ _).after rfl rfl

end Sys2Proof.Machine

end

