-- ==== Sys2Proof/Proofs/StepTowing.lean ====
section
/-! PROOF. Proofs/StepTowing.lean: what the roster, the frames, the orders, the table writes of couplings and profiles, and
the requests do, each of which keeps coupling work and the tow ceilings.
A table index gives its bound itself (`'c.isLt`): the default bound tactic would run at each one. -/

-- The whole text is compiled in one process under a memory limit: proofs one after another, and no linters.
set_option Elab.async false
set_option linter.all false

namespace Sys2Proof.Machine

/-! ### The roster and the slots (6.2, 6.3) -/

theorem State.handOver_towed (s : State) (n : Fin 32) : Towed s (s.handOver n) :=
  (((s.engineFollows_towed n).trans (State.actuatorFollows_towed _ n)).trans (State.couplingsFollow_towed _ n)).trans
    (State.metersFollow_towed _ n)

theorem State.hear_towed (s : State) (n : Fin 32) : Towed s (s.hear n) := by
  unfold State.hear
  split
  · exact .same rfl rfl
  · exact (State.handOver_towed _ n).after rfl rfl
  · exact .refl s

theorem State.arrive_towed (s : State) (p : Port) (a : Byte) : Towed s (s.arrive p a) := by
  unfold State.arrive State.heard
  split
  · exact (State.hear_towed _ _).after rfl rfl
  · exact .same rfl rfl

theorem State.enrolNode_towed (s : State) (n : Fin 32) : Towed s (s.enrolNode n) := by
  unfold State.enrolNode
  split
  · exact .refl s
  · exact (State.latch_towed _ _ _).after rfl rfl
  · refine Towed.trans ?_ (State.handOver_towed _ n)
    exact (State.latch_towed _ _ _).after rfl rfl
  · refine Towed.trans ?_ (State.handOver_towed _ n)
    exact (State.latch_towed _ _ _).after rfl rfl

theorem State.takeEnrol_towed (s : State) (p : Port) (a : Byte) (l : List Byte) : Towed s (s.takeEnrol p a l) := by
  unfold State.takeEnrol
  split
  · split
    · exact s.enrolNode_towed _
    · unfold State.enrolMismatch
      refine Towed.trans ?_ (State.latch_towed _ _ _)
      split
      · exact .same rfl rfl
      · exact .refl s
  · exact .refl s

theorem State.silencePort_towed (s : State) (p : Port) : Towed s (s.silencePort p) := by
  unfold State.silencePort
  dsimp only
  have silenced := Towed.foldl State.silenceNode (fun _ _ => .same rfl rfl) (s.enrolledOn p) s
  exact silenced.trans (Towed.foldl _ (fun u n => (u.latch_towed _ _).trans (State.handOver_towed _ n)) _ _)

theorem State.failNode_towed (s : State) (n : Fin 32) : Towed s (s.failNode n) := by
  unfold State.failNode
  dsimp only
  refine Towed.trans ?_ (State.handOver_towed _ n)
  generalize failing : (s.modNode n _).latch .nodeFailed (subjectOf n) = u
  have failed : Towed s u := by
    rw [← failing]
    exact (State.latch_towed _ _ _).after rfl rfl
  split
  · next i _ => exact (failed.trans (u.endSlot_slotted i).towed).trans (State.slotLost_towed _ _)
  · exact failed

theorem State.queueSlot_towed (s : State) (i : Fin 16) : Towed s (s.queueSlot i) := by
  refine .same ?_ ?_ <;> unfold State.queueSlot State.joinLane <;> split <;> rfl

theorem State.wakeSlot_towed (s : State) (n : Fin 32) : Towed s (s.wakeSlot n) := by
  unfold State.wakeSlot
  split
  · split
    · exact s.queueSlot_towed _
    · exact .refl s
  · exact .refl s

/-- A slot ended, its node changed and its owner told (R140, R142). -/
theorem State.slotEnded_towed (s : State) (i : Fin 16) (n : Fin 32) (f : Node → Node) (x : Slot) :
    Towed s (((s.endSlot i).modNode n f).orderEnded x) :=
  (s.endSlot_slotted i).towed.trans ((State.orderEnded_worked _ x).towed.after rfl rfl)

theorem State.slotTimeout_towed (s : State) (i : Fin 16) : Towed s (s.slotTimeout i) := by
  unfold State.slotTimeout
  dsimp only
  have ended := s.slotEnded_towed i (s.trans.slots[i]'i.isLt).target (fun n => { n with timeouts := n.timeouts + 1 })
    (s.trans.slots[i]'i.isLt)
  split
  · exact ended.trans (State.failNode_towed _ _)
  · exact ended.trans (State.wakeSlot_towed _ _)

/-! ### Frames (chapters 7 and 8) -/

theorem State.jobReads_towed (s : State) (j : Job) (n : Fin 32) (c : Content) : Towed s (s.jobReads j n c) := by
  unfold State.jobReads
  split
  · exact s.engineReport_towed n _ _ _
  · exact s.actuatorReport_towed n _ _
  · exact Towed.foldl _ (State.tensionReading_towed n) _ s
  · exact s.winchReport_towed n _
  · exact Towed.foldl _ (State.flowReading_towed n) _ s
  · exact Towed.foldl _ (State.levelReading_towed n) _ s
  · exact .refl s

theorem State.forwardCopy_towed (s : State) (p : Port) (f : Frame) : Towed s (s.forwardCopy p f) := by
  unfold State.forwardCopy
  split
  · next e => rw [State.placeFrame_eq e]; exact .same rfl rfl
  · exact s.latch_towed _ _

theorem State.passOn_towed (s : State) (p : Port) (f : Frame) (x : PortSet) : Towed s (s.passOn p f x) := by
  refine Towed.foldl _ (fun u q => ?_) allPorts s
  unfold State.copyTo
  split
  · exact u.forwardCopy_towed q f
  · exact .refl u

theorem State.dispose_towed (s : State) (p : Port) (f : Frame) (c : Content) : Towed s (s.dispose p f c) := by
  have taken : Towed s
      (if (s.fwd.disposition p f).1.takes then s.deliver p f.src c (s.fwd.disposition p f).2.1 else s) := by
    unfold State.deliver
    split
    · split
      · exact s.jobReads_towed _ _ _
      · exact .refl s
    · exact .refl s
  unfold State.dispose
  dsimp only
  split
  · exact taken.trans (State.passOn_towed _ _ _ _)
  · exact taken

theorem State.receive_towed {s : State} {p : Port} {act : State → State} (h : Towed s (act s)) :
    Towed s (s.receive p act) := by
  unfold State.receive
  split
  · exact h
  · exact .refl s

theorem State.passage_towed (s : State) (p : Port) (f : Frame) (c : Content) : Towed s (s.passage p f c) :=
  State.receive_towed ((s.arrive_towed p f.src).trans (State.dispose_towed _ p f c))

theorem State.readEcho_towed (s : State) (n : Fin 32) (x : Half) : Towed s (s.readEcho n x) := by
  unfold State.readEcho
  split
  · exact s.actuatorReport_towed n x none
  · exact .refl s

theorem State.readFull_towed (s : State) (n : Fin 32) (r : RunState) (l : Half) (a : AlarmLevel) :
    Towed s (s.readFull n r l a) := by
  unfold State.readFull
  split
  · exact s.engineReport_towed n r l a
  · exact .refl s

theorem State.complete_towed (s : State) (n : Fin 32) (i : Fin 16) : Towed s (s.complete n i) :=
  s.slotEnded_towed i n _ _

theorem State.takeEcho_towed (s : State) (p : Port) (o : Origin) (x : Half) : Towed s (s.takeEcho p o x) := by
  unfold State.takeEcho
  split
  · next n _ =>
    split
    · exact .refl s
    · split
      · next i _ =>
        refine ((s.complete_towed n i).trans ?_).trans (State.wakeSlot_towed _ n)
        unfold State.echoOwner
        split
        · exact State.readEcho_towed _ _ x
        · exact .refl _
      · exact s.readEcho_towed _ x
  · exact .refl s

theorem State.takeFull_towed (s : State) (p : Port) (o : Origin) (r : RunState) (l : Half) (a : AlarmLevel) :
    Towed s (s.takeFull p o r l a) := by
  unfold State.takeFull
  split
  · next n _ =>
    split
    · exact .refl s
    · split
      · next i _ =>
        refine ((s.complete_towed n i).trans ?_).trans (State.wakeSlot_towed _ n)
        unfold State.fullOwner
        split
        · exact State.readFull_towed _ _ r l a
        · exact .refl _
      · exact s.readFull_towed _ r l a
  · exact .refl s

/-! ### The link ports (chapter 7) -/

theorem State.modLine_towed (s : State) (p : Port) (f : Line → Line) : Towed s (s.modLine p f) :=
  .same rfl rfl

theorem State.discardQueue_towed (s : State) (p : Port) : Towed s (s.discardQueue p) :=
  .same rfl rfl

theorem State.startSending_towed (s : State) (p : Port) : Towed s (s.startSending p) := by
  have taken : ∀ (u : State) (x : Source), Towed u (u.takeSource x) := fun u x => by
    unfold State.takeSource
    split
    · exact .same rfl rfl
    · exact .refl u
  unfold State.startSending
  split
  · split
    · exact ((taken _ _).trans (State.modLine_towed _ p _)).after rfl rfl
    · exact .refl s
  · exact .refl s

theorem State.endSending_towed (s : State) (p : Port) : Towed s (s.endSending p) := by
  unfold State.endSending
  split
  · dsimp only
    unfold State.completeSource
    split <;> exact .same rfl rfl
  · exact .refl s

theorem State.breakLine_towed (s : State) (p : Port) : Towed s (s.breakLine p) := by
  unfold State.breakLine
  split
  · exact ((State.silencePort_towed _ p).trans (State.discardQueue_towed _ p)).after rfl rfl
  · exact .refl s

theorem State.raiseLine_towed (s : State) (p : Port) (b : Byte) : Towed s (s.raiseLine p b) := by
  unfold State.raiseLine
  split
  · exact .same rfl rfl
  · exact .refl s

theorem State.resumeStatement_towed (s : State) : Towed s s.resumeStatement := by
  unfold State.resumeStatement
  split
  · exact s.sendStatement_towed
  · exact .refl s

/-! ### The shared shapes of commands -/

theorem State.answer_towed (s : State) (o : Origin) (k : Byte) (a : Answer) : Towed s (s.answer o k a) :=
  .same rfl rfl

theorem State.reply_towed (s : State) (o : Origin) (k : Byte) (a : Status) (l : List Byte) : Towed s (s.reply o k a l) :=
  .same rfl rfl

theorem State.order_towed {s : State} {o : Origin} {k : Byte} {act : State → State × Answer}
    (h : ∀ u, Towed u (act u).1) : Towed s (s.order o k act) := by
  obtain ⟨_, e⟩ | ⟨_, _, e⟩ | ⟨_, e⟩ := s.order_cases o k act <;> rw [e]
  · exact .refl s
  · exact .same rfl rfl
  · exact ((h _).trans (State.answer_towed _ _ _ _)).after rfl rfl

theorem State.commanded_towed {s : State} {o : Origin} {k : Byte} {act : State → State × Answer}
    (h : ∀ u, Towed u (act u).1) : Towed s (s.commanded o k act) := by
  refine State.order_towed fun u => ?_
  split
  · exact .refl u
  · exact h u

theorem State.request_towed {s : State} {o : Origin} {act : State → State} (h : ∀ u, Towed u (act u)) :
    Towed s (s.request o act) := by
  obtain ⟨_, e⟩ | ⟨_, _, e⟩ | ⟨_, e⟩ := s.request_cases o act <;> rw [e]
  · exact .refl s
  · exact .same rfl rfl
  · exact (h _).after rfl rfl

theorem State.tableWrite_towed {s : State} {o : Origin} {t i : Byte} {act : State → State × Status}
    (h : ∀ u, Towed u (act u).1) : Towed s (s.tableWrite o t i act) :=
  State.request_towed fun u => (h u).trans (State.reply_towed _ _ _ _ _)

theorem State.expire_towed {s : State} {t : Timer} {act : State → State} (h : ∀ u, Towed u (act u)) :
    Towed s (s.expire t act) := by
  unfold State.expire
  split
  · exact (h _).after rfl rfl
  · exact .refl s

/-! ### The wheelhouse orders (chapters 1 to 3) -/

theorem State.restartGuard_towed (s : State) : Towed s s.restartGuard := by
  unfold State.restartGuard
  split
  · exact .same rfl rfl
  · exact .refl s

theorem State.resetGuard_towed (s : State) : Towed s s.resetGuard :=
  .same rfl rfl

theorem State.decidePropel_towed (p : Half) (m : Byte) (d : Half) (f : Byte) (s : State) :
    Towed s (s.decidePropel p m d f).1 := by
  unfold State.decidePropel
  split
  · exact .refl s
  · have crashed : Towed s (if f.getLsbD 0 then s.crashStop else s) := by
      split
      · exact s.crashStop_worked.towed
      · exact .refl s
    unfold State.takePropel
    dsimp only
    generalize (if f.getLsbD 0 then s.crashStop else s) = u at crashed ⊢
    refine Towed.trans (Towed.recompute (crashed.trans ?_)) (State.restartGuard_towed _)
    exact .same rfl rfl

theorem State.decideSteer_towed (r : Half) (m : Byte) (b : Half) (s : State) : Towed s (s.decideSteer r m b).1 := by
  unfold State.decideSteer
  split
  · exact .refl s
  · unfold State.takeSteer
    dsimp only
    refine Towed.trans ?_ (State.restartGuard_towed _)
    generalize remaps : State.remapAll _ = u
    have remapped : Towed s u := by
      rw [← remaps]
      exact (State.remapAll_worked _).towed.after rfl rfl
    split
    · exact remapped.recompute
    · exact remapped

theorem State.decideMode_towed (x : Byte) (s : State) : Towed s (s.decideMode x).1 := by
  unfold State.decideMode
  split
  · split
    · exact .refl s
    · dsimp only
      refine Towed.trans ?_ (State.resetGuard_towed _)
      exact .enterMode id
  · exact .refl s

theorem State.transferTo_towed (s : State) (a : Byte) : Towed s (s.transferTo a) := by
  unfold State.transferTo
  split
  · exact .refl s
  · exact (State.latch_towed _ _ _).after rfl rfl

theorem State.decideTakeCommand_towed (o : Origin) (s : State) : Towed s (s.decideTakeCommand o).1 := by
  unfold State.decideTakeCommand
  split
  · exact .refl s
  · split
    · exact .refl s
    · dsimp only
      split
      · exact (s.transferTo_towed _).also rfl rfl
      · exact s.transferTo_towed _

theorem State.decideHelmResume_towed (o : Origin) (s : State) : Towed s (s.decideHelmResume o).1 := by
  unfold State.decideHelmResume
  split
  · exact .refl s
  · split
    · dsimp only
      unfold State.resumeHelm
      refine Towed.trans ?_ ((State.transferTo_towed _ _).trans (State.resetGuard_towed _))
      exact .enterMode id
    · exact .refl s

theorem State.loseHelm_towed (s : State) : Towed s s.loseHelm := by
  unfold State.loseHelm
  refine Towed.enterMode fun h => ?_
  rw [(State.latch_noted _ _ _).tow]
  exact h

/-! ### Table writes -/

/-- A live write of a coupling keeps what it bears on (R69, R70). -/
theorem CouplingRaw.entry?_bearsOn {r : CouplingRaw} {e k : CouplingEntry} (h : CouplingRaw.entry? r = some e)
    (live : CouplingRaw.changesStructure r k = false) : e.bearsOn = k.bearsOn := by
  have second : r.bearsOn = k.bearsOn.byte := by
    unfold CouplingRaw.changesStructure at live
    have same : r.bytes.take 5 = k.structureBytes := by simpa using live
    exact (List.cons.inj (List.cons.inj same).2).1
  unfold CouplingRaw.entry? at h
  split at h
  · split at h
    · rw [← Option.some.inj h]
      dsimp only
      rw [second]
      cases k.bearsOn <;> rfl
    · cases h
  · cases h

theorem CouplingEntry.started_idle (e : CouplingEntry) : e.started.working = false ∧ e.started.state ≠ .releasing := by
  unfold Coupling.working CouplingEntry.started
  dsimp only
  split <;> exact ⟨rfl, by decide⟩

theorem State.takeCoupling_towed {s : State} {c : Fin 48} {r : CouplingRaw} {e : CouplingEntry}
    (h : CouplingRaw.entry? r = some e)
    (idle : ¬ ((s.tow.couplings[c]'c.isLt).state = .releasing ∨ (s.tow.couplings[c]'c.isLt).state = .makingUp)) :
    Towed s (s.takeCoupling c e (CouplingRaw.changesStructure r (s.tow.couplings[c]'c.isLt).entry)) := by
  have rests : (s.tow.couplings[c]'c.isLt).working = false := by
    rw [← Bool.not_eq_true, Coupling.working_iff]
    exact idle
  unfold State.takeCoupling
  split
  · refine .formTow fun sound => ?_
    obtain ⟨working, releasing⟩ := e.started_idle
    have each : ∀ d : Fin 48, ((s.modCoupling c fun _ => e.started).tow.couplings[d]'d.isLt) =
      if c = d then e.started else s.tow.couplings[d]'d.isLt := fun d => State.modCoupling_coupling s c d _
    refine ⟨fun d => ?_, fun d => ?_, fun d k => ?_, fun d => ?_, fun d => ?_⟩ <;> rw [each] <;> split
    · next same =>
      have off := (sound.work c).not.1 (by rw [rests]; decide)
      rw [working, ← same]
      exact ⟨nofun, fun k => absurd k off⟩
    · exact sound.work d
    · rw [working]; rfl
    · exact sound.prior d
    · exact nofun
    · exact sound.kinds d k
    · rw [working]; rfl
    · exact sound.wait d
    · exact ⟨nofun, fun k => absurd k releasing⟩
    · exact sound.phase d
  · next live =>
    refine ⟨fun sound => ?_, fun formed => formed.modCoupling c _ ?_ rfl⟩
    · have each : ∀ d : Fin 48, ∀ {α : Type} (g : Coupling → α), (∀ k, g { k with entry := e } = g k) →
          g ((s.modCoupling c fun k => { k with entry := e }).tow.couplings[d]'d.isLt) = g (s.tow.couplings[d]'d.isLt) :=
            fun d _ g k => by
        rw [State.modCoupling_coupling]
        split
        · next same => rw [k, same]
        · rfl
      refine sound.of_same rfl fun d => ⟨each d Coupling.working fun _ => rfl, each d Coupling.prior fun _ => rfl, ?_, ?_, ?_⟩
      · rw [each d Coupling.waitAt fun _ => rfl]
      · rw [each d Coupling.phase fun _ => rfl]
      · rw [each d Coupling.state fun _ => rfl]
    · exact CouplingRaw.entry?_bearsOn h (by simpa using live)

theorem State.writeCoupling_towed (i : Byte) (r : CouplingRaw) (s : State) : Towed s (s.writeCoupling i r).1 := by
  unfold State.writeCoupling
  split
  · dsimp only
    split
    · exact .refl s
    · split
      · next read =>
        split
        · exact .refl s
        · split
          · exact .refl s
          · next idle => exact State.takeCoupling_towed read idle
      · exact .refl s
  · exact .refl s

theorem State.takeMode_towed (s : State) (m : Fin 8) (p : Profile) : Towed s (s.takeMode m p) := by
  have guarded : ∀ u : State, Towed u u.guardWritten := fun u => by
    unfold State.guardWritten
    split
    · exact .same rfl rfl
    · split
      · exact u.restartGuard_towed
      · exact .refl u
  by_cases inForce : m = s.helm.mode
  · subst inForce
    rw [s.takeMode_inForce]
    refine Towed.trans (.formTow fun h => ?_) (guarded _)
    unfold State.reprofiled
    dsimp only
    split
    · exact (State.recompute_worked _).tow h
    · exact h
  · unfold State.takeMode
    rw [if_neg inForce]
    refine .same rfl ?_
    show (s.helm.modes.set m p)[s.helm.mode] = _
    rw [set_get, if_neg inForce]
    rfl

theorem State.takeRoster_towed (s : State) (n : Fin 32) (e : NodeEntry) : Towed s (s.takeRoster n e) := by
  unfold State.takeRoster
  split
  · dsimp only
    split
    · exact .same rfl rfl
    · exact (State.handOver_towed _ n).after rfl rfl
  · exact .same rfl rfl

theorem State.takeEngine_towed (s : State) (i : Fin 6) (e : EngineEntry) (b : Bool) : Towed s (s.takeEngine i e b) :=
  (State.recompute_worked _).towed.after rfl rfl

theorem State.takeActuator_towed (s : State) (i : Fin 5) (e : ActuatorEntry) : Towed s (s.takeActuator i e) := by
  unfold State.takeActuator
  dsimp only
  refine Towed.trans ?_ ((State.placeOrdered_slotted _ i).towed.trans (State.reviewForced_towed _))
  exact (State.latchWhere_towed _ _ _ _).after rfl rfl

theorem State.takeTank_towed (s : State) (t : Fin 8) (e : TankEntry) : Towed s (s.takeTank t e) := by
  have tested : Towed s ((s.modTank t e.written).testLow t) := (State.testLow_towed _ t).after rfl rfl
  unfold State.takeTank
  dsimp only
  split
  · exact tested.recompute
  · exact tested

/-! ### Requests -/

theorem State.reportNew_towed (s : State) (c : Fin 8) : Towed s (s.reportNew c) := by
  unfold State.reportNew
  split
  · exact (s.buildReport_noted c).towed
  · exact .refl s

theorem State.decideSetup_towed (o : Origin) (m c a d : Byte) (s : State) : Towed s (s.decideSetup o m c a d) := by
  unfold State.decideSetup
  split
  · exact ((Towed.foldl _ State.reportNew_towed _ _).trans (State.reply_towed _ _ _ _ _)).after rfl rfl
  · exact .same rfl rfl

theorem State.clearNotices_towed (s : State) (ns : List Notice) : Towed s (s.clearNotices ns) :=
  ((foldl_relatch_noted ns (s.removeNotices ns, false)).trans (lossNoted_noted _)).towed.after rfl rfl

theorem State.readNotices_towed (o : Origin) (c x : Byte) (s : State) : Towed s (s.readNotices o c x) := by
  unfold State.readNotices
  split
  · dsimp only
    refine Towed.trans ?_ (State.reply_towed _ _ _ _ _)
    split
    · exact .refl s
    · exact (State.clearNotices_towed _ _).after rfl rfl
  · exact .same rfl rfl

theorem State.takeClear_towed (o : Origin) (k x y : Byte) (s : State) : Towed s (s.takeClear o k x y) := by
  unfold State.takeClear
  split
  · exact (s.clearNotices_towed _).trans (State.reply_towed _ _ _ _ _)
  · exact .same rfl rfl

theorem State.takePreset_towed (o : Origin) (t : Byte) (q : Quad) (s : State) : Towed s (s.takePreset o t q) := by
  unfold State.takePreset
  split
  · split
    · exact .same rfl rfl
    · exact (((State.testLow_towed _ _).trans (State.testDiscrepant_towed _ _)).trans (State.reply_towed _ _ _ _ _)).after rfl rfl
  · exact .same rfl rfl

theorem State.takeLeg_towed (o : Origin) (b m : Quad) (s : State) : Towed s (s.takeLeg o b m) := by
  unfold State.takeLeg
  split
  · exact .same rfl rfl
  · exact ((State.testReserve_towed _).trans (State.reply_towed _ _ _ _ _)).after rfl rfl

theorem State.takeStatement_towed (o : Origin) (s : State) : Towed s (s.takeStatement o) := by
  unfold State.takeStatement
  split
  · exact .same rfl rfl
  · exact ((State.sendStatement_towed _).trans (State.reply_towed _ _ _ _ _)).after rfl rfl

theorem State.takeRestart_towed (o : Origin) (s : State) : Towed s (s.takeRestart o) := by
  have sound : s.warmRestart.tow.Sound := by
    have rests : ∀ k : Coupling, k.restarted.state ≠ .releasing ∧ k.restarted.working = false := fun k => by
      unfold Coupling.working Coupling.restarted
      dsimp only
      cases k.state <;> exact ⟨by decide, rfl⟩
    refine ⟨fun c => ?_, fun c => ?_, fun c k => ?_, fun c => ?_, fun c => ?_⟩ <;> rw [s.warmRestart_coupling]
    · rw [(rests _).2]; exact ⟨nofun, nofun⟩
    · rw [(rests _).2]; rfl
    · exact nofun
    · rw [(rests _).2]; rfl
    · exact ⟨nofun, fun e => absurd e (rests _).1⟩
  unfold State.takeRestart
  split
  · exact Towed.also (t := s.warmRestart) ⟨fun _ => sound, fun _ => s.warmRestart_ceilings⟩ rfl rfl
  · exact .same rfl rfl

end Sys2Proof.Machine

end

