-- ==== Sys2Proof/Proofs/StepTowingKept.lean ====
section
/-! PROOF. Proofs/StepTowingKept.lean: the remaining table writes and requests, every command, and from them that every step
keeps coupling work in agreement with the couplings and the tow ceilings formed (O11).
A table index gives its bound itself (`'c.isLt`): the default bound tactic would run at each one. -/

-- The whole text is compiled in one process under a memory limit: proofs one after another, and no linters.
set_option Elab.async false
set_option linter.all false

namespace Sys2Proof.Machine

/-! ### The other table writes -/

theorem State.writeStation_towed (i a : Byte) (s : State) : Towed s (s.writeStation i a).1 := by
  unfold State.writeStation
  split
  · exact .refl s
  · split
    · split
      · exact .refl s
      · exact .same rfl rfl
    · exact .refl s

theorem State.writeRoster_towed (i : Byte) (r : RosterRaw) (s : State) : Towed s (s.writeRoster i r).1 := by
  unfold State.writeRoster
  split
  · exact .refl s
  · split
    · dsimp only
      split
      · exact .refl s
      · split
        · exact .refl s
        · split
          · exact .refl s
          · exact s.takeRoster_towed _ _
    · exact .refl s

theorem State.writePassage_towed (i : Byte) (r : PassageRaw) (s : State) : Towed s (s.writePassage i r).1 := by
  unfold State.writePassage
  split
  · exact .refl s
  · split
    · split
      · exact .refl s
      · exact .same rfl rfl
    · exact .refl s

theorem State.writeDefault_towed (i : Byte) (r : DefaultRaw) (s : State) : Towed s (s.writeDefault i r).1 := by
  unfold State.writeDefault
  split
  · exact .refl s
  · split
    · split
      · exact .refl s
      · exact .same rfl rfl
    · exact .refl s

theorem State.writeMode_towed (i : Byte) (r : ModeRaw) (s : State) : Towed s (s.writeMode i r).1 := by
  unfold State.writeMode
  split
  · split
    · exact s.takeMode_towed _ _
    · exact .refl s
  · exact .refl s

theorem State.writeEngine_towed (i : Byte) (r : EngineRaw) (s : State) : Towed s (s.writeEngine i r).1 := by
  unfold State.writeEngine
  split
  · dsimp only
    split
    · exact .refl s
    · split
      · split
        · exact .refl s
        · split
          · exact .refl s
          · dsimp only
            exact s.takeEngine_towed _ _ _
      · exact .refl s
  · exact .refl s

theorem State.writeActuator_towed (i : Byte) (r : ActuatorRaw) (s : State) : Towed s (s.writeActuator i r).1 := by
  unfold State.writeActuator
  split
  · exact .refl s
  · split
    · split
      · split
        · exact .refl s
        · exact s.takeActuator_towed _ _
      · exact .refl s
    · exact .refl s

theorem State.writeTank_towed (i : Byte) (r : TankRaw) (s : State) : Towed s (s.writeTank i r).1 := by
  unfold State.writeTank
  split
  · dsimp only
    split
    · exact .refl s
    · split
      · split
        · exact .refl s
        · split
          · exact .refl s
          · exact s.takeTank_towed _ _
      · exact .refl s
  · exact .refl s

theorem State.writeMeter_towed (i : Byte) (r : MeterRaw) (s : State) : Towed s (s.writeMeter i r).1 := by
  unfold State.writeMeter
  split
  · exact .refl s
  · split
    · split
      · split
        · exact .refl s
        · exact .same rfl rfl
      · exact .refl s
    · exact .refl s

theorem State.writeMap_towed (k c : Byte) (s : State) : Towed s (s.writeMap k c).1 := by
  unfold State.writeMap
  split
  · exact .same rfl rfl
  · exact .refl s

/-! ### Requests that change neither -/

theorem State.readTable_towed (o : Origin) (t i : Byte) (s : State) : Towed s (s.readTable o t i) := by
  unfold State.readTable
  split <;> exact s.reply_towed _ _ _ _

theorem State.readState_towed (o : Origin) (r i p : Byte) (s : State) : Towed s (s.readState o r i p) := by
  unfold State.readState
  split
  · split <;> exact s.reply_towed _ _ _ _
  · exact s.reply_towed _ _ _ _

theorem State.takeAllocate_towed (o : Origin) (w m t : Byte) (s : State) : Towed s (s.takeAllocate o w m t) := by
  unfold State.takeAllocate
  split
  · exact s.reply_towed _ _ _ _
  · split
    · exact .same rfl rfl
    · exact s.reply_towed _ _ _ _

theorem State.takeAddress_towed (o : Origin) (a : Byte) (s : State) : Towed s (s.takeAddress o a) := by
  unfold State.takeAddress
  split
  · exact s.reply_towed _ _ _ _
  · split
    · exact s.reply_towed _ _ _ _
    · exact .same rfl rfl

theorem State.takeAbort_towed (o : Origin) (s : State) : Towed s (s.takeAbort o) := by
  unfold State.takeAbort
  split
  · exact .same rfl rfl
  · exact s.reply_towed _ _ _ _

theorem State.takeUnknown_towed (o : Origin) (l : List Byte) (s : State) : Towed s (s.takeUnknown o l) := by
  unfold State.takeUnknown State.writeBody
  split
  · exact s.reply_towed _ _ _ _
  · split
    · dsimp only
      split <;> exact .same rfl rfl
    · exact s.reply_towed _ _ _ _

/-! ### Every command -/

/-- What a command does keeps coupling work and the tow ceilings. -/
def KeepsTowing (c : Instr) (s : State) : Prop :=
  ∃ t, exec c s = .next t ∧ Towed s t

theorem order_keepsTowing {c : Instr} {s : State} {o : Origin} {k : Byte} {act : State → State × Answer}
    (e : exec c s = .next (s.commanded o k act)) (h : ∀ u, Towed u (act u).1) : KeepsTowing c s :=
  ⟨_, e, State.commanded_towed h⟩

theorem couple_keepsTowing {c : Instr} {s : State} {o : Origin} {x : Byte} {act : State → Fin 48 → State × Answer}
    (e : exec c s = .next (s.commanded o 0x04 (State.decideCouple x act))) (h : ∀ u d, Towed u (act u d).1) :
    KeepsTowing c s :=
  order_keepsTowing e (State.decideCouple_towed x h)

theorem write_keepsTowing {c : Instr} {s : State} {o : Origin} {t i : Byte} {act : State → State × Status}
    (e : exec c s = .next (s.tableWrite o t i act)) (h : ∀ u, Towed u (act u).1) : KeepsTowing c s :=
  ⟨_, e, State.tableWrite_towed h⟩

theorem request_keepsTowing {c : Instr} {s : State} {o : Origin} {act : State → State}
    (e : exec c s = .next (s.request o act)) (h : ∀ u, Towed u (act u)) : KeepsTowing c s :=
  ⟨_, e, State.request_towed h⟩

theorem expiry_keepsTowing {c : Instr} {s : State} {t : Timer} {act : State → State}
    (e : exec c s = .next (s.expire t act)) (h : ∀ u, Towed u (act u)) : KeepsTowing c s :=
  ⟨_, e, State.expire_towed h⟩

/-- The wait of a release or a make-up runs out while the coupling is still in that work (R88, R94). -/
theorem wait_keepsTowing {c : Instr} {s : State} {d : Fin 48} {x : CouplingState} {act : State → State}
    (e : exec c s = .next (if (s.tow.couplings[d]'d.isLt).state = x then s.expire (s.tow.couplings[d]'d.isLt).waitAt act else s))
    (h : ∀ u, (u.tow.couplings[d]'d.isLt).state = x → Towed u (act u)) : KeepsTowing c s := by
  refine ⟨_, e, ?_⟩
  split
  · next working =>
    unfold State.expire
    split
    · exact (h (s.reach _) working).after rfl rfl
    · exact .refl s
  · exact .refl s

/-- Every command but a PASSAGE_FRAME keeps coupling work and the tow ceilings. -/
theorem exec_keepsTowing_plain (c : Instr) (s : State) (n : ∀ p f, c ≠ .passageFrame p f) : KeepsTowing c s := by
  cases c with
  | passageFrame p f => exact absurd rfl (n p f)
  | powerOnReset =>
    have reset : Towed s State.reset := ⟨fun _ => State.reset_towSound, fun _ => State.reset_ceilings⟩
    exact ⟨_, rfl, reset.also rfl rfl⟩
  | frameDiscard p =>
    refine ⟨_, rfl, State.receive_towed ?_⟩
    split
    · exact .same rfl rfl
    · exact .refl s
  | lineBreak p => exact ⟨_, rfl, s.breakLine_towed p⟩
  | lineUp p b => exact ⟨_, rfl, s.raiseLine_towed p b⟩
  | transmitStart p => exact ⟨_, rfl, s.startSending_towed p⟩
  | transmitCompletion p => exact ⟨_, rfl, s.endSending_towed p⟩
  | statementResume => exact ⟨_, rfl, s.resumeStatement_towed⟩
  | propel o p m d f => exact order_keepsTowing rfl (State.decidePropel_towed p m d f)
  | steer o r m b => exact order_keepsTowing rfl (State.decideSteer_towed r m b)
  | convoyMode o x => exact order_keepsTowing rfl (State.decideMode_towed x)
  | takeCommand o x => exact ⟨_, rfl, State.order_towed (State.decideTakeCommand_towed o)⟩
  | helmResume o x => exact ⟨_, rfl, State.order_towed (State.decideHelmResume_towed o)⟩
  | orderUnknown o l =>
    refine ⟨_, rfl, ?_⟩
    split
    · exact State.commanded_towed fun u => .refl u
    · exact State.order_towed fun u => .refl u
  | coupleRelease o x => exact couple_keepsTowing rfl State.decideRelease_towed
  | coupleCancel o x => exact couple_keepsTowing rfl State.decideCancel_towed
  | coupleMakeUp o x => exact couple_keepsTowing rfl State.decideMakeUp_towed
  | acceptParted o x => exact couple_keepsTowing rfl State.decideAccept_towed
  | enrol p h l => exact ⟨_, rfl, State.receive_towed ((State.takeEnrol_towed _ p h.src l).after rfl rfl)⟩
  | echo p o x => exact ⟨_, rfl, State.receive_towed ((s.arrive_towed p o.src).trans (State.takeEcho_towed _ p o x))⟩
  | full p o r l a =>
    exact ⟨_, rfl, State.receive_towed ((s.arrive_towed p o.src).trans (State.takeFull_towed _ p o r l a))⟩
  | ackOfNoKind p o l => exact ⟨_, rfl, State.receive_towed (s.arrive_towed p o.src)⟩
  | engineStatus p h r l a => exact ⟨_, rfl, s.passage_towed p _ _⟩
  | actuatorStatus p h x g => exact ⟨_, rfl, s.passage_towed p _ _⟩
  | winchStatus p h w => exact ⟨_, rfl, s.passage_towed p _ _⟩
  | tension p h rs => exact ⟨_, rfl, s.passage_towed p _ _⟩
  | flow p h rs => exact ⟨_, rfl, s.passage_towed p _ _⟩
  | level p h rs => exact ⟨_, rfl, s.passage_towed p _ _⟩
  | slotRelease k => exact ⟨_, rfl, (s.orderRelease_worked k).towed⟩
  | identify o => exact request_keepsTowing rfl fun u => u.reply_towed _ _ _ _
  | tableRead o t i => exact request_keepsTowing rfl (State.readTable_towed o t i)
  | tableWriteStation o i a => exact write_keepsTowing rfl (State.writeStation_towed i a)
  | tableWriteRoster o i r => exact write_keepsTowing rfl (State.writeRoster_towed i r)
  | tableWritePassage o i r => exact write_keepsTowing rfl (State.writePassage_towed i r)
  | tableWriteDefault o i r => exact write_keepsTowing rfl (State.writeDefault_towed i r)
  | tableWriteMode o i r => exact write_keepsTowing rfl (State.writeMode_towed i r)
  | tableWriteEngine o i r => exact write_keepsTowing rfl (State.writeEngine_towed i r)
  | tableWriteActuator o i r => exact write_keepsTowing rfl (State.writeActuator_towed i r)
  | tableWriteCoupling o i r => exact write_keepsTowing rfl (State.writeCoupling_towed i r)
  | tableWriteTank o i r => exact write_keepsTowing rfl (State.writeTank_towed i r)
  | tableWriteMeter o i r => exact write_keepsTowing rfl (State.writeMeter_towed i r)
  | tableWriteNoticeMap o k x => exact write_keepsTowing rfl (State.writeMap_towed k x)
  | stateRead o r i p => exact request_keepsTowing rfl (State.readState_towed o r i p)
  | allocate o w m t => exact request_keepsTowing rfl (State.takeAllocate_towed o w m t)
  | setAddress o a => exact request_keepsTowing rfl (State.takeAddress_towed o a)
  | noticeSetup o m x a d => exact request_keepsTowing rfl (State.decideSetup_towed o m x a d)
  | noticeRead o x y => exact request_keepsTowing rfl (State.readNotices_towed o x y)
  | noticeClear o k x y => exact request_keepsTowing rfl (State.takeClear_towed o k x y)
  | fuelPreset o t q => exact request_keepsTowing rfl (State.takePreset_towed o t q)
  | legStart o b m => exact request_keepsTowing rfl (State.takeLeg_towed o b m)
  | statementStart o => exact request_keepsTowing rfl (State.takeStatement_towed o)
  | statementAbort o => exact request_keepsTowing rfl (State.takeAbort_towed o)
  | restart o => exact request_keepsTowing rfl (State.takeRestart_towed o)
  | mgmtUnknown o l => exact request_keepsTowing rfl (State.takeUnknown_towed o l)
  | guardExpiry => exact expiry_keepsTowing rfl State.loseHelm_towed
  | stepExpiry i => exact expiry_keepsTowing rfl fun u => (u.takeStep_worked i).towed
  | dwellExpiry i => exact expiry_keepsTowing rfl fun u => (u.endDwell_worked i).towed
  | divergenceExpiry i => exact expiry_keepsTowing rfl fun u => u.diverge_towed i
  | sampleSilenceExpiry k => exact expiry_keepsTowing rfl fun u => u.couplingUnheard_towed k
  | holdExpiry b => exact expiry_keepsTowing rfl fun u => u.holdEnds_towed b
  | releaseWaitExpiry k => exact wait_keepsTowing rfl fun _ => State.abandonRelease_towed
  | makeupWaitExpiry k => exact wait_keepsTowing rfl fun _ => State.abandonMakeup_towed
  | meterSilenceExpiry i => exact expiry_keepsTowing rfl fun u => u.startEstimating_towed i
  | estimateTick i => exact expiry_keepsTowing rfl fun u => u.tick_towed i
  | stallExpiry => exact expiry_keepsTowing rfl fun u => (State.latch_towed _ _ _).after rfl rfl
  | silenceExpiry m =>
    exact expiry_keepsTowing rfl fun u => ((State.latch_towed _ _ _).trans (State.handOver_towed _ m)).after rfl rfl
  | refreshExpiry m => exact expiry_keepsTowing rfl fun u => (State.refresh_slotted _ m).towed.after rfl rfl
  | ackTimeout i => exact expiry_keepsTowing rfl fun u => u.slotTimeout_towed i

/-- A frame is the command that fixed intake finds in it, or goes by the passage table (R162). -/
theorem exec_keepsTowing (c : Instr) (s : State) : KeepsTowing c s := by
  unfold KeepsTowing
  rw [exec_actual]
  unfold Instr.actual
  split
  · next p f =>
    split
    · next taken =>
      refine exec_keepsTowing_plain _ s fun q g e => ?_
      have plain := classify_isTaken taken
      rw [e] at plain
      cases plain
    · next passed => exact ⟨_, if_neg passed, s.passage_towed p f _⟩
  · next plain => exact exec_keepsTowing_plain c s plain

theorem step_towed {s t : State} (h : step s = .next t) : Towed s t := by
  obtain ⟨c, rest, e⟩ | rfl := step_cases h
  · obtain ⟨u, run, kept⟩ := exec_keepsTowing c { s with pending := rest }
    rw [run] at e
    cases e
    exact kept.after rfl rfl
  · exact .same rfl rfl

/-! ### The engines of a boat that a lost coupling bears on (R81) -/

/-- An engine whose tow ceiling is 0 has target and issued setpoint 0. -/
theorem State.towed_to_zero {s : State} {i : Fin 6} (engines : s.EnginesSound) (targets : s.TargetsFormed)
    (zero : s.tow.applied.get (s.prop.engines[i]'i.isLt).entry.boat = 0) :
    (s.prop.engines[i]'i.isLt).target = 0 ∧ (s.prop.engines[i]'i.isLt).setpoint = 0 := by
  obtain ⟨target, setpoint, stopped⟩ := engines i
  by_cases absent : (s.prop.engines[i]'i.isLt).state = .absent
  · exact stopped (by rw [absent]; decide)
  · obtain ⟨ahead, astern⟩ := targets.composites i absent
    have ceiling := (targets.components i).tow
    rw [ceiling.trans zero] at ahead astern
    rw [ahead, astern] at target setpoint
    simp only [Nat.zero_min, Nat.min_zero] at target setpoint
    exact ⟨le_antisymm target.2 target.1, le_antisymm setpoint.2 setpoint.1⟩

end Sys2Proof.Machine

open Sys2Proof Sys2Proof.Machine

/-- Settles O11: the supervisor forms the tow ceilings after each move of a coupling and begins work on one only where none
is in progress; a PARTED or RELEASING coupling contributes 0, which the composite ceilings pass on to the engines. -/
theorem stepKeepsCouplingWorkAndCeilings : Obligations.StepKeepsCouplingWorkAndCeilings := by
  refine ⟨fun _ _ h e => (step_towed e).sound h, fun _ _ h e => (step_towed e).ceilings h, ?_⟩
  intro s c b i engines targets ceilings lost bears boat
  have share : (s.tow.couplings[c]'c.isLt).share s.helm.modes[s.helm.mode] = 0 := by
    unfold Coupling.share
    obtain e | e := lost <;> rw [e]
  have computed := ceilings.bound b c bears
  have applied := ceilings.applied b
  refine State.towed_to_zero engines targets ?_
  rw [boat]
  omega

end

