-- ==== Sys2Proof/Proofs/IdleEvents.lean ====
section
/-! PROOF. Proofs/IdleEvents.lean: the commands that are due on an empty queue, each with the condition under which it is, and
from them the step on an empty queue (O3).
A table index gives its bound itself (`'c.isLt`): the default bound tactic would run at each one. -/

-- The whole text is compiled in one process under a memory limit: proofs one after another, and no linters.
set_option Elab.async false
set_option linter.all false

namespace Sys2Proof.Machine

theorem State.ran_iff {s : State} {x : Timer} : s.ran x = true ↔ ∃ at_ : Nat, x = some at_ ∧ at_ ≤ s.now := by
  cases x with
  | none => exact ⟨nofun, fun ⟨_, e, _⟩ => by cases e⟩
  | some at_ => simp [State.ran]

theorem mem_dueIf {b : Bool} {i c : Instr} : c ∈ dueIf b i ↔ c = i ∧ b = true := by
  cases b <;> simp [dueIf]

theorem mem_dueEach {α : Type} {n : Nat} {t : Table α n} {p : α → Bool} {i : Fin n → Instr} {c : Instr} :
    c ∈ dueEach t p i ↔ ∃ j : Fin n, c = i j ∧ p t[j] = true := by
  simp only [dueEach, List.mem_map, List.mem_filter, List.mem_finRange, true_and]
  exact ⟨fun ⟨j, h, e⟩ => ⟨j, e.symm, h⟩, fun ⟨j, e, h⟩ => ⟨j, h, e.symm⟩⟩

theorem State.queueHead_isSome {s : State} {p : Port} :
    (s.queueHead p).isSome = true ↔ s.fwd.queues.get p ≠ [] := by
  unfold State.queueHead
  cases s.fwd.queues.get p <;> simp

/-- A transmitter finds a frame where its lane or its queue holds one (R170). -/
theorem State.nextFrame_isSome {s : State} {p : Port} :
    (s.nextFrame p).isSome = true ↔ laneWaits s p ∨ s.fwd.queues.get p ≠ [] := by
  cases p with
  | W =>
    simp only [State.nextFrame, Option.isSome_or, Bool.or_eq_true, State.queueHead_isSome, laneWaits]
    cases s.fwd.answers <;> simp
  | M =>
    simp only [State.nextFrame, State.laneHead, Option.isSome_or, Bool.or_eq_true, State.queueHead_isSome, laneWaits,
      Transactions.lane]
    cases s.trans.laneM <;> simp
  | T =>
    simp only [State.nextFrame, State.laneHead, Option.isSome_or, Bool.or_eq_true, State.queueHead_isSome, laneWaits,
      Transactions.lane]
    cases s.trans.laneT <;> simp

theorem Line.canTake_iff {x : Line} :
    x.canTake = true ↔ x.line = .up ∧ x.sending = none ∧ x.assembly = Assembly.empty := by
  simp [Line.canTake, and_assoc]

/-- A completion is due of the transmission under way (R154). -/
theorem State.mem_duePort {s : State} {p : Port} {c : Instr} :
    c ∈ s.duePort p ↔
      (∃ x, c = .transmitCompletion p ∧ (s.link.ports.get p).sending = some x ∧ x.doneAt ≤ s.now) ∨
      (c = .transmitStart p ∧ (s.link.ports.get p).line = .up ∧ (s.link.ports.get p).sending = none ∧
        (s.link.ports.get p).assembly = Assembly.empty ∧ (s.link.ports.get p).gapAt ≤ s.now ∧
        (laneWaits s p ∨ s.fwd.queues.get p ≠ [])) := by
  unfold State.duePort
  dsimp only
  split
  · next x sending =>
    simp [mem_dueIf, sending]
  · next idle =>
    simp only [mem_dueIf, Bool.and_eq_true, Line.canTake_iff, State.nextFrame_isSome, decide_eq_true_eq, idle]
    constructor
    · rintro ⟨e, ⟨⟨up, -, empty⟩, waits⟩, gap⟩
      exact .inr ⟨e, up, trivial, empty, gap, waits⟩
    · rintro (⟨x, -, ⟨⟩, -⟩ | ⟨e, up, -, empty, gap, waits⟩)
      exact ⟨e, ⟨⟨up, trivial, empty⟩, waits⟩, gap⟩

theorem exists_port {P : Port → Prop} : (∃ p, P p) ↔ P .W ∨ P .M ∨ P .T :=
  ⟨fun ⟨p, h⟩ => by cases p; exacts [.inl h, .inr (.inl h), .inr (.inr h)],
    fun h => by obtain h | h | h := h <;> exact ⟨_, h⟩⟩

/-- What is due of the three ports. -/
theorem State.mem_ports {s : State} {c : Instr} :
    c ∈ s.duePort .W ++ s.duePort .M ++ s.duePort .T ↔
      (∃ p x, c = .transmitCompletion p ∧ (s.link.ports.get p).sending = some x ∧ x.doneAt ≤ s.now) ∨
      (∃ p, c = .transmitStart p ∧ (s.link.ports.get p).line = .up ∧ (s.link.ports.get p).sending = none ∧
        (s.link.ports.get p).assembly = Assembly.empty ∧ (s.link.ports.get p).gapAt ≤ s.now ∧
        (laneWaits s p ∨ s.fwd.queues.get p ≠ [])) := by
  rw [← exists_or]
  simp only [← State.mem_duePort]
  rw [exists_port, List.mem_append, List.mem_append, or_assoc]

theorem exists_boat {P : Boat → Prop} : (∃ b, P b) ↔ P .b1 ∨ P .b2 :=
  ⟨fun ⟨b, h⟩ => by cases b; exacts [.inl h, .inr h], fun h => by obtain h | h := h <;> exact ⟨_, h⟩⟩

theorem State.releaseReady_iff {s : State} {k : Fin 48} :
    s.releaseReady k = true ↔ (s.tow.couplings[k]'k.isLt).state = .releasing ∧
      (s.tow.couplings[k]'k.isLt).phase = some .waitZero ∧
      s.prop.zeroOf (s.tow.couplings[k]'k.isLt).entry.bearsOn = true ∧ (s.releaseSlotOf k).isSome = true := by
  simp [State.releaseReady, and_assoc]

theorem mem_releases {s : State} {c : Instr} :
    c ∈ ((List.finRange 48).filter s.releaseReady).map .slotRelease ↔
      ∃ k : Fin 48, c = .slotRelease k ∧ s.releaseReady k = true := by
  simp only [List.mem_map, List.mem_filter, List.mem_finRange, true_and]
  exact ⟨fun ⟨k, h, e⟩ => ⟨k, e.symm, h⟩, fun ⟨k, e, h⟩ => ⟨k, h, e.symm⟩⟩

/-- The step on an empty queue. -/
theorem step_empty {s : State} (h : s.pending = []) : step s = s.idle := by
  unfold step
  rw [h]

end Sys2Proof.Machine

open Sys2Proof Sys2Proof.Machine

/-- Settles O3: each part of the list of due commands has its membership spelled out, ports and boats one by one. -/
theorem idleStep : Obligations.IdleStep := by
  intro s empty
  refine ⟨fun none => ?_, fun c rest due => ?_, ?_⟩
  · rw [step_empty empty, State.idle, none]
  · rw [step_empty empty, State.idle, due]
  · intro c ran
    delta State.due
    simp only [↓State.mem_ports, List.mem_append, mem_dueIf, mem_dueEach, mem_releases,
      State.releaseReady_iff, State.ran_iff, State.reservedFree_iff, Bool.and_eq_true, decide_eq_true_eq, exists_boat,
      PerPort.get, PerBoat.get, or_assoc, ran]

end

