-- ==== Sys2Proof/Proofs/TowCeilings.lean ====
section
/-! PROOF. Proofs/TowCeilings.lean: a forming of the tow ceilings, boat by boat (O31): the lowest contribution, and what the
comparison with the applied ceiling makes of it and of the hold timer. -/

-- The whole text is compiled in one process under a memory limit: proofs one after another, and no linters.
set_option Elab.async false
set_option linter.all false

namespace Sys2Proof.Machine

/-- R80: the applied ceiling of a boat and its hold timer, after its computed one has become a figure. -/
def State.ceilingAfter (s : State) (b : Boat) (x : Nat) : Nat × Timer :=
  if x ≤ s.tow.applied.get b then (x, none)
  else if (s.tow.holdAt.get b).isSome then (s.tow.applied.get b, s.tow.holdAt.get b)
  else if s.profile.towHold = 0 then (x, none)
  else (s.tow.applied.get b, s.after (ms (s.profile.towHold * 1000)))

theorem State.applyCeiling_same_boat (s : State) (b : Boat) :
    ((s.applyCeiling b).tow.applied.get b, (s.applyCeiling b).tow.holdAt.get b) =
      s.ceilingAfter b (s.tow.computed.get b) := by
  unfold State.applyCeiling State.ceilingAfter
  dsimp only
  split
  · simp
  · split
    · rfl
    · next idle =>
      split
      · simp [Option.not_isSome_iff_eq_none.1 idle]
      · simp

theorem State.applyCeiling_other_boat (s : State) {b d : Boat} (n : b ≠ d) :
    (s.applyCeiling b).tow.applied.get d = s.tow.applied.get d ∧
      (s.applyCeiling b).tow.holdAt.get d = s.tow.holdAt.get d := by
  unfold State.applyCeiling
  dsimp only
  split
  · simp [PerBoat.get_set, n]
  · split
    · exact ⟨rfl, rfl⟩
    · split <;> simp [PerBoat.get_set, n]

theorem State.applyCeiling_now (s : State) (b : Boat) : (s.applyCeiling b).now = s.now := by
  unfold State.applyCeiling
  dsimp only
  split
  · rfl
  · split
    · rfl
    · split <;> rfl

theorem State.ceilingAfter_congr {s t : State} {b : Boat} (applied : t.tow.applied.get b = s.tow.applied.get b)
    (holdAt : t.tow.holdAt.get b = s.tow.holdAt.get b) (profile : t.profile = s.profile) (now : t.now = s.now) (x : Nat) :
    t.ceilingAfter b x = s.ceilingAfter b x := by
  unfold State.ceilingAfter State.after
  rw [applied, holdAt, profile, now]

/-- The computed ceiling of a boat, its applied one and its hold timer after a forming (R79, R80). -/
theorem State.formTow_boat (s : State) (b : Boat) :
    s.formTow.tow.computed.get b = computedCeiling s.tow.couplings s.profile b ∧
      (s.formTow.tow.applied.get b, s.formTow.tow.holdAt.get b) =
        s.ceilingAfter b (computedCeiling s.tow.couplings s.profile b) := by
  have formed : ((s.formCeilings.applyCeiling .b1).applyCeiling .b2).tow.computed.get b =
        computedCeiling s.tow.couplings s.profile b ∧
      (((s.formCeilings.applyCeiling .b1).applyCeiling .b2).tow.applied.get b,
        ((s.formCeilings.applyCeiling .b1).applyCeiling .b2).tow.holdAt.get b) =
        s.ceilingAfter b (computedCeiling s.tow.couplings s.profile b) := by
    obtain ⟨c1, -, h1⟩ := s.formCeilings.applyCeiling_computed .b1
    obtain ⟨c2, -, -⟩ := (s.formCeilings.applyCeiling .b1).applyCeiling_computed .b2
    rw [c2, c1]
    cases b with
    | b1 =>
      obtain ⟨applied, holdAt⟩ := (s.formCeilings.applyCeiling .b1).applyCeiling_other_boat (b := .b2) (d := .b1) (by decide)
      rw [applied, holdAt, State.applyCeiling_same_boat]
      exact ⟨rfl, rfl⟩
    | b2 =>
      obtain ⟨applied, holdAt⟩ := s.formCeilings.applyCeiling_other_boat (b := .b1) (d := .b2) (by decide)
      rw [State.applyCeiling_same_boat, c1]
      exact ⟨rfl, State.ceilingAfter_congr applied holdAt (congrArg (fun h : HelmUnit => h.modes[h.mode]) h1 :)
        (s.formCeilings.applyCeiling_now .b1) _⟩
  unfold State.formTow
  dsimp only
  split
  · exact formed
  · obtain ⟨computed, applied, holdAt⟩ := (State.recompute_worked
      ((s.formCeilings.applyCeiling .b1).applyCeiling .b2)).within.ceilings (by decide)
    rw [computed, applied, holdAt]
    exact formed

end Sys2Proof.Machine

open Sys2Proof Sys2Proof.Machine

/-- Settles O31: the ceilings of the two boats are formed and compared apart, so each boat's is its lowest contribution and
its applied one what R80 makes of it. -/
theorem towCeilingsFormed : Obligations.TowCeilingsFormed := by
  intro s b p t share bears x old
  obtain ⟨computed, after⟩ := s.formTow_boat b
  obtain ⟨top, bound, reached⟩ := computedCeiling_lowest s.tow.couplings s.profile b
  rw [← computed] at top bound reached after
  refine ⟨top, bound, reached, fun fall => ?_, fun rise held => ?_, fun rise idle hold => ?_, fun rise idle hold => ?_⟩
  · rw [State.ceilingAfter, if_pos (show t.tow.computed.get b ≤ s.tow.applied.get b from fall)] at after
    exact Prod.mk.inj after
  · rw [State.ceilingAfter, if_neg (Nat.not_le.2 rise), if_pos held] at after
    exact Prod.mk.inj after
  · rw [State.ceilingAfter, if_neg (Nat.not_le.2 rise), if_neg (by simp [idle]),
      if_neg (show s.profile.towHold ≠ 0 from Nat.ne_of_gt hold)] at after
    obtain ⟨applied, holdAt⟩ := Prod.mk.inj after
    refine ⟨applied, holdAt.trans (congrArg some ?_)⟩
    unfold ms
    show s.now + p.towHold * 1000 * 1000 = _
    omega
  · rw [State.ceilingAfter, if_neg (Nat.not_le.2 rise), if_neg (by simp [idle]),
      if_pos (show s.profile.towHold = 0 from hold)] at after
    exact (Prod.mk.inj after).1

end

