-- ==== Sys2Proof/Proofs/CouplingOrders.lean ====
section
/-! PROOF. Proofs/CouplingOrders.lean: a COUPLE order that begins work (R83, R84, R93): what a RELEASE and a MAKE_UP have in
common, the WINCH order they place and what they refuse, and from them O32 and O34.
A table index gives its bound itself (`'c.isLt`): the default bound tactic would run at each one. -/

-- The whole text is compiled in one process under a memory limit: proofs one after another, and no linters.
set_option Elab.async false
set_option linter.all false

namespace Sys2Proof.Machine

/-! ### The WINCH order of the work -/

/-- A waiting WINCH order of a coupling. -/
structure Slot.Works (x : Slot) (n : Fin 32) (v : OrderValue) (c : Fin 48) (b : Option BoatSet) : Prop where
  waits : x.isWaiting = true
  target : x.target = n
  kind : x.kind = .winch
  value : x.value = v
  owner : x.owner = some (.tow c)
  condition : x.condition = b

theorem State.fillSlot_works (s : State) (i : Fin 16) (n : Fin 32) (v : OrderValue) (c : Fin 48) (b : Option BoatSet) :
    (((s.fillSlot i n .winch v (.tow c) b).trans.slots[i]'i.isLt)).Works n v c b := by
  rw [State.fillSlot_slot, if_pos rfl]
  exact ⟨State.placedSlot_waits .., rfl, rfl, rfl, rfl, rfl⟩

theorem Slot.Works.withState {x : Slot} {n : Fin 32} {v : OrderValue} {c : Fin 48} {b : Option BoatSet}
    (h : x.Works n v c b) {y : SlotState} (waits : y = .held ∨ y = .waiting ∨ y = .queued) :
    Slot.Works { x with state := y } n v c b :=
  ⟨(Slot.isWaiting_iff _).2 waits, h.target, h.kind, h.value, h.owner, h.condition⟩

/-! ### The decision of an order that begins work -/

/-- A COUPLE order that begins work on a coupling: the states it may begin in, the WINCH order with its condition, and the
work begun once that is placed (R84, R93). -/
def State.decideWork (may : CouplingState → Prop) [DecidablePred may] (order : Coupling → OrderValue × Option BoatSet)
    (begun : Coupling → Fin 48 → State → State) (s : State) (c : Fin 48) : State × Answer :=
  match s.winchOf c with
  | some w =>
    if may (s.tow.couplings[c]'c.isLt).state then
      if s.busyWith c then (s, .refusedBusy)
      else
        let r := s.place w .winch (order (s.tow.couplings[c]'c.isLt)).1 (.tow c) (order (s.tow.couplings[c]'c.isLt)).2
        if r.2 = .taken then (begun (s.tow.couplings[c]'c.isLt) c r.1, .taken) else (s, .refusedBusy)
    else (s, .refusedState)
  | none => (s, .refusedState)

theorem State.decideRelease_eq : State.decideRelease =
    State.decideWork (fun x => x = .slack ∨ x = .madeUp ∨ x = .alert) (fun k => (.release, some k.entry.bearsOn))
      fun k c u => (u.beginWork c .releasing (some .waitZero) k.count).formTow.orderRelease c :=
  rfl

theorem State.decideMakeUp_eq : State.decideMakeUp =
    State.decideWork (fun x => x = .slack ∨ x = .released) (fun k => (.heave k.entry.heave, none))
      fun _ c u => (u.beginWork c .makingUp none 0).formTow :=
  rfl

theorem State.winchOf_some {s : State} {c : Fin 48} {w : Fin 32} (h : (s.tow.couplings[c]'c.isLt).entry.winch = some w)
    (alive : (s.nodes[w]'w.isLt).state ≠ .failed ∧ (s.nodes[w]'w.isLt).state ≠ .unused) : s.winchOf c = some w := by
  unfold State.winchOf
  rw [h]
  exact if_neg (not_or.2 alive)

theorem State.winchOf_none {s : State} {c : Fin 48} (h : (s.tow.couplings[c]'c.isLt).entry.winch = none ∨
    ∃ w, (s.tow.couplings[c]'c.isLt).entry.winch = some w ∧
      ((s.nodes[w]'w.isLt).state = .failed ∨ (s.nodes[w]'w.isLt).state = .unused)) :
    s.winchOf c = none := by
  unfold State.winchOf
  obtain e | ⟨w, e, dead⟩ := h <;> rw [e]
  exact if_pos dead

theorem State.busyWith_iff {s : State} {c : Fin 48} : s.busyWith c = true ↔ ∃ d, d ≠ c ∧ s.tow.work = some d := by
  unfold State.busyWith
  cases s.tow.work with
  | none => simp
  | some d => simp

/-- A WINCH order finds a FREE slot where no order waits for the winch (R136). -/
theorem State.place_taken {s : State} {n : Fin 32}
    (alive : (s.nodes[n]'n.isLt).state ≠ .failed ∧ (s.nodes[n]'n.isLt).state ≠ .unused)
    (idle : s.waitingSlot n = none) (free : s.hasFree) (k : OrderKind) (v : OrderValue) (w : Owner) (b : Option BoatSet) :
    ∃ i : Fin 16, s.place n k v w b = (s.fillSlot i n k v w b, .taken) := by
  obtain ⟨i, found⟩ := State.freeSlot_isSome free
  refine ⟨i, ?_⟩
  unfold State.place
  rw [if_neg (not_or.2 alive), idle, found]

/-- A WINCH order is not placed behind a waiting one, which it does not supersede, or without a FREE slot (R136). -/
theorem State.place_winch_busy {s : State} {n : Fin 32} (h : (s.waitingSlot n).isSome = true ∨ ¬ s.hasFree)
    (v : OrderValue) (w : Owner) (b : Option BoatSet) : (s.place n .winch v w b).2 ≠ .taken := by
  unfold State.place
  split
  · exact nofun
  · split
    · rw [if_neg fun both => Bool.false_ne_true both.2]
      exact nofun
    · next idle =>
      split
      · next i found =>
        rw [idle] at h
        exact absurd ⟨i, State.freeSlot_meets found⟩ (h.resolve_left Bool.false_ne_true)
      · exact nofun

theorem State.decideCouple_used {s : State} {index : Byte} {c : Fin 48} (h : index.toNat = c.val)
    (used : (s.tow.couplings[c]'c.isLt).state ≠ .unused) (act : State → Fin 48 → State × Answer) :
    s.decideCouple index act = act s c := by
  unfold State.decideCouple
  rw [indexOf_some h]
  exact if_neg used

/-- A COUPLE order to a named coupling, with room and command (R83). -/
theorem State.Admits.couples {s : State} {o : Origin} (h : s.Admits o) {index : Byte} {c : Fin 48} (i : index.toNat = c.val)
    (used : (s.tow.couplings[c]'c.isLt).state ≠ .unused) (act : State → Fin 48 → State × Answer) :
    s.commanded o 4 (State.decideCouple index act) =
      (act (s.frameEnd .W) c).1.answer o 4 (act (s.frameEnd .W) c).2 := by
  rw [h.commanded, State.decideCouple_used i]
  exact used

/-- A refused COUPLE order draws its answer and changes nothing. -/
theorem State.Admits.refuses {s : State} {o : Origin} (h : s.Admits o) {act : State → State × Answer} {a : Answer}
    (e : act (s.frameEnd .W) = (s.frameEnd .W, a)) : s.commanded o 4 act =
      (s.frameEnd .W).withAnswers (s.fwd.answers ++ [answerFrame s.link.own o 4 a.byte]) := by
  rw [h.commanded, e, State.answer_eq]
  rfl

theorem State.Admits.couple_range {s : State} {o : Origin} (h : s.Admits o) {index : Byte} (i : 48 ≤ index.toNat)
    (act : State → Fin 48 → State × Answer) : s.commanded o 4 (State.decideCouple index act) =
      (s.frameEnd .W).withAnswers (s.fwd.answers ++ [answerFrame s.link.own o 4 6]) := by
  refine h.refuses (a := .range) ?_
  unfold State.decideCouple
  rw [indexOf_none i]

/-- A COUPLE order that its own rule refuses by the state, or whose coupling is UNUSED (R83). -/
theorem State.Admits.couple_state {s : State} {o : Origin} (h : s.Admits o) {index : Byte} {c : Fin 48}
    (i : index.toNat = c.val) {act : State → Fin 48 → State × Answer}
    (e : act (s.frameEnd .W) c = (s.frameEnd .W, .refusedState)) : s.commanded o 4 (State.decideCouple index act) =
      (s.frameEnd .W).withAnswers (s.fwd.answers ++ [answerFrame s.link.own o 4 4]) := by
  refine h.refuses (a := .refusedState) ?_
  unfold State.decideCouple
  rw [indexOf_some i]
  dsimp only
  split
  · rfl
  · exact e

section
variable {may : CouplingState → Prop} [DecidablePred may] {order : Coupling → OrderValue × Option BoatSet}
  {begun : Coupling → Fin 48 → State → State}

theorem State.decideWork_state {s : State} {c : Fin 48} (h : ¬ may (s.tow.couplings[c]'c.isLt).state ∨ s.winchOf c = none) :
    s.decideWork may order begun c = (s, .refusedState) := by
  unfold State.decideWork
  split
  · next w e => rw [if_neg (h.resolve_right (by rw [e]; exact nofun))]
  · rfl

theorem State.decideWork_busy {s : State} {c : Fin 48} {w : Fin 32} (winch : s.winchOf c = some w)
    (state : may (s.tow.couplings[c]'c.isLt).state) (h : (∃ d, d ≠ c ∧ s.tow.work = some d) ∨
      (s.waitingSlot w).isSome = true ∨ ¬ s.hasFree) : s.decideWork may order begun c = (s, .refusedBusy) := by
  unfold State.decideWork
  rw [winch]
  dsimp only
  rw [if_pos state]
  split
  · rfl
  · next idle => rw [if_neg (State.place_winch_busy (h.resolve_left fun d => idle (State.busyWith_iff.2 d)) _ _ _)]

/-- A taken order: its WINCH order is placed, and then its work begun (R136). -/
theorem State.decideWork_taken {s : State} {c : Fin 48} {w : Fin 32} (winch : s.winchOf c = some w)
    (state : may (s.tow.couplings[c]'c.isLt).state) (work : s.tow.work = none) (idle : s.waitingSlot w = none)
    (free : s.hasFree)
    (alive : (s.nodes[w]'w.isLt).state ≠ .failed ∧ (s.nodes[w]'w.isLt).state ≠ .unused) :
      ∃ (p : State) (i : Fin 16), Slotted s p ∧
      (p.trans.slots[i]'i.isLt).Works w (order (s.tow.couplings[c]'c.isLt)).1 c (order (s.tow.couplings[c]'c.isLt)).2 ∧
      s.decideWork may order begun c = (begun (s.tow.couplings[c]'c.isLt) c p, .taken) := by
  obtain ⟨i, placed⟩ := State.place_taken alive idle free .winch (order (s.tow.couplings[c]'c.isLt)).1 (.tow c)
    (order (s.tow.couplings[c]'c.isLt)).2
  have slotted := s.place_slotted w .winch (order (s.tow.couplings[c]'c.isLt)).1 (.tow c)
    (order (s.tow.couplings[c]'c.isLt)).2
  rw [placed] at slotted
  refine ⟨_, i, slotted, s.fillSlot_works i w _ c _, ?_⟩
  have unbusy : ¬ s.busyWith c = true := fun e => by
    obtain ⟨d, -, at_⟩ := State.busyWith_iff.1 e
    rw [work] at at_
    cases at_
  unfold State.decideWork
  rw [winch]
  dsimp only
  rw [if_pos state, if_neg unbusy, placed, if_pos rfl]

/-- What an order that begins work refuses: by its index, by the state of its coupling or winch, and as busy. -/
theorem State.Admits.work_refused {s : State} {o : Origin} (h : s.Admits o) (index : Byte) :
    let refused (code : Byte) : Outcome :=
      .next ((s.frameEnd .W).withAnswers (s.fwd.answers ++ [answerFrame s.link.own o 4 code]))
    let run : Outcome := .next (s.commanded o 4 (State.decideCouple index (State.decideWork may order begun)))
    (48 ≤ index.toNat → run = refused 6) ∧
    (∀ c : Fin 48, index.toNat = c.val →
      (¬ may (s.tow.couplings[c]'c.isLt).state → run = refused 4) ∧
      ((s.tow.couplings[c]'c.isLt).entry.winch = none → run = refused 4) ∧
      ∀ w : Fin 32, (s.tow.couplings[c]'c.isLt).entry.winch = some w →
        ((s.nodes[w]'w.isLt).state = .failed ∨ (s.nodes[w]'w.isLt).state = .unused → run = refused 4) ∧
        (may (s.tow.couplings[c]'c.isLt).state → (s.tow.couplings[c]'c.isLt).state ≠ .unused →
          (s.nodes[w]'w.isLt).state ≠ .failed →
          (s.nodes[w]'w.isLt).state ≠ .unused →
          (∃ d : Fin 48, d ≠ c ∧ s.tow.work = some d) ∨ (s.waitingSlot w).isSome = true ∨
            (∀ i : Fin 16, (s.trans.slots[i]'i.isLt).state ≠ .free) → run = refused 5)) := by
  intro refused run
  refine ⟨fun i => congrArg Host.Outcome.next (h.couple_range i _), fun c i => ?_⟩
  have state : ∀ why : ¬ may (s.tow.couplings[c]'c.isLt).state ∨ s.winchOf c = none, run = refused 4 := fun why =>
    congrArg Host.Outcome.next (h.couple_state i (State.decideWork_state why))
  refine ⟨fun n => state (.inl n), fun n => state (.inr (State.winchOf_none (.inl n))), fun w winch =>
    ⟨fun dead => state (.inr (State.winchOf_none (.inr ⟨w, winch, dead⟩))), fun ok used failed unused why => ?_⟩⟩
  refine congrArg Host.Outcome.next (h.refuses (a := .refusedBusy) ?_)
  rw [State.decideCouple_used i (by exact used)]
  refine State.decideWork_busy (State.winchOf_some winch ⟨failed, unused⟩) ok ?_
  exact why.imp id (Or.imp id fun none ⟨j, found⟩ => none j found)

end

/-! ### Work begun -/

theorem Slotted.withTow {s t : State} (h : Slotted s t) (q : Tow) :
    Slotted { s with tow := q } { t with tow := q } where
  same := congrArg (fun u : State => { u with tow := q }) h.same
  nodes := h.nodes
  sound k := (State.slots_of_same (s := t) (t := { t with tow := q }) rfl rfl).1
    (h.sound ((State.slots_of_same (s := { s with tow := q }) (t := s) rfl rfl).1 k))
  idle n k := (State.slots_of_same (s := t) (t := { t with tow := q }) rfl rfl).2 n
    (h.idle n ((State.slots_of_same (s := { s with tow := q }) (t := s) rfl rfl).2 n k))

/-- Work begun on a coupling comes to the same whatever has been placed before it. -/
theorem Slotted.beginWork {s t : State} (h : Slotted s t) (c : Fin 48) (x : CouplingState) (phase : Option ReleasePhase)
    (m : Nat) : Slotted (s.beginWork c x phase m) (t.beginWork c x phase m) := by
  have same : t.beginWork c x phase m = { t with tow := (s.beginWork c x phase m).tow } := by
    rw [h.same]
    rfl
  rw [same]
  exact h.withTow _

theorem State.beginWork_coupling (s : State) (c : Fin 48) (x : CouplingState) (phase : Option ReleasePhase) (m : Nat) :
    ((s.beginWork c x phase m).tow.couplings[c]'c.isLt) = { s.tow.couplings[c]'c.isLt with
      prior := some (s.tow.couplings[c]'c.isLt).state, state := x, phase := phase, count := m, waitAt := s.waitStart } := by
  show ((s.modCoupling c _).tow.couplings[c]'c.isLt) = _
  rw [State.modCoupling_coupling, if_pos rfl]

theorem State.waitStart_eq (s : State) :
    s.waitStart = some (s.now + 1000000 * s.helm.modes[s.helm.mode].waitLimit) := by
  show some (s.now + s.helm.modes[s.helm.mode].waitLimit * 1000 * 1000) = _
  congr 1
  omega

/-! ### What keeps the WINCH order of the work -/

/-- An order of another block leaves a waiting WINCH order as it is: it neither takes its slot nor supersedes it (R136). -/
theorem State.place_winch {s : State} {j : Fin 16} (waits : (s.trans.slots[j]'j.isLt).isWaiting = true)
    (kind : (s.trans.slots[j]'j.isLt).kind = .winch) (n : Fin 32) (k : OrderKind) (v : OrderValue) (w : Owner)
    (b : Option BoatSet) :
    (s.place n k v w b).1.trans.slots[j] = s.trans.slots[j]'j.isLt := by
  by_cases own : s.waitingSlot n = some j
  · unfold State.place
    split
    · rfl
    · rw [own]
      dsimp only
      rw [if_neg]
      rintro ⟨e, l⟩
      rw [← e, kind] at l
      cases l
  · refine State.place_keeps (fun e => ?_) own k v w b
    rw [Slot.isWaiting, e] at waits
    cases waits

theorem State.holdSlot_slot (s : State) (i j : Fin 16) : ((s.holdSlot i).trans.slots[j]'j.isLt) = s.trans.slots[j]'j.isLt ∨
    i = j ∧ ((s.holdSlot i).trans.slots[j]'j.isLt) = { s.trans.slots[j]'j.isLt with state := .held } := by
  unfold State.holdSlot
  split
  · change ((s.modSlot i _).trans.slots[j]'j.isLt) = _ ∨ i = j ∧ ((s.modSlot i _).trans.slots[j]'j.isLt) = _
    rw [State.modSlot_slot]
    by_cases e : i = j
    · exact .inr ⟨e, if_pos e⟩
    · exact .inl (if_neg e)
  · exact .inl rfl

theorem Orderly.works (i : Fin 16) (n : Fin 32) (v : OrderValue) (c : Fin 48) (b : Option BoatSet) :
    Orderly fun s => (s.trans.slots[i]'i.isLt).Works n v c b where
  same s t trans _ h := by rw [trans]; exact h
  place s m k x w h := by rw [State.place_winch h.waits h.kind]; exact h
  hold s d j _ h := by
    obtain e | ⟨-, e⟩ := s.holdSlot_slot j i
    · rw [e]; exact h
    · rw [e]; exact h.withState (.inl rfl)

theorem State.releaseSlot_slot (s : State) (i j : Fin 16) :
    ((s.releaseSlot i).trans.slots[j]'j.isLt) = s.trans.slots[j]'j.isLt ∨
    ∃ y : SlotState, (y = .waiting ∨ y = .queued) ∧
      ((s.releaseSlot i).trans.slots[j]'j.isLt) = { s.trans.slots[j]'j.isLt with state := y } := by
  unfold State.releaseSlot
  split
  · split
    · rw [State.modSlot_slot]
      split
      · exact .inr ⟨.waiting, .inl rfl, rfl⟩
      · exact .inl rfl
    · rw [State.queueSlot_slot]
      split
      · exact .inr ⟨.queued, .inr rfl, rfl⟩
      · exact .inl rfl
  · exact .inl rfl

/-! ### The release of a HELD slot (R85) -/

theorem State.orderRelease_ready {s : State} {c : Fin 48} {i : Fin 16} (found : s.releaseSlotOf c = some i)
    (ready : s.releaseReady c = true) :
    s.orderRelease c = (s.releaseSlot i).modCoupling c fun k => { k with phase := some .ordered } := by
  unfold State.orderRelease
  rw [found]
  exact if_pos ready

theorem State.orderRelease_waits {s : State} {c : Fin 48} (h : s.releaseReady c = false) : s.orderRelease c = s := by
  unfold State.orderRelease
  split
  · exact if_neg (by rw [h]; exact Bool.false_ne_true)
  · rfl

theorem State.orderRelease_works {s : State} {i : Fin 16} {n : Fin 32} {v : OrderValue} {c : Fin 48} {b : Option BoatSet}
    (h : (s.trans.slots[i]'i.isLt).Works n v c b) (d : Fin 48) : ((s.orderRelease d).trans.slots[i]'i.isLt).Works n v c b := by
  unfold State.orderRelease
  split
  · next j _ =>
    split
    · show (((s.releaseSlot j).trans.slots[i]'i.isLt)).Works n v c b
      obtain e | ⟨y, waits, e⟩ := s.releaseSlot_slot j i
      · rw [e]; exact h
      · rw [e]; exact h.withState (.inr waits)
    · exact h
  · exact h

theorem State.Works_releaseSlotOf {s : State} {i : Fin 16} {n : Fin 32} {c : Fin 48} {b : Option BoatSet}
    (h : (s.trans.slots[i]'i.isLt).Works n .release c b) : ∃ j, s.releaseSlotOf c = some j :=
  Option.isSome_iff_exists.1 (findTable_isSome (i := i) (by rw [h.waits, h.owner, h.value]; simp))

/-- The phase of a release whose slot waits: ORDERED where the condition of its set holds (R85). -/
theorem State.orderRelease_phase {s : State} {i : Fin 16} {n : Fin 32} {c : Fin 48} {b : Option BoatSet}
    (h : (s.trans.slots[i]'i.isLt).Works n .release c b) (state : (s.tow.couplings[c]'c.isLt).state = .releasing)
    (phase : (s.tow.couplings[c]'c.isLt).phase = some .waitZero) :
    (s.orderRelease c).prop = s.prop ∧ (s.orderRelease c).tow.applied = s.tow.applied ∧
      ((s.orderRelease c).tow.couplings[c]'c.isLt).phase =
        some (if s.prop.zeroOf (s.tow.couplings[c]'c.isLt).entry.bearsOn then .ordered else .waitZero) := by
  obtain ⟨j, found⟩ := State.Works_releaseSlotOf h
  cases zero : s.prop.zeroOf (s.tow.couplings[c]'c.isLt).entry.bearsOn with
  | true =>
    rw [State.orderRelease_ready found (State.releaseReady_iff.2 ⟨state, phase, zero, by rw [found]; rfl⟩),
      State.modCoupling_coupling, if_pos rfl]
    have slotted := s.releaseSlot_slotted j
    refine ⟨by rw [slotted.same]; rfl, ?_, rfl⟩
    show (s.releaseSlot j).tow.applied = _
    rw [slotted.tow]
  | false =>
    have waits : s.releaseReady c = false := Bool.eq_false_iff.2 fun ready => by
      obtain ⟨-, -, met, -⟩ := State.releaseReady_iff.1 ready
      rw [zero] at met
      cases met
    rw [State.orderRelease_waits waits]
    exact ⟨rfl, rfl, phase⟩

/-! ### A taken order -/

section
variable {s p : State} {c : Fin 48} (placed : Slotted s p) (x : CouplingState) {phase : Option ReleasePhase} (m : Nat)
include placed

theorem Slotted.begun_within : Within .tow (s.beginWork c x phase m) (p.beginWork c x phase m).formTow :=
  (((placed.beginWork c x phase m).worked.mono).trans (State.formTow_worked _)).within

/-- The forming of the tow ceilings leaves the coupling as the work has begun on it. -/
theorem Slotted.begun_coupling (still : phase ≠ some .ordered) :
    ((p.beginWork c x phase m).formTow.tow.couplings[c]'c.isLt) = (s.beginWork c x phase m).tow.couplings[c]'c.isLt := by
  have begun : (p.beginWork c x phase m).tow = (s.beginWork c x phase m).tow := (placed.beginWork c x phase m).tow
  have stands := (Steady.stands _ c).formTow _ (Coupling.Stands.refl ((p.beginWork c x phase m).tow.couplings[c]'c.isLt))
  rw [begun] at stands
  refine stands.same ?_
  rw [s.beginWork_coupling]
  exact still

end

theorem State.begun_works {p : State} {i : Fin 16} {n : Fin 32} {v : OrderValue} {c : Fin 48} {b : Option BoatSet}
    (h : (p.trans.slots[i]'i.isLt).Works n v c b) (x : CouplingState) (phase : Option ReleasePhase) (m : Nat) :
    ((p.beginWork c x phase m).formTow.trans.slots[i]'i.isLt).Works n v c b :=
  (Orderly.works i n v c b).steady.formTow _ h

/-- A RELEASING coupling forms a tow ceiling of 0, applied at once (R79, R80). -/
theorem State.formTow_releasing {s : State} {c : Fin 48} (state : (s.tow.couplings[c]'c.isLt).state = .releasing) {b : Boat}
    (on : (s.tow.couplings[c]'c.isLt).on b) : s.formTow.tow.applied.get b = 0 := by
  have ceilings := s.formTow_ceilings
  obtain ⟨computed, -⟩ := s.formTow_boat b
  have bound := (computedCeiling_lowest s.tow.couplings s.profile b).2.1 c on
  have share : (s.tow.couplings[c]'c.isLt).share s.profile = 0 := by
    unfold Coupling.share
    rw [state]
  have applied := ceilings.applied b
  omega

/-- A change of phase is within what propulsion may change. -/
theorem State.withPhase_within (s : State) (c : Fin 48) (x : Option ReleasePhase) :
    Within .propulsion s (s.modCoupling c fun k => { k with phase := x }) := by
  have rest : ∀ d : Fin 48, { (s.modCoupling c fun k => { k with phase := x }).tow.couplings[d]'d.isLt with
      phase := (s.tow.couplings[d]'d.isLt).phase } = s.tow.couplings[d]'d.isLt := fun d => by
    rw [State.modCoupling_coupling]
    by_cases e : c = d
    · subst e
      rw [if_pos rfl]
    · rw [if_neg e]
  have entry : ∀ d : Fin 48, ((s.modCoupling c fun k => { k with phase := x }).tow.couplings[d]'d.isLt).entry =
      (s.tow.couplings[d]'d.isLt).entry := fun d => (congrArg Coupling.entry (rest d) :)
  exact { Within.refl .propulsion s with
    written := { WrittenKept.refl s with couplings := entry }
    quiet := fun low => absurd low (by decide)
    units := fun _ => { UnitsKept.refl s with couplings := rest } }

/-- The state in which a release has begun, but for its phase. -/
def State.releaseBegun (s : State) (c : Fin 48) : State :=
  let base := s.modCoupling c fun k =>
    { k with
      state := .releasing, prior := some k.state
      waitAt := some (s.now + 1000000 * s.helm.modes[s.helm.mode].waitLimit) }
  { base with tow := { base.tow with work := some c } }

/-- A release begun differs by its phase alone. -/
theorem State.beginRelease_within (s : State) (c : Fin 48) : Within .propulsion (s.releaseBegun c)
    (s.beginWork c .releasing (some .waitZero) (s.tow.couplings[c]'c.isLt).count) := by
  have twice : (s.modCoupling c fun k =>
      { k with
        state := .releasing, prior := some k.state
        waitAt := some (s.now + 1000000 * s.helm.modes[s.helm.mode].waitLimit) }).modCoupling c
        (fun k => { k with phase := some .waitZero }) =
      s.modCoupling c fun k =>
        { k with
          prior := some k.state, state := .releasing, phase := some .waitZero, count := (s.tow.couplings[c]'c.isLt).count
          waitAt := s.waitStart } := by
    rw [State.modCoupling_modCoupling, State.waitStart_eq]
    exact State.modCoupling_congr rfl
  have same : (s.releaseBegun c).modCoupling c (fun k => { k with phase := some .waitZero }) =
      s.beginWork c .releasing (some .waitZero) (s.tow.couplings[c]'c.isLt).count :=
    congrArg (fun u : State => { u with tow := { u.tow with work := some c } }) twice
  rw [← same]
  exact State.withPhase_within _ c _

/-- A RELEASE taken (R84, R85). -/
theorem State.decideRelease_takes {s : State} {c : Fin 48} {w : Fin 32}
    (winch : (s.tow.couplings[c]'c.isLt).entry.winch = some w)
    (alive : (s.nodes[w]'w.isLt).state ≠ .failed ∧ (s.nodes[w]'w.isLt).state ≠ .unused)
    (state : (s.tow.couplings[c]'c.isLt).state = .slack ∨ (s.tow.couplings[c]'c.isLt).state = .madeUp ∨
      (s.tow.couplings[c]'c.isLt).state = .alert)
    (work : s.tow.work = none) (idle : s.waitingSlot w = none) (free : s.hasFree) : ∃ u,
      s.decideRelease c = (u, .taken) ∧ Within .tow (s.releaseBegun c) u ∧
      (∃ j : Fin 16, (u.trans.slots[j]'j.isLt).Works w .release c (some (s.tow.couplings[c]'c.isLt).entry.bearsOn)) ∧
      (u.tow.couplings[c]'c.isLt).phase =
        some (if u.prop.zeroOf (s.tow.couplings[c]'c.isLt).entry.bearsOn then .ordered else .waitZero) ∧
      ∀ b, (s.tow.couplings[c]'c.isLt).on b → u.tow.applied.get b = 0 := by
  obtain ⟨p, j, placed, works, taken⟩ := State.decideWork_taken (s := s)
    (may := fun x => x = .slack ∨ x = .madeUp ∨ x = .alert) (order := fun k => (.release, some k.entry.bearsOn))
    (begun := fun k c u => (u.beginWork c .releasing (some .waitZero) k.count).formTow.orderRelease c)
    (State.winchOf_some winch alive) state work idle free alive
  have formed := State.begun_works works .releasing (some .waitZero) (s.tow.couplings[c]'c.isLt).count
  have coupling := placed.begun_coupling (c := c) .releasing (phase := some .waitZero)
    (s.tow.couplings[c]'c.isLt).count nofun
  have within := placed.begun_within (c := c) .releasing (phase := some .waitZero) (s.tow.couplings[c]'c.isLt).count
  have zero : ∀ b, (s.tow.couplings[c]'c.isLt).on b →
      (p.beginWork c .releasing (some .waitZero) (s.tow.couplings[c]'c.isLt).count).formTow.tow.applied.get b = 0 :=
        fun b on => by
    refine State.formTow_releasing (c := c) ?_ ?_
    · rw [(placed.beginWork c _ _ _).tow, State.beginWork_coupling]
    · unfold Coupling.on
      rw [(placed.beginWork c _ _ _).tow, State.beginWork_coupling]
      exact on
  rw [State.beginWork_coupling] at coupling
  refine ⟨_, taken, ?_⟩
  dsimp only at formed within zero ⊢
  generalize (p.beginWork c .releasing (some .waitZero) (s.tow.couplings[c]'c.isLt).count).formTow = u at *
  obtain ⟨prop, applied, phase⟩ := State.orderRelease_phase formed (by rw [coupling]) (by rw [coupling])
  refine ⟨?_, ⟨j, State.orderRelease_works formed c⟩, ?_, fun b on => ?_⟩
  · exact (((s.beginRelease_within c).mono (by decide)).trans within).trans
      ((u.orderRelease_worked c).within.mono (by decide))
  · rw [phase, coupling, prop]
  · rw [applied]
    exact zero b on

/-- A MAKE_UP taken (R93). -/
theorem State.decideMakeUp_takes {s : State} {c : Fin 48} {w : Fin 32}
    (winch : (s.tow.couplings[c]'c.isLt).entry.winch = some w)
    (alive : (s.nodes[w]'w.isLt).state ≠ .failed ∧ (s.nodes[w]'w.isLt).state ≠ .unused)
    (state : (s.tow.couplings[c]'c.isLt).state = .slack ∨ (s.tow.couplings[c]'c.isLt).state = .released)
    (work : s.tow.work = none) (idle : s.waitingSlot w = none) (free : s.hasFree) : ∃ u,
      s.decideMakeUp c = (u, .taken) ∧ Within .tow (s.beginWork c .makingUp none 0) u ∧
      ∃ j : Fin 16, (u.trans.slots[j]'j.isLt).Works w (.heave (s.tow.couplings[c]'c.isLt).entry.heave) c none := by
  obtain ⟨p, j, placed, works, taken⟩ := State.decideWork_taken (s := s)
    (may := fun x => x = .slack ∨ x = .released) (order := fun k => (.heave k.entry.heave, none))
    (begun := fun _ c u => (u.beginWork c .makingUp none 0).formTow)
    (State.winchOf_some winch alive) state work idle free alive
  exact ⟨_, taken, placed.begun_within .makingUp 0, j, State.begun_works works .makingUp none 0⟩

end Sys2Proof.Machine

open Sys2Proof Sys2Proof.Machine

/-- Settles O32: the RELEASE order takes a FREE slot, HELD, the work is begun in WAIT_ZERO and the tow ceilings formed;
where the condition holds, the slot is released at once. -/
theorem coupleReleaseTaken : Obligations.CoupleReleaseTaken := by
  refine ⟨fun s o index c w admits i winch failed unused state work idle free => ?_, fun s o index admits => ?_⟩
  · have used : (s.tow.couplings[c]'c.isLt).state ≠ .unused := by
      obtain e | e | e := state <;> rw [e] <;> exact nofun
    have run := admits.couples i used State.decideRelease
    obtain ⟨u, taken, within, ⟨j, waits, target, kind, value, owner, condition⟩, phase, zero⟩ :=
      State.decideRelease_takes (s := s.frameEnd .W) winch ⟨failed, unused⟩ state work idle free
    rw [taken] at run
    exact ⟨_, congrArg Host.Outcome.next run, within.answered o 4 .taken s.link.own rfl,
      ⟨j, waits, target, kind, value, owner, condition⟩, phase, zero⟩
  · obtain ⟨range, each⟩ := admits.work_refused (may := fun x => x = .slack ∨ x = .madeUp ∨ x = .alert)
      (order := fun k => (.release, some k.entry.bearsOn))
      (begun := fun k c u => (u.beginWork c .releasing (some .waitZero) k.count).formTow.orderRelease c) index
    refine ⟨range, fun c i => ?_⟩
    obtain ⟨state, winch, named⟩ := each c i
    refine ⟨state, winch, fun w is => ⟨(named w is).1, fun may => (named w is).2 may ?_⟩⟩
    obtain e | e | e := may <;> rw [e] <;> exact nofun

/-- Settles O34: the HEAVE order takes a FREE slot, the work is begun, and the tow ceilings are formed. -/
theorem coupleMakeUpTaken : Obligations.CoupleMakeUpTaken := by
  refine ⟨fun s o index c w admits i winch failed unused state work idle free => ?_, fun s o index admits => ?_⟩
  · have used : (s.tow.couplings[c]'c.isLt).state ≠ .unused := by
      obtain e | e := state <;> rw [e] <;> exact nofun
    have run := admits.couples i used State.decideMakeUp
    obtain ⟨u, taken, within, j, waits, target, kind, value, owner, -⟩ :=
      State.decideMakeUp_takes (s := s.frameEnd .W) winch ⟨failed, unused⟩ state work idle free
    rw [taken] at run
    unfold State.beginWork at within
    rw [State.waitStart_eq] at within
    exact ⟨_, congrArg Host.Outcome.next run, within.answered o 4 .taken s.link.own rfl, j, waits, target, kind, value, owner⟩
  · obtain ⟨range, each⟩ := admits.work_refused (may := fun x => x = .slack ∨ x = .released)
      (order := fun k => (.heave k.entry.heave, none)) (begun := fun _ c u => (u.beginWork c .makingUp none 0).formTow) index
    refine ⟨range, fun c i => ?_⟩
    obtain ⟨state, winch, named⟩ := each c i
    refine ⟨state, winch, fun w is => ⟨(named w is).1, fun may => (named w is).2 may ?_⟩⟩
    obtain e | e := may <;> rw [e] <;> exact nofun

end

