-- ==== Sys2Proof/Proofs/CouplingEnds.lean ====
section
/-! PROOF. Proofs/CouplingEnds.lean: the end of a release or a make-up (R87 to R90, R94): the coupling, its release slot given
up, and what the notices and the tow ceilings that follow leave of it; with it the expiries of the supervisor (O36).
A table index gives its bound itself (`'c.isLt`): the default bound tactic would run at each one. -/

-- The whole text is compiled in one process under a memory limit: proofs one after another, and no linters.
set_option Elab.async false
set_option linter.all false

namespace Sys2Proof.Machine

/-! ### The orders of the units under their owners -/

/-- A property of the slots and the nodes alone that the orders of engines and actuators, each under its own name, and the
hold of a release keep. -/
structure Owned (P : State → Prop) : Prop where
  same : ∀ s t : State, t.trans = s.trans → t.nodes = s.nodes → P s → P t
  setpoint : ∀ (s : State) (i : Fin 6), P s → P (s.placeSetpoint i)
  ordered : ∀ (s : State) (i : Fin 5), P s → P (s.placeOrdered i)
  hold : ∀ (s : State) (c : Fin 48) (i : Fin 16), s.releaseSlotOf c = some i → P s → P (s.holdSlot i)

namespace Owned

variable {P : State → Prop} (h : Owned P)
include h

theorem noted (s t : State) (m : Noted s t) (p : P s) : P t :=
  h.same s t (by rw [m.same]) (by rw [m.same]) p

theorem reviewBoatWash (s : State) (b : Boat) (p : P s) : P (s.reviewBoatWash b) := by
  unfold State.reviewBoatWash
  split
  · exact p
  · unfold State.remapBoat
    refine foldl_keeps _ P (fun u i q => ?_) _ _ (h.same s _ rfl rfl p)
    split
    · unfold State.remapActuator
      dsimp only
      split
      · exact q
      · exact h.ordered _ i (h.same u _ rfl rfl q)
    · exact q

theorem holdRelease (s : State) (b : BoatSet) (p : P s) : P (s.holdRelease b) := by
  unfold State.holdRelease
  split
  · split
    · split
      · next i e => exact h.same (s.holdSlot i) _ rfl rfl (h.hold s _ i e p)
      · exact p
    · exact p
  · exact p

theorem reviewZeroOf (s : State) (b : BoatSet) (p : P s) : P (s.reviewZeroOf b) := by
  unfold State.reviewZeroOf
  dsimp only
  split
  · exact p
  · split
    · exact h.same s _ rfl rfl p
    · exact h.holdRelease _ b (h.same s _ rfl rfl p)

theorem cutEngines (s : State) (p : P s) : P s.cutEngines := by
  unfold State.cutEngines
  refine foldl_keeps _ P (fun u i q => ?_) _ s p
  unfold State.cutEngine
  dsimp only
  split
  · exact q
  · exact h.setpoint _ i (h.same u _ rfl rfl q)

theorem recompute (s : State) (p : P s) : P s.recompute := by
  have cut : P s.shared.cutEngines :=
    h.cutEngines _ (h.noted _ _ (State.noteUnmet_noted _) (h.same s s.formEngines.share rfl rfl p))
  rw [State.recompute_eq, State.reslewed_eq]
  generalize s.shared.cutEngines = u at cut ⊢
  have slewed : P (u.slewEngines s.prop.engines) := h.same u _ (State.slewEngines_trans _ _) rfl cut
  generalize u.slewEngines s.prop.engines = v at slewed ⊢
  have washed : P v.reviewWash := h.reviewBoatWash _ _ (h.reviewBoatWash _ _ slewed)
  generalize v.reviewWash = w at washed ⊢
  exact h.reviewZeroOf _ _ (h.reviewZeroOf _ _ (h.reviewZeroOf w _ washed))

theorem steady : Steady P :=
  ⟨h.recompute, h.noted, fun s _ _ _ p => h.same s _ rfl rfl p, fun s p => h.same s _ rfl rfl p⟩

end Owned

/-! ### A release slot given up (R89) -/

theorem State.queueSlot_lane_mem {s : State} {i j : Fin 16} {p : PlantPort} (h : j ∈ (s.queueSlot i).trans.lane p) :
    j = i ∨ j ∈ s.trans.lane p := by
  rw [State.queueSlot_lane] at h
  split at h
  · exact (List.mem_append.1 h).symm.imp List.mem_singleton.1 id
  · exact .inr h

theorem State.fillSlot_lane_mem {s : State} {i j : Fin 16} {n : Fin 32} {k : OrderKind} {v : OrderValue} {w : Owner}
    {b : Option BoatSet} {p : PlantPort} (h : j ∈ (s.fillSlot i n k v w b).trans.lane p) : j = i ∨ j ∈ s.trans.lane p := by
  unfold State.fillSlot at h
  by_cases waits : b.isSome = true ∨ (s.flightSlot n).isSome = true
  · rw [if_pos waits] at h
    exact .inr h
  · rw [if_neg waits] at h
    have joined := State.queueSlot_lane_mem h
    exact joined

theorem State.supersede_lane (s : State) (i : Fin 16) (n : Fin 32) (v : OrderValue) (w : Owner) (p : PlantPort) :
    (s.supersede i n v w).trans.lane p = s.trans.lane p :=
  s.modSlot_lane i _ p

/-- An order under another owner leaves a slot given up, or takes it. -/
theorem State.place_gaveUp {s : State} {c : Fin 48} {i : Fin 16} (h : s.gaveUp c i) (n : Fin 32) (k : OrderKind)
    (v : OrderValue) {w : Owner} (other : w ≠ .tow c) (b : Option BoatSet) : (s.place n k v w b).1.gaveUp c i := by
  have owned : some w ≠ some (Owner.tow c) := fun e => other (Option.some.inj e)
  obtain e | ⟨j, -, -, e⟩ | ⟨j, -, -, e⟩ := s.place_forms n k v w b <;> rw [e]
  · exact h
  · unfold State.gaveUp
    rw [State.supersede_slot]
    by_cases own : j = i
    · rw [if_pos own]
      exact .inr owned
    · rw [if_neg own]
      simp only [State.supersede_lane]
      exact h
  · unfold State.gaveUp
    rw [State.fillSlot_slot]
    by_cases own : j = i
    · rw [if_pos own]
      exact .inr owned
    · rw [if_neg own]
      exact h.imp (fun ⟨free, out⟩ => ⟨free, fun p at_ => out p
        ((State.fillSlot_lane_mem at_).resolve_left (Ne.symm own))⟩) id

theorem State.holdSlot_lane_mem {s : State} {i j : Fin 16} {p : PlantPort} (h : j ∈ (s.holdSlot i).trans.lane p) :
    j ∈ s.trans.lane p := by
  unfold State.holdSlot at h
  split at h
  · rw [State.leaveLane_lane] at h
    exact (List.mem_filter.1 h).1
  · exact h

theorem Owned.gaveUp (c : Fin 48) (i : Fin 16) : Owned fun s => s.gaveUp c i where
  same s t trans _ h := by
    unfold State.gaveUp
    rw [trans]
    exact h
  setpoint s j h := by
    unfold State.placeSetpoint
    split
    · exact State.place_gaveUp h _ _ _ (w := .propulsion j) (fun e => by cases e) _
    · exact h
  ordered s j h := by
    unfold State.placeOrdered
    split
    · exact State.place_gaveUp h _ _ _ (w := .steering j) (fun e => by cases e) _
    · exact h
  hold s d j found h := by
    have kept : ∀ p, i ∉ s.trans.lane p → i ∉ (s.holdSlot j).trans.lane p := fun p out at_ =>
      out (State.holdSlot_lane_mem at_)
    unfold State.gaveUp
    obtain e | ⟨rfl, e⟩ := s.holdSlot_slot j i <;> rw [e]
    · exact h.imp (fun ⟨free, out⟩ => ⟨free, fun p => kept p (out p)⟩) id
    · refine .inr (h.resolve_left fun ⟨free, _⟩ => ?_)
      have waits := findTable_meets found
      rw [Slot.isWaiting, free] at waits
      simp at waits

theorem State.dropRelease_gaveUp {s : State} {c : Fin 48} {i : Fin 16} (h : s.releaseSlotOf c = some i) :
    (s.dropRelease c).gaveUp c i := by
  have waits : (s.trans.slots[i]'i.isLt).isWaiting = true := by
    have meets := findTable_meets h
    simp only [Bool.and_eq_true] at meets
    exact meets.1.1
  unfold State.dropRelease State.withdrawSlot
  rw [h]
  dsimp only
  rw [if_pos waits]
  refine .inl ⟨by rw [State.endSlot_slot, if_pos rfl], fun p at_ => ?_⟩
  unfold State.endSlot at at_
  rw [State.leaveLane_lane] at at_
  simpa using (List.mem_filter.1 at_).2

/-! ### Ended work -/

/-- A coupling whose work has ended in a state. -/
def State.workEnded (s : State) (c : Fin 48) (x : CouplingState) : State :=
  let r := s.modCoupling c fun k => { k with state := x, phase := none, prior := none, waitAt := none }
  { r with tow := { r.tow with work := none } }

theorem State.endWork_slotted (s : State) (c : Fin 48) (x : CouplingState) :
    Slotted (s.workEnded c x) (s.endWork c x) := by
  have dropped := s.dropRelease_slotted c
  have same : s.endWork c x = { s.dropRelease c with tow := (s.workEnded c x).tow } := by
    unfold State.endWork State.workEnded State.modCoupling
    rw [dropped.tow]
  rw [same]
  exact dropped.withTow _

/-- `t` is `s` with the work of a coupling ended in a state, its release slot given up, and work up to the tow ceilings
done after that. -/
structure State.EndsWork (s : State) (c : Fin 48) (x : CouplingState) (t : State) : Prop where
  within : Within .tow (s.workEnded c x) t
  gaveUp : ∀ i : Fin 16, s.releaseSlotOf c = some i → t.gaveUp c i

theorem State.endWork_ends (s : State) (c : Fin 48) (x : CouplingState) : s.EndsWork c x (s.endWork c x) :=
  ⟨(s.endWork_slotted c x).worked.within.mono (by decide), fun i h =>
    (Owned.gaveUp c i).same (s.dropRelease c) _ rfl rfl (State.dropRelease_gaveUp h)⟩

section
variable {s t : State} {c : Fin 48} {x : CouplingState} (h : s.EndsWork c x t)
include h

theorem State.EndsWork.latch (k : NoticeKind) (b : Byte) : s.EndsWork c x (t.latch k b) :=
  ⟨h.within.trans (t.latch_worked .tow k b).within, fun i found => (Owned.gaveUp c i).steady.latch t k b (h.gaveUp i found)⟩

theorem State.EndsWork.noteState (d : Fin 48) : s.EndsWork c x (t.noteState d) :=
  ⟨h.within.trans (State.noteState_worked .tow t d).within, fun i found =>
    (Owned.gaveUp c i).steady.noteState t d (h.gaveUp i found)⟩

theorem State.EndsWork.formTow : s.EndsWork c x t.formTow :=
  ⟨h.within.trans t.formTow_worked.within, fun i found => (Owned.gaveUp c i).steady.formTow t (h.gaveUp i found)⟩

end

theorem State.partWork_ends (s : State) (c : Fin 48) :
    s.EndsWork c .parted (s.partWork c) ∧ (s.partWork c).hasNotice .couplingParted (subjectOf c) :=
  ⟨((s.endWork_ends c .parted).latch _ _).formTow, (Steady.hasNotice _ _).formTow _ (State.latch_hasNotice _ _ _)⟩

theorem State.releaseDone_ends (s : State) (c : Fin 48) :
    s.EndsWork c .released (s.releaseDone c) ∧ (s.releaseDone c).hasNotice .releaseDone (subjectOf c) :=
  ⟨((s.endWork_ends c .released).latch _ _).formTow, (Steady.hasNotice _ _).formTow _ (State.latch_hasNotice _ _ _)⟩

theorem State.abandonRelease_ends (s : State) (c : Fin 48) :
    s.EndsWork c (s.tow.couplings[c]'c.isLt).returnState (s.abandonRelease c) ∧
      (s.abandonRelease c).hasNotice .releaseAbandoned (subjectOf c) :=
  ⟨(((s.endWork_ends c _).latch _ _).noteState c).formTow,
    (Steady.hasNotice _ _).formTow _ ((Steady.hasNotice _ _).noteState _ c (State.latch_hasNotice _ _ _))⟩

theorem State.abandonMakeup_ends (s : State) (c : Fin 48) :
    s.EndsWork c (s.tow.couplings[c]'c.isLt).returnState (s.abandonMakeup c) ∧
      (s.abandonMakeup c).hasNotice .makeupAbandoned (subjectOf c) :=
  ⟨(((s.endWork_ends c _).noteState c).latch _ _).formTow, (Steady.hasNotice _ _).formTow _ (State.latch_hasNotice _ _ _)⟩

/-- What a release returns to, where it has come past WAIT_ZERO and its line has slackened (R88). -/
theorem Coupling.returnState_slack {k : Coupling} (past : k.phase = some .ordered ∨ k.phase = some .awaitSlack)
    (slackened : k.last < k.entry.slack) : k.returnState = .slack := by
  unfold Coupling.returnState
  obtain e | e := past <;> rw [e] <;> exact if_pos slackened

theorem Coupling.returnState_prior {k : Coupling}
    (h : ¬ ((k.phase = some .ordered ∨ k.phase = some .awaitSlack) ∧ k.last < k.entry.slack)) :
    k.returnState = k.prior.getD .slack := by
  unfold Coupling.returnState
  dsimp only
  split
  · next e => exact if_neg fun low => h ⟨.inl e, low⟩
  · next e => exact if_neg fun low => h ⟨.inr e, low⟩
  · rfl

/-! ### The expiries of the supervisor (R76, R80) -/

/-- A coupling no longer heard changes as it says itself, and no more than the ceilings follow (R76). -/
theorem State.couplingUnheard_within (s : State) (c : Fin 48) :
    Within .tow (s.modCoupling c Coupling.unheard) (s.couplingUnheard c) := by
  rw [State.couplingUnheard_eq]
  split
  · exact ((State.noteState_worked .tow _ c).trans (State.formTow_worked _)).within
  · exact Within.refl _ _

/-- A coupling that falls silent was loaded or slack (R76). -/
theorem Coupling.unheard_silent {k : Coupling} (silent : k.unheard.state = .silent) (other : k.state ≠ .silent) :
    k.state = .slack ∨ k.state = .madeUp ∨ k.state = .alert ∨ k.state = .overload := by
  by_contra h
  unfold Coupling.unheard at silent
  rw [if_neg h] at silent
  split at silent
  · exact other silent
  · exact other silent

theorem State.holdEnds_within (s : State) (b : Boat) : Within .propulsion { s with tow := { s.tow with
    applied := s.tow.applied.set b (s.tow.computed.get b), holdAt := s.tow.holdAt.set b none } } (s.holdEnds b) := by
  unfold State.holdEnds
  dsimp only
  split
  · exact Within.refl _ _
  · exact State.recompute_within _

end Sys2Proof.Machine

open Sys2Proof Sys2Proof.Machine

/-- Settles O36: each expiry runs at its instant, and the end of work is the same whichever wait has run out. -/
theorem couplingTimerExpiries : Obligations.CouplingTimerExpiries := by
  refine ⟨fun s => ⟨fun c at_ run => ?_, fun b at_ run => ?_⟩, fun s c at_ run => ⟨fun releasing => ?_, fun making idle => ?_⟩⟩
  · intro k x
    have expired : exec (.sampleSilenceExpiry c) s = .next ((s.reach at_).couplingUnheard c) := by
      show Host.Outcome.next (s.expire (s.tow.couplings[c]'c.isLt).sampleAt fun u => u.couplingUnheard c) = _
      rw [run]
      rfl
    have unheard : Coupling.unheard k = x := by
      unfold Coupling.unheard
      split
      · next h => exact (if_pos h).symm
      · next h =>
        split
        · next g => exact ((if_neg h).trans (if_pos g)).symm
        · next g => exact ((if_neg h).trans (if_neg g)).symm
    have within := (s.reach at_).couplingUnheard_within c
    rw [State.modCoupling_congr (s := s.reach at_) (g := fun _ => x) unheard] at within
    refine ⟨_, expired, within, fun silent other =>
      State.couplingUnheard_notes (Coupling.unheard_silent (k := k) ?_ other)⟩
    rw [unheard]
    exact silent
  · have expired : exec (.holdExpiry b) s = .next ((s.reach at_).holdEnds b) := by
      show Host.Outcome.next (s.expire (s.tow.holdAt.get b) fun u => u.holdEnds b) = _
      rw [run]
      rfl
    exact ⟨_, expired, State.holdEnds_within _ b⟩
  · have expired : exec (.releaseWaitExpiry c) s = .next ((s.reach at_).abandonRelease c) := by
      show Host.Outcome.next (if _ then s.expire (s.tow.couplings[c]'c.isLt).waitAt fun u => u.abandonRelease c else s) = _
      rw [if_pos releasing, run]
      rfl
    obtain ⟨⟨within, gaveUp⟩, noted⟩ := (s.reach at_).abandonRelease_ends c
    refine ⟨_, expired, fun slackened => ?_, fun not => ?_, noted, gaveUp⟩
    · rw [Coupling.returnState_slack (k := ((s.reach at_).tow.couplings[c]'c.isLt)) slackened.1 slackened.2] at within
      exact within
    · rw [Coupling.returnState_prior (k := ((s.reach at_).tow.couplings[c]'c.isLt)) not] at within
      exact within
  · have expired : exec (.makeupWaitExpiry c) s = .next ((s.reach at_).abandonMakeup c) := by
      show Host.Outcome.next (if _ then s.expire (s.tow.couplings[c]'c.isLt).waitAt fun u => u.abandonMakeup c else s) = _
      rw [if_pos making, run]
      rfl
    obtain ⟨⟨within, -⟩, noted⟩ := (s.reach at_).abandonMakeup_ends c
    have unphased : ¬ (((s.tow.couplings[c]'c.isLt).phase = some .ordered ∨
        (s.tow.couplings[c]'c.isLt).phase = some .awaitSlack) ∧
        (s.tow.couplings[c]'c.isLt).last < (s.tow.couplings[c]'c.isLt).entry.slack) := by
      rw [idle]
      exact fun ⟨past, _⟩ => past.elim nofun nofun
    rw [Coupling.returnState_prior (k := ((s.reach at_).tow.couplings[c]'c.isLt)) unphased] at within
    exact ⟨_, expired, within, noted⟩

end

