-- ==== Sys2Proof/Proofs/WinchReports.lean ====
section
/-! PROOF. Proofs/WinchReports.lean: a coupling moved to a state outside its work (R78, R79), and a WINCH_STATUS, which moves it
or ends its work (O35).
A table index gives its bound itself (`'c.isLt`): the default bound tactic would run at each one. -/

-- The whole text is compiled in one process under a memory limit: proofs one after another, and no linters.
set_option Elab.async false
set_option linter.all false

namespace Sys2Proof.Machine

/-! ### A coupling moved -/

theorem State.noteState_hasNotice {s : State} {c : Fin 48} {k : NoticeKind}
    (h : (s.tow.couplings[c]'c.isLt).state.notice = some k) : (s.noteState c).hasNotice k (subjectOf c) := by
  unfold State.noteState
  rw [h]
  exact State.latch_hasNotice _ _ _

theorem State.moveCoupling_within (s : State) (c : Fin 48) (x : CouplingState) (m : Nat) :
    Within .tow (s.modCoupling c fun k => { k with state := x, count := m }) (s.moveCoupling c x m) := by
  unfold State.moveCoupling
  dsimp only
  split
  · exact Within.refl _ _
  · split
    · exact (State.formTow_worked _).within
    · exact ((State.noteState_worked .tow _ c).trans (State.formTow_worked _)).within

/-- A move latches the notice of the state it leads to, but for a return from OVERLOAD to ALERT (R78). -/
theorem State.moveCoupling_notes {s : State} {c : Fin 48} {x : CouplingState} {k : NoticeKind} (m : Nat)
    (moves : x ≠ (s.tow.couplings[c]'c.isLt).state) (fresh : ¬ ((s.tow.couplings[c]'c.isLt).state = .overload ∧ x = .alert))
    (notice : x.notice = some k) : (s.moveCoupling c x m).hasNotice k (subjectOf c) := by
  unfold State.moveCoupling
  dsimp only
  rw [if_neg moves, if_neg fresh]
  refine (Steady.hasNotice _ _).formTow _ (State.noteState_hasNotice ?_)
  rw [State.modCoupling_coupling, if_pos rfl]
  exact notice

/-! ### A status from a winch (R77) -/

section
variable {s : State} {n : Fin 32} {c : Fin 48} (found : findTable s.tow.couplings (fun k => decide (k.entry.winch = some n)) = some c)
include found

theorem State.winchReport_parted : s.winchReport n .parted =
    if (s.tow.couplings[c]'c.isLt).state = .unused ∨ (s.tow.couplings[c]'c.isLt).state = .parted then s
    else if (s.tow.couplings[c]'c.isLt).state = .releasing ∨ (s.tow.couplings[c]'c.isLt).state = .makingUp then s.partWork c
    else s.moveCoupling c .parted (s.tow.couplings[c]'c.isLt).count := by
  unfold State.winchReport
  rw [found]

theorem State.winchReport_released : s.winchReport n .released =
    if (s.tow.couplings[c]'c.isLt).state = .releasing ∧ ((s.tow.couplings[c]'c.isLt).phase = some .ordered ∨
      (s.tow.couplings[c]'c.isLt).phase = some .awaitSlack) then s.releaseDone c else s := by
  unfold State.winchReport
  rw [found]

theorem State.winchReport_holding {x : WinchCondition} (h : x = .holding ∨ x = .heaving) : s.winchReport n x = s := by
  unfold State.winchReport
  rw [found]
  obtain rfl | rfl := h <;> rfl

end

end Sys2Proof.Machine

open Sys2Proof Sys2Proof.Machine

/-- Settles O35: the status finds its coupling, and each condition meets one branch of the report. -/
theorem winchStatusRead : Obligations.WinchStatusRead := by
  intro s p h x n c delivers found k heard ended
  have found : findTable heard.tow.couplings (fun k => decide (k.entry.winch = some n)) = some c := found
  refine ⟨heard.winchReport n x, congrArg Host.Outcome.next delivers.passage, ?_, ?_, ?_, ?_, ?_, fun e =>
    State.winchReport_holding found e⟩
  · rintro rfl gone
    exact (State.winchReport_parted found).trans (if_pos gone)
  · rintro rfl working
    have apart : ¬ (k.state = .unused ∨ k.state = .parted) := by
      obtain e | e := working <;> rw [e] <;> decide
    rw [State.winchReport_parted found, if_neg (by exact apart), if_pos (by exact working)]
    obtain ⟨⟨within, gaveUp⟩, noted⟩ := heard.partWork_ends c
    exact ⟨within, noted, gaveUp⟩
  · rintro rfl other
    have apart : ¬ (k.state = .unused ∨ k.state = .parted) := by
      obtain e | e | e | e | e | e := other <;> rw [e] <;> decide
    have idle : ¬ (k.state = .releasing ∨ k.state = .makingUp) := by
      obtain e | e | e | e | e | e := other <;> rw [e] <;> decide
    rw [State.winchReport_parted found, if_neg (by exact apart), if_neg (by exact idle)]
    have within := heard.moveCoupling_within c .parted k.count
    rw [State.modCoupling_congr (s := heard) (g := fun k => { k with state := .parted }) rfl] at within
    refine ⟨within, State.moveCoupling_notes _ (fun e => apart (.inr e.symm)) ?_ rfl⟩
    rintro ⟨-, ⟨⟩⟩
  · rintro rfl releasing past
    rw [State.winchReport_released found, if_pos (by exact ⟨releasing, past⟩)]
    obtain ⟨⟨within, gaveUp⟩, noted⟩ := heard.releaseDone_ends c
    exact ⟨within, noted, gaveUp⟩
  · rintro rfl early
    refine (State.winchReport_released found).trans (if_neg ?_)
    rintro ⟨releasing, past⟩
    obtain e | e | e := early
    · exact e releasing
    · exact past.elim (fun o => nomatch e.symm.trans o) fun o => nomatch e.symm.trans o
    · exact past.elim (fun o => nomatch e.symm.trans o) fun o => nomatch e.symm.trans o

end

