-- ==== Sys2Proof/Proofs/TensionReports.lean ====
section
/-! PROOF. Proofs/TensionReports.lean: a TENSION reading (R71 to R75, R87, R90, R94): the judgement of a sample, what each
state of the coupling makes of it, and the last tension and sample timer set after it (O30).
A table index gives its bound itself (`'c.isLt`): the default bound tactic would run at each one. -/

-- The whole text is compiled in one process under a memory limit: proofs one after another, and no linters.
set_option Elab.async false
set_option linter.all false

namespace Sys2Proof.Machine

/-! ### The judgement of a sample (R72 to R74) -/

/-- State and count over alert after a sample, as R72 to R74 say it of each state. -/
def Coupling.judged (k : Coupling) (a o t : Nat) (y : CouplingState) : CouplingState × Nat :=
  let loaded : CouplingState × Nat := if k.entry.slack ≤ t then (.madeUp, 0) else (.slack, k.count)
  let ended : CouplingState × Nat := (if a ≤ k.last then .parted else .slack, 0)
  match y with
  | .slack => loaded
  | .silent => loaded
  | .madeUp =>
    if t < k.entry.slack then ended
    else if t < a then (.madeUp, 0)
    else if k.entry.debounce ≤ k.count + 1 then (.alert, 0)
    else (.madeUp, k.count + 1)
  | .alert =>
    if t < k.entry.slack then ended
    else if o ≤ t then (.overload, k.count)
    else if t + k.entry.hysteresis < a then (.madeUp, 0)
    else (.alert, k.count)
  | .overload =>
    if t < k.entry.slack then ended
    else if t + k.entry.hysteresis < o then (.alert, k.count)
    else (.overload, k.count)
  | y => (y, k.count)

theorem Coupling.judge_eq (k : Coupling) (y : CouplingState) (a o t : Nat) : k.judge y a o t = k.judged a o t y := by
  have below : ∀ m h : Nat, ((t : Int) < m - h) = (t + h < m) := fun m h => propext (by omega)
  cases y with
  | madeUp =>
    unfold Coupling.judge Coupling.judged
    dsimp only
    by_cases low : t < a
    · rw [if_neg (Nat.not_le.2 low), if_pos low]
      rfl
    · rw [if_pos (Nat.le_of_not_lt low), if_neg low]
      rfl
  | alert =>
    unfold Coupling.judge Coupling.judged
    dsimp only
    simp only [below]
    rfl
  | overload =>
    unfold Coupling.judge Coupling.judged
    dsimp only
    simp only [below]
    rfl
  | slack => rfl
  | silent => rfl
  | unused => rfl
  | parted => rfl
  | releasing => rfl
  | makingUp => rfl
  | released => rfl

/-! ### A sample evaluated -/

/-- The alert mark of a coupling under the mode in force (R72). -/
def State.alertMark (s : State) (c : Fin 48) : Nat :=
  (s.tow.couplings[c]'c.isLt).entry.alert * s.profile.tensionScale / 16

/-- The overload mark of a coupling under the mode in force (R72). -/
def State.overloadMark (s : State) (c : Fin 48) : Nat :=
  (s.tow.couplings[c]'c.isLt).entry.overload * s.profile.tensionScale / 16

section
variable {s : State} {c : Fin 48} {t : Nat}

theorem State.evaluateSample_idle (releasing : (s.tow.couplings[c]'c.isLt).state ≠ .releasing)
    (making : (s.tow.couplings[c]'c.isLt).state ≠ .makingUp) : s.evaluateSample c t =
      s.moveCoupling c
        ((s.tow.couplings[c]'c.isLt).judged (s.alertMark c) (s.overloadMark c) t (s.tow.couplings[c]'c.isLt).state).1
        ((s.tow.couplings[c]'c.isLt).judged (s.alertMark c) (s.overloadMark c) t (s.tow.couplings[c]'c.isLt).state).2 := by
  rw [← Coupling.judge_eq]
  unfold State.evaluateSample
  dsimp only
  split
  · next e => exact absurd e releasing
  · next e => exact absurd e making
  · rfl

section
variable (releasing : (s.tow.couplings[c]'c.isLt).state = .releasing) {y : CouplingState}
  (prior : (s.tow.couplings[c]'c.isLt).prior = some y)
include releasing prior

/-- A release under a sample: the prior state moves under load, and where the load is gone its phase decides (R75, R87, R90). -/
theorem State.evaluateSample_releasing : s.evaluateSample c t =
    if t < (s.tow.couplings[c]'c.isLt).entry.slack then
      if (s.tow.couplings[c]'c.isLt).phase = some .waitZero then
        if y ≠ .silent ∧ s.alertMark c ≤ (s.tow.couplings[c]'c.isLt).last then s.partWork c
        else s.modCoupling c fun k => { k with prior := some .slack, count := 0 }
      else s.releaseDone c
    else s.modCoupling c fun k => { k with
      prior := some ((s.tow.couplings[c]'c.isLt).judged (s.alertMark c) (s.overloadMark c) t y).1
      count := ((s.tow.couplings[c]'c.isLt).judged (s.alertMark c) (s.overloadMark c) t y).2 } := by
  rw [← Coupling.judge_eq]
  unfold State.evaluateSample
  dsimp only
  rw [releasing, prior]
  rfl

end

theorem State.evaluateSample_making (making : (s.tow.couplings[c]'c.isLt).state = .makingUp) : s.evaluateSample c t =
    if (s.tow.couplings[c]'c.isLt).entry.slack ≤ t then
      ((s.endWork c .madeUp).modCoupling c fun k => { k with count := 0 }).formTow
    else s := by
  unfold State.evaluateSample
  dsimp only
  rw [making]

end

/-! ### After the sample (R71) -/

/-- A coupling after one of its samples: its last tension, and its sample timer started again. -/
def State.sampled (s : State) (c : Fin 48) (t : Nat) (x : Timer) : State :=
  s.modCoupling c fun k => { k with last := t, sampleAt := x }

theorem State.tensionReading_found {s : State} {n : Fin 32} {r : Byte × Half} {c : Fin 48} (found : s.couplingOf n r.1 = some c) :
    s.tensionReading n r =
      (s.evaluateSample c r.2.toNat).sampled c r.2.toNat (some (s.now + 100000 * (s.nodes[n]'n.isLt).entry.silence)) := by
  have within := (s.evaluateSample_worked c r.2.toNat).within
  have timer := (s.evaluateSample c r.2.toNat).nodeSilence_eq n
  rw [within.now, within.written.nodes] at timer
  unfold State.tensionReading
  rw [found]
  dsimp only
  rw [← timer]
  rfl

theorem State.tensionReading_none {s : State} {n : Fin 32} {r : Byte × Half} (found : s.couplingOf n r.1 = none) :
    s.tensionReading n r = s := by
  unfold State.tensionReading
  rw [found]

/-- A change of a coupling that is the same under any phase keeps what lies within the tow ceilings' work. -/
theorem Within.modCoupling {b u : State} (w : Within .tow b u) (c : Fin 48) {g : Coupling → Coupling}
    (phase : ∀ (k : Coupling) (x : Option ReleasePhase),
      g { k with phase := x } = { g k with phase := x }) : Within .tow (b.modCoupling c g) (u.modCoupling c g) := by
  have kept := w.units (by decide)
  have coupling : ∀ d : Fin 48, { (u.modCoupling c g).tow.couplings[d]'d.isLt with
      phase := ((b.modCoupling c g).tow.couplings[d]'d.isLt).phase } = (b.modCoupling c g).tow.couplings[d]'d.isLt :=
        fun d => by
    rw [State.modCoupling_coupling, State.modCoupling_coupling]
    by_cases e : c = d
    · have moved : g (b.tow.couplings[c]'c.isLt) =
          { g (u.tow.couplings[c]'c.isLt) with phase := (b.tow.couplings[c]'c.isLt).phase } :=
        (congrArg g (kept.couplings c)).symm.trans (phase _ _)
      rw [if_pos e, if_pos e, moved]
    · rw [if_neg e, if_neg e]
      exact kept.couplings d
  have written : ∀ d : Fin 48, ((u.modCoupling c g).tow.couplings[d]'d.isLt).entry =
    ((b.modCoupling c g).tow.couplings[d]'d.isLt).entry :=
    fun d => (congrArg Coupling.entry (coupling d) :)
  exact { w with
    written := { w.written with couplings := written }
    quiet := fun low => absurd low (by decide)
    ceilings := fun low => absurd low (by decide)
    units := fun _ => { kept with couplings := coupling } }

theorem Within.sampled {b u : State} (w : Within .tow b u) (c : Fin 48) (t : Nat) (x : Timer) :
    Within .tow (b.sampled c t x) (u.sampled c t x) :=
  w.modCoupling c fun _ _ => rfl

theorem State.modCoupling_sampled (s : State) (c : Fin 48) (f : Coupling → Coupling) (t : Nat) (x : Timer) :
    (s.modCoupling c f).sampled c t x = s.modCoupling c fun k => { f k with last := t, sampleAt := x } :=
  s.modCoupling_modCoupling c f _

/-- The end of work with a sample after it, the count over alert said. -/
theorem State.workEnded_sampled (s : State) (c : Fin 48) (y : CouplingState) (t : Nat) (x : Timer) :
    (s.workEnded c y).sampled c t x =
      let r := s.modCoupling c fun k =>
        { k with state := y, phase := none, prior := none, waitAt := none, count := (s.tow.couplings[c]'c.isLt).count, last := t, sampleAt := x }
      { r with tow := { r.tow with work := none } } := by
  have twice : (s.modCoupling c fun k => { k with state := y, phase := none, prior := none, waitAt := none }).sampled c t x =
      s.modCoupling c fun k =>
        { k with state := y, phase := none, prior := none, waitAt := none, count := (s.tow.couplings[c]'c.isLt).count, last := t, sampleAt := x } :=
    (s.modCoupling_sampled c _ t x).trans (State.modCoupling_congr rfl)
  exact congrArg (fun u : State => { u with tow := { u.tow with work := none } }) twice

/-- Ended work, its notice and its slot given up, with a sample after it. -/
theorem State.EndsWork.sampled {s u : State} {c : Fin 48} {y : CouplingState} (h : s.EndsWork c y u) {notice : NoticeKind}
    {b : Byte} (noted : u.hasNotice notice b) (t : Nat) (x : Timer) :
    (let r := s.modCoupling c fun k =>
        { k with state := y, phase := none, prior := none, waitAt := none, count := (s.tow.couplings[c]'c.isLt).count, last := t, sampleAt := x }
     Within .tow { r with tow := { r.tow with work := none } } (u.sampled c t x)) ∧
      (u.sampled c t x).hasNotice notice b ∧ ∀ i : Fin 16, s.releaseSlotOf c = some i → (u.sampled c t x).gaveUp c i := by
  have within := h.within.sampled c t x
  rw [State.workEnded_sampled] at within
  exact ⟨within, noted, h.gaveUp⟩

theorem State.workEnded_uncounted_sampled (s : State) (c : Fin 48) (y : CouplingState) (t : Nat) (x : Timer) :
    ((s.workEnded c y).modCoupling c fun k => { k with count := 0 }).sampled c t x =
      let r := s.modCoupling c fun k =>
        { k with state := y, phase := none, prior := none, waitAt := none, count := 0, last := t, sampleAt := x }
      { r with tow := { r.tow with work := none } } := by
  have thrice : ((s.modCoupling c fun k => { k with state := y, phase := none, prior := none, waitAt := none }).modCoupling c
      fun k => { k with count := 0 }).sampled c t x = s.modCoupling c fun k =>
        { k with state := y, phase := none, prior := none, waitAt := none, count := 0, last := t, sampleAt := x } := by
    rw [State.modCoupling_modCoupling, State.modCoupling_sampled]
  exact congrArg (fun u : State => { u with tow := { u.tow with work := none } }) thrice

end Sys2Proof.Machine

open Sys2Proof Sys2Proof.Machine

/-- Settles O30: the reading finds its coupling, its state decides what the sample does, and the last tension and the sample
timer are set on whatever that gives. -/
theorem tensionRead : Obligations.TensionRead := by
  refine ⟨?_, fun s p h rs n delivers => congrArg Host.Outcome.next delivers.passage, fun s n ch v none =>
    State.tensionReading_none none⟩
  intro s p h ch v n c delivers found k scale a o t loaded _ judged sampled ended
  let heard := s.heardFrom p n
  let x : Timer := some (s.now + 100000 * (s.nodes[n]'n.isLt).entry.silence)
  have silence : (heard.nodes[n]'n.isLt).entry = (s.nodes[n]'n.isLt).entry :=
    (modTable_keeps s.nodes n n (fun x => { x with silenceAt := some (s.now + 100000 * x.entry.silence) }) Node.entry
      fun _ => rfl :)
  have reading : State.tensionReading n heard (ch, v) = (heard.evaluateSample c t).sampled c t x := by
    rw [State.tensionReading_found (s := heard) (r := (ch, v)) found, silence]
    rfl
  have run : exec (.tension p h [(ch, v)]) s = .next
      (s.andPass ((heard.evaluateSample c t).sampled c t x) p ((Content.tension [(ch, v)]).frame h)) := by
    rw [← reading]
    exact congrArg Host.Outcome.next delivers.passage
  refine ⟨_, run, fun releasing making => ?_, fun y releasing prior => ⟨fun loaded => ?_, fun low waits lost => ?_,
    fun low waits kept => ?_, fun low past => ?_⟩, fun making loaded => ?_, fun making low => ?_⟩
  · have moved : heard.evaluateSample c t = heard.moveCoupling c (judged k.state).1 (judged k.state).2 :=
      State.evaluateSample_idle releasing making
    have notes : ∀ {z : CouplingState} {notice : NoticeKind}, (judged k.state).1 ≠ k.state → (judged k.state).1 = z →
        ¬ (k.state = .overload ∧ z = .alert) → z.notice = some notice →
        (heard.moveCoupling c (judged k.state).1 (judged k.state).2).hasNotice notice (subjectOf c) :=
      fun moves is fresh notice => State.moveCoupling_notes _ moves (by rw [is]; exact fresh) (by rw [is]; exact notice)
    rw [moved]
    refine ⟨?_, fun moves alert fresh => notes moves alert (fun back => fresh back.1) rfl,
      fun moves overload => notes moves overload (fun back => nomatch back.2) rfl,
      fun moves parted => notes moves parted (fun back => nomatch back.2) rfl⟩
    have within := (heard.moveCoupling_within c (judged k.state).1 (judged k.state).2).sampled c t x
    rw [State.modCoupling_sampled] at within
    exact within
  · have held : heard.evaluateSample c t = heard.modCoupling c fun z => { z with prior := some (judged y).1, count := (judged y).2 } :=
      (State.evaluateSample_releasing (s := heard) releasing prior).trans (if_neg (Nat.not_lt.2 loaded))
    rw [held]
    exact State.modCoupling_sampled _ _ _ _ _
  · have parts : heard.evaluateSample c t = heard.partWork c :=
      (State.evaluateSample_releasing (s := heard) releasing prior).trans
        ((if_pos low).trans ((if_pos waits).trans (if_pos lost)))
    obtain ⟨ends, noted⟩ := heard.partWork_ends c
    rw [parts]
    exact ends.sampled noted t x
  · have slackened : heard.evaluateSample c t = heard.modCoupling c fun z => { z with prior := some .slack, count := 0 } := by
      refine (State.evaluateSample_releasing (s := heard) releasing prior).trans
        ((if_pos low).trans ((if_pos waits).trans (if_neg ?_)))
      rintro ⟨heardOf, lost⟩
      exact kept.elim heardOf (Nat.not_lt.2 lost)
    rw [slackened]
    exact State.modCoupling_sampled _ _ _ _ _
  · have done : heard.evaluateSample c t = heard.releaseDone c := by
      refine (State.evaluateSample_releasing (s := heard) releasing prior).trans ((if_pos low).trans (if_neg ?_))
      intro (waits : k.phase = some .waitZero)
      obtain e | e := past <;> cases waits.symm.trans e
    obtain ⟨ends, noted⟩ := heard.releaseDone_ends c
    rw [done]
    exact ends.sampled noted t x
  · have made : heard.evaluateSample c t =
        ((heard.endWork c .madeUp).modCoupling c fun k => { k with count := 0 }).formTow :=
      (State.evaluateSample_making (s := heard) making).trans (if_pos loaded)
    have within := (((heard.endWork_ends c .madeUp).within.modCoupling c (g := fun k => { k with count := 0 })
      fun _ _ => rfl).trans (State.formTow_worked _).within).sampled c t x
    rw [made]
    rw [State.workEnded_uncounted_sampled] at within
    exact within
  · have unmoved : heard.evaluateSample c t = heard :=
      (State.evaluateSample_making (s := heard) making).trans (if_neg (Nat.not_le.2 low))
    rw [unmoved]
    rfl

end

