-- ==== Sys2Proof/Proofs/ReleaseSlots.lean ====
section
/-! PROOF. Proofs/ReleaseSlots.lean: the slot of a release under the boat-at-zero condition of its set (R85): released where the
condition holds, HELD again where it becomes FALSE; with it the end of a release by CANCEL and of a PARTED coupling (O33).
A table index gives its bound itself (`'c.isLt`): the default bound tactic would run at each one. -/

-- The whole text is compiled in one process under a memory limit: proofs one after another, and no linters.
set_option Elab.async false
set_option linter.all false

namespace Sys2Proof.Machine

/-! ### A condition that becomes FALSE (R46, R85) -/

/-- The release in progress, in ORDERED, waits on a set's condition, and its slot has not been sent. -/
structure State.Unsent (s : State) (c : Fin 48) (j : Fin 16) (set : BoatSet) : Prop where
  work : s.tow.work = some c
  state : (s.tow.couplings[c]'c.isLt).state = .releasing
  phase : (s.tow.couplings[c]'c.isLt).phase = some .ordered
  set : (s.tow.couplings[c]'c.isLt).entry.bearsOn = set
  slot : s.releaseSlotOf c = some j
  unsent : (s.trans.slots[j]'j.isLt).state = .waiting ∨ (s.trans.slots[j]'j.isLt).state = .queued

/-- The release in progress is back in WAIT_ZERO, its slot HELD and out of its lane. -/
structure State.HeldAgain (s : State) (c : Fin 48) (j : Fin 16) : Prop where
  work : s.tow.work = some c
  phase : (s.tow.couplings[c]'c.isLt).phase = some .waitZero
  held : (s.trans.slots[j]'j.isLt).state = .held
  out : ∀ q : PlantPort, j ∉ s.trans.lane q

theorem State.holdRelease_idle {s : State} {c : Fin 48} (work : s.tow.work = some c) {b : BoatSet}
    (h : (s.tow.couplings[c]'c.isLt).phase = some .ordered → (s.tow.couplings[c]'c.isLt).entry.bearsOn ≠ b) :
    s.holdRelease b = s := by
  unfold State.holdRelease
  rw [work]
  exact if_neg fun ⟨_, phase, set⟩ => h phase set

theorem State.Unsent.holds {s : State} {c : Fin 48} {j : Fin 16} {set : BoatSet} (h : s.Unsent c j set) :
    (s.holdRelease set).HeldAgain c j := by
  have same : s.holdRelease set = (s.holdSlot j).modCoupling c fun x => { x with phase := some .waitZero } := by
    unfold State.holdRelease
    rw [h.work]
    dsimp only
    rw [if_pos ⟨h.state, h.phase, h.set⟩, h.slot]
  have held : s.holdSlot j = (s.modSlot j fun x => { x with state := .held }).leaveLane j := if_pos h.unsent
  rw [same, held]
  refine ⟨h.work, ?_, ?_, fun q at_ => ?_⟩
  · rw [State.modCoupling_coupling, if_pos rfl]
  · change ((s.modSlot j _).trans.slots[j]'j.isLt).state = _
    rw [State.modSlot_slot, if_pos rfl]
  · change j ∈ ((s.modSlot j _).leaveLane j).trans.lane q at at_
    rw [State.leaveLane_lane] at at_
    simpa using (List.mem_filter.1 at_).2

theorem Propulsion.withZero_other (x : Propulsion) {b set : BoatSet} (n : b ≠ set) (z : Bool) :
    (x.withZero b z).zeroOf set = x.zeroOf set := by
  cases b <;> cases set <;> simp [Propulsion.withZero, Propulsion.zeroOf] at n ⊢

theorem Propulsion.withZero_engines (x : Propulsion) (b : BoatSet) (z : Bool) : (x.withZero b z).engines = x.engines := by
  cases b <;> rfl

/-- The review of a condition: nothing but the condition, or the hold that its fall to FALSE brings. -/
theorem State.reviewZeroOf_cases (s : State) (b : BoatSet) :
    (s.reviewZeroOf b = { s with prop := s.prop.withZero b (atZero s.prop.engines b) } ∧
      (atZero s.prop.engines b = s.prop.zeroOf b ∨ atZero s.prop.engines b = true)) ∨
    s.reviewZeroOf b = State.holdRelease { s with prop := s.prop.withZero b (atZero s.prop.engines b) } b := by
  unfold State.reviewZeroOf
  dsimp only
  split
  · next same =>
    refine .inl ⟨?_, .inl same⟩
    rw [same, Propulsion.withZero_self]
  · split
    · next met => exact .inl ⟨rfl, .inr met⟩
    · exact .inr rfl

/-- Any review leaves a release whose phase is not ORDERED, or whose set is another. -/
theorem State.reviewZeroOf_idle {s : State} {c : Fin 48} (work : s.tow.work = some c) {b : BoatSet}
    (h : (s.tow.couplings[c]'c.isLt).phase = some .ordered → (s.tow.couplings[c]'c.isLt).entry.bearsOn ≠ b) :
    s.reviewZeroOf b = { s with prop := s.prop.withZero b (atZero s.prop.engines b) } := by
  obtain ⟨e, -⟩ | e := s.reviewZeroOf_cases b
  · exact e
  · exact e.trans (State.holdRelease_idle (s := { s with prop := s.prop.withZero b (atZero s.prop.engines b) }) work h)

theorem State.Unsent.review_other {s : State} {c : Fin 48} {j : Fin 16} {set : BoatSet} (h : s.Unsent c j set) {b : BoatSet}
    (n : b ≠ set) : (s.reviewZeroOf b).Unsent c j set ∧ (s.reviewZeroOf b).prop.engines = s.prop.engines ∧
      (s.reviewZeroOf b).prop.zeroOf set = s.prop.zeroOf set := by
  rw [State.reviewZeroOf_idle (b := b) h.work fun _ e => n (e.symm.trans h.set)]
  exact ⟨⟨h.work, h.state, h.phase, h.set, h.slot, h.unsent⟩, Propulsion.withZero_engines _ _ _,
    Propulsion.withZero_other _ n _⟩

theorem State.Unsent.review_own {s : State} {c : Fin 48} {j : Fin 16} {set : BoatSet} (h : s.Unsent c j set)
    (met : s.prop.zeroOf set = true) (pulls : atZero s.prop.engines set = false) :
    (s.reviewZeroOf set).HeldAgain c j := by
  obtain ⟨-, same⟩ | e := s.reviewZeroOf_cases set
  · rw [met, pulls] at same
    exact absurd same (by decide)
  · have unsent : State.Unsent { s with prop := s.prop.withZero set (atZero s.prop.engines set) } c j set :=
      ⟨h.work, h.state, h.phase, h.set, h.slot, h.unsent⟩
    rw [e]
    exact unsent.holds

theorem State.HeldAgain.review {s : State} {c : Fin 48} {j : Fin 16} (h : s.HeldAgain c j) (b : BoatSet) :
    (s.reviewZeroOf b).HeldAgain c j := by
  rw [State.reviewZeroOf_idle (b := b) h.work fun e => by rw [h.phase] at e; cases e]
  exact ⟨h.work, h.phase, h.held, h.out⟩

/-- The review of the three conditions, where the one that the release waits on falls to FALSE. -/
theorem State.Unsent.review {s : State} {c : Fin 48} {j : Fin 16} {set : BoatSet} (h : s.Unsent c j set)
    (met : s.prop.zeroOf set = true) (pulls : atZero s.prop.engines set = false) : s.reviewZero.HeldAgain c j := by
  unfold State.reviewZero
  cases set with
  | boat1 => exact ((h.review_own met pulls).review .boat2).review .all
  | boat2 =>
    obtain ⟨first, engines, zero⟩ := h.review_other (b := .boat1) (by decide)
    exact (first.review_own (zero.trans met) (by rw [engines]; exact pulls)).review .all
  | all =>
    obtain ⟨first, engines, zero⟩ := h.review_other (b := .boat1) (by decide)
    obtain ⟨second, engines', zero'⟩ := first.review_other (b := .boat2) (by decide)
    exact second.review_own (zero'.trans (zero.trans met)) (by rw [engines', engines]; exact pulls)

/-- The condition of a set falls by an engine of it that pulls (R46). -/
theorem atZero_pulled {t : Table Engine 6} {x : BoatSet} {i : Fin 6} (on : x.has t[i].entry.boat = true)
    (running : t[i].state = .running) (pulls : t[i].entry.idleBand < t[i].load.natAbs) : atZero t x = false :=
  Bool.eq_false_iff.2 fun zero => absurd ((atZero_iff t x).1 zero i on running).2 (Nat.not_le.2 pulls)

theorem State.reviewZero_zeroOf (s : State) (x : BoatSet) : s.reviewZero.prop.zeroOf x = atZero s.prop.engines x := by
  rw [State.reviewZero_prop]
  cases x <;> rfl

/-! ### A load reported by a running engine (R20, R46) -/

/-- The alarm level that stands for the health an engine has. -/
theorem healthOf_same {x : Health} {lvl : AlarmLevel} (h : match x with
    | .sound => lvl = .noAlarm
    | .alert => lvl = .alert
    | .alarm => lvl = .alarm) : lvl ≠ .trip ∧ healthOf lvl = x := by
  cases x <;> subst h <;> exact ⟨nofun, rfl⟩

/-- A status that leaves state and health of a RUNNING engine brings its load, and a review of the conditions. -/
theorem State.engineReport_load {s : State} {n : Fin 32} {i : Fin 6} (found : s.engineOf n = some i) (l : Half)
    {lvl : AlarmLevel} (running : (s.prop.engines[i]'i.isLt).state = .running) (calm : lvl ≠ .trip)
    (health : healthOf lvl = (s.prop.engines[i]'i.isLt).health) : s.engineReport n .running l lvl =
      (s.modEngine i fun e => { e with load := l.toInt, health := healthOf lvl }).reviewZero := by
  have still : (s.prop.engines[i]'i.isLt).state.reported .running lvl = .running := by
    rw [running]
    unfold EngineState.reported
    dsimp only
    rw [if_neg calm, if_neg (by decide)]
  have informed : s.informed i .running l lvl = s.modEngine i fun e => { e with load := l.toInt, health := healthOf lvl } := by
    unfold State.informed
    exact if_neg fun h => by rw [still] at h; exact absurd h.1 (by decide)
  rw [State.engineReport_some found]
  unfold State.followed
  rw [if_neg (by rw [still, running]; exact fun n => n rfl), if_neg (fun n => n health), informed]

/-- The copies of a frame leave the couplings. -/
theorem State.andPass_tow (s u : State) (p : Port) (f : Frame) : (s.andPass u p f).tow = u.tow := by
  unfold State.andPass
  split
  · unfold State.passOn
    refine foldl_keeps _ (fun v => v.tow = u.tow) (fun v q h => ?_) _ u rfl
    unfold State.copyTo
    split
    · unfold State.forwardCopy
      split
      · next e => rw [State.placeFrame_eq e]; exact h
      · exact (State.latch_noted _ _ _).tow.trans h
    · exact h
  · rfl

/-! ### CANCEL and ACCEPT_PARTED (R91, R95) -/

/-- A CANCEL taken (R91). -/
theorem State.decideCancel_takes {s : State} {c : Fin 48} (releasing : (s.tow.couplings[c]'c.isLt).state = .releasing)
    (waits : (s.tow.couplings[c]'c.isLt).phase = some .waitZero) : ∃ u, s.decideCancel c = (u, .taken) ∧
      s.EndsWork c ((s.tow.couplings[c]'c.isLt).prior.getD .slack) u ∧
      ∀ (x : CouplingState) (k : NoticeKind), (s.tow.couplings[c]'c.isLt).prior = some x → x.notice = some k →
        u.hasNotice k (subjectOf c) := by
  have back : (s.tow.couplings[c]'c.isLt).returnState = (s.tow.couplings[c]'c.isLt).prior.getD .slack := by
    refine Coupling.returnState_prior ?_
    rw [waits]
    exact fun ⟨past, _⟩ => past.elim nofun nofun
  refine ⟨_, if_pos ⟨releasing, waits⟩, ?_, fun x k prior notice => ?_⟩
  · rw [← back]
    exact ((s.endWork_ends c _).noteState c).formTow
  · refine (Steady.hasNotice _ _).formTow _ (State.noteState_hasNotice ?_)
    rw [State.endWork_coupling, if_pos rfl, back, prior]
    exact notice

theorem State.decideCancel_refuses {s : State} {c : Fin 48}
    (h : (s.tow.couplings[c]'c.isLt).state ≠ .releasing ∨ (s.tow.couplings[c]'c.isLt).phase ≠ some .waitZero) :
    s.decideCancel c = (s, .refusedState) :=
  if_neg fun ⟨releasing, waits⟩ => h.elim (fun n => n releasing) fun n => n waits

/-- An ACCEPT_PARTED taken (R95). -/
theorem State.decideAccept_takes {s : State} {c : Fin 48} (parted : (s.tow.couplings[c]'c.isLt).state = .parted) :
    ∃ u, s.decideAccept c = (u, .taken) ∧ Within .tow (s.modCoupling c fun k => { k with state := .released }) u := by
  refine ⟨_, if_pos parted, ?_⟩
  have within := s.moveCoupling_within c .released (s.tow.couplings[c]'c.isLt).count
  rw [State.modCoupling_congr (g := fun k => { k with state := .released }) rfl] at within
  exact within

theorem State.decideAccept_refuses {s : State} {c : Fin 48} (h : (s.tow.couplings[c]'c.isLt).state ≠ .parted) :
    s.decideAccept c = (s, .refusedState) :=
  if_neg h

theorem State.workEnded_prior (s : State) (c : Fin 48) : s.workEnded c ((s.tow.couplings[c]'c.isLt).prior.getD .slack) =
    let r := s.modCoupling c fun k =>
      { k with state := k.prior.getD .slack, phase := none, prior := none, waitAt := none }
    { r with tow := { r.tow with work := none } } := by
  have same : (s.modCoupling c fun k =>
      { k with state := (s.tow.couplings[c]'c.isLt).prior.getD .slack, phase := none, prior := none, waitAt := none }) =
      s.modCoupling c fun k => { k with state := k.prior.getD .slack, phase := none, prior := none, waitAt := none } :=
    State.modCoupling_congr rfl
  exact congrArg (fun u : State => { u with tow := { u.tow with work := none } }) same

end Sys2Proof.Machine

open Sys2Proof Sys2Proof.Machine

/-- Settles O33: a ready release has its slot released; a condition that falls by a reported load holds it again; a CANCEL
ends the work, and an ACCEPT_PARTED moves the coupling. -/
theorem slotReleaseCancelAndAccept : Obligations.SlotReleaseCancelAndAccept := by
  refine ⟨fun s c => ⟨fun i releasing waits zero found held => ?_, fun unmet => ?_⟩, ?_, ?_, ?_⟩
  · have released := State.orderRelease_ready found (State.releaseReady_iff.2 ⟨releasing, waits, zero, by rw [found]; rfl⟩)
    refine ⟨_, congrArg Host.Outcome.next released, fun idle => ?_, fun behind => ?_⟩
    · have queued : s.releaseSlot i = s.queueSlot i := by
        unfold State.releaseSlot
        rw [if_pos held, idle]
        exact if_neg Bool.false_ne_true
      rw [queued]
      exact ⟨rfl, State.queueSlot_joins rfl⟩
    · unfold State.releaseSlot
      rw [if_pos held, if_pos behind]
  · have waits : s.releaseReady c = false := Bool.eq_false_iff.2 fun ready => by
      obtain ⟨-, -, met, -⟩ := State.releaseReady_iff.1 ready
      rw [unmet] at met
      cases met
    exact congrArg Host.Outcome.next (State.orderRelease_waits waits)
  · intro s p h load lvl n i c j delivers found e set running health pulls on work releasing ordered met slot unsent
    obtain ⟨calm, level⟩ := healthOf_same health
    have report := State.engineReport_load (s := s.heardFrom p n) found load running calm level
    let told := (s.heardFrom p n).modEngine i fun e => { e with load := load.toInt, health := healthOf lvl }
    have engine : (told.prop.engines[i]'i.isLt) = { e with load := load.toInt, health := healthOf lvl } := by
      rw [State.modEngine_engine, if_pos rfl]
      rfl
    have fallen : atZero told.prop.engines set = false := by
      refine atZero_pulled (i := i) ?_ ?_ ?_ <;> rw [engine]
      · exact (BoatSet.has_iff_on (s.tow.couplings[c]'c.isLt) _).2 on
      · exact running
      · exact pulls
    have again : told.reviewZero.HeldAgain c j :=
      State.Unsent.review (s := told) ⟨work, releasing, ordered, rfl, slot, unsent⟩ met fallen
    have zero : told.reviewZero.prop.zeroOf set = false := (told.reviewZero_zeroOf set).trans fallen
    refine ⟨_, congrArg Host.Outcome.next delivers.passage, ?_⟩
    rw [show (s.heardFrom p n).jobReads .propulsion n (.engineStatus .running load lvl) = told.reviewZero from report]
    obtain ⟨trans, prop⟩ := s.andPass_same told.reviewZero p ((Content.engineStatus .running load lvl).frame h)
    rw [trans, prop, State.andPass_tow]
    exact ⟨zero, again.phase, again.held, again.out⟩
  · intro s o index c admits i k ended refused
    refine ⟨fun releasing waits => ?_, fun parted => ?_, fun other => ?_, fun other => ?_⟩
    · obtain ⟨u, taken, ⟨within, gaveUp⟩, notes⟩ := State.decideCancel_takes (s := s.frameEnd .W) releasing waits
      have run := admits.couples i (by rw [releasing]; exact nofun) State.decideCancel
      rw [taken] at run
      rw [State.workEnded_prior] at within
      exact ⟨_, congrArg Host.Outcome.next run, within.answered o 4 .taken s.link.own rfl, fun e => notes _ _ e rfl,
        fun e => notes _ _ e rfl, fun e => notes _ _ e rfl, gaveUp⟩
    · obtain ⟨u, taken, within⟩ := State.decideAccept_takes (s := s.frameEnd .W) parted
      have run := admits.couples i (by rw [parted]; exact nofun) State.decideAccept
      rw [taken] at run
      exact ⟨_, congrArg Host.Outcome.next run, within.answered o 4 .taken s.link.own rfl⟩
    · exact congrArg Host.Outcome.next (admits.couple_state i (State.decideCancel_refuses (s := s.frameEnd .W) other))
    · exact congrArg Host.Outcome.next (admits.couple_state i (State.decideAccept_refuses (s := s.frameEnd .W) other))
  · intro s o index admits above
    exact ⟨congrArg Host.Outcome.next (admits.couple_range above _), congrArg Host.Outcome.next (admits.couple_range above _)⟩

end

