-- ==== Sys2Proof/Proofs/CouplingTankWrites.lean ====
section
/-! PROOF. Proofs/CouplingTankWrites.lean: the table writes of coupling entries (R69, R70) and tank entries (R109, R110): what
an entry in range is, the decision in its order, and what a taken write leaves.
A table index gives its bound itself (`'c.isLt`): the default bound tactic would run at each one. -/

-- The whole text is compiled in one process under a memory limit: proofs one after another, and no linters.
set_option Elab.async false
set_option linter.all false

namespace Sys2Proof.Machine

/-! ### COUPLING (R69, R70) -/

theorem CouplingRaw.entry?_isSome (r : CouplingRaw) : (CouplingRaw.entry? r).isSome = true ↔
    r.kind.toNat ≤ 1 ∧ r.bearsOn.toNat ≤ 2 ∧ (r.kind = 1 → r.bearsOn = 2) ∧ isIndex 32 r.sensor ∧ r.channel.toNat ≤ 3 ∧
      isIndex 32 r.winch ∧ 1 ≤ r.debounce.toNat ∧ r.debounce.toNat ≤ 8 := by
  rw [← readIndex_isSome, ← readIndex_isSome]
  unfold CouplingRaw.entry?
  cases readIndex 32 r.sensor with
  | none => simp
  | some sensor =>
    cases readIndex 32 r.winch with
    | none => simp
    | some winch =>
      dsimp only
      split
      · next h =>
        obtain ⟨kind, bears, barge, channel, low, high⟩ := h
        exact iff_of_true rfl ⟨kind, bears, barge, rfl, channel, rfl, low, high⟩
      · next h =>
        refine iff_of_false Bool.false_ne_true ?_
        rintro ⟨kind, bears, barge, _, channel, _, low, high⟩
        exact h ⟨kind, bears, barge, channel, low, high⟩

/-- Another coupling has the sensor and channel of an entry, or its winch (R69 check 4). -/
def State.CouplingClash (s : State) (c : Fin 48) (e : CouplingEntry) : Prop :=
  ∃ d : Fin 48, d ≠ c ∧
    ((e.sensor.isSome = true ∧ (s.tow.couplings[d]'d.isLt).entry.sensor = e.sensor ∧
        (s.tow.couplings[d]'d.isLt).entry.channel = e.channel) ∨
      (e.winch.isSome = true ∧ (s.tow.couplings[d]'d.isLt).entry.winch = e.winch))

theorem State.couplingClash_iff (s : State) (c : Fin 48) (e : CouplingEntry) :
    s.couplingClash c e = true ↔ s.CouplingClash c e := by
  unfold State.couplingClash State.CouplingClash
  rw [othersMeet_iff]
  simp only [Bool.or_eq_true, Bool.and_eq_true, decide_eq_true_eq, and_assoc]

section
variable {s : State} {index : Byte} {r : CouplingRaw} {c : Fin 48} {e : CouplingEntry}

theorem State.writeCoupling_beyond (h : 48 ≤ index.toNat) : s.writeCoupling index r = (s, .range) := by
  unfold State.writeCoupling
  rw [indexOf_none h]

theorem State.writeCoupling_closed (f : index.toNat = c.val)
    (structural : CouplingRaw.changesStructure r (s.tow.couplings[c]'c.isLt).entry = true) (m : s.helm.mode ≠ 0) :
    s.writeCoupling index r = (s, .closed) := by
  unfold State.writeCoupling
  rw [indexOf_some f]
  exact if_pos ⟨structural, State.moored_not m⟩

variable (f : index.toNat = c.val)
  (o : CouplingRaw.changesStructure r (s.tow.couplings[c]'c.isLt).entry = false ∨ s.helm.mode = 0)
include f o

/-- A write that the mode does not stand against. -/
theorem State.writeCoupling_open : s.writeCoupling index r = match CouplingRaw.entry? r with
    | some e =>
      if s.couplingClash c e then (s, .range)
      else if (s.tow.couplings[c]'c.isLt).state = .releasing ∨ (s.tow.couplings[c]'c.isLt).state = .makingUp then (s, .state)
      else (s.takeCoupling c e (CouplingRaw.changesStructure r (s.tow.couplings[c]'c.isLt).entry), .done)
    | none => (s, .range) := by
  unfold State.writeCoupling
  rw [indexOf_some f]
  refine if_neg ?_
  rintro ⟨x, y⟩
  exact o.elim (fun q => by rw [q] at x; cases x) fun q => y (State.moored_of q)

theorem State.writeCoupling_range (h : CouplingRaw.entry? r = none) : s.writeCoupling index r = (s, .range) := by
  rw [State.writeCoupling_open f o, h]

theorem State.writeCoupling_clash (h : CouplingRaw.entry? r = some e) (clash : s.CouplingClash c e) :
    s.writeCoupling index r = (s, .range) := by
  rw [State.writeCoupling_open f o, h]
  exact if_pos ((s.couplingClash_iff c e).2 clash)

theorem State.writeCoupling_working (h : CouplingRaw.entry? r = some e) (own : ¬ s.CouplingClash c e)
    (working : (s.tow.couplings[c]'c.isLt).state = .releasing ∨ (s.tow.couplings[c]'c.isLt).state = .makingUp) :
    s.writeCoupling index r = (s, .state) := by
  rw [State.writeCoupling_open f o, h]
  exact (if_neg (mt (s.couplingClash_iff c e).1 own)).trans (if_pos working)

theorem State.writeCoupling_taken (h : CouplingRaw.entry? r = some e) (own : ¬ s.CouplingClash c e)
    (idle : ¬ ((s.tow.couplings[c]'c.isLt).state = .releasing ∨ (s.tow.couplings[c]'c.isLt).state = .makingUp)) :
    s.writeCoupling index r =
      (s.takeCoupling c e (CouplingRaw.changesStructure r (s.tow.couplings[c]'c.isLt).entry), .done) := by
  rw [State.writeCoupling_open f o, h]
  exact (if_neg (mt (s.couplingClash_iff c e).1 own)).trans (if_neg idle)

end

/-- What a structure write leaves of a coupling: it starts again, and the tow ceilings are formed (R70, R79). -/
theorem State.takeCoupling_started (s : State) (c : Fin 48) (e : CouplingEntry) :
    Within .tow (s.modCoupling c fun _ => e.started) (s.takeCoupling c e true) ∧ (s.takeCoupling c e true).CeilingsFormed ∧
      (s.TargetsFormed → (s.takeCoupling c e true).TargetsFormed) :=
  ⟨(State.formTow_worked _).within, State.formTow_ceilings _,
    (s.takeCoupling_coordinated c e true).targets⟩

/-! ### TANK (R109, R110, R112) -/

theorem TankRaw.entry?_isSome (r : TankRaw) : (TankRaw.entry? r).isSome = true ↔
    r.capacity.toNat ≤ 2000000000 ∧ r.role.toNat ≤ 1 ∧ isIndex 32 r.gauge ∧ r.channel.toNat ≤ 3 ∧
      r.lowMark.toNat ≤ 2000000000 ∧ r.lowCeiling.toNat ≤ 1000 ∧ r.tolerance.toNat ≤ 2000000000 := by
  rw [← readIndex_isSome]
  unfold TankRaw.entry?
  cases readIndex 32 r.gauge with
  | none => simp
  | some gauge =>
    dsimp only
    split
    · next h =>
      obtain ⟨capacity, mark, tolerance, role, channel, ceiling⟩ := h
      exact iff_of_true rfl ⟨capacity, role, rfl, channel, mark, ceiling, tolerance⟩
    · next h =>
      refine iff_of_false Bool.false_ne_true ?_
      rintro ⟨capacity, role, _, channel, mark, ceiling, tolerance⟩
      exact h ⟨capacity, mark, tolerance, role, channel, ceiling⟩

/-- Another tank has the gauge and channel of an entry (R109 check 4). -/
def State.GaugeClash (s : State) (i : Fin 8) (e : TankEntry) : Prop :=
  e.gauge.isSome = true ∧ ∃ j : Fin 8, j ≠ i ∧
    (s.fuel.tanks[j]'j.isLt).entry.gauge = e.gauge ∧ (s.fuel.tanks[j]'j.isLt).entry.channel = e.channel

section
variable {s : State} {index : Byte} {r : TankRaw} {i : Fin 8} {e : TankEntry}

theorem TankEntry.clash_iff : (e.gauge.isSome = true ∧ othersMeet s.fuel.tanks i (fun x =>
    decide (x.entry.gauge = e.gauge) && decide (x.entry.channel = e.channel)) = true) ↔ s.GaugeClash i e := by
  unfold State.GaugeClash
  rw [othersMeet_iff]
  simp only [Bool.and_eq_true, decide_eq_true_eq]

theorem State.writeTank_beyond (h : 8 ≤ index.toNat) : s.writeTank index r = (s, .range) := by
  unfold State.writeTank
  rw [indexOf_none h]

theorem State.writeTank_closed (f : index.toNat = i.val)
    (structural : TankRaw.changesStructure r (s.fuel.tanks[i]'i.isLt).entry = true) (m : s.helm.mode ≠ 0) :
    s.writeTank index r = (s, .closed) := by
  unfold State.writeTank
  rw [indexOf_some f]
  exact if_pos ⟨structural, State.moored_not m⟩

variable (f : index.toNat = i.val) (o : TankRaw.changesStructure r (s.fuel.tanks[i]'i.isLt).entry = false ∨ s.helm.mode = 0)
include f o

/-- A write that the mode does not stand against. -/
theorem State.writeTank_open : s.writeTank index r = match TankRaw.entry? r with
    | some e =>
      if e.gauge.isSome ∧ othersMeet s.fuel.tanks i fun x =>
          decide (x.entry.gauge = e.gauge) && decide (x.entry.channel = e.channel) then (s, .range)
      else if e.capacity < (s.fuel.tanks[i]'i.isLt).quantity then (s, .state)
      else (s.takeTank i e, .done)
    | none => (s, .range) := by
  unfold State.writeTank
  rw [indexOf_some f]
  refine if_neg ?_
  rintro ⟨x, y⟩
  exact o.elim (fun q => by rw [q] at x; cases x) fun q => y (State.moored_of q)

theorem State.writeTank_range (h : TankRaw.entry? r = none) : s.writeTank index r = (s, .range) := by
  rw [State.writeTank_open f o, h]

theorem State.writeTank_clash (h : TankRaw.entry? r = some e) (clash : s.GaugeClash i e) :
    s.writeTank index r = (s, .range) := by
  rw [State.writeTank_open f o, h]
  exact if_pos (TankEntry.clash_iff.2 clash)

theorem State.writeTank_full (h : TankRaw.entry? r = some e) (own : ¬ s.GaugeClash i e)
    (full : e.capacity < (s.fuel.tanks[i]'i.isLt).quantity) : s.writeTank index r = (s, .state) := by
  rw [State.writeTank_open f o, h]
  exact (if_neg (mt TankEntry.clash_iff.1 own)).trans (if_pos full)

theorem State.writeTank_taken (h : TankRaw.entry? r = some e) (own : ¬ s.GaugeClash i e)
    (fits : (s.fuel.tanks[i]'i.isLt).quantity ≤ e.capacity) : s.writeTank index r = (s.takeTank i e, .done) := by
  rw [State.writeTank_open f o, h]
  exact (if_neg (mt TankEntry.clash_iff.1 own)).trans (if_neg (Nat.not_lt.2 fits))

end

theorem State.modTank_congr {s : State} {i : Fin 8} {f g : Tank → Tank}
    (h : f (s.fuel.tanks[i]'i.isLt) = g (s.fuel.tanks[i]'i.isLt)) :
    s.modTank i f = s.modTank i g := by
  unfold State.modTank modTable
  rw [show f (s.fuel.tanks[i]'i.isLt) = g (s.fuel.tanks[i]'i.isLt) from h]

theorem State.modTank_self {s : State} {i : Fin 8} {f : Tank → Tank}
    (h : f (s.fuel.tanks[i]'i.isLt) = s.fuel.tanks[i]'i.isLt) :
    s.modTank i f = s := by
  unfold State.modTank modTable
  rw [show f (s.fuel.tanks[i]'i.isLt) = (s.fuel.tanks[i]'i.isLt) from h]
  simp

theorem State.modTank_modTank (s : State) (i : Fin 8) (f g : Tank → Tank) :
    (s.modTank i f).modTank i g = s.modTank i fun k => g (f k) := by
  unfold State.modTank modTable
  simp

theorem State.modTank_tank (s : State) (i : Fin 8) (f : Tank → Tank) :
    ((s.modTank i f).fuel.tanks[i]'i.isLt) = f (s.fuel.tanks[i]'i.isLt) :=
  modTable_get_same s.fuel.tanks i f

/-- A test of the LOW flag sets the flag, and no more than a notice and a recompute follow (R112). -/
theorem State.testLow_within (s : State) (i : Fin 8) :
    Within .propulsion (s.modTank i fun k => { k with low := k.isLow }) (s.testLow i) := by
  by_cases same : (s.fuel.tanks[i]'i.isLt).isLow = (s.fuel.tanks[i]'i.isLt).low
  · rw [State.testLow_idle same, State.modTank_self (f := fun k => { k with low := k.isLow })]
    · exact Within.refl _ _
    · rw [same]
  · have flagged : s.modTank i (fun k => { k with low := k.isLow }) =
        s.modTank i fun k => { k with low := (s.fuel.tanks[i]'i.isLt).isLow } := State.modTank_congr rfl
    rw [flagged]
    unfold State.testLow
    dsimp only
    rw [if_neg same]
    split
    · exact (State.latch_worked .propulsion _ _ _).within.trans (State.recompute_within _)
    · exact State.recompute_within _

theorem State.testLow_notes {s : State} {i : Fin 8} (low : (s.fuel.tanks[i]'i.isLt).isLow = true)
    (fresh : (s.fuel.tanks[i]'i.isLt).low = false) :
    (s.testLow i).hasNotice .tankLow (subjectOf i) := by
  unfold State.testLow
  dsimp only
  rw [low, fresh, if_neg (by decide), if_pos rfl]
  exact (Steady.hasNotice _ _).recompute _ (State.latch_hasNotice _ _ _)

/-- A tank as a taken write stores it, its LOW flag tested (R110, R112). -/
def TankEntry.stored (e : TankEntry) (k : Tank) : Tank :=
  { e.written k with low := (e.written k).isLow }

theorem TankEntry.stored_eq (e : TankEntry) (k : Tank) : e.stored k =
    let same : Bool := decide (e.gauge = k.entry.gauge) && decide (e.channel = k.entry.channel)
    { k with
      entry := e, low := decide (0 < e.capacity) && decide (k.quantity < e.lowMark)
      reading := if same then k.reading else none
      discrepant := if same then k.discrepant else false } := by
  unfold TankEntry.stored TankEntry.written Tank.isLow
  by_cases same : e.gauge = k.entry.gauge ∧ e.channel = k.entry.channel
  · simp [same]
  · have other : (decide (e.gauge = k.entry.gauge) && decide (e.channel = k.entry.channel)) = false := by
      simpa using same
    rw [if_neg same]
    dsimp only
    rw [other]
    rfl

/-- The end of a taken tank write: another low ceiling of a tank that stays LOW is handed on too (R110). -/
theorem State.takeTank_cases (s : State) (i : Fin 8) (e : TankEntry) :
    s.takeTank i e = (s.modTank i e.written).testLow i ∨ s.takeTank i e = ((s.modTank i e.written).testLow i).recompute := by
  unfold State.takeTank
  dsimp only
  split
  · exact .inr rfl
  · exact .inl rfl

theorem State.takeTank_within (s : State) (i : Fin 8) (e : TankEntry) :
    Within .propulsion (s.modTank i e.stored) (s.takeTank i e) := by
  have tested := (s.modTank i e.written).testLow_within i
  rw [State.modTank_modTank] at tested
  obtain h | h := s.takeTank_cases i e <;> rw [h]
  · exact tested
  · exact tested.trans (State.recompute_within _)

theorem State.takeTank_notes {s : State} {i : Fin 8} {e : TankEntry} (low : (e.stored (s.fuel.tanks[i]'i.isLt)).low = true)
    (fresh : (s.fuel.tanks[i]'i.isLt).low = false) : (s.takeTank i e).hasNotice .tankLow (subjectOf i) := by
  have noted : ((s.modTank i e.written).testLow i).hasNotice .tankLow (subjectOf i) := by
    refine State.testLow_notes ?_ ?_ <;> rw [State.modTank_tank]
    · exact low
    · rw [(e.written_low _).1]
      exact fresh
  obtain h | h := s.takeTank_cases i e <;> rw [h]
  · exact noted
  · exact (Steady.hasNotice _ _).recompute _ noted

end Sys2Proof.Machine

end

