-- ==== Sys2Proof/Proofs/RosterWrites.lean ====
section
/-! PROOF. Proofs/RosterWrites.lean: the table write of a roster entry (R127, R128, R134): its checks in their order, a node
that starts again and one that keeps its state, and with the writes of couplings and tanks O57.
A table index gives its bound itself (`'c.isLt`): the default bound tactic would run at each one. -/

-- The whole text is compiled in one process under a memory limit: proofs one after another, and no linters.
set_option Elab.async false
set_option linter.all false

namespace Sys2Proof.Machine

/-! ### The checks of R127 -/

theorem RosterRaw.inRange_iff (r : RosterRaw) : RosterRaw.inRange r = true ↔ r.port.toNat ≤ 1 ∧ r.address.toNat ≤ 127 ∧
    r.kind.toNat ≤ 6 ∧ 1 ≤ r.ackTimeout.toNat ∧ 1 ≤ r.silence.toNat := by
  unfold RosterRaw.inRange coded
  simp only [Bool.and_eq_true, decide_eq_true_eq, and_assoc, Nat.lt_succ_iff]

theorem NodeEntry.differs_iff (a b : NodeEntry) :
    a.differs b = true ↔ a.port ≠ b.port ∨ a.address ≠ b.address ∨ a.kind ≠ b.kind := by
  unfold NodeEntry.differs
  simp only [Bool.or_eq_true, decide_eq_true_eq, or_assoc]

theorem State.isTarget_iff (s : State) (n : Fin 32) :
    s.isTarget n = true ↔ ∃ i : Fin 16, (s.trans.slots[i]'i.isLt).target = n ∧ (s.trans.slots[i]'i.isLt).state ≠ .free := by
  unfold State.isTarget
  rw [toList_eq_finRange, List.any_map, List.any_eq_true]
  simp only [List.mem_finRange, true_and, Function.comp_apply, Bool.and_eq_true, decide_eq_true_eq]
  exact exists_congr fun i => and_comm

/-- Another node has the port and address of an entry (R127 check 4). -/
def State.AddressClash (s : State) (n : Fin 32) (e : NodeEntry) : Prop :=
  e.address.isSome = true ∧ ∃ m : Fin 32, m ≠ n ∧
    (s.nodes[m]'m.isLt).entry.port = e.port ∧ (s.nodes[m]'m.isLt).entry.address = e.address

section
variable {s : State} {index : Byte} {r : RosterRaw} {n : Fin 32}

theorem NodeEntry.clash_iff {e : NodeEntry} : (e.address.isSome = true ∧ othersMeet s.nodes n (fun x =>
    decide (x.entry.port = e.port) && decide (x.entry.address = e.address)) = true) ↔ s.AddressClash n e := by
  unfold State.AddressClash
  rw [othersMeet_iff]
  simp only [Bool.and_eq_true, decide_eq_true_eq]

theorem State.writeRoster_closed (m : s.helm.mode ≠ 0) : s.writeRoster index r = (s, .closed) :=
  if_pos (State.moored_not m)

theorem State.writeRoster_beyond (m : s.helm.mode = 0) (h : 32 ≤ index.toNat) : s.writeRoster index r = (s, .range) := by
  unfold State.writeRoster
  rw [if_neg (not_not.2 (State.moored_of m)), indexOf_none h]

variable (m : s.helm.mode = 0) (f : index.toNat = n.val)
include m f

theorem State.writeRoster_open : s.writeRoster index r =
    if ¬ RosterRaw.inRange r then (s, .range)
    else if (RosterRaw.entry r).address.isSome ∧ othersMeet s.nodes n fun x =>
        decide (x.entry.port = (RosterRaw.entry r).port) && decide (x.entry.address = (RosterRaw.entry r).address) then
      (s, .range)
    else if (RosterRaw.entry r).differs (s.nodes[n]'n.isLt).entry ∧ s.isTarget n then (s, .state)
    else (s.takeRoster n (RosterRaw.entry r), .done) := by
  unfold State.writeRoster
  rw [if_neg (not_not.2 (State.moored_of m)), indexOf_some f]

theorem State.writeRoster_range (h : RosterRaw.inRange r = false) : s.writeRoster index r = (s, .range) := by
  rw [State.writeRoster_open m f]
  exact if_pos (by rw [h]; exact Bool.false_ne_true)

variable (h : RosterRaw.inRange r = true)
include h

theorem State.writeRoster_clash (clash : s.AddressClash n (RosterRaw.entry r)) : s.writeRoster index r = (s, .range) := by
  rw [State.writeRoster_open m f, if_neg (not_not.2 h)]
  exact if_pos (NodeEntry.clash_iff.2 clash)

variable (own : ¬ s.AddressClash n (RosterRaw.entry r))
include own

theorem State.writeRoster_target (moved : (RosterRaw.entry r).differs (s.nodes[n]'n.isLt).entry = true)
    (target : s.isTarget n = true) :
    s.writeRoster index r = (s, .state) := by
  rw [State.writeRoster_open m f, if_neg (not_not.2 h), if_neg (mt NodeEntry.clash_iff.1 own)]
  exact if_pos ⟨moved, target⟩

theorem State.writeRoster_taken (free : ¬ ((RosterRaw.entry r).differs (s.nodes[n]'n.isLt).entry = true ∧ s.isTarget n = true)) :
    s.writeRoster index r = (s.takeRoster n (RosterRaw.entry r), .done) := by
  rw [State.writeRoster_open m f, if_neg (not_not.2 h), if_neg (mt NodeEntry.clash_iff.1 own)]
  exact if_neg free

end

/-! ### A taken write (R128) -/

section
variable {s : State} {n : Fin 32} {e : NodeEntry}

theorem State.takeRoster_times (same : ¬ e.differs (s.nodes[n]'n.isLt).entry = true) :
    s.takeRoster n e = s.modNode n (s.retimed e) :=
  if_neg same

theorem NodeEntry.started_state (e : NodeEntry) (s : State) (n : Fin 32) :
    ((s.modNode n e.started).nodes[n]'n.isLt).state = if e.address = none then .unused else .expected := by
  rw [State.modNode_node, if_pos rfl]
  rfl

theorem State.takeRoster_still (moved : e.differs (s.nodes[n]'n.isLt).entry = true)
    (state : (s.nodes[n]'n.isLt).state = if e.address = none then .unused else .expected) :
    s.takeRoster n e = s.modNode n e.started :=
  (if_pos moved).trans (if_pos ((e.started_state s n).trans state.symm))

theorem State.takeRoster_hands (moved : e.differs (s.nodes[n]'n.isLt).entry = true)
    (state : (s.nodes[n]'n.isLt).state ≠ if e.address = none then .unused else .expected) :
    s.takeRoster n e = (s.modNode n e.started).handOver n :=
  (if_pos moved).trans (if_neg fun same => state (same.symm.trans (e.started_state s n)))

theorem State.retimed_eq (s : State) (e : NodeEntry) (x : Node) : s.retimed e x =
    { x with
      entry := e
      refreshAt :=
        if e.refresh = 0 then none
        else if x.refreshAt = none ∧ (x.state = .enrolled ∨ x.state = .silent) then some (s.now + 100000 * e.refresh)
        else x.refreshAt } := by
  have period : s.after (ms (e.refresh * 100)) = some (s.now + 100000 * e.refresh) := by
    unfold State.after ms
    congr 1
    omega
  unfold State.retimed
  rw [period]
  simp only [Option.isNone_iff_eq_none]

/-- A node that starts again is neither ENROLLED nor FAILED. -/
theorem NodeEntry.started_gone (e : NodeEntry) (s : State) (n : Fin 32) :
    ((s.modNode n e.started).nodes[n]'n.isLt).state ≠ .enrolled ∧ ((s.modNode n e.started).nodes[n]'n.isLt).state ≠ .failed := by
  rw [e.started_state]
  split <;> exact ⟨nofun, nofun⟩

end

/-! ### What is handed on (R134) -/

section
variable {s : State} {n : Fin 32} (gone : (s.nodes[n]'n.isLt).state ≠ .enrolled)
include gone

/-- The actuator of a node that is neither ENROLLED nor FAILED (R60). -/
theorem State.handOver_actuator_lost (sound : (s.nodes[n]'n.isLt).state ≠ .failed) {i : Fin 5} (found : s.actuatorOf n = some i)
    (present : (s.steer.actuators[i]'i.isLt).state ≠ .absent) : ((s.handOver n).steer.actuators[i]'i.isLt).state = .lost :=
  (State.handOver_actuator gone found present).1.trans (if_neg sound)

/-- A coupling out of work whose sensor is gone (R76). -/
theorem State.handOver_coupling_silent {c : Fin 48} (sensor : (s.tow.couplings[c]'c.isLt).entry.sensor = some n)
    (heard : (s.tow.couplings[c]'c.isLt).state = .slack ∨ (s.tow.couplings[c]'c.isLt).state = .madeUp ∨
      (s.tow.couplings[c]'c.isLt).state = .alert ∨
      (s.tow.couplings[c]'c.isLt).state = .overload) : ((s.handOver n).tow.couplings[c]'c.isLt).state = .silent := by
  have stands := (State.handOver_coupling gone (Coupling.Stands.refl (s.tow.couplings[c]'c.isLt)) sensor).1
  rw [stands.state]
  unfold Coupling.unheard
  rw [if_pos heard]

end

end Sys2Proof.Machine

open Sys2Proof Sys2Proof.Machine

/-- Settles O57: the decisions of the three writes in their order, and what each taken one leaves. -/
theorem couplingTankAndRosterWrites : Obligations.CouplingTankAndRosterWrites := by
  intro s o index room b reply refused
  refine ⟨fun slot r f => ?_, fun i r f => ?_, fun n r m f => ?_, fun h r => ?_, fun h r => ?_, fun m h r => ?_, fun m r => ?_⟩
  · intro k structural clash working
    have changes : CouplingRaw.changesStructure r (b.tow.couplings[slot]'slot.isLt).entry = true ↔ structural :=
      decide_eq_true_iff
    refine ⟨CouplingRaw.entry?_isSome r, fun t m => ?_, fun open_ => ?_⟩
    · exact State.tableWrite_placed room o 8 index (State.writeCoupling_closed (s := b) f (changes.2 t) m) rfl rfl
    have may : CouplingRaw.changesStructure r (b.tow.couplings[slot]'slot.isLt).entry = false ∨ b.helm.mode = 0 :=
      open_.imp (fun n => Bool.eq_false_iff.2 (mt changes.1 n)) id
    refine ⟨fun bad => ?_, fun e read => ⟨fun c => ?_, fun c w => ?_, fun c w t => ?_, fun c w t => ?_⟩⟩
    · exact State.tableWrite_placed room o 8 index (State.writeCoupling_range f may bad) rfl rfl
    · exact State.tableWrite_placed room o 8 index (State.writeCoupling_clash f may read c) rfl rfl
    · exact State.tableWrite_placed room o 8 index (State.writeCoupling_working f may read c w) rfl rfl
    · have decided := State.writeCoupling_taken (s := b) f may read c w
      rw [changes.2 t] at decided
      have run : exec (.tableWriteCoupling o index r) s = .next ((b.takeCoupling slot e true).reply o 3 .done [8, index]) :=
        congrArg Host.Outcome.next ((State.tableWrite_eq room o 8 index _).trans (by rw [decided]))
      obtain ⟨within, ceilings, targets⟩ := b.takeCoupling_started slot e
      generalize b.takeCoupling slot e true = u at run within ceilings targets
      exact ⟨_, run, within.replied o 3 .done [8, index] s.link.own rfl, ceilings.ofSame rfl rfl,
        fun h => (targets (h.ofSame rfl rfl rfl rfl rfl)).ofSame rfl rfl rfl rfl rfl⟩
    · have decided := State.writeCoupling_taken (s := b) f may read c w
      rw [Bool.eq_false_iff.2 (mt changes.1 t)] at decided
      exact State.tableWrite_placed room o 8 index decided rfl rfl
  · intro k structural clash
    have changes : TankRaw.changesStructure r (b.fuel.tanks[i]'i.isLt).entry = true ↔ structural := decide_eq_true_iff
    refine ⟨TankRaw.entry?_isSome r, fun t m => ?_, fun open_ => ?_⟩
    · exact State.tableWrite_placed room o 9 index (State.writeTank_closed (s := b) f (changes.2 t) m) rfl rfl
    have may : TankRaw.changesStructure r (b.fuel.tanks[i]'i.isLt).entry = false ∨ b.helm.mode = 0 :=
      open_.imp (fun n => Bool.eq_false_iff.2 (mt changes.1 n)) id
    refine ⟨fun bad => ?_, fun e read => ⟨fun c => ?_, fun c w => ?_, fun c w => ?_⟩⟩
    · exact State.tableWrite_placed room o 9 index (State.writeTank_range f may bad) rfl rfl
    · exact State.tableWrite_placed room o 9 index (State.writeTank_clash f may read c) rfl rfl
    · exact State.tableWrite_placed room o 9 index (State.writeTank_full f may read c w) rfl rfl
    · intro same low
      have decided := State.writeTank_taken (s := b) f may read c w
      have run : exec (.tableWriteTank o index r) s = .next ((b.takeTank i e).reply o 3 .done [9, index]) :=
        congrArg Host.Outcome.next ((State.tableWrite_eq room o 9 index _).trans (by rw [decided]))
      have stored : e.stored k = { k with
          entry := e, low := low
          reading := if same then k.reading else none
          discrepant := if same then k.discrepant else false } := e.stored_eq k
      have within := b.takeTank_within i e
      rw [State.modTank_congr (s := b) (i := i) (f := e.stored) (g := fun k => { k with
          entry := e, low := low
          reading := if same then k.reading else none
          discrepant := if same then k.discrepant else false }) stored] at within
      have notes : low = true → k.low = false → (b.takeTank i e).hasNotice .tankLow (subjectOf i) := fun is fresh =>
        State.takeTank_notes ((congrArg Tank.low stored).trans is) fresh
      have targets := (b.takeTank_coordinated i e).targets
      generalize b.takeTank i e = u at run within notes targets
      exact ⟨_, run, within.replied o 3 .done [9, index] s.link.own rfl, notes,
        fun h => (targets (h.ofSame rfl rfl rfl rfl rfl)).ofSame rfl rfl rfl rfl rfl⟩
  · intro e x moved clash target state base
    have moves : e.differs (b.nodes[n]'n.isLt).entry = true ↔ moved := e.differs_iff _
    have ordered : b.isTarget n = true ↔ target := b.isTarget_iff n
    refine ⟨RosterRaw.inRange_iff r, fun bad => ?_, fun h c => ?_, fun h c => ⟨fun t g => ?_, fun t g same => ?_,
      fun t g other => ?_, fun t => ?_⟩⟩
    · exact State.tableWrite_placed room o 2 index (State.writeRoster_range (s := b) m f bad) rfl rfl
    · exact State.tableWrite_placed room o 2 index (State.writeRoster_clash (s := b) m f h c) rfl rfl
    · exact State.tableWrite_placed room o 2 index
        (State.writeRoster_target (s := b) m f h c (moves.2 t) (ordered.2 g)) rfl rfl
    · have decided := State.writeRoster_taken (s := b) m f h c fun q => g (ordered.1 q.2)
      rw [State.takeRoster_still (moves.2 t) same] at decided
      exact State.tableWrite_placed room o 2 index decided rfl rfl
    · have decided := State.writeRoster_taken (s := b) m f h c fun q => g (ordered.1 q.2)
      rw [State.takeRoster_hands (moves.2 t) other, show b.modNode n e.started = base from rfl] at decided
      have run : exec (.tableWriteRoster o index r) s = .next ((base.handOver n).reply o 3 .done [2, index]) :=
        congrArg Host.Outcome.next ((State.tableWrite_eq room o 2 index _).trans (by rw [decided]))
      obtain ⟨gone, sound⟩ : (base.nodes[n]'n.isLt).state ≠ .enrolled ∧ (base.nodes[n]'n.isLt).state ≠ .failed :=
        e.started_gone b n
      have within := (base.handOver_worked n).within
      have engines := fun i => State.handOver_engine (s := base) gone (e := i)
      have actuators := fun i => State.handOver_actuator_lost (s := base) gone sound (i := i)
      have couplings := fun i => State.handOver_coupling_silent (s := base) gone (c := i)
      have meters := fun i => State.handOver_meter (s := base) gone (i := i)
      generalize base.handOver n = u at run within engines actuators couplings meters
      exact ⟨_, run, within.replied o 3 .done [2, index] s.link.own rfl, engines, actuators, couplings, meters⟩
    · have decided := State.writeRoster_taken (s := b) m f h c fun q => t (moves.1 q.1)
      rw [State.takeRoster_times (mt moves.1 t), funext (b.retimed_eq e)] at decided
      exact State.tableWrite_placed room o 2 index decided rfl rfl
  · exact State.tableWrite_placed room o 8 index (State.writeCoupling_beyond (s := b) h) rfl rfl
  · exact State.tableWrite_placed room o 9 index (State.writeTank_beyond (s := b) h) rfl rfl
  · exact State.tableWrite_placed room o 2 index (State.writeRoster_beyond (s := b) m h) rfl rfl
  · exact State.tableWrite_placed room o 2 index (State.writeRoster_closed (s := b) m) rfl rfl

end
